-- ==== Sys2Proof/Word.lean ====
section
/-! DEFINITION. Word.lean: the words of the machine (R2, R3, R26) and the plainest operations on them. -/

namespace Sys2Proof

/-- One byte of memory. -/
abbrev Byte := BitVec 8

/-- A 32-bit register lane, and an instruction word (R99, R123). -/
abbrev Word := BitVec 32

/-- A 64-bit scalar register, literal or address (R20). -/
abbrev Dword := BitVec 64

/-- A set of the 32 lanes of a group, lane `l` in bit `l` (R19, R20). -/
abbrev Mask := BitVec 32

/-- One value per lane (R19). -/
abbrev Lanes := Vector Word 32

/-- Whether lane `l` is in the set `m`. -/
def Mask.has (m : Mask) (l : Nat) : Bool := m.getLsbD l

/-- The set of the single lane `l`. -/
def Mask.one (l : Nat) : Mask := (1#32) <<< l

/-- The lanes of `m` in increasing lane number (the visiting order of the scope's pseudocode). -/
def Mask.list (m : Mask) : List Nat := (List.range 32).filter m.has

/-- The number of lanes of `m`. -/
def Mask.count (m : Mask) : Nat := m.list.length

/-- The lowest lane of `m`, if it has one. -/
def Mask.lowest (m : Mask) : Option Nat := m.list.head?

/-- The set of the lanes of a list. -/
def Mask.ofList (ls : List Nat) : Mask := ls.foldl (fun m l => m ||| Mask.one l) 0#32

/-- The set of the lanes for which `p` holds. -/
def Mask.where' (p : Nat → Bool) : Mask := Mask.ofList ((List.range 32).filter p)

/-- `bits(x, hi, lo)` of R8 on a natural number. -/
def bitsOf (x hi lo : Nat) : Nat := x / 2 ^ lo % 2 ^ (hi + 1 - lo)

/-- `sext(x, n)` of R8. -/
def sextOf (x n : Nat) : Int :=
  let y := x % 2 ^ n
  if y < 2 ^ (n - 1) then (y : Int) else (y : Int) - 2 ^ n

/-- `sat(x, lo, hi)` of R8. -/
def satTo (x lo hi : Int) : Int := if x < lo then lo else if hi < x then hi else x

/-- The residue of an integer modulo `2^n`, as a natural number. -/
def modTwo (x : Int) (n : Nat) : Nat := (x % (2 ^ n : Int)).toNat

/-- The ceiling of `a / b`. -/
def ceilDiv (a b : Nat) : Nat := (a + b - 1) / b

/-- Entry `i` of a vector, or `d` past its end. -/
def vget {α : Type} {n : Nat} (v : Vector α n) (i : Nat) (d : α) : α := (v[i]?).getD d

/-- Vector with entry `i` replaced (unchanged past its end). -/
def vset {α : Type} {n : Nat} (v : Vector α n) (i : Nat) (x : α) : Vector α n := v.setIfInBounds i x

/-- Entry `l` of a lane vector. -/
def lane (v : Lanes) (l : Nat) : Word := vget v l 0#32

/-- The lane vector with `f l` in lane `l`. -/
def lanesOf (f : Nat → Word) : Lanes := Vector.ofFn (fun i : Fin 32 => f i.val)

/-- `new` in the lanes of `m`, `old` elsewhere. -/
def blend (m : Mask) (new old : Lanes) : Lanes := lanesOf (fun l => if m.has l then lane new l else lane old l)

/-- The low `n` bytes of a number, the lowest first (R3). -/
def bytesLE (n x : Nat) : List Byte := (List.range n).map (fun i => BitVec.ofNat 8 (x / 2 ^ (8 * i)))

/-- The number whose bytes, the lowest first, are `bs` (R3). -/
def ofBytesLE : List Byte → Nat
  | [] => 0
  | b :: bs => b.toNat + 256 * ofBytesLE bs

end Sys2Proof
end

