-- ==== Sys2Proof/Config.lean ====
section
/-! DEFINITION. Config.lean: what the manual leaves to the implementation (R496) and the free values (R5, R173).
A free value is a constant with no body: no proof can see what it is. -/

namespace Sys2Proof.Config

/-- An unspecified 32-bit value (R5), one for each number drawn from `State.fresh` (log entry 1). -/
opaque freeWord : Nat → Word

/-- An unspecified 64-bit value (R5, R375). -/
opaque freeDword : Nat → Dword

/-- A choice the manual leaves to the hardware: which enabled move comes next, whether a cached copy is still held
(R190, R194), which of several things goes first (log entry 2). -/
opaque freeNat : Nat → Nat

/-- What `frsq`, `fex2`, `flg2`, `fsin` and `fcos` give inside the bounds of R173: fixed maps of the input's bits. -/
opaque frsqFree : Word → Word
opaque fex2Free : Word → Word
opaque flg2Free : Word → Word
opaque fsinFree : Word → Word
opaque fcosFree : Word → Word

/-- What a fault of the hardware has changed in what the shadow of a redundant pair holds (R450, log entry 18): in the bytes of
its signature for the operation with this name, by their places, and in its next PC and mask at the end of a run of this
split, by its pipe's count. Without a fault each is zero. -/
opaque shadowByte : Nat → Nat → Byte
opaque shadowPc : Nat → Nat → Dword
opaque shadowAct : Nat → Nat → Word

/-- The capacity of a stack's post tracker is one more than this (R496, R44). -/
opaque trackerExtra : Nat

end Sys2Proof.Config
end

