-- ==== Sys2Proof/Syntax.lean ====
section
/-! DEFINITION. Syntax.lean: the instructions as decoded (R99 to R123) and the steps of the hardware's own agents:
one constructor of `Instr` for every row of spec/opcode_table.json. -/

namespace Sys2Proof

/-- Vector register `v0`-`v63` of the current window (R9). -/
abbrev VReg := Fin 64
/-- Scalar register `s0`-`s31` (R9). -/
abbrev SReg := Fin 32
/-- Predicate `p0`-`p7` (R9). -/
abbrev PReg := Fin 8
/-- Completion token `t0`-`t7` (R9). -/
abbrev Tok := Fin 8
/-- Accumulator tile `acc0`-`acc15` of the group's allocation (R9). -/
abbrev TileNo := Fin 16

/-- Guard predicate and end-of-run flag of word 0 (R101, R115). -/
structure Hd where
  g : PReg
  e : Bool
  deriving DecidableEq, Repr

/-- Operand b of a vector form (R108, R123): a vector register, a scalar register (BK = 1), or literal bits [31:0]. -/
inductive OpB
  | v (n : VReg)
  | s (n : SReg)
  | lit (x : Word)
  deriving DecidableEq, Repr

/-- Operand b of a scalar form (R151): a scalar register or the whole literal. -/
inductive SB
  | s (n : SReg)
  | lit (x : Dword)
  deriving DecidableEq, Repr

/-- Integer element types, codes 0 to 7 of R105. -/
inductive ITy
  | i32 | i8 | i16 | i64 | n32 | n8 | n16 | n64
  deriving DecidableEq, Repr

/-- The arithmetic floating-point types of R167, codes 8, 9 and 10 of R105. -/
inductive FTy
  | f32 | f16 | bf16
  deriving DecidableEq, Repr

/-- All element types of R105, codes 0 to 18. -/
inductive ETy
  | i32 | i8 | i16 | i64 | n32 | n8 | n16 | n64 | f32 | f16 | bf16 | f19 | e5m2 | e4m3 | e3m2 | e2m3 | e2m1 | t2 | b1
  deriving DecidableEq, Repr

/-- Element types of a memory access (R205). -/
inductive MTy
  | i32 | i8 | i16 | i64 | n32 | n8 | n16 | n64 | f32 | f16 | bf16 | e5m2 | e4m3
  deriving DecidableEq, Repr

/-- Rounding modes of R87. -/
inductive Rnd
  | rne | rtz | rdn | rup | rs
  deriving DecidableEq, Repr

/-- Scopes of R7 and R106. -/
inductive Scope
  | sp | gp | tm | sk | md | dm | sy
  deriving DecidableEq, Repr

/-- Carry variants of `add` and `sub` (R152) with the predicate that carries. -/
inductive Carry
  | none | cc (p : PReg) | cx (p : PReg) | cxc (p : PReg)
  deriving DecidableEq, Repr

/-- Integer comparisons of R160. -/
inductive CC
  | eq | ne | lt | le | gt | ge | bs | bc
  deriving DecidableEq, Repr

/-- Floating-point comparisons of R172. -/
inductive FCC
  | eq | ne | lt | le | gt | ge | un | ord
  deriving DecidableEq, Repr

/-- Predicate functions of R161. -/
inductive PFn
  | and | or | xor | andn | orn | nand | nor | xnor
  deriving DecidableEq, Repr

/-- Unary functions of R111 and R155. -/
inductive UFn
  | abs | neg | not | popc | clz | brev
  deriving DecidableEq, Repr

/-- Lane operations of `lred` and `lscan` (R166). -/
inductive LOp
  | add | min | max | and | or | xor
  deriving DecidableEq, Repr

/-- Shuffle variants of R164. -/
inductive ShVar
  | idx | up | down | xor
  deriving DecidableEq, Repr

/-- The word 0 operands of a two-source vector form. -/
structure VA where
  h : Hd
  d : VReg
  a : VReg
  b : OpB
  deriving DecidableEq, Repr

/-- The word 0 operands of a one-source vector form. -/
structure U where
  h : Hd
  d : VReg
  a : VReg
  deriving DecidableEq, Repr

/-- Extended forms of `mov` (R162). -/
inductive MovX
  | vec (d : VReg) (b : OpB)
  | pv (d : VReg) (p : PReg)
  | vp (p : PReg) (b : OpB)
  deriving DecidableEq, Repr

/-- Extended forms of `movs` (R162). -/
inductive MovsX
  | lo (d : VReg) (a : SReg)
  | hi (d : VReg) (a : SReg)
  | get (d : SReg) (a : VReg) (k : Fin 32)
  | gets (d : SReg) (a : VReg) (k : Fin 32)
  deriving DecidableEq, Repr

/-- Forms of `vote` (R165). -/
inductive VoteX
  | all (d p : PReg)
  | any (d p : PReg)
  | uni (d p : PReg)
  | ballot (d : SReg) (p : PReg)
  deriving DecidableEq, Repr

/-- Destination of `lred` (R166). -/
inductive LDst
  | v (d : VReg)
  | s (d : SReg)
  deriving DecidableEq, Repr

/-- Two-source scalar operations without a variant field (R112). -/
inductive SBin
  | mulh | min | max | and | or | xor | shl | shr | sra | rot | bfx
  deriving DecidableEq, Repr

/-- The scalar forms of opcode 0x3E (R112, R151). -/
inductive SOp
  | add (d a : SReg) (b : SB) (sat : Bool) (cv : Carry)
  | sub (d a : SReg) (b : SB) (sat : Bool) (cv : Carry)
  | mul (d a : SReg) (b : SB) (sat : Bool)
  | mad (d a : SReg) (b : SB) (c : SReg) (sat : Bool)
  | bin (op : SBin) (d a : SReg) (b : SB)
  | bfi (d a : SReg) (b : SB) (c : SReg)
  | un (fn : UFn) (d a : SReg) (sat : Bool) (lit : Option Dword)
  | div (d a : SReg) (b : SB) (sat : Bool) (k : Tok)
  | rem (d a : SReg) (b : SB) (k : Tok)
  | cmp (cc : CC) (p : PReg) (a : SReg) (b : SB)
  | mov (d : SReg) (b : SB)
  deriving DecidableEq, Repr

/-- Special registers of R142, numbers 0 to 16. -/
inductive SpecReg
  | lane | qtr | split | grp | team | grid | home | base | cycle | energy | throttle | preq | mstep | seed | trapinfo | act | exited
  deriving DecidableEq, Repr

/-- Levels of the instruction-cache instructions (R144). -/
inductive IcLevel
  | core | stk | mod
  deriving DecidableEq, Repr

/-- Variants of `tlbi` (R148). -/
inductive TlbiVar
  | page | asid | all
  deriving DecidableEq, Repr

/-- The index of a memory address (R204): a scalar register, or a lane register read signed or unsigned, scaled or not. -/
inductive Idx
  | s (b : SReg)
  | v (b : VReg) (uns scaled : Bool)
  deriving DecidableEq, Repr

/-- A memory address (R204). -/
structure Addr where
  a : SReg
  idx : Idx
  off : Word
  deriving DecidableEq, Repr

/-- Variants of `ld`, `st`, `ldg` and `stg` (R206). -/
inductive Shape
  | lane | quad | scal
  deriving DecidableEq, Repr

/-- Atomic operations of R214. -/
inductive AtOp
  | swap | add | min | max | and | or | xor | cas | fadd
  deriving DecidableEq, Repr

/-- The acquire and release bits of an atomic and its scope (R208). -/
structure Ord where
  acq : Bool
  rel : Bool
  sc : Scope
  deriving DecidableEq, Repr

/-- Kinds of fence (R222). -/
inductive FenceKind
  | full | rel | acq
  deriving DecidableEq, Repr

/-- Where a drain writes (R306). -/
inductive DrDst
  | regs (d : VReg)
  | vault (d : SReg) (stride : BitVec 16)
  deriving DecidableEq, Repr

/-- Representative rules of the swatch stage (R320). -/
inductive SwRule
  | first | mean | maxn
  deriving DecidableEq, Repr

/-- Forms of `swm` (R331). -/
inductive SwmForm
  | map | tab | sig
  deriving DecidableEq, Repr

/-- What makes a word no instruction (R113): ILLEGAL with DETAIL 0, 1, 2 and 3. -/
inductive IllKind
  | opcode | length | sub | unary
  deriving DecidableEq, Repr

/-- The trap classes of R382. -/
inductive TClass
  | illegal | priv | home | align | range | page | prot | poison | token | hazard | stack | fixed | soft | brk | redund
  | preempt | restorecap
  deriving DecidableEq, Repr

/-- The privileged registers of R355 that a write reaches without a row of its own (REGISTER_WRITE); PBUDGET is written by the
firmware only. `misaligned` is a write at an address that is no multiple of 8, or of a register with a row of its own by
another size; `readAt` is a read at an offset of the window (R489). -/
inductive WinReg
  | asidbase | pbudget | lattol | cplnote | skbSel (stack : Fin 16) | monitor (stack : Fin 16) (n : Fin 32)
  | readOnly | unlisted | rstctl | misaligned | readAt (off : Nat)
  deriving DecidableEq, Repr

/-- One request of the host to the module's memory (R359): a read, or a write of the bytes whose mask bit is set. The host
keeps the line of a read in its cache when it asks to (R360): to modify it when `own` is set. -/
structure HostReq where
  hpa : Nat
  write : Bool
  keep : Bool
  own : Bool
  mask : BitVec 64
  data : List Byte
  deriving DecidableEq, Repr

/-- A module's link: one of the 12 Mervel links, or the mesh port of a stack toward a direction (R479, type 7). -/
inductive Link
  | mervel (n : Fin 12)
  | mesh (stack : Fin 16) (dir : Fin 4)
  deriving DecidableEq, Repr

/-- What a reading of R490 measures: a base die's temperature in °C, a stack's current in A, the inlet's temperature in °C, the
flow in 0.1 L/min, or the supply in V. -/
inductive Sensor
  | temp | current | inlet | flow | supply
  deriving DecidableEq, Repr

/-- A reading of R490. -/
structure SensorReading where
  sensor : Sensor
  value : Nat
  deriving DecidableEq, Repr

/-- A row of R490, and what is read as it may be lifted: the value of its own sensor, and the flow for row 3. -/
structure LiftReading where
  row : Fin 5
  value : Nat
  flow : Nat
  deriving DecidableEq, Repr

/-- A core, and the estimate of its heat flux in W/cm² (R373). -/
structure CoreFlux where
  core : Fin 8
  flux : Nat
  deriving DecidableEq, Repr

/-- The outcome of link training in a bring-up: whether every mesh link trains, and which Mervel links do (R494). -/
structure LinkTraining where
  mesh : Bool
  mervel : BitVec 12
  deriving DecidableEq, Repr

/-- What a bring-up writes of the domain: its size and the routes (R14, R363, R494). -/
structure DomainSetup where
  dsize : Nat
  routes : List Word
  deriving DecidableEq, Repr

/-- A write of a stack's SKBCTL with THAW set, and its SEL (R492). -/
structure SkbThaw where
  stack : Fin 16
  sel : BitVec 12
  deriving DecidableEq, Repr

/-- What a scrub visit finds (R203, R466). An uncorrectable codeword may also be found by an access that follows at once:
`scrub` is then false. -/
inductive ScrubFind
  | clean | corrected | uncorrectable (tagKnown scrub : Bool)
  deriving DecidableEq, Repr

/-- Where an uncorrectable error that no line of memory holds strikes (R471, R488): the launcher, the router of a stack, or
the registers, tiles or swatch state of a group, on a core of a stack. -/
inductive ErrSite
  | launcher
  | router (stack : Fin 16)
  | group (grid team grp : Nat) (stack : Fin 16) (core : Fin 8)
  deriving DecidableEq, Repr

/-- The instructions, one constructor per row of spec/opcode_table.json.
An instruction row's constructor carries its decoded operands; `…X` is the extended form of a row pair.
A row of an agent's own step carries what tells that step apart. -/
inductive Instr
  -- control, token and system instructions (R124 to R148)
  | nop (h : Hd)
  | bra (h : Hd) (off : Word)
  | brp (h : Hd) (off recon : Word)
  | brx (h : Hd) (a : SReg)
  | call (h : Hd) (callee caller : Fin 64) (off : Word) (live : Dword)
  | callx (h : Hd) (b : SReg) (callee caller : Fin 64) (live : Dword)
  | ret (h : Hd)
  | join (h : Hd) (j : Fin 8)
  | barw (h : Hd) (n : Fin 16)
  | bara (h : Hd) (n : Fin 16)
  | yield (h : Hd)
  | exit (h : Hd)
  | pause (h : Hd) (n : Fin 16)
  | tw (h : Hd) (k : Tok) (m : Fin 64)
  | trap (h : Hd) (n : Fin 64)
  | rft (h : Hd)
  | brk (h : Hd) (n : Fin 64)
  | sget (h : Hd) (r : SpecReg) (d : Fin 64)
  | sput (h : Hd) (r : SpecReg) (a : SReg)
  | icpre (h : Hd) (lvl : IcLevel) (a : SReg) (len : Word)
  | icpin (h : Hd) (lvl : IcLevel) (a : SReg) (len : Word)
  | icfree (h : Hd) (lvl : IcLevel) (a : SReg) (len : Word)
  | stkspill (h : Hd) (d a : SReg) (n : Word) (k : Tok)
  | stkfill (h : Hd) (d a : SReg) (n : Word) (k : Tok)
  | ctxsv (h : Hd) (d a : SReg) (k : Tok)
  | ctxld (h : Hd) (a : SReg)
  | tlbi (h : Hd) (v : TlbiVar) (dom : Bool) (a b : SReg) (k : Tok)
  -- integer, predicate and lane instructions (R149 to R166)
  | add (x : VA)
  | addX (x : VA) (ty : ITy) (sat : Bool) (cv : Carry)
  | sub (x : VA)
  | subX (x : VA) (ty : ITy) (sat : Bool) (cv : Carry)
  | mul (x : VA)
  | mulX (x : VA) (ty : ITy) (sat : Bool)
  | mulh (x : VA)
  | mulhX (x : VA) (ty : ITy)
  | mad (x : VA) (ty : ITy) (sat : Bool) (c : VReg)
  | dpb (x : VA) (sg : Fin 4) (sat : Bool) (c : VReg)
  | min (x : VA)
  | minX (x : VA) (ty : ITy)
  | max (x : VA)
  | maxX (x : VA) (ty : ITy)
  | abs (x : U)
  | absX (x : U) (ty : ITy) (sat : Bool)
  | neg (x : U)
  | negX (x : U) (ty : ITy) (sat : Bool)
  | not (x : U)
  | notX (x : U) (ty : ITy)
  | popc (x : U)
  | popcX (x : U) (ty : ITy)
  | clz (x : U)
  | clzX (x : U) (ty : ITy)
  | brev (x : U)
  | brevX (x : U) (ty : ITy)
  | div (x : VA) (ty : ITy) (sat : Bool) (k : Tok)
  | rem (x : VA) (ty : ITy) (k : Tok)
  | and (x : VA)
  | andX (x : VA) (ty : ITy)
  | or (x : VA)
  | orX (x : VA) (ty : ITy)
  | xor (x : VA)
  | xorX (x : VA) (ty : ITy)
  | shl (x : VA)
  | shlX (x : VA) (ty : ITy)
  | shr (x : VA)
  | shrX (x : VA) (ty : ITy)
  | sra (x : VA)
  | sraX (x : VA) (ty : ITy)
  | rot (x : VA)
  | rotX (x : VA) (ty : ITy)
  | bfx (x : VA) (ty : ITy)
  | bfi (x : VA) (ty : ITy) (c : VReg)
  | sel (x : VA) (c : PReg)
  | cmp (h : Hd) (cc : CC) (p : PReg) (a : VReg) (b : OpB)
  | cmpX (h : Hd) (cc : CC) (p : PReg) (a : VReg) (b : OpB) (ty : ITy)
  | plog (h : Hd) (f : PFn) (d a b : PReg)
  | mov (h : Hd) (d : VReg) (b : OpB)
  | movX (h : Hd) (m : MovX)
  | movl (h : Hd) (d : VReg) (x : Dword)
  | movs (h : Hd) (d : VReg) (a : SReg)
  | movsX (h : Hd) (m : MovsX)
  | shfl (x : VA)
  | shflX (x : VA) (var : ShVar)
  | vote (h : Hd) (d p : PReg)
  | voteX (h : Hd) (v : VoteX)
  | lred (h : Hd) (op : LOp) (d a : VReg)
  | lredX (h : Hd) (op : LOp) (ty : ITy) (sat : Bool) (dst : LDst) (a : VReg)
  | lscan (h : Hd) (op : LOp) (d a : VReg)
  | lscanX (h : Hd) (op : LOp) (ty : ITy) (sat : Bool) (excl : Bool) (d a : VReg)
  | scalarForm (h : Hd) (ty : ITy) (op : SOp)
  -- floating-point, conversion and scaling instructions (R167 to R182)
  | fadd (x : VA)
  | faddX (x : VA) (ty : FTy) (lo : Bool) (rnd : Rnd)
  | fsub (x : VA)
  | fsubX (x : VA) (ty : FTy) (lo : Bool) (rnd : Rnd)
  | fmul (x : VA)
  | fmulX (x : VA) (ty : FTy) (lo : Bool) (rnd : Rnd)
  | ffma (x : VA) (ty : FTy) (lo : Bool) (rnd : Rnd) (c : VReg)
  | fmin (x : VA)
  | fminX (x : VA) (ty : FTy) (lo : Bool)
  | fmax (x : VA)
  | fmaxX (x : VA) (ty : FTy) (lo : Bool)
  | frcp (x : U)
  | frcpX (x : U) (rnd : Rnd)
  | frsq (x : U)
  | frsqX (x : U)
  | fsqrt (x : U)
  | fsqrtX (x : U) (rnd : Rnd)
  | fex2 (x : U)
  | fex2X (x : U)
  | flg2 (x : U)
  | flg2X (x : U)
  | fsin (x : U)
  | fsinX (x : U)
  | fcos (x : U)
  | fcosX (x : U)
  | fcmp (h : Hd) (cc : FCC) (p : PReg) (a : VReg) (b : OpB)
  | fcmpX (h : Hd) (cc : FCC) (p : PReg) (a : VReg) (b : OpB) (ty : FTy) (lo : Bool)
  | fcvt (x : U) (td ts : ETy) (sel : Fin 8) (ofn sat : Bool) (rnd : Rnd)
  | fpk (x : U) (td ts : ETy) (o : Fin 64) (k : Fin 32) (rnd : Rnd)
  | funpk (x : U) (td ts : ETy) (o : Fin 64) (k : Fin 32) (rnd : Rnd)
  | bscl (h : Hd) (d : SReg) (a : VReg) (td ts : ETy) (ce i4 : Bool)
  | bqnt (h : Hd) (d a : VReg) (b : SReg) (td ts : ETy) (ofn i4 : Bool) (rnd : Rnd)
  | bdeq (h : Hd) (d a : VReg) (b : SReg) (td ts : ETy) (i4 : Bool) (rnd : Rnd)
  | rseed (h : Hd) (a : VReg)
  | rseedX (h : Hd) (a : VReg)
  -- memory and migration instructions (R204 to R223)
  | ld (h : Hd) (m : Addr) (sh : Shape) (ty : MTy) (d : Fin 64) (acq : Option Scope) (k : Tok)
  | st (h : Hd) (m : Addr) (sh : Shape) (ty : MTy) (c : Fin 64) (rel : Option Scope) (k : Tok)
  | ldg (h : Hd) (m : Addr) (sh : Shape) (ty : MTy) (d : Fin 64) (acq : Option Scope) (k : Tok) (live : Dword)
  | stg (h : Hd) (m : Addr) (sh : Shape) (ty : MTy) (c : Fin 64) (rel : Option Scope) (k : Tok) (live : Dword)
  | atg (h : Hd) (m : Addr) (op : AtOp) (ty : MTy) (sat : Bool) (d c : VReg) (o : Ord) (k : Tok) (live : Dword)
  | lrg (h : Hd) (m : Addr) (ty : MTy) (d : VReg) (acq : Option Scope) (k : Tok) (live : Dword)
  | scg (h : Hd) (m : Addr) (ty : MTy) (d c : VReg) (o : Ord) (k : Tok) (live : Dword)
  | stp (h : Hd) (m : Addr) (ty : MTy) (c : VReg) (rel : Option Scope)
  | atp (h : Hd) (m : Addr) (op : AtOp) (ty : MTy) (sat : Bool) (c : VReg) (rel : Option Scope)
  | ldz (h : Hd) (d : VReg) (a b : SReg) (ty : MTy) (n : Word) (acq : Option Scope) (k : Tok)
  | stz (h : Hd) (d a b : SReg) (c : VReg) (ty : MTy) (n : Word) (rel : Option Scope) (k : Tok)
  | fence (h : Hd) (f : FenceKind) (sc : Scope)
  | pfence (h : Hd)
  -- copies and barrier objects (R272 to R276)
  | cpkt (h : Hd) (sc : Scope) (d a b : SReg) (k : Tok)
  | binit (h : Hd) (a b : SReg) (n : BitVec 16) (k : Tok)
  | bexp (h : Hd) (arv : Bool) (sc : Scope) (a b : SReg) (k : Tok)
  | barv (h : Hd) (sc : Scope) (a : SReg) (n : BitVec 16) (k : Tok)
  | bobs (h : Hd) (w1 acq : Bool) (sc : Scope) (d a : SReg) (k : Tok)
  | bwt (h : Hd) (sc : Scope) (a b : SReg) (cont : Option Word)
  -- matrix instructions (R297 to R308)
  | palLiteral (h : Hd) (x : Dword)
  | palRegister (h : Hd) (a : SReg)
  | palr (h : Hd) (d : SReg)
  | mma (h : Hd) (t : TileNo) (a : VReg) (b : SReg) (ks : Fin 256) (c : VReg) (soff : Word) (k : Tok)
  | mmab (h : Hd) (t : TileNo) (a : VReg) (b : SReg) (c : VReg) (boff : Word) (k : Tok)
  | accz (h : Hd) (all : Bool) (t : TileNo) (k : Tok)
  | accrd (h : Hd) (d : VReg) (t : TileNo) (j0 : Fin 64) (n : Fin 128) (k : Tok)
  | accwr (h : Hd) (t : TileNo) (a : VReg) (j0 : Fin 64) (n : Fin 128) (k : Tok)
  | accst (h : Hd) (d : SReg) (t : TileNo) (k : Tok)
  | drq (h : Hd) (dst : DrDst) (t : TileNo) (b : SReg) (c : VReg) (uns : Bool) (j0 : Fin 64) (n : Fin 128) (k : Tok)
  | drf (h : Hd) (dst : DrDst) (t : TileNo) (ty : MTy) (sat ofn : Bool) (j0 : Fin 64) (n : Fin 128) (k : Tok)
  -- the swatch stage (R312 to R334)
  | swc (h : Hd) (rule : SwRule) (a : SReg) (planes width : Fin 16) (k : Tok)
  | swh (h : Hd) (a : VReg) (b : SReg) (c : VReg) (k : Tok)
  | swb (h : Hd) (k : Tok)
  | swm (h : Hd) (form : SwmForm) (a : SReg) (k : Tok)
  | swl (h : Hd) (a : SReg) (k : Tok)
  | swx (h : Hd) (t : TileNo) (j0 : Fin 64) (n : Fin 128) (k : Tok)
  | mmas (h : Hd) (t : TileNo) (a : VReg) (b : SReg) (ks : Fin 256) (c : VReg) (soff : Word) (k : Tok)
  | mmag (h : Hd) (t : TileNo) (a : VReg) (b : SReg) (ks : Fin 256) (soff : Word) (k : Tok)
  -- range instructions (R347 to R351)
  | rgpost (h : Hd) (d a b : SReg) (k : Tok)
  | rgtake (h : Hd) (d : SReg) (g : Word) (k : Tok)
  | rgnext (h : Hd) (d : SReg) (p : PReg)
  | rgdone (h : Hd) (k : Tok)
  -- the launcher (R53 to R64, R481 to R484)
  | launchPacket (level : Fin 4)
  | dependenceMet (level : Fin 4) (j : Fin 4)
  | placingTeams
  | teamEnd (grid team : Nat)
  | completionRecord (grid : Nat)
  | completionReport (grid rank : Nat) (aborted : Bool) (energy : Nat)
  -- migration, the split table and division (R21, R22, R38 to R46)
  | legDeparture (split : Nat)
  | contextAdmission (stack : Fin 16)
  | splitTableRequest (src dst : Nat)
  | splitTableReport (src dst : Nat)
  | division (split : Nat)
  | operationCompletion (split op : Nat)
  -- posts, probes and barriers (R43 to R45, R134, R268)
  | post (src dst : Nat)
  | postAcknowledgement (src dst : Nat)
  | probe (src dst : Nat)
  | probeAnswer (src dst : Nat)
  | barrierArrival (src dst : Nat)
  | barrierObjectUpdate (src dst : Nat)
  -- copy engines (R259 to R270)
  | copyPacket (stack : Fin 16) (level : Fin 4)
  | copyBurst (stack : Fin 16) (level : Fin 4) (pkt : Nat)
  | loopIteration (stack : Fin 16) (level : Fin 4)
  | signalPacket (stack : Fin 16) (level : Fin 4)
  -- the array, throttle, energy and monitors (R277 to R289, R372 to R377)
  | pass (stack : Fin 16) (core : Fin 8)
  | rampInterval (stack : Fin 16) (core : Fin 8)
  | hstepFall (stack : Fin 16) (core : CoreFlux)
  | hstepRise (stack : Fin 16) (core : CoreFlux)
  | fstepUpdate (stack : Fin 16) (core : Fin 8) (step : Fin 9)
  | energyCharge (stack : Fin 16) (amounts : List (Nat × Nat)) (idle : Nat)
  | monitorSample (stack : Fin 16) (n : Fin 32) (reading : Nat)
  | scrubVisit (line : Nat) (found : ScrubFind)
  | refreshWindow (stack : Fin 16)
  | tableWalk (stack : Fin 16) (core : Fin 8) (asid : Nat) (va : Dword)
  | reservationExpiry (n : Nat)
  | holdoffExpiry (n : Nat)
  -- pre-emption, traps and halts (R73 to R76, R391 to R406, R435, R436)
  | budgetExpiry (stack : Fin 16) (grid : Nat)
  | handlerBudgetExpiry (stack : Fin 16) (grid : Nat)
  | teamResumption (grid team : Nat)
  | trapEntry (split : Nat)
  | halt (split : Nat)
  | sliceExpiry (split : Nat)
  | rangeRequest (src dst : Nat)
  | rangeReply (src dst : Nat)
  -- errors, links, limits and power (R370, R371, R477 to R494)
  | errorRecord
  | linkRetry (l : Link)
  | linkRetrain (l : Link)
  | retrainTimeout (l : Link)
  | linkDown (l : Fin 12)
  | routeRewrite (m : Fin 64) (v : Bool) (link : Fin 16)
  | sensorLimit (stack : Fin 16) (row : Fin 5) (reading : SensorReading)
  | limitLifted (stack : Fin 16) (row : LiftReading)
  | powerStateEntry (stack : Fin 16) (st : Fin 4)
  | stackWake (stack : Fin 16)
  | powerStateExit (stack : Fin 16)
  | bringUp (links : LinkTraining) (modno : Fin 64) (domain : DomainSetup)
  -- the host (R355 to R361, R378, R484, R489, R492, R493)
  | hostAccess (r : HostReq)
  | hostSnoop (line : Nat)
  | cxlLinkDown
  | qring (level : Fin 4) (v : Dword)
  | cring (stack : Fin 16) (level : Fin 4) (v : Dword)
  | errlog (v : Dword)
  | preemptionRequest (grid : Nat)
  | preemptionWithdraw (grid : Nat)
  | abortctl (grid : Nat)
  | warmReset
  | coldReset
  | skbctlThaw (write : SkbThaw)
  | errstatClear
  | monitorClear (stack : Fin 16) (n : Fin 32)
  | pwrcap (v : Dword)
  | ramp (v : Dword)
  | svcUpdate (stack : Fin 16) (v : Dword)
  | registerWrite (r : WinReg) (size : Nat) (v : Dword)
  -- results, undecodable words and the remaining module events
  | resultLanding (split : Nat)
  | unassignedOpcode (k : IllKind)
  | linkRetrained (l : Link)
  | backInvalidateResponse (line : Nat) (dirty : Option (List Byte))
  | launcherRouterError (site : ErrSite)
  | peerWarmReset (m : Fin 64)
  | peerReady (m : Fin 64)
  deriving DecidableEq, Repr

end Sys2Proof
end

