-- ==== Sys2Proof/WellFormed.lean ====
section
/-! DEFINITION. WellFormed.lean: the limits an entry sets on operands that its encoding carries (R409 step 4, R410, R411,
R412, R415 to R418, R422). An instruction outside them is not encodable; its words raise ILLEGAL with DETAIL 5. -/

namespace Sys2Proof

/-- The width in bits of an integer type (R105). -/
def ITy.width : ITy → Nat
  | .i32 | .n32 => 32
  | .i8 | .n8 => 8
  | .i16 | .n16 => 16
  | .i64 | .n64 => 64

/-- Whether the type is read as two's complement (R149). -/
def ITy.signed : ITy → Bool
  | .i32 | .i8 | .i16 | .i64 => true
  | .n32 | .n8 | .n16 | .n64 => false

/-- A type of the vector forms of 0x20 to 0x3D (R149, R415). -/
def ITy.vec (t : ITy) : Bool := t.width != 64

/-- A type of the carry variants and of the bit-field forms; the 64-bit ones in scalar form only (R152, R158, R415;
log entry 3). -/
def ITy.wide (t : ITy) (scalar : Bool) : Bool := t.width == 32 || scalar && t.width == 64

/-- The width in bits of an element type (R105). -/
def ETy.width : ETy → Nat
  | .i32 | .n32 | .f32 | .f19 => 32
  | .i16 | .n16 | .f16 | .bf16 => 16
  | .i8 | .n8 | .e5m2 | .e4m3 => 8
  | .i64 | .n64 => 64
  | .e3m2 | .e2m3 => 6
  | .e2m1 => 4
  | .t2 => 2
  | .b1 => 1

/-- Whether the type is one of the eight integer types. -/
def ETy.isInt : ETy → Bool
  | .i32 | .n32 | .i16 | .n16 | .i8 | .n8 | .i64 | .n64 => true
  | _ => false

/-- The types of `fcvt` (R175). -/
def ETy.cvt : ETy → Bool
  | .i32 | .i8 | .i16 | .n32 | .n8 | .n16 | .f32 | .f16 | .bf16 | .f19 | .e5m2 | .e4m3 => true
  | _ => false

/-- The wide side of `fpk` and `funpk` (R177). -/
def ETy.pkWide : ETy → Bool
  | .f32 | .f16 | .bf16 | .i32 | .i16 | .i8 => true
  | _ => false

/-- The narrow side of `fpk` and `funpk` (R177). -/
def ETy.pkNarrow : ETy → Bool
  | .e3m2 | .e2m3 | .e2m1 | .t2 | .b1 => true
  | _ => false

/-- The wide side of the block-scaling instructions (R179). -/
def ETy.blkWide : ETy → Bool
  | .f32 | .f16 | .bf16 => true
  | _ => false

/-- The narrow side of the block-scaling instructions (R179). -/
def ETy.blkNarrow : ETy → Bool
  | .e5m2 | .e4m3 | .i8 | .e3m2 | .e2m3 | .e2m1 | .t2 => true
  | _ => false

/-- The size in bytes of a memory access of the type (R205). -/
def MTy.size : MTy → Nat
  | .i8 | .n8 | .e5m2 | .e4m3 => 1
  | .i16 | .n16 | .f16 | .bf16 => 2
  | .i32 | .n32 | .f32 => 4
  | .i64 | .n64 => 8

/-- The integer types of R214 and R216. -/
def MTy.atomic : MTy → Bool
  | .i32 | .n32 | .i64 | .n64 => true
  | _ => false

/-- The number of consecutive registers an access of `sz` bytes fills (R205, R206). -/
def regsOf (sz : Nat) : Nat := ceilDiv sz 4

/-- The bytes an access moves per lane (R205, R206). -/
def Shape.size (sh : Shape) (ty : MTy) : Nat := match sh with
  | .quad => 16
  | _ => ty.size

/-- The limits of R206, R410 and R417 on an `ld`-shaped access. -/
def accessOk (m : Addr) (sh : Shape) (ty : MTy) (d : Fin 64) : Bool := match sh with
  | .lane => d.val + regsOf ty.size ≤ 64
  | .quad => ty == .i32 && d.val + 4 ≤ 64
  | .scal => (match m.idx with | .s _ => true | .v _ _ _ => false) && d.val < 32

/-- The types and the register group of an atomic (R214, R417). -/
def atomicOk (op : AtOp) (ty : MTy) (sat : Bool) (d c : VReg) : Bool :=
  (if op == .fadd then ty == .f32 else ty.atomic) && (!sat || op == .add)
    && d.val + regsOf ty.size ≤ 64
    && c.val + (if op == .cas then 2 else 1) * regsOf ty.size ≤ 64

/-- SCOPE without ACQ or REL is reserved (R208). -/
def ordOk (o : Ord) : Bool := o.acq || o.rel || o.sc == .sp

/-- The elements per register of `ldz` and `stz` times 32 lanes, and their register bound (R220). -/
def zOk (r : VReg) (ty : MTy) (n : Word) : Bool :=
  ty.size ≤ 4 && n != 0 && r.val + ceilDiv n.toNat (32 * (4 / ty.size)) ≤ 64

/-- Columns `J0` to `J0 + N - 1`, with `n` holding N - 1 (R304, R306). -/
def colsOk (j0 : Fin 64) (n : Fin 128) : Bool := j0.val + n.val + 1 ≤ 64

/-- The destination of a drain of `w`-bit results (R306, R422). -/
def drainOk (dst : DrDst) (n : Fin 128) (w : Nat) : Bool := match dst with
  | .regs d => d.val + ceilDiv ((n.val + 1) * w) 32 ≤ 64
  | .vault _ stride => (n.val + 1) * w / 8 ≤ stride.toNat * 64

/-- Whether the floating-point `.lo` form is defined (R167). -/
def loOk (ty : FTy) (lo : Bool) : Bool := !lo || ty != .f32

/-- Registers a wide side of `We` elements per register takes for the four elements of R179. -/
def blkRegs (t : ETy) : Nat := if t == .f32 then 4 else 2

/-- The limits of a scalar form (R151, R415). With a literal, where R112 and R108 meet in B, only `abs`, whose code is 0, stands
(DESIGN CHOICE, log entry 67). -/
def SOp.wf (ty : ITy) : SOp → Bool
  | .add _ _ _ sat cv | .sub _ _ _ sat cv => cv == .none || ty.wide true && !sat
  | .bin .bfx _ _ _ | .bfi _ _ _ _ => ty.wide true
  | .un fn _ _ sat lit => (!sat || fn == .abs || fn == .neg) && (lit == none || fn == .abs)
  | .mul _ _ _ _ | .mad _ _ _ _ _ | .bin _ _ _ _ | .div _ _ _ _ _ | .rem _ _ _ _ | .cmp _ _ _ _ | .mov _ _ => true

/-- A code offset is a multiple of 4 (R104). -/
def offOk (x : Word) : Bool := x.toNat % 4 == 0

/-- The instructions as the encodings carry them. The steps of the hardware's own agents have no words. -/
def Instr.wf : Instr → Bool
  | .bra _ off => offOk off
  | .brp _ off recon => offOk off && offOk recon
  | .call _ _ caller off _ => offOk off && caller.val ≤ 55
  | .callx _ _ _ caller _ => caller.val ≤ 55
  | .pause _ n => n.val != 0
  | .sget _ r d => (match r with | .lane | .qtr | .seed => true | _ => d.val < 32)
  | .sput _ r _ => r == .mstep || r == .trapinfo
  | .stkspill _ _ _ n _ | .stkfill _ _ _ n _ => 1 ≤ n.toNat && n.toNat ≤ 32
  | .addX _ ty sat cv | .subX _ ty sat cv => ty.vec && (cv == .none || ty.wide false && !sat)
  | .mulX _ ty _ | .mulhX _ ty | .mad _ ty _ _ | .minX _ ty | .maxX _ ty | .absX _ ty _ | .negX _ ty _ | .notX _ ty
  | .popcX _ ty | .clzX _ ty | .brevX _ ty | .div _ ty _ _ | .rem _ ty _ | .andX _ ty | .orX _ ty | .xorX _ ty
  | .shlX _ ty | .shrX _ ty | .sraX _ ty | .rotX _ ty | .cmpX _ _ _ _ _ ty | .lredX _ _ ty _ _ _
  | .lscanX _ _ ty _ _ _ _ => ty.vec
  | .bfx _ ty | .bfi _ ty _ => ty.wide false
  | .movl _ d _ => d.val ≤ 62
  | .scalarForm _ ty op => op.wf ty
  | .faddX _ ty lo _ | .fsubX _ ty lo _ | .fmulX _ ty lo _ | .ffma _ ty lo _ _ | .fminX _ ty lo | .fmaxX _ ty lo
  | .fcmpX _ _ _ _ _ ty lo => loOk ty lo
  | .fcvt _ td ts se _ sat _ => td.cvt && ts.cvt && (!sat || td.isInt && ts.isInt)
      && se.val < Nat.max td.width ts.width / Nat.min td.width ts.width
  | .fpk x td ts o k _ => td.pkNarrow && ts.pkWide
      && x.a.val + ceilDiv (k.val + 1) (32 / ts.width) ≤ 64
      && x.d.val + ceilDiv ((o.val + k.val + 1) * td.width) 32 ≤ 64
  | .funpk x td ts o k _ => ts.pkNarrow && td.pkWide
      && x.d.val + ceilDiv (k.val + 1) (32 / td.width) ≤ 64
      && x.a.val + ceilDiv ((o.val + k.val + 1) * ts.width) 32 ≤ 64
  | .bscl _ _ a td ts ce i4 => td.blkNarrow && ts.blkWide && (!ce || td != .t2) && (!i4 || td == .i8)
      && a.val + blkRegs ts ≤ 64
  | .bqnt _ _ a _ td ts _ i4 _ => td.blkNarrow && ts.blkWide && (!i4 || td == .i8) && a.val + blkRegs ts ≤ 64
  | .bdeq _ d _ _ td ts i4 _ => ts.blkNarrow && td.blkWide && (!i4 || ts == .i8) && d.val + blkRegs td ≤ 64
  | .ld _ m sh ty d _ _ | .ldg _ m sh ty d _ _ _ => accessOk m sh ty d
  | .st _ m sh ty c _ _ | .stg _ m sh ty c _ _ _ => accessOk m sh ty c
  | .atg _ _ op ty sat d c o _ _ => atomicOk op ty sat d c && ordOk o
  | .lrg _ _ ty d _ _ _ => ty.atomic && d.val + regsOf ty.size ≤ 64
  | .scg _ _ ty _ c o _ _ => ty.atomic && ordOk o && c.val + regsOf ty.size ≤ 64
  | .stp _ _ ty c _ => c.val + regsOf ty.size ≤ 64
  | .atp _ _ op ty sat c _ => op != .swap && op != .cas && atomicOk op ty sat 0 c
  | .ldz _ d _ _ ty n _ _ => zOk d ty n
  | .stz _ _ _ _ c ty n _ _ => zOk c ty n
  | .cpkt _ _ _ _ b _ => b.val ≤ 24
  | .barv _ _ _ n _ => n != 0
  | .bwt _ _ _ _ cont => (match cont with | some off => offOk off | none => true)
  | .mmab _ _ a _ _ boff _ => a.val ≤ 46 && boff.toNat % 64 == 0
  | .accrd _ d _ j0 n _ => colsOk j0 n && d.val + n.val + 1 ≤ 64
  | .accwr _ _ a j0 n _ => colsOk j0 n && a.val + n.val + 1 ≤ 64
  | .drq _ dst _ _ _ _ j0 n _ => colsOk j0 n && drainOk dst n 8
  | .drf _ dst _ ty sat _ j0 n _ => ty.size ≤ 4 && (!sat || match ty with
      | .i32 | .i8 | .i16 | .n32 | .n8 | .n16 => true | _ => false)
      && colsOk j0 n && drainOk dst n (8 * ty.size)
  | .swc _ _ _ planes width _ => width.val ≤ planes.val
  | .swx _ _ j0 n _ => colsOk j0 n
  | .nop _ | .brx _ _ | .ret _ | .join _ _ | .barw _ _ | .bara _ _ | .yield _ | .exit _ | .tw _ _ _ | .trap _ _
  | .rft _ | .brk _ _ | .icpre _ _ _ _ | .icpin _ _ _ _ | .icfree _ _ _ _ | .ctxsv _ _ _ _ | .ctxld _ _
  | .tlbi _ _ _ _ _ _ | .add _ | .sub _ | .mul _ | .mulh _ | .dpb _ _ _ _ | .min _ | .max _ | .abs _ | .neg _
  | .not _ | .popc _ | .clz _ | .brev _ | .and _ | .or _ | .xor _ | .shl _ | .shr _ | .sra _ | .rot _ | .sel _ _
  | .cmp _ _ _ _ _ | .plog _ _ _ _ _ | .mov _ _ _ | .movX _ _ | .movs _ _ _ | .movsX _ _ | .shfl _ | .shflX _ _
  | .vote _ _ _ | .voteX _ _ | .lred _ _ _ _ | .lscan _ _ _ _ | .fadd _ | .fsub _ | .fmul _ | .fmin _ | .fmax _
  | .frcp _ | .frcpX _ _ | .frsq _ | .frsqX _ | .fsqrt _ | .fsqrtX _ _ | .fex2 _ | .fex2X _ | .flg2 _ | .flg2X _
  | .fsin _ | .fsinX _ | .fcos _ | .fcosX _ | .fcmp _ _ _ _ _ | .rseed _ _ | .rseedX _ _ | .fence _ _ _ | .pfence _
  | .binit _ _ _ _ _ | .bexp _ _ _ _ _ _ | .bobs _ _ _ _ _ _ _ | .palLiteral _ _ | .palRegister _ _ | .palr _ _
  | .mma _ _ _ _ _ _ _ _ | .accz _ _ _ _ | .accst _ _ _ _ | .swh _ _ _ _ _ | .swb _ _ | .swm _ _ _ _ | .swl _ _ _
  | .mmas _ _ _ _ _ _ _ _ | .mmag _ _ _ _ _ _ _ | .rgpost _ _ _ _ _ | .rgtake _ _ _ _ | .rgnext _ _ _
  | .rgdone _ _ => true
  | .launchPacket _ | .dependenceMet _ _ | .placingTeams | .teamEnd _ _ | .completionRecord _ | .completionReport _ _ _ _
  | .legDeparture _ | .contextAdmission _ | .splitTableRequest _ _ | .splitTableReport _ _ | .division _
  | .operationCompletion _ _ | .post _ _ | .postAcknowledgement _ _ | .probe _ _ | .probeAnswer _ _
  | .barrierArrival _ _ | .barrierObjectUpdate _ _ | .copyPacket _ _ | .copyBurst _ _ _ | .loopIteration _ _
  | .signalPacket _ _ | .pass _ _ | .rampInterval _ _ | .hstepFall _ _ | .hstepRise _ _ | .fstepUpdate _ _ _
  | .energyCharge _ _ _ | .monitorSample _ _ _ | .scrubVisit _ _ | .refreshWindow _ | .tableWalk _ _ _ _
  | .reservationExpiry _ | .holdoffExpiry _ | .budgetExpiry _ _ | .handlerBudgetExpiry _ _ | .teamResumption _ _
  | .trapEntry _ | .halt _ | .sliceExpiry _ | .rangeRequest _ _ | .rangeReply _ _ | .errorRecord | .linkRetry _
  | .linkRetrain _ | .retrainTimeout _ | .linkDown _ | .routeRewrite _ _ _ | .sensorLimit _ _ _ | .limitLifted _ _
  | .powerStateEntry _ _ | .stackWake _ | .powerStateExit _ | .bringUp _ _ _ | .hostAccess _ | .hostSnoop _
  | .cxlLinkDown | .qring _ _ | .cring _ _ _ | .errlog _ | .preemptionRequest _ | .preemptionWithdraw _ | .abortctl _
  | .warmReset | .coldReset | .skbctlThaw _ | .errstatClear | .monitorClear _ _ | .pwrcap _ | .ramp _ | .svcUpdate _ _
  | .registerWrite _ _ _ | .resultLanding _ | .unassignedOpcode _ | .linkRetrained _ | .backInvalidateResponse _ _
  | .launcherRouterError _ | .peerWarmReset _ | .peerReady _ => false

end Sys2Proof
end

