-- ==== Sys2Proof/Decode.lean ====
section
/-! DEFINITION. Decode.lean: the fields of the instruction words (R99 to R108), the decoder, total on any bytes and
rejecting by name (R109 to R113, R409 steps 1, 3 and 4, R410), and the encoder. -/

namespace Sys2Proof

/-- The fields of one instruction: word 0 (R101), word 1 (R104), word 2 and the literal (R108). An absent word reads as
zero (R107). IMM7 of R102 is `64 * bk + b`. -/
structure Fields where
  len : Nat := 0
  e : Nat := 0
  op : Nat := 0
  g : Nat := 0
  d : Nat := 0
  a : Nat := 0
  b : Nat := 0
  bk : Nat := 0
  c : Nat := 0
  tok : Nat := 0
  ty : Nat := 0
  rnd : Nat := 0
  scope : Nat := 0
  sat : Nat := 0
  rel : Nat := 0
  acq : Nat := 0
  fs : Nat := 0
  sub : Nat := 0
  imm : Nat := 0
  lit : Nat := 0
  deriving DecidableEq, Repr

/-- Whether the length code brings words 1 and 2, and whether it brings a literal (R99). -/
def hasExt (len : Nat) : Bool := len / 2 == 1
def hasLit (len : Nat) : Bool := len % 2 == 1

/-- The byte count of a length code (R99). -/
def lenBytes (len : Nat) : Nat := 4 + (if hasExt len then 8 else 0) + (if hasLit len then 8 else 0)

/-- Word 0 (R101). -/
def Fields.word0 (f : Fields) : Nat :=
  f.len + 2 ^ 2 * f.e + 2 ^ 3 * f.op + 2 ^ 10 * f.g + 2 ^ 13 * f.d + 2 ^ 19 * f.a + 2 ^ 25 * f.b + 2 ^ 31 * f.bk

/-- Word 1 (R104). -/
def Fields.word1 (f : Fields) : Nat :=
  f.c + 2 ^ 6 * f.tok + 2 ^ 9 * f.ty + 2 ^ 13 * f.rnd + 2 ^ 16 * f.scope + 2 ^ 19 * f.sat + 2 ^ 20 * f.rel
    + 2 ^ 21 * f.acq + 2 ^ 22 * f.fs + 2 ^ 24 * f.sub

/-- The whole instruction as one number, bit 0 the least significant bit of word 0 (R99, R3). -/
def Fields.pack (f : Fields) : Nat :=
  f.word0
    + (if hasExt f.len then 2 ^ 32 * f.word1 + 2 ^ 64 * f.imm + (if hasLit f.len then 2 ^ 96 * f.lit else 0)
       else if hasLit f.len then 2 ^ 32 * f.lit else 0)

/-- The fields of an instruction whose words are `w`, numbered as in `pack`. -/
def Fields.unpack (w : Nat) : Fields :=
  let len := w % 2 ^ 2
  let ext := hasExt len
  let w1 := if ext then w / 2 ^ 32 % 2 ^ 32 else 0
  { len := len, e := w / 2 ^ 2 % 2, op := w / 2 ^ 3 % 2 ^ 7, g := w / 2 ^ 10 % 2 ^ 3, d := w / 2 ^ 13 % 2 ^ 6,
    a := w / 2 ^ 19 % 2 ^ 6, b := w / 2 ^ 25 % 2 ^ 6, bk := w / 2 ^ 31 % 2,
    c := w1 % 2 ^ 6, tok := w1 / 2 ^ 6 % 2 ^ 3, ty := w1 / 2 ^ 9 % 2 ^ 4, rnd := w1 / 2 ^ 13 % 2 ^ 3,
    scope := w1 / 2 ^ 16 % 2 ^ 3, sat := w1 / 2 ^ 19 % 2, rel := w1 / 2 ^ 20 % 2, acq := w1 / 2 ^ 21 % 2,
    fs := w1 / 2 ^ 22 % 2 ^ 2, sub := w1 / 2 ^ 24 % 2 ^ 8,
    imm := if ext then w / 2 ^ 64 % 2 ^ 32 else 0,
    lit := if hasLit len then (if ext then w / 2 ^ 96 % 2 ^ 64 else w / 2 ^ 32 % 2 ^ 64) else 0 }

/-- The length codes an opcode accepts (R110); none for an unassigned opcode (R109). -/
def lensOf (op : Nat) : List Nat :=
  if op ∈ [0x01, 0x04, 0x07, 0x08, 0x09, 0x0A, 0x0B, 0x0C, 0x0D, 0x0E, 0x0F, 0x10, 0x11, 0x12, 0x13, 0x36, 0x71, 0x64]
  then [0]
  else if op = 0x38 then [1]
  else if op ∈ [0x02, 0x14, 0x15, 0x16, 0x17, 0x18, 0x19, 0x1A, 0x1B, 0x4E, 0x4F, 0x50, 0x51, 0x52, 0x53, 0x58, 0x59,
      0x5F, 0x60, 0x61, 0x62, 0x63, 0x65, 0x66, 0x67, 0x68, 0x69, 0x6A, 0x72, 0x73, 0x74, 0x75, 0x76, 0x77, 0x78, 0x79,
      0x7A] then [2]
  else if op ∈ [0x03, 0x05, 0x06, 0x5A, 0x5B, 0x5C, 0x5D, 0x5E] then [3]
  else if op ∈ [0x20, 0x21, 0x22, 0x23, 0x26, 0x27, 0x2A, 0x2B, 0x2C, 0x2E, 0x2F, 0x30, 0x31, 0x35, 0x37, 0x3A, 0x40,
      0x41, 0x42, 0x44, 0x45, 0x4D] then [0, 1, 2, 3]
  else if op ∈ [0x2D, 0x39, 0x3B, 0x3C, 0x3D, 0x46, 0x47, 0x48, 0x49, 0x4A, 0x4B, 0x4C, 0x54] then [0, 2]
  else if op ∈ [0x24, 0x25, 0x28, 0x29, 0x32, 0x33, 0x34, 0x3E, 0x43, 0x70] then [2, 3]
  else []

/-- The assigned sub-opcodes of an opcode (R111, R112, R206, R214, R219). SUB of `mma`, `mmas` and `mmag` is the K-step index,
of which every value decodes, and SUB of `drq` is a reserved field (R301, R422). -/
def subOk (op sub : Nat) : Bool :=
  if op = 0x3E then (0x20 ≤ sub && sub ≤ 0x24) || (0x26 ≤ sub && sub ≤ 0x33) || sub = 0x35 || sub = 0x37
  else if op ∈ [0x58, 0x59, 0x5A, 0x5B] then sub ≤ 2
  else if op = 0x5C then sub ≤ 8
  else if op = 0x60 then (1 ≤ sub && sub ≤ 6) || sub = 8
  else if op ∈ [0x72, 0x74, 0x75, 0x77] then true
  else if op ∈ [0x76, 0x7A] then sub ≤ 3
  else if op = 0x79 then sub ≤ 5
  else sub = 0

/-- Why a decode fails: R113 with its kind, or a reserved field or an operand out of limits (R410, R411). -/
inductive DecErr
  | ill (k : IllKind)
  | reserved
  deriving DecidableEq, Repr

/-- Steps 1 of R409: the opcode and the length code. -/
def checkOpcode (f : Fields) : Option IllKind :=
  if lensOf f.op = [] then some .opcode
  else if f.len ∉ lensOf f.op then some .length
  else none

/-- Step 3 of R409: the sub-opcode and the unary function code. -/
def checkSub (f : Fields) : Option IllKind :=
  if subOk f.op f.sub = false then some .sub
  else if (f.op = 0x2D ∨ f.op = 0x3E ∧ f.sub = 0x2D) ∧ 5 < f.b then some .unary
  else none

/-! ### Codes -/

def rV (n : Nat) : VReg := Fin.ofNat 64 n
def rS (n : Nat) : SReg := Fin.ofNat 32 n
def rP (n : Nat) : PReg := Fin.ofNat 8 n
def rW (n : Nat) : Word := BitVec.ofNat 32 n
def rD (n : Nat) : Dword := BitVec.ofNat 64 n
def b2n (b : Bool) : Nat := if b then 1 else 0
def n2b (n : Nat) : Bool := n == 1

def ITy.code : ITy → Nat
  | .i32 => 0 | .i8 => 1 | .i16 => 2 | .i64 => 3 | .n32 => 4 | .n8 => 5 | .n16 => 6 | .n64 => 7
def ITy.ofCode : Nat → Option ITy
  | 0 => some .i32 | 1 => some .i8 | 2 => some .i16 | 3 => some .i64 | 4 => some .n32 | 5 => some .n8 | 6 => some .n16
  | 7 => some .n64 | _ => none

def FTy.code : FTy → Nat
  | .f32 => 8 | .f16 => 9 | .bf16 => 10
def FTy.ofCode : Nat → Option FTy
  | 8 => some .f32 | 9 => some .f16 | 10 => some .bf16 | _ => none

def ETy.code : ETy → Nat
  | .i32 => 0 | .i8 => 1 | .i16 => 2 | .i64 => 3 | .n32 => 4 | .n8 => 5 | .n16 => 6 | .n64 => 7 | .f32 => 8 | .f16 => 9
  | .bf16 => 10 | .f19 => 11 | .e5m2 => 12 | .e4m3 => 13 | .e3m2 => 14 | .e2m3 => 15 | .e2m1 => 16 | .t2 => 17 | .b1 => 18
def ETy.ofCode : Nat → Option ETy
  | 0 => some .i32 | 1 => some .i8 | 2 => some .i16 | 3 => some .i64 | 4 => some .n32 | 5 => some .n8 | 6 => some .n16
  | 7 => some .n64 | 8 => some .f32 | 9 => some .f16 | 10 => some .bf16 | 11 => some .f19 | 12 => some .e5m2
  | 13 => some .e4m3 | 14 => some .e3m2 | 15 => some .e2m3 | 16 => some .e2m1 | 17 => some .t2 | 18 => some .b1
  | _ => none

def MTy.code : MTy → Nat
  | .i32 => 0 | .i8 => 1 | .i16 => 2 | .i64 => 3 | .n32 => 4 | .n8 => 5 | .n16 => 6 | .n64 => 7 | .f32 => 8 | .f16 => 9
  | .bf16 => 10 | .e5m2 => 12 | .e4m3 => 13
def MTy.ofCode : Nat → Option MTy
  | 0 => some .i32 | 1 => some .i8 | 2 => some .i16 | 3 => some .i64 | 4 => some .n32 | 5 => some .n8 | 6 => some .n16
  | 7 => some .n64 | 8 => some .f32 | 9 => some .f16 | 10 => some .bf16 | 12 => some .e5m2 | 13 => some .e4m3 | _ => none

def Rnd.code : Rnd → Nat
  | .rne => 0 | .rtz => 1 | .rdn => 2 | .rup => 3 | .rs => 4
def Rnd.ofCode : Nat → Option Rnd
  | 0 => some .rne | 1 => some .rtz | 2 => some .rdn | 3 => some .rup | 4 => some .rs | _ => none

def Scope.code : Scope → Nat
  | .sp => 0 | .gp => 1 | .tm => 2 | .sk => 3 | .md => 4 | .dm => 5 | .sy => 6
def Scope.ofCode : Nat → Option Scope
  | 0 => some .sp | 1 => some .gp | 2 => some .tm | 3 => some .sk | 4 => some .md | 5 => some .dm | 6 => some .sy
  | _ => none

def CC.code : CC → Nat
  | .eq => 0 | .ne => 1 | .lt => 2 | .le => 3 | .gt => 4 | .ge => 5 | .bs => 6 | .bc => 7
def CC.ofCode : Nat → CC
  | 0 => .eq | 1 => .ne | 2 => .lt | 3 => .le | 4 => .gt | 5 => .ge | 6 => .bs | _ => .bc

def FCC.code : FCC → Nat
  | .eq => 0 | .ne => 1 | .lt => 2 | .le => 3 | .gt => 4 | .ge => 5 | .un => 6 | .ord => 7
def FCC.ofCode : Nat → FCC
  | 0 => .eq | 1 => .ne | 2 => .lt | 3 => .le | 4 => .gt | 5 => .ge | 6 => .un | _ => .ord

def PFn.code : PFn → Nat
  | .and => 0 | .or => 1 | .xor => 2 | .andn => 3 | .orn => 4 | .nand => 5 | .nor => 6 | .xnor => 7
def PFn.ofCode : Nat → PFn
  | 0 => .and | 1 => .or | 2 => .xor | 3 => .andn | 4 => .orn | 5 => .nand | 6 => .nor | _ => .xnor

def UFn.code : UFn → Nat
  | .abs => 0 | .neg => 1 | .not => 2 | .popc => 3 | .clz => 4 | .brev => 5
def UFn.ofCode : Nat → Option UFn
  | 0 => some .abs | 1 => some .neg | 2 => some .not | 3 => some .popc | 4 => some .clz | 5 => some .brev | _ => none

def LOp.code : LOp → Nat
  | .add => 0 | .min => 1 | .max => 2 | .and => 3 | .or => 4 | .xor => 5
def LOp.ofCode : Nat → Option LOp
  | 0 => some .add | 1 => some .min | 2 => some .max | 3 => some .and | 4 => some .or | 5 => some .xor | _ => none

def ShVar.code : ShVar → Nat
  | .idx => 0 | .up => 1 | .down => 2 | .xor => 3
def ShVar.ofCode : Nat → ShVar
  | 0 => .idx | 1 => .up | 2 => .down | _ => .xor

/-- The vector opcode whose mnemonic a scalar form shares (R112). -/
def SBin.code : SBin → Nat
  | .mulh => 0x23 | .min => 0x26 | .max => 0x27 | .and => 0x2A | .or => 0x2B | .xor => 0x2C | .shl => 0x2E | .shr => 0x2F
  | .sra => 0x30 | .rot => 0x31 | .bfx => 0x32
def SBin.ofCode : Nat → Option SBin
  | 0x23 => some .mulh | 0x26 => some .min | 0x27 => some .max | 0x2A => some .and | 0x2B => some .or | 0x2C => some .xor
  | 0x2E => some .shl | 0x2F => some .shr | 0x30 => some .sra | 0x31 => some .rot | 0x32 => some .bfx | _ => none

def SpecReg.code : SpecReg → Nat
  | .lane => 0 | .qtr => 1 | .split => 2 | .grp => 3 | .team => 4 | .grid => 5 | .home => 6 | .base => 7 | .cycle => 8
  | .energy => 9 | .throttle => 10 | .preq => 11 | .mstep => 12 | .seed => 13 | .trapinfo => 14 | .act => 15 | .exited => 16
def SpecReg.ofCode : Nat → Option SpecReg
  | 0 => some .lane | 1 => some .qtr | 2 => some .split | 3 => some .grp | 4 => some .team | 5 => some .grid
  | 6 => some .home | 7 => some .base | 8 => some .cycle | 9 => some .energy | 10 => some .throttle | 11 => some .preq
  | 12 => some .mstep | 13 => some .seed | 14 => some .trapinfo | 15 => some .act | 16 => some .exited | _ => none

def IcLevel.code : IcLevel → Nat
  | .core => 0 | .stk => 1 | .mod => 2
def IcLevel.ofCode : Nat → Option IcLevel
  | 0 => some .core | 1 => some .stk | 2 => some .mod | _ => none

def TlbiVar.code : TlbiVar → Nat
  | .page => 0 | .asid => 1 | .all => 2
def TlbiVar.ofCode : Nat → Option TlbiVar
  | 0 => some .page | 1 => some .asid | 2 => some .all | _ => none

def FenceKind.code : FenceKind → Nat
  | .full => 0 | .rel => 1 | .acq => 2
def FenceKind.ofCode : Nat → Option FenceKind
  | 0 => some .full | 1 => some .rel | 2 => some .acq | _ => none

def AtOp.code : AtOp → Nat
  | .swap => 0 | .add => 1 | .min => 2 | .max => 3 | .and => 4 | .or => 5 | .xor => 6 | .cas => 7 | .fadd => 8
def AtOp.ofCode : Nat → Option AtOp
  | 0 => some .swap | 1 => some .add | 2 => some .min | 3 => some .max | 4 => some .and | 5 => some .or | 6 => some .xor
  | 7 => some .cas | 8 => some .fadd | _ => none

def Shape.code : Shape → Nat
  | .lane => 0 | .quad => 1 | .scal => 2
def Shape.ofCode : Nat → Shape
  | 0 => .lane | 1 => .quad | _ => .scal

def SwRule.code : SwRule → Nat
  | .first => 0 | .mean => 1 | .maxn => 2
def SwRule.ofCode : Nat → Option SwRule
  | 0 => some .first | 1 => some .mean | 2 => some .maxn | _ => none

def SwmForm.code : SwmForm → Nat
  | .map => 0 | .tab => 1 | .sig => 2
def SwmForm.ofCode : Nat → Option SwmForm
  | 0 => some .map | 1 => some .tab | 2 => some .sig | _ => none

/-! ### Groups of fields -/

/-- Word 0 of an instruction of opcode `op` and length code `len` (R101). -/
def hdF (h : Hd) (op len : Nat) : Fields := { len := len, e := b2n h.e, op := op, g := h.g.val }
def Fields.hd (f : Fields) : Hd := ⟨rP f.g, n2b f.e⟩

/-- Operand b of a vector form (R108, R123): a literal adds one to the length code. -/
def Fields.putB (f : Fields) : OpB → Fields
  | .v n => { f with b := n.val }
  | .s n => { f with b := n.val, bk := 1 }
  | .lit x => { f with lit := x.toNat, len := f.len + 1 }
def Fields.getB (f : Fields) : OpB :=
  if hasLit f.len then .lit (rW f.lit) else if f.bk = 1 then .s (rS f.b) else .v (rV f.b)

/-- Operand b of a scalar form (R108, R151). -/
def Fields.putSB (f : Fields) : SB → Fields
  | .s n => { f with b := n.val }
  | .lit x => { f with lit := x.toNat, len := f.len + 1 }
def Fields.getSB (f : Fields) : SB := if hasLit f.len then .lit (rD f.lit) else .s (rS f.b)

def vaF (x : VA) (op len : Nat) : Fields := { hdF x.h op len with d := x.d.val, a := x.a.val }.putB x.b
def Fields.va (f : Fields) : VA := ⟨f.hd, rV f.d, rV f.a, f.getB⟩

def uF (x : U) (op len : Nat) : Fields := { hdF x.h op len with d := x.d.val, a := x.a.val }
def Fields.u (f : Fields) : U := ⟨f.hd, rV f.d, rV f.a⟩

/-- The carry variant in FS and its predicate in C (R152). -/
def Fields.putCarry (f : Fields) : Carry → Fields
  | .none => f
  | .cc p => { f with fs := 1, c := p.val }
  | .cx p => { f with fs := 2, c := p.val }
  | .cxc p => { f with fs := 3, c := p.val }
def Fields.carry (f : Fields) : Carry :=
  if f.fs = 0 then .none else if f.fs = 1 then .cc (rP f.c) else if f.fs = 2 then .cx (rP f.c) else .cxc (rP f.c)

/-- A memory address (R204): the index in B, BK and FS, the offset in word 2. -/
def Fields.putAddr (f : Fields) (m : Addr) : Fields :=
  match m.idx with
  | .s b => { f with a := m.a.val, b := b.val, bk := 1, imm := m.off.toNat }
  | .v b uns scaled => { f with a := m.a.val, b := b.val, fs := 2 * b2n uns + b2n scaled, imm := m.off.toNat }
def Fields.addr (f : Fields) : Addr :=
  ⟨rS f.a, if f.bk = 1 then .s (rS f.b) else .v (rV f.b) (f.fs / 2 == 1) (f.fs % 2 == 1), rW f.imm⟩

/-- An acquire, or a release, with its scope (R208). -/
def Fields.putAcq (f : Fields) : Option Scope → Fields
  | none => f
  | some s => { f with acq := 1, scope := s.code }
def Fields.getAcq (f : Fields) : Option (Option Scope) :=
  if f.acq = 1 then (Scope.ofCode f.scope).map some else some none
def Fields.putRel (f : Fields) : Option Scope → Fields
  | none => f
  | some s => { f with rel := 1, scope := s.code }
def Fields.getRel (f : Fields) : Option (Option Scope) :=
  if f.rel = 1 then (Scope.ofCode f.scope).map some else some none

/-- The orders of `atg` and `scg` (R208): the scope is kept as `.sp` when neither bit is set. -/
def Fields.putOrd (f : Fields) (o : Ord) : Fields := { f with acq := b2n o.acq, rel := b2n o.rel, scope := o.sc.code }
def Fields.getOrd (f : Fields) : Option Ord :=
  (Scope.ofCode f.scope).map fun s => ⟨n2b f.acq, n2b f.rel, s⟩

/-- Two element types in word 2 (R105). -/
def tyPair (td ts : ETy) : Nat := ts.code + 32 * td.code
def Fields.td (f : Fields) : Option ETy := ETy.ofCode (f.imm / 32 % 32)
def Fields.ts (f : Fields) : Option ETy := ETy.ofCode (f.imm % 32)

/-- Columns of a tile in word 2 (R304, R306, R333): J0 and N - 1. -/
def colsF (j0 : Fin 64) (n : Fin 128) : Nat := j0.val + 64 * n.val
def Fields.j0 (f : Fields) : Fin 64 := Fin.ofNat 64 (f.imm % 64)
def Fields.n1 (f : Fields) : Fin 128 := Fin.ofNat 128 (f.imm / 64 % 128)

/-- The destination of a drain (R306). -/
def Fields.putDr (f : Fields) : DrDst → Fields
  | .regs d => { f with d := d.val }
  | .vault d stride => { f with d := d.val, fs := f.fs + 1, imm := f.imm + 65536 * stride.toNat }
def Fields.dr (f : Fields) : DrDst :=
  if f.fs % 2 = 1 then .vault (rS f.d) (BitVec.ofNat 16 (f.imm / 65536)) else .regs (rV f.d)

/-- The fields of a scalar form (R112, R151). -/
def sopF (f : Fields) : SOp → Fields
  | .add d a b sat cv => ({ f with d := d.val, a := a.val, sub := 0x20, sat := b2n sat }.putCarry cv).putSB b
  | .sub d a b sat cv => ({ f with d := d.val, a := a.val, sub := 0x21, sat := b2n sat }.putCarry cv).putSB b
  | .mul d a b sat => { f with d := d.val, a := a.val, sub := 0x22, sat := b2n sat }.putSB b
  | .mad d a b c sat => { f with d := d.val, a := a.val, sub := 0x24, c := c.val, sat := b2n sat }.putSB b
  | .bin op d a b => { f with d := d.val, a := a.val, sub := op.code }.putSB b
  | .bfi d a b c => { f with d := d.val, a := a.val, sub := 0x33, c := c.val }.putSB b
  | .un fn d a sat lit => match lit with
    | none => { f with d := d.val, a := a.val, b := fn.code, sub := 0x2D, sat := b2n sat }
    | some x => { f with d := d.val, a := a.val, b := fn.code, sub := 0x2D, sat := b2n sat, lit := x.toNat, len := f.len + 1 }
  | .div d a b sat k => { f with d := d.val, a := a.val, sub := 0x28, sat := b2n sat, tok := k.val }.putSB b
  | .rem d a b k => { f with d := d.val, a := a.val, sub := 0x29, tok := k.val }.putSB b
  | .cmp cc p a b => { f with d := 8 * cc.code + p.val, a := a.val, sub := 0x35 }.putSB b
  | .mov d b => { f with d := d.val, sub := 0x37 }.putSB b

def Fields.sop (f : Fields) : Option SOp :=
  let d := rS f.d; let a := rS f.a; let b := f.getSB; let sat := n2b f.sat; let k := rP f.tok
  match f.sub with
  | 0x20 => some (.add d a b sat f.carry)
  | 0x21 => some (.sub d a b sat f.carry)
  | 0x22 => some (.mul d a b sat)
  | 0x24 => some (.mad d a b (rS f.c) sat)
  | 0x28 => some (.div d a b sat k)
  | 0x29 => some (.rem d a b k)
  | 0x2D => (UFn.ofCode f.b).map fun fn => .un fn d a sat (if hasLit f.len then some (rD f.lit) else none)
  | 0x33 => some (.bfi d a b (rS f.c))
  | 0x35 => some (.cmp (CC.ofCode (f.d / 8)) (rP f.d) a b)
  | 0x37 => some (.mov d b)
  | n => (SBin.ofCode n).map fun op => .bin op d a b

/-- The fields of `mov` in its other forms (R162). `mov.pv`, which has no operand b, is taken in the plain length only (DESIGN
CHOICE, log entry 67). -/
def movXF (h : Hd) : MovX → Fields
  | .vec d b => { hdF h 0x37 2 with d := d.val }.putB b
  | .pv d p => { hdF h 0x37 2 with d := d.val, a := p.val, fs := 1 }
  | .vp p b => { hdF h 0x37 2 with d := p.val, fs := 2 }.putB b
def Fields.movX (f : Fields) : MovX :=
  if f.fs = 0 then .vec (rV f.d) f.getB else if f.fs = 1 then .pv (rV f.d) (rP f.a) else .vp (rP f.d) f.getB

def movsXF (h : Hd) : MovsX → Fields
  | .lo d a => { hdF h 0x39 2 with d := d.val, a := a.val }
  | .hi d a => { hdF h 0x39 2 with d := d.val, a := a.val, fs := 1 }
  | .get d a k => { hdF h 0x39 2 with d := d.val, a := a.val, fs := 2, imm := k.val }
  | .gets d a k => { hdF h 0x39 2 with d := d.val, a := a.val, fs := 3, imm := k.val }
def Fields.movsX (f : Fields) : MovsX :=
  if f.fs = 0 then .lo (rV f.d) (rS f.a) else if f.fs = 1 then .hi (rV f.d) (rS f.a)
  else if f.fs = 2 then .get (rS f.d) (rV f.a) (rS f.imm) else .gets (rS f.d) (rV f.a) (rS f.imm)

def voteXF (h : Hd) : VoteX → Fields
  | .all d p => { hdF h 0x3B 2 with d := d.val, a := p.val }
  | .any d p => { hdF h 0x3B 2 with d := d.val, a := p.val, fs := 1 }
  | .uni d p => { hdF h 0x3B 2 with d := d.val, a := p.val, fs := 2 }
  | .ballot d p => { hdF h 0x3B 2 with d := d.val, a := p.val, fs := 3 }
def Fields.voteX (f : Fields) : VoteX :=
  if f.fs = 0 then .all (rP f.d) (rP f.a) else if f.fs = 1 then .any (rP f.d) (rP f.a)
  else if f.fs = 2 then .uni (rP f.d) (rP f.a) else .ballot (rS f.d) (rP f.a)

def lredXF (h : Hd) (op : LOp) (ty : ITy) (sat : Bool) (a : VReg) : LDst → Fields
  | .v d => { hdF h 0x3C 2 with d := d.val, a := a.val, b := op.code, ty := ty.code, sat := b2n sat }
  | .s d => { hdF h 0x3C 2 with d := d.val, a := a.val, b := op.code, ty := ty.code, sat := b2n sat, fs := 1 }
def Fields.ldst (f : Fields) : LDst := if f.fs = 1 then .s (rS f.d) else .v (rV f.d)

def bwtF (f : Fields) : Option Word → Fields
  | none => f
  | some off => { f with fs := 1, imm := off.toNat }

/-! ### The encoder -/

/-- The fields of an instruction, from the encoding rows of the reference chapters. The steps of the hardware's own agents
have no encoding. -/
def encodeF : Instr → Fields
  | .nop h => hdF h 0x01 0
  | .bra h off => { hdF h 0x02 2 with imm := off.toNat }
  | .brp h off recon => { hdF h 0x03 3 with imm := off.toNat, lit := recon.toNat }
  | .brx h a => { hdF h 0x04 0 with a := a.val }
  | .call h callee caller off live =>
    { hdF h 0x05 3 with a := callee.val, d := caller.val, imm := off.toNat, lit := live.toNat }
  | .callx h b callee caller live =>
    { hdF h 0x06 3 with a := callee.val, d := caller.val, b := b.val, bk := 1, lit := live.toNat }
  | .ret h => hdF h 0x07 0
  | .join h j => { hdF h 0x08 0 with d := j.val }
  | .barw h n => { hdF h 0x09 0 with d := n.val }
  | .bara h n => { hdF h 0x0A 0 with d := n.val }
  | .yield h => hdF h 0x0B 0
  | .exit h => hdF h 0x0C 0
  | .pause h n => { hdF h 0x0D 0 with b := n.val }
  | .tw h k m => { hdF h 0x0E 0 with d := k.val, b := m.val }
  | .trap h n => { hdF h 0x0F 0 with b := n.val }
  | .rft h => hdF h 0x10 0
  | .brk h n => { hdF h 0x11 0 with b := n.val }
  | .sget h r d => { hdF h 0x12 0 with b := r.code, d := d.val }
  | .sput h r a => { hdF h 0x13 0 with b := r.code, a := a.val }
  | .icpre h lvl a n => { hdF h 0x14 2 with a := a.val, fs := lvl.code, imm := n.toNat }
  | .icpin h lvl a n => { hdF h 0x15 2 with a := a.val, fs := lvl.code, imm := n.toNat }
  | .icfree h lvl a n => { hdF h 0x16 2 with a := a.val, fs := lvl.code, imm := n.toNat }
  | .stkspill h d a n k => { hdF h 0x17 2 with d := d.val, a := a.val, imm := n.toNat, tok := k.val }
  | .stkfill h d a n k => { hdF h 0x18 2 with d := d.val, a := a.val, imm := n.toNat, tok := k.val }
  | .ctxsv h d a k => { hdF h 0x19 2 with d := d.val, a := a.val, tok := k.val }
  | .ctxld h a => { hdF h 0x1A 2 with a := a.val }
  | .tlbi h v dom a b k =>
    { hdF h 0x1B 2 with a := a.val, b := b.val, bk := 1, fs := v.code, scope := 4 + b2n dom, tok := k.val }
  | .add x => vaF x 0x20 0
  | .addX x ty sat cv => { vaF x 0x20 2 with ty := ty.code, sat := b2n sat }.putCarry cv
  | .sub x => vaF x 0x21 0
  | .subX x ty sat cv => { vaF x 0x21 2 with ty := ty.code, sat := b2n sat }.putCarry cv
  | .mul x => vaF x 0x22 0
  | .mulX x ty sat => { vaF x 0x22 2 with ty := ty.code, sat := b2n sat }
  | .mulh x => vaF x 0x23 0
  | .mulhX x ty => { vaF x 0x23 2 with ty := ty.code }
  | .mad x ty sat c => { vaF x 0x24 2 with ty := ty.code, sat := b2n sat, c := c.val }
  | .dpb x sg sat c => { vaF x 0x25 2 with fs := sg.val, sat := b2n sat, c := c.val }
  | .min x => vaF x 0x26 0
  | .minX x ty => { vaF x 0x26 2 with ty := ty.code }
  | .max x => vaF x 0x27 0
  | .maxX x ty => { vaF x 0x27 2 with ty := ty.code }
  | .div x ty sat k => { vaF x 0x28 2 with ty := ty.code, sat := b2n sat, tok := k.val }
  | .rem x ty k => { vaF x 0x29 2 with ty := ty.code, tok := k.val }
  | .and x => vaF x 0x2A 0
  | .andX x ty => { vaF x 0x2A 2 with ty := ty.code }
  | .or x => vaF x 0x2B 0
  | .orX x ty => { vaF x 0x2B 2 with ty := ty.code }
  | .xor x => vaF x 0x2C 0
  | .xorX x ty => { vaF x 0x2C 2 with ty := ty.code }
  | .abs x => { uF x 0x2D 0 with b := 0 }
  | .absX x ty sat => { uF x 0x2D 2 with b := 0, ty := ty.code, sat := b2n sat }
  | .neg x => { uF x 0x2D 0 with b := 1 }
  | .negX x ty sat => { uF x 0x2D 2 with b := 1, ty := ty.code, sat := b2n sat }
  | .not x => { uF x 0x2D 0 with b := 2 }
  | .notX x ty => { uF x 0x2D 2 with b := 2, ty := ty.code }
  | .popc x => { uF x 0x2D 0 with b := 3 }
  | .popcX x ty => { uF x 0x2D 2 with b := 3, ty := ty.code }
  | .clz x => { uF x 0x2D 0 with b := 4 }
  | .clzX x ty => { uF x 0x2D 2 with b := 4, ty := ty.code }
  | .brev x => { uF x 0x2D 0 with b := 5 }
  | .brevX x ty => { uF x 0x2D 2 with b := 5, ty := ty.code }
  | .shl x => vaF x 0x2E 0
  | .shlX x ty => { vaF x 0x2E 2 with ty := ty.code }
  | .shr x => vaF x 0x2F 0
  | .shrX x ty => { vaF x 0x2F 2 with ty := ty.code }
  | .sra x => vaF x 0x30 0
  | .sraX x ty => { vaF x 0x30 2 with ty := ty.code }
  | .rot x => vaF x 0x31 0
  | .rotX x ty => { vaF x 0x31 2 with ty := ty.code }
  | .bfx x ty => { vaF x 0x32 2 with ty := ty.code }
  | .bfi x ty c => { vaF x 0x33 2 with ty := ty.code, c := c.val }
  | .sel x c => { vaF x 0x34 2 with c := c.val }
  | .cmp h cc p a b => { hdF h 0x35 0 with d := 8 * cc.code + p.val, a := a.val }.putB b
  | .cmpX h cc p a b ty => { hdF h 0x35 2 with d := 8 * cc.code + p.val, a := a.val, ty := ty.code }.putB b
  | .plog h f d a b => { hdF h 0x36 0 with d := 8 * f.code + d.val, a := a.val, b := b.val }
  | .mov h d b => { hdF h 0x37 0 with d := d.val }.putB b
  | .movX h m => movXF h m
  | .movl h d x => { hdF h 0x38 1 with d := d.val, lit := x.toNat }
  | .movs h d a => { hdF h 0x39 0 with d := d.val, a := a.val }
  | .movsX h m => movsXF h m
  | .shfl x => vaF x 0x3A 0
  | .shflX x var => { vaF x 0x3A 2 with fs := var.code }
  | .vote h d p => { hdF h 0x3B 0 with d := d.val, a := p.val }
  | .voteX h v => voteXF h v
  | .lred h op d a => { hdF h 0x3C 0 with d := d.val, a := a.val, b := op.code }
  | .lredX h op ty sat dst a => lredXF h op ty sat a dst
  | .lscan h op d a => { hdF h 0x3D 0 with d := d.val, a := a.val, b := op.code }
  | .lscanX h op ty sat excl d a =>
    { hdF h 0x3D 2 with d := d.val, a := a.val, b := op.code, ty := ty.code, sat := b2n sat, fs := b2n excl }
  | .scalarForm h ty op => sopF { hdF h 0x3E 2 with ty := ty.code } op
  | .fadd x => vaF x 0x40 0
  | .faddX x ty lo rnd => { vaF x 0x40 2 with ty := ty.code, fs := b2n lo, rnd := rnd.code }
  | .fsub x => vaF x 0x41 0
  | .fsubX x ty lo rnd => { vaF x 0x41 2 with ty := ty.code, fs := b2n lo, rnd := rnd.code }
  | .fmul x => vaF x 0x42 0
  | .fmulX x ty lo rnd => { vaF x 0x42 2 with ty := ty.code, fs := b2n lo, rnd := rnd.code }
  | .ffma x ty lo rnd c => { vaF x 0x43 2 with ty := ty.code, fs := b2n lo, rnd := rnd.code, c := c.val }
  | .fmin x => vaF x 0x44 0
  | .fminX x ty lo => { vaF x 0x44 2 with ty := ty.code, fs := b2n lo }
  | .fmax x => vaF x 0x45 0
  | .fmaxX x ty lo => { vaF x 0x45 2 with ty := ty.code, fs := b2n lo }
  | .frcp x => uF x 0x46 0
  | .frcpX x rnd => { uF x 0x46 2 with ty := 8, rnd := rnd.code }
  | .frsq x => uF x 0x47 0
  | .frsqX x => { uF x 0x47 2 with ty := 8 }
  | .fsqrt x => uF x 0x48 0
  | .fsqrtX x rnd => { uF x 0x48 2 with ty := 8, rnd := rnd.code }
  | .fex2 x => uF x 0x49 0
  | .fex2X x => { uF x 0x49 2 with ty := 8 }
  | .flg2 x => uF x 0x4A 0
  | .flg2X x => { uF x 0x4A 2 with ty := 8 }
  | .fsin x => uF x 0x4B 0
  | .fsinX x => { uF x 0x4B 2 with ty := 8 }
  | .fcos x => uF x 0x4C 0
  | .fcosX x => { uF x 0x4C 2 with ty := 8 }
  | .fcmp h cc p a b => { hdF h 0x4D 0 with d := 8 * cc.code + p.val, a := a.val }.putB b
  | .fcmpX h cc p a b ty lo =>
    { hdF h 0x4D 2 with d := 8 * cc.code + p.val, a := a.val, ty := ty.code, fs := b2n lo }.putB b
  | .fcvt x td ts se ofn sat rnd =>
    { uF x 0x4E 2 with fs := b2n ofn, sat := b2n sat, rnd := rnd.code, imm := tyPair td ts + 1024 * se.val }
  | .fpk x td ts o k rnd =>
    { uF x 0x4F 2 with rnd := rnd.code, imm := tyPair td ts + 1024 * o.val + 65536 * k.val }
  | .funpk x td ts o k rnd =>
    { uF x 0x50 2 with rnd := rnd.code, imm := tyPair td ts + 1024 * o.val + 65536 * k.val }
  | .bscl h d a td ts ce i4 =>
    { hdF h 0x51 2 with d := d.val, a := a.val, fs := b2n ce + 2 * b2n i4, imm := tyPair td ts }
  | .bqnt h d a b td ts ofn i4 rnd =>
    { hdF h 0x52 2 with d := d.val, a := a.val, b := b.val, bk := 1, fs := b2n ofn + 2 * b2n i4, rnd := rnd.code,
                        imm := tyPair td ts }
  | .bdeq h d a b td ts i4 rnd =>
    { hdF h 0x53 2 with d := d.val, a := a.val, b := b.val, bk := 1, fs := 2 * b2n i4, rnd := rnd.code,
                        imm := tyPair td ts }
  | .rseed h a => { hdF h 0x54 0 with a := a.val }
  | .rseedX h a => { hdF h 0x54 2 with a := a.val }
  | .ld h m sh ty d acq k =>
    ({ hdF h 0x58 2 with d := d.val, sub := sh.code, ty := ty.code, tok := k.val }.putAddr m).putAcq acq
  | .st h m sh ty c rel k =>
    ({ hdF h 0x59 2 with c := c.val, sub := sh.code, ty := ty.code, tok := k.val }.putAddr m).putRel rel
  | .ldg h m sh ty d acq k live =>
    ({ hdF h 0x5A 3 with d := d.val, sub := sh.code, ty := ty.code, tok := k.val, lit := live.toNat }.putAddr m).putAcq acq
  | .stg h m sh ty c rel k live =>
    ({ hdF h 0x5B 3 with c := c.val, sub := sh.code, ty := ty.code, tok := k.val, lit := live.toNat }.putAddr m).putRel rel
  | .atg h m op ty sat d c o k live =>
    ({ hdF h 0x5C 3 with d := d.val, c := c.val, sub := op.code, ty := ty.code, sat := b2n sat, tok := k.val,
                         lit := live.toNat }.putAddr m).putOrd o
  | .lrg h m ty d acq k live =>
    ({ hdF h 0x5D 3 with d := d.val, ty := ty.code, tok := k.val, lit := live.toNat }.putAddr m).putAcq acq
  | .scg h m ty d c o k live =>
    ({ hdF h 0x5E 3 with d := d.val, c := c.val, ty := ty.code, tok := k.val, lit := live.toNat }.putAddr m).putOrd o
  | .stp h m ty c rel => ({ hdF h 0x5F 2 with c := c.val, ty := ty.code }.putAddr m).putRel rel
  | .atp h m op ty sat c rel =>
    ({ hdF h 0x60 2 with c := c.val, sub := op.code, ty := ty.code, sat := b2n sat }.putAddr m).putRel rel
  | .ldz h d a b ty n acq k =>
    { hdF h 0x61 2 with d := d.val, a := a.val, b := b.val, bk := 1, ty := ty.code, tok := k.val, imm := n.toNat }.putAcq acq
  | .stz h d a b c ty n rel k =>
    { hdF h 0x62 2 with d := d.val, a := a.val, b := b.val, bk := 1, c := c.val, ty := ty.code, tok := k.val,
                        imm := n.toNat }.putRel rel
  | .fence h f sc => { hdF h 0x63 2 with fs := f.code, scope := sc.code }
  | .pfence h => hdF h 0x64 0
  | .cpkt h sc d a b k =>
    { hdF h 0x65 2 with d := d.val, a := a.val, b := b.val, bk := 1, scope := sc.code, tok := k.val }
  | .binit h a b n k => { hdF h 0x66 2 with a := a.val, b := b.val, bk := 1, tok := k.val, imm := n.toNat }
  | .bexp h arv sc a b k =>
    { hdF h 0x67 2 with a := a.val, b := b.val, bk := 1, fs := b2n arv, scope := sc.code, tok := k.val }
  | .barv h sc a n k => { hdF h 0x68 2 with a := a.val, scope := sc.code, tok := k.val, imm := n.toNat }
  | .bobs h w1 acq sc d a k =>
    { hdF h 0x69 2 with d := d.val, a := a.val, fs := b2n w1, acq := b2n acq, scope := sc.code, tok := k.val }
  | .bwt h sc a b cont => bwtF { hdF h 0x6A 2 with a := a.val, b := b.val, bk := 1, scope := sc.code } cont
  | .palLiteral h x => { hdF h 0x70 3 with lit := x.toNat }
  | .palRegister h a => { hdF h 0x70 2 with a := a.val }
  | .palr h d => { hdF h 0x71 0 with d := d.val }
  | .mma h t a b ks c soff k =>
    { hdF h 0x72 2 with d := t.val, a := a.val, b := b.val, bk := 1, sub := ks.val, c := c.val, imm := soff.toNat,
                        tok := k.val }
  | .mmab h t a b c boff k =>
    { hdF h 0x73 2 with d := t.val, a := a.val, b := b.val, bk := 1, c := c.val, imm := boff.toNat, tok := k.val }
  | .mmas h t a b ks c soff k =>
    { hdF h 0x74 2 with d := t.val, a := a.val, b := b.val, bk := 1, sub := ks.val, c := c.val, imm := soff.toNat,
                        tok := k.val }
  | .mmag h t a b ks soff k =>
    { hdF h 0x75 2 with d := t.val, a := a.val, b := b.val, bk := 1, sub := ks.val, imm := soff.toNat, tok := k.val }
  | .accz h all t k => { hdF h 0x76 2 with d := t.val, fs := b2n all, tok := k.val }
  | .accrd h d t j0 n k => { hdF h 0x76 2 with sub := 1, d := d.val, a := t.val, imm := colsF j0 n, tok := k.val }
  | .accwr h t a j0 n k => { hdF h 0x76 2 with sub := 2, d := t.val, a := a.val, imm := colsF j0 n, tok := k.val }
  | .accst h d t k => { hdF h 0x76 2 with sub := 3, d := d.val, a := t.val, tok := k.val }
  | .drq h dst t b c uns j0 n k =>
    { hdF h 0x77 2 with a := t.val, b := b.val, bk := 1, c := c.val, ty := if uns then 5 else 1, imm := colsF j0 n,
                        tok := k.val }.putDr dst
  | .drf h dst t ty sat ofn j0 n k =>
    { hdF h 0x78 2 with a := t.val, ty := ty.code, sat := b2n sat, fs := 2 * b2n ofn, imm := colsF j0 n,
                        tok := k.val }.putDr dst
  | .swc h rule a planes width k =>
    { hdF h 0x79 2 with a := a.val, fs := rule.code, imm := planes.val + 16 * width.val, tok := k.val }
  | .swh h a b c k => { hdF h 0x79 2 with sub := 1, a := a.val, b := b.val, bk := 1, c := c.val, tok := k.val }
  | .swb h k => { hdF h 0x79 2 with sub := 2, tok := k.val }
  | .swm h form a k => { hdF h 0x79 2 with sub := 3, a := a.val, fs := form.code, tok := k.val }
  | .swl h a k => { hdF h 0x79 2 with sub := 4, a := a.val, tok := k.val }
  | .swx h t j0 n k => { hdF h 0x79 2 with sub := 5, d := t.val, imm := colsF j0 n, tok := k.val }
  | .rgpost h d a b k => { hdF h 0x7A 2 with d := d.val, a := a.val, b := b.val, bk := 1, tok := k.val }
  | .rgtake h d g k => { hdF h 0x7A 2 with sub := 1, d := d.val, imm := g.toNat, tok := k.val }
  | .rgnext h d p => { hdF h 0x7A 2 with sub := 2, d := d.val, c := p.val }
  | .rgdone h k => { hdF h 0x7A 2 with sub := 3, tok := k.val }
  | .launchPacket _ | .dependenceMet _ _ | .placingTeams | .teamEnd _ _ | .completionRecord _ | .completionReport _ _ _ _
  | .legDeparture _ | .contextAdmission _ | .splitTableRequest _ _ | .splitTableReport _ _ | .division _
  | .operationCompletion _ _ | .post _ _ | .postAcknowledgement _ _ | .probe _ _ | .probeAnswer _ _
  | .barrierArrival _ _ | .barrierObjectUpdate _ _ | .copyPacket _ _ | .copyBurst _ _ _ | .loopIteration _ _
  | .signalPacket _ _ | .pass _ _ | .rampInterval _ _ | .hstepFall _ _ | .hstepRise _ _ | .fstepUpdate _ _ _
  | .energyCharge _ _ _ | .monitorSample _ _ _ | .scrubVisit _ _ | .refreshWindow _ | .tableWalk _ _ _ _
  | .reservationExpiry _ | .holdoffExpiry _ | .budgetExpiry _ _ | .handlerBudgetExpiry _ _ | .teamResumption _ _
  | .trapEntry _ | .halt _ | .sliceExpiry _ | .rangeRequest _ _ | .rangeReply _ _ | .errorRecord | .linkRetry _
  | .linkRetrain _ | .retrainTimeout _ | .linkDown _ | .routeRewrite _ _ _ | .sensorLimit _ _ _ | .limitLifted _ _
  | .powerStateEntry _ _ | .stackWake _ | .powerStateExit _ | .bringUp _ _ _ | .hostAccess _ | .hostSnoop _
  | .cxlLinkDown | .qring _ _ | .cring _ _ _ | .errlog _ | .preemptionRequest _ | .preemptionWithdraw _ | .abortctl _
  | .warmReset | .coldReset | .skbctlThaw _ | .errstatClear | .monitorClear _ _ | .pwrcap _ | .ramp _ | .svcUpdate _ _
  | .registerWrite _ _ _ | .resultLanding _ | .unassignedOpcode _ | .linkRetrained _ | .backInvalidateResponse _ _
  | .launcherRouterError _ | .peerWarmReset _ | .peerReady _ => { len := 4 }

/-- The words of an instruction as bytes, in address order (R99). -/
def encode (i : Instr) : List Byte := bytesLE (lenBytes (encodeF i).len) (encodeF i).pack

/-- The byte count of an instruction. -/
def Instr.bytes (i : Instr) : Nat := lenBytes (encodeF i).len

/-! ### The decoder -/

/-- The function of the unary code (R111) in vector form. -/
def buildUnary (f : Fields) : Option Instr :=
  if f.len = 0 then match f.b with
    | 0 => some (.abs f.u) | 1 => some (.neg f.u) | 2 => some (.not f.u) | 3 => some (.popc f.u) | 4 => some (.clz f.u)
    | 5 => some (.brev f.u) | _ => none
  else (ITy.ofCode f.ty).bind fun ty => match f.b with
    | 0 => some (.absX f.u ty (n2b f.sat)) | 1 => some (.negX f.u ty (n2b f.sat)) | 2 => some (.notX f.u ty)
    | 3 => some (.popcX f.u ty) | 4 => some (.clzX f.u ty) | 5 => some (.brevX f.u ty) | _ => none

/-- The instruction the fields stand for, reserved fields not yet looked at: control and system opcodes. -/
def buildControl (f : Fields) : Option Instr :=
  let h := f.hd; let d := f.d; let a := rS f.a; let k := rP f.tok; let x := rW f.imm
  match f.op with
  | 0x01 => some (.nop h)
  | 0x02 => some (.bra h x)
  | 0x03 => some (.brp h x (rW f.lit))
  | 0x04 => some (.brx h a)
  | 0x05 => some (.call h (rV f.a) (rV d) x (rD f.lit))
  | 0x06 => some (.callx h (rS f.b) (rV f.a) (rV d) (rD f.lit))
  | 0x07 => some (.ret h)
  | 0x08 => some (.join h (rP d))
  | 0x09 => some (.barw h (Fin.ofNat 16 d))
  | 0x0A => some (.bara h (Fin.ofNat 16 d))
  | 0x0B => some (.yield h)
  | 0x0C => some (.exit h)
  | 0x0D => some (.pause h (Fin.ofNat 16 f.b))
  | 0x0E => some (.tw h (rP d) (rV f.b))
  | 0x0F => some (.trap h (rV f.b))
  | 0x10 => some (.rft h)
  | 0x11 => some (.brk h (rV f.b))
  | 0x12 => (SpecReg.ofCode f.b).map fun r => .sget h r (rV d)
  | 0x13 => (SpecReg.ofCode f.b).map fun r => .sput h r a
  | 0x14 => (IcLevel.ofCode f.fs).map fun l => .icpre h l a x
  | 0x15 => (IcLevel.ofCode f.fs).map fun l => .icpin h l a x
  | 0x16 => (IcLevel.ofCode f.fs).map fun l => .icfree h l a x
  | 0x17 => some (.stkspill h (rS d) a x k)
  | 0x18 => some (.stkfill h (rS d) a x k)
  | 0x19 => some (.ctxsv h (rS d) a k)
  | 0x1A => some (.ctxld h a)
  | 0x1B => (TlbiVar.ofCode f.fs).map fun v => .tlbi h v (f.scope == 5) a (rS f.b) k
  | _ => none

/-- Integer, predicate and lane opcodes. -/
def buildInteger (f : Fields) : Option Instr :=
  let x := f.va; let sat := n2b f.sat; let k := rP f.tok; let c := rV f.c; let base := f.len < 2
  let typed (g : ITy → Instr) : Option Instr := (ITy.ofCode f.ty).map g
  match f.op with
  | 0x20 => if base then some (.add x) else typed fun t => .addX x t sat f.carry
  | 0x21 => if base then some (.sub x) else typed fun t => .subX x t sat f.carry
  | 0x22 => if base then some (.mul x) else typed fun t => .mulX x t sat
  | 0x23 => if base then some (.mulh x) else typed fun t => .mulhX x t
  | 0x24 => typed fun t => .mad x t sat c
  | 0x25 => some (.dpb x (Fin.ofNat 4 f.fs) sat c)
  | 0x26 => if base then some (.min x) else typed fun t => .minX x t
  | 0x27 => if base then some (.max x) else typed fun t => .maxX x t
  | 0x28 => typed fun t => .div x t sat k
  | 0x29 => typed fun t => .rem x t k
  | 0x2A => if base then some (.and x) else typed fun t => .andX x t
  | 0x2B => if base then some (.or x) else typed fun t => .orX x t
  | 0x2C => if base then some (.xor x) else typed fun t => .xorX x t
  | 0x2D => buildUnary f
  | 0x2E => if base then some (.shl x) else typed fun t => .shlX x t
  | 0x2F => if base then some (.shr x) else typed fun t => .shrX x t
  | 0x30 => if base then some (.sra x) else typed fun t => .sraX x t
  | 0x31 => if base then some (.rot x) else typed fun t => .rotX x t
  | 0x32 => typed fun t => .bfx x t
  | 0x33 => typed fun t => .bfi x t c
  | 0x34 => some (.sel x (rP f.c))
  | 0x35 => if base then some (.cmp x.h (CC.ofCode (f.d / 8)) (rP f.d) x.a x.b)
            else typed fun t => .cmpX x.h (CC.ofCode (f.d / 8)) (rP f.d) x.a x.b t
  | 0x36 => some (.plog x.h (PFn.ofCode (f.d / 8)) (rP f.d) (rP f.a) (rP f.b))
  | 0x37 => if base then some (.mov x.h x.d x.b) else some (.movX x.h f.movX)
  | 0x38 => some (.movl x.h x.d (rD f.lit))
  | 0x39 => if base then some (.movs x.h x.d (rS f.a)) else some (.movsX x.h f.movsX)
  | 0x3A => if base then some (.shfl x) else some (.shflX x (ShVar.ofCode f.fs))
  | 0x3B => if base then some (.vote x.h (rP f.d) (rP f.a)) else some (.voteX x.h f.voteX)
  | 0x3C => (LOp.ofCode f.b).bind fun op =>
      if base then some (.lred x.h op x.d x.a) else typed fun t => .lredX x.h op t sat f.ldst x.a
  | 0x3D => (LOp.ofCode f.b).bind fun op =>
      if base then some (.lscan x.h op x.d x.a) else typed fun t => .lscanX x.h op t sat (n2b f.fs) x.d x.a
  | 0x3E => f.sop.bind fun op => typed fun t => .scalarForm x.h t op
  | _ => none

/-- Floating-point and conversion opcodes. -/
def buildFloat (f : Fields) : Option Instr :=
  let x := f.va; let u := f.u; let base := f.len < 2; let lo := n2b f.fs
  let typed (g : FTy → Instr) : Option Instr := (FTy.ofCode f.ty).map g
  let rnd (g : Rnd → Instr) : Option Instr := (Rnd.ofCode f.rnd).map g
  let two (g : ETy → ETy → Option Instr) : Option Instr := f.td.bind fun td => f.ts.bind fun ts => g td ts
  match f.op with
  | 0x40 => if base then some (.fadd x) else (FTy.ofCode f.ty).bind fun t => rnd fun r => .faddX x t lo r
  | 0x41 => if base then some (.fsub x) else (FTy.ofCode f.ty).bind fun t => rnd fun r => .fsubX x t lo r
  | 0x42 => if base then some (.fmul x) else (FTy.ofCode f.ty).bind fun t => rnd fun r => .fmulX x t lo r
  | 0x43 => (FTy.ofCode f.ty).bind fun t => rnd fun r => .ffma x t lo r (rV f.c)
  | 0x44 => if base then some (.fmin x) else typed fun t => .fminX x t lo
  | 0x45 => if base then some (.fmax x) else typed fun t => .fmaxX x t lo
  | 0x46 => if base then some (.frcp u) else rnd fun r => .frcpX u r
  | 0x47 => if base then some (.frsq u) else some (.frsqX u)
  | 0x48 => if base then some (.fsqrt u) else rnd fun r => .fsqrtX u r
  | 0x49 => if base then some (.fex2 u) else some (.fex2X u)
  | 0x4A => if base then some (.flg2 u) else some (.flg2X u)
  | 0x4B => if base then some (.fsin u) else some (.fsinX u)
  | 0x4C => if base then some (.fcos u) else some (.fcosX u)
  | 0x4D => if base then some (.fcmp x.h (FCC.ofCode (f.d / 8)) (rP f.d) x.a x.b)
            else typed fun t => .fcmpX x.h (FCC.ofCode (f.d / 8)) (rP f.d) x.a x.b t lo
  | 0x4E => two fun td ts => rnd fun r => .fcvt u td ts (rP (f.imm / 1024)) lo (n2b f.sat) r
  | 0x4F => two fun td ts => rnd fun r => .fpk u td ts (rV (f.imm / 1024)) (rS (f.imm / 65536)) r
  | 0x50 => two fun td ts => rnd fun r => .funpk u td ts (rV (f.imm / 1024)) (rS (f.imm / 65536)) r
  | 0x51 => two fun td ts => some (.bscl u.h (rS f.d) u.a td ts (f.fs % 2 == 1) (f.fs / 2 == 1))
  | 0x52 => two fun td ts => rnd fun r => .bqnt u.h u.d u.a (rS f.b) td ts (f.fs % 2 == 1) (f.fs / 2 == 1) r
  | 0x53 => two fun td ts => rnd fun r => .bdeq u.h u.d u.a (rS f.b) td ts (f.fs / 2 == 1) r
  | 0x54 => if base then some (.rseed u.h u.a) else some (.rseedX u.h u.a)
  | _ => none

/-- Memory, copy and barrier-object opcodes. -/
def buildMemory (f : Fields) : Option Instr :=
  let h := f.hd; let m := f.addr; let d := rV f.d; let c := rV f.c; let k := rP f.tok; let live := rD f.lit
  let a := rS f.a; let b := rS f.b; let n := rW f.imm; let sh := Shape.ofCode f.sub; let sat := n2b f.sat
  let typed (g : MTy → Option Instr) : Option Instr := (MTy.ofCode f.ty).bind g
  let acq (g : Option Scope → Instr) : Option Instr := f.getAcq.map g
  let rel (g : Option Scope → Instr) : Option Instr := f.getRel.map g
  let inScope (g : Scope → Instr) : Option Instr := (Scope.ofCode f.scope).map g
  match f.op with
  | 0x58 => typed fun t => acq fun q => .ld h m sh t d q k
  | 0x59 => typed fun t => rel fun q => .st h m sh t c q k
  | 0x5A => typed fun t => acq fun q => .ldg h m sh t d q k live
  | 0x5B => typed fun t => rel fun q => .stg h m sh t c q k live
  | 0x5C => typed fun t => (AtOp.ofCode f.sub).bind fun o => f.getOrd.map fun q => .atg h m o t sat d c q k live
  | 0x5D => typed fun t => acq fun q => .lrg h m t d q k live
  | 0x5E => typed fun t => f.getOrd.map fun q => .scg h m t d c q k live
  | 0x5F => typed fun t => rel fun q => .stp h m t c q
  | 0x60 => typed fun t => (AtOp.ofCode f.sub).bind fun o => rel fun q => .atp h m o t sat c q
  | 0x61 => typed fun t => acq fun q => .ldz h d a b t n q k
  | 0x62 => typed fun t => rel fun q => .stz h (rS f.d) a b c t n q k
  | 0x63 => (FenceKind.ofCode f.fs).bind fun q => inScope fun s => .fence h q s
  | 0x64 => some (.pfence h)
  | 0x65 => inScope fun s => .cpkt h s (rS f.d) a b k
  | 0x66 => some (.binit h a b (BitVec.ofNat 16 f.imm) k)
  | 0x67 => inScope fun s => .bexp h (n2b f.fs) s a b k
  | 0x68 => inScope fun s => .barv h s a (BitVec.ofNat 16 f.imm) k
  | 0x69 => inScope fun s => .bobs h (n2b f.fs) (n2b f.acq) s (rS f.d) a k
  | 0x6A => inScope fun s => .bwt h s a b (if f.fs = 1 then some n else none)
  | _ => none

/-- Matrix, swatch and range opcodes. -/
def buildMatrix (f : Fields) : Option Instr :=
  let h := f.hd; let a := rV f.a; let b := rS f.b; let c := rV f.c; let k := rP f.tok; let n := rW f.imm
  let t : TileNo := Fin.ofNat 16 f.d; let ta : TileNo := Fin.ofNat 16 f.a
  match f.op with
  | 0x70 => if hasLit f.len then some (.palLiteral h (rD f.lit)) else some (.palRegister h (rS f.a))
  | 0x71 => some (.palr h (rS f.d))
  | 0x72 => some (.mma h t a b (Fin.ofNat 256 f.sub) c n k)
  | 0x73 => some (.mmab h t a b c n k)
  | 0x74 => some (.mmas h t a b (Fin.ofNat 256 f.sub) c n k)
  | 0x75 => some (.mmag h t a b (Fin.ofNat 256 f.sub) n k)
  | 0x76 => match f.sub with
    | 0 => some (.accz h (n2b f.fs) t k)
    | 1 => some (.accrd h (rV f.d) ta f.j0 f.n1 k)
    | 2 => some (.accwr h t a f.j0 f.n1 k)
    | 3 => some (.accst h (rS f.d) ta k)
    | _ => none
  | 0x77 => some (.drq h f.dr ta b c (f.ty == 5) f.j0 f.n1 k)
  | 0x78 => (MTy.ofCode f.ty).map fun ty => .drf h f.dr ta ty (n2b f.sat) (f.fs / 2 == 1) f.j0 f.n1 k
  | 0x79 => match f.sub with
    | 0 => (SwRule.ofCode f.fs).map fun r => .swc h r (rS f.a) (Fin.ofNat 16 f.imm) (Fin.ofNat 16 (f.imm / 16)) k
    | 1 => some (.swh h a b c k)
    | 2 => some (.swb h k)
    | 3 => (SwmForm.ofCode f.fs).map fun r => .swm h r (rS f.a) k
    | 4 => some (.swl h (rS f.a) k)
    | 5 => some (.swx h t f.j0 f.n1 k)
    | _ => none
  | 0x7A => match f.sub with
    | 0 => some (.rgpost h (rS f.d) (rS f.a) b k)
    | 1 => some (.rgtake h (rS f.d) n k)
    | 2 => some (.rgnext h (rS f.d) (rP f.c))
    | 3 => some (.rgdone h k)
    | _ => none
  | _ => none

def build (f : Fields) : Option Instr :=
  if f.op < 0x20 then buildControl f
  else if f.op < 0x40 then buildInteger f
  else if f.op < 0x58 then buildFloat f
  else if f.op < 0x70 then buildMemory f
  else buildMatrix f

/-- Steps 3 and 4 of R409: the sub-opcode and unary code, then every reserved field, bit, code and word (R410: what the
fields hold must be what the encoder writes for the instruction) and the limits of R411. -/
def decodeF (f : Fields) : Except DecErr Instr :=
  match checkSub f with
  | some k => .error (.ill k)
  | none => match build f with
    | none => .error .reserved
    | some i => if encodeF i = f ∧ i.wf = true then .ok i else .error .reserved

/-- The instruction whose words are `w`, numbered as in `Fields.pack` (steps 1, 3 and 4 of R409). -/
def decodeWord (w : Nat) : Except DecErr Instr :=
  let f := Fields.unpack w
  match checkOpcode f with
  | some k => .error (.ill k)
  | none => decodeF f

/-- The decoder: the instruction at the front of `bs`, with the bytes past the end of `bs` taken as zero. -/
def decode (bs : List Byte) : Except DecErr Instr := decodeWord (ofBytesLE (bs.take 20))

/-- The instruction the decoder reads from words whose bits are `w` (bit 0 the least significant bit of word 0): they are
laid out in memory order and given to the decoder. -/
def decodeTableWord (_nbits w : Nat) : Option Instr := match decode (bytesLE 20 w) with
  | .ok i => some i
  | .error _ => none

/-- The five words of a replay entry (R389): word 0, words 1 and 2, the literal low word first; absent words zero. -/
def frameWords (i : Instr) : List Word :=
  let f := encodeF i
  [rW f.word0, rW (if hasExt f.len then f.word1 else 0), rW f.imm, rW f.lit, rW (f.lit / 2 ^ 32)]

/-- The instruction of five such words. -/
def ofFrameWords (ws : List Word) : Except DecErr Instr :=
  let n (i : Nat) : Nat := ((ws[i]?).getD 0#32).toNat
  let len := n 0 % 4
  decodeWord (n 0 + (if hasExt len then 2 ^ 32 * n 1 + 2 ^ 64 * n 2 + 2 ^ 96 * n 3 + 2 ^ 128 * n 4
    else 2 ^ 32 * n 3 + 2 ^ 64 * n 4))

end Sys2Proof
end

