-- ==== Sys2Proof/Machine/State.lean ====
section
/-! DEFINITION. Machine/State.lean: everything the manual gives the module, as plain data, and the state after reset.

One module: 16 stacks of 8 cores of 4 pipes. The split that acts is held in focus (`me`, with its group slot `win` and its
group `gr`); every other split, slot and group stands in a list. A split, an operation and a group have an `id`, which is
the model's own name for it. -/

namespace Sys2Proof.Machine

/-- Memory outside the device registers (R184, R193): bytes by 48-bit physical address, in rising order, without the zero
bytes that memory reads as after bring-up (R494); the owner tag of each 64-byte line that has one other than 0 (R202); and
the poisoned 64-byte lines (R466). -/
structure Memory where
  cells : List Host.Cell
  tags : List (Nat × Nat)
  poison : List Nat
  deriving DecidableEq, Repr

/-- An entry of the call and split stack (R30), as its two words; `owner` is the owner mask (R29). -/
structure Entry where
  owner : BitVec 4
  word0 : Dword
  word1 : Dword
  deriving DecidableEq, Repr

/-- A write that lands in the registers of one split (R70, R123). -/
inductive Wr
  /-- Physical register `r` in the lanes of `m`. -/
  | v (r : Nat) (m : Mask) (x : Lanes)
  /-- Physical register `r`, the bits of `mask` only, in the lanes of `m` (R169). -/
  | vbits (r : Nat) (m : Mask) (mask x : Lanes)
  | s (r : Nat) (x : Dword)
  | p (r : Nat) (m x : Mask)
  | pal (x : Dword)
  | mstep (x : Dword)
  | trapinfo (x : Dword)
  deriving DecidableEq, Repr

/-- A fixed-latency result in flight: it lands when the core's CYCLE reaches `due` (R70). -/
structure Result where
  due : Nat
  wr : Wr
  deriving DecidableEq, Repr

/-- What an outstanding operation still has to do. -/
inductive OpKind
  /-- Accesses of a split to memory, lane by lane (R211 to R217), or one access for the split. -/
  | access
  /-- A request to the range unit; the reply brings the writes (R342). -/
  | range
  /-- Passes in the array queue (R286, R298, R326). -/
  | array
  /-- Anything else: it completes with its writes (R156, R145, R146). -/
  | plain
  /-- A translation invalidate, which waits for the accesses of R148. -/
  | tlbi
  deriving DecidableEq, Repr

/-- An outstanding long-latency operation (R124). The fields from `instr` to `data` are those of a replay entry (R389). -/
structure Op where
  id : Nat
  instr : Instr
  ipc : Dword
  tok : Option Tok
  wb : Nat
  act : Mask
  leg : Bool
  clm : Bool
  cidx : Dword
  scap : List Dword
  stat : Vector Byte 32
  addr : Vector Dword 32
  data : Vector (BitVec 128) 32
  kind : OpKind
  /-- Physical address of each lane's access, from its last translation (R38). -/
  pa : Vector Nat 32
  /-- The leaf's poison policy of each lane (R188). -/
  pois : Vector Nat 32
  /-- The values read by the lanes that are done. -/
  out : Vector (BitVec 128) 32
  /-- The lanes whose results have landed. -/
  landed : Mask
  /-- Writes that land at completion, other than those of `out`. -/
  writes : List Wr
  /-- Bytes captured at issue that it writes to memory (R146). -/
  blob : List Byte
  /-- The stack and the lanes of the leg that is being served (R38). -/
  legLanes : Mask
  /-- Operations of the same split whose accesses come first (R230). -/
  after : List Nat
  /-- Whether the acquire of the instruction holds the split until it completes (R208). -/
  acq : Bool
  /-- Whether its addresses have been translated and it may perform accesses, or its request has been sent. -/
  sent : Bool
  /-- Whether `rft` or a resumption has started it again (R398). -/
  again : Bool
  /-- The core's CYCLE at which its last pass has updated its rows (R301). -/
  due : Nat
  /-- DETAIL of the POISON that the split takes once it completes (R470). -/
  late : Option Nat
  deriving DecidableEq, Repr

/-- A trap to be taken: its class, DETAIL and ARG, and the PC its frame records (R382, R383, R394). -/
structure Trap where
  cls : TClass
  detail : Nat
  arg : Nat
  pc : Dword
  /-- The token counts at the trap, which TOKCNT of the frame holds (R388). -/
  toks : Vector Nat 8
  deriving DecidableEq, Repr

/-- What a waiting instruction still waits for, in order. -/
inductive WaitStep
  /-- The tokens of the mask are zero (R126, R127). -/
  | toks (m : BitVec 8)
  /-- A probe of the stacks in the post masks is sent, and then every answer has come (R45). -/
  | probe
  | answers
  /-- A split number is asked for, and then answered (R21). -/
  | request
  | number
  /-- `tK <= m` (R137). -/
  | tok (k : Tok) (m : Nat)
  /-- Operation `op` has completed (an acquire, R208; a `ctxld`, R147). -/
  | done (op : Nat)
  /-- Every outstanding operation that a frame does not capture has completed (R391). -/
  | quiet
  deriving DecidableEq, Repr

/-- What a waiting instruction does once its waits are over, with the operands it read at its issue cycle (log entry 5). -/
inductive Cont
  | start (op : Op)
  | call (target live : Dword) (caller callee : Nat)
  | ret
  | brp (x : Mask) (target recon : Dword)
  | join (j : Nat)
  | barw (n : Nat) (x : Mask)
  | bara (n : Nat) (x : Mask) (h : Hd)
  /-- A cooperative save (R74); the split resumes at `pc`. -/
  | save (pc : Dword)
  | exit (x : Mask)
  | ctxsv (op : Op)
  | ctxld (va : Dword)
  | rft
  /-- The next run starts at `pc`. -/
  | goto (pc : Dword)
  /-- The trap is taken. -/
  | trap (t : Trap)
  /-- The split stops with its group (R431): its frame holds `pc`. -/
  | stop (pc : Dword)
  /-- A forced save (R435): its frame holds `pc`. -/
  | forced (pc : Dword)
  deriving DecidableEq, Repr

/-- Why a leg carries the split (R38, R50, R74, R135, R396), and what it does where it arrives. -/
inductive LegFor
  | access (op : Nat)
  | join (j : Nat)
  | barw (n : Nat) (x : Mask)
  | save (pc : Dword)
  /-- A forced save (R435, R447): the PC that its frame records. -/
  | forced (pc : Dword)
  /-- The stack, with its module, that the frame names (R396). -/
  | rft (to' : Nat)
  deriving DecidableEq, Repr

/-- Where a split stands (R48, R68). -/
inductive Status
  /-- Between runs, or inside its run (`inRun`). -/
  | run
  | wait (steps : List WaitStep) (k : Cont)
  /-- At `bwt`: object address, awaited phase, where the next run starts, whether it is `.y` (R276). -/
  | bwt (pa : Nat) (q : Bool) (next : Dword) (y : Bool)
  | join (j : Nat)
  /-- Its arrival at a named barrier is on its way (R135). -/
  | arriving (n : Nat)
  /-- At a named barrier whose PHASE was `q` (R135). -/
  | barrier (n : Nat) (q : Bool)
  /-- Parked on a 64-byte line (R71). -/
  | parked (line : Nat)
  /-- The lanes of a leg of operation `op` are being served (R38). -/
  | legs (op : Nat)
  /-- It departs once its tokens have drained (R38). -/
  | leaving (why : LegFor)
  /-- In the fabric, or in an arrival queue (R40). -/
  | transit
  /-- Replayable after a fault (R431). -/
  | replayable
  /-- Saved by pre-emption (R74, R75). -/
  | saved
  /-- Saved, and its slots are free: its team is pre-empted (R74). -/
  | stored
  | ended
  deriving DecidableEq, Repr

/-- What spin park watches between two backward branches (R71): the branch's PC, the line read, whether the iteration
still qualifies, and the first id of an operation of the iteration. -/
structure Spin where
  pc : Dword
  line : Option Nat
  ok : Bool
  first : Nat
  deriving DecidableEq, Repr

/-- A halt or pre-emption waiting to be taken (R403). -/
structure Pend where
  halt : Bool
  slice : Bool
  preempt : Bool
  /-- Stopped because its group became replayable (R431). -/
  stop : Bool
  /-- Ended because its grid was aborted (R434). -/
  kill : Bool
  /-- DETAIL of a deferred POISON that has no replay entry (R470), and of one that another trap, a stop or a save has come
  before: it waits for the split's return. -/
  late : Option Nat
  kept : Option Nat
  /-- The copies of a redundant pair have differed at a run end (R451). -/
  redund : Bool
  /-- The stacks on which its grid's budget has expired while it was still to be saved (R436). -/
  handler : List Nat
  deriving DecidableEq, Repr

/-- A split (R20). -/
structure Split where
  id : Nat
  group : Nat
  num : Nat
  asid : Nat
  prio : Nat
  /-- FLAGS [0] to [2] of R36. -/
  chktok : Bool
  red : Bool
  gstop : Bool
  inHandler : Bool
  stack : Nat
  core : Nat
  slot : Nat
  /-- The slot of its shadow under dual redundancy (R449). -/
  shSlot : Option Nat
  gslot : Nat
  pc : Dword
  act : Mask
  exited : Mask
  sregs : Vector Dword 32
  preds : Vector Mask 8
  toks : Vector Nat 8
  pal : Dword
  seeds : Lanes
  rlo : Dword
  rhi : Dword
  rdue : Nat
  postloc : BitVec 16
  postmod : BitVec 64
  mstep : Dword
  trapinfo : Dword
  wbase : Nat
  frame : Nat
  preq : Bool
  slice : Nat
  /-- The class of R427 a resumed split waits on: 0, 9 (TOKEN) or 10 (HAZARD). -/
  resume : Nat
  /-- The PC that its last trap frame recorded (R427). -/
  trapPc : Dword
  /-- TRAPINFO as its last trap set it (R394). -/
  trapSet : Dword
  /-- The wait at a barrier or join that a saved or stopped split enters again (R135, R431, R435); `run` for none. -/
  rewait : Status
  status : Status
  inRun : Bool
  /-- Stalled at the issue of its next instruction (R381, R435). -/
  stalled : Bool
  runLen : Nat
  wasReady : Bool
  since : Nat
  /-- The number of its last arrival at a stack: contexts and posts on one address act in arrival order (R43); and the cycle of
  the stack at which it joined the arrival queue (R377). -/
  came : Nat
  cameAt : Nat
  results : List Result
  ops : List Op
  /-- Stacks whose probe answers are awaited, modules' stacks from 16 up (R45). -/
  probes : List Nat
  /-- Whether a probe was answered with a failure (R460). -/
  probeFailed : Bool
  spin : Option Spin
  pend : Pend
  deriving DecidableEq, Repr

/-- A group slot (R26, R29): 128 physical registers per lane and the stack entries, oldest first. -/
structure GroupSlot where
  stack : Nat
  core : Nat
  gslot : Nat
  group : Nat
  /-- The group slot of its shadow under dual redundancy (R449). -/
  shGslot : Option Nat
  regs : Vector Lanes 128
  entries : List Entry
  /-- A check point of R48 has come and the merges of it are still to be done. -/
  check : Bool
  deriving DecidableEq, Repr

/-- An entry of the split table (R22). -/
structure TabEntry where
  mask : Mask
  loc : Nat
  core : Nat
  join : Nat
  valid : Bool
  state : Nat
  deriving DecidableEq, Repr

/-- An accumulator tile and its saturation flag (R284, R285). -/
structure Tile where
  rows : Vector (Vector Word 64) 32
  flag : Bool
  deriving DecidableEq, Repr

/-- A row entry of the swatch table (R314). -/
structure SwRow where
  val : Bool
  rep : Bool
  bkt : Nat
  rpr : Nat
  deriving DecidableEq, Repr

/-- The swatch state of a group (R313). -/
structure Swatch where
  pset : Dword
  p : Nat
  w : Nat
  rule : SwRule
  sig : Vector (Vector Word 16) 32
  tv : Bool
  nb : Nat
  rows : Vector SwRow 32
  /-- KEY and CNT of each bucket entry (R315). -/
  buckets : Vector (Nat × Nat) 32
  deriving DecidableEq, Repr

/-- A group (R19, R21, R50, R284, R312). -/
structure Group where
  id : Nat
  grid : Nat
  team : Nat
  grp : Nat
  base : Nat
  asid : Nat
  /-- Where its tiles are; meaningful when it owns tiles (R42). -/
  tileCore : Nat
  tiles : List Tile
  swatch : Swatch
  table : Vector TabEntry 4
  joinCore : Option Nat
  /-- The number of the last split to leave a record while another had none: the tiles may still have to join it (R437). -/
  lastSaved : Option Nat
  /-- Lanes of ended splits, joining the exited masks at the next merge or join (R52). -/
  gone : Mask
  replayable : Bool
  ended : Bool
  /-- Operations counted by R449 for dual redundancy: the slots and tiles the shadow takes. -/
  shadow : Bool
  /-- The virtual address of its team's save segment (R385). -/
  seg : Dword
  deriving DecidableEq, Repr

/-- Where a team stands. -/
inductive TeamSt
  | placed
  | preempted
  | ended
  deriving DecidableEq, Repr

/-- A team (R24, R63, R341, R385). -/
structure Team where
  grid : Nat
  team : Nat
  base : Nat
  /-- Physical address and size of its vault range. -/
  vaultPa : Nat
  vaultLen : Nat
  /-- Its save segment (R385): the slot and its virtual address. -/
  segNo : Nat
  seg : Dword
  pool : List (Dword × Dword)
  busy : Nat
  st : TeamSt
  /-- The resumption is held by RESTORECAP (R438). -/
  restoreCap : Bool
  deriving DecidableEq, Repr

/-- Where a grid stands (R61, R62): its dependences are not met yet, it has teams to place, or all are placed. -/
inductive GridSt
  | waiting
  | placing
  | running
  deriving DecidableEq, Repr

/-- A grid: the launch packet's values (R57), and what the launcher keeps for it. -/
structure Grid where
  id : Nat
  level : Nat
  asid : Nat
  prio : Nat
  chktok : Bool
  red : Bool
  lanes : Nat
  acc : Nat
  frame : Nat
  groups : Nat
  kaddr : Dword
  args : Dword
  crec : Dword
  place : Nat
  smask : BitVec 16
  vault : Nat
  /-- Teams of this module's share: the first and the one past the last, and the next to place. -/
  first : Nat
  last : Nat
  next : Nat
  gx : Nat
  gy : Nat
  gz : Nat
  /-- The dependences: object address, awaited phase, met. -/
  deps : List (Dword × Bool × Bool)
  /-- Ranks of a process-group table, this module's rank, and the ranks that have reported (R365, R368). -/
  ranks : Nat
  rank : Nat
  rankMods : List Nat
  reported : List Nat
  st : GridSt
  preq : Bool
  aborted : Bool
  energy : Nat
  /-- Another rank has reported its share aborted (R367). -/
  rankAborted : Bool
  /-- The type 9 record of the packet has been sent (R482). -/
  stuck : Bool
  deriving DecidableEq, Repr

/-- What a fabric packet brings (R12). -/
inductive Payload
  /-- A posted write, or a posted atomic (R43, R219), of a group with its GRID, TEAM and GRP `who`. The operations `after`
  come first, and the accesses of the splits `kin` that come later on its own stack follow it (R230); `no` is the next
  unused id at its issue. -/
  | post (split group : Nat) (who : Nat × Nat × Nat) (asid : Nat) (op : Option (AtOp × Bool)) (ty : MTy) (pa : Nat)
      (data : BitVec 128) (pois : Nat) (after : List Nat) (no : Nat) (kin : List Nat)
  | postAck (group no : Nat) (failed : Bool)
  | probe (split group : Nat)
  | probeAnswer (split : Nat) (stack : Nat) (failed : Bool)
  /-- The context of a split: its registers and its stack entries (R35 to R37), ACCPA where its leg has an access, and why it
  travels. The rest of it stays with the split's record, whose status is then `transit`. -/
  | context (split : Nat) (regs : List (Nat × Lanes)) (entries : List Entry) (pa : Option Nat) (why : LegFor)
  /-- The same between modules, with the rest of the split and what its group is (R362, R364). -/
  | guest (w : Split) (g : Group) (regs : List (Nat × Lanes)) (entries : List Entry) (pa : Option Nat) (why : LegFor)
  /-- A request for a split number by a split on core `core` (R21). -/
  | numReq (split group core : Nat)
  | numAns (split : Nat) (n : Option Nat)
  | numFree (group n : Nat)
  /-- A report to the split table (R22): new state, and the mask where the report carries one. -/
  | report (group n : Nat) (mask : Option Mask) (stack core : Nat) (state join : Nat)
  /-- An arrival (`exit` false) or an exit decrement of lanes on a named barrier (R134); one sent as a post has a post's
  `no` and `kin`. -/
  | barrier (grid team grp n lanes : Nat) (exit : Bool) (asid : Nat) (split group : Nat) (post : Option (Nat × List Nat))
  /-- An update of a barrier object under a page's poison policy by copy job `job` (R266, R268, R270) of the engine of stack
  `eng`, in its form in HOME. -/
  | object (pa : Nat) (added credited arrivals : Nat) (clip : Bool) (pois asid job eng : Nat)
  /-- Bytes of a line for a home in another module: a copy burst of job `job`, with the object that it credits (its address,
  its poison policy, and whether bytes were clipped), or a write of the launcher by the number it waits for (R264, R266,
  R362). -/
  | burst (pa : Nat) (bytes : List (Nat × Byte)) (pois asid job : Nat) (credit : Option (Nat × Nat × Bool))
  /-- A line of a save area in another module, of a grid (R362, R440). -/
  | area (grid pa : Nat) (bytes : List Byte) (asid : Nat)
  /-- A copy engine's read of `n` bytes in another module, and its answer: none where poison refuses it (R264, R362). -/
  | fetch (pa n pois job : Nat)
  | fetched (job : Nat) (x : Option Nat)
  /-- The answer to a burst or an update that came from another module: its address, the bytes that an update credits, and
  whether it failed. -/
  | jobDone (job pa : Nat) (credited : Option Nat) (failed : Bool)
  /-- A request to the range unit (R342): kind 0 post, 1 take, 2 done, and 3 what a merge away from the team's module adds to
  its pool (R345). -/
  | rangeReq (kind : Nat) (split group op : Nat) (lo hi : Dword) (g due : Nat)
  | rangeRep (split op : Nat) (r : Nat) (range : Option (Dword × Dword))
  | halt (split : Nat)
  /-- A completion report to the module of rank 0 (R367, R368). -/
  | complete (grid rank : Nat) (aborted : Bool) (energy : Nat)
  /-- The abort of a grid that spans modules reaches another of its modules (R434). -/
  | abortShare (grid : Nat)
  /-- The error record number `no` is on its way to the launcher (R477). -/
  | record (no : Nat)
  /-- A host request on its way from stack 0 to its home (R16, R235). -/
  | host (r : HostReq)
  /-- The data with which the host gives up a line that it had modified (R360). -/
  | hostBack (line : Nat) (bytes : List Byte)
  deriving DecidableEq, Repr

/-- A packet on the mesh: source and destination, which are stacks of this module, or stack 16 × m + k of the domain as
16 + 16 × m + k; and the stack where it entered the mesh. -/
structure Packet where
  src : Nat
  dst : Nat
  via : Nat
  pl : Payload
  deriving DecidableEq, Repr

/-- A cached translation (R190): address space, level of the leaf (R186), virtual page number, and the leaf entry. The
entries of its walk path are dropped with it (R192). -/
structure Tlb where
  asid : Nat
  level : Nat
  vpn : Nat
  leaf : Dword
  deriving DecidableEq, Repr

/-- A cached table entry (R190): address space, the level of the entry's own table (9 for the ASID table), the address bits
from that level up, and the entry. -/
structure WalkEntry where
  asid : Nat
  level : Nat
  key : Nat
  entry : Dword
  deriving DecidableEq, Repr

/-- A line of an instruction cache (R144): its physical line, its bytes as one number, its pin's grid. -/
structure ILine where
  line : Nat
  data : Nat
  pin : Option Nat
  deriving DecidableEq, Repr

/-- A bucket that takes part in a swatch multiply (R322): its working representative and its working rows. -/
structure Bucket where
  rep : Nat
  rows : List Nat
  deriving DecidableEq, Repr

/-- A pass of the array queue (R286, R287, R298, R326): a slot's work of an instruction, with the operands copied and the
addresses translated at issue. -/
structure Pass where
  split : Nat
  group : Nat
  op : Nat
  instr : Instr
  /-- Which quarter, eight buckets or 64 bytes of the instruction (R277, R326). -/
  part : Nat
  /-- The active lanes, the window base and PAL at issue; `swc` has its address operand in place of PAL. -/
  lanes : Mask
  wb : Nat
  pal : Dword
  /-- The registers copied: A rows, register by register (R279), the scales or row sums, and the seeds (R293). -/
  a : List Lanes
  sc : Lanes
  seeds : Lanes
  /-- The lines its read covers, with the poison policy of each (R280): slice, bitmap area, scale lines; or the block,
  plane block or map. -/
  segs : List (Nat × Nat)
  /-- The lines each lane's results go to, likewise. -/
  outs : List (Nat × List (Nat × Nat))
  /-- The buckets it serves and the representative rule, once they are known (R334). -/
  buckets : Option (List Bucket × SwRule)
  /-- The last of its instruction's passes: it serves every bucket that is left (log entry 71). -/
  last : Bool
  /-- The tile and the rows of it that it touches (R287, R298). -/
  tile : Nat
  rows : Mask
  deriving DecidableEq, Repr

/-- A fusion group (R287): its key (absent for passes that never fuse), the cycle at which its first pass was accepted, how
many passes have joined it, those left, the rows (group, tile, rows) of passes outside it accepted since, and the lines of
its read, with which of them were poisoned, once they are read. -/
structure FGroup where
  key : Option (List Nat)
  t0 : Nat
  count : Nat
  passes : List Pass
  outside : List (Nat × Nat × Mask)
  b : Option (List (Nat × Bool))
  deriving DecidableEq, Repr

structure Pipe where
  run : Option Nat
  hold : Nat
  ends : Nat
  deriving DecidableEq, Repr

structure Core where
  cycle : Nat
  pipes : Vector Pipe 4
  fstep : Nat
  hstep : Nat
  /-- Since when the flux estimate has exceeded its limit, counted from HSTEP's last fall, and since when it has been below
  the other one, counted from HSTEP's last rise (R373). -/
  hotAt : Option Nat
  coolAt : Option Nat
  ramp : Nat
  /-- Whether the array queue held work in the ramp interval (R374). -/
  busy : Bool
  /-- The cycle of the last ramp step (R374). -/
  rampAt : Nat
  /-- The effective step k, which changes at cycles with c mod 8 = 0 (R373). -/
  kstep : Nat
  /-- The first cycle whose pass slot is free (R278). -/
  slotAt : Nat
  queue : List FGroup
  tlb : List Tlb
  icache : List ILine
  deriving DecidableEq, Repr

/-- The writes of a packet to one line, gathered (R263): physical line address, poison policy, the bytes with their places
in the line, whether clipped bytes are among them, the virtual addresses of the first write and of the object to credit,
whether the line is DRAM of an SWP page (R201), and whether the burst is on its way to another module. -/
structure CopyWrite where
  pa : Nat
  pois : Nat
  bytes : List (Nat × Byte)
  clip : Bool
  va : Dword
  obj : Dword
  swp : Bool
  sent : Bool
  deriving DecidableEq, Repr

/-- A copy engine's read in another module: none, on its way, or answered (R264). -/
inductive Ask
  | idle
  | sent
  | got (x : Option Nat)
  deriving DecidableEq, Repr

/-- A copy packet being served (R260 to R270). -/
structure CopyJob where
  no : Nat
  /-- Ring index, packet, and the grid whose `cpkt` appended it. -/
  idx : Nat
  words : Vector Dword 8
  grid : Option Nat
  /-- The loop's iteration, and whether it has begun. -/
  iter : Nat
  begun : Bool
  /-- First element that may stand on a line not gathered yet, and the destination lines gathered. -/
  next : Nat
  seen : List Nat
  /-- The burst that is being gathered, and its elements still to come. -/
  cur : Option CopyWrite
  left : List Nat
  readsDone : Bool
  bufs : List CopyWrite
  /-- Credits sent and not yet performed, and bytes written and credited. -/
  credits : Nat
  done : Nat
  /-- The lowest tile that the multicast has found outside every range (R464). -/
  tile : Option Nat
  /-- DRAM bursts of SWP pages that it has touched (R201). -/
  swp : List Nat
  /-- The fault that has ended it, with the virtual address of the access (R463). -/
  fault : Option (TClass × Dword)
  /-- Its read in another module. -/
  ask : Ask
  deriving DecidableEq, Repr

structure CopyChan where
  reg : Dword
  served : Bool
  rewritten : Bool
  hdr : Nat
  logn : Nat
  jobs : List CopyJob
  deriving DecidableEq, Repr

/-- A reservation of a (split, lane) pair on an 8-byte granule (R216), with the clock at which its `lrg` was performed and
whether it still holds off other writers (R218). -/
structure Resv where
  no : Nat
  split : Nat
  lane : Nat
  granule : Nat
  since : Nat
  hold : Bool
  deriving DecidableEq, Repr

structure Monitor where
  cfg : Dword
  minv : Dword
  maxv : Dword
  bins : Vector Nat 16
  /-- The stack's count of spin-park events at the monitor's last sample (R377). -/
  spinAt : Nat
  deriving DecidableEq, Repr

/-- A sketchbook entry (R491). -/
structure SkEntry where
  stamp : Nat
  evt : Nat
  unit : Nat
  asid : Nat
  grid : Nat
  arg : List Byte
  deriving DecidableEq, Repr

/-- A stack's sketchbook (R491, R492): its entries by index (absent: never written), the next index, LOST, FROZEN, SEL. -/
structure Sketch where
  ring : List (Nat × SkEntry)
  next : Nat
  lost : Nat
  frozen : Bool
  sel : Nat
  deriving DecidableEq, Repr

/-- A stack (R10 to R12, R40, R44, R190, R216, R259, R370 to R377, R485, R490). -/
structure StackSt where
  clock : Nat
  /-- The router clock since reset (R13), the level monitors whose sample is due (R377), and whether a charge of energy is
  (R375). -/
  rclock : Nat
  samples : List Nat
  charge : Bool
  todo : List (Nat × Nat)
  cores : Vector Core 8
  /-- Contexts that wait for admission (R40), oldest first. -/
  arrivals : List Payload
  /-- Posts not yet acknowledged (R44): group and the post's number. -/
  tracker : List (Nat × Nat)
  /-- Probes that wait for their group's posts: source, split, group, and the number that later posts have at least. -/
  probed : List (Nat × Nat × Nat × Nat)
  tlb : List Tlb
  /-- Table entries of recent walks (R190). -/
  walks : List WalkEntry
  /-- The log of R187 and R468: poisoned lines homed here that a reader under POIS 1 has taken as zero, newest first. -/
  poisLog : List Nat
  chans : Vector CopyChan 4
  /-- Packets that `cpkt` has appended and the engine has not taken: header, index and grid. -/
  pubs : List (Nat × Nat × Nat)
  resv : List Resv
  /-- Budget counters of grids under pre-emption: grid, cycles left, whether it has expired (R73, R75). -/
  budgets : List (Nat × Nat × Bool)
  /-- Handler budget counters (R436): grid and cycles left. -/
  hbudgets : List (Nat × Nat)
  energy : List (Nat × Nat)
  idleEnergy : Nat
  monitors : Vector Monitor 32
  spinEvents : Nat
  /-- The power state, and whether a request has begun its exit (R370, R371). -/
  pstate : Nat
  waking : Bool
  /-- DRAM rows reported for the current refresh window (R201). -/
  swept : List Nat
  /-- Lines of the stack's window that the host caches, and whether it may have modified them (R360), oldest first. -/
  held : List (Nat × Bool)
  /-- SVC (R485). -/
  svc : Dword
  sketch : Sketch
  /-- Limit rows in force, and the cycle at which the response of row 2 began (R490). -/
  limits : List Nat
  row2At : Nat
  /-- Posts of a group that failed at their home and are not yet reported by a probe (R460). -/
  failed : List Nat
  deriving DecidableEq, Repr

/-- A compute ring as the launcher serves it (R53 to R56, R62). -/
structure Ring where
  reg : Dword
  served : Bool
  rewritten : Bool
  hdr : Nat
  logn : Nat
  /-- The grid whose packet is current. -/
  current : Option Nat
  deriving DecidableEq, Repr

/-- An error record (R477, R478): its number in the order of sending (the model's own), SEQ once it has arrived at the launcher
(R479), and the STAMP of its sketchbook entry. -/
structure ErrRec where
  no : Nat
  seq : Option Nat
  stamp : Nat
  typ : Nat
  loc : Nat
  skb : Nat
  grid : Nat
  team : Nat
  asid : Nat
  grp : Nat
  cls : Nat
  payload : List Byte
  deriving DecidableEq, Repr

/-- A refused launch packet whose completion record is still to be attempted (R367, R481): GRIDID of its table, GRID of its
record, ASID, CREC (0 for no record), ranks, and those that have reported. -/
structure Refused where
  id : Nat
  name : Nat
  asid : Nat
  crec : Dword
  ranks : Nat
  reported : List Nat
  deriving DecidableEq, Repr

/-- The module's registers of R355 and the error block, and what the launcher keeps. -/
structure ModSt where
  rings : Vector Ring 4
  asidbase : Dword
  pbudget : Dword
  preqctl : Dword
  requested : List Nat
  domcfg : Dword
  routes : Vector Dword 64
  lattol : Dword
  pwrcap : Dword
  ramp : Dword
  cplnote : Dword
  errlog : Dword
  ready : Bool
  fatal : Bool
  drop : Nat
  seq : Nat
  gridCount : Nat
  /-- Records sent and not yet published: those that have arrived, in arrival order, and the others in the order of sending. -/
  errq : List ErrRec
  /-- MSI-X vectors signalled, for the host to take (R480). -/
  msix : BitVec 2
  /-- Links that retry, retrain or are down (R486, R487): link, consecutive retries, whether it retrains. -/
  links : List (Link × Nat × Bool)
  downLinks : List Nat
  /-- Grids whose pre-emption the firmware has requested for a route rewrite (R487). -/
  quiesced : List Nat
  /-- Modules that are in warm reset, or fatal (R488, R493). -/
  peersDown : List Nat
  /-- The base of the HDM decoder (R358); how the host sets it is not given (DESIGN CHOICE, log entry 76). -/
  hdmbase : Nat
  /-- Host requests that wait for an entry of a full filter (R360). -/
  hostWait : List HostReq
  /-- Reports of other ranks that came before this module's packet: grid, rank, aborted, energy (R368). -/
  early : List (Nat × Nat × Bool × Nat)
  refused : List Refused
  /-- Completion records on their way to a home in another module: the number of the write, grid, ASID, CREC and bytes
  (R361, R483). -/
  recordsOut : List (Nat × Nat × Nat × Dword × List Byte)
  /-- Cores to be taken out of service once their grid has ended: stack, core and grid (R485). -/
  retiring : List (Nat × Nat × Nat)
  /-- What reads of the register window have returned (R355, R489), newest first. -/
  windowReads : List (Nat × Dword)
  /-- Mirror lines written to host memory (R361): host address and bytes, newest first. -/
  mirror : List (Nat × List Byte)
  /-- Data a host read returned and whether it is marked poisoned (R359, R489), newest first. -/
  hostReads : List (Nat × List Byte × Bool)
  /-- Whether the CXL link is up (R489). -/
  cxlUp : Bool
  /-- The AER non-fatal status (R489). -/
  aer : Bool
  /-- Packets for other modules, which have left the module (R364): source and destination in the domain, and the packet,
  oldest first. -/
  outbound : List (Nat × Nat × Payload)
  /-- Packets of other modules that stand at a Mervel link (R364): link, source and destination in the domain, and the
  packet, oldest first of each link. -/
  inbound : List (Nat × Nat × Nat × Payload)
  deriving DecidableEq, Repr

/-- The machine. -/
structure State where
  mem : Memory
  /-- The split in focus, its group slot and its group. -/
  me : Split
  win : GroupSlot
  gr : Group
  splits : List Split
  slots : List GroupSlot
  groups : List Group
  teams : List Team
  grids : List Grid
  stks : Vector StackSt 16
  fabric : List Packet
  md : ModSt
  /-- The next unused id, and the counter of the free values drawn so far (the model's own fields, log entry 1). -/
  nextId : Nat
  fresh : Nat
  /-- Events that come next: what the outside world does, or a chosen order of the agents (the model's own field, log
  entry 6). -/
  agenda : List Instr
  deriving DecidableEq, Repr

/-- Why the machine stops with a fault. -/
inductive Fault
  /-- Raised by `step` in the module fatal state with nothing on the agenda (R488): the module does nothing until a cold
  reset. Safe: nothing is claimed to happen. -/
  | moduleFatal
  deriving DecidableEq, Repr

/-- Why the machine refuses a step. -/
inductive Refusal
  /-- Raised by the arm of an instruction that has no meaning yet. Safe: the run stops. -/
  | notModelled (mnemonic : String)
  deriving DecidableEq, Repr

/-! ### Reset -/

/-- A register with no reset value of the manual starts at zero (log entry 7). -/
def Swatch.reset : Swatch :=
  { pset := 0#64, p := 1, w := 1, rule := .first, sig := Vector.replicate 32 (Vector.replicate 16 0#32), tv := false,
    nb := 0, rows := Vector.ofFn (fun i : Fin 32 => { val := false, rep := false, bkt := 0, rpr := i.val }),
    buckets := Vector.replicate 32 (0, 0) }

def TabEntry.free : TabEntry := { mask := 0#32, loc := 0, core := 0, join := 0, valid := false, state := 0 }

def Pend.none : Pend :=
  { halt := false, slice := false, preempt := false, stop := false, kill := false, late := .none, kept := .none, redund := false, handler := [] }

/-- No split is in focus after reset: the focus holds an ended one. -/
def Split.none : Split :=
  { id := 0, group := 0, num := 0, asid := 0, prio := 0, chktok := false, red := false, gstop := false,
    inHandler := false, stack := 0, core := 0, slot := 0, shSlot := .none, gslot := 0, pc := 0#64, act := 0#32, exited := 0#32,
    sregs := Vector.replicate 32 0#64, preds := Vector.replicate 8 0#32, toks := Vector.replicate 8 0, pal := 0#64,
    seeds := Vector.replicate 32 0#32, rlo := 0#64, rhi := 0#64, rdue := 0, postloc := 0#16, postmod := 0#64,
    mstep := 0#64, trapinfo := 0#64, wbase := 0, frame := 1, preq := false, slice := 0, resume := 0, trapPc := 0#64, trapSet := 0#64,
    rewait := .run, status := .ended,
    inRun := false, stalled := false, runLen := 0, wasReady := false, since := 0, came := 0, cameAt := 0, results := [], ops := [], probes := [], probeFailed := false,
    spin := .none, pend := Pend.none }

def GroupSlot.none : GroupSlot :=
  { stack := 0, core := 0, gslot := 0, group := 0, shGslot := .none, regs := Vector.replicate 128 (Vector.replicate 32 0#32), entries := [],
    check := false }

def Group.none : Group :=
  { id := 0, grid := 0, team := 0, grp := 0, base := 0, asid := 0, tileCore := 0, tiles := [], swatch := Swatch.reset,
    table := Vector.replicate 4 TabEntry.free, joinCore := .none, lastSaved := .none, gone := 0#32, replayable := false, ended := true,
    shadow := false, seg := 0#64 }

/-- A core after reset: CYCLE 0, FSTEP and HSTEP 8 and the ramp level 0 (R77, R373, R374, R493). -/
def Core.reset : Core :=
  { cycle := 0, pipes := Vector.replicate 4 { run := .none, hold := 0, ends := 0 }, fstep := 8, hstep := 8, hotAt := .none, coolAt := .none, ramp := 0,
    busy := false, rampAt := 0, kstep := 1, slotAt := 0, queue := [], tlb := [], icache := [] }

def CopyChan.reset : CopyChan := { reg := 0#64, served := false, rewritten := false, hdr := 0, logn := 0, jobs := [] }

/-- A monitor after reset (R376). -/
def Monitor.reset : Monitor :=
  { cfg := 0#64, minv := BitVec.allOnes 64, maxv := 0#64, bins := Vector.replicate 16 0, spinAt := 0 }

def Sketch.reset : Sketch := { ring := [], next := 0, lost := 0, frozen := false, sel := 0 }

/-- SVC after reset: every core and all 64 tiles of each in service (R485). -/
def svcReset : Dword :=
  BitVec.ofNat 64 (0xFF + (List.range 8).foldl (fun x c => x + 64 * 2 ^ (7 * c + 8)) 0)

def StackSt.reset : StackSt :=
  { clock := 0, rclock := 0, samples := [], charge := false, todo := [], cores := Vector.replicate 8 Core.reset, arrivals := [], tracker := [], probed := [], tlb := [], walks := [], poisLog := [],
    chans := Vector.replicate 4 CopyChan.reset, pubs := [], resv := [], budgets := [], hbudgets := [], energy := [], idleEnergy := 0,
    monitors := Vector.replicate 32 Monitor.reset, spinEvents := 0, pstate := 0, waking := false, swept := [], held := [], svc := svcReset,
    sketch := Sketch.reset, limits := [], row2At := 0, failed := [] }

def Ring.reset : Ring := { reg := 0#64, served := false, rewritten := false, hdr := 0, logn := 0, current := .none }

def ModSt.reset : ModSt :=
  { rings := Vector.replicate 4 Ring.reset, asidbase := 0#64, pbudget := 262144#64, preqctl := 0#64, requested := [],
    domcfg := 256#64, routes := Vector.replicate 64 0#64, lattol := 0#64, pwrcap := 0#64, ramp := 57#64, cplnote := 0#64,
    errlog := 0#64, ready := false, fatal := false, drop := 0,
    seq := 0, gridCount := 1, errq := [], msix := 0#2, links := [], downLinks := [], quiesced := [], peersDown := [],
    hdmbase := 0, hostWait := [], early := [], refused := [], recordsOut := [], retiring := [], windowReads := [], mirror := [], hostReads := [],
    cxlUp := true, aer := false, outbound := [], inbound := [] }

/-- The machine right after a cold reset, before bring-up has finished (R493, R494): memory lists nothing and reads zero
with owner tag 0, every ring is off, no grid exists, and READY is 0. -/
def State.reset : State :=
  { mem := { cells := [], tags := [], poison := [] }, me := Split.none, win := GroupSlot.none, gr := Group.none,
    splits := [], slots := [], groups := [], teams := [], grids := [], stks := Vector.replicate 16 StackSt.reset,
    fabric := [], md := ModSt.reset, nextId := 1, fresh := 0, agenda := [] }

end Sys2Proof.Machine
end

