-- ==== Sys2Proof/Machine/Ops.lean ====
section
/-! DEFINITION. Machine/Ops.lean: the named operations on memory, registers, stacks, runs and the focus. -/

namespace Sys2Proof.Machine

abbrev Out := Host.Outcome State Fault Refusal

/-! ### Memory (R184, R193, R202, R466) -/

/-- The byte at a physical address; an address not listed reads zero (R494). -/
def lookupCell : List Host.Cell → Nat → Byte
  | [], _ => 0#8
  | (a, b) :: cs, x => if x = a then b else lookupCell cs x

/-- Insertion that keeps addresses rising and lists no zero byte. -/
def insertCell : List Host.Cell → Nat → Byte → List Host.Cell
  | [], x, v => if v = 0#8 then [] else [(x, v)]
  | (a, b) :: cs, x, v =>
    if x < a then (if v = 0#8 then (a, b) :: cs else (x, v) :: (a, b) :: cs)
    else if x = a then (if v = 0#8 then cs else (x, v) :: cs)
    else (a, b) :: insertCell cs x v

/-- The same for owner tags, of which 0 is not listed. -/
def insertTag : List (Nat × Nat) → Nat → Nat → List (Nat × Nat)
  | [], x, v => if v = 0 then [] else [(x, v)]
  | (a, b) :: cs, x, v =>
    if x < a then (if v = 0 then (a, b) :: cs else (x, v) :: (a, b) :: cs)
    else if x = a then (if v = 0 then cs else (x, v) :: cs)
    else (a, b) :: insertTag cs x v

def lookupTag : List (Nat × Nat) → Nat → Nat
  | [], _ => 0
  | (a, b) :: cs, x => if x = a then b else lookupTag cs x

/-- Insertion into and removal from a rising list of lines. -/
def insertLine : List Nat → Nat → List Nat
  | [], x => [x]
  | a :: as, x => if x < a then x :: a :: as else if x = a then a :: as else a :: insertLine as x

/-- The canonical form: addresses strictly rising, no byte 0 and no tag 0 listed. -/
def sortedBelow : List Nat → Bool
  | [] => true
  | [_] => true
  | a :: b :: r => a < b && sortedBelow (b :: r)

def Memory.wf (m : Memory) : Bool :=
  sortedBelow (m.cells.map (·.1)) && m.cells.all (fun c => c.2 != 0#8)
    && sortedBelow (m.tags.map (·.1)) && m.tags.all (fun c => c.2 != 0) && sortedBelow m.poison

/-- The 64-byte line of a physical address. -/
def lineOf (pa : Nat) : Nat := pa / 64

def Memory.byte (m : Memory) (pa : Nat) : Byte := lookupCell m.cells pa
def Memory.setByte (m : Memory) (pa : Nat) (v : Byte) : Memory := { m with cells := insertCell m.cells pa v }

def Memory.poisoned (m : Memory) (pa : Nat) : Bool := m.poison.contains (lineOf pa)
def Memory.setPoison (m : Memory) (line : Nat) : Memory := { m with poison := insertLine m.poison line }
def Memory.clearPoison (m : Memory) (line : Nat) : Memory := { m with poison := m.poison.filter (· != line) }

/-- `n` bytes from `pa` up, as a number, the lowest byte first (R3). -/
def Memory.read (m : Memory) (pa : Nat) : Nat → Nat
  | 0 => 0
  | n + 1 => (m.byte pa).toNat + 256 * m.read (pa + 1) n

/-- Bytes written from `pa` up. -/
def Memory.writeBytes (m : Memory) (pa : Nat) : List Byte → Memory
  | [] => m
  | b :: bs => (m.setByte pa b).writeBytes (pa + 1) bs

/-- The owner tag of every line of `[pa, pa + n)` set (R202). -/
def Memory.tagLines (m : Memory) (pa n tag : Nat) : Memory :=
  (List.range (ceilDiv (pa % 64 + n) 64)).foldl
    (fun m i => { m with tags := insertTag m.tags (lineOf pa + i) tag }) m

/-- A write with its owner tag. -/
def Memory.write (m : Memory) (pa : Nat) (bs : List Byte) (tag : Nat) : Memory :=
  (m.writeBytes pa bs).tagLines pa bs.length tag

def Memory.write64 (m : Memory) (pa x tag : Nat) : Memory := m.write pa (bytesLE 8 x) tag
def Memory.write32 (m : Memory) (pa x tag : Nat) : Memory := m.write pa (bytesLE 4 x) tag

/-- `home(pa)` (R184): module and stack. -/
def homeOf (pa : Nat) : Nat := pa / 2 ^ 38
def homeStack (pa : Nat) : Nat := pa / 2 ^ 38 % 16
def homeModule (pa : Nat) : Nat := pa / 2 ^ 42
def windowOff (pa : Nat) : Nat := pa % 2 ^ 38
def vaultBase : Nat := 0x2000000000
def isDram (pa : Nat) : Bool := windowOff pa < 0x1000000000
def isVault (pa : Nat) : Bool := vaultBase ≤ windowOff pa && windowOff pa < 0x2010000000
def isReserved (pa : Nat) : Bool := !isDram pa && !isVault pa
/-- The vault tile of a vault address (R184). -/
def tileOfPa (pa : Nat) : Nat := (windowOff pa - vaultBase) / 2 ^ 25

/-! ### Stacks and cores -/

def State.stk (s : State) (k : Nat) : StackSt := vget s.stks k StackSt.reset
def State.onStk (s : State) (k : Nat) (f : StackSt → StackSt) : State := { s with stks := vset s.stks k (f (s.stk k)) }
def StackSt.core (t : StackSt) (c : Nat) : Core := vget t.cores c Core.reset
def State.core (s : State) (k c : Nat) : Core := (s.stk k).core c
def State.onCore (s : State) (k c : Nat) (f : Core → Core) : State :=
  s.onStk k fun t => { t with cores := vset t.cores c (f (t.core c)) }
def Pipe.idle : Pipe := { run := none, hold := 0, ends := 0 }
def State.pipe (s : State) (k c p : Nat) : Pipe := vget (s.core k c).pipes p Pipe.idle
def State.onPipe (s : State) (k c p : Nat) (f : Pipe → Pipe) : State :=
  s.onCore k c fun q => { q with pipes := vset q.pipes p (f (vget q.pipes p Pipe.idle)) }

/-- MODNO of DOMCFG (R363). -/
def State.modno (s : State) : Nat := s.md.domcfg.toNat % 64
def State.dsize (s : State) : Nat := s.md.domcfg.toNat / 256 % 128
/-- A stack in the form of HOME and BASE (R23). A stack of this module goes by its number, and any stack of the domain by 16
more than that form. -/
def State.locOf (s : State) (k : Nat) : Nat := if k < 16 then s.modno * 16 + k else k - 16
/-- The name here of the stack with a form of HOME and BASE. -/
def State.nameOf (s : State) (loc : Nat) : Nat := if loc / 16 = s.modno then loc % 16 else 16 + loc

/-- The next free value's number (log entry 1). -/
def State.draw (s : State) : State := { s with fresh := s.fresh + 1 }

/-! ### The focus -/

def Split.home (w : Split) (g : GroupSlot) : Bool := g.stack == w.stack && g.core == w.core && g.gslot == w.gslot

/-- Every live split, the one in focus first. -/
def State.allSplits (s : State) : List Split := if s.me.id = 0 then s.splits else s.me :: s.splits
def State.allSlots (s : State) : List GroupSlot := if s.win.group = 0 then s.slots else s.win :: s.slots
def State.allGroups (s : State) : List Group := if s.gr.id = 0 then s.groups else s.gr :: s.groups

/-- The focus given up: its split, slot and group return to the lists. -/
def State.unfocus (s : State) : State :=
  { s with splits := s.allSplits, slots := s.allSlots, groups := s.allGroups, me := Split.none, win := GroupSlot.none,
           gr := Group.none }

/-- The split `id` brought into focus with its group slot and its group. -/
def State.focus (s : State) (id : Nat) : Option State :=
  if s.me.id = id then some s
  else
    let u := s.unfocus
    match u.splits.find? (·.id == id) with
    | none => none
    | some w => some { u with
        me := w, splits := u.splits.filter (·.id != id),
        win := (u.slots.find? w.home).getD GroupSlot.none, slots := u.slots.filter (fun g => !w.home g),
        gr := (u.groups.find? (·.id == w.group)).getD Group.none, groups := u.groups.filter (·.id != w.group) }

/-- An action on the split `id`, wherever it stands; nothing when there is no such split. -/
def State.withSplit (s : State) (id : Nat) (f : State → State) : State := match s.focus id with
  | none => s
  | some t => f t

def State.onSplit (s : State) (id : Nat) (f : Split → Split) : State :=
  if s.me.id = id then { s with me := f s.me }
  else { s with splits := s.splits.map fun w => if w.id = id then f w else w }

def State.split? (s : State) (id : Nat) : Option Split := s.allSplits.find? (·.id == id)
def State.group? (s : State) (id : Nat) : Option Group := s.allGroups.find? (·.id == id)
def State.onGroup (s : State) (id : Nat) (f : Group → Group) : State :=
  if s.gr.id = id then { s with gr := f s.gr }
  else { s with groups := s.groups.map fun w => if w.id = id then f w else w }
def State.grid? (s : State) (id : Nat) : Option Grid := s.grids.find? (·.id == id)
def State.onGrid (s : State) (id : Nat) (f : Grid → Grid) : State :=
  { s with grids := s.grids.map fun g => if g.id = id then f g else g }
def State.team? (s : State) (grid team : Nat) : Option Team := s.teams.find? fun t => t.grid == grid && t.team == team
def State.onTeam (s : State) (grid team : Nat) (f : Team → Team) : State :=
  { s with teams := s.teams.map fun t => if t.grid = grid && t.team = team then f t else t }

def State.onMe (s : State) (f : Split → Split) : State := { s with me := f s.me }
/-- The core of the split in focus. -/
def State.myCore (s : State) : Core := s.core s.me.stack s.me.core
def State.myPipe (s : State) : Nat := s.me.slot % 4
/-- The grid of a split, through its group. -/
def State.gridOf (s : State) : Nat := s.gr.grid
/-- Whether the split is in privileged mode (R380). -/
def Split.priv (w : Split) : Bool := w.asid == 0 || w.inHandler

/-- Whether two splits share a group slot. -/
def Split.sameSlot (v w : Split) : Bool := v.stack == w.stack && v.core == w.core && v.gslot == w.gslot

/-- Whether a split holds a split slot of a core: it is neither in transit nor ended, nor of a team whose slots
pre-emption has freed (R74). -/
def Split.resident (w : Split) : Bool := match w.status with
  | .transit | .stored | .ended => false
  | .run | .wait _ _ | .bwt _ _ _ _ | .join _ | .arriving _ | .barrier _ _ | .parked _ | .legs _ | .leaving _
  | .replayable | .saved => true

/-! ### Registers (R20, R26, R28) -/

/-- `V(n, ·)`: vector register `vn` of the current window. -/
def State.v (s : State) (n : VReg) : Lanes := vget s.win.regs (s.me.wbase + n.val) (Vector.replicate 32 0#32)
/-- The register `j` places above `vn`. -/
def State.vAt (s : State) (n : VReg) (j : Nat) : Lanes :=
  vget s.win.regs (s.me.wbase + n.val + j) (Vector.replicate 32 0#32)
/-- The physical register of `vn`. -/
def State.phys (s : State) (n : VReg) : Nat := s.me.wbase + n.val
/-- `S(n)`; `s0` reads zero. -/
def Split.s (w : Split) (n : SReg) : Dword := if n = 0 then 0#64 else w.sregs[n]
def State.s (s : State) (n : SReg) : Dword := s.me.s n
/-- `P(n, ·)` as a set of lanes; `p7` is every lane. -/
def Split.p (w : Split) (n : PReg) : Mask := if n = 7 then BitVec.allOnes 32 else w.preds[n]
def State.p (s : State) (n : PReg) : Mask := s.me.p n

/-- One write lands (R28: writes to `s0` and `p7` have no effect). -/
def State.applyWr (s : State) : Wr → State
  | .v r m x => { s with win := { s.win with regs := vset s.win.regs r (blend m x (vget s.win.regs r x)) } }
  | .vbits r m mask x =>
    let old := vget s.win.regs r x
    let new := lanesOf fun l =>
      if m.has l then (lane old l &&& ~~~ (lane mask l)) ||| (lane x l &&& lane mask l) else lane old l
    { s with win := { s.win with regs := vset s.win.regs r new } }
  | .s r x => if r = 0 then s else { s with me := { s.me with sregs := vset s.me.sregs r x } }
  | .p r m x =>
    let new := (vget s.me.preds r 0#32 &&& ~~~ m) ||| (x &&& m)
    if r = 7 then s else { s with me := { s.me with preds := vset s.me.preds r new } }
  | .pal x => { s with me := { s.me with pal := x } }
  | .mstep x => { s with me := { s.me with mstep := (s.me.mstep &&& ~~~ 0xF#64) ||| (x &&& 0xF#64) } }
  | .trapinfo x => { s with me := { s.me with trapinfo := (s.me.trapinfo &&& ~~~ 0xFFFF#64) ||| (x &&& 0xFFFF#64) } }

def State.applyAll (s : State) (ws : List Wr) : State := ws.foldl State.applyWr s

/-- The lanes of `active(split)` under the guard (R8, R114). -/
def State.active (s : State) (h : Hd) : Mask := s.me.act &&& s.p h.g

/-! ### Fixed-latency results (R70) -/

/-- Results that land `lat` cycles from now. -/
def State.land (s : State) (lat : Nat) (ws : List Wr) : State :=
  { s with me := { s.me with results := s.me.results ++ ws.map fun w => { due := s.myCore.cycle + lat, wr := w } } }

/-- The results due now land, in issue order. -/
def State.landDue (s : State) : State :=
  let now := s.myCore.cycle
  let due := s.me.results.filter (fun r => r.due ≤ now)
  ({ s with me := { s.me with results := s.me.results.filter (fun r => !(r.due ≤ now)) } }).applyAll (due.map Result.wr)

/-- A result put among results in the order of their due cycles, after those of its own cycle. -/
def insertResult (r : Result) : List Result → List Result
  | [] => [r]
  | q :: qs => if r.due < q.due then r :: q :: qs else q :: insertResult r qs

def sortResults (rs : List Result) : List Result := rs.foldl (fun acc r => insertResult r acc) []

/-- Every result in flight lands, in the order of R70: by due cycle, and by issue on one cycle. -/
def State.landAll (s : State) : State :=
  ({ s with me := { s.me with results := [] } }).applyAll
    ((sortResults s.me.results).map Result.wr)

/-! ### Tokens (R8, R124, R125) -/

def Split.tok (w : Split) (k : Tok) : Nat := w.toks[k]
def State.setTok (s : State) (k : Tok) (n : Nat) : State :=
  { s with me := { s.me with toks := vset s.me.toks k.val n } }
def State.tokIssue (s : State) : Option Tok → State
  | none => s
  | some k => s.setTok k (s.me.tok k + 1)
/-- `tok_done(k)`; a fall of a token is a check point (R48). -/
def State.tokDone (s : State) : Option Tok → State
  | none => s
  | some k => { s.setTok k (s.me.tok k - 1) with win := { s.win with check := true } }
def Split.toksZero (w : Split) (m : BitVec 8) : Bool :=
  (List.range 8).all fun k => !m.getLsbD k || vget w.toks k 0 == 0

/-- The operation `id` of the split in focus. -/
def Split.op? (w : Split) (id : Nat) : Option Op := w.ops.find? (·.id == id)
def State.onOp (s : State) (id : Nat) (f : Op → Op) : State :=
  { s with me := { s.me with ops := s.me.ops.map fun o => if o.id = id then f o else o } }
def State.dropOp (s : State) (id : Nat) : State :=
  { s with me := { s.me with ops := s.me.ops.filter (·.id != id) } }

/-! ### The fabric (R12) -/

def State.send (s : State) (src dst : Nat) (pl : Payload) : State := { s with fabric := s.fabric ++ [⟨src, dst, src, pl⟩] }

/-- The oldest packet of the pair, if `f` accepts it, and the fabric without it. -/
def takeHead (f : Payload → Bool) (src dst : Nat) : List Packet → Option (Payload × List Packet)
  | [] => none
  | p :: ps =>
    if p.src = src ∧ p.dst = dst then (if f p.pl then some (p.pl, ps) else none)
    else match takeHead f src dst ps with
      | none => none
      | some (q, r) => some (q, p :: r)

/-- The mesh hops of a packet, along its row and then its column (R11, R12): stack left, and direction (0 north, 1 east,
2 south, 3 west). -/
def hops (src dst : Nat) : List (Nat × Nat) :=
  let row := 4 * (src / 4)
  let (a, b, x, y) := (src % 4, dst % 4, src / 4, dst / 4)
  (if a < b then (List.range (b - a)).map fun i => (row + a + i, 1) else (List.range (a - b)).map fun i => (row + a - i, 3))
    ++ (if x < y then (List.range (y - x)).map fun i => (4 * (x + i) + b, 2)
        else (List.range (x - y)).map fun i => (4 * (x - i) + b, 0))

/-- Whether a link with that count of retries passes no traffic: it retrains, or is to (R486). -/
def linkHeld (x : Nat × Bool) : Bool := x.2 || 16 ≤ x.1

/-- Whether a mesh link on a packet's path retrains: its traffic waits (R486). -/
def State.pathWaits (s : State) (src dst : Nat) : Bool := s.md.links.any fun x => linkHeld x.2 && match x.1 with
  | .mesh k d => (hops src dst).contains (k.val, d.val)
  | .mervel _ => false

/-- The stack that a Mervel link attaches to (R15). -/
def linkStack (n : Nat) : Nat := [0, 1, 2, 3, 7, 11, 15, 14, 13, 12, 8, 4].getD n 0

/-- The outgoing link for a module (R363). -/
def State.routeLink (s : State) (m : Nat) : Nat := (vget s.md.routes m 0#64).toNat % 16

/-- Where a packet leaves the mesh: at its destination, or at the stack of the outgoing link of its module (R364). -/
def State.meshEnd (s : State) (dst : Nat) : Nat := if dst < 16 then dst else linkStack (s.routeLink ((dst - 16) / 16))

/-- The oldest packet of the pair where it can leave the mesh and `f` accepts it, and the fabric without it. -/
def State.takeFrom (s : State) (f : Payload → Bool) (src dst : Nat) : Option (Payload × List Packet) :=
  if (s.fabric.find? fun (p : Packet) => p.src == src && p.dst == dst).any fun (p : Packet) =>
      s.pathWaits p.via (s.meshEnd dst) then none
  else takeHead f src dst s.fabric

/-- The links of the mesh on a path pass a flit again: their retries are no longer consecutive (R486). -/
def State.flitsPass (s : State) (via dst : Nat) : State :=
  if s.md.links.isEmpty then s
  else { s with md := { s.md with links := s.md.links.filter fun x => linkHeld x.2 || match x.1 with
    | .mesh k d => !((hops via dst).contains (k.val, d.val))
    | .mervel _ => true } }

/-- The oldest packet of the pair taken from the mesh, where it can leave it and `f` accepts it. -/
def State.takePacket (s : State) (f : Payload → Bool) (src dst : Nat) : Option (Payload × State) :=
  (s.takeFrom f src dst).map fun r =>
    let via := ((s.fabric.find? fun (p : Packet) => p.src == src && p.dst == dst).map fun (p : Packet) => p.via).getD 0
    (r.1, { s.flitsPass via (s.meshEnd dst) with fabric := r.2 })

/-- Whether something that stack `a` sends to `b` now would have to wait on its path: an earlier packet of the pair stands
there, or a mesh link of it retrains (R12, R486). -/
def State.pairWaits (s : State) (a b : Nat) : Bool :=
  s.pathWaits a b || s.fabric.any fun (p : Packet) => p.src == a && p.dst == b

/-- A read that stack `a` makes at once at home `b`: whether its request or its data has to wait (R12). -/
def State.tripWaits (s : State) (a b : Nat) : Bool := s.pairWaits a b || s.pairWaits b a

/-- Its flits have passed, both ways (R486). -/
def State.trip (s : State) (a b : Nat) : State := (s.flitsPass a b).flitsPass b a

end Sys2Proof.Machine
end

