-- ==== Sys2Proof/Machine/Translate.lean ====
section
/-! DEFINITION. Machine/Translate.lean: virtual addresses, page tables and the checks of an access (R183 to R192, R456,
R457). -/

namespace Sys2Proof.Machine

/-- The class codes of R382. -/
def tclassCode : TClass → Nat
  | .illegal => 1 | .priv => 2 | .home => 3 | .align => 4 | .range => 5 | .page => 6 | .prot => 7 | .poison => 8
  | .token => 9 | .hazard => 10 | .stack => 11 | .fixed => 12 | .soft => 13 | .brk => 14 | .redund => 15 | .preempt => 16
  | .restorecap => 17

/-- The class of a code; codes that are reserved read as `illegal`. -/
def tclassOf : Nat → TClass
  | 2 => .priv | 3 => .home | 4 => .align | 5 => .range | 6 => .page | 7 => .prot | 8 => .poison | 9 => .token
  | 10 => .hazard | 11 => .stack | 12 => .fixed | 13 => .soft | 14 => .brk | 15 => .redund | 16 => .preempt
  | 17 => .restorecap | _ => .illegal

/-! ### Entries (R187) -/

def pteP (e : Nat) : Bool := e.testBit 48
def pteLeaf (e : Nat) : Bool := e.testBit 49
def pteRd (e : Nat) : Bool := e.testBit 50
def pteWr (e : Nat) : Bool := e.testBit 51
def pteEx (e : Nat) : Bool := e.testBit 52
def ptePsz (e : Nat) : Nat := bitsOf e 54 53
def pteFix (e : Nat) : Bool := e.testBit 55
def ptePois (e : Nat) : Nat := bitsOf e 57 56
def pteSwp (e : Nat) : Bool := e.testBit 58
def pteRpl (e : Nat) : Bool := e.testBit 59
/-- The physical address an entry names. -/
def pteAddr (e : Nat) : Nat := 256 * bitsOf e 47 8

/-- Lowest address bit that level `l` indexes, which is also the size of its pages (R186). -/
def levelLo : Nat → Nat
  | 0 => 45 | 1 => 33 | 2 => 28 | 3 => 21 | _ => 16

/-- Entries of a table of level `l`, as bits (R186). -/
def levelBits : Nat → Nat
  | 0 => 12 | 1 => 12 | 2 => 5 | 3 => 7 | _ => 5

/-- PSZ of a leaf of level `l` (R187). -/
def levelPsz (l : Nat) : Nat := 4 - l

/-- Whether module `m` has a route (R363, R457). -/
def State.routed (s : State) (m : Nat) : Bool :=
  m == s.modno || (s.dsize != 1 && (vget s.md.routes m 0#64).getLsbD 4)

/-- A well-formed pointer to a table of level `l` (R457). -/
def pointerOk (s : State) (e l : Nat) : Bool :=
  pteP e && !pteLeaf e && bitsOf e 63 50 == 0 && bitsOf e 7 0 == 0
    && pteAddr e % (8 * 2 ^ levelBits l) == 0 && homeModule (pteAddr e) == s.modno

/-- A well-formed leaf of level `l` (R185, R457). -/
def leafOk (s : State) (e l : Nat) : Bool :=
  let base := pteAddr e
  let last := base + 2 ^ levelLo l - 1
  pteP e && pteLeaf e && 1 ≤ l && ptePsz e == levelPsz l && bitsOf e 63 60 == 0 && bitsOf e 7 0 == 0 && ptePois e < 2
    && base % 2 ^ levelLo l == 0
    && (isDram base && isDram last || isVault base && isVault last)
    && (pteRpl e || s.routed (homeModule base))

/-- A translation: the leaf entry and its level. -/
structure Leaf where
  entry : Nat
  level : Nat
  deriving DecidableEq, Repr

/-- The level under which an entry of the ASID table is cached. -/
def asidLevel : Nat := 9

/-- Whether a cached table entry is the one that a walk for `va` reads at level `l`. -/
def WalkEntry.at' (w : WalkEntry) (asid l va : Nat) : Bool :=
  w.asid == asid && w.level == l && (l == asidLevel || w.key == va / 2 ^ levelLo l)

/-- The entry that a walk on stack `k` reads at level `l`: the stack's cached one, else the 8 bytes at `pa` (R190). -/
def State.tableEntry (s : State) (k asid l va pa : Nat) : Except TClass Nat :=
  match (s.stk k).walks.find? fun (w : WalkEntry) => w.at' asid l va with
  | some w => .ok w.entry.toNat
  | none => if s.mem.poisoned pa then .error .poison else .ok (s.mem.read pa 8)

/-- The walk from the table at `table`, over the levels still to come (R186), and the table pointers it has read. -/
def walkFrom (s : State) (k asid va : Nat) : List Nat → Nat → List WalkEntry → List WalkEntry × Except TClass Leaf
  | [], _, acc => (acc, .error .page)
  | l :: ls, table, acc => match s.tableEntry k asid l va (table + 8 * (va / 2 ^ levelLo l % 2 ^ levelBits l)) with
    | .error c => (acc, .error c)
    | .ok e =>
      if leafOk s e l then (acc, .ok ⟨e, l⟩)
      else if pointerOk s e (l + 1) && l < 4 then
        walkFrom s k asid va ls (pteAddr e) (⟨asid, l, va / 2 ^ levelLo l, BitVec.ofNat 64 e⟩ :: acc)
      else (acc, .error .page)

/-- The walk of R189 and R186 for `va` in address space `asid` on stack `k`, and the table pointers it has read. -/
def walkPath (s : State) (k asid va : Nat) : List WalkEntry × Except TClass Leaf :=
  match s.tableEntry k asid asidLevel va (8192 * bitsOf s.md.asidbase.toNat 47 13 + 8 * asid) with
  | .error c => ([], .error c)
  | .ok e =>
    if pointerOk s e 0 then walkFrom s k asid va [0, 1, 2, 3, 4] (pteAddr e) [⟨asid, asidLevel, 0, BitVec.ofNat 64 e⟩]
    else ([], .error .page)

def walk (s : State) (k asid va : Nat) : Except TClass Leaf := (walkPath s k asid va).2

def Tlb.hit (t : Tlb) (asid va : Nat) : Bool := t.asid == asid && t.vpn == va / 2 ^ levelLo t.level

/-- The leaf of `va`: from the core's translation table cache, then the stack's translation unit, then a walk (R190). -/
def findLeaf (s : State) (k c asid va : Nat) : Except TClass Leaf :=
  match (s.core k c).tlb.find? (·.hit asid va) with
  | some t => .ok ⟨t.leaf.toNat, t.level⟩
  | none => match (s.stk k).tlb.find? (·.hit asid va) with
    | some t => .ok ⟨t.leaf.toNat, t.level⟩
    | none => walk s k asid va

/-- The physical address of `va` under a leaf; a replicated page maps the translating stack's own replica (R191). -/
def Leaf.pa (s : State) (k : Nat) (f : Leaf) (va : Nat) : Nat :=
  let a := pteAddr f.entry + va % 2 ^ levelLo f.level
  if pteRpl f.entry then s.locOf k * 2 ^ 38 + a % 2 ^ 38 else a

/-- The permissions an access needs (R188). -/
structure Need where
  rd : Bool
  wr : Bool
  ex : Bool
  fix : Bool
  deriving DecidableEq, Repr

def Need.ok (n : Need) (e : Nat) : Bool :=
  (!n.rd || pteRd e) && (!n.wr || pteWr e) && (!n.ex || pteEx e) && (!n.fix || pteFix e)

/-- What a translation gives: the physical address, the poison policy and whether the page sweeps (R188, R201). -/
structure Xl where
  pa : Nat
  pois : Nat
  swp : Bool
  deriving DecidableEq, Repr

/-- Steps 1 to 4 of R456, on stack `k` through the caches of core `c`. -/
def xlate (s : State) (k c asid : Nat) (need : Need) (align : Nat) (va : Dword) : Except TClass Xl :=
  let a := va.toNat
  if 2 ^ 57 ≤ a then .error .range
  else if a % align ≠ 0 then .error .align
  else match findLeaf s k c asid a with
    | .error e => .error e
    | .ok f =>
      if need.ok f.entry then .ok ⟨f.pa s k a, ptePois f.entry, pteSwp f.entry⟩ else .error .prot

/-- Whether the group in focus is fixed (R42). -/
def State.fixed (s : State) : Bool := !s.gr.tiles.isEmpty

/-- A data access of the split in focus on its own stack, FIX included for a fixed group (R188). -/
def State.xl (s : State) (rd wr : Bool) (align : Nat) (va : Dword) : Except TClass Xl :=
  xlate s s.me.stack s.me.core s.me.asid ⟨rd, wr, false, s.fixed⟩ align va

/-- Whether a physical address is homed on stack `k` of this module. -/
def State.homedOn (s : State) (k pa : Nat) : Bool := homeOf pa == s.locOf k

/-- A local access (step 5 of R456): HOME when it is homed elsewhere. -/
def State.xlLocal (s : State) (rd wr : Bool) (align : Nat) (va : Dword) : Except TClass Xl :=
  match s.xl rd wr align va with
  | .error e => .error e
  | .ok x => if s.homedOn s.me.stack x.pa then .ok x else .error .home

/-- An access of a migrating form (R42, step 5 of R456): a fixed group stays on its stack. -/
def State.xlMigrating (s : State) (rd wr : Bool) (align : Nat) (va : Dword) : Except TClass Xl :=
  match s.xl rd wr align va with
  | .error e => .error e
  | .ok x => if s.fixed && !s.homedOn s.me.stack x.pa then .error .fixed else .ok x

/-- An operand in the vault tile above the issuing core (R297). -/
def State.xlTile (s : State) (rd wr : Bool) (align : Nat) (va : Dword) : Except TClass Xl :=
  match s.xl rd wr align va with
  | .error e => .error e
  | .ok x =>
    if s.homedOn s.me.stack x.pa && isVault x.pa && tileOfPa x.pa == s.me.core then .ok x else .error .home

/-- An operand in the vault of the current stack (R297). -/
def State.xlVault (s : State) (rd wr : Bool) (align : Nat) (va : Dword) : Except TClass Xl :=
  match s.xl rd wr align va with
  | .error e => .error e
  | .ok x => if s.homedOn s.me.stack x.pa && isVault x.pa then .ok x else .error .home

/-- The cached entry a walk leaves (TABLE_WALK, R190): it takes the place of the page's old one. -/
def fillTlb (ts : List Tlb) (asid va : Nat) (f : Leaf) : List Tlb :=
  ⟨asid, f.level, va / 2 ^ levelLo f.level, BitVec.ofNat 64 f.entry⟩ :: ts.filter (fun t => !t.hit asid va)

/-- The table entries that a walk leaves in the translation unit, which takes the 16 latest walks (TABLE_WALK, R190; the
number is the model's, log entry 64). -/
def fillWalks (ws new : List WalkEntry) (asid va : Nat) : List WalkEntry :=
  (new ++ ws.filter fun (w : WalkEntry) => !w.at' asid w.level va).take 96

/-! ### Instruction fetch (R144, R194, R471, R472) -/

/-- A line enters an instruction cache of 4,096 lines; when it is full, the oldest line without a pin leaves it. -/
def icInsert (l : ILine) (q : List ILine) : List ILine :=
  if q.length < 4096 then l :: q
  else match q.reverse.find? fun (x : ILine) => x.pin.isNone with
    | some x => l :: q.erase x
    | none => l :: q

/-- The 16 words of a code line as one number, from the core's instruction cache or from memory, and the cache after it. -/
def fetchLine (s : State) (k c asid va : Nat) : Except TClass (Nat × State) :=
  match xlate s k c asid ⟨false, false, true, false⟩ 1 (BitVec.ofNat 64 (64 * (va / 64))) with
  | .error e => .error e
  | .ok x => match (s.core k c).icache.find? (·.line == lineOf x.pa) with
    | some l => .ok (l.data, s)
    | none =>
      if s.mem.poisoned x.pa then .error .poison
      else
        let d := s.mem.read x.pa 64
        .ok (d, s.onCore k c fun q => { q with icache := icInsert ⟨lineOf x.pa, d, none⟩ q.icache })

/-- `n` bytes of code at `va`, as a number, over the lines they lie on (R472). -/
def fetchBytes (s : State) (k c asid va n : Nat) : Except TClass (Nat × State) :=
  if 2 ^ 54 ≤ va then .error .range
  else match fetchLine s k c asid va with
    | .error e => .error e
    | .ok (d, t) =>
      let off := va % 64
      if off + n ≤ 64 then .ok (d / 2 ^ (8 * off) % 2 ^ (8 * n), t)
      else match fetchLine t k c asid (va + 64 - off) with
        | .error e => .error e
        | .ok (d2, u) => .ok ((d / 2 ^ (8 * off) + 2 ^ (8 * (64 - off)) * d2) % 2 ^ (8 * n), u)

end Sys2Proof.Machine
end

