-- ==== Sys2Proof/Machine/Report.lean ====
section
/-! DEFINITION. Machine/Report.lean: the sketchbooks, the error records on their way to the launcher, and the fatal fault of
a grid (R434, R477 to R479, R491, R492). -/

namespace Sys2Proof.Machine

/-- The sketchbook index of the next event (R491). -/
def State.skNext (s : State) (k : Nat) : Nat := (s.stk k).sketch.next

/-- An event enters the sketchbook of stack `k`, or is counted in LOST while it is frozen (R491, R492). STAMP is the router
clock of the stack (R13). -/
def State.sketch (s : State) (k evt unit asid grid : Nat) (arg : List Byte) : State :=
  let t := (s.stk k).sketch
  if t.frozen then
    s.onStk k fun q => { q with sketch := { t with lost := Nat.min (t.lost + 1) (2 ^ 20 - 1) } }
  else
    let e : SkEntry := { stamp := (s.stk k).rclock, evt := evt, unit := unit, asid := asid, grid := grid, arg := arg }
    s.onStk k fun q => { q with
      sketch := { t with ring := (t.next, e) :: t.ring.filter (·.1 != t.next), next := (t.next + 1) % 4096 } }

/-- The stack `k` sends an error record to the launcher on stack 0 (R477). UNIT of the events that are no trap and no placement is 9
(DESIGN CHOICE, log entry 88). The record names its sketchbook entry; while the
sketchbook is frozen SKB is a free value (log entry 1). SEQ is given at the launcher (R479), and enters the sketchbook entry
then (R491; DEDUCED, log entry 8). -/
def State.report (s : State) (k typ grid team asid grp cls unit : Nat) (payload : List Byte) : State :=
  let no := s.nextId
  let frozen := (s.stk k).sketch.frozen
  let skb := if frozen then (Config.freeWord s.fresh).toNat % 4096 else s.skNext k
  let t := s.sketch k 2 unit asid grid (bytesLE 8 typ ++ bytesLE 8 0)
  let r : ErrRec := { no := no, seq := none, stamp := (s.stk k).rclock, typ := typ, loc := s.locOf k, skb := skb, grid := grid, team := team, asid := asid,
                      grp := grp, cls := cls, payload := payload }
  (({ t with nextId := no + 1, md := { t.md with errq := t.md.errq ++ [r] } }).send k 0 (.record no)).draw

/-- The sketchbook entry of a record gets its SEQ, where it still stands (R491). -/
def SkEntry.named (r : ErrRec) (seq : Nat) (x : Nat × SkEntry) : Nat × SkEntry :=
  if x.1 = r.skb && x.2.evt == 2 && x.2.stamp == r.stamp && x.2.arg == bytesLE 8 r.typ ++ bytesLE 8 0 then
    (x.1, { x.2 with arg := bytesLE 8 r.typ ++ bytesLE 8 seq }) else x

/-- A record arrives at the launcher, which numbers it (R479). A grid's type 1 record comes after every record sent before it. -/
def State.recordIn (s : State) (no : Nat) : Option State := match s.md.errq.find? fun (r : ErrRec) => r.no == no with
  | none => some s
  | some r =>
    if r.typ = 1 && s.md.errq.any fun (x : ErrRec) => x.seq.isNone && x.no < no then none
    else
      let seq := s.md.seq
      let rest := s.md.errq.filter fun (x : ErrRec) => x.no != no
      let come := rest.filter fun (x : ErrRec) => x.seq.isSome
      let far := rest.filter fun (x : ErrRec) => x.seq.isNone
      let t := { s with md := { s.md with
        seq := (seq + 1) % 2 ^ 32, errq := come ++ [{ r with seq := some seq }] ++ far } }
      some (t.onStk (r.loc % 16) fun q => { q with sketch := { q.sketch with ring := q.sketch.ring.map (SkEntry.named r seq) } })

/-- A value enters a monitor (R376). -/
def Monitor.record (m : Monitor) (v : Nat) : Monitor :=
  let b := Nat.min ((v - bitsOf m.cfg.toNat 31 0) / 2 ^ bitsOf m.cfg.toNat 37 32) 15
  { m with
    minv := BitVec.ofNat 64 (Nat.min m.minv.toNat v), maxv := BitVec.ofNat 64 (Nat.max m.maxv.toNat v),
    bins := vset m.bins b (Nat.min (vget m.bins b 0 + 1) (2 ^ 32 - 1)) }

def Monitor.on (m : Monitor) (src : Nat) : Bool := m.cfg.getLsbD 63 && bitsOf m.cfg.toNat 55 48 == src

/-- An admission is recorded by the monitors of source 0 (R377): the cycles in the arrival queue, and those in the fabric, which
are a free value (log entry 1). -/
def State.monitorEvent (s : State) (k cameAt : Nat) : State :=
  let v := (Config.freeWord s.fresh).toNat + ((s.stk k).clock - cameAt)
  (s.onStk k fun q => { q with monitors := q.monitors.map fun (m : Monitor) => if m.on 0 then m.record v else m }).draw

/-- The stacks where a grid has teams. -/
def State.gridStacks (s : State) (grid : Nat) : List Nat :=
  (List.range 16).filter fun k => s.teams.any fun t => t.grid == grid && t.base == k && t.st != .ended

/-- The grid of a split, through its group. -/
def State.inGrid (s : State) (grid : Nat) (w : Split) : Bool := (s.group? w.group).any fun (x : Group) => x.grid == grid

/-- The other modules of a grid learn of its fatal fault (R434): those of its ranks, and those where a split of it is. -/
def State.abortOthers (s : State) (g : Grid) : State :=
  let away := (s.allSplits.filter fun (w : Split) => s.inGrid g.id w && 16 ≤ w.stack).map fun w => (w.stack - 16) / 16
  ((g.rankMods ++ away).eraseDups.filter fun m => m != s.modno).foldl
    (fun (t : State) m => t.send 0 (16 + 16 * m) (.abortShare g.id)) s

/-- Every split of a grid stops (R434). -/
def State.killGrid (s : State) (grid : Nat) : State :=
  let kill (w : Split) : Split := { w with pend := { w.pend with kill := true } }
  { s with
    me := if s.gr.grid = grid then kill s.me else s.me,
    splits := s.splits.map fun (w : Split) => if s.inGrid grid w then kill w else w }

/-- A grid's share of this module stops: its splits, and the sketchbooks of its stacks (R434, R492). -/
def State.stopShare (s : State) (grid : Nat) : State :=
  let t := (s.onGrid grid fun g => { g with aborted := true }).killGrid grid
  (s.gridStacks grid).foldl (fun x k => x.onStk k fun q => { q with sketch := { q.sketch with frozen := true } }) t

/-- A fatal fault of a grid (R434): its splits stop, its type 1 record is sent, and the sketchbooks of its stacks freeze
(R492). The rest follows as its instructions, posts and copies complete. A grid is aborted once. That of a grid with no teams
here, which a split of it has met, goes to its own module. -/
def State.abort (s : State) (grid reason cls detail team grp : Nat) : State :=
  let said (t : State) (asid : Nat) : State :=
    t.report 0 1 grid team asid grp cls 9 [BitVec.ofNat 8 reason, BitVec.ofNat 8 cls, BitVec.ofNat 8 detail]
  match s.grid? grid with
  | none => match s.allGroups.find? fun (g : Group) => g.grid == grid && 16 ≤ g.base with
    | none => s
    | some g =>
      if (s.allSplits.any fun (w : Split) => s.inGrid grid w && w.pend.kill) then s
      else (said (s.killGrid grid) g.asid).send 0 (g.base - g.base % 16) (.abortShare grid)
  | some g => if g.aborted then s else (said (s.stopShare grid) g.asid).abortOthers g

end Sys2Proof.Machine
end

