-- ==== Sys2Proof/Machine/Context.lean ====
section
/-! DEFINITION. Machine/Context.lean: the call and split stack (R29 to R32), the context image (R35 to R37, R146, R147,
R413), and the layouts of the save area (R22, R314, R315, R331, R387 to R390). -/

namespace Sys2Proof.Machine

/-! ### Entries (R29, R30) -/

def Entry.kind (e : Entry) : Nat := bitsOf e.word0.toNat 59 58
def Entry.fsz (e : Entry) : Nat := bitsOf e.word0.toNat 57 52 + 1
def Entry.ret (e : Entry) : Dword := BitVec.ofNat 64 (4 * bitsOf e.word0.toNat 51 0)
def Entry.dmask (e : Entry) : Mask := BitVec.ofNat 32 e.word0.toNat
def Entry.stage (e : Entry) : Bool := e.word0.getLsbD 57
def Entry.lanes (e : Entry) : Mask := BitVec.ofNat 32 e.word1.toNat
def Entry.rpc (e : Entry) : Dword := e.ret
def Entry.toff (e : Entry) : Int := sextOf (e.word1.toNat / 2 ^ 32) 32

def callEntry (owner : BitVec 4) (f : Nat) (ret live : Dword) : Entry :=
  { owner := owner, word0 := BitVec.ofNat 64 (2 ^ 58 + 2 ^ 52 * (f - 1) + bitsOf ret.toNat 53 2), word1 := live }
def reconvEntry (owner : BitVec 4) (parent child : Nat) (dmask : Mask) (pal : Dword) : Entry :=
  { owner := owner, word0 := BitVec.ofNat 64 (2 ^ 59 + 2 ^ 56 * parent + 2 ^ 54 * child + dmask.toNat), word1 := pal }
def maskedEntry (owner : BitVec 4) (stage : Bool) (rpc : Dword) (toff : Int) (lanes : Mask) : Entry :=
  { owner := owner, word0 := BitVec.ofNat 64 (2 ^ 58 + 2 ^ 59 + (if stage then 2 ^ 57 else 0) + bitsOf rpc.toNat 53 2),
    word1 := BitVec.ofNat 64 (2 ^ 32 * modTwo toff 32 + lanes.toNat) }

def ownBit (n : Nat) : BitVec 4 := 1#4 <<< n
/-- An entry read from memory, with its reserved bits clear and OWNER the own bit (R4, R145). -/
def Entry.filled (e : Entry) (n : Nat) : Entry :=
  let w := e.word0.toNat
  { owner := ownBit n, word1 := e.word1,
    word0 := BitVec.ofNat 64 (match e.kind with
      | 1 => w % 2 ^ 60
      | 2 => bitsOf w 59 54 * 2 ^ 54 + bitsOf w 31 0
      | _ => bitsOf w 59 57 * 2 ^ 57 + bitsOf w 51 0) }

def Entry.owned (e : Entry) (n : Nat) : Bool := e.owner.getLsbD n
def Entry.drop (e : Entry) (n : Nat) : Entry := { e with owner := e.owner &&& ~~~ ownBit n }
/-- Equal words other than OWNER (R29). -/
def Entry.same (a b : Entry) : Bool := a.word0 == b.word0 && a.word1 == b.word1

/-- The entries the split in focus owns, oldest first. -/
def State.own (s : State) : List Entry := s.win.entries.filter fun (e : Entry) => e.owned s.me.num
/-- The split's newest call entry and the entries newer than it, newest first. -/
def splitAtCall : List Entry → List Entry × Option Entry
  | [] => ([], none)
  | e :: es => if e.kind = 1 then ([], some e) else let r := splitAtCall es; (e :: r.1, r.2)
/-- Whether the split owns an unresolved masked entry (R32). -/
def ownsMasked (es : List Entry) : Bool := es.any fun (e : Entry) => e.kind == 3
/-- The call entries of an owned list, which give the call depth (R32): their words in age order. Two splits that have pushed equal
words apart, in the same order, are at the same depth (DESIGN CHOICE, log entry 79). -/
def callsOf (es : List Entry) : List (Dword × Dword) :=
  (es.filter fun (e : Entry) => e.kind == 1).map fun (e : Entry) => (e.word0, e.word1)

def State.setEntries (s : State) (es : List Entry) : State := { s with win := { s.win with entries := es } }
/-- The numbers of the splits that reside in a group slot, as an owner mask. -/
def State.residentsOf (s : State) (q : GroupSlot) : BitVec 4 :=
  (s.allSplits.filter fun (w : Split) => w.resident && w.home q).foldl (fun (m : BitVec 4) (w : Split) => m ||| ownBit w.num) 0#4
/-- Those in the slot in focus. -/
def State.residents (s : State) : BitVec 4 := s.residentsOf s.win
/-- Copies that no split of `res`, resident in the slot, owns are freed (R29). -/
def freeUnowned (res : BitVec 4) (es : List Entry) : List Entry := es.filter fun (e : Entry) => e.owner &&& res != 0#4
/-- The split `n` gives up every entry. -/
def disown (res : BitVec 4) (es : List Entry) (n : Nat) : List Entry :=
  freeUnowned res (es.map fun (e : Entry) => if e.owned n then e.drop n else e)
/-- The split `n` leaves the slot with its entries: its bit stays, without effect, in the copies that remain (R29). -/
def leaveEntries (res : BitVec 4) (es : List Entry) (n : Nat) : List Entry := freeUnowned (res &&& ~~~ ownBit n) es

/-- A new entry at the young end. -/
def State.push (s : State) (e : Entry) : State := s.setEntries (s.win.entries ++ [e])

/-- The owner mask of a copy that the split `n` brings to a slot: the bits of `res`, who reside there, as `own` gives them,
those of splits elsewhere as the copy carries them, and the split's own (R29). -/
def copyOwner (n : Nat) (res own carried : BitVec 4) : BitVec 4 := (own &&& res) ||| (carried &&& ~~~ res) ||| ownBit n

/-- The carried entries of a split that enters a slot where the splits `res` reside, in age order: each copy that the slot
holds, in the same order, becomes one with the carried one, and the others are inserted (R29). -/
def mergeCopies (n : Nat) (res : BitVec 4) : List Entry → List Entry → List Entry
  | slot, [] => slot.map fun (e : Entry) => e.drop n
  | [], c :: cs => { c with owner := copyOwner n res 0#4 c.owner } :: mergeCopies n res [] cs
  | e :: es, c :: cs =>
    if e.same c then { e with owner := copyOwner n res e.owner c.owner } :: mergeCopies n res es cs
    else if es.any (fun (x : Entry) => x.same c) then e.drop n :: mergeCopies n res es (c :: cs)
    else { c with owner := copyOwner n res 0#4 c.owner } :: mergeCopies n res (e :: es) cs

/-! ### Masked execution (R47) -/

/-- One masked step on the split's entries, newest first: the mask of running lanes, the PC and the entries after it. -/
def maskStepOf (n : Nat) (act : Mask) (pc : Dword) : List Entry → Option (Mask × Dword × List Entry)
  | [] => none
  | e :: es =>
    if e.owned n = false then (maskStepOf n act pc es).map fun r => (r.1, r.2.1, e :: r.2.2)
    else if e.kind = 3 then
      if e.stage then some (act ||| e.lanes, e.rpc, es)
      else some (e.lanes, e.rpc + BitVec.ofInt 64 e.toff, maskedEntry e.owner true e.rpc e.toff act :: es)
    else none

/-- The masked step of a split whose running lanes have all exited, on its newest masked entry (R52). -/
def maskExitOf (n : Nat) : List Entry → Option (Mask × Dword × List Entry)
  | [] => none
  | e :: es =>
    if e.owned n && e.kind == 3 then maskStepOf n 0#32 0#64 (e :: es)
    else (maskExitOf n es).map fun r => (r.1, r.2.1, e :: r.2.2)

/-- The steps of R52 for a split whose running lanes have all exited, until lanes run again: none when no masked entry of
the split has any, so that the split ends. -/
def exitOnward (n : Nat) (es : List Entry) : Nat → Option (Mask × Dword × List Entry)
  | 0 => none
  | k + 1 => match maskExitOf n es with
    | none => none
    | some r => if r.1 = 0#32 then exitOnward n r.2.2 k else some r


/-- The reconvergence address of the split's newest entry, when that is a masked entry. -/
def maskedRpc (es : List Entry) : Option Dword := match es.getLast? with
  | some e => if e.kind = 3 then some e.rpc else none
  | none => none

/-- A masked step (R47). -/
def State.maskedStep (s : State) : State :=
  match maskStepOf s.me.num s.me.act s.me.pc s.win.entries.reverse with
  | none => s
  | some (act, pc, es) => ({ s with me := { s.me with act := act, pc := pc } }).setEntries es.reverse

/-- Masked steps for as long as the next PC is the reconvergence address of the split's newest entry. Each takes an entry
one stage further, so `n` bounds them. -/
def State.settleMask (s : State) : Nat → State
  | 0 => s
  | n + 1 => if maskedRpc s.own = some s.me.pc then (s.maskedStep).settleMask n else s

/-! ### Runs (R67, R68, R115, R406, R424) -/

/-- Whether the next PC and mask of the split in focus differ from its shadow's at the `n`-th run end of its pipe (R450, log
entry 18). -/
def State.runDiffers (s : State) (n : Nat) : Bool :=
  s.me.red && (s.me.pc ^^^ Config.shadowPc s.me.id n != s.me.pc || s.me.act ^^^ Config.shadowAct s.me.id n != s.me.act)

/-- The run in progress ends: the pipe is free, its count of run ends rises, a check point of R48 has come, an armed slice
counts (R406), and a redundant pair is compared (R450). -/
def State.endRun (s : State) : State :=
  if s.me.inRun = false then s
  else
    let armed := s.me.slice
    let t := s.onPipe s.me.stack s.me.core s.myPipe fun p => { p with run := none, ends := p.ends + 1 }
    { t with
      me := { t.me with inRun := false, runLen := 0, wasReady := false, slice := armed - 1,
                        pend := { t.me.pend with
                          slice := t.me.pend.slice || armed == 1,
                          redund := t.me.pend.redund || s.runDiffers (s.pipe s.me.stack s.me.core s.myPipe).ends } },
      win := { t.win with check := true } }

/-- The next PC is set: masked steps are taken, and the run ends where it must. A masked step that leaves the address
order of the run ends it (log entry 9). -/
def State.settled (s : State) (ends : Bool) : State :=
  let t := s.settleMask 64
  if ends || t.me.pc != s.me.pc then t.endRun else t

/-- The instruction of `n` bytes is done and the run goes on, unless it carries the end-of-run flag or is the run's 24th. -/
def State.retire (s : State) (h : Hd) (n : Nat) : State :=
  let t := { s with me := { s.me with pc := s.me.pc + BitVec.ofNat 64 n, runLen := s.me.runLen + 1 } }
  t.settled (h.e || 24 ≤ t.me.runLen)

/-- The instruction is done and ends its run; the next run starts at `pc`. -/
def State.finish (s : State) (pc : Dword) : State := ({ s with me := { s.me with pc := pc } }).settled true

/-- An instruction that takes no effect under R114. -/
def State.skip (s : State) (h : Hd) (n : Nat) : Out := .next (s.retire h n)

/-- The split waits, and then does `k`. The run is held by the waiting instruction (R430). -/
def State.waitFor (s : State) (steps : List WaitStep) (k : Cont) : State :=
  { s with me := { s.me with status := .wait steps k } }

/-! ### Frames of a split -/

/-- Bits below a frame's size. -/
def onesBelow (n : Nat) : Dword := BitVec.ofNat 64 (2 ^ n - 1)

/-- Window base, size and live mask of each carried frame, the current one first: a call entry's caller lies below (R27). -/
def framesOf (wbase size : Nat) (live : Dword) : List Entry → List (Nat × Nat × Dword)
  | [] => [(wbase, size, live)]
  | e :: es =>
    if e.kind = 1 then (wbase, size, live) :: framesOf (wbase - e.fsz) e.fsz e.word1 es else framesOf wbase size live es

/-- The physical registers a context carries, oldest frame first (R37); `live` is the mask of the current frame. -/
def State.carried (s : State) (live : Dword) : List Nat :=
  let fs := (framesOf s.me.wbase s.me.frame live s.own.reverse).reverse
  (fs.map fun f => ((List.range (Nat.min f.2.1 64)).filter fun i => f.2.2.getLsbD i).map fun i => f.1 + i).flatten

/-! ### The context image (R35 to R37) -/

def Entry.bytes (e : Entry) : List Byte := bytesLE 8 (e.word0.toNat + 2 ^ 60 * e.owner.toNat) ++ bytesLE 8 e.word1.toNat

/-- An entry as an image stores it when every register is live (R146). -/
def Entry.allLive (e : Entry) : Entry := if e.kind = 1 then { e with word1 := onesBelow e.fsz } else e

def zeros (n : Nat) : List Byte := List.replicate n 0#8

/-- FLAGS [2:0] (R36). -/
def Split.flagBits (w : Split) : Nat :=
  (if w.chktok then 1 else 0) + (if w.red then 2 else 0) + (if w.gstop then 4 else 0)

/-- The fixed part that `ctxsv`, a trap frame and a save record hold (R146, R388): `pc`, every token 0, and `clear` stored
as 0. -/
def State.imageFixed (s : State) (pc : Dword) (clear : SReg) : List Byte :=
  let w := s.me
  let own := s.own
  let sv (n : Nat) : Nat := if n = clear.val then 0 else (w.s (Fin.ofNat 32 n)).toNat
  bytesLE 8 pc.toNat ++ bytesLE 4 w.act.toNat ++ bytesLE 1 (w.num + 4 * w.rdue) ++ bytesLE 1 w.wbase ++ bytesLE 1 w.frame
    ++ bytesLE 1 own.length ++ bytesLE 8 (onesBelow w.frame).toNat ++ bytesLE 8 0 ++ bytesLE 4 s.gr.grp
    ++ bytesLE 4 s.gr.team ++ bytesLE 4 s.gr.grid ++ bytesLE 2 w.asid ++ bytesLE 2 (s.locOf s.gr.base)
    ++ bytesLE 2 w.postloc.toNat ++ bytesLE 2 w.flagBits ++ bytesLE 4 w.exited.toNat ++ bytesLE 8 w.postmod.toNat
    ++ ((List.range 32).map fun n => bytesLE 8 (sv n)).flatten
    ++ ((List.range 8).map fun n => bytesLE 4 (w.p (Fin.ofNat 8 n)).toNat).flatten
    ++ zeros 8 ++ bytesLE 8 w.pal.toNat ++ bytesLE 8 w.rlo.toNat ++ bytesLE 8 w.rhi.toNat
    ++ ((List.range 32).map fun l => bytesLE 4 (lane w.seeds l).toNat).flatten
    ++ (own.map fun (e : Entry) => e.allLive.bytes).flatten ++ zeros (512 - 16 * own.length)

/-- A register's 128 bytes (R37). -/
def regBytes (x : Lanes) : List Byte := ((List.range 32).map fun l => bytesLE 4 (lane x l).toNat).flatten

/-- The registers below the window's end: those of every frame (R388). -/
def State.imageRegs (s : State) : List Byte :=
  ((List.range (s.me.wbase + s.me.frame)).map fun r => regBytes (vget s.win.regs r (Vector.replicate 32 0#32))).flatten

/-- What `ctxld` and `rft` read back. -/
structure Image where
  pc : Dword
  act : Mask
  splitno : Nat
  wbase : Nat
  frame : Nat
  depth : Nat
  live : Dword
  accpa : Nat
  grp : Nat
  team : Nat
  grid : Nat
  asid : Nat
  base : Nat
  postloc : BitVec 16
  flags : Nat
  exited : Mask
  postmod : BitVec 64
  sregs : Vector Dword 32
  preds : Vector Mask 8
  toks : List Nat
  pal : Dword
  rlo : Dword
  rhi : Dword
  seeds : Lanes
  entries : List Entry
  deriving DecidableEq, Repr

def readImage (m : Memory) (pa : Nat) : Image :=
  let n (off sz : Nat) : Nat := m.read (pa + off) sz
  let depth := n 0x0F 1
  { pc := BitVec.ofNat 64 (n 0 8), act := BitVec.ofNat 32 (n 8 4), splitno := n 0xC 1, wbase := n 0xD 1, frame := n 0xE 1,
    depth := depth, live := BitVec.ofNat 64 (n 0x10 8), accpa := n 0x18 8, grp := n 0x20 4, team := n 0x24 4, grid := n 0x28 4, asid := n 0x2C 2,
    base := n 0x2E 2, postloc := BitVec.ofNat 16 (n 0x30 2), flags := n 0x32 2, exited := BitVec.ofNat 32 (n 0x34 4),
    postmod := BitVec.ofNat 64 (n 0x38 8), sregs := Vector.ofFn fun i : Fin 32 => BitVec.ofNat 64 (n (0x40 + 8 * i.val) 8),
    preds := Vector.ofFn fun i : Fin 8 => BitVec.ofNat 32 (n (0x140 + 4 * i.val) 4),
    toks := (List.range 8).map fun k => n (0x160 + k) 1, pal := BitVec.ofNat 64 (n 0x168 8),
    rlo := BitVec.ofNat 64 (n 0x170 8), rhi := BitVec.ofNat 64 (n 0x178 8),
    seeds := Vector.ofFn fun i : Fin 32 => BitVec.ofNat 32 (n (0x180 + 4 * i.val) 4),
    entries := (List.range (Nat.min depth 32)).map fun i =>
      let w0 := n (0x200 + 16 * i) 8
      { owner := BitVec.ofNat 4 (w0 / 2 ^ 60), word0 := BitVec.ofNat 64 (w0 % 2 ^ 60),
        word1 := BitVec.ofNat 64 (n (0x208 + 16 * i) 8) } }

/-- The checks of R413, other than the room for the entries: GRP, TEAM, GRID and ASID are the split's own, the window and
the entries are in bounds, and what R35 and R36 give as zero is zero. -/
def State.imageOk (s : State) (i : Image) : Bool :=
  i.grp == s.gr.grp && i.team == s.gr.team && i.grid == s.gr.grid && i.asid == s.me.asid
    && i.frame != 0 && i.frame ≤ 64 && i.wbase + i.frame ≤ 64 && i.depth ≤ 32
    && i.entries.all (fun (e : Entry) => e.kind != 0)
    && i.toks.all (fun t => t < 32) && i.accpa < 2 ^ 48 && i.base < 1024 && i.flags < 16

/-- The entries other splits own, with the image's, fit the slot (R413). -/
def State.imageRoom (s : State) (i : Image) : Bool :=
  (disown s.residents s.win.entries s.me.num).length + i.entries.length ≤ 32

/-- Every register below the window's end: those of an image whose masks are all ones. -/
def Image.allRegs (i : Image) : List Nat := List.range (i.wbase + i.frame)

/-- The physical registers that an image holds, in their order: those of the live masks (R35, R37). -/
def Image.regs (i : Image) : List Nat :=
  let fs := (framesOf i.wbase i.frame i.live i.entries.reverse).reverse
  if fs.all fun f => f.2.2 &&& onesBelow f.2.1 == onesBelow f.2.1 then i.allRegs
  else (fs.map fun f => ((List.range (Nat.min f.2.1 64)).filter fun j => f.2.2.getLsbD j).map fun j => f.1 + j).flatten

/-- The split's state replaced by an image at `pa` of `m` that holds the registers `regs` (R147, R396). They go to the lanes of `lanes`;
every token is left as it is. -/
def State.restore (s : State) (m : Memory) (i : Image) (pa : Nat) (lanes : Mask) (regs : List Nat) : State :=
  let n := s.me.num
  let kept := disown s.residents s.win.entries n
  let es := i.entries.map fun (e : Entry) => e.filled n
  let t := { s with
    me := { s.me with
      pc := i.pc, act := i.act, exited := i.exited, sregs := i.sregs, preds := i.preds, pal := i.pal, rlo := i.rlo,
      rhi := i.rhi, rdue := i.splitno / 4, seeds := i.seeds, wbase := i.wbase, frame := i.frame,
      postloc := s.me.postloc ||| i.postloc, postmod := s.me.postmod ||| i.postmod },
    win := { s.win with entries := kept ++ es } }
  (regs.mapIdx fun n r => (n, r)).foldl (fun u x =>
    u.applyWr (.v x.2 lanes (lanesOf fun l => BitVec.ofNat 32 (m.read (pa + 0x400 + 128 * x.1 + 4 * l) 4)))) t

/-- The lanes whose registers a restored split needs: its own and the deferred ones of its masked entries (R445). -/
def Image.lanes (i : Image) : Mask :=
  i.entries.foldl (fun (m : Mask) (e : Entry) => if e.kind = 3 then m ||| e.lanes else m) i.act

/-! ### The split table (R22) -/

def TabEntry.dword (s : State) (t : TabEntry) : Nat :=
  if t.valid then
    2 ^ 32 * t.mask.toNat + 2 ^ 22 * s.locOf t.loc + 2 ^ 19 * t.core + 2 ^ 16 * t.join + 2 ^ 15 + 2 ^ 12 * t.state
  else 0

/-! ### The swatch state in memory (R314, R315, R331) -/

def SwRow.word (r : SwRow) : Nat :=
  (if r.val then 2 ^ 15 else 0) + (if r.rep then 2 ^ 14 else 0) + 2 ^ 9 * r.bkt + r.rpr

def swTab (w : Swatch) : List Byte :=
  (w.rows.toList.map fun (r : SwRow) => bytesLE 2 r.word).flatten
    ++ (w.buckets.toList.map fun b => bytesLE 4 (2 ^ 16 * b.1 + b.2)).flatten
    ++ bytesLE 1 w.nb ++ bytesLE 1 (if w.tv then 1 else 0) ++ bytesLE 1 w.rule.code ++ bytesLE 1 w.p ++ bytesLE 1 w.w
    ++ zeros 3 ++ bytesLE 8 w.pset.toNat ++ zeros 48

def swSig (w : Swatch) : List Byte :=
  (w.sig.toList.map fun r => (r.toList.map fun x => bytesLE 4 x.toNat).flatten).flatten

/-- The swatch state that the two layouts hold. -/
def readSwatch (m : Memory) (tab sig : Nat) : Swatch :=
  { pset := BitVec.ofNat 64 (m.read (tab + 0xC8) 8), p := m.read (tab + 0xC3) 1, w := m.read (tab + 0xC4) 1,
    rule := match m.read (tab + 0xC2) 1 with | 1 => .mean | 2 => .maxn | _ => .first,
    sig := Vector.ofFn fun i : Fin 32 => Vector.ofFn fun p : Fin 16 =>
      BitVec.ofNat 32 (m.read (sig + 64 * i.val + 4 * p.val) 4),
    tv := m.read (tab + 0xC1) 1 % 2 == 1, nb := m.read (tab + 0xC0) 1,
    rows := Vector.ofFn fun i : Fin 32 =>
      let x := m.read (tab + 2 * i.val) 2
      { val := x.testBit 15, rep := x.testBit 14, bkt := bitsOf x 13 9, rpr := x % 32 },
    buckets := Vector.ofFn fun i : Fin 32 =>
      let x := m.read (tab + 0x40 + 4 * i.val) 4
      (x / 2 ^ 16, x % 64) }

def tileBytes (t : Tile) : List Byte := (t.rows.toList.map fun r => (r.toList.map fun x => bytesLE 4 x.toNat).flatten).flatten

def readTile (m : Memory) (pa : Nat) (flag : Bool) : Tile :=
  { rows := Vector.ofFn fun i : Fin 32 => Vector.ofFn fun j : Fin 64 =>
      BitVec.ofNat 32 (m.read (pa + 256 * i.val + 4 * j.val) 4), flag := flag }

/-! ### Replay entries (R389, R390) -/

def Op.bytes (o : Op) : List Byte :=
  ((frameWords o.instr).map fun w => bytesLE 4 w.toNat).flatten.take 20 ++ zeros (20 - 4 * (frameWords o.instr).length)
    ++ zeros 4 ++ bytesLE 8 o.ipc.toNat ++ bytesLE 1 (match o.tok with | some k => k.val | none => 0) ++ bytesLE 1 o.wb
    ++ bytesLE 1 ((if o.leg then 1 else 0) + (if o.clm then 2 else 0)) ++ zeros 1 ++ bytesLE 4 o.act.toNat
    ++ bytesLE 8 o.cidx.toNat ++ zeros 16 ++ ((List.range 8).map fun i => bytesLE 8 (o.scap.getD i 0#64).toNat).flatten
    ++ o.stat.toList ++ zeros 96 ++ (o.addr.toList.map fun a => bytesLE 8 a.toNat).flatten
    ++ (o.data.toList.map fun a => bytesLE 16 a.toNat).flatten

def statPending : Byte := 0x80#8
def statDone : Byte := 0x40#8
def statFault (c : TClass) : Byte := BitVec.ofNat 8 (0xC0 + tclassCode c)
/-- STATE of a status byte (R390). -/
def stateOf (b : Byte) : Nat := b.toNat / 64

def Op.stateAt (o : Op) (l : Nat) : Nat := stateOf (vget o.stat l 0#8)
/-- Lanes at a STATE. -/
def Op.lanesAt (o : Op) (st : Nat) : Mask := Mask.where' fun l => o.stateAt l == st
def Op.setStat (o : Op) (l : Nat) (b : Byte) : Op := { o with stat := vset o.stat l b }
/-- Whether the entry holds a lane at STATE 3. -/
def Op.faulted (o : Op) : Bool := o.lanesAt 3 != 0#32

end Sys2Proof.Machine
end

