-- ==== Sys2Proof/Machine/Home.lean ====
section
/-! DEFINITION. Machine/Home.lean: what is performed at a home (R72, R193, R202, R216, R218, R360, R466 to R469). -/

namespace Sys2Proof.Machine

/-- Every split, the one in focus included, changed by `f`. -/
def State.mapSplits (s : State) (f : Split → Split) : State := { s with me := f s.me, splits := s.splits.map f }

/-- A split parked on `line` becomes ready; its next run starts at its PC (R72). -/
def wakeLine (line : Nat) (w : Split) : Split :=
  if w.status = .parked line then { w with status := .run, wasReady := false, spin := .none } else w

/-- Whether `n` bytes from `pa` share a byte with the 8-byte granule. -/
def onGranule (pa n granule : Nat) : Bool := pa / 8 ≤ granule && granule ≤ (pa + n - 1) / 8

/-- What a write brings about beside its bytes: reservations of its granules are lost (R216), and splits parked on its
lines wake (R72). -/
def State.written (s : State) (pa n : Nat) : State :=
  let t := s.onStk (homeStack pa) fun q => { q with resv := q.resv.filter fun (r : Resv) => !onGranule pa n r.granule }
  (List.range (ceilDiv (pa % 64 + n) 64)).foldl (fun u i => u.mapSplits (wakeLine (lineOf pa + i))) t

/-- A write by another agent than the holder waits for the holdoff of a granule (R218). -/
def State.heldOff (s : State) (pa n : Nat) (w : Option Nat) : Bool :=
  (s.stk (homeStack pa)).resv.any fun (r : Resv) => r.hold && onGranule pa n r.granule && some r.split != w

/-- Whether the host caches a line of `n` bytes from `pa` up, so that a write of them waits (R360). -/
def State.hostHolds (s : State) (pa n : Nat) : Bool :=
  (s.stk (homeStack pa)).held.any fun h => lineOf pa ≤ h.1 && h.1 ≤ lineOf (pa + n - 1)

/-- A device write, or a read of a line that the host may have modified, waits for the host's answer to a back-invalidate
snoop (R360). -/
def State.hostWaits (s : State) (pa : Nat) (wr : Bool) : Bool :=
  (s.stk (homeStack pa)).held.any fun h => h.1 == lineOf pa && (wr || h.2)

/-- Bytes of one line written at their home; none where poison of the line refuses them (R469). -/
def State.writeHome (s : State) (pa : Nat) (bs : List Byte) (pois tag : Nat) : Option State :=
  let t := s.written pa bs.length
  if s.mem.poisoned pa then
    if bs.length = 64 then some { t with mem := (s.mem.write pa bs tag).clearPoison (lineOf pa) }
    else if pois = 1 then
      some { t with mem := ((s.mem.writeBytes (64 * lineOf pa) (zeros 64)).write pa bs tag).clearPoison (lineOf pa) }
    else none
  else some { t with mem := s.mem.write pa bs tag }

/-- `n` bytes of one line read at their home; none for poison under policy 0, zeros under policy 1 (R468). -/
def State.readHome (s : State) (pa n pois : Nat) : Option Nat :=
  if s.mem.poisoned pa then (if pois = 1 then some 0 else none) else some (s.mem.read pa n)

/-- Whole lines written: any poison of them is cleared (R469). -/
def Memory.writeLines (m : Memory) (pa : Nat) (bs : List Byte) (tag : Nat) : Memory :=
  let n := m.write pa bs tag
  { n with poison := n.poison.filter fun l => !(lineOf pa ≤ l && l < lineOf pa + ceilDiv bs.length 64) }

/-- Whole lines written at their home, with what a write brings about. -/
def State.putLines (s : State) (pa : Nat) (bs : List Byte) (tag : Nat) : State :=
  if bs.isEmpty then s else { s.written pa bs.length with mem := s.mem.writeLines pa bs tag }

/-- A read of a line under its leaf's policy: a poisoned line read as zero is logged (R187, R468; log entry 33). -/
def State.logPois (s : State) (pa pois : Nat) : State :=
  if s.mem.poisoned pa && pois == 1 then s.onStk (homeStack pa) fun q => { q with poisLog := lineOf pa :: q.poisLog } else s

/-- Stack `k` does something for a grid, which has from then on a count of energy there (R375). -/
def State.meets (s : State) (k : Nat) : Option Nat → State
  | none => s
  | some g => if (s.stk k).energy.any fun e => e.1 == g then s else s.onStk k fun q => { q with energy := q.energy ++ [(g, 0)] }

end Sys2Proof.Machine
end

