-- ==== Sys2Proof/Machine/Trap.lean ====
section
/-! DEFINITION. Machine/Trap.lean: taking an exception (R382 to R395), stopping a group without a handler (R431), and the
save records (R399). -/

namespace Sys2Proof.Machine

/-! ### The captured instructions (R391) -/

/-- Whether a frame captures an outstanding instruction; the others complete before it is written (R391). -/
def captured : Instr → Bool
  | .ld _ _ _ _ _ _ _ | .st _ _ _ _ _ _ _ | .ldg _ _ _ _ _ _ _ _ | .stg _ _ _ _ _ _ _ _ | .atg _ _ _ _ _ _ _ _ _ _
  | .lrg _ _ _ _ _ _ _ | .scg _ _ _ _ _ _ _ _ | .ldz _ _ _ _ _ _ _ _ | .stz _ _ _ _ _ _ _ _ _ | .cpkt _ _ _ _ _ _
  | .binit _ _ _ _ _ | .bexp _ _ _ _ _ _ | .barv _ _ _ _ _ | .bobs _ _ _ _ _ _ _ | .mmab _ _ _ _ _ _ _ => true
  | _ => false

/-- Whether an instruction acts once for the split: its status is lane 0's byte (R390). -/
def actsOnce : Instr → Bool
  | .ld _ _ .scal _ _ _ _ | .st _ _ .scal _ _ _ _ | .ldg _ _ .scal _ _ _ _ _ | .stg _ _ .scal _ _ _ _ _
  | .ldz _ _ _ _ _ _ _ _ | .stz _ _ _ _ _ _ _ _ _ | .cpkt _ _ _ _ _ _ | .binit _ _ _ _ _ | .bexp _ _ _ _ _ _
  | .barv _ _ _ _ _ | .bobs _ _ _ _ _ _ _ | .mmab _ _ _ _ _ _ _ => true
  | _ => false

/-- Whether the access of an instruction writes or may write memory: DETAIL [0] of the deferred classes (R394), and the
instructions whose faulting lane suppresses the others (R391, R392). -/
def mayWrite : Instr → Bool
  | .st _ _ _ _ _ _ _ | .stg _ _ _ _ _ _ _ _ | .atg _ _ _ _ _ _ _ _ _ _ | .scg _ _ _ _ _ _ _ _ | .stp _ _ _ _ _
  | .atp _ _ _ _ _ _ _ | .stz _ _ _ _ _ _ _ _ _ | .cpkt _ _ _ _ _ _ | .binit _ _ _ _ _ | .bexp _ _ _ _ _ _
  | .barv _ _ _ _ _ | .drq _ _ _ _ _ _ _ _ _ | .drf _ _ _ _ _ _ _ _ _ | .swm _ _ _ _ | .stkspill _ _ _ _ _
  | .ctxsv _ _ _ _ => true
  | _ => false

/-- What a redundant pair compares before it leaves the core: whatever writes memory, appends a packet or arrives (R450). -/
def compared : Instr → Bool
  | .drq _ (.regs _) _ _ _ _ _ _ _ | .drf _ (.regs _) _ _ _ _ _ _ _ | .stkspill _ _ _ _ _ | .ctxsv _ _ _ _ => false
  | i => mayWrite i

/-- The operation of an instruction on which a redundant pair differs: every lane stands at STATE 3 with CAUSE 15 (R451). -/
def Op.suspect (o : Op) : Op :=
  { o with sent := false, stat := o.stat.map fun b => if stateOf b = 2 then statFault .redund else b }

/-- The vector registers that an access fills, as first register and count, where it fills some per lane. -/
def vecDest : Instr → Option (Nat × Nat)
  | .ld _ _ .lane ty d _ _ | .ldg _ _ .lane ty d _ _ _ => some (d.val, regsOf ty.size)
  | .ld _ _ .quad _ d _ _ | .ldg _ _ .quad _ d _ _ _ => some (d.val, 4)
  | .atg _ _ _ ty _ d _ _ _ _ => some (d.val, regsOf ty.size)
  | .lrg _ _ ty d _ _ _ => some (d.val, regsOf ty.size)
  | .scg _ _ _ d _ _ _ _ => some (d.val, 1)
  | _ => none

/-- The writes of an operation for the lanes of `m` (R124, R390): per lane from the values read, or once for the split. -/
def Op.writesFor (o : Op) (m : Mask) : List Wr :=
  (match vecDest o.instr with
   | none => []
   | some (d, n) => (List.range n).map fun j =>
      .v (o.wb + d + j) m (lanesOf fun l => BitVec.ofNat 32 ((vget o.out l 0#128).toNat / 2 ^ (32 * j))))
    ++ (if actsOnce o.instr && m.has 0 || !captured o.instr then o.writes else [])

/-- The lanes that are done and whose results have not landed. -/
def Op.unlanded (o : Op) : Mask := o.lanesAt 1 &&& ~~~ o.landed

/-- A compressed form is being read or written, or an `mmab` steps beside another since a merge (R292): the operation then
runs to its end before a frame is written. -/
def Op.midway (o : Op) : Bool := match o.instr with
  | .ldz _ _ _ _ _ _ _ _ => o.blob != [] && !o.faulted
  | .stz _ _ _ _ _ _ _ _ _ => vget o.pa 2 0 != 0 && !o.faulted
  | .mmab _ _ _ _ _ _ _ => o.clm && !o.faulted
  | _ => false

/-- Every outstanding operation that a frame does not capture has completed (R391); one on which a redundant pair differs is
captured too (R451). -/
def Split.quiet (w : Split) : Bool := w.ops.all fun (o : Op) => captured o.instr && !o.midway || o.faulted

/-- Whether an operation has lanes that passed their first translation and are still to be served: its deferred trap waits
for them (R392, R456). -/
def Op.serves (o : Op) : Bool := o.sent && o.lanesAt 2 != 0#32

/-- A fault has been detected: the split issues nothing more (R383). -/
def Split.faulting (w : Split) : Bool := (w.ops.any Op.faulted || w.pend.late.isSome || w.pend.redund) && !w.pend.kill

/-- Whether a deferred fault waits to be taken (R383, R451, R456, R470). -/
def Split.mustTrap (w : Split) : Bool :=
  (w.ops.any fun (o : Op) => o.faulted && !o.serves) || w.pend.late.isSome || w.pend.redund

/-- The PC of the first instruction not yet issued (R383, R430): the context of a split between the legs of an instruction
holds that instruction's own address (R38). -/
def Split.framePc (w : Split) : Dword := match w.status with
  | .legs id | .leaving (.access id) =>
    match w.op? id with
    | some o => if o.again then w.pc else o.ipc + BitVec.ofNat 64 o.instr.bytes
    | .none => w.pc
  | _ => w.pc

/-- The trap of a deferred fault: the cause of the lowest faulting lane of the oldest entry with a fault (R394, R429), or
what waits without an entry (R451, R470). The status of an access of the split is lane 0's byte (R390): its ARG is 0
whatever its lowest active lane (DESIGN CHOICE, log entry 80). -/
def State.deferredTrap (s : State) : Trap :=
  let w := s.me
  match w.ops.find? Op.faulted with
  | some o =>
    let l := ((o.lanesAt 3).lowest).getD 0
    ⟨tclassOf ((vget o.stat l 0#8).toNat % 32), if mayWrite o.instr then 1 else 0, l, w.framePc, w.toks⟩
  | none => match w.pend.late with
    | some d => ⟨.poison, d, 0, w.framePc, w.toks⟩
    | none => ⟨.redund, 0, 0, w.framePc, w.toks⟩

/-- A trap of the issue kind at the instruction at PC (R383). -/
def State.trapHere (s : State) (c : TClass) (detail : Nat) (arg : Nat := 0) : Trap := ⟨c, detail, arg, s.me.pc, s.me.toks⟩

/-! ### The save area (R385, R387) -/

/-- The virtual address of offset `off` of the group's area in its team's save segment. -/
def State.areaVa (s : State) (off : Nat) : Dword := s.gr.seg + BitVec.ofNat 64 (0x80000 * s.gr.grp + off)

/-- The virtual address of the split's frame. -/
def State.frameVa (s : State) : Dword := s.areaVa (0x10000 * s.me.num)

/-- An access of the split to its save area: it is homed on the base stack (R385). -/
def State.xlArea (s : State) (rd wr : Bool) (va : Dword) : Except TClass Xl :=
  match xlate s s.me.stack s.me.core s.me.asid ⟨rd, wr, false, s.fixed⟩ 64 va with
  | .error c => .error c
  | .ok x => if s.homedOn s.gr.base x.pa then .ok x else .error .home

/-- Whether a write of `n` bytes of the save area has to wait, for a holdoff (R218) or for the host (R360). -/
def State.areaWaits (s : State) (va : Dword) (n : Nat) : Bool := match s.xlArea false true va with
  | .error _ => false
  | .ok x => s.heldOff x.pa n (some s.me.id) || s.hostHolds x.pa n

/-- Whether the writes of the group's tiles, flags and swatch state have to wait, in each page of theirs. -/
def State.tileWaits (s : State) : Bool :=
  s.areaWaits (s.areaVa 0x40000) 0x10000 || s.areaWaits (s.areaVa 0x50000) 0x10000 || s.areaWaits (s.areaVa 0x60000) 0x1000

/-- Whether the writes of a frame, or of the tiles of a fixed group, have to wait. -/
def State.saveWaits (s : State) : Bool :=
  s.areaWaits s.frameVa 0x10000 || s.fixed && s.tileWaits

/-- A frame may be written: nothing is left that it does not capture (R391), and its writes can be performed. -/
def State.saveReady (s : State) : Bool := s.me.quiet && !s.saveWaits

/-- Lines of the save area written. Those whose home is in another module travel there too (log entry 65). -/
def State.putArea (s : State) (pa : Nat) (bs : List Byte) : State :=
  let t := s.putLines pa bs s.me.asid
  if s.gr.base < 16 then t
  else (List.range (ceilDiv bs.length 64)).foldl (fun (u : State) i =>
    let line := (bs.drop (64 * i)).take 64
    u.send s.me.stack s.gr.base (.area s.gr.grid (pa + 64 * i) line s.me.asid)) t

/-- The 1,024 bytes before CTX (R388). -/
def State.frameHead (s : State) (kind : Nat) (tinfo : Dword) (slice : Nat) (toks : Vector Nat 8) (reps : Nat)
    (latch tiles : Bool) : List Byte :=
  bytesLE 8 tinfo.toNat ++ bytesLE 1 kind ++ bytesLE 1 reps
    ++ bytesLE 1 ((if latch then 1 else 0) + (if tiles then 2 else 0)) ++ zeros 1
    ++ bytesLE 2 (s.locOf s.me.stack) ++ zeros 2 ++ bytesLE 8 s.me.mstep.toNat ++ bytesLE 4 slice ++ zeros 4
    ++ (s.gr.table.toList.map fun (t : TabEntry) => bytesLE 8 (t.dword s)).flatten
    ++ toks.toList.map (fun n => BitVec.ofNat 8 n) ++ zeros 952

/-- A frame or save record written to the save area of the split, or the class with which an access of it fails (R440). -/
def State.putFrame (s : State) (kind : Nat) (tinfo : Dword) (pc : Dword) (slice : Nat) (toks : Vector Nat 8)
    (latch tiles : Bool) : Except TClass State :=
  match s.xlArea false true s.frameVa with
  | .error c => .error c
  | .ok x =>
    let bs := s.frameHead kind tinfo slice toks s.me.ops.length latch tiles ++ s.imageFixed pc 0 ++ s.imageRegs
    .ok ((s.putArea x.pa bs).putArea (x.pa + 0x4800) (s.me.ops.map Op.bytes).flatten)

/-- The group's tiles, saturation flags and swatch state written to its area (R387, R399). -/
def State.putTiles (s : State) : Except TClass State :=
  let put (t : Except TClass State) (off : Nat) (bs : List Byte) : Except TClass State := match t with
    | .error c => .error c
    | .ok u => match u.xlArea false true (u.areaVa off) with
      | .error c => .error c
      | .ok x => .ok (u.putArea x.pa bs)
  let tiles := (List.range s.gr.tiles.length).foldl (fun t i =>
    match s.gr.tiles[i]? with
    | none => t
    | some x => put t (0x40000 + 0x2000 * i) (tileBytes x)) (.ok s)
  let flags := (List.range s.gr.tiles.length).foldl (fun n i =>
    n + (if (s.gr.tiles[i]?).any (fun (x : Tile) => x.flag) then 2 ^ i else 0)) 0
  match put (put tiles 0x60000 (swTab s.gr.swatch)) 0x60800 (swSig s.gr.swatch) with
  | .error c => .error c
  | .ok u => match u.xlArea false true (u.areaVa 0x60100) with
    | .error c => .error c
    | .ok x => match u.writeHome x.pa (bytesLE 2 flags) x.pois u.me.asid with
      | none => .error .poison
      | some v => .ok v

/-- Whether every split that the group's table records is known here. -/
def State.allHere (s : State) (g : Group) : Bool := (List.range 4).all fun n =>
  !(vget g.table n TabEntry.free).valid || s.allSplits.any fun (w : Split) => w.group == g.id && w.num == n

/-- Whether every other split of the group is saved or replayable (R74, R432). -/
def State.lastToSave (s : State) : Bool :=
  s.allHere s.gr && (s.splits.filter fun (w : Split) => w.group == s.gr.id).all fun (w : Split) =>
    w.status == .saved || w.status == .replayable || w.status == .ended

/-- A frame or record, with the tiles and the swatch state where the split is the last of its fixed group to leave a record
(R387, R399, R432). Where it is not, they join its record if the others end without one (R437). Where an access fails,
none of the writes is made (R5, R440; DESIGN CHOICE, log entry 81). -/
def State.putRecord (s : State) (kind : Nat) (tinfo : Dword) (pc : Dword) (slice : Nat) (toks : Vector Nat 8)
    (latch tiles : Bool) : Except TClass State :=
  let w := tiles && s.lastToSave && s.fixed
  match s.putFrame kind tinfo pc slice toks latch w with
  | .error c => .error c
  | .ok u =>
    if w then u.putTiles
    else if tiles && s.fixed then .ok { u with gr := { u.gr with lastSaved := some u.me.num } } else .ok u

/-- Whether the rest of the fixed group of the split in focus has left records, the last of them without the tiles (R399, R437). -/
def State.tilesLate (s : State) (n : Nat) : Bool :=
  s.fixed && s.lastToSave && s.splits.any fun (w : Split) => w.group == s.gr.id && w.num == n

/-- Whether the end of the split in focus has to wait until those tiles can be written. -/
def State.lateWaits (s : State) : Bool := s.gr.lastSaved.any fun n =>
  s.tilesLate n && (s.tileWaits || s.areaWaits (s.areaVa (0x10000 * n)) 64)

/-- The split in focus ends: where the rest of its fixed group has left records without the tiles, they join the record of
the last of them (R399, R437). -/
def State.lateTiles (s : State) : Except TClass State := match s.gr.lastSaved with
  | none => .ok s
  | some n =>
    if !s.tilesLate n then .ok s
    else match s.putTiles with
      | .error c => .error c
      | .ok t => match t.xlArea false true (t.areaVa (0x10000 * n)) with
        | .error c => .error c
        | .ok x => match t.writeHome (x.pa + 0xA) [t.mem.byte (x.pa + 0xA) ||| 2#8] x.pois t.me.asid with
          | none => .error .poison
          | some u => .ok { u with gr := { u.gr with lastSaved := none } }

/-- When every split of every group of a team is saved or replayable, with some save or a request that stands, its slots and
tiles are freed (R74, R432). The focus is then empty. -/
def State.teamSavedAt (s : State) (grid team : Nat) : State :=
  let mine (g : Group) : Bool := g.grid == grid && g.team == team
  let ids := (s.allGroups.filter mine).map fun (g : Group) => g.id
  let ws := s.allSplits.filter fun (w : Split) => ids.contains w.group
  let asked : Bool := (s.grid? grid).any fun (g : Grid) => g.preq
  if !ws.isEmpty && ((s.allGroups.filter mine).all s.allHere) && (asked || ws.any fun (w : Split) => w.status == .saved)
      && ws.all fun (w : Split) => w.status == .saved || w.status == .replayable then
    let u := s.unfocus
    { (u.onTeam grid team fun (t : Team) => { t with st := .preempted }) with
      splits := u.splits.map fun (w : Split) => if ids.contains w.group then { w with status := .stored } else w,
      slots := u.slots.filter fun (g : GroupSlot) => !ids.contains g.group,
      groups := u.groups.map fun (g : Group) =>
        if ids.contains g.id then { g with tiles := g.tiles.map fun (_ : Tile) =>
          { rows := Vector.replicate 32 (Vector.replicate 64 0#32), flag := false } } else g }
  else s

def State.teamSaved (s : State) : State := s.teamSavedAt s.gr.grid s.gr.team

/-! ### Taking a trap -/

/-- TRAPINFO (R394). -/
def trapInfo (priv inh pendf latch : Bool) (frame : Dword) (t : Trap) : Dword :=
  BitVec.ofNat 64 ((if priv then 2 ^ 63 else 0) + (if inh then 2 ^ 62 else 0) + (if pendf then 2 ^ 61 else 0)
    + (if latch then 2 ^ 60 else 0) + 2 ^ 16 * bitsOf frame.toNat 56 16 + 2 ^ 10 * (t.arg % 64) + 2 ^ 5 * (t.detail % 32)
    + tclassCode t.cls)

/-- VEC(c), read from the system page of the current stack; a read that fails gives 0 (R384, R386, R393). -/
def State.vec (s : State) (c : TClass) : Dword :=
  match xlate s s.me.stack s.me.core s.me.asid ⟨true, false, false, false⟩ 8 (BitVec.ofNat 64 (8 * tclassCode c)) with
  | .error _ => 0#64
  | .ok x => if s.mem.poisoned x.pa then 0#64 else BitVec.ofNat 64 (s.mem.read x.pa 8)

/-- A report to the split table (R22): at once on the base stack, over the fabric from another. -/
def State.tellAs (s : State) (gid base stack core n : Nat) (mask : Option Mask) (st join : Nat) : State :=
  if stack = base then
    let f (t : TabEntry) : TabEntry :=
      { t with mask := mask.getD t.mask, loc := stack, core := core, join := join, state := st, valid := true }
    s.onGroup gid fun g => { g with table := vset g.table n (f (vget g.table n TabEntry.free)) }
  else s.send stack base (.report gid n mask stack core st join)

def State.tell (s : State) (n : Nat) (mask : Option Mask) (st : Nat) (join : Nat := 0) : State :=
  s.tellAs s.gr.id s.gr.base s.me.stack s.me.core n mask st join

/-- A split number freed in the table (R21). R22 says nothing of LOC, CORE and JOIN after it: the whole entry becomes zero (DESIGN
CHOICE, log entry 68). -/
def State.freeNumber (s : State) (gid base stack n : Nat) : State :=
  if stack = base then s.onGroup gid fun g => { g with table := vset g.table n TabEntry.free }
  else s.send stack base (.numFree gid n)

/-- Everything in flight lands: fixed-latency results, and the results of done lanes (R391). -/
def State.settle (s : State) : State :=
  let t := s.landAll
  let u := t.me.ops.foldl (fun (x : State) (o : Op) => x.applyAll (o.writesFor o.unlanded)) t
  { u with me := { u.me with ops := u.me.ops.map fun (o : Op) => { o with landed := o.landed ||| o.lanesAt 1 } } }

/-- The passes of a split leave the array queue: those of an `mmab` that has been captured (R292). -/
def dropPasses (id : Nat) (q : List FGroup) : List FGroup :=
  (q.map fun (g : FGroup) => { g with passes := g.passes.filter fun (p : Pass) => p.split != id }).filter
    fun (g : FGroup) => !g.passes.isEmpty

/-- No token and no outstanding operation is left to the split: the frame holds them. -/
def State.emptied (s : State) : State :=
  let t := s.onCore s.me.stack s.me.core fun c => { c with queue := dropPasses s.me.id c.queue }
  { t with me := { t.me with toks := Vector.replicate 8 0, ops := [] } }

/-- The fatal fault of an access of a save that failed: its class, and DETAIL [0] as for a deferred fault (R394, R440). -/
def State.saveFault (s : State) (cls : TClass) (wr : Bool) : State :=
  s.abort s.gr.grid 1 (tclassCode cls) (if wr then 1 else 0) s.gr.team s.gr.grp

/-- A split that has left its record already, or has ended, is not stopped with its group. -/
def Split.stoppable (w : Split) : Bool := match w.status with
  | .replayable | .saved | .stored | .leaving (.forced _) | .ended => false
  | _ => true

/-- Every other split of the group is stopped (R431). -/
def State.stopOthers (s : State) : State :=
  { s with splits := s.splits.map fun (w : Split) =>
      if w.group = s.gr.id && w.stoppable then { w with pend := { w.pend with stop := true } } else w }

/-- What stands for a split once it has left a record: a deferred POISON without a replay entry waits for its return (R470). -/
def Pend.left (p : Pend) : Pend :=
  { p with slice := false, stop := false, late := .none, redund := false, kept := if p.kept.isSome then p.kept else p.late }

/-- The split stays, at STATE 3, with its group replayable (R431). -/
def State.toReplayable (s : State) : State :=
  ({ s with me := { s.me with status := .replayable, pend := { s.me.pend with stop := false } } }).tell s.me.num none 3

/-- The group becomes replayable, and the base stack reports it (R431, R479 type 2). -/
def State.replayable (s : State) (cls : TClass) (frame : Dword) : State :=
  let t := s.toReplayable
  if t.gr.replayable then t.teamSaved
  else
    let u := ({ t with gr := { t.gr with replayable := true } }).stopOthers
    (u.report u.gr.base 2 u.gr.grid u.gr.team u.me.asid u.gr.grp (tclassCode cls) u.me.core (bytesLE 8 frame.toNat)).teamSaved

/-- A halt to every other split of the group, through the split table and the fabric (R404). -/
def State.haltOthers (s : State) : State :=
  (s.splits.filter fun (w : Split) => w.group == s.gr.id).foldl
    (fun (t : State) (w : Split) => t.send s.me.stack w.stack (.halt w.id)) s

/-- The trap is taken (R391 to R394): the frame is written, the tokens are zero, and the split enters its handler, or its
group becomes replayable where VEC is 0. Slice expiry and forced pre-emption that meet it act as R403 states. A frame that fails
leaves the save area as it was (R5, R440; DESIGN CHOICE, log entry 81). -/
def State.enterTrap (s0 : State) (t : Trap) : State :=
  let s := s0.settle
  let h := s.vec t.cls
  let enters := h != 0#64
  let pendf := s.me.ops.any Op.faulted
  let latch := s.me.pend.preempt
  let frame := s.frameVa
  let info := trapInfo (enters || s.me.asid == 0) enters pendf latch frame t
  let slice := if s.me.pend.slice then 1 else s.me.slice
  match s.putRecord 1 info t.pc slice t.toks latch (!enters) with
  | .error c => s.saveFault c true
  | .ok u =>
    let brk := t.cls == .brk
    let v := { u.emptied with
      me := { u.emptied.me with
        trapinfo := info, trapSet := info, trapPc := t.pc, pc := t.pc, slice := 0, resume := 0, spin := none, status := .run,
        wasReady := false,
        pend := { u.me.pend.left with stop := u.me.pend.stop, halt := u.me.pend.halt && !brk } } }
    let x := v.sketch v.me.stack 1 v.me.core v.me.asid v.gr.grid (bytesLE 8 info.toNat ++ bytesLE 8 frame.toNat)
    let y := if brk && t.detail == 0 && x.me.gstop then x.haltOthers else x
    if enters then { y with me := { y.me with inHandler := true, pc := h } }
    else y.replayable t.cls frame

/-! ### Stops and save records -/

/-- The split stops with its replayable group (R431): its frame holds CLASS 14 with DETAIL 1, and no handler is entered. -/
def State.stopNow (s0 : State) (pc : Dword) : State :=
  let s := s0.settle
  let t : Trap := ⟨.brk, 1, 0, pc, s.me.toks⟩
  let pendf := s.me.ops.any Op.faulted
  let info := trapInfo s.me.priv false pendf s.me.pend.preempt s.frameVa t
  match s.putRecord 1 info pc (if s.me.pend.slice then 1 else s.me.slice) t.toks s.me.pend.preempt true with
  | .error c => s.saveFault c true
  | .ok u => ({ u.emptied with
      me := { u.emptied.me with
        trapinfo := info, trapSet := info, trapPc := pc, pc := pc, spin := none, inHandler := false,
        pend := { u.me.pend.left with halt := false, handler := [] } } }).toReplayable.teamSaved

/-- The stop of the split in focus with its group: its frame holds `pc`, and is written once what it does not capture has
completed. -/
def State.stopSplit (s : State) (pc : Dword) : State :=
  let t := s.endRun
  if t.saveReady then t.stopNow pc else t.waitFor [.quiet] (.stop pc)

/-- Whether a stop or a halt that stands for the split comes before a trap of class `c` at the instruction at issue or of a
deferred fault (R403); `trap` and `brk` take theirs first. -/
def Split.haltFirst (w : Split) (c : TClass) : Bool :=
  !w.inHandler && (w.pend.halt || w.pend.stop) && c != .soft && c != .brk

/-- A trap is raised (R391, R395): in a handler it ends the team; else the split stops issuing, and the trap, or the halt that comes
before it, is taken once every instruction that a frame does not capture has completed. A split of an aborted grid takes none
(R434). -/
def State.raise (s : State) (t : Trap) : State :=
  if s.me.pend.kill then s.endRun
  else if s.me.inHandler then s.endRun.abort s.gr.grid 0 (tclassCode t.cls) t.detail s.gr.team s.gr.grp
  else if s.me.haltFirst t.cls && s.me.pend.stop then s.stopSplit t.pc
  else
    let u := s.endRun
    let x : Trap := if s.me.haltFirst t.cls then ⟨.brk, 1, 0, t.pc, t.toks⟩ else t
    if u.saveReady then u.enterTrap x else u.waitFor [.quiet] (.trap x)

/-- The split is saved where a save leaves it: on its base stack, or where its fixed group stays. -/
def State.savedHere (s : State) : Bool := s.fixed || s.me.stack == s.gr.base

/-- A save record (R399): KIND 2 with TINFO 0 after `yield`, KIND 3 with CLASS 16 when it is forced. The last split of the
group to save writes the tiles. A forced save writes its record where the split resides, which TSTK names, and the split
then migrates to its base stack (R74, R393, R447). A record that fails leaves the save area as it was (log entry 81). -/
def State.saveNow (s0 : State) (forced : Bool) (pc : Dword) : State :=
  let s := s0.settle
  let t : Trap := ⟨.preempt, 0, 0, pc, s.me.toks⟩
  let pendf := s.me.ops.any Op.faulted
  let info := if forced then trapInfo s.me.priv false pendf false s.frameVa t else 0#64
  let kind := if forced then 3 else 2
  match s.putRecord kind info pc (if s.me.pend.slice then 1 else s.me.slice) t.toks false true with
  | .error c => s.saveFault c true
  | .ok v =>
      let x := if forced then v.sketch v.me.stack 1 v.me.core v.me.asid v.gr.grid
                 (bytesLE 8 info.toNat ++ bytesLE 8 s.frameVa.toNat) else v
      let y := { x.emptied with
        me := { x.emptied.me with
          trapPc := pc, pc := pc, spin := none, status := if s.savedHere then .saved else .leaving (.forced pc),
          trapinfo := if forced then info else x.me.trapinfo, trapSet := if forced then info else x.me.trapSet,
          pend := { x.me.pend.left with preempt := false, handler := [] } } }
      if s.savedHere then y.teamSaved else y

/-- A saved split arrives at its base stack (R447). -/
def State.savedArrives (s : State) : State := ({ s with me := { s.me with status := .saved } }).teamSaved

end Sys2Proof.Machine
end

