-- ==== Sys2Proof/Machine/Operands.lean ====
section
/-! DEFINITION. Machine/Operands.lean: the operands of an instruction and its issue: operand b (R108, R123), the guard (R114),
the order of the checks (R409), checked tokens (R426), and the two ways an instruction leaves its issue cycle: a
fixed-latency result (R70) and an outstanding operation (R124). -/

namespace Sys2Proof.Machine

/-! ### Operand values -/

/-- `opb(l)` of a vector form (R108, R123). -/
def State.b (s : State) : OpB → Lanes
  | .v n => s.v n
  | .s n => Vector.replicate 32 (BitVec.ofNat 32 (s.s n).toNat)
  | .lit x => Vector.replicate 32 x

/-- Operand b of a scalar form (R151). -/
def State.sb (s : State) : SB → Dword
  | .s n => s.s n
  | .lit x => x

/-- A predicate operand of a scalar form: its bit in the lowest lane of ACT (R151). -/
def State.p1 (s : State) (n : PReg) : Bool := match s.me.act.lowest with
  | some l => (s.p n).has l
  | none => false

/-! ### What an instruction reads, and what is pending (R125, R426) -/

/-- A register group that an instruction reads: `n` vector registers from one on, one vector register in some lanes, or a
scalar register. -/
inductive Rd
  | v (r n : Nat)
  | some' (r : Nat) (m : Mask)
  | s (r : Nat)
  deriving DecidableEq, Repr

def rdV (r : VReg) : Rd := .v r.val 1
def rdS (r : SReg) : Rd := .s r.val
def rdB : OpB → List Rd
  | .v n => [rdV n]
  | .s n => [rdS n]
  | .lit _ => []
def rdSB : SB → List Rd
  | .s n => [rdS n]
  | .lit _ => []
/-- The registers of an address (R204). -/
def rdAddr (m : Addr) : List Rd := rdS m.a :: match m.idx with
  | .s n => [rdS n]
  | .v n _ _ => [rdV n]

/-- The vector registers that a long-latency instruction writes, as first register and count. -/
def longVec : Instr → Option (Nat × Nat)
  | .div x _ _ _ => some (x.d.val, 1)
  | .rem x _ _ => some (x.d.val, 1)
  | .ldz _ d _ _ ty n _ _ => some (d.val, ceilDiv n.toNat (32 * (4 / ty.size)))
  | .accrd _ d _ _ n _ => some (d.val, n.val + 1)
  | .drq _ (.regs d) _ _ _ _ _ n _ => some (d.val, ceilDiv ((n.val + 1) * 8) 32)
  | .drf _ (.regs d) _ ty _ _ _ n _ => some (d.val, ceilDiv ((n.val + 1) * (8 * ty.size)) 32)
  | i => vecDest i

/-- The scalar register that a long-latency instruction writes. -/
def longScal : Instr → Option Nat
  | .scalarForm _ _ (.div d _ _ _ _) => some d.val
  | .scalarForm _ _ (.rem d _ _ _) => some d.val
  | .ld _ _ .scal _ d _ _ | .ldg _ _ .scal _ d _ _ _ => some d.val
  | .stz _ d _ _ _ _ _ _ _ | .cpkt _ _ d _ _ _ | .bobs _ _ _ _ d _ _ | .accst _ d _ _ | .stkspill _ d _ _ _
  | .stkfill _ d _ _ _ | .ctxsv _ d _ _ | .rgpost _ d _ _ _ | .rgtake _ d _ _ => some d.val
  | _ => none

/-- The lanes in which an operation is still to write the `j`-th of its vector registers (R125): not those that a handler has
dropped (R390), nor those past the elements of an `ldz` (R220). -/
def Op.toWrite (o : Op) (j : Nat) : Mask :=
  let ms := if actsOnce o.instr then (if o.stateAt 0 = 0 then 0#32 else o.act) else o.act &&& ~~~ o.lanesAt 0
  let mz : Mask := match o.instr with
    | .ldz _ _ _ _ ty n _ _ => Mask.where' fun l => 4 / ty.size * (32 * j + l) < n.toNat
    | _ => BitVec.allOnes 32
  ms &&& mz &&& ~~~ o.landed

/-- Whether an operation is still to write a vector register from `r` to `r + n - 1` in a lane of `m`. -/
def Op.pendsV (o : Op) (r n : Nat) (m : Mask) : Bool := match longVec o.instr with
  | some (d, k) => (List.range k).any fun j => r ≤ o.wb + d + j && o.wb + d + j < r + n && (o.toWrite j &&& m) != 0#32
  | none => false

/-- Whether an outstanding operation is still to write register group `r` in a lane of `m` (R125). -/
def Op.pends (o : Op) (wbase : Nat) (m : Mask) : Rd → Bool
  | .v r n => o.pendsV (wbase + r) n m
  | .some' r k => o.pendsV (wbase + r) 1 (m &&& k)
  | .s r => longScal o.instr == some r && r != 0 && !o.landed.has 0 && !(actsOnce o.instr && o.stateAt 0 == 0)


/-! ### The issue of an instruction -/

/-- A failed effect check: class and DETAIL. -/
abbrev Chk := Option (TClass × Nat)

/-- The first failed check of two. -/
def Chk.or (a b : Chk) : Chk := match a with
  | some x => some x
  | none => b

/-- A failed translation as a check (R409 step 6, R458). -/
def Chk.xl {α : Type} (wr : Bool) (e : Except TClass α) : Chk := match e with
  | .error c => some (c, if wr then 1 else 0)
  | .ok _ => none

def chkIf (b : Bool) (c : TClass) (d : Nat) : Chk := if b then some (c, d) else none

/-- What an effect check reads, and what the instruction needs (R409 steps 5 to 8). -/
structure Need8 where
  reads : List Rd := []
  /-- The lane operations of R163 read every lane of ACT. -/
  all : Bool := false
  /-- The one lane that `movs.get` reads (R162). -/
  one : Option Nat := none
  tok : Option Tok := none
  chk : Chk := none
  arg : Nat := 0
  deriving DecidableEq, Repr

def State.tokFull (s : State) : Option Tok → Bool
  | none => false
  | some k => s.me.tok k == 31

/-- A read of a pending register in a lane that the instruction reads (R426). -/
def State.pending (s : State) (h : Hd) (n : Need8) : Bool :=
  let m := match n.one with
    | some l => 1#32 <<< l
    | none => if n.all then s.me.act else s.active h
  s.me.ops.any fun (o : Op) => n.reads.any fun r => o.pends s.me.wbase m r

/-- The condition on which a split resumed from HAZARD or TOKEN waits before its checks (R427). -/
def State.held (s : State) (h : Hd) (n : Need8) : Bool :=
  s.me.resume == 10 && s.pending h n || s.me.resume == 9 && s.tokFull n.tok

/-- The instruction leaves its issue: no such wait and no stall is left. -/
def State.fresh427 (s : State) : State := { s with me := { s.me with resume := 0, stalled := false } }

/-- The instruction stays at issue, without a trap (R44, R286, R381). -/
def State.stall (s : State) : State := { s with me := { s.me with stalled := true } }

/-- The issue of `i` (R114, R408, R409, R427): without an active lane it has no effect; else the effect checks are made in
their order, and then `body` acts. An instruction that names a token is the 33rd outstanding one at most: the 33rd stays
at issue (R381). -/
def State.gate (s : State) (i : Instr) (h : Hd) (n : Need8) (body : State → State) : Out :=
  if s.active h = 0#32 then .next (s.fresh427.retire h i.bytes)
  else if s.held h n then .next s.stall
  else match n.chk with
    | some (c, d) => .next (s.fresh427.raise (s.trapHere c d n.arg))
    | none =>
      if s.me.chktok && s.pending h n then .next (s.fresh427.raise (s.trapHere .hazard 0))
      else if s.tokFull n.tok then .next (s.fresh427.raise (s.trapHere .token 0))
      else if n.tok.isSome && 32 ≤ s.me.ops.length then .next s.stall
      else .next (body s.fresh427)

/-! ### Spin park: what an iteration changes (R71) -/

/-- Whether a write leaves its destination as it stands. -/
def State.leaves (s : State) : Wr → Bool
  | .v r m x => (List.range 32).all fun l => !m.has l || lane x l == lane (vget s.win.regs r x) l
  | .vbits r m k x => (List.range 32).all fun l =>
      !m.has l || lane x l &&& lane k l == lane (vget s.win.regs r x) l &&& lane k l
  | .s r x => r == 0 || vget s.me.sregs r 0#64 == x
  | .p r m x => r == 7 || vget s.me.preds r 0#32 &&& m == x &&& m
  | .pal x => s.me.pal == x
  | .mstep x => s.me.mstep &&& 0xF#64 == x &&& 0xF#64
  | .trapinfo x => s.me.trapinfo &&& 0xFFFF#64 == x &&& 0xFFFF#64

/-- The iteration no longer qualifies for spin park. -/
def State.spoil (s : State) : State :=
  { s with me := { s.me with spin := s.me.spin.map fun (x : Spin) => { x with ok := false } } }

/-- The effect of a result's writes on the iteration. -/
def State.noteWrites (s : State) (ws : List Wr) : State :=
  if s.me.spin.isSome && !(ws.all s.leaves) then s.spoil else s

/-! ### Results -/

/-- A fixed-latency instruction: its results land `lat` cycles after its issue (R70), and the run goes on. -/
def State.alu (s : State) (i : Instr) (h : Hd) (n : Need8) (lat : Nat) (ws : State → List Wr) : Out :=
  s.gate i h n fun t => ((t.noteWrites (ws t)).land lat (ws t)).retire h i.bytes

/-- One vector register written in the active lanes. -/
def State.toV (s : State) (h : Hd) (d : VReg) (f : Nat → Word) : List Wr := [.v (s.phys d) (s.active h) (lanesOf f)]

/-- A new outstanding operation of the instruction at PC (R124, R389), before it names its addresses and data. -/
def State.newOp (s : State) (i : Instr) (h : Hd) (k : Option Tok) : Op :=
  { id := s.nextId, instr := i, ipc := s.me.pc, tok := k, wb := s.me.wbase, act := s.active h, leg := false, clm := false,
    cidx := 0#64, scap := [], stat := Vector.ofFn fun l : Fin 32 =>
      if actsOnce i then (if l.val = 0 then statPending else 0#8)
      else if (s.active h).has l.val then statPending else 0#8,
    addr := Vector.replicate 32 0#64, data := Vector.replicate 32 0#128, kind := .plain, pa := Vector.replicate 32 0,
    pois := Vector.replicate 32 0, out := Vector.replicate 32 0#128, landed := 0#32, writes := [], blob := [], legLanes := 0#32,
    after := [], acq := false, sent := false, again := false, due := 0,
    late := none }

/-- The operation issues: its token rises (R124). -/
def State.issue (s : State) (o : Op) : State :=
  let t := s.tokIssue o.tok
  { t with nextId := t.nextId + 1, me := { t.me with ops := t.me.ops ++ [o] } }

/-- A long-latency instruction that completes by itself, with `ws` as its writes (R156). -/
def State.long (s : State) (i : Instr) (h : Hd) (n : Need8) (k : Tok) (ws : State → List Wr) : Out :=
  s.gate i h { n with tok := some k } fun t =>
    (((t.noteWrites (ws t)).issue { t.newOp i h (some k) with writes := ws t }).retire h i.bytes)

end Sys2Proof.Machine
end

