-- ==== Sys2Proof/Machine/Flags.lean ====
section
/-! DEFINITION. Machine/Flags.lean: predicate results: the carries and borrows of R152, the integer conditions of R160, the
floating-point conditions of R172 and the predicate functions of R161. -/

namespace Sys2Proof.Machine

/-- The carry out of an `n`-bit sum (R152). -/
def carryOut (n a b c : Nat) : Bool := 2 ^ n ≤ a % 2 ^ n + b % 2 ^ n + c

/-- The borrow out of an `n`-bit difference (R152). -/
def borrowOut (n a b c : Nat) : Bool := a % 2 ^ n < b % 2 ^ n + c

/-- A condition on one element: its two values, and the bitwise and of their bits (R160). -/
def ccHolds (cc : CC) (a b : Int) (both : Nat) : Bool := match cc with
  | .eq => a == b
  | .ne => a != b
  | .lt => a < b
  | .le => a ≤ b
  | .gt => b < a
  | .ge => b ≤ a
  | .bs => both != 0
  | .bc => both == 0

/-- A floating-point condition on an ordering of two values; `none` when either is NaN (R172). -/
def fccHolds (cc : FCC) : Option Ordering → Bool
  | .none => cc == .un || cc == .ne
  | .some o => match cc with
    | .eq => o == .eq
    | .ne => o != .eq
    | .lt => o == .lt
    | .le => o != .gt
    | .gt => o == .gt
    | .ge => o != .lt
    | .un => false
    | .ord => true

/-- The predicate functions, on all lanes at once (R161). -/
def plogFn (f : PFn) (a b : Mask) : Mask := match f with
  | .and => a &&& b
  | .or => a ||| b
  | .xor => a ^^^ b
  | .andn => a &&& ~~~b
  | .orn => a ||| ~~~b
  | .nand => ~~~(a &&& b)
  | .nor => ~~~(a ||| b)
  | .xnor => ~~~(a ^^^ b)

/-- A predicate written in the active lanes, from a condition on each lane. -/
def State.toP (s : State) (h : Hd) (d : PReg) (f : Nat → Bool) : List Wr := [.p d.val (s.active h) (Mask.where' f)]

/-- The vector form of a carry variant names a predicate; the plain form names none. -/
def carryReg : Carry → Option PReg
  | .none => Option.none
  | .cc p | .cx p | .cxc p => some p
def carryIn : Carry → Bool
  | .none | .cc _ => false
  | .cx _ | .cxc _ => true
def carryGives : Carry → Bool
  | .none | .cx _ => false
  | .cc _ | .cxc _ => true

end Sys2Proof.Machine
end

