-- ==== Sys2Proof/Machine/Integer.lean ====
section
/-! DEFINITION. Machine/Integer.lean: the integer, predicate and move instructions (R149 to R162) and their scalar forms
(R151). -/

namespace Sys2Proof.Machine

/-! ### Elements (R150) -/

/-- The `n`-bit value `x` read under a type (R149). -/
def readInt (ty : ITy) (x : Nat) : Int := if ty.signed then sextOf x ty.width else (x % 2 ^ ty.width : Nat)

/-- Element `i` of a register (R85, R150). -/
def elemBits (ty : ITy) (x i : Nat) : Nat := x / 2 ^ (ty.width * i) % 2 ^ ty.width
def elemInt (ty : ITy) (x i : Nat) : Int := readInt ty (elemBits ty x i)

/-- `lo` and `hi` of R150. -/
def tyLo (ty : ITy) : Int := if ty.signed then -(2 ^ (ty.width - 1) : Int) else 0
def tyHi (ty : ITy) : Int := if ty.signed then (2 ^ (ty.width - 1) : Int) - 1 else (2 ^ ty.width : Int) - 1

/-- `fit(y)` of R150. -/
def fit (ty : ITy) (sat : Bool) (y : Int) : Nat := modTwo (if sat then satTo y (tyLo ty) (tyHi ty) else y) ty.width

/-- `pack(r)` of R150 over the elements of one lane. -/
def packElems (ty : ITy) (r : Nat → Nat) : Word :=
  BitVec.ofNat 32 ((List.range (32 / ty.width)).foldl (fun x i => x + r i % 2 ^ ty.width * 2 ^ (ty.width * i)) 0)

/-- An operation on the elements of two lane values. -/
def zipElems (ty : ITy) (f : Nat → Nat → Nat) (a b : Word) : Word :=
  packElems ty fun i => f (elemBits ty a.toNat i) (elemBits ty b.toNat i)

/-! ### Operations on one element, given as its bits -/

def addEl (ty : ITy) (sat : Bool) (c a b : Nat) : Nat := fit ty sat (readInt ty a + readInt ty b + c)
def subEl (ty : ITy) (sat : Bool) (c a b : Nat) : Nat := fit ty sat (readInt ty a - readInt ty b - c)
def mulEl (ty : ITy) (sat : Bool) (a b : Nat) : Nat := fit ty sat (readInt ty a * readInt ty b)
def mulhEl (ty : ITy) (a b : Nat) : Nat := modTwo ((readInt ty a * readInt ty b) / (2 ^ ty.width : Int)) ty.width
def madEl (ty : ITy) (sat : Bool) (c a b : Nat) : Nat := fit ty sat (readInt ty a * readInt ty b + readInt ty c)
def minEl (ty : ITy) (a b : Nat) : Nat := if readInt ty a ≤ readInt ty b then a else b
def maxEl (ty : ITy) (a b : Nat) : Nat := if readInt ty b ≤ readInt ty a then a else b

/-- The unary functions of R155 on `n` bits. -/
def unEl (ty : ITy) (fn : UFn) (sat : Bool) (a : Nat) : Nat :=
  let n := ty.width
  match fn with
  | .abs => fit ty sat (if readInt ty a < 0 then -readInt ty a else readInt ty a)
  | .neg => fit ty sat (-readInt ty a)
  | .not => 2 ^ n - 1 - a % 2 ^ n
  | .popc => ((List.range n).filter a.testBit).length
  | .clz => ((List.range n).find? fun i => a.testBit (n - 1 - i)).getD n
  | .brev => (List.range n).foldl (fun x i => x + if a.testBit i then 2 ^ (n - 1 - i) else 0) 0

/-- Division (R156). -/
def divEl (ty : ITy) (sat : Bool) (a b : Nat) : Nat :=
  let x := readInt ty a
  let y := readInt ty b
  if y = 0 then 2 ^ ty.width - 1
  else if ty.signed && x == (tyLo ty) && y == -1 then (if sat then modTwo (tyHi ty) ty.width else modTwo (tyLo ty) ty.width)
  else modTwo (x.tdiv y) ty.width
def remEl (ty : ITy) (a b : Nat) : Nat :=
  let x := readInt ty a
  let y := readInt ty b
  if y = 0 then a % 2 ^ ty.width
  else if ty.signed && x == (tyLo ty) && y == -1 then 0
  else modTwo (x - y * x.tdiv y) ty.width

/-- The shifts of R157 on element `a` of `n` bits by `k` places. -/
def shlEl (n a k : Nat) : Nat := if n ≤ k then 0 else a * 2 ^ k % 2 ^ n
def shrEl (n a k : Nat) : Nat := if n ≤ k then 0 else a % 2 ^ n / 2 ^ k
def sraEl (n a k : Nat) : Nat := modTwo (sextOf a n / (2 ^ (Nat.min k n) : Int)) n
def rotEl (n a k : Nat) : Nat :=
  let r := k % n
  (a % 2 ^ n * 2 ^ r + a % 2 ^ n / 2 ^ (n - r)) % 2 ^ n

/-- The field width left by the cut at bit n − 1 (R158). -/
def fieldWidth (n b : Nat) : Nat :=
  let p := b % 256
  let w := b / 256 % 256
  if w = 0 ∨ n ≤ p then 0 else Nat.min w (n - p)
def bfxEl (ty : ITy) (a b : Nat) : Nat :=
  let p := b % 256
  let w := fieldWidth ty.width b
  if w = 0 then 0
  else
    let f := a % 2 ^ ty.width / 2 ^ p % 2 ^ w
    if ty.signed then modTwo (sextOf f w) ty.width else f
def bfiEl (n a b c : Nat) : Nat :=
  let p := b % 256
  let w := fieldWidth n b
  let y := c % 2 ^ n
  if w = 0 then y else y - y / 2 ^ p % 2 ^ w * 2 ^ p + a % 2 ^ w * 2 ^ p

/-! ### Shapes of instructions -/

/-- A two-source vector instruction with a 4-cycle result in each active lane. -/
def State.bin (s : State) (i : Instr) (x : VA) (f : Word → Word → Word) : Out :=
  s.alu i x.h { reads := rdV x.a :: rdB x.b } 4 fun t =>
    t.toV x.h x.d fun l => f (lane (t.v x.a) l) (lane (t.b x.b) l)

/-- The same with source c. -/
def State.tern (s : State) (i : Instr) (x : VA) (c : VReg) (f : Word → Word → Word → Word) : Out :=
  s.alu i x.h { reads := rdV x.a :: rdV c :: rdB x.b } 4 fun t =>
    t.toV x.h x.d fun l => f (lane (t.v x.a) l) (lane (t.b x.b) l) (lane (t.v c) l)

/-- A one-source vector instruction. -/
def State.un (s : State) (i : Instr) (x : U) (f : Word → Word) : Out :=
  s.alu i x.h { reads := [rdV x.a] } 4 fun t => t.toV x.h x.d fun l => f (lane (t.v x.a) l)

/-- `add` and `sub` with their carries (R152). -/
def State.addSub (s : State) (i : Instr) (x : VA) (ty : ITy) (isSub sat : Bool) (cv : Carry) : Out :=
  s.alu i x.h { reads := rdV x.a :: rdB x.b } 4 fun t =>
    let cin (l : Nat) : Nat := match carryReg cv with
      | some p => if carryIn cv && (t.p p).has l then 1 else 0
      | none => 0
    let a := t.v x.a
    let b := t.b x.b
    t.toV x.h x.d (fun l => zipElems ty (if isSub then subEl ty sat (cin l) else addEl ty sat (cin l)) (lane a l) (lane b l))
      ++ match carryReg cv with
        | some p => if carryGives cv then
            t.toP x.h p fun l =>
              (if isSub then borrowOut else carryOut) ty.width (lane a l).toNat (lane b l).toNat (cin l)
          else []
        | none => []

def execAdd (x : VA) (s : State) : Out := s.addSub (.add x) x .i32 false false .none
def execAddX (x : VA) (ty : ITy) (sat : Bool) (cv : Carry) (s : State) : Out :=
  s.addSub (.addX x ty sat cv) x ty false sat cv
def execSub (x : VA) (s : State) : Out := s.addSub (.sub x) x .i32 true false .none
def execSubX (x : VA) (ty : ITy) (sat : Bool) (cv : Carry) (s : State) : Out :=
  s.addSub (.subX x ty sat cv) x ty true sat cv

/-- R153. -/
def execMul (x : VA) (s : State) : Out := s.bin (.mul x) x (zipElems .i32 (mulEl .i32 false))
def execMulX (x : VA) (ty : ITy) (sat : Bool) (s : State) : Out := s.bin (.mulX x ty sat) x (zipElems ty (mulEl ty sat))
def execMulh (x : VA) (s : State) : Out := s.bin (.mulh x) x (zipElems .i32 (mulhEl .i32))
def execMulhX (x : VA) (ty : ITy) (s : State) : Out := s.bin (.mulhX x ty) x (zipElems ty (mulhEl ty))
def execMad (x : VA) (ty : ITy) (sat : Bool) (c : VReg) (s : State) : Out :=
  s.tern (.mad x ty sat c) x c fun a b z =>
    packElems ty fun i => madEl ty sat (elemBits ty z.toNat i) (elemBits ty a.toNat i) (elemBits ty b.toNat i)

/-- The byte products of `dpb` (R154). -/
def dpbSum (sg : Fin 4) (a b c : Word) : Int :=
  (List.range 4).foldl (fun y i =>
    y + elemInt (if sg.val % 2 = 0 then .i8 else .n8) a.toNat i * elemInt (if sg.val / 2 = 0 then .i8 else .n8) b.toNat i)
    (sextOf c.toNat 32)
def execDpb (x : VA) (sg : Fin 4) (sat : Bool) (c : VReg) (s : State) : Out :=
  s.tern (.dpb x sg sat c) x c fun a b z => BitVec.ofNat 32 (fit .i32 sat (dpbSum sg a b z))

/-- R155. -/
def execMin (x : VA) (s : State) : Out := s.bin (.min x) x (zipElems .i32 (minEl .i32))
def execMinX (x : VA) (ty : ITy) (s : State) : Out := s.bin (.minX x ty) x (zipElems ty (minEl ty))
def execMax (x : VA) (s : State) : Out := s.bin (.max x) x (zipElems .i32 (maxEl .i32))
def execMaxX (x : VA) (ty : ITy) (s : State) : Out := s.bin (.maxX x ty) x (zipElems ty (maxEl ty))
def unWord (ty : ITy) (fn : UFn) (sat : Bool) (a : Word) : Word := packElems ty fun i => unEl ty fn sat (elemBits ty a.toNat i)
def execAbs (x : U) (s : State) : Out := s.un (.abs x) x (unWord .i32 .abs false)
def execAbsX (x : U) (ty : ITy) (sat : Bool) (s : State) : Out := s.un (.absX x ty sat) x (unWord ty .abs sat)
def execNeg (x : U) (s : State) : Out := s.un (.neg x) x (unWord .i32 .neg false)
def execNegX (x : U) (ty : ITy) (sat : Bool) (s : State) : Out := s.un (.negX x ty sat) x (unWord ty .neg sat)
def execNot (x : U) (s : State) : Out := s.un (.not x) x (unWord .i32 .not false)
def execNotX (x : U) (ty : ITy) (s : State) : Out := s.un (.notX x ty) x (unWord ty .not false)
def execPopc (x : U) (s : State) : Out := s.un (.popc x) x (unWord .i32 .popc false)
def execPopcX (x : U) (ty : ITy) (s : State) : Out := s.un (.popcX x ty) x (unWord ty .popc false)
def execClz (x : U) (s : State) : Out := s.un (.clz x) x (unWord .i32 .clz false)
def execClzX (x : U) (ty : ITy) (s : State) : Out := s.un (.clzX x ty) x (unWord ty .clz false)
def execBrev (x : U) (s : State) : Out := s.un (.brev x) x (unWord .i32 .brev false)
def execBrevX (x : U) (ty : ITy) (s : State) : Out := s.un (.brevX x ty) x (unWord ty .brev false)

/-- R156: the results of the operands at issue; they land when the operation completes. -/
def State.divide (s : State) (i : Instr) (x : VA) (k : Tok) (f : Word → Word → Word) : Out :=
  s.long i x.h { reads := rdV x.a :: rdB x.b } k fun t =>
    t.toV x.h x.d fun l => f (lane (t.v x.a) l) (lane (t.b x.b) l)
def execDiv (x : VA) (ty : ITy) (sat : Bool) (k : Tok) (s : State) : Out :=
  s.divide (.div x ty sat k) x k (zipElems ty (divEl ty sat))
def execRem (x : VA) (ty : ITy) (k : Tok) (s : State) : Out := s.divide (.rem x ty k) x k (zipElems ty (remEl ty))

/-- R157: the bitwise operations act on all 32 bits, whatever the type. -/
def execAnd (x : VA) (s : State) : Out := s.bin (.and x) x fun a b => a &&& b
def execAndX (x : VA) (ty : ITy) (s : State) : Out := s.bin (.andX x ty) x fun a b => a &&& b
def execOr (x : VA) (s : State) : Out := s.bin (.or x) x fun a b => a ||| b
def execOrX (x : VA) (ty : ITy) (s : State) : Out := s.bin (.orX x ty) x fun a b => a ||| b
def execXor (x : VA) (s : State) : Out := s.bin (.xor x) x fun a b => a ^^^ b
def execXorX (x : VA) (ty : ITy) (s : State) : Out := s.bin (.xorX x ty) x fun a b => a ^^^ b
def execShl (x : VA) (s : State) : Out := s.bin (.shl x) x (zipElems .i32 (shlEl 32))
def execShlX (x : VA) (ty : ITy) (s : State) : Out := s.bin (.shlX x ty) x (zipElems ty (shlEl ty.width))
def execShr (x : VA) (s : State) : Out := s.bin (.shr x) x (zipElems .i32 (shrEl 32))
def execShrX (x : VA) (ty : ITy) (s : State) : Out := s.bin (.shrX x ty) x (zipElems ty (shrEl ty.width))
def execSra (x : VA) (s : State) : Out := s.bin (.sra x) x (zipElems .i32 (sraEl 32))
def execSraX (x : VA) (ty : ITy) (s : State) : Out := s.bin (.sraX x ty) x (zipElems ty (sraEl ty.width))
def execRot (x : VA) (s : State) : Out := s.bin (.rot x) x (zipElems .i32 (rotEl 32))
def execRotX (x : VA) (ty : ITy) (s : State) : Out := s.bin (.rotX x ty) x (zipElems ty (rotEl ty.width))

/-- R158. -/
def execBfx (x : VA) (ty : ITy) (s : State) : Out := s.bin (.bfx x ty) x fun a b => BitVec.ofNat 32 (bfxEl ty a.toNat b.toNat)
def execBfi (x : VA) (ty : ITy) (c : VReg) (s : State) : Out :=
  s.tern (.bfi x ty c) x c fun a b z => BitVec.ofNat 32 (bfiEl ty.width a.toNat b.toNat z.toNat)

/-- R159. -/
def execSel (x : VA) (c : PReg) (s : State) : Out :=
  s.alu (.sel x c) x.h { reads := rdV x.a :: rdB x.b } 4 fun t =>
    t.toV x.h x.d fun l => if (t.p c).has l then lane (t.v x.a) l else lane (t.b x.b) l

/-- Whether a condition holds for every element of a lane (R160). -/
def cmpLane (ty : ITy) (cc : CC) (a b : Word) : Bool :=
  (List.range (32 / ty.width)).all fun i =>
    ccHolds cc (elemInt ty a.toNat i) (elemInt ty b.toNat i) (elemBits ty a.toNat i &&& elemBits ty b.toNat i)
def State.compare (s : State) (i : Instr) (h : Hd) (cc : CC) (p : PReg) (a : VReg) (b : OpB) (ty : ITy) : Out :=
  s.alu i h { reads := rdV a :: rdB b } 4 fun t => t.toP h p fun l => cmpLane ty cc (lane (t.v a) l) (lane (t.b b) l)
def execCmp (h : Hd) (cc : CC) (p : PReg) (a : VReg) (b : OpB) (s : State) : Out :=
  s.compare (.cmp h cc p a b) h cc p a b .i32
def execCmpX (h : Hd) (cc : CC) (p : PReg) (a : VReg) (b : OpB) (ty : ITy) (s : State) : Out :=
  s.compare (.cmpX h cc p a b ty) h cc p a b ty

/-- R161. -/
def execPlog (h : Hd) (f : PFn) (d a b : PReg) (s : State) : Out :=
  s.alu (.plog h f d a b) h {} 4 fun t => [.p d.val (t.active h) (plogFn f (t.p a) (t.p b))]

/-- R162. -/
def execMov (h : Hd) (d : VReg) (b : OpB) (s : State) : Out :=
  s.alu (.mov h d b) h { reads := rdB b } 4 fun t => t.toV h d fun l => lane (t.b b) l
def execMovX (h : Hd) (m : MovX) (s : State) : Out := match m with
  | .vec d b => s.alu (.movX h (.vec d b)) h { reads := rdB b } 4 fun t => t.toV h d fun l => lane (t.b b) l
  | .pv d p => s.alu (.movX h (.pv d p)) h {} 4 fun t => t.toV h d fun l => if (t.p p).has l then 1#32 else 0#32
  | .vp p b => s.alu (.movX h (.vp p b)) h { reads := rdB b } 4 fun t => t.toP h p fun l => lane (t.b b) l != 0#32
def execMovl (h : Hd) (d : VReg) (x : Dword) (s : State) : Out :=
  s.alu (.movl h d x) h {} 4 fun t =>
    [.v (t.phys d) (t.active h) (Vector.replicate 32 (BitVec.ofNat 32 x.toNat)),
     .v (t.phys d + 1) (t.active h) (Vector.replicate 32 (BitVec.ofNat 32 (x.toNat / 2 ^ 32)))]
def execMovs (h : Hd) (d : VReg) (a : SReg) (s : State) : Out :=
  s.alu (.movs h d a) h { reads := [rdS a] } 4 fun t => t.toV h d fun _ => BitVec.ofNat 32 (t.s a).toNat

/-- Lane `k` of a register, read for a split: a lane outside ACT gives a free value (R162, log entry 1). -/
def State.laneOr (s : State) (a : VReg) (k : Nat) : Word :=
  if s.me.act.has k then lane (s.v a) k else Config.freeWord s.fresh
/-- The extended forms of `movs` (R162); `.get` and `.gets` take 8 cycles. -/
def execMovsX (h : Hd) (m : MovsX) (s : State) : Out := match m with
  | .lo d a => s.alu (.movsX h (.lo d a)) h { reads := [rdS a] } 4 fun t => t.toV h d fun _ => BitVec.ofNat 32 (t.s a).toNat
  | .hi d a => s.alu (.movsX h (.hi d a)) h { reads := [rdS a] } 4 fun t =>
      t.toV h d fun _ => BitVec.ofNat 32 ((t.s a).toNat / 2 ^ 32)
  | .get d a k => s.draw.alu (.movsX h (.get d a k)) h { reads := [rdV a], one := some k.val } 8 fun _ =>
      [.s d.val (BitVec.ofNat 64 (s.laneOr a k.val).toNat)]
  | .gets d a k => s.draw.alu (.movsX h (.gets d a k)) h { reads := [rdV a], one := some k.val } 8 fun _ =>
      [.s d.val (BitVec.ofNat 64 (modTwo (sextOf (s.laneOr a k.val).toNat 32) 64))]

/-! ### Scalar forms (R112, R151) -/

/-- An `n`-bit result extended to 64 bits under its type (R151). -/
def extend (ty : ITy) (x : Nat) : Dword := BitVec.ofNat 64 (modTwo (readInt ty x) 64)

/-- The carry into a scalar form: the predicate's bit in the lowest lane of ACT (R151). -/
def State.sCarry (s : State) (cv : Carry) : Nat := match carryReg cv with
  | some p => if carryIn cv && s.p1 p then 1 else 0
  | none => 0

/-- A scalar predicate result: every lane of ACT (R151). -/
def State.toP1 (s : State) (p : PReg) (x : Bool) : List Wr := [.p p.val s.me.act (if x then BitVec.allOnes 32 else 0#32)]

/-- The carry out of a scalar form. -/
def State.sCarryOut (s : State) (cv : Carry) (x : Bool) : List Wr := match carryReg cv with
  | some p => if carryGives cv then s.toP1 p x else []
  | none => []

/-- Two-source scalar operations without a variant. -/
def sbinEl (ty : ITy) (op : SBin) (a b : Dword) : Dword :=
  let x := a.toNat
  let y := b.toNat
  let n := ty.width
  match op with
  | .mulh => extend ty (mulhEl ty x y)
  | .min => extend ty (minEl ty x y)
  | .max => extend ty (maxEl ty x y)
  | .and => a &&& b
  | .or => a ||| b
  | .xor => a ^^^ b
  | .shl => extend ty (shlEl n x (y % 2 ^ n))
  | .shr => extend ty (shrEl n x (y % 2 ^ n))
  | .sra => extend ty (sraEl n x (y % 2 ^ n))
  | .rot => extend ty (rotEl n x (y % 2 ^ n))
  | .bfx => extend ty (bfxEl ty x y)

/-- What a fixed-latency scalar form writes. -/
def State.sopWrites (s : State) (ty : ITy) : SOp → List Wr
  | .add d a b sat cv =>
    let c := s.sCarry cv
    .s d.val (extend ty (addEl ty sat c (s.s a).toNat (s.sb b).toNat))
      :: s.sCarryOut cv (carryOut ty.width (s.s a).toNat (s.sb b).toNat c)
  | .sub d a b sat cv =>
    let c := s.sCarry cv
    .s d.val (extend ty (subEl ty sat c (s.s a).toNat (s.sb b).toNat))
      :: s.sCarryOut cv (borrowOut ty.width (s.s a).toNat (s.sb b).toNat c)
  | .mul d a b sat => [.s d.val (extend ty (mulEl ty sat (s.s a).toNat (s.sb b).toNat))]
  | .mad d a b c sat => [.s d.val (extend ty (madEl ty sat (s.s c).toNat (s.s a).toNat (s.sb b).toNat))]
  | .bin op d a b => [.s d.val (sbinEl ty op (s.s a) (s.sb b))]
  | .bfi d a b c => [.s d.val (extend ty (bfiEl ty.width (s.s a).toNat (s.sb b).toNat (s.s c).toNat))]
  | .un fn d a sat _ => [.s d.val (extend ty (unEl ty fn sat (s.s a).toNat))]
  | .div d a b sat _ => [.s d.val (extend ty (divEl ty sat (s.s a).toNat (s.sb b).toNat))]
  | .rem d a b _ => [.s d.val (extend ty (remEl ty (s.s a).toNat (s.sb b).toNat))]
  | .cmp cc p a b =>
    let x := (s.s a).toNat
    let y := (s.sb b).toNat
    s.toP1 p (ccHolds cc (readInt ty x) (readInt ty y) (x % 2 ^ ty.width &&& y % 2 ^ ty.width))
  | .mov d b => [.s d.val (extend ty (s.sb b).toNat)]

/-- The scalar registers that a scalar form reads. -/
def sopReads : SOp → List Rd
  | .add _ a b _ _ | .sub _ a b _ _ | .mul _ a b _ | .bin _ _ a b | .div _ a b _ _ | .rem _ a b _ | .cmp _ _ a b =>
    rdS a :: rdSB b
  | .mad _ a b c _ | .bfi _ a b c => rdS a :: rdS c :: rdSB b
  | .un _ _ a _ _ => [rdS a]
  | .mov _ b => rdSB b

/-- The token of a long-latency scalar form. -/
def sopTok : SOp → Option Tok
  | .div _ _ _ _ k | .rem _ _ _ k => some k
  | _ => none

def execScalarForm (h : Hd) (ty : ITy) (op : SOp) (s : State) : Out := match sopTok op with
  | some k => s.long (.scalarForm h ty op) h { reads := sopReads op } k fun t => t.sopWrites ty op
  | none => s.alu (.scalarForm h ty op) h { reads := sopReads op } 4 fun t => t.sopWrites ty op

end Sys2Proof.Machine
end

