-- ==== Sys2Proof/Machine/Lane.lean ====
section
/-! DEFINITION. Machine/Lane.lean: the lane operations (R163 to R166): every source is read at the issue cycle, from the
lanes of ACT only. -/

namespace Sys2Proof.Machine

/-- The source lane of a shuffle (R164). -/
def shflFrom (var : ShVar) (l k : Nat) : Int := match var with
  | .idx => k
  | .up => (l : Int) - k
  | .down => (l : Int) + k
  | .xor => (l ^^^ k : Nat)

/-- The value lane `l` receives: its own when the source lies outside the group or outside ACT. -/
def State.shflLane (s : State) (var : ShVar) (a b : Lanes) (l : Nat) : Word :=
  let j := shflFrom var l ((lane b l).toNat % 32)
  if 0 ≤ j ∧ j ≤ 31 ∧ s.me.act.has j.toNat then lane a j.toNat else lane a l

def State.shuffle (s : State) (i : Instr) (x : VA) (var : ShVar) : Out :=
  s.alu i x.h { reads := rdV x.a :: rdB x.b, all := true } 8 fun t =>
    t.toV x.h x.d fun l => t.shflLane var (t.v x.a) (t.b x.b) l
def execShfl (x : VA) (s : State) : Out := s.shuffle (.shfl x) x .idx
def execShflX (x : VA) (var : ShVar) (s : State) : Out := s.shuffle (.shflX x var) x var

/-- R165, over the lanes `x` of the split. -/
def voteWrites (x p : Mask) : VoteX → List Wr
  | .all d _ => [.p d.val x (if x &&& ~~~p = 0#32 then x else 0#32)]
  | .any d _ => [.p d.val x (if x &&& p = 0#32 then 0#32 else x)]
  | .uni d _ => [.p d.val x (if x &&& p = 0#32 ∨ x &&& ~~~p = 0#32 then x else 0#32)]
  | .ballot d _ => [.s d.val (BitVec.ofNat 64 (x &&& p).toNat)]
def voteReg : VoteX → PReg
  | .all _ p | .any _ p | .uni _ p | .ballot _ p => p
def State.voting (s : State) (i : Instr) (h : Hd) (v : VoteX) : Out :=
  s.alu i h { all := true } 8 fun t => voteWrites (t.active h) (t.p (voteReg v)) v
def execVote (h : Hd) (d p : PReg) (s : State) : Out := s.voting (.vote h d p) h (.all d p)
def execVoteX (h : Hd) (v : VoteX) (s : State) : Out := s.voting (.voteX h v) h v

/-- The value a combination of no element has (R166). -/
def lopUnit (ty : ITy) : LOp → Int
  | .add | .or | .xor => 0
  | .min => tyHi ty
  | .max => tyLo ty
  | .and => (2 ^ ty.width : Int) - 1

/-- The combination of element values, exact (R166); the bitwise operations act on the elements' bits. -/
def lopCombine (ty : ITy) (op : LOp) (xs : List Int) : Int :=
  xs.foldl (fun y x => match op with
    | .add => y + x
    | .min => if y ≤ x then y else x
    | .max => if x ≤ y then y else x
    | .and => (modTwo y ty.width &&& modTwo x ty.width : Nat)
    | .or => (modTwo y ty.width ||| modTwo x ty.width : Nat)
    | .xor => (modTwo y ty.width ^^^ modTwo x ty.width : Nat)) (lopUnit ty op)

/-- `lred` over the lanes of a list (R166). -/
def lredWord (ty : ITy) (op : LOp) (sat : Bool) (a : Lanes) (ls : List Nat) : Word :=
  packElems ty fun i => fit ty (sat && op == .add) (lopCombine ty op (ls.map fun l => elemInt ty (lane a l).toNat i))

def State.reduce (s : State) (i : Instr) (h : Hd) (op : LOp) (ty : ITy) (sat : Bool) (dst : LDst) (a : VReg) : Out :=
  s.alu i h { reads := [rdV a], all := true } 8 fun t =>
    let r := lredWord ty op sat (t.v a) (t.active h).list
    match dst with
    | .v d => t.toV h d fun _ => r
    | .s d => [.s d.val (BitVec.ofNat 64 (if ty = .i32 then modTwo (sextOf r.toNat 32) 64 else r.toNat))]
def execLred (h : Hd) (op : LOp) (d a : VReg) (s : State) : Out := s.reduce (.lred h op d a) h op .i32 false (.v d) a
def execLredX (h : Hd) (op : LOp) (ty : ITy) (sat : Bool) (dst : LDst) (a : VReg) (s : State) : Out :=
  s.reduce (.lredX h op ty sat dst a) h op ty sat dst a

def State.scan (s : State) (i : Instr) (h : Hd) (op : LOp) (ty : ITy) (sat excl : Bool) (d a : VReg) : Out :=
  s.alu i h { reads := [rdV a], all := true } 8 fun t =>
    let ls := (t.active h).list
    t.toV h d fun l => lredWord ty op sat (t.v a) (ls.filter fun m => m < l || !excl && m == l)
def execLscan (h : Hd) (op : LOp) (d a : VReg) (s : State) : Out := s.scan (.lscan h op d a) h op .i32 false false d a
def execLscanX (h : Hd) (op : LOp) (ty : ITy) (sat excl : Bool) (d a : VReg) (s : State) : Out :=
  s.scan (.lscanX h op ty sat excl d a) h op ty sat excl d a

end Sys2Proof.Machine
end

