-- ==== Sys2Proof/Machine/Numbers.lean ====
section
/-! DEFINITION. Machine/Numbers.lean: number formats, rounding and conversion (R80 to R92), exact over fractions. -/

namespace Sys2Proof.Machine

/-! ### Values -/

/-- A value of a floating-point format: NaN, an infinity, or a signed fraction `num / den` with `den` above 0; a zero keeps
its sign (R80, R81, R88). -/
inductive Ext
  | nan
  | inf (neg : Bool)
  | fin (neg : Bool) (num den : Nat)
  deriving DecidableEq, Repr

/-- How a format ends: with infinities and NaN, with the one NaN of E4M3, or with neither (R81). -/
inductive Top
  | ieee | e4m3 | full
  deriving DecidableEq, Repr

/-- A floating-point format: exponent and mantissa widths, bias, its end, whether SATF applies to it (R89), and the unused
low bits of its container (R80). -/
structure Fmt where
  ex : Nat
  man : Nat
  bias : Nat
  top : Top
  narrow : Bool
  low : Nat
  deriving DecidableEq, Repr

def fmtF32 : Fmt := ⟨8, 23, 127, .ieee, false, 0⟩
def fmtF19 : Fmt := ⟨8, 10, 127, .ieee, false, 13⟩
def fmtBF16 : Fmt := ⟨8, 7, 127, .ieee, false, 0⟩
def fmtF16 : Fmt := ⟨5, 10, 15, .ieee, false, 0⟩
def fmtE5M2 : Fmt := ⟨5, 2, 15, .ieee, true, 0⟩
def fmtE4M3 : Fmt := ⟨4, 3, 7, .e4m3, true, 0⟩
def fmtE3M2 : Fmt := ⟨3, 2, 3, .full, true, 0⟩
def fmtE2M3 : Fmt := ⟨2, 3, 1, .full, true, 0⟩
def fmtE2M1 : Fmt := ⟨2, 1, 1, .full, true, 0⟩

/-- Magnitude bits of infinity in a format that has it, of the largest finite value, and the canonical NaN (R80, R81). -/
def Fmt.infMag (f : Fmt) : Nat := (2 ^ f.ex - 1) * 2 ^ f.man
def Fmt.maxMag (f : Fmt) : Nat := match f.top with
  | .ieee => f.infMag - 1
  | .e4m3 => 2 ^ (f.ex + f.man) - 2
  | .full => 2 ^ (f.ex + f.man) - 1
def Fmt.nanMag (f : Fmt) : Nat := match f.top with
  | .ieee => f.infMag + 2 ^ (f.man - 1)
  | .e4m3 => 2 ^ (f.ex + f.man) - 1
  | .full => 0

/-- The value of an encoding (R80, R81). -/
def Fmt.value (f : Fmt) (bits : Nat) : Ext :=
  let x := bits / 2 ^ f.low
  let mag := x % 2 ^ (f.ex + f.man)
  let neg := x.testBit (f.ex + f.man)
  let e := mag / 2 ^ f.man
  let m := mag % 2 ^ f.man
  if f.top = .ieee ∧ f.infMag < mag ∨ f.top = .e4m3 ∧ f.nanMag = mag then .nan
  else if f.top = .ieee ∧ mag = f.infMag then .inf neg
  else
    let sig := if e = 0 then m else 2 ^ f.man + m
    let up := if e = 0 then 1 else e
    -- sig * 2 ^ (up - bias - man)
    .fin neg (sig * 2 ^ up) (2 ^ (f.bias + f.man))

/-- An encoding from a sign and magnitude bits, in its container. -/
def Fmt.join (f : Fmt) (neg : Bool) (mag : Nat) : Nat :=
  ((if neg then 2 ^ (f.ex + f.man) else 0) + mag) * 2 ^ f.low

def Fmt.nan (f : Fmt) : Nat := f.join false f.nanMag

/-! ### Rounding (R87, R88, R91) -/

/-- A positive value between two neighbours `m` and `m + 1` of a grid: how its fraction compares with a half, whether it is
on the grid, and its fraction times 2^32 rounded down. -/
structure Between where
  m : Nat
  half : Ordering
  exact : Bool
  f32 : Nat
  deriving DecidableEq, Repr

/-- The neighbour that a mode chooses for a value of sign `neg`, with draw `u` (R87, R91). -/
def choose (mode : Rnd) (neg : Bool) (u : Nat) (b : Between) : Nat :=
  if b.exact then b.m
  else match mode with
    | .rne => if b.half = .gt ∨ b.half = .eq ∧ b.m % 2 = 1 then b.m + 1 else b.m
    | .rtz => b.m
    | .rdn => if neg then b.m + 1 else b.m
    | .rup => if neg then b.m else b.m + 1
    | .rs => if u < b.f32 then b.m + 1 else b.m

/-- `num / den` on the grid of integers. -/
def between (num den : Nat) : Between :=
  let r := num % den
  ⟨num / den, compare (2 * r) den, r == 0, r * 2 ^ 32 / den⟩

/-- `floor(log2 (num / den))` for a positive fraction. -/
def fracLog (num den : Nat) : Int :=
  let e : Int := (Nat.log2 num : Int) - (Nat.log2 den : Int)
  let low := if 0 ≤ e then decide (num < den * 2 ^ e.toNat) else decide (num * 2 ^ (-e).toNat < den)
  if low then e - 1 else e

/-- The grid exponent of a positive value in a format: the unit of its last place (R88). -/
def Fmt.grid (f : Fmt) (log : Int) : Int :=
  let emin : Int := 1 - (f.bias : Int)
  (if log < emin then emin else log) - (f.man : Int)

/-- `num / den` on the grid of unit `2 ^ q`. -/
def onGrid (num den : Nat) (q : Int) : Between :=
  if 0 ≤ q then between num (den * 2 ^ q.toNat) else between (num * 2 ^ (-q).toNat) den

/-- The magnitude bits of `m * 2 ^ q` with an unbounded exponent field. -/
def Fmt.mag (f : Fmt) (m : Nat) (q : Int) : Nat := (q + (f.man : Int) + (f.bias : Int) - 1).toNat * 2 ^ f.man + m

/-- Whether an overflow goes to infinity under IEEE 754 (R89). -/
def toInf (mode : Rnd) (neg : Bool) : Bool := match mode with
  | .rne | .rs => true
  | .rtz => false
  | .rdn => neg
  | .rup => !neg

/-- The result of an overflow, or of an infinite input when `away` is set (R89). -/
def Fmt.over (f : Fmt) (ofn neg away : Bool) : Nat :=
  let most := f.join neg f.maxMag
  if f.narrow && !ofn then most
  else match f.top with
    | .ieee => if away then f.join neg f.infMag else most
    | .e4m3 => if away then f.nan else most
    | .full => most

/-- A chosen neighbour encoded, with overflow (R88, R89). -/
def Fmt.finish (f : Fmt) (mode : Rnd) (ofn neg : Bool) (m : Nat) (q : Int) : Nat :=
  let mag := f.mag m q
  if f.maxMag < mag then f.over ofn neg (toInf mode neg) else f.join neg mag

/-- `round` of R88 with R89, on every value. A zero keeps its sign, an operand −0 of a conversion too (DESIGN CHOICE, log entry
66). -/
def Fmt.round (f : Fmt) (mode : Rnd) (ofn : Bool) (u : Nat) : Ext → Nat
  | .nan => f.nan
  | .inf neg => f.over ofn neg true
  | .fin neg num den =>
    if num = 0 then f.join neg 0
    else
      let q := f.grid (fracLog num den)
      f.finish mode ofn neg (choose mode neg u (onGrid num den q)) q

/-! ### Exact arithmetic (R86) -/

def signed (neg : Bool) (n : Nat) : Int := if neg then -(n : Int) else n

/-- An exact sum of fractions; an exact zero is +0, and −0 under RDN or when both are −0 (R86). -/
def Ext.add (mode : Rnd) : Ext → Ext → Ext
  | .nan, _ | _, .nan => .nan
  | .inf s, .inf t => if s = t then .inf s else .nan
  | .inf s, .fin _ _ _ => .inf s
  | .fin _ _ _, .inf t => .inf t
  | .fin s a b, .fin t c d =>
    let y := signed s (a * d) + signed t (c * b)
    if y = 0 then .fin (if a = 0 ∧ c = 0 ∧ s = t then s else mode == .rdn) 0 1 else .fin (y < 0) y.natAbs (b * d)

def Ext.neg : Ext → Ext
  | .nan => .nan
  | .inf s => .inf !s
  | .fin s a b => .fin (!s) a b

def Ext.isZero : Ext → Bool
  | .fin _ 0 _ => true
  | _ => false

def Ext.mul : Ext → Ext → Ext
  | .nan, _ | _, .nan => .nan
  | .inf s, .inf t => .inf (s != t)
  | .inf s, .fin t a _ | .fin t a _, .inf s => if a = 0 then .nan else .inf (s != t)
  | .fin s a b, .fin t c d => .fin (s != t) (a * c) (b * d)

/-- `1 / a` (R173, R174). -/
def Ext.recip : Ext → Ext
  | .nan => .nan
  | .inf s => .fin s 0 1
  | .fin s a b => if a = 0 then .inf s else .fin s b a

/-- The order of two values; none when either is NaN (R172). -/
def Ext.cmp : Ext → Ext → Option Ordering
  | .nan, _ | _, .nan => none
  | .inf s, .inf t => some (compare (signed s 1) (signed t 1))
  | .inf s, .fin _ _ _ => some (if s then .lt else .gt)
  | .fin _ _ _, .inf t => some (if t then .gt else .lt)
  | .fin s a b, .fin t c d => some (compare (signed s (a * d)) (signed t (c * b)))

/-! ### The stochastic generator (R91, R92) -/

/-- One step of a lane's generator. -/
def genStep (s : Word) : Word :=
  let a := s ^^^ (s <<< 13)
  let b := a ^^^ (a >>> 17)
  let c := b ^^^ (b <<< 5)
  if c = 0#32 then 1#32 else c

/-- The state after `n` steps. -/
def genAfter (s : Word) : Nat → Word
  | 0 => s
  | n + 1 => genStep (genAfter s n)

/-- The draw of element `i` of an instruction: the state after its step; 0 outside RS, where none is taken. -/
def drawOf (mode : Rnd) (seed : Word) (i : Nat) : Nat := if mode = .rs then (genAfter seed (i + 1)).toNat else 0

/-- Every lane of `m` takes `n` steps at the issue of an instruction that rounds under RS (R92, R169). -/
def State.stepSeeds (s : State) (mode : Rnd) (m : Mask) (n : Nat) : State :=
  let new := lanesOf fun l => if m.has l then genAfter (lane s.me.seeds l) n else lane s.me.seeds l
  if mode = .rs then { s with me := { s.me with seeds := new } } else s

/-! ### Conversion (R90) -/

def fmtOf : ETy → Option Fmt
  | .f32 => some fmtF32 | .f19 => some fmtF19 | .bf16 => some fmtBF16 | .f16 => some fmtF16 | .e5m2 => some fmtE5M2
  | .e4m3 => some fmtE4M3 | .e3m2 => some fmtE3M2 | .e2m3 => some fmtE2M3 | .e2m1 => some fmtE2M1 | _ => none

/-- A value of any element type. -/
inductive Num
  | fl (x : Ext)
  | int (x : Int)
  deriving DecidableEq, Repr

/-- A ternary code (R84). -/
def ternary (c : Nat) : Int := match c % 4 with
  | 1 => 1
  | 3 => -1
  | _ => 0

/-- An `n`-bit integer, two's complement or unsigned. -/
def intOf (sgn : Bool) (n x : Nat) : Int := if sgn then sextOf x n else (x % 2 ^ n : Nat)

/-- Width and signedness of the integer types. -/
def intTy : ETy → Option (Nat × Bool)
  | .i8 => some (8, true) | .i16 => some (16, true) | .i32 => some (32, true) | .i64 => some (64, true)
  | .n8 => some (8, false) | .n16 => some (16, false) | .n32 => some (32, false) | .n64 => some (64, false) | _ => none

/-- An element read in a type. -/
def readNum (ts : ETy) (bits : Nat) : Num := match fmtOf ts with
  | some f => .fl (f.value bits)
  | none => match intTy ts with
    | some (n, sg) => .int (intOf sg n bits)
    | none => match ts with
      | .t2 => .int (ternary bits)
      | _ => .int (if bits % 2 = 1 then 1 else -1)

/-- A value rounded to an integer under a mode and saturated; NaN gives 0 (R90). -/
def toIntSat (mode : Rnd) (u : Nat) (lo hi : Int) : Ext → Int
  | .nan => 0
  | .inf neg => if neg then lo else hi
  | .fin neg num den => satTo (signed neg (choose mode neg u (between num den))) lo hi

def Ext.ofInt (x : Int) : Ext := .fin (decide (x < 0)) x.natAbs 1

/-- A value converted to an integer of `n` bits (R90); `sat` matters for an integer source only. -/
def numToInt (n : Nat) (sg : Bool) (mode : Rnd) (sat : Bool) (u : Nat) (x : Num) : Nat :=
  let lo : Int := if sg then -(2 ^ (n - 1) : Int) else 0
  let hi : Int := if sg then (2 ^ (n - 1) : Int) - 1 else (2 ^ n : Int) - 1
  match x with
  | .fl e => modTwo (toIntSat mode u lo hi e) n
  | .int y => modTwo (if sat then satTo y lo hi else y) n

/-- A value converted to a type (R89, R90). -/
def writeNum (td : ETy) (mode : Rnd) (ofn sat : Bool) (u : Nat) (x : Num) : Nat := match fmtOf td with
  | some f => match x with
    | .fl e => f.round mode ofn u e
    | .int y => f.round mode ofn u (Ext.ofInt y)
  | none => match intTy td with
    | some (n, sg) => numToInt n sg mode sat u x
    | none => match td with
      | .t2 => match x with
        | .fl e => modTwo (toIntSat mode u (-1) 1 e) 2
        | .int y => modTwo (satTo y (-1) 1) 2
      | _ => match x with
        | .fl .nan => 1
        | .fl (.inf neg) => if neg then 0 else 1
        | .fl (.fin neg _ _) => if neg then 0 else 1
        | .int y => if 0 ≤ y then 1 else 0

/-- Whether an encoding of a floating-point type is a NaN. -/
def isNanOf (t : ETy) (bits : Nat) : Bool := match fmtOf t with
  | some f => f.value bits == .nan
  | none => false

/-- A conversion of one element (R90): to its own floating-point type every value but a NaN keeps its encoding (R176), of which
an FP19 container has bits [12:0] zero (R80). -/
def convert (td ts : ETy) (mode : Rnd) (ofn sat : Bool) (u bits : Nat) : Nat :=
  if td = ts ∧ (fmtOf td).isSome ∧ isNanOf td bits = false then (if td = .f19 then bits - bits % 2 ^ 13 else bits)
  else writeNum td mode ofn sat u (readNum ts bits)

/-! ### Roots and the special functions (R173) -/

/-- The integer square root, from `k` result bits. -/
def isqrtBits (n : Nat) : Nat → Nat → Nat
  | 0, r => r
  | k + 1, r => isqrtBits n k (if (r + 2 ^ k) * (r + 2 ^ k) ≤ n then r + 2 ^ k else r)
def isqrt (n : Nat) : Nat := isqrtBits n (Nat.log2 n / 2 + 1) 0

/-- The square root of `num / den` on the grid of unit `2 ^ q`. -/
def sqrtOnGrid (num den : Nat) (q : Int) : Between :=
  let n := if 0 ≤ q then num else num * 2 ^ (-2 * q).toNat
  let d := if 0 ≤ q then den * 2 ^ (2 * q).toNat else den
  let m := isqrt (n / d)
  ⟨m, compare (4 * n) ((2 * m + 1) * (2 * m + 1) * d), m * m * d == n, isqrt (n * 2 ^ 64 / d) - m * 2 ^ 32⟩

/-- `fsqrt` (R173, R174). -/
def sqrtBits (mode : Rnd) (u : Nat) : Ext → Nat
  | .nan => fmtF32.nan
  | .inf neg => if neg then fmtF32.nan else fmtF32.join false fmtF32.infMag
  | .fin neg num den =>
    if num = 0 then fmtF32.join neg 0
    else if neg then fmtF32.nan
    else
      let q := fmtF32.grid (fracLog num den / 2)
      fmtF32.finish mode true false (choose mode false u (sqrtOnGrid num den q)) q

/-- The unit of the fixed-point values below, `2 ^ 256`. -/
def fixUnit : Nat := 2 ^ 256

/-- Whether an FP32 encoding lies within 2 units in the last place of the exact value, of which `v / 2^256` is an
approximation to within `2 ^ -160`, by which the test is the stricter (R173). -/
def within2 (v : Int) (bits : Nat) : Bool :=
  let ulp : Int := if v = 0 then -149 else fmtF32.grid (fracLog v.natAbs fixUnit)
  match fmtF32.value bits with
  | .fin neg num den =>
    ((signed neg num * (fixUnit : Int) - v * (den : Int)).natAbs : Int)
      ≤ (2 * 2 ^ (256 + ulp).toNat - 2 ^ 96) * (den : Int)
  | .inf neg => fmtF32.infMag ≤ fmtF32.round .rne true 0 (.fin neg (v.natAbs + 2 ^ (257 + ulp).toNat - 2 ^ 96) fixUnit) % 2 ^ 31
  | .nan => false

/-- A result inside the bound: the free value where it is inside, else the approximation rounded (log entry 1). -/
def boundedBits (free : Word) (v : Int) : Nat :=
  if within2 v free.toNat then free.toNat else fmtF32.round .rne true 0 (.fin (decide (v < 0)) v.natAbs fixUnit)

/-- `frsq` (R173, R174). -/
def rsqBits (a : Word) : Nat := match fmtF32.value a.toNat with
  | .nan => fmtF32.nan
  | .inf neg => if neg then fmtF32.nan else 0
  | .fin neg num den =>
    if num = 0 then fmtF32.join neg fmtF32.infMag
    else if neg then fmtF32.nan
    else boundedBits (Config.frsqFree a) (isqrt (den * fixUnit * fixUnit / num) : Nat)

/-- `ln 2` and `π` times `2 ^ 256`, by the series of `2 * atanh (1/3)` and Machin's formula. -/
def atanhInv (n : Nat) : Nat :=
  (List.range 120).foldl (fun s i => s + fixUnit / (n ^ (2 * i + 1) * (2 * i + 1))) 0
def atanInv (n : Nat) : Int :=
  (List.range 160).foldl (fun (s : Int) i =>
    let t : Int := (fixUnit / (n ^ (2 * i + 1) * (2 * i + 1)) : Nat)
    if i % 2 = 0 then s + t else s - t) 0
def ln2Fix : Nat := 2 * atanhInv 3
def piFix : Int := 16 * atanInv 5 - 4 * atanInv 239

/-- `e ^ (x / 2^256)` times `2 ^ 256`, for `0 ≤ x ≤ 2 ^ 256`. -/
def expFix (x : Nat) : Nat :=
  ((List.range 80).foldl (fun (st : Nat × Nat) i => (st.1 + st.2, st.2 * x / (fixUnit * (i + 1)))) (0, fixUnit)).1

/-- `fex2` (R173, R174): exact at integers. -/
def ex2Bits (a : Word) : Nat := match fmtF32.value a.toNat with
  | .nan => fmtF32.nan
  | .inf neg => if neg then 0 else fmtF32.join false fmtF32.infMag
  | .fin neg num den =>
    let k : Int := signed neg num / (den : Int)
    let frac : Nat := (signed neg num - k * (den : Int)).toNat
    if 128 ≤ k then fmtF32.join false fmtF32.infMag
    else if frac = 0 ∧ -149 ≤ k then
      fmtF32.round .rne true 0 (if 0 ≤ k then .fin false (2 ^ k.toNat) 1 else .fin false 1 (2 ^ (-k).toNat))
    else if k < -200 then boundedBits (Config.fex2Free a) 0
    else
      let e := expFix (frac * ln2Fix / den)
      boundedBits (Config.fex2Free a) (if 0 ≤ k then (e * 2 ^ k.toNat : Nat) else (e / 2 ^ (-k).toNat : Nat))

/-- The natural logarithm of `m / d` times `2 ^ 256`, for `1 / 2 ≤ m / d ≤ 2`. -/
def lnFix (m d : Nat) : Int :=
  let up : Int := (m : Int) - d
  let z : Int := up * (fixUnit : Int) / ((m : Int) + d)
  let z2 : Int := z * z / (fixUnit : Int)
  2 * ((List.range 110).foldl (fun (st : Int × Int) i =>
    (st.1 + st.2 / ((2 * i + 1 : Nat) : Int), st.2 * z2 / (fixUnit : Int))) (0, z)).1

/-- `flg2` (R173, R174): exact at powers of two. -/
def lg2Bits (a : Word) : Nat := match fmtF32.value a.toNat with
  | .nan => fmtF32.nan
  | .inf neg => if neg then fmtF32.nan else fmtF32.join false fmtF32.infMag
  | .fin neg num den =>
    if num = 0 then fmtF32.join true fmtF32.infMag
    else if neg then fmtF32.nan
    else
      let k := fracLog num den
      let n := if 0 ≤ k then num else num * 2 ^ (-k).toNat
      let d := if 0 ≤ k then den * 2 ^ k.toNat else den
      if n = d then fmtF32.round .rne true 0 (Ext.ofInt k)
      else if k = -1 then boundedBits (Config.flg2Free a) (lnFix num den * (fixUnit : Int) / (ln2Fix : Int))
      else boundedBits (Config.flg2Free a) (k * (fixUnit : Int) + lnFix n d * (fixUnit : Int) / (ln2Fix : Int))

/-- The sine of `x / 2^256`, for `x` of either sign up to about `2 ^ 258`, times `2 ^ 256`. -/
def sinFix (x : Int) : Int :=
  let x2 := x * x / (fixUnit : Int)
  ((List.range 60).foldl (fun (st : Int × Int) i =>
    (st.1 + st.2, -(st.2 * x2) / ((fixUnit : Int) * (((2 * i + 2) * (2 * i + 3) : Nat) : Int)))) (0, x)).1

/-- `fsin` and `fcos` of a finite value, with their free value: within `2 ^ -22` up to 128 π, in [−1, 1] beyond (R173). -/
def trigBits (free : Word) (shift : Int) (neg : Bool) (num den : Nat) : Nat :=
  let x : Int := signed neg num * (fixUnit : Int) / (den : Int)
  if (x.natAbs : Int) ≤ 128 * piFix then
    let v := sinFix ((x + shift + piFix) % (2 * piFix) - piFix)
    let ok : Bool := match fmtF32.value free.toNat with
      | .fin s n d => ((signed s n * (fixUnit : Int) - v * (d : Int)).natAbs : Int) ≤ (2 ^ 234 - 2 ^ 96) * (d : Int)
      | _ => false
    if ok then free.toNat else fmtF32.round .rne true 0 (.fin (decide (v < 0)) v.natAbs fixUnit)
  else match fmtF32.value free.toNat with
    | .fin s n d => if n ≤ d then free.toNat else fmtF32.join s 0x3F800000
    | _ => 0

def sinBits (a : Word) : Nat := match fmtF32.value a.toNat with
  | .nan | .inf _ => fmtF32.nan
  | .fin neg num den => if num = 0 then fmtF32.join neg 0 else trigBits (Config.fsinFree a) 0 neg num den
def cosBits (a : Word) : Nat := match fmtF32.value a.toNat with
  | .nan | .inf _ => fmtF32.nan
  | .fin neg num den =>
    if num = 0 then 0x3F800000 else trigBits (Config.fcosFree a) (piFix / 2) neg num den

end Sys2Proof.Machine
end

