-- ==== Sys2Proof/Machine/Float.lean ====
section
/-! DEFINITION. Machine/Float.lean: floating-point arithmetic, comparison, special functions, conversion, packing and block
scaling (R167 to R182). -/

namespace Sys2Proof.Machine

def fTy : FTy → Fmt
  | .f32 => fmtF32 | .f16 => fmtF16 | .bf16 => fmtBF16
def fWidth : FTy → Nat
  | .f32 => 32 | .f16 => 16 | .bf16 => 16
/-- The elements that a lane's form computes (R167). -/
def fCount (ty : FTy) (lo : Bool) : Nat := if lo then 1 else 32 / fWidth ty
/-- Element `i` of a lane value. -/
def fElem (ty : FTy) (x : Word) (i : Nat) : Nat := x.toNat / 2 ^ (fWidth ty * i) % 2 ^ fWidth ty
/-- Results packed under R85; the `.lo` form leaves the upper half zero. -/
def fPack (ty : FTy) (lo : Bool) (r : Nat → Nat) : Word :=
  BitVec.ofNat 32 ((List.range (fCount ty lo)).foldl (fun x i => x + r i * 2 ^ (fWidth ty * i)) 0)

/-- A fixed-latency instruction that takes `n` generator steps per active lane under RS (R92, R169). -/
def State.falu (s : State) (i : Instr) (h : Hd) (n : Need8) (lat : Nat) (mode : Rnd) (steps : Nat)
    (ws : State → List Wr) : Out :=
  s.gate i h n fun t =>
    let u := t.stepSeeds mode (t.active h) steps
    ((u.noteWrites (ws t)).land lat (ws t)).retire h i.bytes

/-! ### Arithmetic (R170) -/

/-- The exact result of two or three operands, rounded once. -/
def State.arith (s : State) (i : Instr) (x : VA) (rd : List Rd) (ty : FTy) (lo : Bool) (rnd : Rnd)
    (f : Ext → Ext → Nat → Nat → Ext) : Out :=
  s.falu i x.h { reads := rdV x.a :: rdB x.b ++ rd } 6 rnd (fCount ty lo) fun t =>
    t.toV x.h x.d fun l => fPack ty lo fun e =>
      (fTy ty).round rnd true (drawOf rnd (lane t.me.seeds l) e)
        (f ((fTy ty).value (fElem ty (lane (t.v x.a) l) e)) ((fTy ty).value (fElem ty (lane (t.b x.b) l) e)) l e)

def execFadd (x : VA) (s : State) : Out :=
  s.arith (.fadd x) x [] .f32 false .rne fun a b _ _ => a.add .rne b
def execFaddX (x : VA) (ty : FTy) (lo : Bool) (rnd : Rnd) (s : State) : Out :=
  s.arith (.faddX x ty lo rnd) x [] ty lo rnd fun a b _ _ => a.add rnd b
def execFsub (x : VA) (s : State) : Out :=
  s.arith (.fsub x) x [] .f32 false .rne fun a b _ _ => a.add .rne b.neg
def execFsubX (x : VA) (ty : FTy) (lo : Bool) (rnd : Rnd) (s : State) : Out :=
  s.arith (.fsubX x ty lo rnd) x [] ty lo rnd fun a b _ _ => a.add rnd b.neg
def execFmul (x : VA) (s : State) : Out := s.arith (.fmul x) x [] .f32 false .rne fun a b _ _ => a.mul b
def execFmulX (x : VA) (ty : FTy) (lo : Bool) (rnd : Rnd) (s : State) : Out :=
  s.arith (.fmulX x ty lo rnd) x [] ty lo rnd fun a b _ _ => a.mul b
def execFfma (x : VA) (ty : FTy) (lo : Bool) (rnd : Rnd) (c : VReg) (s : State) : Out :=
  s.arith (.ffma x ty lo rnd c) x [rdV c] ty lo rnd fun a b l e =>
    (a.mul b).add rnd ((fTy ty).value (fElem ty (lane (s.v c) l) e))

/-! ### Minimum, maximum and comparison (R171, R172) -/

/-- The operand that `fmin` (`up` false) or `fmax` chooses, its encoding unchanged; −0 lies below +0. -/
def minmaxBits (f : Fmt) (up : Bool) (a b : Nat) : Nat :=
  let neg (x : Nat) : Bool := x.testBit (f.ex + f.man)
  match f.value a, f.value b with
  | .nan, .nan => f.nan
  | .nan, _ => b
  | _, .nan => a
  | x, y =>
    let less := match x.cmp y with
      | some .lt => true
      | some .eq => neg a && !neg b
      | _ => false
    if less = up then b else a

def State.fminmax (s : State) (i : Instr) (x : VA) (ty : FTy) (lo up : Bool) : Out :=
  s.alu i x.h { reads := rdV x.a :: rdB x.b } 6 fun t =>
    t.toV x.h x.d fun l => fPack ty lo fun e =>
      minmaxBits (fTy ty) up (fElem ty (lane (t.v x.a) l) e) (fElem ty (lane (t.b x.b) l) e)
def execFmin (x : VA) (s : State) : Out := s.fminmax (.fmin x) x .f32 false false
def execFminX (x : VA) (ty : FTy) (lo : Bool) (s : State) : Out := s.fminmax (.fminX x ty lo) x ty lo false
def execFmax (x : VA) (s : State) : Out := s.fminmax (.fmax x) x .f32 false true
def execFmaxX (x : VA) (ty : FTy) (lo : Bool) (s : State) : Out := s.fminmax (.fmaxX x ty lo) x ty lo true

/-- Whether a condition holds for every computed element. -/
def fcmpLane (ty : FTy) (lo : Bool) (cc : FCC) (a b : Word) : Bool :=
  (List.range (fCount ty lo)).all fun e =>
    fccHolds cc (((fTy ty).value (fElem ty a e)).cmp ((fTy ty).value (fElem ty b e)))
def State.fcompare (s : State) (i : Instr) (h : Hd) (cc : FCC) (p : PReg) (a : VReg) (b : OpB) (ty : FTy) (lo : Bool) :
    Out :=
  s.alu i h { reads := rdV a :: rdB b } 4 fun t => t.toP h p fun l => fcmpLane ty lo cc (lane (t.v a) l) (lane (t.b b) l)
def execFcmp (h : Hd) (cc : FCC) (p : PReg) (a : VReg) (b : OpB) (s : State) : Out :=
  s.fcompare (.fcmp h cc p a b) h cc p a b .f32 false
def execFcmpX (h : Hd) (cc : FCC) (p : PReg) (a : VReg) (b : OpB) (ty : FTy) (lo : Bool) (s : State) : Out :=
  s.fcompare (.fcmpX h cc p a b ty lo) h cc p a b ty lo

/-! ### Special functions (R173, R174) -/

def State.special (s : State) (i : Instr) (x : U) (rnd : Rnd) (f : Word → Nat → Nat) : Out :=
  s.falu i x.h { reads := [rdV x.a] } 16 rnd 1 fun t =>
    t.toV x.h x.d fun l => BitVec.ofNat 32 (f (lane (t.v x.a) l) (drawOf rnd (lane t.me.seeds l) 0))

def recipBits (rnd : Rnd) (a : Word) (u : Nat) : Nat := fmtF32.round rnd true u (fmtF32.value a.toNat).recip
def rootBits (rnd : Rnd) (a : Word) (u : Nat) : Nat := sqrtBits rnd u (fmtF32.value a.toNat)

def execFrcp (x : U) (s : State) : Out := s.special (.frcp x) x .rne (recipBits .rne)
def execFrcpX (x : U) (rnd : Rnd) (s : State) : Out := s.special (.frcpX x rnd) x rnd (recipBits rnd)
def execFsqrt (x : U) (s : State) : Out := s.special (.fsqrt x) x .rne (rootBits .rne)
def execFsqrtX (x : U) (rnd : Rnd) (s : State) : Out := s.special (.fsqrtX x rnd) x rnd (rootBits rnd)
def execFrsq (x : U) (s : State) : Out := s.special (.frsq x) x .rne fun a _ => rsqBits a
def execFrsqX (x : U) (s : State) : Out := s.special (.frsqX x) x .rne fun a _ => rsqBits a
def execFex2 (x : U) (s : State) : Out := s.special (.fex2 x) x .rne fun a _ => ex2Bits a
def execFex2X (x : U) (s : State) : Out := s.special (.fex2X x) x .rne fun a _ => ex2Bits a
def execFlg2 (x : U) (s : State) : Out := s.special (.flg2 x) x .rne fun a _ => lg2Bits a
def execFlg2X (x : U) (s : State) : Out := s.special (.flg2X x) x .rne fun a _ => lg2Bits a
def execFsin (x : U) (s : State) : Out := s.special (.fsin x) x .rne fun a _ => sinBits a
def execFsinX (x : U) (s : State) : Out := s.special (.fsinX x) x .rne fun a _ => sinBits a
def execFcos (x : U) (s : State) : Out := s.special (.fcos x) x .rne fun a _ => cosBits a
def execFcosX (x : U) (s : State) : Out := s.special (.fcosX x) x .rne fun a _ => cosBits a

/-! ### Conversion (R175, R176) -/

/-- Bits `[hi+w-1 : hi]` of a word. -/
def fieldOf (x : Word) (hi w : Nat) : Nat := x.toNat / 2 ^ hi % 2 ^ w

/-- The target elements of one lane, as their bits in place, and the bits that are written. -/
def fcvtLane (td ts : ETy) (se : Nat) (ofn sat : Bool) (rnd : Rnd) (seed a : Word) : Nat :=
  let ws := ts.width
  let wd := td.width
  let n := 32 / Nat.max ws wd
  (List.range n).foldl (fun x i =>
    let j := if ws < wd then i + se * n else i
    let k := if wd < ws then i + se * n else i
    x + convert td ts rnd ofn sat (drawOf rnd seed i) (fieldOf a (ws * j) ws) * 2 ^ (wd * k)) 0
def fcvtMask (td ts : ETy) (se : Nat) : Nat :=
  let ws := ts.width
  let wd := td.width
  let n := 32 / Nat.max ws wd
  (List.range n).foldl (fun x i => x + (2 ^ wd - 1) * 2 ^ (wd * (if wd < ws then i + se * n else i))) 0

def execFcvt (x : U) (td ts : ETy) (sel : Fin 8) (ofn sat : Bool) (rnd : Rnd) (s : State) : Out :=
  let n := 32 / Nat.max ts.width td.width
  s.falu (.fcvt x td ts sel ofn sat rnd) x.h { reads := [rdV x.a] } 6 rnd n fun t =>
    [.vbits (t.phys x.d) (t.active x.h) (Vector.replicate 32 (BitVec.ofNat 32 (fcvtMask td ts sel.val)))
      (lanesOf fun l => BitVec.ofNat 32 (fcvtLane td ts sel.val ofn sat rnd (lane t.me.seeds l) (lane (t.v x.a) l)))]

/-! ### Packing (R177, R178) -/

/-- `n` registers of one lane from `r` on, as a stream (R79). -/
def State.stream (s : State) (r : VReg) (n l : Nat) : Nat :=
  (List.range n).foldl (fun x j => x + (lane (s.vAt r j) l).toNat * 2 ^ (32 * j)) 0

/-- Writes of a stream of `n` registers from `vr` on: the bits of the mask in the lanes of `m` (R169). -/
def State.streamWr (s : State) (r : VReg) (n : Nat) (m : Mask) (mask : Nat) (x : Nat → Nat) : List Wr :=
  (List.range n).map fun j =>
    .vbits (s.phys r + j) m (Vector.replicate 32 (BitVec.ofNat 32 (mask / 2 ^ (32 * j))))
      (lanesOf fun l => BitVec.ofNat 32 (x l / 2 ^ (32 * j)))

/-- Elements converted from one stream to another: `n` elements, from positions `o1 + j` of width `w1` to `o2 + j` of width
`w2`. -/
def recode (td ts : ETy) (rnd : Rnd) (seed : Word) (n o1 o2 src : Nat) : Nat :=
  (List.range n).foldl (fun x j =>
    x + convert td ts rnd false false (drawOf rnd seed j) (src / 2 ^ (ts.width * (o1 + j)) % 2 ^ ts.width)
      * 2 ^ (td.width * (o2 + j))) 0

def State.pack (s : State) (i : Instr) (x : U) (td ts : ETy) (o1 o2 n : Nat) (rnd : Rnd) : Out :=
  let src := ceilDiv ((o1 + n) * ts.width) 32
  let dst := ceilDiv ((o2 + n) * td.width) 32
  s.falu i x.h { reads := [.v x.a.val src] } 6 rnd n fun t =>
    t.streamWr x.d dst (t.active x.h) ((2 ^ (td.width * n) - 1) * 2 ^ (td.width * o2))
      fun l => recode td ts rnd (lane t.me.seeds l) n o1 o2 (t.stream x.a src l)
def execFpk (x : U) (td ts : ETy) (o : Fin 64) (k : Fin 32) (rnd : Rnd) (s : State) : Out :=
  s.pack (.fpk x td ts o k rnd) x td ts 0 o.val (k.val + 1) rnd
def execFunpk (x : U) (td ts : ETy) (o : Fin 64) (k : Fin 32) (rnd : Rnd) (s : State) : Out :=
  s.pack (.funpk x td ts o k rnd) x td ts o.val 0 (k.val + 1) rnd

/-! ### Block scaling (R179 to R181) -/

/-- Width of a narrow element of R179. -/
def blkWidth (td : ETy) (i4 : Bool) : Nat := if i4 then 4 else td.width
/-- Wide element `j` of lane `l` (R179). -/
def State.wide (s : State) (ty : ETy) (r : VReg) (l j : Nat) : Nat :=
  if ty.width = 32 then (lane (s.vAt r j) l).toNat else fieldOf (lane (s.vAt r (j / 2)) l) (16 * (j % 2)) 16

def blkEmax : ETy → Bool → Int
  | .e5m2, _ => 15 | .e4m3, _ => 8 | .e3m2, _ => 4 | .e2m3, _ => 2 | .e2m1, _ => 2 | .i8, true => 2 | _, _ => 6
/-- `maxf` in halves. -/
def blkMaxf2 : ETy → Bool → Nat
  | .e5m2, _ => 114688 | .e4m3, _ => 896 | .e3m2, _ => 56 | .e2m3, _ => 15 | .e2m1, _ => 12 | .i8, true => 14 | _, _ => 254

/-- The magnitudes of a list of finite values as fractions over the denominator of the first, or none when one is NaN or
infinite. All values of one type have one denominator (R80). -/
def magnitudes : List Ext → Option (List (Nat × Nat))
  | [] => some []
  | .fin _ n d :: xs => (magnitudes xs).map ((n, d) :: ·)
  | _ :: _ => none

/-- The scale of a block (R180). -/
def blockScale (td : ETy) (ce i4 : Bool) (vs : List Ext) : Nat := match magnitudes vs with
  | none => if td = .t2 then 0x7E00 else 0xFF
  | some ms =>
    let den := (ms.head?.map fun m => m.2).getD 1
    if td = .t2 then
      fmtF16.round .rne true 0 (.fin false (ms.foldl (fun x m => x + m.1) 0) (den * 128))
    else
      let m := ms.foldl (fun x m => Nat.max x m.1) 0
      let e : Int :=
        if m = 0 then 0
        else if ce then
          let n := 2 * m
          let d := den * blkMaxf2 td i4
          let f := fracLog n d
          if (if 0 ≤ f then n == d * 2 ^ f.toNat else n * 2 ^ (-f).toNat == d) then f else f + 1
        else fracLog m den - blkEmax td i4
      (satTo e (-127) 127 + 127).toNat

def execBscl (h : Hd) (d : SReg) (a : VReg) (td ts : ETy) (ce i4 : Bool) (s : State) : Out :=
  s.alu (.bscl h d a td ts ce i4) h { reads := [.v a.val (blkRegs ts)] } 8 fun t =>
    let vs := (t.active h).list.map fun l => (List.range 4).map fun j => match readNum ts (t.wide ts a l j) with
      | .fl e => e
      | .int _ => .nan
    [.s d.val (BitVec.ofNat 64 (blockScale td ce i4 vs.flatten))]

/-- The value of a block's scale (R82, R83, R179). -/
def scaleOf (narrow : ETy) (x : Nat) : Ext :=
  if narrow = .t2 then fmtF16.value (x % 2 ^ 16)
  else if x % 256 = 255 then .nan
  else .fin false (2 ^ (x % 256)) (2 ^ 127)

/-- A narrow element from a wide value (R181). A zero quotient has the sign of `x` (DESIGN CHOICE, log entry 66). -/
def quantBits (td : ETy) (i4 ofn : Bool) (rnd : Rnd) (u : Nat) (sc x : Ext) : Nat :=
  let conv (y : Ext) : Nat :=
    if i4 then modTwo (toIntSat rnd u (-8) 7 y) 4 else writeNum td rnd ofn false u (.fl y)
  match sc with
  | .nan => match fmtOf td with
    | some f => f.nan
    | none => 0
  | .inf _ => 0
  | .fin _ n _ => if td = .t2 && n == 0 then 0 else conv (x.mul sc.recip)

def execBqnt (h : Hd) (d a : VReg) (b : SReg) (td ts : ETy) (ofn i4 : Bool) (rnd : Rnd) (s : State) : Out :=
  s.falu (.bqnt h d a b td ts ofn i4 rnd) h { reads := [.v a.val (blkRegs ts), rdS b] } 6 rnd 4 fun t =>
    let w := blkWidth td i4
    let sc := scaleOf td (t.s b).toNat
    t.toV h d fun l => BitVec.ofNat 32 ((List.range 4).foldl (fun y j =>
      let x := match readNum ts (t.wide ts a l j) with
        | .fl e => e
        | .int _ => .nan
      y + quantBits td i4 ofn rnd (drawOf rnd (lane t.me.seeds l) j) sc x * 2 ^ (w * j)) 0)

/-- A wide element from a narrow one (R181). A zero product has the exclusive or of the two signs (DESIGN CHOICE, log entry
66). -/
def dequantBits (td ts : ETy) (i4 : Bool) (rnd : Rnd) (u : Nat) (sc : Ext) (bits : Nat) : Nat :=
  let f := (fmtOf td).getD fmtF32
  let q := if i4 then .int (sextOf bits 4) else readNum ts bits
  let y : Ext := match q with
    | .fl e => e
    | .int n => Ext.ofInt n
  if y.isZero then f.round rnd true u y
  else match sc with
    | .nan => f.nan
    | _ => f.round rnd true u (y.mul sc)

def execBdeq (h : Hd) (d a : VReg) (b : SReg) (td ts : ETy) (i4 : Bool) (rnd : Rnd) (s : State) : Out :=
  s.falu (.bdeq h d a b td ts i4 rnd) h { reads := [rdV a, rdS b] } 6 rnd 4 fun t =>
    let w := blkWidth ts i4
    let sc := scaleOf ts (t.s b).toNat
    let el (l j : Nat) : Nat :=
      dequantBits td ts i4 rnd (drawOf rnd (lane t.me.seeds l) j) sc (fieldOf (lane (t.v a) l) (w * j) w)
    (List.range (blkRegs td)).map fun r => .v (t.phys d + r) (t.active h) (lanesOf fun l => BitVec.ofNat 32
      (if td.width = 32 then el l r else el l (2 * r) + el l (2 * r + 1) * 2 ^ 16))

/-! ### The generator (R182) -/

def State.reseed (s : State) (i : Instr) (h : Hd) (a : VReg) : Out :=
  s.gate i h { reads := [rdV a] } fun t =>
    let new := blend (t.active h) (t.v a) t.me.seeds
    let u := if new = t.me.seeds then t else t.spoil
    ({ u with me := { u.me with seeds := new } }).retire h i.bytes
def execRseed (h : Hd) (a : VReg) (s : State) : Out := s.reseed (.rseed h a) h a
def execRseedX (h : Hd) (a : VReg) (s : State) : Out := s.reseed (.rseedX h a) h a

end Sys2Proof.Machine
end

