-- ==== Sys2Proof/Machine/Merge.lean ====
section
/-! DEFINITION. Machine/Merge.lean: slots of a core (R40, R66, R449, R485), merging (R48, R49), join points (R50, R443) and
the end of a split (R52, R139, R285). -/

namespace Sys2Proof.Machine

/-! ### Slots -/

/-- Splits that hold a slot of a core. -/
def State.splitsOn (s : State) (k c : Nat) : List Split :=
  s.allSplits.filter fun (w : Split) => w.resident && w.stack == k && w.core == c
/-- The split slots in use, those of shadows included (R449). -/
def State.takenSlots (s : State) (k c : Nat) : List Nat :=
  ((s.splitsOn k c).map fun (w : Split) => w.slot :: w.shSlot.toList).flatten
def State.slotsOn (s : State) (k c : Nat) : List GroupSlot :=
  s.allSlots.filter fun (g : GroupSlot) => g.stack == k && g.core == c
def State.takenGslots (s : State) (k c : Nat) : List Nat :=
  ((s.slotsOn k c).map fun (g : GroupSlot) => g.gslot :: g.shGslot.toList).flatten

/-- Cores and tiles in service (R485). -/
def coreServed (svc : Dword) (c : Nat) : Bool := svc.getLsbD c
def tilesServed (svc : Dword) (c : Nat) : Nat := bitsOf svc.toNat (7 * c + 14) (7 * c + 8)

/-- The lowest free split slot of the pipe with the fewest residents (R66). -/
def pickSlot (taken : List Nat) : Option Nat :=
  let load (p : Nat) : Nat := (taken.filter fun t => t % 4 == p).length
  let ps := (List.range 4).filter fun p => load p < 8
  match ps with
  | [] => none
  | p :: rest =>
    let best := rest.foldl (fun b q => if load q < load b then q else b) p
    ((List.range 8).map fun j => 4 * j + best).find? fun t => !taken.contains t

/-- A slot for a split, and one for its shadow when it has one: the lowest free one on another pipe (R66, R449). -/
def pickSlots (taken : List Nat) (shadow : Bool) : Option (Nat × Option Nat) := match pickSlot taken with
  | none => none
  | some a =>
    if shadow then match (List.range 32).find? fun t => t % 4 != a % 4 && !taken.contains t with
      | none => none
      | some b => some (a, some b)
    else some (a, none)

def pickGslot (taken : List Nat) : Option Nat := (List.range 16).find? fun g => !taken.contains g
def pickGslots (taken : List Nat) (shadow : Bool) : Option (Nat × Option Nat) := match pickGslot taken with
  | none => none
  | some a =>
    if shadow then match pickGslot (a :: taken) with
      | none => none
      | some b => some (a, some b)
    else some (a, none)

/-- Tiles of a core in use (R285, R449). -/
def State.usedTiles (s : State) (k c : Nat) : Nat :=
  ((s.allGroups.filter fun (g : Group) => g.base == k && g.tileCore == c).map fun (g : Group) =>
    let live : Bool := match s.team? g.grid g.team with
      | some t => t.st == .placed
      | none => false
    if live then g.tiles.length * (if g.shadow then 2 else 1) else 0).sum

/-! ### Merging (R48, R49) -/

/-- Between runs, and waiting to issue or at a `tw`: its next PC is then the `tw`'s own (log entry 10). -/
def Split.mergeReady (w : Split) : Bool :=
  !w.inRun && !w.inHandler && w.results.isEmpty && match w.status with
    | .run => true
    | .wait [.tok _ _] (.goto _) => true
    | _ => false

def ownedBy (n : Nat) (es : List Entry) : List Entry := es.filter fun (e : Entry) => e.owned n
/-- Remaining indices of a range register (R339). -/
def Split.rangeEmpty (w : Split) : Bool := w.rhi.toNat ≤ w.rlo.toNat

def State.poolFull (s : State) (g : Group) : Bool := match s.team? g.grid g.team with
  | some t => 64 ≤ t.pool.length
  | none => false

/-- Whether a merge would need a pool entry that is not there (R446). -/
def State.poolBlocks (s : State) (gid : Nat) (x y : Split) : Bool :=
  !x.rangeEmpty && !y.rangeEmpty && (s.group? gid).any fun g => s.poolFull g

/-- The conditions of R48 on two splits of one slot. -/
def State.mayMerge (s : State) (slot : GroupSlot) (x y : Split) : Bool :=
  let a := ownedBy x.num slot.entries
  let b := ownedBy y.num slot.entries
  x.mergeReady && y.mergeReady && x.pc == y.pc && callsOf a == callsOf b && !ownsMasked a && !ownsMasked b
    && ((List.range 8).all fun k => vget x.toks k 0 + vget y.toks k 0 ≤ 31) && !s.poolBlocks slot.group x y

/-- Whether two entries differ in no more than which of `x` and `y` owns them, among the splits `res` of the slot. -/
def twin (res : BitVec 4) (x y : Nat) (e f : Entry) : Bool :=
  e.same f && e.owned x && !e.owned y && f.owned y && !f.owned x && (e.drop x).owner &&& res == (f.drop y).owner &&& res

/-- Y's bit becomes X's in every entry, and entries that differed only in those bits become one (R49). -/
def joinEntries (res : BitVec 4) (x y : Nat) : List Entry → List Entry → List Entry
  | _, [] => []
  | seen, e :: es =>
    if seen.any (fun (f : Entry) => twin res x y f e) then
      joinEntries res x y
        ((seen.filter fun (f : Entry) => !twin res x y f e) ++ (seen.filter fun (f : Entry) => twin res x y f e).tail) es
    else if e.owned y then { e.drop y with owner := (e.drop y).owner ||| ownBit x } :: joinEntries res x y seen es
    else e :: joinEntries res x y (e :: seen) es

/-- Covered reconvergence entries above the newest call entry popped, newest first, and the PAL of the last one (R49). -/
def popCovered (res : BitVec 4) (n : Nat) (cover : Mask) : List Entry → Option Dword → List Entry × Option Dword
  | [], pal => ([], pal)
  | e :: es, pal =>
    if e.owned n = false then let r := popCovered res n cover es pal; (e :: r.1, r.2)
    else if e.kind = 3 then let r := popCovered res n cover es pal; (e :: r.1, r.2)
    else if e.kind = 2 && e.dmask &&& ~~~cover == 0#32 then
      let r := popCovered res n cover es (some e.word1)
      (if (e.drop n).owner &&& res = 0#4 then r.1 else e.drop n :: r.1, r.2)
    else (e :: es, pal)

def unionToks (a b : Vector Nat 8) : Vector Nat 8 := Vector.ofFn fun i : Fin 8 => a[i] + b[i]

/-- An outstanding operation put among others in issue order. -/
def insertOp (o : Op) : List Op → List Op
  | [] => [o]
  | p :: ps => if o.id < p.id then o :: p :: ps else p :: insertOp o ps

def Split.hasMmab (w : Split) : Bool := w.ops.any fun (o : Op) => (o.instr matches .mmab ..)

/-- An `mmab` of Y beside one of X keeps its own progress (R292, log entry 14). -/
def ownStep (mstep : Dword) (o : Op) : Op :=
  if (o.instr matches .mmab ..) && !o.clm then { o with clm := true, cidx := mstep } else o

/-- The merged split (R49). -/
def mergeSplits (x y : Split) (gone : Mask) : Split :=
  let both := x.hasMmab && y.hasMmab
  let yops := if both then y.ops.map (ownStep y.mstep) else y.ops
  let rng := if x.rangeEmpty then (y.rlo, y.rhi) else (x.rlo, x.rhi)
  let spill := !x.rangeEmpty && !y.rangeEmpty
  let due := Nat.min 63 (x.rdue + y.rdue)
  { x with
    act := x.act ||| y.act, exited := x.exited ||| y.exited ||| gone,
    preds := Vector.ofFn fun i : Fin 8 => (y.preds[i] &&& y.act &&& ~~~x.act) ||| (x.preds[i] &&& ~~~(y.act &&& ~~~x.act)),
    toks := unionToks x.toks y.toks, ops := yops.foldl (fun os o => insertOp o os) x.ops,
    mstep := if y.hasMmab && !both then y.mstep else x.mstep, postloc := x.postloc ||| y.postloc,
    postmod := x.postmod ||| y.postmod, rlo := rng.1, rhi := rng.2, rdue := if spill then due - 1 else due, spin := .none,
    pend := { kept := if x.pend.kept.isSome then x.pend.kept else y.pend.kept, halt := x.pend.halt || y.pend.halt, slice := x.pend.slice || y.pend.slice,
              preempt := x.pend.preempt || y.pend.preempt, stop := x.pend.stop || y.pend.stop,
              kill := x.pend.kill || y.pend.kill, late := if x.pend.late.isSome then x.pend.late else y.pend.late,
              redund := x.pend.redund || y.pend.redund,
              handler := (x.pend.handler ++ y.pend.handler).eraseDups } }

/-- A payload with other names of its splits, groups and stacks. -/
def Payload.rename (fs fg fk : Nat → Nat) (p : Payload) : Payload := match p with
  | .post w g who a op ty pa d po af no kin => .post (fs w) (fg g) who a op ty pa d po af no (kin.map fs)
  | .postAck g no b => .postAck (fg g) no b
  | .probe w g => .probe (fs w) (fg g)
  | .probeAnswer w k b => .probeAnswer (fs w) (fk k) b
  | .context w r e pa why => .context (fs w) r e pa why
  | .numReq w g c => .numReq (fs w) (fg g) c
  | .numAns w n => .numAns (fs w) n
  | .numFree g n => .numFree (fg g) n
  | .report g n m k c st j => .report (fg g) n m (fk k) c st j
  | .barrier gr t q n l e a w g po => .barrier gr t q n l e a (fs w) (fg g) (po.map fun x => (x.1, x.2.map fs))
  | .rangeReq k w g op lo hi n due => .rangeReq k (fs w) (fg g) op lo hi n due
  | .rangeRep w op r rg => .rangeRep (fs w) op r rg
  | .halt w => .halt (fs w)
  | .guest _ _ _ _ _ _ | .object _ _ _ _ _ _ _ _ _ | .burst _ _ _ _ _ _ | .area _ _ _ _ | .fetch _ _ _ _ | .fetched _ _ | .jobDone _ _ _ _
  | .complete _ _ _ _ | .abortShare _ | .record _ | .host _ | .hostBack _ _ => p

/-- Packets and passes that name split `y` name `x`. -/
def renameSplit (x y : Nat) (p : Payload) : Payload := p.rename (fun n => if n = y then x else n) id id

def renameFused (x y : Nat) (g : FGroup) : FGroup :=
  { g with passes := g.passes.map fun (p : Pass) => if p.split = y then { p with split := x } else p }

/-- X and Y of one slot become X (R49). The focus holds neither. -/
def State.merge (s : State) (slot : GroupSlot) (x y : Split) : State :=
  match s.group? slot.group with
  | none => s
  | some g =>
    let w := mergeSplits x y g.gone
    let res := s.residentsOf slot &&& ~~~ ownBit y.num
    let es := joinEntries res x.num y.num [] slot.entries
    let r := popCovered res x.num (w.act ||| w.exited) es.reverse none
    let w2 := { w with pal := r.2.getD w.pal }
    let slot2 := { slot with entries := r.1.reverse }
    let spill := !x.rangeEmpty && !y.rangeEmpty
    let t := { s with
      splits := (s.splits.filter fun (v : Split) => v.id != y.id).map fun (v : Split) => if v.id = x.id then w2 else v,
      slots := s.slots.map fun (q : GroupSlot) =>
        if q.stack = slot.stack ∧ q.core = slot.core ∧ q.gslot = slot.gslot then slot2 else q,
      fabric := s.fabric.map fun (p : Packet) => { p with pl := renameSplit x.id y.id p.pl } }
    let t2 := t.onStk x.stack fun q => { q with
      resv := q.resv.map fun (v : Resv) => if v.split = y.id then { v with split := x.id } else v,
      probed := q.probed.map fun p => if p.2.1 = y.id then (p.1, x.id, p.2.2) else p }
    let t3 := t2.onCore x.stack x.core fun c => { c with queue := c.queue.map (renameFused x.id y.id) }
    let less := if x.rdue + y.rdue = 0 then 0 else 1
    let t4 :=
      if !spill then t3
      else if 16 ≤ g.base then t3.send x.stack g.base (.rangeReq 3 x.id g.id 0 y.rlo y.rhi 0 less)
      else t3.onTeam g.grid g.team fun (q : Team) => { q with pool := q.pool ++ [(y.rlo, y.rhi)], busy := q.busy - less }
    (t4.tellAs g.id g.base x.stack x.core x.num (some w2.act) 0 0).freeNumber g.id g.base x.stack y.num

/-- The lowest lane of a split. -/
def lowLane (w : Split) : Nat := (w.act.lowest).getD 32
/-- Which of two splits holds the lower lane; the lower number where both hold it (R444). -/
def Split.before (v w : Split) : Bool := lowLane v < lowLane w || lowLane v == lowLane w && v.num < w.num

/-- The qualifying pair of a slot that holds the lowest lane, with the holder of that lane first (R48, R49). -/
def State.mergePair (s : State) (slot : GroupSlot) : Option (Split × Split) :=
  let ws := s.splits.filter fun (w : Split) => w.home slot && w.resident
  let pairs := (ws.map fun x => (ws.filter fun y => x.before y && s.mayMerge slot x y).map
    fun y => (x, y)).flatten
  match pairs with
  | [] => none
  | p :: rest => some (rest.foldl (fun (b q : Split × Split) =>
      if q.1.before b.1 || q.1.id == b.1.id && q.2.before b.2 then q else b) p)

def State.slotAt (s : State) (k c g : Nat) : Option GroupSlot :=
  s.slots.find? fun (q : GroupSlot) => q.stack == k && q.core == c && q.gslot == g

/-- The merges of a check point: the check repeats until no pair qualifies; at most three of four splits vanish. -/
def State.mergeSlot (s : State) (k c g : Nat) : Nat → State
  | 0 => s
  | n + 1 => match s.slotAt k c g with
    | none => s
    | some slot => match s.mergePair slot with
      | none => s
      | some (x, y) => (s.merge slot x y).mergeSlot k c g n

/-- A check point of R48 has come at some group slot. -/
def State.checkDue (s : State) : Bool := s.allSlots.any fun (q : GroupSlot) => q.check

/-- The merges of the check points that have come (R48). -/
def State.mergeAll (s : State) : State :=
  (s.allSlots.filter fun (q : GroupSlot) => q.check).foldl (fun (t : State) (q : GroupSlot) =>
    let u := t.mergeSlot q.stack q.core q.gslot 4
    { u with slots := u.slots.map fun (r : GroupSlot) =>
        if r.stack = q.stack ∧ r.core = q.core ∧ r.gslot = q.gslot then { r with check := false } else r }) s.unfocus

/-! ### Join points (R50, R51, R443) -/

def joinOf : Status → Option Nat
  | .join j => some j
  | _ => none

/-- The waiting splits of a join merge pairwise in increasing order of their lowest lane, and the merged split goes on
after its `join`. -/
def State.joinMerge (s : State) (gid : Nat) : Nat → State
  | 0 => s
  | n + 1 =>
    let ws := s.splits.filter fun (w : Split) => w.group == gid && (joinOf w.status).isSome
    match ws with
    | [] => s
    | w :: rest =>
      let x := rest.foldl (fun (b v : Split) => if v.before b then v else b) w
      let others := ws.filter fun (v : Split) => v.id != x.id
      match others with
      | [] =>
        let go (t : State) : State := ({ t with me := { t.me with
          status := .run, wasReady := false, exited := t.me.exited ||| t.gr.gone } }).finish (t.me.pc + 4#64)
        let u := (s.withSplit x.id go).unfocus.onGroup gid fun (g : Group) => { g with joinCore := none }
        match s.group? gid with
        | none => u
        | some g => u.tellAs gid g.base x.stack x.core x.num none 0 0
      | v :: vs =>
        let y := vs.foldl (fun (b q : Split) => if q.before b then q else b) v
        if s.poolBlocks gid x y then s
        else match s.slots.find? x.home with
          | none => s
          | some slot => (s.merge slot x { y with status := x.status }).joinMerge gid n

/-- When every split that the table records waits at the join, they merge (R50). The focus is empty. -/
def State.joinCheck (s : State) (gid : Nat) : State := match s.group? gid with
  | none => s
  | some g =>
    let ws := s.splits.filter fun (w : Split) => w.group == gid
    let waits (n : Nat) : Bool := ws.any fun (w : Split) => w.num == n && (joinOf w.status).isSome
    if !ws.isEmpty && (List.range 4).all fun n => !(vget g.table n TabEntry.free).valid || waits n then s.joinMerge gid 4
    else s

/-- The split in focus arrives at a join on the join core (R50, R443): on a mismatch with a waiting split it takes
ILLEGAL:5; otherwise it waits. -/
def State.joinArrive (s : State) (j : Nat) : State :=
  let waiting := s.splits.filter fun (w : Split) => w.group == s.gr.id && (joinOf w.status).isSome
  let bad := waiting.any fun (w : Split) =>
    joinOf w.status != some j || callsOf (ownedBy w.num s.win.entries) != callsOf s.own
  if bad then s.raise (s.trapHere .illegal 5)
  else
    let t := { s with gr := { s.gr with joinCore := some s.me.core } }
    let u := { t.endRun with me := { t.endRun.me with status := .join j } }
    (u.tell u.me.num (some u.me.act) 2 j).unfocus.joinCheck s.gr.id

/-! ### The end of a split and of a group (R52, R139, R285) -/

/-- A tile and a swatch state after their group has ended. -/
def Tile.zero : Tile := { rows := Vector.replicate 32 (Vector.replicate 64 0#32), flag := false }

/-- Group slots that no split of their group holds are free. The focus is empty. -/
def State.sweepSlots (s : State) : State :=
  { s with slots := s.slots.filter fun (q : GroupSlot) => s.splits.any fun (w : Split) => w.resident && w.home q }

/-- The group `gid` ends when it has no split left, here or in its table: its slots, tiles and swatch state are cleared and
freed. -/
def State.groupCheck (s : State) (gid : Nat) : State :=
  if (s.splits.any fun (w : Split) => w.group == gid)
      || (s.group? gid).any fun (g : Group) => g.table.toList.any fun (t : TabEntry) => t.valid then s
  else s.onGroup gid fun g => { g with ended := true, tiles := [], swatch := Swatch.reset }

/-- A number is free again, and the group may have ended with it (R21, R52). The focus is empty. -/
def State.numberFreed (s : State) (gid n : Nat) : State :=
  let t := (s.onGroup gid fun g => { g with table := vset g.table n TabEntry.free }).groupCheck gid
  match t.group? gid with
  | none => t
  | some g => (t.joinCheck gid).teamSavedAt g.grid g.team

/-- The split in focus ends; `x` is its last active mask. Its reservations stand on for their time (R216, R218). The focus is
empty after it. -/
def State.endSplit (s0 : State) (x : Mask) : State :=
  let s := match (if s0.me.pend.kill then .ok s0 else s0.lateTiles) with
    | .error c => s0.saveFault c true
    | .ok t => t
  let gid := s.gr.id
  let k := s.me.stack
  let n := s.me.num
  let id := s.me.id
  let t := s.endRun.setEntries (disown s.residents s.win.entries n)
  let u := { t with gr := { t.gr with gone := t.gr.gone ||| x } }
  let v := u.freeNumber gid u.gr.base k n
  let a := v.unfocus
  let b := { a with splits := a.splits.filter fun (w : Split) => w.id != id }
  ((b.sweepSlots.groupCheck gid).joinCheck gid).teamSavedAt t.gr.grid t.gr.team

end Sys2Proof.Machine
end

