-- ==== Sys2Proof/Machine/Access.lean ====
section
/-! DEFINITION. Machine/Access.lean: the order of a split's accesses (R225, R230 to R232), and the accesses of the memory instructions lane by lane (R204 to R221, R391, R392, R456, R461, R473). -/

namespace Sys2Proof.Machine

/-- The new value of an atomic (R214); `c` is its operand and `w` the value that `.cas` swaps in. -/
def atomicNew (op : AtOp) (ty : MTy) (sat : Bool) (old c w : Nat) : Nat :=
  let n := 8 * ty.size
  let it : ITy := match ty with
    | .i32 => .i32 | .n64 => .n64 | .i64 => .i64 | _ => .n32
  match op with
  | .swap => c
  | .add => addEl it sat 0 old c
  | .min => minEl it old c
  | .max => maxEl it old c
  | .and => Nat.land old c % 2 ^ n
  | .or => Nat.lor old c % 2 ^ n
  | .xor => Nat.xor old c % 2 ^ n
  | .cas => if old = c then w else old
  | .fadd => fmtF32.round .rne false 0 ((fmtF32.value old).add .rne (fmtF32.value c))

/-! ### Addresses and operands (R204 to R207) -/

/-- The access of a lane instruction: address operand, size, needs, and whether it is a migrating form. -/
structure Acc where
  m : Addr
  sz : Nat
  rd : Bool
  wr : Bool
  mig : Bool
  deriving DecidableEq, Repr

def Acc.of : Instr → Option Acc
  | .ld _ m sh ty _ _ _ => some ⟨m, sh.size ty, true, false, false⟩
  | .st _ m sh ty _ _ _ => some ⟨m, sh.size ty, false, true, false⟩
  | .ldg _ m sh ty _ _ _ _ => some ⟨m, sh.size ty, true, false, true⟩
  | .stg _ m sh ty _ _ _ _ => some ⟨m, sh.size ty, false, true, true⟩
  | .atg _ m _ ty _ _ _ _ _ _ => some ⟨m, ty.size, true, true, true⟩
  | .lrg _ m ty _ _ _ _ => some ⟨m, ty.size, true, true, true⟩
  | .scg _ m ty _ _ _ _ _ => some ⟨m, ty.size, true, true, true⟩
  | .stp _ m ty _ _ => some ⟨m, ty.size, false, true, false⟩
  | .atp _ m _ ty _ _ _ => some ⟨m, ty.size, true, true, false⟩
  | _ => none

/-- `addr(l)` (R204). -/
def State.addrAt (s : State) (m : Addr) (sz l : Nat) : Dword :=
  let off := BitVec.ofInt 64 (sextOf m.off.toNat 32)
  let idx : Dword := match m.idx with
    | .s b => s.s b
    | .v b uns scaled =>
      let x : Int := if uns then ((lane (s.v b) l).toNat : Int) else sextOf (lane (s.v b) l).toNat 32
      BitVec.ofInt 64 (if scaled then x * sz else x)
  s.s m.a + idx + off

/-- `n` registers from `c` on in lane `l`, the low register first. -/
def State.wordsAt (s : State) (c : VReg) (n l : Nat) : BitVec 128 :=
  BitVec.ofNat 128 ((List.range n).foldl (fun x j => x + (lane (s.vAt c j) l).toNat * 2 ^ (32 * j)) 0)

/-- The register operands of lane `l` (R389). -/
def State.dataAt (s : State) (i : Instr) (l : Nat) : BitVec 128 := match i with
  | .st _ _ sh ty c _ _ | .stg _ _ sh ty c _ _ _ => if sh == .scal then 0#128 else s.wordsAt c (regsOf (sh.size ty)) l
  | .atg _ _ op ty _ _ c _ _ _ => s.wordsAt c ((if op == .cas then 2 else 1) * regsOf ty.size) l
  | .scg _ _ ty _ c _ _ _ => s.wordsAt c (regsOf ty.size) l
  | .stp _ _ ty c _ => s.wordsAt c (regsOf ty.size) l
  | .atp _ _ _ ty _ c _ => s.wordsAt c (regsOf ty.size) l
  | _ => 0#128

/-- The scalar operands of an access of the split (R389). -/
def State.scapOf (s : State) : Instr → List Dword
  | .st _ _ .scal _ c _ _ | .stg _ _ .scal _ c _ _ _ => [s.s (Fin.ofNat 32 c.val)]
  | _ => []

/-! ### Signatures (R450) -/

/-- CRC-32C, with its register reflected as that code has it. -/
def crcByte (r : Word) (b : Byte) : Word :=
  (List.range 8).foldl (fun x _ => if x.getLsbD 0 then (x >>> 1) ^^^ 0x82F63B78#32 else x >>> 1) (r ^^^ b.zeroExtend 32)
def crc32c (bs : List Byte) : Word := ~~~(bs.foldl crcByte 0xFFFFFFFF#32)

/-- The bytes that lane `l` writes or sends, as far as they are known at the issue (log entry 18). -/
def Op.sends (o : Op) (l : Nat) : List Byte := match Acc.of o.instr with
  | none => if (o.instr matches .stz ..) then o.blob else (o.scap.map fun x => bytesLE 8 x.toNat).flatten
  | some a =>
    let n := match o.instr with
      | .atg _ _ .cas _ _ _ _ _ _ _ | .atp _ _ .cas _ _ _ _ => 2 * a.sz
      | _ => a.sz
    bytesLE n (if actsOnce o.instr then (o.scap.headD 0#64).toNat else (vget o.data l 0#128).toNat)

/-- What the signature of an operation is taken over. -/
def Op.signed (o : Op) : List Byte :=
  bytesLE 4 ((frameWords o.instr).headD 0#32).toNat
    ++ ((if actsOnce o.instr then [0] else o.act.list).map fun l =>
        BitVec.ofNat 8 l :: (bytesLE 8 (vget o.addr l 0#64).toNat ++ o.sends l)).flatten

/-- Whether the signatures of a redundant pair differ for an operation at its issue. -/
def State.differs (s : State) (o : Op) : Bool :=
  s.me.red && compared o.instr
    && crc32c o.signed != crc32c (o.signed.mapIdx fun i b => b ^^^ Config.shadowByte o.id i)

/-- A loaded value as it fills a lane's registers (R205). -/
def fillLane (ty : MTy) (x : Nat) : BitVec 128 := match ty with
  | .i8 | .i16 => BitVec.ofNat 128 (modTwo (sextOf x (8 * ty.size)) 32)
  | _ => BitVec.ofNat 128 x
/-- A loaded value as it fills a scalar register (R205). -/
def fillScalar (ty : MTy) (x : Nat) : Dword := match ty with
  | .i8 | .i16 | .i32 => BitVec.ofNat 64 (modTwo (sextOf x (8 * ty.size)) 64)
  | _ => BitVec.ofNat 64 x

/-! ### Order within a split (R225, R230 to R232) -/

/-- Accesses whose read every later access follows (R230, R271). -/
def readsFirst : Instr → Bool
  | .ld _ _ _ _ _ _ _ | .ldg _ _ _ _ _ _ _ _ | .atg _ _ _ _ _ _ _ _ _ _ | .lrg _ _ _ _ _ _ _
  | .ldz _ _ _ _ _ _ _ _ | .bobs _ _ _ _ _ _ _ | .bexp _ _ _ _ _ _ | .barv _ _ _ _ _ | .binit _ _ _ _ _
  | .cpkt _ _ _ _ _ _ => true
  | _ => false

/-- The lanes whose accesses are still to come. -/
def Op.open' (o : Op) : Mask := o.lanesAt 2 ||| o.lanesAt 3

/-- Bytes of an extent that reaches from the page of `pa 0` into that of `pa 1`. -/
def Op.extent (o : Op) : List (Nat × Nat) :=
  let room := 65536 - vget o.pa 0 0 % 65536
  [(vget o.pa 0 0, Nat.min room o.blob.length), (vget o.pa 1 0, o.blob.length - room)]

/-- Where the accesses still to come lie; those of a `cpkt` that has claimed its index, in its slot, where that has an address. -/
def Op.spans (o : Op) : List (Nat × Nat) := match Acc.of o.instr with
  | some a => o.open'.list.map fun l => (vget o.pa l 0, a.sz)
  | none => match o.instr with
    | .stz _ _ _ _ _ _ _ _ _ | .ctxsv _ _ _ _ => o.extent
    | .stkspill _ _ _ _ _ => (List.range o.cidx.toNat).map fun i => (vget o.pa i 0, 16)
    | .cpkt _ _ _ _ _ _ => if !o.clm then [(vget o.pa 0 0, 64)] else if vget o.pa 1 0 = 0 then [] else [(vget o.pa 1 0, 64)]
    | _ => [(vget o.pa 0 0, 16)]

def overlaps (x : Nat × Nat) (pa n : Nat) : Bool := x.1 < pa + n && pa < x.1 + x.2

/-- A `cpkt` that has claimed its index and named its slot. -/
def Op.slotNamed (o : Op) : Bool := o.clm && vget o.pa 3 0 != 0

/-- Whether every later event of the split comes after the operation: it has a read still to come, or it is an acquire of
the range unit (R230, R231, R346). -/
def Op.holdsAll (o : Op) : Bool := match o.kind with
  | .array | .tlbi => false
  | .range => (o.instr matches .rgtake ..)
  | .access => o.open' != 0#32 && readsFirst o.instr && !o.slotNamed
  | .plain => false

/-- Whether an earlier operation comes before an access of `[pa, pa + n)`: a write comes before those of its bytes (R230),
and one whose address is not known yet before any (log entry 25). Passes of the array are ordered by their tokens alone
(R232, R234). -/
def Op.blocks (o : Op) (pa n : Nat) : Bool := o.holdsAll || match o.kind with
  | .array | .tlbi | .range => false
  | .access => o.open' != 0#32 && (!o.sent || o.spans.any fun x => overlaps x pa n)
  | .plain => match o.instr with
    | .stkspill _ _ _ _ _ | .ctxsv _ _ _ _ => o.spans.any fun x => overlaps x pa n
    | _ => false

/-- An operation that is not served before the split's trap: it holds a fault, or comes after one that does. -/
def Split.stuckOp (w : Split) (e : Op) : Bool :=
  let bad (o : Op) : Bool := o.faulted && !o.serves
  bad e || w.ops.any fun (d : Op) => e.after.contains d.id && bad d

/-- Whether a post of the split in flight on its own stack comes before its event with the name `id` (the path edge). -/
def State.pathHeld (s : State) (w : Split) (id : Nat) : Bool := s.fabric.any fun (p : Packet) =>
  p.src == w.stack && p.dst == w.stack && match p.pl with
    | .post _ _ _ _ _ _ _ _ _ _ no kin => kin.contains w.id && no ≤ id
    | .barrier _ _ _ _ _ _ _ _ _ (some (no, kin)) => kin.contains w.id && no ≤ id
    | _ => false

/-- The accesses of a leg that are still to be performed where its context has arrived. -/
def Op.legSpans (o : Op) : List (Nat × Nat) := match Acc.of o.instr with
  | some a => if o.sent then (o.lanesAt 2 &&& o.legLanes).list.map fun l => (vget o.pa l 0, a.sz) else []
  | none => []

/-- The leg that a split has brought to stack `k`, admitted or not. -/
def State.legAt (s : State) (k : Nat) (w : Split) : Option Op := match w.status with
  | .legs id => if w.stack == k then w.op? id else none
  | .transit => ((s.stk k).arrivals.findSome? fun (p : Payload) => match p with
      | .context n _ _ _ (.access id) => if n == w.id then some id else none
      | _ => none).bind w.op?
  | _ => none

/-- Whether a context that arrived at stack `k` before arrival `came` still has to access `[pa, pa + n)` (R43). The operations
for which `later` holds come after. -/
def State.contextFirst (s : State) (k came pa n : Nat) (later : Split → Op → Bool) : Bool := s.allSplits.any fun (w : Split) =>
  w.came < came && (s.legAt k w).any fun (o : Op) => !later w o && o.legSpans.any fun x => overlaps x pa n

/-- Whether the earlier operations of split `w` for which `f` holds are over for operation `o`. One that a frame does not
capture does not wait for one that stays until the trap. -/
def Split.clearOf (w : Split) (o : Op) (f : Op → Bool) : Bool := w.ops.all fun (e : Op) =>
  !(o.after.contains e.id) || !f e || !captured o.instr && w.stuckOp e

/-- Whether a read of `[pa, pa + n)` by the instruction at issue has to wait: for an earlier operation or post of the split, or
for the host. -/
def State.readLater (s : State) (pa n : Nat) : Bool :=
  s.hostWaits pa false || s.pathHeld s.me s.nextId || s.me.ops.any fun (o : Op) => o.blocks pa n

/-- Whether operation `o` may access `[pa, pa + n)` now. -/
def State.mayAccess (s : State) (o : Op) (pa n : Nat) (wr : Bool) : Bool :=
  s.me.clearOf o (fun e => e.blocks pa n) && !s.pathHeld s.me o.id && !s.hostWaits pa wr
    && !(s.me.status == .legs o.id && s.contextFirst s.me.stack s.me.came pa n fun _ _ => false)

/-- An operation of any split. -/
def State.opOf (s : State) (id : Nat) : Option Op :=
  (s.allSplits.map fun (w : Split) => w.ops).flatten.find? fun (o : Op) => o.id == id

/-! ### One lane -/

def State.putOp (s : State) (o : Op) : State := s.onOp o.id fun _ => o

/-- An access of the iteration that spin park watches: a read of one line (R71). -/
def State.noteRead (s : State) (o : Op) (pa : Nat) : State :=
  { s with me := { s.me with spin := s.me.spin.map fun (x : Spin) =>
      if o.id < x.first then x
      else match x.line with
        | none => { x with line := some (lineOf pa) }
        | some n => if n = lineOf pa then x else { x with ok := false } } }

def Op.fault (o : Op) (l : Nat) (c : TClass) : Op := o.setStat l (statFault c)
def Op.done (o : Op) (l : Nat) (x : BitVec 128) : Op := { o with out := vset o.out l x }.setStat l statDone

/-- The reservation of a pair on a granule. -/
def State.resvOf (s : State) (pa l : Nat) : Option Resv :=
  (s.stk (homeStack pa)).resv.find? fun (r : Resv) => r.split == s.me.id && r.lane == l
def State.dropResv (s : State) (pa l : Nat) : State :=
  s.onStk (homeStack pa) fun q => { q with resv := q.resv.filter fun (r : Resv) => !(r.split == s.me.id && r.lane == l) }
/-- A reservation is recorded; it holds off other writers unless a holdoff stands on the granule (R216, R218, R447). -/
def State.reserve (s : State) (pa l : Nat) : State :=
  let t := s.dropResv pa l
  let k := homeStack pa
  let free := !((t.stk k).resv.any fun (r : Resv) => r.hold && r.granule == pa / 8)
  { (t.onStk k fun q => { q with
      resv := q.resv ++ [⟨t.nextId, t.me.id, l, pa / 8, q.clock, free⟩] }) with nextId := t.nextId + 1 }

/-- The write of a lane: none where it is held off. A poisoned line under policy 0 faults the lane (R469). -/
def State.laneWrite (s : State) (o : Op) (l pa : Nat) (bs : List Byte) (x : BitVec 128) : Option State :=
  if s.heldOff pa bs.length (some s.me.id) then none
  else match s.writeHome pa bs (vget o.pois l 0) s.me.asid with
    | none => some (s.putOp (o.fault l .poison))
    | some t => some (t.putOp (o.done l x))

/-- The access of lane `l` is performed at its home (R211, R215, R217); none while it has to wait. -/
def State.performLane (s : State) (o : Op) (a : Acc) (l : Nat) : Option State :=
  let pa := vget o.pa l 0
  let data := (vget o.data l 0#128).toNat
  let scal := ((o.scap.head?).getD 0#64).toNat
  let wr := a.wr && !(o.instr matches .lrg ..)
  if !s.mayAccess o pa a.sz wr then none
  else match s.readHome pa a.sz (vget o.pois l 0) with
    | none =>
      if a.rd then some (s.putOp (o.fault l .poison))
      else s.laneWrite o l pa (bytesLE a.sz (if actsOnce o.instr then scal else data)) 0#128
    | some x =>
      let s := if a.rd then s.logPois pa (vget o.pois l 0) else s
      match o.instr with
      | .ld _ _ .scal ty d _ _ | .ldg _ _ .scal ty d _ _ _ =>
        some ((s.noteRead o pa).putOp { o.done l 0#128 with writes := [.s d.val (fillScalar ty x)] })
      | .ld _ _ .quad _ _ _ _ | .ldg _ _ .quad _ _ _ _ _ => some ((s.noteRead o pa).putOp (o.done l (BitVec.ofNat 128 x)))
      | .ld _ _ .lane ty _ _ _ | .ldg _ _ .lane ty _ _ _ _ => some ((s.noteRead o pa).putOp (o.done l (fillLane ty x)))
      | .lrg _ _ ty _ _ _ _ => some (((s.noteRead o pa).reserve pa l).putOp (o.done l (fillLane ty x)))
      | .atg _ _ op ty sat _ _ _ _ _ =>
        let c := data % 2 ^ (8 * a.sz)
        s.laneWrite o l pa (bytesLE a.sz (atomicNew op ty sat x c (data / 2 ^ (8 * a.sz)))) (BitVec.ofNat 128 x)
      | .scg _ _ _ _ _ _ _ _ =>
        if (s.resvOf pa l).any fun (r : Resv) => r.granule == pa / 8 then
          (s.laneWrite o l pa (bytesLE a.sz data) 0#128).map fun t => t.dropResv pa l
        else some ((s.dropResv pa l).putOp (o.done l 1#128))
      | _ => s.laneWrite o l pa (bytesLE a.sz (if actsOnce o.instr then scal else data)) 0#128

/-! ### Translation and legs (R38, R391, R392, R456) -/

/-- The addresses of the pending lanes of `ls` are translated: a lane that fails stands at STATE 3. -/
def State.translateLanes (s : State) (a : Acc) (ls : List Nat) (o : Op) : Op :=
  ls.foldl (fun (p : Op) l =>
    match (if a.mig then s.xlMigrating a.rd a.wr a.sz (vget p.addr l 0#64)
           else s.xlLocal a.rd a.wr a.sz (vget p.addr l 0#64)) with
    | .error c => p.fault l c
    | .ok x => { p with pa := vset p.pa l x.pa, pois := vset p.pois l x.pois }) o

/-- The lanes of the next leg: those homed on the current stack, else those homed where the lowest pending lane is. -/
def Op.leg' (s : State) (o : Op) : Mask :=
  let ls := o.lanesAt 2
  let here := Mask.where' fun l => ls.has l && s.homedOn s.me.stack (vget o.pa l 0)
  if here != 0#32 then here
  else match ls.lowest with
    | none => 0#32
    | some l0 => Mask.where' fun l => ls.has l && homeOf (vget o.pa l 0) == homeOf (vget o.pa l0 0)

/-- The first translation of an access: where a lane of an instruction that writes fails, no lane is performed. -/
def State.translateOp (s : State) (a : Acc) (o : Op) : Op :=
  let p := s.translateLanes a (o.lanesAt 2).list o
  if p.faulted && mayWrite p.instr then { p with sent := false }
  else { p with sent := true, legLanes := p.leg' s }

/-- Whether the next leg of an operation departs from the current stack. -/
def Op.departs (s : State) (o : Op) : Bool :=
  o.sent && (o.lanesAt 2 &&& o.legLanes != 0#32)
    && !((o.lanesAt 2 &&& o.legLanes).list.any fun l => s.homedOn s.me.stack (vget o.pa l 0))

/-- Whether some lane is homed on another stack, so that the split issues nothing until the operation completes. -/
def Op.travels (s : State) (o : Op) : Bool :=
  o.sent && o.kind == .access && (o.lanesAt 2).list.any fun l => !s.homedOn s.me.stack (vget o.pa l 0)

/-- The results of the lanes done land in their registers. -/
def State.landOp (s : State) (o : Op) : State :=
  let ws := o.writesFor o.unlanded
  let t := if (s.me.spin.any fun (x : Spin) => x.first ≤ o.id) then s.noteWrites ws else s
  (t.applyAll ws).onOp o.id fun p => { p with landed := p.landed ||| p.lanesAt 1 }

/-- The next run may begin, unless an acquire among the outstanding operations still holds the split (R208). -/
def State.nextRun (s : State) : State := match s.me.ops.find? fun (p : Op) => p.acq with
  | some p => { s with me := { s.me with status := .wait [.done p.id] (.goto s.me.pc), wasReady := false } }
  | none => { s with me := { s.me with status := .run, wasReady := false } }

/-- The split goes on after an operation of which a leg has departed, with the next re-injected operation that travels, or
with its next instruction (R212, R398). -/
def State.afterLegs (s : State) (o : Op) : State :=
  match s.me.ops.find? fun (p : Op) => p.id != o.id && p.travels s with
  | some p => { s with me := { s.me with status := if p.departs s then .leaving (.access p.id) else .legs p.id } }
  | none =>
    if o.again then s.nextRun
    else ({ s with me := { s.me with status := .run, wasReady := false } }).finish (o.ipc + BitVec.ofNat 64 o.instr.bytes)

/-- The operation completes: its results land, and then its token falls (R124, R207). -/
def State.complete (s : State) (o : Op) : State :=
  let t := ((s.landOp o).dropOp o.id).tokDone o.tok
  if t.me.status = .legs o.id then t.afterLegs o else t

/-- One step of a lane instruction: its first translation, the next lane, the next leg, or its completion. -/
def State.serveAccess (s : State) (o : Op) (a : Acc) : Option State :=
  if !o.sent then (if o.faulted then none else some (s.putOp (s.translateOp a o)))
  else match (o.lanesAt 2 &&& o.legLanes).lowest with
    | some l => if s.homedOn s.me.stack (vget o.pa l 0) then s.performLane o a l else none
    | none =>
      if o.lanesAt 2 = 0#32 then (if o.faulted then none else some (s.complete o))
      else if s.me.status = .legs o.id then
        some ({ (s.landOp o) with me := { (s.landOp o).me with status := .leaving (.access o.id) } })
      else none

/-! ### The compressed form (R199, R220, R221, R461, R473) -/

/-- The position of element `i`: register above the first, lane, and element of the lane. -/
def zPlace (sz i : Nat) : Nat × Nat × Nat := let e := 4 / sz; (i / (32 * e), i / e % 32, i % e)

/-- Whether an element is zero: integer 0, and floating-point +0 or −0. -/
def zZero (ty : MTy) (x : Nat) : Bool := match ty with
  | .i8 | .n8 | .i16 | .n16 | .i32 | .n32 | .i64 | .n64 => x == 0
  | .f32 | .f16 | .bf16 | .e5m2 | .e4m3 => x % 2 ^ (8 * ty.size - 1) == 0

def bitmapBytes (n : Nat) : Nat := 16 * ceilDiv n 128

/-- The form that `stz` writes. -/
def State.packForm (s : State) (c : VReg) (ty : MTy) (n : Nat) (act : Mask) : List Byte :=
  let el (i : Nat) : Nat :=
    let p := zPlace ty.size i
    if act.has p.2.1 then (lane (s.vAt c p.1) p.2.1).toNat / 2 ^ (8 * ty.size * p.2.2) % 2 ^ (8 * ty.size) else 0
  let kept := ((List.range n).map el).filter fun x => !zZero ty x
  let map := (List.range (bitmapBytes n)).map fun j =>
    BitVec.ofNat 8 ((List.range 8).foldl (fun b k =>
      if 8 * j + k < n && !zZero ty (el (8 * j + k)) then b + 2 ^ k else b) 0)
  bytesLE 4 n ++ bytesLE 4 (kept.length * ty.size) ++ zeros 8 ++ map
    ++ (kept.map fun x => bytesLE ty.size x).flatten

/-- Elements and value bytes of a form that has been read (R473): an element whose value lies past P is zero. -/
def unpackForm (ty : MTy) (p : Nat) (form : List Byte) : Nat → Nat → List Nat
  | _, 0 => []
  | i, left + 1 =>
    let count := ((form.getD 0 0#8).toNat + 256 * (form.getD 1 0#8).toNat + 65536 * (form.getD 2 0#8).toNat
      + 16777216 * (form.getD 3 0#8).toNat)
    let at' := 16 + bitmapBytes count
    let bit (k : Nat) : Bool := k < count && ((form.getD (16 + k / 8) 0#8).toNat).testBit (k % 8)
    if bit i then
      let v := if (p + 1) * ty.size ≤ form.length - at' then
        ofBytesLE ((form.drop (at' + p * ty.size)).take ty.size) else 0
      v :: unpackForm ty (p + 1) form (i + 1) left
    else 0 :: unpackForm ty p form (i + 1) left

/-- The writes of `ldz`: element `i` in its place, in the lanes of `act`. -/
def zWrites (wb : Nat) (d : VReg) (ty : MTy) (n : Nat) (act : Mask) (xs : List Nat) : List Wr :=
  let e := 4 / ty.size
  (List.range (ceilDiv n (32 * e))).map fun r =>
    let val := lanesOf fun l => BitVec.ofNat 32 ((List.range e).foldl (fun w j =>
      w + (xs.getD (32 * e * r + e * l + j) 0) * 2 ^ (8 * ty.size * j)) 0)
    let msk := lanesOf fun l => BitVec.ofNat 32 ((List.range e).foldl (fun w j =>
      if 32 * e * r + e * l + j < n then w + (2 ^ (8 * ty.size) - 1) * 2 ^ (8 * ty.size * j) else w) 0)
    .vbits (wb + d.val + r) act msk val

/-- The physical address of byte `o` of an extent that begins at `va`, in one of its two pages. -/
def Op.zPa (o : Op) (at' : Nat) : Nat × Nat :=
  let va := (vget o.addr 0 0#64).toNat
  let page := (va + at') / 65536 - va / 65536
  if page = 0 then (vget o.pa 0 0 + at', vget o.pois 0 0)
  else (vget o.pa 1 0 + (va + at') % 65536, vget o.pois 1 0)

/-- The pages of `[va, va + n)` translated: its first byte, and its second page where it reaches one. -/
def State.zTranslate (s : State) (o : Op) (n : Nat) (wr : Bool) : Op :=
  let va := (vget o.addr 0 0#64)
  match s.xlLocal (!wr) wr 16 va with
  | .error c => o.fault 0 c
  | .ok x =>
    let p := { o with pa := vset o.pa 0 x.pa, pois := vset o.pois 0 x.pois }
    let next := BitVec.ofNat 64 (65536 * (va.toNat / 65536 + 1))
    if va.toNat % 65536 + n ≤ 65536 then { p with sent := true }
    else match s.xlLocal (!wr) wr 16 next with
      | .error c => p.fault 0 c
      | .ok y => { p with pa := vset p.pa 1 y.pa, pois := vset p.pois 1 y.pois, sent := true }

/-- One step of `stz`: the overrun test and the translation, 16 bytes of the form, or its completion. -/
def State.serveStz (s : State) (o : Op) (d : SReg) : Option State :=
  let len := o.blob.length
  let at' := vget o.pa 2 0
  if o.faulted then none
  else if !o.sent then
    if ((o.scap.head?).getD 0#64).toNat < len then
      some (s.putOp ({ o with scap := [(o.scap.head?).getD 0#64, BitVec.ofNat 64 len] }.fault 0 .range))
    else some (s.putOp (s.zTranslate o len true))
  else if at' < len then
    let (pa, pois) := o.zPa at'
    let bs := (o.blob.drop at').take 16
    if !s.mayAccess o pa bs.length true || s.heldOff pa bs.length (some s.me.id) then none
    else match s.writeHome pa bs pois s.me.asid with
      | none => some (s.putOp ({ o with pa := vset o.pa 2 0 }.fault 0 .poison))
      | some t => some (t.putOp { o with pa := vset o.pa 2 (at' + bs.length) })
  else
    let p := { o with writes := [.s d.val (BitVec.ofNat 64 len)] }.setStat 0 statDone
    some ((s.putOp p).complete p)

/-- The count, the bitmap's bytes and the value bytes that `ldz` reads, from the header. -/
def zHeader (ty : MTy) (form : List Byte) : Nat × Nat :=
  let n := ofBytesLE (form.take 4)
  let p := ofBytesLE ((form.drop 4).take 4)
  let map := (form.drop 16).take (bitmapBytes n)
  let ones := ((List.range n).filter fun k => ((map.getD (k / 8) 0#8).toNat).testBit (k % 8)).length
  (n, Nat.min p (ones * ty.size))

/-- One step of `ldz`: the translation, 16 bytes of the header, the bitmap or the values, or its completion. A header that
reaches past the extent is not read there, and the test of the extent fails. -/
def State.serveLdz (s : State) (o : Op) (d : VReg) (ty : MTy) (n : Nat) : Option State :=
  let got := o.blob.length
  let ext := ((o.scap.head?).getD 0#64).toNat
  let nHdr := ofBytesLE (o.blob.take 4)
  let pHdr := ofBytesLE ((o.blob.drop 4).take 4)
  let bad := n < nHdr || ext < 16 + bitmapBytes nHdr + pHdr
  let head := Nat.min 16 ext
  let need := if got < head then head
    else if got < 16 + bitmapBytes nHdr then 16 + bitmapBytes nHdr
    else 16 + bitmapBytes nHdr + (zHeader ty o.blob).2
  if o.faulted then none
  else if !o.sent then some (s.putOp (s.zTranslate o 16 false))
  else if head ≤ got && bad then some (s.putOp ({ o with blob := [] }.fault 0 .range))
  else if got < need then
    let p := s.zTranslate o (got + 1) false
    if p.faulted then some (s.putOp { p with blob := [] })
    else
      let (pa, pois) := p.zPa got
      let k := Nat.min 16 (need - got)
      if !s.mayAccess p pa k false then none
      else match s.readHome pa k pois with
        | none => some (s.putOp ({ p with blob := [] }.fault 0 .poison))
        | some x => some (((s.logPois pa pois).noteRead p pa).putOp { p with blob := p.blob ++ bytesLE k x })
  else
    let p := { o with writes := zWrites o.wb d ty n o.act (unpackForm ty 0 o.blob 0 n) }.setStat 0 statDone
    some ((s.putOp p).complete p)

end Sys2Proof.Machine
end

