-- ==== Sys2Proof/Machine/Barrier.lean ====
section
/-! DEFINITION. Machine/Barrier.lean: named barriers (R133, R134, R420) and barrier objects (R267, R268, R419, R420). -/

namespace Sys2Proof.Machine

/-- The state with no split in focus, after `f` for each split of `ids`. -/
def State.forSplits (s : State) (ids : List Nat) (f : State → State) : State :=
  (ids.foldl (fun (t : State) id => t.withSplit id f) s).unfocus

/-- The split in focus becomes ready, and its next run starts at `pc`. -/
def State.wakeAt (s : State) (pc : Dword) : State :=
  ({ s with me := { s.me with status := .run, wasReady := false } }).finish pc

/-- `x` with its bits `[hi:lo]` replaced by the low bits of `v`. -/
def putBits (x hi lo v : Nat) : Nat := x - bitsOf x hi lo * 2 ^ lo + v % 2 ^ (hi + 1 - lo) * 2 ^ lo

/-! ### Named barriers -/

/-- The words of a named barrier after an arrival or an exit decrement of `n` lanes, and whether it flips (R134, R420). -/
def barrierStep (w0 w1 n : Nat) (exit : Bool) : Nat × Nat × Bool :=
  let arrived := if exit then bitsOf w0 42 32 else (bitsOf w0 42 32 + n) % 2 ^ 11
  let expect := if exit then (bitsOf w0 10 0 + 2 ^ 11 - n % 2 ^ 11) % 2 ^ 11 else bitsOf w0 10 0
  let x := putBits (putBits w0 42 32 arrived) 10 0 expect
  if expect ≤ arrived ∧ 0 < arrived then
    (putBits (putBits x 42 32 0) 63 63 (1 - bitsOf w0 63 63), putBits w1 31 0 (bitsOf w1 31 0 + 1), true)
  else (x, w1, false)

/-- Whether a split's group is of the team. -/
def State.ofTeam (s : State) (grid team : Nat) (w : Split) : Bool :=
  (s.group? w.group).any fun (g : Group) => g.grid == grid && g.team == team

/-- The splits of a team that wait at barrier `n` in the phase `q`; those that a save or a stop has taken from their wait no
longer wait for it (R134, R135). -/
def State.barrierWake (s : State) (grid team n : Nat) (q : Bool) : State :=
  let u := s.unfocus
  let done (w : Split) : Split :=
    if w.rewait = .barrier n q && u.ofTeam grid team w then { w with rewait := .run } else w
  let ids := (u.splits.filter fun (w : Split) => w.status == .barrier n q && u.ofTeam grid team w).map Split.id
  ({ u with splits := u.splits.map done }).forSplits ids fun t => t.wakeAt (t.me.pc + 4#64)

/-- Whether an update at a home has to wait: a holdoff, or a line that the host holds. -/
def State.updateWaits (s : State) (pa : Nat) (w : Option Nat) : Bool := s.heldOff pa 16 w || s.hostWaits pa true

/-- An arrival or exit decrement performed at the team's base stack; the split `w` that waits for its own arrival waits from
then on for the flip. An update of a poisoned line is not performed (log entry 11). The focus is empty after it. -/
def State.barrierUpdate (s : State) (grid team n lanes : Nat) (exit : Bool) (asid : Nat) (w : Option Nat) : State :=
  match s.team? grid team with
  | none => s.unfocus
  | some t =>
    let pa := t.vaultPa + 16 * n
    let w0 := s.mem.read pa 8
    let q := w0.testBit 63
    let u := match w with
      | none => s
      | some id => s.onSplit id fun v => { v with status := .barrier n q }
    if s.mem.poisoned pa then u.unfocus
    else
      let r := barrierStep w0 (s.mem.read (pa + 8) 8) lanes exit
      let v := { (u.written pa 16).meets t.base (some grid) with
        mem := (u.mem.write64 pa r.1 asid).write64 (pa + 8) r.2.1 asid }
      if r.2.2 then v.barrierWake grid team n q else v.unfocus

/-! ### Barrier objects -/

/-- The words of an object after an update (R268, R419), and the phase that a flip leaves. -/
def objectStep (w0 w1 added credited arrivals : Nat) (clip : Bool) : Nat × Nat × Option Bool :=
  let pend := (bitsOf w0 55 0 + added % 2 ^ 56 + 2 ^ 56 - credited % 2 ^ 56) % 2 ^ 56
  let apend := bitsOf w1 15 0 - arrivals
  let clipn := if clip then 1 else bitsOf w0 57 57
  let x := putBits (putBits w0 55 0 pend) 57 57 clipn
  if pend = 0 ∧ apend = 0 then
    let phase := 1 - bitsOf w0 63 63
    (putBits (putBits (putBits x 63 63 phase) 56 56 clipn) 57 57 0, putBits w1 15 0 (bitsOf w1 31 16), some (phase == 1))
  else (x, putBits w1 15 0 apend, none)

/-- The splits that wait at the object for phase `q` become ready (R276); a saved one no longer waits. The focus is empty
after it. -/
def State.objectWake (s : State) (pa : Nat) (q : Bool) : State :=
  let u := s.unfocus
  let ids := (u.splits.filter fun (w : Split) => match w.status with
    | .bwt a p _ _ => a == pa && p == q
    | _ => false).map Split.id
  u.forSplits ids fun t => match t.me.status with
    | .bwt _ _ next _ => t.wakeAt next
    | _ => t

/-- An update of a barrier object at its home: none where poison refuses it. The split that acts is in focus again after
it. -/
def State.objectUpdate (s : State) (pa added credited arrivals : Nat) (clip : Bool) (pois asid : Nat) : Option State :=
  match s.readHome pa 8 pois, s.readHome (pa + 8) 8 pois with
  | some w0, some w1 =>
    let r := objectStep w0 w1 added credited arrivals clip
    match s.writeHome pa (bytesLE 8 r.1 ++ bytesLE 8 r.2.1) pois asid with
    | none => none
    | some t => match r.2.2 with
      | none => some t
      | some q => some (((t.objectWake pa q).focus s.me.id).getD (t.objectWake pa q))
  | _, _ => none

/-- `binit` (R274). -/
def State.objectInit (s : State) (pa pend aexp pois asid : Nat) : Option State :=
  match s.readHome pa 8 pois with
  | none => none
  | some _ => s.writeHome pa (bytesLE 8 (pend % 2 ^ 56) ++ bytesLE 8 (aexp * 65537)) pois asid

end Sys2Proof.Machine
end

