-- ==== Sys2Proof/Machine/KStep.lean ====
section
/-! DEFINITION. Machine/KStep.lean: the array's arithmetic: operand formats (R78, R79, R84), pairings (R97), scales (R82, R83,
R281), one K-step (R93 to R95), rows formed from several (R323, R324), the compressed row form (R290, R291), and drains
(R293 to R295). -/

namespace Sys2Proof.Machine

/-! ### Operand formats, by their codes (R78) -/

def mxWidth : Nat → Nat
  | 0 | 1 => 32
  | 2 | 3 | 20 => 16
  | 4 | 5 | 9 | 10 | 14 | 15 | 18 => 8
  | 6 | 7 | 11 | 12 => 6
  | 8 | 13 | 16 | 17 | 19 => 4
  | 21 | 22 => 2
  | _ => 1

def mxFmt : Nat → Option Fmt
  | 0 => some fmtF32 | 1 => some fmtF19 | 2 => some fmtBF16 | 3 => some fmtF16 | 4 | 9 => some fmtE5M2
  | 5 | 10 => some fmtE4M3 | 6 | 11 => some fmtE3M2 | 7 | 12 => some fmtE2M3 | 8 | 13 => some fmtE2M1 | _ => none

/-- An E8M0 scale for each block of the operand (R82). -/
def mxScaled (f : Nat) : Bool := 9 ≤ f && f ≤ 13 || f == 18 || f == 19
def mxFp6 (f : Nat) : Bool := mxWidth f == 6

/-- Whether an integer format is read as two's complement, with ASO or BSO as `uns` (R282). -/
def mxSigned (f : Nat) (uns : Bool) : Bool := match f with
  | 14 | 16 => true
  | 18 | 19 | 20 => !uns
  | _ => false

/-- The value of an element (R80, R81, R84). -/
def mxElem (f : Nat) (uns : Bool) (bits : Nat) : Ext := match mxFmt f with
  | some g => g.value bits
  | none => Ext.ofInt (match f with
    | 21 | 22 => ternary bits
    | 23 => if bits % 2 = 1 then 1 else -1
    | _ => intOf (mxSigned f uns) (mxWidth f) bits)

/-- The denominator that every finite value of a format has. -/
def mxDen (f : Nat) : Nat := match mxFmt f with
  | some g => 2 ^ (g.bias + g.man)
  | none => 1

/-- The first `n` elements of a packed stream (R79). -/
def mxElems (f : Nat) (uns : Bool) (n stream : Nat) : List Ext :=
  (List.range n).map fun k => mxElem f uns (stream / 2 ^ (mxWidth f * k) % 2 ^ mxWidth f)

/-! ### Pairings (R97, R198, R278) -/

/-- Elements per K-step of a pairing that the array accepts, with ACF 1 for INT32. -/
def pairing (a b : Nat) (acf : Bool) : Option Nat :=
  let both (l : List Nat) : Bool := l.contains a && l.contains b
  if a = 0 ∧ b = 0 ∨ a = 1 ∧ b = 1 then (if acf then none else some 16)
  else if both [2, 3] then (if acf then none else some 32)
  else if both [20] then (if acf then some 32 else none)
  else if both [4, 5, 6, 7, 9, 10, 11, 12] || both [18] then (if acf then none else some 64)
  else if both [14, 15] || [14, 15].contains a && [21, 23].contains b then (if acf then some 64 else none)
  else if both [8, 13] || both [19] then (if acf then none else some 128)
  else if both [16, 17] then (if acf then some 128 else none)
  else if [14, 15].contains a && b == 22 then (if acf then none else some 64)
  else none

/-- K-steps per slice, and the bytes of a column that one of them has (R198). -/
def kSteps (b : Nat) : Nat := match b with
  | 21 | 22 => 4
  | 23 => 8
  | _ => 1
def kBytes (b : Nat) : Nat := 64 / kSteps b

/-! ### The palette register (R282, R283, R290, R323) -/

def palA (p : Dword) : Nat := p.toNat % 32
def palB (p : Dword) : Nat := bitsOf p.toNat 9 5
def palAcf (p : Dword) : Bool := p.getLsbD 10
def palSat (p : Dword) : Bool := p.getLsbD 11
def palAso (p : Dword) : Bool := p.getLsbD 12
def palBso (p : Dword) : Bool := p.getLsbD 13
def palRnd (p : Dword) : Nat := bitsOf p.toNat 16 14
def palSwe (p : Dword) : Bool := p.getLsbD 18

/-- Elements per K-step of the pairing that PAL names; 0 where it names none. -/
def palE (p : Dword) : Nat := (pairing (palA p) (palB p) (palAcf p)).getD 0
/-- The check of a multiply or `swh`. -/
def palOk (p : Dword) : Bool := p.toNat < 2 ^ 19 && (pairing (palA p) (palB p) (palAcf p)).isSome
/-- The check of `mmab`: both formats 8 bits wide. -/
def palOkB (p : Dword) : Bool := palOk p && mxWidth (palA p) == 8 && mxWidth (palB p) == 8
/-- The rounding mode of a drain; none for a reserved code. -/
def palDrain (p : Dword) : Option Rnd := match palRnd p with
  | 0 => some .rne | 1 => some .rtz | 2 => some .rdn | 3 => some .rup | 4 => some .rs | _ => none

/-! ### Scales (R82, R83, R281) -/

def e8m0 (x : Nat) : Ext := if x % 256 = 255 then .nan else .fin false (2 ^ (x % 256)) (2 ^ 127)
/-- The scale of an A row, from the scale register's lane. -/
def scaleA (f : Nat) (x : Word) : Ext := if mxScaled f then e8m0 x.toNat else Ext.ofInt 1
/-- The scale of column `j`, from the scale lines. -/
def scaleB (f lines j : Nat) : Ext :=
  if mxScaled f then e8m0 (lines / 2 ^ (8 * j))
  else if f = 22 then fmtF16.value (lines / 2 ^ (16 * j) % 2 ^ 16)
  else Ext.ofInt 1

/-! ### One K-step (R93 to R95) -/

/-- A sum of products: what special values it has met, and the sum of the finite ones over a fixed denominator. -/
structure Sum where
  nan : Bool
  pinf : Bool
  ninf : Bool
  n : Int
  deriving DecidableEq, Repr

def Sum.zero : Sum := ⟨false, false, false, 0⟩

def Ext.isNeg : Ext → Bool
  | .nan => false
  | .inf neg | .fin neg _ _ => neg

/-- One product added: a zero factor gives zero, whatever the other factor. -/
def Sum.add (s : Sum) (a b : Ext) : Sum :=
  if a.isZero || b.isZero then s
  else match a, b with
    | .nan, _ | _, .nan => { s with nan := true }
    | .fin p x _, .fin q y _ => { s with n := s.n + signed (p != q) (x * y) }
    | x, y => if x.isNeg != y.isNeg then { s with ninf := true } else { s with pinf := true }

def Sum.value (s : Sum) (den : Nat) : Ext :=
  if s.nan || s.pinf && s.ninf then .nan
  else if s.pinf then .inf false
  else if s.ninf then .inf true
  else .fin (decide (s.n < 0)) s.n.natAbs den

/-- `S` of one element: the exact sum of the products of a row and a column. -/
def kSum (den : Nat) (a b : List Ext) : Ext :=
  ((a.zip b).foldl (fun (s : Sum) (x : Ext × Ext) => s.add x.1 x.2) Sum.zero).value den

/-- An FP32 accumulator element after a K-step. -/
def stepFp (acc : Nat) (sum sa sb : Ext) : Nat :=
  if sum.isZero then acc
  else match (fmtF32.value acc).add .rne ((sum.mul sa).mul sb) with
    | .fin _ 0 _ => 0
    | x => fmtF32.round .rne true 0 x

/-- An INT32 accumulator element after a K-step, and whether it was saturated. -/
def stepInt (acc : Nat) (sat : Bool) (sum : Ext) : Nat × Bool :=
  let y := sextOf acc 32 + (match sum with | .fin neg n _ => signed neg n | .nan | .inf _ => 0)
  let z := satTo y (-(2 ^ 31)) (2 ^ 31 - 1)
  if sat then (modTwo z 32, z != y) else (modTwo y 32, false)

/-- Row `i` of a tile after a K-step with the column sums `cols`, each with its column's scale (R95, R277). -/
def Tile.step (t : Tile) (pal : Dword) (i : Nat) (sa : Ext) (cols : List (Ext × Ext)) : Tile :=
  let row := vget t.rows i (Vector.replicate 64 0#32)
  let new := (row.toList.zip cols).map fun (x : Word × Ext × Ext) =>
    if palAcf pal then stepInt x.1.toNat (palSat pal) x.2.1 else (stepFp x.1.toNat x.2.1 sa x.2.2, false)
  { rows := vset t.rows i (Vector.ofFn fun j : Fin 64 => BitVec.ofNat 32 (new.getD j.val (0, false)).1),
    flag := t.flag || new.any fun x => x.2 }

/-! ### Operands of a multiply (R198, R279, R290, R291) -/

/-- The registers of a row as one stream. -/
def rowStream (a : List Lanes) (l : Nat) : Nat := ofBytesLE ((a.map fun (x : Lanes) => bytesLE 4 (lane x l).toNat).flatten)

/-- Column `c` of K-step `ks` of a slice. -/
def colElems (pal : Dword) (slice ks c : Nat) : List Ext :=
  mxElems (palB pal) (palBso pal) (palE pal) (slice / 2 ^ (8 * (64 * c + ks * kBytes (palB pal))))

/-- The 64 positions of a compressed row or column: the value of each set bit, and an exact zero for each other. -/
def expand (f : Nat) (uns : Bool) (map vals : Nat) : List Ext :=
  let bit (k : Nat) : Bool := map.testBit k
  (List.range 64).map fun k =>
    let p := ((List.range k).filter bit).length
    if bit k then mxElem f uns (vals / 2 ^ (8 * p) % 256) else Ext.ofInt 0

def sparseRow (pal : Dword) (a : List Lanes) (l : Nat) : List Ext :=
  let x := rowStream a l
  expand (palA pal) (palAso pal) (x % 2 ^ 64) (x / 2 ^ 64)
def sparseCol (pal : Dword) (slice map c : Nat) : List Ext :=
  expand (palB pal) (palBso pal) (map / 2 ^ (64 * c) % 2 ^ 64) (slice / 2 ^ (512 * c))

/-- The dense steps of a sparse pass: the positions set in some row of `ls` and in some column (R291). -/
def denseSteps (a : List Lanes) (ls : List Nat) (map : Nat) : Nat :=
  let rows := ls.foldl (fun x l => Nat.lor x (rowStream a l % 2 ^ 64)) 0
  let cols := (List.range 64).foldl (fun x c => Nat.lor x (map / 2 ^ (64 * c) % 2 ^ 64)) 0
  ceilDiv ((List.range 64).filter fun k => (Nat.land rows cols).testBit k).length 16

/-! ### Rows formed from the working rows of a bucket (R323, R324) -/

/-- The range of an integer A format. -/
def mxLo (f : Nat) (uns : Bool) : Int := if mxSigned f uns then -(2 ^ (mxWidth f - 1)) else 0
def mxHi (f : Nat) (uns : Bool) : Int := if mxSigned f uns then 2 ^ (mxWidth f - 1) - 1 else 2 ^ mxWidth f - 1

/-- An element formed from the members': their mean, or their sum when `grad` is set. -/
def formElem (f : Nat) (uns grad : Bool) (xs : List Ext) : Ext :=
  let s := xs.foldl (fun (s : Sum) x => s.add x (Ext.ofInt 1)) Sum.zero
  let n := if grad then 1 else xs.length
  match s.value (mxDen f) with
  | .nan => .nan
  | .inf neg => .inf neg
  | .fin neg num den => match mxFmt f with
    | some g => if num = 0 then Ext.ofInt 0 else g.value (g.round .rne false 0 (.fin neg num (den * n)))
    | none => Ext.ofInt (satTo (signed neg (choose .rne neg 0 (between num n))) (mxLo f uns) (mxHi f uns))

/-- A row formed from several, element by element. -/
def formRow (f : Nat) (uns grad : Bool) (n : Nat) (rows : List (List Ext)) : List Ext :=
  (List.range n).map fun k => formElem f uns grad (rows.map fun (r : List Ext) => r.getD k (Ext.ofInt 0))

/-! ### Drains (R294, R295) -/

/-- `drq` on the element of column `j`; `blk` is the requantisation block. -/
def requant (blk j : Nat) (acc rowsum : Word) (mode : Rnd) (u : Nat) (uns : Bool) : Nat :=
  let f (off : Nat) : Int := sextOf (blk / 2 ^ (8 * off)) 32
  let t := sextOf acc.toNat 32 + f (4 * j) - sextOf rowsum.toNat 32 * f 0x240
  let x := t * f (0x100 + 4 * j)
  let sh := blk / 2 ^ (8 * (0x200 + j)) % 32
  let neg : Bool := decide (x < 0)
  let v := signed neg (choose mode neg u (between x.natAbs (2 ^ (31 + sh))))
  modTwo (satTo (v + f 0x244) (if uns then 0 else -128) (if uns then 255 else 127)) 8

def ofMTy : MTy → ETy
  | .i32 => .i32 | .i8 => .i8 | .i16 => .i16 | .i64 => .i64 | .n32 => .n32 | .n8 => .n8 | .n16 => .n16 | .n64 => .n64
  | .f32 => .f32 | .f16 => .f16 | .bf16 => .bf16 | .e5m2 => .e5m2 | .e4m3 => .e4m3

end Sys2Proof.Machine
end

