-- ==== Sys2Proof/Machine/Array.lean ====
section
/-! DEFINITION. Machine/Array.lean: the array queue (R278, R286 to R288, R292, R298), the swatch state (R312 to R334, R475), and
what a pass does to tiles, registers, memory and the swatch state (R277, R303 to R308, R470). -/

namespace Sys2Proof.Machine

/-! ### Reads of the array (R280, R468, R470) -/

/-- The lines of a read, each with whether it is poisoned. -/
def readLines (m : Memory) (segs : List (Nat × Nat)) : List (Nat × Bool) :=
  segs.map fun x => (m.read x.1 64, m.poisoned x.1)

/-- `n` lines from line `i` on as one number; none where poison is met under policy 0. -/
def linesOf (b : List (Nat × Bool)) (segs : List (Nat × Nat)) (i : Nat) : Nat → Option Nat
  | 0 => some 0
  | n + 1 =>
    let x := b.getD i (0, false)
    if x.2 && (segs.getD i (0, 0)).2 != 1 then none
    else (linesOf b segs (i + 1) n).map fun r => (if x.2 then 0 else x.1) + 2 ^ 512 * r

/-! ### The swatch state (R314 to R323, R475) -/

/-- A swatch operation's configuration (R328). -/
def swConfig (pset : Dword) (planes width : Nat) (rule : SwRule) : Swatch :=
  { Swatch.reset with pset := pset, p := planes, w := width, rule := rule }

/-- The value of a signature, a NaN counting as 0, as its magnitude over a fixed denominator (R320). -/
def sigMag (x : Word) : Nat := match fmtF32.value x.toNat with
  | .nan => 0
  | .inf _ => 2 ^ 300
  | .fin _ n _ => n

def Swatch.sigAt (w : Swatch) (i p : Nat) : Word := vget (vget w.sig i (Vector.replicate 16 0#32)) p 0#32

/-- One K-step added to the signature of row `i` and plane `p` (R318). -/
def Swatch.addSig (w : Swatch) (den : Nat) (i p : Nat) (row codes : List Ext) (sa : Ext) : Swatch :=
  let x := stepFp (w.sigAt i p).toNat (kSum den row codes) sa (Ext.ofInt 1)
  { w with sig := vset w.sig i (vset (vget w.sig i (Vector.replicate 16 0#32)) p (BitVec.ofNat 32 x)) }

/-- KEY of a row (R319). -/
def Swatch.key (w : Swatch) (i : Nat) : Nat :=
  (List.range w.w).foldl (fun k p =>
    2 * k + (match fmtF32.value (w.sigAt i p).toNat with
      | .nan | .inf true => 0
      | .inf false => 1
      | .fin neg n _ => if n != 0 && !neg then 1 else 0)) 0

def Swatch.row (w : Swatch) (i : Nat) : SwRow := vget w.rows i { val := false, rep := false, bkt := 0, rpr := i }

/-- The row with the largest key of a list, the first of equal ones. -/
def maxRow (f : Nat → Nat) : List Nat → Nat
  | [] => 0
  | i :: is => is.foldl (fun b j => if f b < f j then j else b) i

/-- The table of buckets of `ms`: each is its key, its members in increasing order and its representative. -/
def Swatch.withBuckets (w : Swatch) (bs : List (Nat × List Nat × Nat)) : Swatch :=
  { w with
    tv := true, nb := bs.length,
    rows := Vector.ofFn fun i : Fin 32 =>
      match bs.findIdx? fun b => b.2.1.contains i.val with
      | none => { val := false, rep := false, bkt := 0, rpr := i.val }
      | some k => let r := (bs.getD k (0, [], 0)).2.2
                  { val := true, rep := r == i.val, bkt := k, rpr := r },
    buckets := Vector.ofFn fun i : Fin 32 => match bs[i.val]? with
      | none => (0, 0)
      | some b => (b.1, b.2.1.length) }

/-- The rows of a list grouped by a key, the groups in order of their lowest member (R319, R332). -/
def groupRows (f : Nat → Nat) (ls : List Nat) : List (Nat × List Nat) :=
  (ls.map f).eraseDups.map fun k => (k, ls.filter fun i => f i == k)

/-- `swb` (R319, R320). -/
def Swatch.form (w : Swatch) (act : Mask) : Swatch :=
  w.withBuckets ((groupRows w.key act.list).map fun b => (b.1, b.2, match w.rule with
    | .first | .mean => b.2.headD 0
    | .maxn => maxRow (fun i => sigMag (w.sigAt i 0)) b.2))

/-- The membership map (R321, R331). -/
def Swatch.map (w : Swatch) : List Byte :=
  (List.range 32).map (fun i =>
    if w.tv then
      let r := w.row i
      BitVec.ofNat 8 ((if r.rep then 128 else 0) + (if r.val then 32 else 0) + r.rpr)
    else BitVec.ofNat 8 i)
  ++ (List.range 32).map fun r =>
    if w.tv && (w.row r).rep then BitVec.ofNat 8 (vget w.buckets (w.row r).bkt (0, 0)).2 else 0#8

/-- `swl` of a map: the nearest consistent one (R332, R475). -/
def Swatch.load (w : Swatch) (line : Nat) : Swatch :=
  let b (i : Nat) : Nat := line / 2 ^ (8 * i) % 256
  let isRep (i : Nat) : Bool := (b i).testBit 5 && (b i).testBit 7 && b i % 32 == i
  let member (i : Nat) : Bool := (b i).testBit 5 && isRep (b i % 32)
  w.withBuckets ((groupRows (fun i => b i % 32) ((List.range 32).filter member)).map fun g => (0, g.2, g.1))

/-- The buckets that take part, in increasing bucket number (R316, R322); `table` says whether the swatch table counts. -/
def Swatch.taking (w : Swatch) (table : Bool) (act : Mask) : List Bucket :=
  if table && w.tv then
    (List.range w.nb).filterMap fun k =>
      let ms := (List.range 32).filter fun i => (w.row i).val && (w.row i).bkt == k && act.has i
      match ms with
      | [] => none
      | i :: _ =>
        let r := (w.row i).rpr
        some { rep := if ms.contains r then r else i, rows := ms }
  else act.list.map fun i => { rep := i, rows := [i] }

/-! ### The rows of a multiply (R277, R301, R302, R334) -/

/-- The active rows of a quarter. -/
def quarterRows (m : Mask) (q : Nat) : List Nat := m.list.filter fun l => l / 8 == q
/-- The quarters that hold a lane of `m`. -/
def quartersOf (m : Mask) : List Nat := (List.range 4).filter fun q => !(quarterRows m q).isEmpty

/-- Rows to update, the A row they take and its scale. -/
structure Job where
  rows : List Nat
  a : List Ext
  sa : Ext
  deriving DecidableEq, Repr

def Pass.arow (p : Pass) (l : Nat) : List Ext := mxElems (palA p.pal) (palAso p.pal) (palE p.pal) (rowStream p.a l)
def Pass.scale (p : Pass) (l : Nat) : Ext := scaleA (palA p.pal) (lane p.sc l)

/-- The buckets of a swatch multiply's pass, eight to a pass, and the rule (R334). -/
def Pass.served (p : Pass) (w : Swatch) : List Bucket × SwRule := match p.buckets with
  | some x => x
  | none =>
    let bs := (w.taking (palSwe p.pal) p.lanes).drop (8 * p.part)
    (if p.last then bs else bs.take 8, w.rule)

def Pass.jobs (p : Pass) (w : Swatch) : List Job := match p.instr with
  | .mmas _ _ _ _ _ _ _ _ =>
    let x := p.served w
    x.1.map fun (b : Bucket) => match x.2 with
      | .first | .maxn => ⟨b.rows, p.arow b.rep, p.scale b.rep⟩
      | .mean =>
        if b.rows.length = 1 then ⟨b.rows, p.arow b.rep, Ext.ofInt 1⟩
        else ⟨b.rows, formRow (palA p.pal) (palAso p.pal) false (palE p.pal) (b.rows.map p.arow), Ext.ofInt 1⟩
  | .mmag _ _ _ _ _ _ _ =>
    (p.served w).1.map fun (b : Bucket) =>
      ⟨[b.rep], if b.rows.length = 1 then p.arow b.rep
                else formRow (palA p.pal) (palAso p.pal) true (palE p.pal) (b.rows.map p.arow), Ext.ofInt 1⟩
  | .mmab _ _ _ _ _ _ _ => (quarterRows p.lanes p.part).map fun l => ⟨[l], sparseRow p.pal p.a l, p.scale l⟩
  | _ => (quarterRows p.lanes p.part).map fun l => ⟨[l], p.arow l, p.scale l⟩

/-- The K-step index of a multiply. -/
def ksOf : Instr → Nat
  | .mma _ _ _ _ ks _ _ _ | .mmas _ _ _ _ ks _ _ _ | .mmag _ _ _ _ ks _ _ => ks.val
  | _ => 0

/-- The columns of a multiply with their scales, from its read; none where poison stops it. -/
def Pass.cols (p : Pass) (b : List (Nat × Bool)) : Option (List (List Ext × Ext)) :=
  let sparse : Bool := p.instr matches .mmab ..
  let maps := if sparse then 8 else 0
  match linesOf b p.segs 0 64, linesOf b p.segs 64 maps, linesOf b p.segs (64 + maps) (p.segs.length - 64 - maps) with
  | some slice, some map, some sc => some ((List.range 64).map fun c =>
      (if sparse then sparseCol p.pal slice map c else colElems p.pal slice (ksOf p.instr) c, scaleB (palB p.pal) sc c))
  | _, _, _ => none

/-- A tile after a pass (R93 to R96). -/
def Tile.multiply (t : Tile) (pal : Dword) (cols : List (List Ext × Ext)) (jobs : List Job) : Tile :=
  jobs.foldl (fun (t : Tile) (j : Job) =>
    let sums := cols.map fun c => (kSum (mxDen (palA pal) * mxDen (palB pal)) j.a c.1, c.2)
    j.rows.foldl (fun (t : Tile) i => t.step pal i j.sa sums) t) t

/-! ### Passes on tiles, registers and memory -/

def State.onOpOf (s : State) (w op : Nat) (f : Op → Op) : State :=
  s.onSplit w fun v => { v with ops := v.ops.map fun (o : Op) => if o.id = op then f o else o }
def State.onTile (s : State) (gid t : Nat) (f : Tile → Tile) : State :=
  s.onGroup gid fun g => { g with tiles := g.tiles.mapIdx fun i (x : Tile) => if i = t then f x else x }
def State.tileOf (s : State) (gid t : Nat) : Tile :=
  (((s.group? gid).map fun (g : Group) => g.tiles).getD []).getD t { rows := Vector.replicate 32 (Vector.replicate 64 0#32), flag := false }
def State.swatchOf (s : State) (gid : Nat) : Swatch := ((s.group? gid).map fun (g : Group) => g.swatch).getD Swatch.reset
def State.onSwatch (s : State) (gid : Nat) (f : Swatch → Swatch) : State :=
  s.onGroup gid fun g => { g with swatch := f g.swatch }
def Tile.row (t : Tile) (i : Nat) : Vector Word 64 := vget t.rows i (Vector.replicate 64 0#32)

/-- The instruction meets poison: the split takes POISON once it completes (R470). -/
def State.passPoison (s : State) (p : Pass) (wr : Bool) : State :=
  s.onOpOf p.split p.op fun o => { o with late := some (if wr then 1 else o.late.getD 0) }
/-- Writes that land when the operation completes. -/
def State.passWrites (s : State) (p : Pass) (ws : List Wr) : State :=
  s.onOpOf p.split p.op fun o => { o with writes := o.writes ++ ws }

/-- Columns of rows read into registers (R304). -/
def readCols (t : Tile) (d j0 n : Nat) (ls : List Nat) : List Wr :=
  (List.range n).map fun m => .v (d + m) (Mask.ofList ls) (lanesOf fun l => vget (t.row l) (j0 + m) 0#32)

/-- Columns of rows written from the registers copied (R304). -/
def writeCols (t : Tile) (a : List Lanes) (j0 : Nat) (ls : List Nat) : Tile :=
  ls.foldl (fun (t : Tile) l =>
    { t with rows := vset t.rows l (Vector.ofFn fun j : Fin 64 =>
        if j0 ≤ j.val ∧ j.val < j0 + a.length then lane (a.getD (j.val - j0) (Vector.replicate 32 0#32)) l
        else (t.row l)[j]) }) t

/-- The output elements of row `l` of a drain (R294, R295); none where its block is poisoned. -/
def drainRow (p : Pass) (t : Tile) (blk : Nat) (mode : Rnd) (l : Nat) : List Nat :=
  let row := t.row l
  let draw (m : Nat) : Nat := drawOf mode (lane p.seeds l) m
  match p.instr with
  | .drq _ _ _ _ _ uns j0 n _ => (List.range (n.val + 1)).map fun m =>
      requant blk (j0.val + m) (vget row (j0.val + m) 0#32) (lane p.sc l) mode (draw m) uns
  | .drf _ _ _ ty sat ofn j0 n _ => (List.range (n.val + 1)).map fun m =>
      convert (ofMTy ty) (if palAcf p.pal then .i32 else .f32) mode ofn sat (draw m) (vget row (j0.val + m) 0#32).toNat
  | _ => []

/-- Elements of `sz` bytes as the bytes of a row of output (R306). -/
def outBytes (sz : Nat) (xs : List Nat) : List Byte := (xs.map fun x => bytesLE sz x).flatten

/-- Output rows of `n` bytes in registers from `d` on: the bits of each row's elements, and no others (R306). -/
def outRegs (d sz n : Nat) (rows : List (Nat × List Nat)) : List Wr :=
  (List.range (ceilDiv n 4)).map fun k =>
    .vbits (d + k) (Mask.ofList (rows.map fun r => r.1))
      (Vector.replicate 32 (BitVec.ofNat 32 (2 ^ (8 * Nat.min 4 (n - 4 * k)) - 1)))
      (lanesOf fun l => match rows.find? fun r => r.1 == l with
        | none => 0#32
        | some r => BitVec.ofNat 32 (ofBytesLE (((outBytes sz r.2).drop (4 * k)).take 4)))

/-- Bytes written line by line to the lines of a lane; a line that poison refuses stays unwritten (R306, R469, R470). -/
def State.drainOut (s : State) (p : Pass) (tag : Nat) : List (Nat × Nat) → List Byte → State
  | [], _ => s
  | x :: xs, bs =>
    let t := match s.writeHome x.1 (bs.take 64) x.2 tag with
      | some u => u
      | none => s.passPoison p true
    t.drainOut p tag xs (bs.drop 64)

/-- The lines that a pass writes, with the bytes of each lane's row (R306, R331). -/
def Pass.outLines (p : Pass) : List (Nat × Nat) := match p.instr with
  | .swm _ _ _ _ => ((p.outs.map fun x => x.2).flatten.drop p.part).take 1
  | _ => ((p.outs.filter fun x => (quarterRows p.lanes p.part).contains x.1).map fun x => x.2).flatten

/-- Expansion of a tile's representative rows (R325). -/
def expandRows (t : Tile) (w : Swatch) (acf : Bool) (act : Mask) (j0 n : Nat) : Tile :=
  if !w.tv then t
  else (w.taking true act).foldl (fun (u : Tile) (b : Bucket) =>
    let x := t.row b.rep
    let cnt := (vget w.buckets (w.row b.rep).bkt (0, 1)).2
    let share (v : Word) : Word := match w.rule with
      | .first | .maxn => v
      | .mean =>
        if acf then
          let y := sextOf v.toNat 32
          BitVec.ofInt 32 (signed (decide (y < 0)) (choose .rne (decide (y < 0)) 0 (between y.natAbs cnt)))
        else BitVec.ofNat 32 (fmtF32.round .rne true 0 ((fmtF32.value v.toNat).mul (.fin false 1 cnt)))
    b.rows.foldl (fun (u : Tile) i =>
      { u with rows := vset u.rows i (Vector.ofFn fun j : Fin 64 =>
          if j0 ≤ j.val ∧ j.val < j0 + n then share x[j] else (u.row i)[j]) }) u) t

/-- The progress of a pass's `mmab`: MSTEP of its split, or that of its own where two of a merged split stand (R292, R474; log
entry 14). -/
def State.mstepOf (s : State) (p : Pass) : Dword := match s.split? p.split with
  | none => 0#64
  | some v => match v.op? p.op with
    | some o => if o.clm then o.cidx else v.mstep
    | none => v.mstep

def State.onMstep (s : State) (p : Pass) (f : Dword → Dword) : State :=
  s.onSplit p.split fun v => match v.op? p.op with
    | some o => if o.clm then { v with ops := v.ops.map fun (x : Op) => if x.id = o.id then { x with cidx := f x.cidx } else x }
                else { v with mstep := f v.mstep }
    | none => { v with mstep := f v.mstep }

/-- MSTEP after a pass of `mmab` (R292). -/
def stepMstep (m : Dword) (q steps : Nat) : Dword :=
  (m &&& ~~~ 0xFF00#64) ||| BitVec.ofNat 64 ((bitsOf m.toNat 15 8 + steps) % 256 * 256) ||| (1#64 <<< q)

/-- A multiply's pass. -/
def State.runMultiply (s : State) (p : Pass) (b : List (Nat × Bool)) : State := match p.cols b with
  | none => s.passPoison p false
  | some cols => s.onTile p.group p.tile fun t => t.multiply p.pal cols (p.jobs (s.swatchOf p.group))

/-- What a pass does at its slot; `b` holds the lines of its group's read. -/
def State.runPass (s : State) (p : Pass) (b : List (Nat × Bool)) : State :=
  let t := s.tileOf p.group p.tile
  let w := s.swatchOf p.group
  let ls := quarterRows p.lanes p.part
  let tag := ((s.split? p.split).map fun (v : Split) => v.asid).getD 0
  let drain (sz n : Nat) (dst : DrDst) (blk : Option Nat) : State := match blk, palDrain p.pal with
    | some x, some mode =>
      let rows := ls.map fun l => (l, drainRow p t x mode l)
      match dst with
      | .regs d => s.passWrites p (outRegs (p.wb + d.val) sz (sz * (n + 1)) rows)
      | .vault _ _ => rows.foldl (fun (u : State) r =>
          u.drainOut p tag ((p.outs.filter fun x => x.1 == r.1).map fun x => x.2).flatten (outBytes sz r.2)) s
    | _, _ => s.passPoison p false
  match p.instr with
  | .mma _ _ _ _ _ _ _ _ | .mmas _ _ _ _ _ _ _ _ | .mmag _ _ _ _ _ _ _ => s.runMultiply p b
  | .mmab _ _ _ _ _ _ _ =>
    if (s.mstepOf p).getLsbD p.part then s
    else if (p.cols b).isNone then s.passPoison p false
    else
      let steps := match linesOf b p.segs 64 8 with
        | some map => denseSteps p.a ls map
        | none => 0
      (s.runMultiply p b).onMstep p fun m => stepMstep m p.part steps
  | .accz _ all _ _ =>
    let rows := if all then (List.range 8).map fun i => 8 * p.part + i else ls
    s.onTile p.group p.tile fun x =>
      { rows := rows.foldl (fun v i => vset v i (Vector.replicate 64 0#32)) x.rows, flag := false }
  | .accrd _ d _ j0 n _ => s.passWrites p (readCols t (p.wb + d.val) j0.val (n.val + 1) ls)
  | .accwr _ _ _ j0 _ _ => s.onTile p.group p.tile fun x => writeCols x p.a j0.val ls
  | .accst _ d _ _ =>
    (s.passWrites p [.s d.val (if t.flag then 1#64 else 0#64)]).onTile p.group p.tile fun x => { x with flag := false }
  | .drq _ dst _ _ _ _ _ n _ => drain 1 n.val dst (linesOf b p.segs 0 10)
  | .drf _ dst _ ty _ _ _ n _ => drain ty.size n.val dst (some 0)
  | .swc _ rule _ planes width _ =>
    s.onSwatch p.group fun _ => swConfig p.pal (planes.val + 1) (width.val + 1) rule
  | .swh _ _ _ _ _ => match linesOf b p.segs 0 p.segs.length with
    | none => s.passPoison p false
    | some x => s.onSwatch p.group fun w =>
        let den := mxDen (palA p.pal)
        ls.foldl (fun (u : Swatch) i => (List.range w.p).foldl (fun (u : Swatch) q =>
          u.addSig den i q (p.arow i) (mxElems 21 false (palE p.pal) (x / 2 ^ (256 * q))) (p.scale i)) u) w
  | .swb _ _ => s.onSwatch p.group fun x => x.form p.lanes
  | .swm _ form _ _ =>
    let bs := match form with
      | .map => w.map
      | .tab => swTab w
      | .sig => swSig w
    s.drainOut p tag p.outLines ((bs.drop (64 * p.part)).take 64)
  | .swl _ _ _ => match linesOf b p.segs 0 1 with
    | none => s.passPoison p false
    | some x => s.onSwatch p.group fun w => w.load x
  | .swx _ _ j0 n _ =>
    if p.part = 0 then s.onTile p.group p.tile fun x => expandRows x w (palAcf p.pal) p.lanes j0.val (n.val + 1) else s
  | _ => s

/-! ### Acceptance and fusion (R286, R287, R298) -/

def rowsMeet (a b : Nat × Nat × Mask) : Bool := a.1 == b.1 && a.2.1 == b.2.1 && (a.2.2 &&& b.2.2) != 0#32
def Pass.touch (p : Pass) : Nat × Nat × Mask := (p.group, p.tile, p.rows)

/-- The place that stands for the swatch state of a group among the rows of its tiles. -/
def swatchPlace (group : Nat) : Nat × Nat × Mask := (group, 64, BitVec.allOnes 32)

/-- What a pass changes: its rows, or the swatch state of its group (R286, R312). -/
def Pass.changes (p : Pass) : Nat × Nat × Mask := match p.instr with
  | .swc _ _ _ _ _ _ | .swh _ _ _ _ _ | .swb _ _ | .swl _ _ _ => swatchPlace p.group
  | _ => p.touch

/-- Whether a change by another pass comes before the pass: of its rows, or of the swatch state that a swatch multiply reads. -/
def Pass.after (p : Pass) (x : Nat × Nat × Mask) : Bool :=
  rowsMeet x p.touch || match p.instr with
    | .mmas _ _ _ _ _ _ _ _ | .mmag _ _ _ _ _ _ _ => x == swatchPlace p.group
    | _ => false

/-- Every group that the pass does not join notes what it changes. -/
def noteOutside (p : Pass) (g : FGroup) : FGroup := { g with outside := g.outside ++ [p.changes] }

/-- Whether a pass with key `key`, accepted at cycle `now`, joins a group (R287). -/
def FGroup.joins (g : FGroup) (key : List Nat) (now : Nat) (p : Pass) : Bool :=
  g.key == some key && now ≤ g.t0 + 7 && g.count < 16 && !(g.outside.any p.after)

/-- A pass joins the oldest group that takes it, or starts one. A group that has made its read makes it again for the passes
left, since the read of a pass comes after its issue (R230, R231, R234; DESIGN CHOICE, log entry 70). -/
def acceptPass (key : List Nat) (now : Nat) (p : Pass) : List FGroup → List FGroup
  | [] => [{ key := some key, t0 := now, count := 1, passes := [p], outside := [], b := none }]
  | g :: gs =>
    if g.joins key now p then { g with count := g.count + 1, passes := g.passes ++ [p], b := none } :: gs.map (noteOutside p)
    else noteOutside p g :: acceptPass key now p gs

/-- The passes of an instruction that does not fuse stand in a group of their own, and share its read. -/
def acceptAlone (now : Nat) (ps : List Pass) (q : List FGroup) : List FGroup :=
  q.map (fun g => ps.foldl (fun (g : FGroup) p => noteOutside p g) g)
    ++ [{ key := none, t0 := now, count := ps.length, passes := ps, outside := [], b := none }]

/-- The passes in a queue. -/
def queued (q : List FGroup) : Nat := (q.map fun (g : FGroup) => g.passes.length).sum

/-! ### Slots (R278, R287) -/

/-- Whether the pass may take its slot now (R218, R230, R231, R346, R360). -/
def State.passFree (s : State) (p : Pass) (read : Bool) : Bool := match s.split? p.split with
  | none => true
  | some v => match v.ops.find? fun (o : Op) => o.id == p.op with
    | none => true
    | some o =>
      let moves : Bool := read && !p.segs.isEmpty || !p.outLines.isEmpty
      v.clearOf o Op.holdsAll && !(moves && s.pathHeld v o.id)
        && (!read || p.segs.all fun x => !s.hostWaits x.1 false)
        && p.outLines.all fun x =>
          v.clearOf o (fun e => e.blocks x.1 64) && !s.hostWaits x.1 true && !s.heldOff x.1 64 (some p.split)

/-- Whether the read of a group may be made now: for every pass that it serves. -/
def State.groupFree (s : State) (g : FGroup) : Bool := g.b.isSome || g.passes.all fun (p : Pass) => s.passFree p true

/-- Half slots of a pass (R278). -/
def Pass.halves (p : Pass) : Nat := match p.instr with
  | .mma _ _ _ _ _ _ _ _ | .mmas _ _ _ _ _ _ _ _ | .mmag _ _ _ _ _ _ _ | .mmab _ _ _ _ _ _ _ =>
    if palA p.pal = 0 && palB p.pal = 0 then 4 else if 21 ≤ palB p.pal then 1 else 2
  | _ => 2

/-- The key of the group that may share slots with this one: the next K-step of the same slice (R278). -/
def partnerKey (key : List Nat) : List Nat := key.mapIdx fun i x => if i = 3 then x + 1 else x

/-- The pass of the group that stands next in the queue and shares the slot of `p`: on the same rows, of which no other pass
is left before it (R96, R278). -/
def partnerOf (g : FGroup) (p : Pass) : List FGroup → Option Pass
  | [] => none
  | h :: _ =>
    if p.halves = 1 && g.key.isSome && h.key == g.key.map partnerKey
        && !((g.passes.erase p).any fun (y : Pass) => rowsMeet y.touch p.touch) then
      (h.passes.find? fun (x : Pass) => rowsMeet x.touch p.touch).filter fun (x : Pass) => x.touch == p.touch
    else none

/-- The multiplies, whose rows are updated 16 cycles after the slot (R301). -/
def isMultiply : Instr → Bool
  | .mma _ _ _ _ _ _ _ _ | .mmas _ _ _ _ _ _ _ _ | .mmag _ _ _ _ _ _ _ | .mmab _ _ _ _ _ _ _ => true
  | _ => false

/-- The pass `p` of group number `i` of the queue takes its slot. -/
def State.takePass (s : State) (k c i : Nat) (g : FGroup) (p : Pass) : State :=
  let b := match g.b with
    | some x => x
    | none => readLines s.mem p.segs
  let now := (s.core k c).cycle
  let r := if g.b.isNone then p.segs.foldl (fun (t : State) x => t.logPois x.1 x.2) s else s
  let t := (r.runPass p b).onOpOf p.split p.op fun o =>
    { o with due := Nat.max o.due (if isMultiply p.instr then now + 16 else now) }
  t.onCore k c fun q => { q with queue := q.queue.mapIdx fun j (h : FGroup) =>
    if j = i then { h with b := some b, passes := h.passes.erase p } else h }

/-- Groups without passes leave the queue. -/
def sweepQueue (q : List FGroup) : List FGroup := q.filter fun (g : FGroup) => !g.passes.isEmpty

/-- The pass whose slot may be now, with its group. -/
def State.nextPass (s : State) (k c : Nat) : Option (FGroup × Pass) :=
  let q := s.core k c
  match q.queue with
  | [] => none
  | g :: _ => match g.passes with
    | [] => none
    | p :: _ =>
      if g.t0 < q.cycle && q.slotAt ≤ q.cycle && q.cycle % 8 < q.kstep && s.passFree p g.b.isNone && s.groupFree g then
        some (g, p)
      else none

/-- The first cycle after `now` whose slot the throttle leaves (R278). -/
def nextSlot (now k : Nat) : Nat := if (now + 1) % 8 < k then now + 1 else 8 * ((now + 1) / 8 + 1)

/-- PASS: the next pass takes its slot, with its partner where it has one (R278, R287). -/
def execPass (k : Fin 16) (c : Fin 8) (s : State) : Out := match s.nextPass k.val c.val with
  | none => .next s
  | some (g, p) =>
    let q := (s.core k.val c.val).queue
    let now := (s.core k.val c.val).cycle
    let t := s.takePass k.val c.val 0 g p
    let u := match partnerOf g p q.tail, q.tail with
      | some x, h :: _ => if h.t0 < now && t.passFree x h.b.isNone && t.groupFree h then t.takePass k.val c.val 1 h x else t
      | _, _ => t
    .next (u.onCore k.val c.val fun x => { x with
      queue := sweepQueue x.queue, slotAt := (if p.halves = 4 then nextSlot now x.kstep else now) + 1 })

/-- An array instruction completes once its passes are done, unless it has a fault (R288, R292, R451, R470). -/
def State.serveArray (s : State) (o : Op) : Option State :=
  let c := s.myCore
  if (c.queue.any fun (g : FGroup) => g.passes.any fun (p : Pass) => p.op == o.id) || c.cycle < o.due || o.faulted then none
  else
    let t := match o.late with
      | none => s
      | some d => { s with me := { s.me with pend := { s.me.pend with late := some (s.me.pend.late.getD d) } } }
    let u := if (o.instr matches .mmab ..) && !o.clm then { t with me := { t.me with mstep := 0#64 } } else t
    some (u.complete o)

end Sys2Proof.Machine
end

