-- ==== Sys2Proof/Machine/External.lean ====
section
/-! DEFINITION. Machine/External.lean: events that reach a split from outside its instruction stream, in the order of R403:
halts (R404, R405), deferred faults (R383, R391), stops (R431), forced pre-emption (R75, R435) and slice expiry (R406). -/

namespace Sys2Proof.Machine

/-- A forced save, once everything that a frame does not capture has completed (R435). -/
def State.forcedSave (s : State) (pc : Dword) : State :=
  let t := s.endRun
  if t.saveReady then t.saveNow true pc else t.waitFor [.quiet] (.forced pc)

/-- The split keeps its arrival, and enters its wait again when it resumes (R135, R431, R435). -/
def State.keepArrival (s : State) : State := { s with me := { s.me with rewait := s.me.status, pc := s.me.pc + 4#64 } }

/-- What can reach a split where it stands: nothing, the stop of its group and a forced save only, or every event. -/
inductive Reach
  | nothing
  | saves
  | all
  deriving DecidableEq, Repr

def Split.reach (w : Split) : Reach :=
  if w.inHandler || w.pend.kill then .nothing
  else match w.status with
    | .run => if w.inRun then .nothing else .all
    | .wait _ k => match k with
      | .save _ | .trap _ | .stop _ | .forced _ => .nothing
      | _ => if w.inRun then .nothing else .all
    | .bwt _ _ _ _ | .parked _ => .all
    | .legs _ | .leaving (.access _) => .all
    | .join _ | .barrier _ _ => .saves
    | .arriving _ | .leaving _ | .transit | .replayable | .saved | .stored | .ended => .nothing

/-- A split that still drains for its `yield`, which has not acted (R430): its group stops it there (R431). -/
def Split.draining (w : Split) : Bool := !w.inHandler && !w.pend.kill && match w.status with
  | .wait (.toks _ :: _) (.save _) | .wait (.probe :: _) (.save _) | .wait (.answers :: _) (.save _) => true
  | _ => false

/-- A split that a deferred fault can stop: within its run too, before its next issue, but not inside a wait that has
acted, nor while a split number is on its way (R383, R430, R435). -/
def Split.faultable (w : Split) : Bool :=
  w.mustTrap && !w.pend.kill && match w.status with
    | .run | .bwt _ _ _ _ | .parked _ | .legs _ | .leaving (.access _) => true
    | .wait steps k => match k with
      | .trap _ | .stop _ | .forced _ => false
      | _ => steps.head? != some .number
    | .join _ | .barrier _ _ | .arriving _ | .leaving _ | .transit | .replayable | .saved | .stored | .ended => false

/-- A halt that stands for the split is taken now (R404, R405, R431): BREAK with DETAIL 1, or the stop of its group. -/
def State.takeHalt (s : State) : Option State :=
  let w := s.me
  match w.reach with
  | .nothing => if w.pend.stop && w.draining then some (s.stopSplit w.framePc) else none
  | .saves => if w.pend.stop then some (s.keepArrival.stopSplit s.keepArrival.me.pc) else none
  | .all =>
    if w.pend.stop then some (s.stopSplit w.framePc)
    else if w.pend.halt then
      some (({ s with me := { w with pend := { w.pend with halt := false } } }).raise ⟨.brk, 1, 0, w.framePc, w.toks⟩)
    else none

/-- Instructions whose effect ends a run whatever their end-of-run flag holds (R67). -/
def endsAnyRun : Instr → Bool
  | .bra _ _ | .brx _ _ | .call _ _ _ _ _ | .callx _ _ _ _ _ | .ret _ | .join _ _ | .barw _ _ | .exit _ | .rft _
  | .ctxld _ _ | .fence _ _ _ | .bobs _ _ _ _ _ _ _ | .trap _ _ | .brk _ _ => true
  | _ => false

/-- Whether a `yield` stands in what is left of the split's run: `n` instructions at most, from `pc` on. -/
def State.yieldAhead (s : State) (pc : Dword) : Nat → Bool
  | 0 => false
  | n + 1 => match fetchBytes s s.me.stack s.me.core s.me.asid pc.toNat 4 with
    | .error _ => false
    | .ok (x, _) => match fetchBytes s s.me.stack s.me.core s.me.asid pc.toNat (lenBytes (Fields.unpack x).len) with
      | .error _ => false
      | .ok (y, _) => match decodeWord y with
        | .error _ => false
        | .ok i =>
          (i matches .yield ..)
            || !((encodeF i).hd.e || endsAnyRun i) && s.yieldAhead (pc + BitVec.ofNat 64 i.bytes) n

/-- A split stalled at the issue of an instruction: with a full array queue, as the 33rd operation or for a second `mmab`, or
with its waits over for a full post tracker (R381, R435). One whose run contains its `yield` goes on to it (R75). -/
def State.stalledHere (s : State) : Bool :=
  let w := s.me
  w.inRun && !w.inHandler && (match w.status with
    | .run => w.stalled
    | .wait [] k => match k with
      | .start _ | .bara _ _ _ | .exit _ => true
      | _ => false
    | _ => false) && !s.yieldAhead w.pc (24 - w.runLen)

/-- A forced pre-emption that stands for the split is taken now, where no fault comes first (R403, R435). -/
def State.takeForced (s : State) : Option State :=
  let w := s.me
  if !w.pend.preempt || w.pend.kill || w.faulting then none
  else match w.reach with
    | .saves => some (s.keepArrival.forcedSave s.keepArrival.me.pc)
    | .all => some (s.forcedSave w.framePc)
    | .nothing => if s.stalledHere then some (s.forcedSave w.pc) else none

/-- A slice that has expired breaks the split (R406). -/
def State.takeSlice (s : State) : Option State :=
  let w := s.me
  if w.pend.slice && w.reach == .all then
    some (({ s with me := { w with pend := { w.pend with slice := false } } }).raise ⟨.brk, 2, 0, w.framePc, w.toks⟩)
  else none

/-- The fault to be taken, where its lane accesses the split's own frame: its class, and whether it may write (R395, R440). -/
def State.frameFault (s : State) : Option (TClass × Bool) := match s.me.ops.find? Op.faulted with
  | some o =>
    let l := ((o.lanesAt 3).lowest).getD 0
    if (vget o.addr l 0#64).toNat / 65536 == s.frameVa.toNat / 65536 then
      some (tclassOf ((vget o.stat l 0#8).toNat % 32), mayWrite o.instr)
    else none
  | none => none

/-- A deferred fault is taken (R383, R394, R429); that of a handler's access to its own frame is the save fault (R395,
R440). -/
def State.takeFault (s : State) : Option State :=
  if !s.me.faultable then none
  else match (if s.me.inHandler then s.frameFault else none) with
    | some (c, wr) => some (s.endRun.saveFault c wr)
    | none =>
      let t := s.deferredTrap
      if s.me.ops.any Op.faulted || s.me.haltFirst t.cls then some (s.raise t)
      else some (({ s with me := { s.me with pend := { s.me.pend with late := none } } }).raise t)

/-- The first of the events that stand for the split, in the order of R403. -/
def State.takeFirst (s : State) : Option State :=
  match s.takeHalt with
  | some t => some t
  | none => match s.takeFault with
    | some t => some t
    | none => match s.takeForced with
      | some t => some t
      | none => s.takeSlice

end Sys2Proof.Machine
end

