-- ==== Sys2Proof/Machine/Fabric.lean ====
section
/-! DEFINITION. Machine/Fabric.lean: packets between stacks and modules (R12, R362, R364, R486, R487), posts, acknowledgements and probes (R43 to R45,
R219, R223, R460), arrivals at named barriers (R134), and requests and reports to the split table (R21, R22). -/

namespace Sys2Proof.Machine

/-! ### Probes and acknowledgements (R44, R45, R460) -/

/-- A probe that waits is answered once no earlier post of its group is left; the answer carries a failure once (R45,
R460). -/
def State.answerProbes (s : State) (k : Nat) : State :=
  (s.stk k).probed.foldl (fun (t : State) (p : Nat × Nat × Nat × Nat) =>
    let q := t.stk k
    if q.tracker.any fun e => e.1 == p.2.2.1 && e.2 < p.2.2.2 then t
    else
      (t.onStk k fun r => { r with
        probed := r.probed.filter (· != p), failed := r.failed.filter (· != p.2.2.1) }).send
          k p.1 (.probeAnswer p.2.1 k (q.failed.contains p.2.2.1))) s

/-- An acknowledgement frees its entry (R44), and marks the group when the post failed (R460). -/
def State.acked (s : State) (k gid no : Nat) (failed : Bool) : State :=
  (s.onStk k fun q => { q with
    tracker := q.tracker.filter (· != (gid, no)),
    failed := if failed && !q.failed.contains gid then q.failed ++ [gid] else q.failed }).answerProbes k

/-- A job with nothing left to do; a signal packet has not begun until its arrival is sent. -/
def jobOver (j : CopyJob) : Bool := j.begun && j.readsDone && j.bufs.isEmpty && j.credits == 0

/-- The copy job with number `no` changed by `f`. -/
def State.onJob (s : State) (no : Nat) (f : CopyJob → CopyJob) : State :=
  { s with stks := s.stks.map fun (t : StackSt) => { t with chans := t.chans.map fun (c : CopyChan) =>
      { c with jobs := c.jobs.map fun (j : CopyJob) => if j.no = no then f j else j } } }

/-- A copy job no longer waits for an update, or for a burst on its way to another module and the credit of it. -/
def creditGone (j : CopyJob) : CopyJob := { j with credits := j.credits - 1 }
def burstGone (pa : Nat) (j : CopyJob) : CopyJob :=
  match j.bufs.find? fun (b : CopyWrite) => b.sent && b.pa == pa with
  | none => j
  | some b => { j with bufs := j.bufs.erase b, credits := if b.obj = 0#64 then j.credits else j.credits - 1 }

/-! ### Packets between modules (R362, R364, R486, R487, R493) -/

/-- Whether traffic for module `m` is not discarded (R487, R493). -/
def State.reaches (s : State) (m : Nat) : Bool := s.routed m && !s.md.peersDown.contains m

/-- Whether a Mervel link retrains or is down: its traffic is held (R486, R487). -/
def State.linkBusy (s : State) (l : Nat) : Bool := s.md.downLinks.contains l || s.md.links.any fun x => linkHeld x.2 && match x.1 with
  | .mervel n => n.val == l
  | .mesh _ _ => false

/-- The copy job with a number. -/
def State.jobOf (s : State) (no : Nat) : Option CopyJob :=
  ((s.stks.toList.map fun (t : StackSt) => (t.chans.toList.map fun (c : CopyChan) => c.jobs).flatten).flatten).find?
    fun (j : CopyJob) => j.no == no

/-- The grid of the split `id`, or of the group `id`. -/
def State.gridOfGroup (s : State) (id : Nat) : Option Nat := (s.group? id).map fun (g : Group) => g.grid
def State.gridOfSplit (s : State) (id : Nat) : Option Nat := (s.split? id).bind fun (w : Split) => s.gridOfGroup w.group

/-- A packet for a stack of the domain, by its form in HOME: it crosses the mesh to its home, or to the link of its module. -/
def State.ship (s : State) (src home : Nat) (pl : Payload) : State := s.send src (s.nameOf home) pl

/-- The grid that a packet belongs to (R487). -/
def State.payloadGrid (s : State) (pl : Payload) : Option Nat := match pl with
  | .post _ _ who _ _ _ _ _ _ _ _ _ => some who.1
  | .postAck g _ _ | .probe _ g | .numReq _ g _ | .numFree g _ | .report g _ _ _ _ _ _ | .rangeReq _ _ g _ _ _ _ _ =>
    s.gridOfGroup g
  | .probeAnswer w _ _ | .numAns w _ | .rangeRep w _ _ _ | .halt w | .context w _ _ _ _ => s.gridOfSplit w
  | .guest _ g _ _ _ _ => some g.grid
  | .barrier g _ _ _ _ _ _ _ _ _ | .complete g _ _ _ | .abortShare g => some g
  | .area g _ _ _ => some g
  | .object _ _ _ _ _ _ _ job eng => if eng / 16 = s.modno then (s.jobOf job).bind CopyJob.grid else none
  | .burst _ _ _ _ job _ | .fetch _ _ _ job => match s.jobOf job with
    | some j => j.grid
    | none => (s.md.recordsOut.find? fun x => x.1 == job).map fun x => x.2.1
  | .fetched _ _ | .jobDone _ _ _ _ | .record _ | .host _ | .hostBack _ _ => none

/-- Whether a payload names a copy job of the module that it comes from. -/
def ofJob : Payload → Bool
  | .object _ _ _ _ _ _ _ _ _ | .burst _ _ _ _ _ _ | .fetch _ _ _ _ => true
  | _ => false

/-- A packet that no route takes is discarded (R487): its grid suffers a fatal fault, a post counts as acknowledged, a split
ends with its context, and what waits for the rest no longer does. One that only passes through ends a grid that spans the
modules. -/
def State.discard (s : State) (src : Nat) (pl : Payload) : State :=
  let mine : Bool := src < 16
  let grid := (if mine || !ofJob pl then s.payloadGrid pl else none).filter fun g => mine || 2 ^ 31 ≤ g
  let t := (grid.map fun g => s.abort g 4 0 0 0 255).getD s
  if !mine then t
  else match pl with
    | .post _ gid _ _ _ _ _ _ _ _ no _ => t.acked src gid no false
    | .context id _ _ _ _ => t.onSplit id fun w => { w with pend := { w.pend with kill := true } }
    | .object pa _ _ _ _ _ _ job eng =>
      if eng / 16 = t.modno then t.onJob job creditGone else t.ship src eng (.jobDone job pa (some 0) false)
    | .fetch _ _ _ job => t.onJob job fun j => { j with ask := .got none }
    | .burst pa _ _ _ job _ =>
      let u := t.onJob job (burstGone pa)
      { u with md := { u.md with recordsOut := u.md.recordsOut.filter fun x => x.1 != job } }
    | _ => t

/-- The name of a group between modules, which its GRID, TEAM and GRP give, and of a split. -/
def groupWire (g : Group) : Nat := 2 ^ 80 + (g.grid * 2 ^ 32 + g.team) * 32 + g.grp
def State.groupOut (s : State) (id : Nat) : Nat := ((s.group? id).map groupWire).getD id
def State.splitOut (s : State) (id : Nat) : Nat := match s.split? id with
  | none => id
  | some w => ((s.group? w.group).map fun (g : Group) => 4 * groupWire g + w.num).getD id
def State.groupIn (s : State) (n : Nat) : Nat :=
  ((s.allGroups.find? fun (g : Group) => groupWire g == n).map fun (g : Group) => g.id).getD n
def State.splitIn (s : State) (n : Nat) : Nat :=
  ((s.allSplits.find? fun (w : Split) => s.splitOut w.id == n).map fun (w : Split) => w.id).getD n
/-- A stack of the domain in the form that leaves the module, and back. -/
def State.stackOut (s : State) (k : Nat) : Nat := 16 + s.locOf k
def State.stackIn (s : State) (k : Nat) : Nat := s.nameOf (k - 16)

/-- A packet of this module in the form in which it leaves. Posts have met the order of their own split and stack. -/
def State.wireOut (s : State) (pl : Payload) : Payload :=
  match pl.rename s.splitOut s.groupOut s.stackOut with
  | .post w g who a op ty pa d po _ no _ => .post w g who a op ty pa d po [] no []
  | .context w regs es pa why => match s.split? w with
    | none => .context w regs es pa why
    | some v => match s.group? v.group with
      | none => .context w regs es pa why
      | some g => .guest { v with results := [], probes := [], spin := none }
          { g with base := s.stackOut g.base, tiles := [], table := Group.none.table, joinCore := none, lastSaved := none }
          regs es pa why
  | q => q

/-- A split whose context leaves the module: its record stays, without its operations, where its group is based here. -/
def State.guestOut (s : State) (dst : Nat) (pl : Payload) : State := match pl with
  | .context id _ _ _ _ =>
    let based : Bool := (s.split? id).any fun (w : Split) => (s.group? w.group).any fun (g : Group) => g.base < 16
    let t := s.unfocus
    if based then t.onSplit id fun w => { w with ops := [], stack := dst }
    else { t with splits := t.splits.filter fun (w : Split) => w.id != id }
  | _ => s

/-- A packet that reaches the stack of its link leaves the module, is held for the link, or is discarded (R364, R487). A post
leaves once the operations before it are over. -/
def State.crossStep (s : State) (a b : Nat) : Option State :=
  if b < 16 then none
  else match s.takePacket (fun _ => true) a b with
    | none => none
    | some (pl, t) =>
      let m := (b - 16) / 16
      let held : Bool := match pl with
        | .post _ _ _ _ _ ty pa _ _ after _ _ => after.any fun id => (t.opOf id).any fun (o : Op) => o.blocks pa ty.size
        | _ => false
      if !t.reaches m then some (t.discard a pl)
      else if t.linkBusy (t.routeLink m) || held then none
      else
        let u := t.guestOut b pl
        some { u with md := { u.md with
          outbound := u.md.outbound ++ [(t.locOf a, b - 16, if a < 16 then t.wireOut pl else pl)],
          links := u.md.links.filter fun x => linkHeld x.2 || match x.1 with
            | .mervel n => n.val != t.routeLink m
            | .mesh _ _ => true } }

/-- Whether two records are of one group. -/
def sameGroup (g x : Group) : Bool := x.grid == g.grid && x.team == g.team && x.grp == g.grp

/-- The group of a guest, and the state with its record. -/
def State.guestGroup (s : State) (g : Group) : Nat × State :=
  let base := s.stackIn g.base
  match s.allGroups.find? (sameGroup g) with
  | some x => (x.id, if x.base < 16 then s else s.onGroup x.id fun _ => { g with id := x.id, base := base })
  | none => (s.nextId, { s with groups := s.groups ++ [{ g with id := s.nextId, base := base }], nextId := s.nextId + 1 })

/-- The context of a split that comes from another module, as one of this module (R362, R364): the record takes the place of
the one that stands for the split here, and its operations get names of this module. The focus is empty. -/
def State.guestIn (s : State) (src dst via : Nat) (w : Split) (g : Group) (regs : List (Nat × Lanes)) (es : List Entry)
    (pa : Option Nat) (why : LegFor) : State :=
  let (gid, t) := s.guestGroup g
  let id := ((t.splits.find? fun (v : Split) => v.group == gid && v.num == w.num && v.status == .transit).map
    fun (v : Split) => v.id).getD t.nextId
  let first := t.nextId + 1
  let name (n : Nat) : Nat := first + (w.ops.findIdx fun (o : Op) => o.id == n)
  let ops := w.ops.map fun (o : Op) => { o with
    id := name o.id, after := (o.after.filter fun n => w.ops.any fun (p : Op) => p.id == n).map name }
  let why2 := match why with
    | .access op => .access (name op)
    | x => x
  { t with
    splits := (t.splits.filter fun (v : Split) => v.id != id) ++
      [{ w with
        id := id, group := gid, ops := ops, status := .transit, stack := dst,
        pend := { w.pend with handler := [], kill := w.pend.kill || (t.grid? g.grid).any fun (x : Grid) => x.aborted } }],
    nextId := first + ops.length, fabric := t.fabric ++ [⟨src, dst, via, .context id regs es pa why2⟩] }

/-- The oldest packet at Mervel link `l` enters: it goes on to its module, or crosses the mesh to its home (R364). -/
def State.enterStep (s0 : State) (l : Nat) : Option State :=
  let s := s0.unfocus
  if s.linkBusy l then none
  else match s.md.inbound.find? fun x => x.1 == l with
    | none => none
    | some x =>
      let t := { s with md := { s.md with inbound := s.md.inbound.erase x, links := s.md.links.filter fun y => linkHeld y.2 || match y.1 with
        | .mervel n => n.val != l
        | .mesh _ _ => true } }
      let (_, src, dst, pl) := x
      if dst / 16 ≠ t.modno then some { t with fabric := t.fabric ++ [⟨16 + src, 16 + dst, linkStack l, pl⟩] }
      else match pl with
        | .guest w g regs es pa why => some (t.guestIn (t.nameOf src) (dst % 16) (linkStack l) w g regs es pa why)
        | _ => some { t with fabric := t.fabric ++
            [⟨t.nameOf src, dst % 16, linkStack l, pl.rename t.splitIn t.groupIn t.stackIn⟩] }

/-- What a request brings about on a stack in A0; one in a power state is woken, and serves it then (R371). -/
def State.served (s : State) (k : Nat) (t : State) : State :=
  if (s.stk k).pstate = 0 then t else s.onStk k fun q => { q with waking := true }

/-- The packet at the head of a pair that has reached its home, and the state without it. -/
def State.head (s : State) (src dst : Nat) : Option (Payload × State) :=
  if dst < 16 then s.takePacket (fun _ => true) src dst else none

/-! ### Posts (R43, R44) -/

/-- The post tracker of a stack is full (R44): a post then stalls at issue. -/
def State.trackerFull (s : State) (k : Nat) : Bool := Config.trackerExtra < (s.stk k).tracker.length

/-- A post of the split in focus enters the tracker of its stack and sets its POSTLOC bit (R44, R219); `no` is its number. -/
def State.trackPost (s : State) : State × Nat :=
  let no := s.nextId
  ({ (s.onStk s.me.stack fun q => { q with tracker := q.tracker ++ [(s.gr.id, no)] }) with
      nextId := no + 1, me := { s.me with postloc := s.me.postloc ||| (1#16 <<< s.me.stack) } }, no)

/-- One posted access to `pa`. -/
def State.sendPost (s : State) (op : Option (AtOp × Bool)) (ty : MTy) (pa pois : Nat) (data : BitVec 128) : State :=
  let (t, no) := s.trackPost
  let after := s.me.ops.map fun (o : Op) => o.id
  t.ship s.me.stack (homeOf pa)
    (.post s.me.id s.gr.id (s.gr.grid, s.gr.team, s.gr.grp) s.me.asid op ty pa data pois after no [s.me.id])

/-- One posted arrival or exit decrement on a named barrier of the split's team. -/
def State.sendBarrierPost (s : State) (n lanes : Nat) (exit : Bool) : State :=
  let (t, no) := s.trackPost
  t.send s.me.stack s.gr.base (.barrier s.gr.grid s.gr.team s.gr.grp n lanes exit s.me.asid s.me.id s.gr.id
    (some (no, [s.me.id])))

/-- The report of a post that failed at its home (R460, R479 type 4). -/
def State.postFailure (s : State) (k : Nat) (who : Nat × Nat × Nat) (asid pa : Nat) : State :=
  s.report k 4 who.1 who.2.1 asid who.2.2 8 9 (bytesLE 8 pa)

/-- A post is performed at its home and acknowledged (R43, R219, R460); none while it has to wait, for the operations before it
or for the access of a context that arrived earlier. A later leg of its own split comes after it, and so does a leg that still waits
for a later post of the same path. -/
def State.performPost (s : State) (src dst w gid : Nat) (who : Nat × Nat × Nat) (asid : Nat) (op : Option (AtOp × Bool)) (ty : MTy) (pa pois : Nat)
    (data : BitVec 128) (after : List Nat) (no : Nat) (kin : List Nat) : Option State :=
  let sz := ty.size
  let late := after.any fun id => (s.opOf id).any fun (o : Op) => o.blocks pa sz
  let later (v : Split) (o : Op) : Bool := src == dst && (kin.contains v.id && no ≤ o.id || s.pathHeld v o.id)
  if late || s.contextFirst dst s.nextId pa sz later || s.heldOff pa sz (some w) || s.hostWaits pa true then none
  else
    let fail := some ((s.postFailure dst who asid pa).send dst src (.postAck gid no true))
    match s.readHome pa sz pois with
    | none => fail
    | some old =>
      let s := if op.isSome then s.logPois pa pois else s
      let new := match op with
        | none => data.toNat
        | some (f, sat) => atomicNew f ty sat old (data.toNat % 2 ^ (8 * sz)) 0
      match s.writeHome pa (bytesLE sz new) pois asid with
      | none => fail
      | some t => some ((t.meets dst (some who.1)).send dst src (.postAck gid no false))

/-! ### The events -/

/-- POST (R43): the post at the head of the pair is performed. -/
def execPost (src dst : Nat) (s : State) : Out := match s.head src dst with
  | some (.post w gid who asid op ty pa data pois after no kin, t) =>
    .next (s.served dst ((t.performPost src dst w gid who asid op ty pa pois data after no kin).getD s))
  | _ => .next s

/-- POST_ACKNOWLEDGEMENT (R44), from a stack of this module or of another. -/
def execPostAcknowledgement (src dst : Nat) (s : State) : Out := match s.head src dst with
  | some (.postAck gid no failed, t) => .next (t.acked dst gid no failed)
  | _ => .next s

/-- PROBE (R45): a probe reaches a stack. -/
def execProbe (src dst : Nat) (s : State) : Out := match s.head src dst with
  | some (.probe w gid, t) =>
    .next (s.served dst ((t.onStk dst fun q => { q with probed := q.probed ++ [(src, w, gid, t.nextId)] }).answerProbes dst))
  | _ => .next s

/-- Whether probe answers are awaited from module `m`, in the names of stacks. -/
def Split.awaits (s : State) (w : Split) (m : Nat) : Bool := w.probes.any fun k => s.locOf k / 16 == m

/-- PROBE_ANSWER (R45, R460): an answer clears the bit of its stack, and the last one of a module named in POSTMOD the bit of
the module. -/
def execProbeAnswer (src dst : Nat) (s : State) : Out := match s.head src dst with
  | some (.probeAnswer w k failed, t) =>
    .next (t.onSplit w fun v =>
      let u := { v with probes := v.probes.filter (· != k), probeFailed := v.probeFailed || failed }
      let m := t.locOf k / 16
      { u with
        postloc := if k < 16 then u.postloc &&& ~~~(1#16 <<< k) else u.postloc,
        postmod := if u.awaits t m then u.postmod else u.postmod &&& ~~~(1#64 <<< m) })
  | _ => .next s

/-- The physical address of a team's named barrier (R133). -/
def State.barrierPa (s : State) (grid team n : Nat) : Nat := ((s.team? grid team).map fun (x : Team) => x.vaultPa + 16 * n).getD 0

/-- BARRIER_ARRIVAL (R134): an arrival or an exit decrement is performed at the base stack, and a post is acknowledged. One
that meets poison is not performed, and as a post it has failed (R460, log entry 11). -/
def execBarrierArrival (src dst : Nat) (s : State) : Out := match s.head src dst with
  | some (.barrier grid team grp n lanes exit asid w gid post, t) =>
    let pa := t.barrierPa grid team n
    if t.updateWaits pa none then .next s
    else match post with
      | none => .next (s.served dst (t.barrierUpdate grid team n lanes exit asid (some w)))
      | some (no, _) =>
        let bad := t.mem.poisoned pa
        let u := if bad then t.postFailure dst (grid, team, grp) asid pa else t
        .next (s.served dst ((u.barrierUpdate grid team n lanes exit asid none).send dst src (.postAck gid no bad)))
  | _ => .next s


/-- The lowest free number of a split table (R21). -/
def freeNumberOf (g : Group) : Option Nat := (List.range 4).find? fun n => !(vget g.table n TabEntry.free).valid

/-- SPLIT_TABLE_REQUEST (R21): the table answers with the lowest free number, which is then in use. -/
def execSplitTableRequest (src dst : Nat) (s : State) : Out := match s.head src dst with
  | some (.numReq w gid core, t) => match t.group? gid with
    | none => .next t
    | some g =>
      let n := freeNumberOf g
      let e : TabEntry := { mask := 0#32, loc := src, core := core, join := 0, valid := true, state := 0 }
      let u := match n with
        | none => t
        | some n => t.onGroup gid fun x => { x with table := vset x.table n e }
      .next (u.send dst src (.numAns w n))
  | _ => .next s

/-- SPLIT_TABLE_REPORT (R22): a report updates its entry while its number is in use, or frees its number; a join may then be
complete (R52). -/
def execSplitTableReport (src dst : Nat) (s : State) : Out := match s.head src dst with
  | some (.report gid n mask stack core st join, t) =>
    let upd (e : TabEntry) : TabEntry :=
      { mask := mask.getD e.mask, loc := stack, core := core, join := join, valid := true, state := st }
    .next (t.onGroup gid fun g => { g with table := vset g.table n (if (vget g.table n TabEntry.free).valid then upd (vget g.table n TabEntry.free) else TabEntry.free) })
  | some (.numFree gid n, t) =>
    let u := t.unfocus
    .next (({ u with splits := u.splits.filter fun (w : Split) => !(w.group == gid && w.num == n && 16 ≤ w.stack) }).numberFreed gid n)
  | _ => .next s

end Sys2Proof.Machine
end

