-- ==== Sys2Proof/Machine/Issue.lean ====
section
/-! DEFINITION. Machine/Issue.lean: the issue of memory and object operations (R124, R207, R208, R212, R219): what a release
waits for, and how an operation starts and leaves its issue cycle. -/

namespace Sys2Proof.Machine

/-- The guard and end-of-run flag of an instruction's words. -/
def hdOf (i : Instr) : Hd := (encodeF i).hd

/-- What a release waits for before it takes effect: every token at zero, and a probe (R45, R208). -/
def releaseWaits : List WaitStep := [.toks 0xFF#8, .probe, .answers]

/-- The instruction is done; with ACQ it ends the run, and the split is ready once operation `id` has completed (R208). -/
def State.issued (s : State) (i : Instr) (acq : Bool) (id : Nat) : State :=
  if acq then
    let t := s.finish (s.me.pc + BitVec.ofNat 64 i.bytes)
    t.waitFor [.done id] (.goto t.me.pc)
  else s.retire (hdOf i) i.bytes

/-- The posts of `stp` and `atp`, one for each active lane in increasing lane order (R219). -/
def State.sendPosts (s : State) (o : Op) : State :=
  o.act.list.foldl (fun (t : State) l =>
    let x := vget o.data l 0#128
    match o.instr with
    | .stp _ _ ty _ _ => t.sendPost none ty (vget o.pa l 0) (vget o.pois l 0) x
    | .atp _ _ op ty sat _ _ => t.sendPost (some (op, sat)) ty (vget o.pa l 0) (vget o.pois l 0) x
    | _ => t) s

/-- Whether an access changes what spin park watches: anything but a read (R71). -/
def spoils : Instr → Bool
  | .ld _ _ _ _ _ _ _ | .ldg _ _ _ _ _ _ _ _ | .ldz _ _ _ _ _ _ _ _ | .lrg _ _ _ _ _ _ _ => false
  | _ => true

/-- The request of a range instruction leaves for the range unit (R342, R348, R349, R351). An `rgtake` of a split that holds
a range sends none. -/
def State.sendRange (s : State) (o : Op) : State :=
  let w := s.me
  let ask (t : State) (kind : Nat) (lo hi : Dword) (g due : Nat) : State :=
    t.send w.stack s.gr.base (.rangeReq kind w.id s.gr.id o.id lo hi g due)
  match o.instr with
  | .rgpost _ _ _ _ _ => ask s 0 (o.scap.getD 0 0#64) (o.scap.getD 1 0#64) 0 0
  | .rgtake _ d g _ =>
    if w.rangeEmpty then ask s 1 0#64 0#64 g.toNat 0
    else s.onOp o.id fun p => { p with kind := .plain, writes := [.s d.val 1#64] }
  | .rgdone _ _ => ask { s with me := { w with rlo := w.rhi, rdue := 0 } } 2 0#64 0#64 0 w.rdue
  | _ => s

/-- An operation starts (R124). A migrating form is translated now; when some lane is homed on another stack it ends the run,
and the split issues nothing until it has completed (R38, R212). None while a post has to stay at issue (R44). Where a
redundant pair differs, nothing is performed (R451). -/
def State.begin (s0 : State) (o0 : Op) (acq : Bool) : Option State :=
  let s := if spoils o0.instr then s0.spoil else s0
  let o := { o0 with id := s.nextId, acq := acq, after := s.me.ops.map fun (e : Op) => e.id }
  if s.differs o then some ((s.issue o.suspect).issued o.instr acq o.id)
  else match o.instr with
  | .stp _ _ _ _ _ | .atp _ _ _ _ _ _ _ =>
    if s.trackerFull s.me.stack then none else some ((s.sendPosts o).retire (hdOf o.instr) o.instr.bytes)
  | _ =>
    let p := match Acc.of o.instr with
      | some a => if a.mig then s.translateOp a o else o
      | none => o
    let t := s.issue p
    if p.travels s then
      let u := t.endRun
      some { u with me := { u.me with status := if p.departs s then .leaving (.access p.id) else .legs p.id } }
    else some ((t.sendRange p).issued o.instr acq p.id)

/-- Registers of the operand of an atomic (R214). -/
def atomicRegs (op : AtOp) (ty : MTy) : Nat := (if op == .cas then 2 else 1) * regsOf ty.size

end Sys2Proof.Machine
end

