-- ==== Sys2Proof/Machine/Matrix.lean ====
section
/-! DEFINITION. Machine/Matrix.lean: the matrix instructions (R297 to R308) and the swatch instructions (R326 to R334): their
checks (R283, R323, R422), what they copy and translate at issue, and their acceptance. -/

namespace Sys2Proof.Machine

/-! ### Checks and operands -/

/-- Lines of an operand, each translated (R297). -/
def xlLines (f : Dword → Except TClass Xl) (va : Dword) : Nat → Except TClass (List (Nat × Nat))
  | 0 => .ok []
  | n + 1 => match f va with
    | .error c => .error c
    | .ok x => match xlLines f (va + 64#64) n with
      | .error c => .error c
      | .ok xs => .ok ((x.pa, x.pois) :: xs)

/-- The 64 lines of a slice, which one page holds. -/
def State.xlSlice (s : State) (va : Dword) : Except TClass (List (Nat × Nat)) := match s.xlTile true false 4096 va with
  | .error c => .error c
  | .ok x => .ok ((List.range 64).map fun i => (x.pa + 64 * i, x.pois))

def bothLines (a b : Except TClass (List (Nat × Nat))) : Except TClass (List (Nat × Nat)) := match a, b with
  | .error c, _ => .error c
  | _, .error c => .error c
  | .ok x, .ok y => .ok (x ++ y)

/-- Lines of the scale of a B format (R281). -/
def scaleLines (bf : Nat) : Nat := if mxScaled bf then 1 else if bf = 22 then 2 else 0

/-- A slice with its scale lines (R301). -/
def State.denseSegs (s : State) (va : Dword) (soff : Word) : Except TClass (List (Nat × Nat)) :=
  let n := scaleLines (palB s.me.pal)
  bothLines (s.xlSlice va)
    (xlLines (s.xlTile true false 64) (va + BitVec.ofInt 64 (sextOf soff.toNat 32)) n)

/-- A value slice with its bitmap area, and the scale line after it (R291, R302). -/
def State.sparseSegs (s : State) (va : Dword) (boff : Word) : Except TClass (List (Nat × Nat)) :=
  let n := if mxScaled (palB s.me.pal) then 1 else 0
  bothLines (s.xlSlice va) (xlLines (s.xlTile true false 64) (va + BitVec.ofInt 64 (sextOf boff.toNat 32)) (8 + n))

def okLines (e : Except TClass (List (Nat × Nat))) : List (Nat × Nat) := match e with
  | .ok x => x
  | .error _ => []

/-- The registers of a row, and the registers that an A operand is read from (R279). -/
def rowRegs (p : Dword) : Nat := if mxFp6 (palA p) then 12 else 16
/-- `n` registers from physical register `r` on. -/
def State.regsFrom (s : State) (r n : Nat) : List Lanes :=
  (List.range n).map fun m => vget s.win.regs (r + m) (Vector.replicate 32 0#32)

/-- The passes of the group that still have to change its swatch state. -/
def State.swPending (s : State) : List Pass :=
  (s.myCore.queue.map fun (g : FGroup) => g.passes).flatten.filter fun (p : Pass) => p.group == s.gr.id && match p.instr with
    | .swc _ _ _ _ _ _ | .swh _ _ _ _ _ | .swb _ _ | .swl _ _ _ => true
    | _ => false

/-- The swatch state that the instructions accepted so far leave (R286, R326), with memory as it is now (log entry 71). -/
def State.swAccepted (s : State) : Swatch :=
  (s.swPending.foldl (fun (t : State) p => t.runPass p (readLines t.mem p.segs)) s).swatchOf s.gr.id

/-- The tile is not the group's (R422). -/
def State.noTile (s : State) (t : TileNo) : Bool := s.gr.tiles.length ≤ t.val

/-- The checks of a dense multiply (R283, R323, R422). -/
def State.denseChk (s : State) (t : TileNo) (a : VReg) (b : SReg) (ks : Fin 256) (c : VReg) (soff : Word) (grad sw : Bool) :
    Chk :=
  let p := s.me.pal
  let scaled := mxScaled (palA p)
  let unscaledB := scaleLines (palB p) = 0
  (chkIf (!palOk p || scaled && (grad || sw && s.swAccepted.rule == .mean)) .illegal 4).or
    ((chkIf (s.noTile t || kSteps (palB p) ≤ ks.val || 64 < a.val + rowRegs p || !scaled && c.val != 0
      || unscaledB && soff != 0#32 || soff.toNat % (if palB p = 22 then 128 else 64) != 0) .illegal 5).or
      (Chk.xl false (s.denseSegs (s.s b) soff)))

/-- The key of a dense multiply's passes (R287). -/
def denseKey (p : Dword) (ks : Nat) (segs : List (Nat × Nat)) : List Nat :=
  [0, (segs.headD (0, 0)).1, palB p, ks, ((segs.drop 64).headD (0, 0)).1]

/-! ### Acceptance -/

/-- A pass of instruction `i`, before it names its rows and operands. -/
def State.newPass (s : State) (i : Instr) (h : Hd) : Pass :=
  { split := s.me.id, group := s.gr.id, op := s.nextId, instr := i, part := 0, lanes := s.active h, wb := s.me.wbase,
    pal := s.me.pal, a := [], sc := Vector.replicate 32 0#32, seeds := s.me.seeds, segs := [], outs := [], buckets := none,
    last := false,
    tile := 0, rows := 0#32 }

/-- One pass for each quarter with an active row (R277, R298). -/
def byQuarter (p : Pass) : List Pass :=
  (quartersOf p.lanes).map fun q => { p with part := q, rows := Mask.ofList (quarterRows p.lanes q) }

/-- The passes of an instruction enter the queue: with a key they fuse, without they stand alone. -/
def State.enqueue (s : State) (key : Option (List Nat)) (ps : List Pass) : State :=
  if ps.isEmpty then s
  else s.onCore s.me.stack s.me.core fun c => { c with
    busy := true,
    queue := match key with
      | some x => ps.foldl (fun q p => acceptPass x c.cycle p q) c.queue
      | none => acceptAlone c.cycle ps c.queue }

/-- An array instruction (R286, R297): it stalls at issue while the queue lacks room, and is accepted at its issue cycle.
`wait` says when it waits there besides. Where a redundant pair differs, it makes no pass (R451). ADDR and SCAP of its operation
hold zeros, also for an `mmab` that a capture saves: R389 does not say what they hold there (DESIGN CHOICE, log entry 90). -/
def State.toArray (s : State) (i : Instr) (h : Hd) (k : Tok) (reads : List Rd) (chk : Chk)
    (make : State → Option (List Nat) × List Pass) (also : State → State := fun t => t)
    (wait : State → Bool := fun _ => false) : Out :=
  s.gate i h { reads := reads, tok := some k, chk := chk } fun t =>
    let o := { t.newOp i h (some k) with kind := .array, after := t.me.ops.map fun (e : Op) => e.id }
    let d := t.differs o
    let (key, ps) := if d then (none, []) else make t
    if wait t || 64 < queued t.myCore.queue + ps.length then t.stall
    else
      let u := ((t.spoil).enqueue key ps).issue (if d then o.suspect else o)
      (if d then u else also u).retire h i.bytes

/-! ### Palette (R299, R300) -/

def execPalLiteral (h : Hd) (x : Dword) (s : State) : Out := s.alu (.palLiteral h x) h {} 4 fun _ => [.pal x]
def execPalRegister (h : Hd) (a : SReg) (s : State) : Out :=
  s.alu (.palRegister h a) h { reads := [rdS a] } 4 fun t => [.pal (t.s a)]
def execPalr (h : Hd) (d : SReg) (s : State) : Out :=
  s.alu (.palr h d) h {} 4 fun t => [.s d.val (t.me.pal &&& onesBelow 19)]

/-! ### Multiplies -/

/-- The registers that a multiply reads. -/
def State.mulReads (s : State) (a : VReg) (n : Nat) (b : SReg) (c : VReg) : List Rd :=
  [.v a.val n, rdS b] ++ (if mxScaled (palA s.me.pal) then [rdV c] else [])

/-- A pass of a multiply with its copied registers and its read. -/
def State.mulPass (s : State) (i : Instr) (h : Hd) (a : VReg) (n : Nat) (c : VReg) (segs : List (Nat × Nat)) : Pass :=
  { s.newPass i h with a := s.regsFrom (s.me.wbase + a.val) n, sc := s.v c, segs := segs }

/-- `mma` (R301). -/
def execMma (h : Hd) (t : TileNo) (a : VReg) (b : SReg) (ks : Fin 256) (c : VReg) (soff : Word) (k : Tok) (s : State) : Out :=
  s.toArray (.mma h t a b ks c soff k) h k (s.mulReads a (rowRegs s.me.pal) b c) (s.denseChk t a b ks c soff false false)
    fun u =>
      let segs := okLines (u.denseSegs (u.s b) soff)
      (some (denseKey u.me.pal ks.val segs),
        byQuarter { u.mulPass (.mma h t a b ks c soff k) h a (rowRegs u.me.pal) c segs with tile := t.val })

/-- The passes of a swatch multiply (R326, R334): eight buckets to a pass. While the swatch state is still to be changed, the
buckets are taken when the passes come. -/
def State.swatchPasses (s : State) (p : Pass) (grad : Bool) : List Pass :=
  let w := s.swAccepted
  let bs := w.taking (palSwe p.pal) p.lanes
  let n := Nat.max 1 (ceilDiv bs.length 8)
  (List.range n).map fun j =>
    let mine := (bs.drop (8 * j)).take 8
    let rows := (mine.map fun (b : Bucket) => if grad then [b.rep] else b.rows).flatten
    { p with part := j, buckets := if s.swPending.isEmpty then some (mine, w.rule) else none, last := j + 1 == n,
             rows := Mask.ofList rows }

/-- `mmas` and `mmag` (R334). -/
def State.swatchMul (s : State) (i : Instr) (h : Hd) (t : TileNo) (a : VReg) (b : SReg) (ks : Fin 256) (c : VReg)
    (soff : Word) (k : Tok) (grad : Bool) : Out :=
  s.toArray i h k (s.mulReads a (rowRegs s.me.pal) b c) (s.denseChk t a b ks c soff grad true) fun u =>
    let segs := okLines (u.denseSegs (u.s b) soff)
    (some (denseKey u.me.pal ks.val segs),
      u.swatchPasses { u.mulPass i h a (rowRegs u.me.pal) c segs with tile := t.val } grad)
def execMmas (h : Hd) (t : TileNo) (a : VReg) (b : SReg) (ks : Fin 256) (c : VReg) (soff : Word) (k : Tok) (s : State) : Out :=
  s.swatchMul (.mmas h t a b ks c soff k) h t a b ks c soff k false
def execMmag (h : Hd) (t : TileNo) (a : VReg) (b : SReg) (ks : Fin 256) (soff : Word) (k : Tok) (s : State) : Out :=
  s.swatchMul (.mmag h t a b ks soff k) h t a b ks 0 soff k true

/-- The checks of `mmab` (R290, R422). IMM32, which holds `boff`, has to be zero with an unscaled B format (R422, log entry
12). -/
def State.sparseChk (s : State) (t : TileNo) (b : SReg) (c : VReg) (boff : Word) : Chk :=
  (chkIf (!palOkB s.me.pal) .illegal 4).or
    ((chkIf (s.noTile t || !mxScaled (palA s.me.pal) && c.val != 0 || !mxScaled (palB s.me.pal) && boff != 0#32)
      .illegal 5).or
      (Chk.xl false (s.sparseSegs (s.s b) boff)))

/-- The passes of an `mmab` for the quarters not yet done (R292). -/
def sparsePasses (p : Pass) (mstep : Dword) (t : TileNo) : List Pass :=
  (byQuarter { p with tile := t.val }).filter fun (x : Pass) => !mstep.getLsbD x.part

def sparseKey (p : Dword) (segs : List (Nat × Nat)) : List Nat :=
  [1, (segs.headD (0, 0)).1, palB p, ((segs.drop 64).headD (0, 0)).1, ((segs.drop 72).headD (0, 0)).1]

/-- Set bits of a lane's bitmap in register compressed form (R290). -/
def State.setBits (s : State) (a : VReg) (l : Nat) : Nat :=
  let x := (lane (s.vAt a 0) l).toNat + 2 ^ 32 * (lane (s.vAt a 1) l).toNat
  ((List.range 64).filter fun k => x.testBit k).length

/-- The registers that `mmab` reads: the bitmap, and the value registers up to the count of each lane's set bits (R290). -/
def State.sparseReads (s : State) (a : VReg) (b : SReg) (c : VReg) : List Rd :=
  s.mulReads a 2 b c ++ (List.range 16).map fun j =>
    .some' (a.val + 2 + j) (Mask.where' fun l => 4 * j < s.setBits a l)

/-- `mmab` (R302): it waits at issue while another of the split is outstanding. -/
def execMmab (h : Hd) (t : TileNo) (a : VReg) (b : SReg) (c : VReg) (boff : Word) (k : Tok) (s : State) : Out :=
  s.toArray (.mmab h t a b c boff k) h k (s.sparseReads a b c) (s.sparseChk t b c boff)
    (fun u =>
      let segs := okLines (u.sparseSegs (u.s b) boff)
      (some (sparseKey u.me.pal segs),
        sparsePasses (u.mulPass (.mmab h t a b c boff k) h a 18 c segs) u.me.mstep t))
    (wait := fun u => u.me.hasMmab)

/-! ### Accumulator instructions -/

/-- `accz` (R303). -/
def execAccz (h : Hd) (all : Bool) (t : TileNo) (k : Tok) (s : State) : Out :=
  s.toArray (.accz h all t k) h k [] (chkIf (s.noTile t) .illegal 5) fun u =>
    let p := { u.newPass (.accz h all t k) h with tile := t.val }
    (none, if all then (List.range 4).map fun q => { p with part := q, rows := 0xFF#32 <<< (8 * q) } else byQuarter p)

/-- `accrd` and `accwr` (R304). -/
def execAccrd (h : Hd) (d : VReg) (t : TileNo) (j0 : Fin 64) (n : Fin 128) (k : Tok) (s : State) : Out :=
  s.toArray (.accrd h d t j0 n k) h k [] (chkIf (s.noTile t) .illegal 5) fun u =>
    (none, byQuarter { u.newPass (.accrd h d t j0 n k) h with tile := t.val })
def execAccwr (h : Hd) (t : TileNo) (a : VReg) (j0 : Fin 64) (n : Fin 128) (k : Tok) (s : State) : Out :=
  s.toArray (.accwr h t a j0 n k) h k [.v a.val (n.val + 1)] (chkIf (s.noTile t) .illegal 5) fun u =>
    (none, byQuarter { u.newPass (.accwr h t a j0 n k) h with
      tile := t.val, a := u.regsFrom (u.me.wbase + a.val) (n.val + 1) })

/-- `accst` (R305): its pass touches the flag, which any row may set. -/
def execAccst (h : Hd) (d : SReg) (t : TileNo) (k : Tok) (s : State) : Out :=
  s.toArray (.accst h d t k) h k [] (chkIf (s.noTile t) .illegal 5) fun u =>
    (none, [{ u.newPass (.accst h d t k) h with tile := t.val, rows := BitVec.allOnes 32 }])

/-! ### Drains (R306 to R308) -/

/-- The lines that each active lane's row of `n` bytes goes to. -/
def State.drainLines (s : State) (h : Hd) (dst : DrDst) (n : Nat) : Except TClass (List (Nat × List (Nat × Nat))) :=
  match dst with
  | .regs _ => .ok []
  | .vault d stride => (s.active h).list.foldl (fun acc l => match acc with
      | .error c => .error c
      | .ok xs => match xlLines (s.xlVault false true 64) (s.s d + BitVec.ofNat 64 (64 * l * stride.toNat)) (ceilDiv n 64) with
        | .error c => .error c
        | .ok ys => .ok (xs ++ [(l, ys)])) (.ok [])
def dstReads : DrDst → List Rd
  | .regs _ => []
  | .vault d _ => [rdS d]
def okOuts (e : Except TClass (List (Nat × List (Nat × Nat)))) : List (Nat × List (Nat × Nat)) := match e with
  | .ok x => x
  | .error _ => []

/-- The seeds of the active lanes step once for each element that a drain produces under RS (R92, R293). -/
def State.drainSeeds (h : Hd) (n : Nat) (s : State) : State :=
  s.stepSeeds ((palDrain s.me.pal).getD .rne) (s.active h) n

/-- `drq` (R307). -/
def execDrq (h : Hd) (dst : DrDst) (t : TileNo) (b : SReg) (c : VReg) (uns : Bool) (j0 : Fin 64) (n : Fin 128) (k : Tok)
    (s : State) : Out :=
  let i : Instr := .drq h dst t b c uns j0 n k
  let blk (u : State) := xlLines (u.xlVault true false 64) (u.s b) 10
  s.toArray i h k ([rdS b, rdV c] ++ dstReads dst)
    ((chkIf (palDrain s.me.pal).isNone .illegal 4).or ((chkIf (s.noTile t) .illegal 5).or
      ((Chk.xl false (blk s)).or (Chk.xl true (s.drainLines h dst (n.val + 1))))))
    (fun u => (none, byQuarter { u.newPass i h with
      tile := t.val, sc := u.v c, segs := okLines (blk u), outs := okOuts (u.drainLines h dst (n.val + 1)) }))
    (State.drainSeeds h (n.val + 1))

/-- `drf` (R308). -/
def execDrf (h : Hd) (dst : DrDst) (t : TileNo) (ty : MTy) (sat ofn : Bool) (j0 : Fin 64) (n : Fin 128) (k : Tok)
    (s : State) : Out :=
  let i : Instr := .drf h dst t ty sat ofn j0 n k
  let bytes := (n.val + 1) * ty.size
  s.toArray i h k (dstReads dst)
    ((chkIf (palDrain s.me.pal).isNone .illegal 4).or ((chkIf (s.noTile t || sat && !palAcf s.me.pal) .illegal 5).or
      (Chk.xl true (s.drainLines h dst bytes))))
    (fun u => (none, byQuarter { u.newPass i h with tile := t.val, outs := okOuts (u.drainLines h dst bytes) }))
    (State.drainSeeds h (n.val + 1))

/-! ### Swatch instructions -/

/-- Whether the group owns no tiles (R422). -/
def State.tileless (s : State) : Chk := chkIf s.gr.tiles.isEmpty .illegal 5

/-- `swc` (R328). -/
def execSwc (h : Hd) (rule : SwRule) (a : SReg) (planes width : Fin 16) (k : Tok) (s : State) : Out :=
  s.toArray (.swc h rule a planes width k) h k [rdS a] s.tileless fun u =>
    (none, [{ u.newPass (.swc h rule a planes width k) h with pal := u.s a }])

/-- The plane block of a K-step, of which the used planes are read (R317, R329). -/
def State.planeLines (s : State) (b : SReg) : Except TClass (List (Nat × Nat)) :=
  let w := s.swAccepted
  xlLines (s.xlTile true false 64) (w.pset + 512#64 * s.s b) (ceilDiv w.p 2)

/-- `swh` (R329). -/
def execSwh (h : Hd) (a : VReg) (b : SReg) (c : VReg) (k : Tok) (s : State) : Out :=
  s.toArray (.swh h a b c k) h k (s.mulReads a (rowRegs s.me.pal) b c)
    ((chkIf (!palOk s.me.pal) .illegal 4).or ((chkIf (s.gr.tiles.isEmpty || 64 < a.val + rowRegs s.me.pal
      || !mxScaled (palA s.me.pal) && c.val != 0) .illegal 5).or (Chk.xl false (s.planeLines b)))) fun u =>
    (none, (byQuarter (u.mulPass (.swh h a b c k) h a (rowRegs u.me.pal) c (okLines (u.planeLines b)))).map
      fun (p : Pass) => { p with rows := 0#32 })

/-- `swb` (R330). -/
def execSwb (h : Hd) (k : Tok) (s : State) : Out :=
  s.toArray (.swb h k) h k [] s.tileless fun u => (none, [u.newPass (.swb h k) h])

/-- Lines of a form of `swm` (R331). -/
def swmLines : SwmForm → Nat
  | .map => 1
  | .tab => 4
  | .sig => 32

/-- `swm` (R331). -/
def execSwm (h : Hd) (form : SwmForm) (a : SReg) (k : Tok) (s : State) : Out :=
  let lines (u : State) := xlLines (u.xlLocal false true 64) (u.s a) (swmLines form)
  s.toArray (.swm h form a k) h k [rdS a] (s.tileless.or (Chk.xl true (lines s))) fun u =>
    (none, (List.range (swmLines form)).map fun j =>
      { u.newPass (.swm h form a k) h with part := j, outs := [(0, okLines (lines u))] })

/-- `swl` (R332). -/
def execSwl (h : Hd) (a : SReg) (k : Tok) (s : State) : Out :=
  let line (u : State) := xlLines (u.xlLocal true false 64) (u.s a) 1
  s.toArray (.swl h a k) h k [rdS a] (s.tileless.or (Chk.xl false (line s))) fun u =>
    (none, [{ u.newPass (.swl h a k) h with segs := okLines (line u) }])

/-- The quarters in which `swx` writes a row (R325, R326). -/
def State.swxQuarters (s : State) (act : Mask) : List Nat :=
  let w := s.swAccepted
  if !w.tv then []
  else
    let rows := ((w.taking true act).map fun (b : Bucket) =>
      if w.rule = .mean then b.rows else b.rows.filter (· != b.rep)).flatten
    quartersOf (Mask.ofList rows)

/-- `swx` (R333). -/
def execSwx (h : Hd) (t : TileNo) (j0 : Fin 64) (n : Fin 128) (k : Tok) (s : State) : Out :=
  s.toArray (.swx h t j0 n k) h k [] (chkIf (s.noTile t) .illegal 5) fun u =>
    (none, (u.swxQuarters (u.active h)).mapIdx fun j _ =>
      { u.newPass (.swx h t j0 n k) h with part := j, tile := t.val, rows := u.active h })

end Sys2Proof.Machine
end

