-- ==== Sys2Proof/Machine/Replay.lean ====
section
/-! DEFINITION. Machine/Replay.lean: the return from a trap, and the replay queue (R396 to R401, R406, R414, R427). -/

namespace Sys2Proof.Machine

/-! ### Replay entries (R389, R390, R414) -/

/-- Whether an instruction holds the split until it has completed (R208, R275). -/
def acquires : Instr → Bool
  | .ld _ _ _ _ _ q _ | .ldg _ _ _ _ _ q _ _ | .lrg _ _ _ _ q _ _ | .ldz _ _ _ _ _ _ q _ => q.isSome
  | .atg _ _ _ _ _ _ _ o _ _ | .scg _ _ _ _ _ o _ _ => o.acq
  | .bobs _ _ _ _ _ _ _ => true
  | _ => false

/-- The token that a captured instruction names. -/
def tokOf : Instr → Option Tok
  | .ld _ _ _ _ _ _ k | .st _ _ _ _ _ _ k | .ldg _ _ _ _ _ _ k _ | .stg _ _ _ _ _ _ k _ | .atg _ _ _ _ _ _ _ _ k _
  | .lrg _ _ _ _ _ k _ | .scg _ _ _ _ _ _ k _ | .ldz _ _ _ _ _ _ _ k | .stz _ _ _ _ _ _ _ _ k | .cpkt _ _ _ _ _ k
  | .binit _ _ _ _ k | .bexp _ _ _ _ _ k | .barv _ _ _ _ k | .bobs _ _ _ _ _ _ k | .mmab _ _ _ _ _ _ k => some k
  | _ => none

/-- One more than the highest scalar register that a captured instruction names. -/
def scalarTop (i : Instr) : Nat :=
  let addr (m : Addr) : Nat := Nat.max (m.a.val + 1) (match m.idx with
    | .s b => b.val + 1
    | .v _ _ _ => 0)
  match i with
  | .ld _ m sh _ d _ _ | .ldg _ m sh _ d _ _ _ | .st _ m sh _ d _ _ | .stg _ m sh _ d _ _ _ =>
    Nat.max (addr m) (if sh == .scal then d.val + 1 else 0)
  | .atg _ m _ _ _ _ _ _ _ _ | .lrg _ m _ _ _ _ _ | .scg _ m _ _ _ _ _ _ => addr m
  | .ldz _ _ a b _ _ _ _ | .binit _ a b _ _ | .bexp _ _ _ a b _ => Nat.max a.val b.val + 1
  | .stz _ d a b _ _ _ _ _ | .cpkt _ _ d a b _ => Nat.max d.val (Nat.max a.val b.val) + 1
  | .barv _ _ a _ _ => a.val + 1
  | .bobs _ _ _ _ d a _ => Nat.max d.val a.val + 1
  | .mmab _ _ _ b _ _ _ => b.val + 1
  | _ => 0

/-- One more than the highest register that a captured instruction names, its whole groups counted (R414). -/
def topReg (i : Instr) : Nat :=
  let dst := match longVec i with
    | some (d, n) => d + n
    | none => 0
  let idx := match (Acc.of i).map (fun a => a.m.idx) with
    | some (.v b _ _) => b.val + 1
    | _ => 0
  let src := match i with
    | .st _ _ sh ty c _ _ | .stg _ _ sh ty c _ _ _ => if sh == .scal then 0 else c.val + regsOf (sh.size ty)
    | .atg _ _ op ty _ _ c _ _ _ => c.val + atomicRegs op ty
    | .scg _ _ ty _ c _ _ _ => c.val + regsOf ty.size
    | .stz _ _ _ _ c ty n _ _ => c.val + ceilDiv n.toNat (32 * (4 / ty.size))
    | .mmab _ _ a _ c _ _ => Nat.max (a.val + 18) (c.val + 1)
    | _ => 0
  Nat.max (scalarTop i) (Nat.max dst (Nat.max idx src))

/-- The replay entry at `pa`, where its words decode to a captured instruction on the entry's token whose registers fit. -/
def readEntry (m : Memory) (pa : Nat) : Option Op :=
  let n (off sz : Nat) : Nat := m.read (pa + off) sz
  match ofFrameWords ((List.range 5).map fun i => BitVec.ofNat 32 (n (4 * i) 4)) with
  | .error _ => none
  | .ok i =>
    if captured i && (tokOf i).map (fun (k : Tok) => k.val) == some (n 0x20 1 % 8) && n 0x21 1 + topReg i ≤ 128 then
      let stat (l : Nat) : Byte :=
        if actsOnce i && l != 0 then 0#8
        else match n (0x80 + l) 1 / 64 with
          | 0 => 0#8
          | 1 => statDone
          | _ => statPending
      let st : Vector Byte 32 := Vector.ofFn fun l : Fin 32 => stat l.val
      some { id := 0, instr := i, ipc := BitVec.ofNat 64 (n 0x18 8), tok := tokOf i, wb := n 0x21 1,
             act := BitVec.ofNat 32 (n 0x24 4), leg := n 0x22 1 % 2 == 1, clm := n 0x22 1 / 2 % 2 == 1,
             cidx := BitVec.ofNat 64 (n 0x28 8), scap := (List.range 8).map fun j => BitVec.ofNat 64 (n (0x40 + 8 * j) 8),
             stat := st, addr := Vector.ofFn fun l : Fin 32 => BitVec.ofNat 64 (n (0x100 + 8 * l.val) 8),
             data := Vector.ofFn fun l : Fin 32 => BitVec.ofNat 128 (n (0x200 + 16 * l.val) 16),
             kind := if (i matches .mmab ..) then .array else .access, pa := Vector.replicate 32 0,
             pois := Vector.replicate 32 0, out := Vector.replicate 32 0#128,
             landed := Mask.where' fun l => stateOf (vget st l 0#8) == 1, writes := [], blob := [], legLanes := 0#32,
             after := [], acq := acquires i, sent := false, again := true, due := 0, late := none }
    else none

/-- The replay queue at `pa`; none where an entry fails its checks. -/
def readEntries (m : Memory) (pa : Nat) : Nat → Option (List Op)
  | 0 => some []
  | n + 1 => match readEntry m pa, readEntries m (pa + 1024) n with
    | some o, some os => some (o :: os)
    | _, _ => none

/-- The entries that still have lanes to perform, under new names, each after the earlier ones (R397). -/
def nameOps (first : Nat) (os : List Op) : List Op :=
  (os.filter fun (o : Op) => o.open' != 0#32).mapIdx fun i (o : Op) =>
    { o with id := first + i, after := (List.range i).map fun j => first + j }

/-! ### Re-injection (R397, R398) -/

/-- The split's registers as an entry names them. -/
def State.withWindow (s : State) (wb : Nat) : State := { s with me := { s.me with wbase := wb } }

/-- The passes of a re-injected `mmab`: the quarters that MSTEP lacks, with its operands and PAL read again (R292, R398). They
wait for room in the queue (R286). -/
def State.againMmab (s : State) (o : Op) (t : TileNo) (a : VReg) (b : SReg) (c : VReg) (boff : Word) : State :=
  let v := { s with me := { s.me with wbase := o.wb, act := o.act } }
  let h : Hd := ⟨7, false⟩
  match v.sparseChk t b c boff with
  | some (cls, _) => s.putOp (o.fault 0 cls)
  | none =>
    let segs := okLines (v.sparseSegs (v.s b) boff)
    let ps := (sparsePasses (v.mulPass o.instr h a 18 c segs) (if o.clm then o.cidx else v.me.mstep) t).map
      fun (p : Pass) => { p with op := o.id }
    if 64 < queued s.myCore.queue + ps.length then s
    else (s.putOp { o with sent := true }).enqueue (some (sparseKey v.me.pal segs)) ps

/-- A re-injected entry counts on its token and starts: a migrating form is translated, and the compressed forms and `mmab`
read their vector operands from the restored registers (R398). -/
def State.reinject (s0 : State) (o : Op) : State :=
  let s := s0.tokIssue o.tok
  match o.instr with
  | .stz _ _ _ _ c ty n _ _ => s.putOp { o with blob := (s.withWindow o.wb).packForm c ty n.toNat o.act }
  | .mmab _ t a b c boff _ => s.againMmab o t a b c boff
  | _ => match Acc.of o.instr with
    | some a => if a.mig then s.putOp (s.translateOp a o) else s
    | none => s

/-- The handler is left, the queue is re-injected, and what has been latched is taken; else the next run starts at the
restored PC, from which the masked step of R47 may follow (R396, R401, R403). -/
def State.leaveHandler (s : State) : State :=
  let t := { s with me := { s.me with
    inHandler := false, pend := { s.me.pend with late := s.me.pend.kept, kept := none }, trapinfo := s.me.trapSet, toks := Vector.replicate 8 0, status := .run, wasReady := false } }
  let u := t.me.ops.foldl (fun (x : State) (o : Op) => x.reinject o) (t.settleMask 64)
  let v := match u.me.ops.find? fun (p : Op) => p.travels u with
    | some p => { u with me := { u.me with status := if p.departs u then .leaving (.access p.id) else .legs p.id } }
    | none => u.nextRun
  let x := { v with win := { v.win with check := true } }
  (x.takeFirst).getD x

/-! ### The frame read back -/

/-- The poisoned lines of parts of the save area at `pa`, as offsets and sizes. -/
def areaSpoilt (m : Memory) (pa : Nat) (parts : List (Nat × Nat)) : List Nat :=
  ((parts.map fun y => (List.range (ceilDiv y.2 64)).map fun i => pa + y.1 + 64 * i).flatten).filter m.poisoned

/-- Poisoned lines read as zeros (R468). -/
def Memory.zeroed (m : Memory) (pas : List Nat) : Memory :=
  pas.foldl (fun (n : Memory) pa => (n.writeBytes (64 * lineOf pa) (zeros 64)).clearPoison (lineOf pa)) m

/-- A read of parts of the save area: where it is and memory as it is read, or the class with which it fails (R188, R440). -/
def State.readArea (s : State) (va : Dword) (parts : Memory → Nat → List (Nat × Nat)) : Except TClass (Nat × Memory) :=
  match s.xlArea true false va with
  | .error c => .error c
  | .ok x =>
    let bad := areaSpoilt s.mem x.pa (parts s.mem x.pa)
    if !bad.isEmpty && x.pois != 1 then .error .poison else .ok (x.pa, s.mem.zeroed bad)

/-- The poisoned lines that such a read has taken as zeros are logged (R187). -/
def State.areaRead (s : State) (va : Dword) (parts : Memory → Nat → List (Nat × Nat)) : State := match s.xlArea true false va with
  | .error _ => s
  | .ok x => (areaSpoilt s.mem x.pa (parts s.mem x.pa)).foldl (fun (t : State) pa => t.logPois pa x.pois) s

/-- The parts of a frame that its return reads: the head, CTX, REGS and REPQ. -/
def frameParts (m0 : Memory) (pa : Nat) : List (Nat × Nat) :=
  let head := [(0, 128), (0x400, 0x400)]
  let m := m0.zeroed (areaSpoilt m0 pa head)
  head ++ [(0x800, 128 * Nat.min 128 (m.read (pa + 0x40D) 1 + m.read (pa + 0x40E) 1)),
    (0x4800, 1024 * Nat.min 32 (m.read (pa + 9) 1))]

/-- The replay queue of a frame. -/
def frameOps (m : Memory) (pa : Nat) : Option (List Op) := readEntries m (pa + 0x4800) (Nat.min (m.read (pa + 9) 1) 33)

/-- The checks of a frame other than the room for its entries (R413, R414). -/
def State.frameOk (s : State) (m : Memory) (pa : Nat) : Bool :=
  let kind := m.read (pa + 8) 1
  (frameOps m pa).isSome && s.imageOk (readImage m (pa + 0x400)) && 1 ≤ kind && kind ≤ 3 && m.read (pa + 9) 1 ≤ 32

/-- The state that a frame at `pa` of `m` restores (R396): CTX, REGS, MSTEP, SLICE, LATCH and the entries, which wait for
their re-injection. A split resumed at an unchanged PC from a frame of class TOKEN or HAZARD waits as R427 states. -/
def State.fromFrame (s : State) (m : Memory) (pa : Nat) : State :=
  let i := readImage m (pa + 0x400)
  let cls := m.read pa 8 % 32
  let t := s.restore m i (pa + 0x400) i.lanes i.allRegs
  let ops := nameOps t.nextId ((frameOps m pa).getD [])
  { t with
    nextId := t.nextId + ops.length,
    me := { t.me with
      mstep := BitVec.ofNat 64 (m.read (pa + 0x10) 8) &&& 0xFF0F#64, slice := m.read (pa + 0x18) 4, ops := ops,
      toks := Vector.replicate 8 0,
      resume := if i.pc == s.me.trapPc && (cls == 9 || cls == 10) then cls else 0,
      pend := { t.me.pend with redund := false, preempt := t.me.pend.preempt || m.read (pa + 0xA) 1 % 2 == 1 } } }

/-- The effect of `rft` on the frame at `va`, from the step after the probe (R396, R400). A frame that cannot be read ends
the grid as a save fault; one that fails its checks raises ILLEGAL with DETAIL 5 in the handler, or STACK where its entries have
no room, which ends it too. -/
def State.rftEffect (s0 : State) (va : Dword) : State :=
  let s := s0.endRun
  match s.readArea va frameParts with
  | .error c => s.saveFault c false
  | .ok (pa, m) =>
    let u := s.areaRead va frameParts
    if !u.frameOk m pa then u.abort s.gr.grid 0 1 5 s.gr.team s.gr.grp
    else if !u.imageRoom (readImage m (pa + 0x400)) then u.abort s.gr.grid 0 11 0 s.gr.team s.gr.grp
    else
      let t := u.fromFrame m pa
      let to' := m.read (pa + 0xC) 2 % 1024
      if (List.range 8).any fun k => 31 < (t.me.ops.filter fun (o : Op) => o.tok.any fun (j : Tok) => j.val == k).length then
        t.abort s.gr.grid 0 9 0 s.gr.team s.gr.grp
      else if to' = t.locOf t.me.stack then t.leaveHandler
      else { t with me := { t.me with status := .leaving (.rft to') } }

/-- The frame that TRAPINFO names. -/
def Split.frameAt (w : Split) : Dword := BitVec.ofNat 64 (2 ^ 16 * bitsOf w.trapinfo.toNat 56 16)

end Sys2Proof.Machine
end

