-- ==== Sys2Proof/Machine/Migrate.lean ====
section
/-! DEFINITION. Machine/Migrate.lean: the departure of a leg (R33 to R38, R44, R212, R213), admission (R40, R41, R445), and
division (R46, R47, R446). -/

namespace Sys2Proof.Machine

/-! ### What travels (R33, R37, R212) -/

/-- The live mask of a migrating memory instruction. -/
def liveOf : Instr → Dword
  | .ldg _ _ _ _ _ _ _ live | .stg _ _ _ _ _ _ _ live | .atg _ _ _ _ _ _ _ _ _ live | .lrg _ _ _ _ _ _ live
  | .scg _ _ _ _ _ _ _ live => live
  | _ => 0#64

/-- The vector registers that a migrating memory instruction reads or writes, as first register and count (R212). -/
def ownRegs (i : Instr) : List (Nat × Nat) :=
  (vecDest i).toList
    ++ (match (Acc.of i).map (fun a => a.m.idx) with
        | some (.v b _ _) => [(b.val, 1)]
        | _ => [])
    ++ (match i with
        | .stg _ _ sh ty c _ _ _ => if sh == .scal then [] else [(c.val, regsOf (sh.size ty))]
        | .atg _ _ op ty _ _ c _ _ _ => [(c.val, atomicRegs op ty)]
        | .scg _ _ ty _ c _ _ _ => [(c.val, regsOf ty.size)]
        | _ => [])

/-- The physical registers of a leg of operation `o`: those of the masks, and those that the instruction names. -/
def State.legRegs (s : State) (o : Op) : List Nat :=
  let own := ((ownRegs o.instr).map fun x => (List.range x.2).map fun j => o.wb + x.1 + j).flatten
  (s.carried (liveOf o.instr) ++ own).eraseDups

/-- Every register below the window's end: a leg of a save or of `rft` (R74, R396). -/
def State.allRegs (s : State) : List Nat := List.range (s.me.wbase + s.me.frame)

/-! ### Departure -/

/-- A re-injected migrating access whose own legs are still to come (R398). -/
def waitsForLegs (o : Op) : Bool := o.again && o.open' != 0#32 && (Acc.of o.instr).any fun a => a.mig

/-- Whether everything that has to be over before a leg departs is over (R38, R127). -/
def State.mayDepart (s : State) (why : LegFor) : Bool :=
  s.me.results.isEmpty && match why with
    | .access id => s.me.ops.all fun (e : Op) => e.id == id || waitsForLegs e
    | .rft _ => true
    | .join _ | .barw _ _ | .save _ | .forced _ => s.me.ops.isEmpty

/-- Posts in flight, in what follows them: a split that leaves their stack is not held by them any more. -/
def dropKin (x : Nat) (p : Payload) : Payload := match p with
  | .post w g who a op ty pa d po af no kin => .post w g who a op ty pa d po af no (kin.filter (· != x))
  | .barrier gr t q n l e a w g po => .barrier gr t q n l e a w g (po.map fun y => (y.1, y.2.filter (· != x)))
  | q => q

/-- The context leaves for `home`: its stack reports the departure, its reservations there are lost where it
leaves the stack (R216, R447), and its slot and its entries there are free. A context for another module folds its post mask
(R44, R364). -/
def State.depart (s : State) (why : LegFor) (home : Nat) (regs : List Nat) (pa : Option Nat) : State :=
  let m := home / 16
  let away : Bool := m != s.modno
  let k := s.me.stack
  let id := s.me.id
  let vs := regs.map fun r => (r, vget s.win.regs r (Vector.replicate 32 0#32))
  let t := s.tell s.me.num none 1
  let u := if home = s.locOf k then t
    else t.onStk k fun q => { q with resv := q.resv.filter fun (r : Resv) => r.split != id }
  let v := u.setEntries (leaveEntries u.residents u.win.entries u.me.num)
  let w := { v with
    me := { v.me with
      status := .transit, spin := none, wasReady := false,
      postloc := if away then 0#16 else v.me.postloc,
      postmod := if away && v.me.postloc != 0#16 then v.me.postmod ||| (1#64 <<< v.modno) else v.me.postmod },
    fabric := v.fabric.map fun (p : Packet) => { p with pl := dropKin id p.pl } }
  ((w.ship k home (.context id vs s.own pa why)).unfocus).sweepSlots

/-- An operation whose pending lanes read their index and data from the registers that the context carries (R207). -/
def State.reread (s : State) (o : Op) (a : Acc) : Op :=
  if o.again then o
  else
    let t := s.withWindow o.wb
    let ls := o.lanesAt 2
    { o with
      scap := s.scapOf o.instr,
      addr := Vector.ofFn fun l : Fin 32 => if ls.has l.val then t.addrAt a.m a.sz l.val else o.addr[l],
      data := Vector.ofFn fun l : Fin 32 => if ls.has l.val then t.dataAt o.instr l.val else o.data[l] }

/-- The next leg of an access: its operands are those of the registers that it carries, and its lanes are translated again
where it departs (R207, R212). A lane that fails stops the legs (R391). -/
def State.departAccess (s : State) (id : Nat) : State := match s.me.op? id with
  | none => { s with me := { s.me with status := .run } }
  | some o0 => match Acc.of o0.instr with
    | none => s
    | some a =>
      let o := s.reread o0 a
      let p := s.translateLanes a (o.leg' s).list o
      if p.lanesAt 3 &&& o.leg' s != 0#32 then ({ s with me := { s.me with status := .legs id } }).putOp { p with sent := false }
      else
        let q := { p with legLanes := p.leg' s }
        if q.departs s then
          let pa := vget q.pa ((q.legLanes.lowest).getD 0) 0
          (s.putOp { q with leg := true }).depart (.access id) (homeOf pa) (s.legRegs q) (some pa)
        else ({ s with me := { s.me with status := .legs id } }).putOp q

/-- LEG_DEPARTURE, where it can take place. -/
def State.legStep (s : State) : Option State :=
  let base := s.locOf s.gr.base
  match s.me.status with
  | .leaving why =>
    if !s.mayDepart why || s.me.mustTrap && s.me.faultable then none
    else match why with
      | .access id => some (s.departAccess id)
      | .join _ | .barw _ _ => some (s.depart why base (s.carried (onesBelow s.me.frame)) none)
      | .save _ | .forced _ => some (s.depart why base s.allRegs none)
      | .rft to' => some (s.depart why to' s.allRegs none)
  | _ => none

def execLegDeparture (split : Nat) (s : State) : Out :=
  .next (((s.focus split).bind State.legStep).getD s)

/-! ### Admission (R40, R41, R64, R377) -/

/-- The slots a split of group `g` takes on a core: its split slot, its shadow's, its group slot, the shadow's (R449), where
the core can admit it. -/
def State.roomOn (s : State) (k c : Nat) (g : Group) : Option (Nat × Option Nat × Nat × Option Nat) :=
  match pickSlots (s.takenSlots k c) g.shadow with
  | none => none
  | some (a, b) => match (s.slotsOn k c).find? fun (q : GroupSlot) => q.group == g.id with
    | some q => some (a, b, q.gslot, q.shGslot)
    | none => (pickGslots (s.takenGslots k c) g.shadow).map fun x => (a, b, x.1, x.2)

/-- The core that admits a context, when one can. -/
def State.admitCore (s : State) (k : Nat) (g : Group) (pa : Option Nat) (why : LegFor) : Option Nat :=
  let open' (c : Nat) : Bool := coreServed (s.stk k).svc c && (s.roomOn k c g).isSome
  let only (c : Nat) : Option Nat := if open' c then some c else none
  let fewest : Option Nat := match (List.range 8).filter open' with
    | [] => none
    | c :: cs => some (cs.foldl (fun b x => if (s.takenSlots k x).length < (s.takenSlots k b).length then x else b) c)
  match pa with
  | some a => if isVault a then only (tileOfPa a) else fewest
  | none => match why with
    | .join _ => match g.joinCore with
      | some c => only c
      | none => fewest
    | _ => fewest

/-- Registers whose values are unspecified, `n` being the first free value's number (R34, R65). -/
def freeRegs (n : Nat) : Vector Lanes 128 := Vector.ofFn fun r : Fin 128 => lanesOf fun l => Config.freeWord (n + 32 * r.val + l)

/-- A group slot as a group takes it. -/
def State.takeGslot (s : State) (k c g : Nat) (sh : Option Nat) (gid : Nat) : State :=
  let q : GroupSlot := { stack := k, core := c, gslot := g, group := gid, shGslot := sh, regs := freeRegs s.fresh, entries := [],
                         check := false }
  { s with slots := s.slots ++ [q], fresh := s.fresh + 4096 }

/-- The lanes whose registers a context brings (R41, R445). -/
def carriedLanes (act : Mask) (es : List Entry) : Mask :=
  es.foldl (fun (m : Mask) (e : Entry) => if e.kind = 3 then m ||| e.lanes else m) act

/-- A cooperative save where the split stands, once its writes can be performed (R74), or the stop of its group, which comes first
(R431). -/
def State.saveWhole (s : State) (pc : Dword) : State :=
  if s.me.pend.kill then s
  else if s.me.pend.stop then s.stopSplit pc
  else if s.saveReady then s.saveNow false pc else s.waitFor [.quiet] (.save pc)

/-- What the split does where it has arrived (R38, R50, R74, R135, R396). -/
def State.arrived (s : State) (why : LegFor) : State := match why with
  | .access id => { s with me := { s.me with status := .legs id } }
  | .join j => s.joinArrive j
  | .barw n x =>
    let t := { s with me := { s.me with status := .arriving n } }
    t.send t.me.stack t.gr.base (.barrier t.gr.grid t.gr.team t.gr.grp n x.count false t.me.asid t.me.id t.gr.id none)
  | .save pc => s.saveWhole pc
  | .forced _ => s.savedArrives
  | .rft _ => s.leaveHandler

/-- The split in focus, with its registers and entries in its new slot. A trap that waits for it is taken on admission
(R383), and what PREQ and an expired budget ask of it takes hold (R73, R75). -/
def State.settleIn (s : State) (regs : List (Nat × Lanes)) (es : List Entry) (why : LegFor) : State :=
  let lanes := carriedLanes s.me.act es
  let t := regs.foldl (fun (u : State) r => u.applyWr (.v r.1 lanes r.2)) (s.meets s.me.stack (some s.gr.grid))
  let grid := t.gr.grid
  let preq : Bool := (t.grid? grid).any fun (g : Grid) => g.preq
  let spent : Bool := (t.stk t.me.stack).budgets.any fun b => b.1 == grid && b.2.2
  let saved : Bool := match why with
    | .save _ | .forced _ => true
    | _ => false
  let u := { t with
    win := { t.win with entries := mergeCopies t.me.num (t.residents &&& ~~~ ownBit t.me.num) t.win.entries es, check := true },
    me := { t.me with
      status := match why with | .access id => .legs id | _ => .run,
      wasReady := false, preq := t.me.preq || preq,
      pend := { t.me.pend with
        preempt := t.me.pend.preempt || spent && !saved,
        handler := if spent && !saved then (t.me.stack :: t.me.pend.handler).eraseDups else t.me.pend.handler } } }
  let v := u.tell u.me.num none 0
  if v.me.pend.kill then v
  else match why with
    | .save _ | .forced _ | .rft _ => v.arrived why
    | .access _ | .join _ | .barw _ _ => match v.takeFirst with
      | some x => x
      | none => v.arrived why

/-- A context is admitted to core `c` of stack `k`. The focus is empty before and after it. -/
def State.admitAt (s : State) (k c : Nat) (w : Split) (g : Group) (regs : List (Nat × Lanes)) (es : List Entry)
    (why : LegFor) : State := match s.roomOn k c g with
  | none => s
  | some (a, b, gs, gsh) =>
    let t := if (s.slotAt k c gs).isSome then s else s.takeGslot k c gs gsh g.id
    let u := t.onSplit w.id fun v => { v with stack := k, core := c, slot := a, shSlot := b, gslot := gs }
    match u.focus w.id with
    | none => u
    | some v => ((v.monitorEvent k w.cameAt).settleIn regs es why).unfocus

/-- The first arrival that some core admits, in arrival order. -/
def State.admitFirst (s : State) (k : Nat) : List Payload → Option State
  | [] => none
  | p :: ps => match p with
    | .context id regs es pa why => match s.split? id with
      | none => s.admitFirst k ps
      | some w => match s.group? w.group with
        | none => s.admitFirst k ps
        | some g => match s.admitCore k g pa why with
          | none => s.admitFirst k ps
          | some c =>
            let t := s.onStk k fun q => { q with arrivals := q.arrivals.erase p }
            some (t.admitAt k c w g regs es why)
    | _ => s.admitFirst k ps

def isContext : Payload → Bool
  | .context _ _ _ _ _ => true
  | _ => false

/-- The sources whose oldest packet for stack `k` is a context. -/
def State.contextSources (s : State) (k : Nat) : List Nat :=
  ((s.fabric.filter fun (p : Packet) => p.dst == k).map fun (p : Packet) => p.src).eraseDups.filter fun a =>
    (s.takeFrom isContext a k).isSome

/-- A context at the head of its path joins the arrival queue; which path's comes first is the fabric's choice (log
entry 2). The split takes its arrival number (R43) and the cycle (R377). -/
def State.contextIn (s : State) (k : Nat) : Option State := match s.contextSources k with
  | [] => none
  | a :: as =>
    let src := (a :: as).getD (Config.freeNat s.fresh % (as.length + 1)) a
    match s.takePacket isContext src k with
    | some (.context id regs es pa why, t) =>
      let u := t.draw.onSplit id fun w => { w with came := t.nextId, cameAt := (t.stk k).clock }
      some ({ u with nextId := u.nextId + 1 }.onStk k fun q => { q with
        arrivals := q.arrivals ++ [Payload.context id regs es pa why] })
    | _ => none

/-- CONTEXT_ADMISSION, where it can take place. The focus is empty after it. -/
def State.admissionStep (s0 : State) (k : Nat) : Option State :=
  let s := s0.unfocus
  match s.contextIn k with
  | some t => some ((t.admitFirst k (t.stk k).arrivals).getD t)
  | none => s.admitFirst k (s.stk k).arrivals

def execContextAdmission (stack : Fin 16) (s : State) : Out := .next ((s.admissionStep stack.val).getD s)

/-! ### Division (R46, R47, R345, R446, R447) -/

/-- Posts in flight that the accesses of `x` follow: those of its child follow them too (R230). -/
def addKin (x child : Nat) (p : Payload) : Payload := match p with
  | .post w g who a op ty pa d po af no kin =>
    .post w g who a op ty pa d po af no (if kin.contains x then kin ++ [child] else kin)
  | .barrier gr t q n l e a w g po =>
    .barrier gr t q n l e a w g (po.map fun y => (y.1, if y.2.contains x then y.2 ++ [child] else y.2))
  | q => q

/-- The split divides (R46): lanes `x` go to split `c` in slot `slot`, at `target`. -/
def State.splitOff (s : State) (c slot : Nat) (sh : Option Nat) (x : Mask) (target : Dword) : State :=
  let w := s.me
  let child : Split := { w with
    id := s.nextId, num := c, slot := slot, shSlot := sh, act := x, pc := target, inHandler := false,
    toks := Vector.replicate 8 0, rlo := 0#64, rhi := 0#64, rdue := 0, mstep := 0#64, trapinfo := 0#64, trapSet := 0#64,
    slice := 0, resume := 0, trapPc := 0#64, rewait := .run, status := .run, inRun := false, stalled := false, runLen := 0,
    wasReady := false, since := 0, results := [], ops := [], probes := [], probeFailed := false,
    spin := none, pend := Pend.none }
  let both := ownBit w.num ||| ownBit c
  let es := s.win.entries.map fun (e : Entry) =>
    if e.owned w.num && e.kind != 3 then { e with owner := e.owner ||| ownBit c } else e.drop c
  let rest := w.act &&& ~~~x
  let t := { s with
    nextId := s.nextId + 1, splits := s.splits ++ [child],
    win := { s.win with entries := es ++ [reconvEntry both w.num c w.act w.pal] },
    me := { w with act := rest, status := .run },
    fabric := s.fabric.map fun (p : Packet) => { p with pl := addKin w.id child.id p.pl } }
  let u := t.onStk w.stack fun q => { q with
    resv := q.resv.map fun (r : Resv) => if r.split = w.id ∧ x.has r.lane then { r with split := child.id } else r }
  ((u.tell w.num (some rest) 0).tell c (some x) 0).finish (w.pc + 20#64)

/-- The split goes on with the lanes that do not branch, and defers the others (R47). -/
def State.mask (s : State) (x : Mask) (target recon : Dword) : State :=
  let w := s.me
  let toff : Int := sextOf (target - recon).toNat 64
  let t := s.push (maskedEntry (ownBit w.num) false recon toff x)
  ({ t with me := { t.me with act := w.act &&& ~~~x, status := .run } }).finish (w.pc + 20#64)

/-- The reply to a divergent `brp` has come: it divides or masks, or what waits for the split is taken with the number
returned (R409, R435, R446). -/
def State.divideWith (s : State) (n : Option Nat) (x : Mask) (target recon : Dword) : State :=
  let back (t : State) : State := match n with
    | none => t
    | some c => t.freeNumber t.gr.id t.gr.base t.me.stack c
  let w := s.me
  if !w.inHandler && (w.pend.preempt || w.pend.stop) || w.faulting || w.pend.kill then
    let t := (back ({ s with me := { w with status := .run } })).endRun
    (t.takeFirst).getD t
  else if 32 ≤ s.win.entries.length then (back s).raise (s.trapHere .stack 0)
  else match n with
    | none => s.mask x target recon
    | some c => match pickSlots (s.takenSlots w.stack w.core) s.gr.shadow with
      | none => (back s).mask x target recon
      | some (a, b) => s.splitOff c a b x target

/-- DIVISION, where it can take place: the reply is at the head of its path, and every fixed-latency result has landed. -/
def State.divisionStep (s : State) : Option State :=
  let w := s.me
  match w.status with
  | .wait (.number :: _) (.brp x target recon) =>
    if !w.results.isEmpty then none
    else
      let mine (p : Payload) : Bool := match p with
        | .numAns id _ => id == w.id
        | _ => false
      match s.takePacket mine s.gr.base w.stack with
      | some (.numAns _ n, t) => some (t.divideWith n x target recon)
      | _ => none
  | _ => none

def execDivision (split : Nat) (s : State) : Out := .next (((s.focus split).bind State.divisionStep).getD s)

end Sys2Proof.Machine
end

