-- ==== Sys2Proof/Machine/Waits.lean ====
section
/-! DEFINITION. Machine/Waits.lean: what an instruction waits for (R45, R126, R127, R137, R208, R391), and what it does once its
waits are over: calls and returns (R130, R131), joins (R50), barriers (R135), saves (R74), exits (R139), context loads (R147)
and the start of an access. -/

namespace Sys2Proof.Machine

/-! ### Effects after a wait -/

/-- R130. -/
def State.callEffect (s : State) (target live : Dword) (caller callee : Nat) : State :=
  if 64 < s.me.wbase + caller then s.raise (s.trapHere .stack 2)
  else if 32 ≤ s.win.entries.length then s.raise (s.trapHere .stack 0)
  else
    let t := s.push (callEntry (ownBit s.me.num) caller (s.me.pc + 20#64) live)
    ({ t with me := { t.me with wbase := s.me.wbase + caller, frame := callee } }).finish target

/-- The split `n` gives up its newest call entry and the reconvergence entries newer than it; the entries stand newest
first. -/
def returnFrom (n : Nat) : List Entry → List Entry
  | [] => []
  | e :: es =>
    if e.owned n = false then e :: returnFrom n es
    else if e.kind = 1 then e.drop n :: es
    else (if e.kind = 2 then e.drop n else e) :: returnFrom n es

/-- R131, R443. -/
def State.retEffect (s : State) : State :=
  let (newer, call) := splitAtCall s.own.reverse
  match call with
  | none => s.raise (s.trapHere .stack 1)
  | some e =>
    if ownsMasked newer then s.raise (s.trapHere .stack 1)
    else
      let t := s.setEntries (freeUnowned s.residents (returnFrom s.me.num s.win.entries.reverse).reverse)
      ({ t with me := { t.me with wbase := s.me.wbase - e.fsz, frame := e.fsz } }).finish e.ret

/-- R50: the split waits at the join core, or moves there. -/
def State.joinEffect (s : State) (j : Nat) : State :=
  let there : Bool := s.fixed || s.me.stack == s.gr.base && (match s.gr.joinCore with
    | none => true
    | some c => c == s.me.core)
  if there then s.joinArrive j else { s.endRun with me := { s.endRun.me with status := .leaving (.join j) } }

/-- R135. -/
def State.barwEffect (s : State) (n : Nat) (x : Mask) : State :=
  let t := s.endRun
  if t.me.stack = t.gr.base then t.arrived (.barw n x)
  else { t with me := { t.me with status := .leaving (.barw n x) } }

/-- R135; none while the post tracker is full (R44). -/
def State.baraEffect (s : State) (n : Nat) (x : Mask) (h : Hd) : Option State :=
  if s.trackerFull s.me.stack then none else some ((s.sendBarrierPost n x.count false).retire h 4)

/-- R74, R399: the save record, after the migration to the base stack where there is one. -/
def State.saveEffect (s : State) (pc : Dword) : State :=
  let t := s.finish pc
  if t.savedHere then t.saveWhole t.me.pc
  else { t with me := { t.me with status := .leaving (.save t.me.pc) } }

/-- Where a split goes on whose running lanes have all exited (R52). -/
def State.onward (s : State) : Option (Mask × Dword × List Entry) :=
  exitOnward s.me.num s.win.entries.reverse (2 * s.win.entries.length)

/-- R139; none while the post tracker is full (R44), or the tiles that the end of the split writes are held off (R218). -/
def State.exitEffect (s : State) (x : Mask) : Option State :=
  let ends : Bool := s.me.act &&& ~~~x == 0#32 && s.onward.isNone
  if s.trackerFull s.me.stack || ends && s.lateWaits && !s.me.pend.kill then none
  else
    let t := { s with me := { s.me with act := s.me.act &&& ~~~x, exited := s.me.exited ||| x } }
    let u := (List.range 16).foldl (fun (v : State) n => v.sendBarrierPost n x.count true) t
    some (if u.me.act != 0#32 then u.finish (s.me.pc + 4#64)
          else match u.onward with
            | some (act, pc, es) => (({ u with me := { u.me with act := act } }).setEntries es.reverse).finish pc
            | none => u.endSplit x)

/-! ### `ctxld` (R147, R413) -/

/-- The class that a failed address of the privileged instructions raises (R412). -/
def privClass (c : TClass) : TClass × Nat := match c with
  | .align | .home => (.illegal, 5)
  | c => (c, 0)

/-- `n` lines from `va` on, translated for a read or write of their own stack, each with its poison policy. -/
def State.xlLines (s : State) (wr : Bool) (va : Dword) (n : Nat) : Except TClass (List (Nat × Nat)) :=
  (List.range n).foldr (fun i (r : Except TClass (List (Nat × Nat))) =>
    match s.xlLocal (!wr) wr 64 (va + BitVec.ofNat 64 (64 * i)), r with
    | .error c, _ => .error c
    | .ok _, .error c => .error c
    | .ok x, .ok l => .ok ((x.pa, x.pois) :: l)) (.ok [])

/-- Lines gathered into a memory of their own; a poisoned line reads zero (R468). -/
def gatherLines (m : Memory) (pas : List (Nat × Nat)) : Memory :=
  { cells := [], tags := [], poison := [] : Memory }.writeBytes 0
    ((pas.map fun x => if m.poisoned x.1 then zeros 64 else bytesLE 64 (m.read x.1 64)).flatten)

/-- Whether poison refuses a read of lines (R468). -/
def poisonStops (m : Memory) (pas : List (Nat × Nat)) : Bool := pas.any fun x => m.poisoned x.1 && x.2 != 1

/-- The lines of the image at `va`, once it passes its checks; else what they raise. -/
def State.fetchImage (s : State) (va : Dword) : Except (TClass × Nat) (List (Nat × Nat)) :=
  match s.xlLines false va 16 with
  | .error c => .error (privClass c)
  | .ok head =>
    let i := readImage (gatherLines s.mem head) 0
    if poisonStops s.mem head then .error (.poison, 0)
    else if !s.imageOk i then .error (.illegal, 5)
    else match s.xlLines false va (16 + 2 * i.regs.length) with
      | .error c => .error (privClass c)
      | .ok all =>
        if poisonStops s.mem all then .error (.poison, 0)
        else if !s.imageRoom i then .error (.stack, 0)
        else .ok all

/-- The split's state becomes the image's (R147). The image stands in a memory of its own, from address 0 on. -/
def State.ctxldEffect (s : State) (va : Dword) : State := match s.fetchImage va with
  | .error (c, d) => s.raise (s.trapHere c d)
  | .ok lines =>
    let m := gatherLines s.mem lines
    let i := readImage m 0
    let u := lines.foldl (fun (t : State) x => t.logPois x.1 x.2) s
    let t := u.restore m i 0 i.act i.regs
    ({ t with me := { t.me with spin := none } }).finish i.pc

/-! ### The waits -/

/-- `ctxsv` takes the image of the instant at which its tokens have drained (R146). -/
def State.ctxsvEffect (s : State) (op : Op) : State :=
  let o := { op with id := s.nextId, after := s.me.ops.map fun (e : Op) => e.id,
                     blob := s.imageFixed (s.me.pc + 12#64) (match op.instr with
                       | .ctxsv _ d _ _ => d
                       | _ => 0) ++ s.imageRegs }
  (s.issue o).retire (hdOf o.instr) o.instr.bytes

/-- An effect that takes or replaces the split's registers: every result in flight lands first (R38, R141, R146, R147). -/
def State.afterLanding (s t : State) : Option State := if s.me.results.isEmpty then some t else none

/-- What is done once every wait is over; none where it has to wait on (R44). -/
def State.proceed (s : State) : Cont → Option State
  | .start op => s.begin op op.acq
  | .call target live caller callee => some (s.callEffect target live caller callee)
  | .ret => some s.retEffect
  | .brp _ _ _ => none
  | .join j => some (s.joinEffect j)
  | .barw n x => some (s.barwEffect n x)
  | .bara n x h => s.baraEffect n x h
  | .save pc => some (s.saveEffect pc)
  | .exit x => s.exitEffect x
  | .ctxsv op => s.afterLanding (s.ctxsvEffect op)
  | .ctxld va => s.afterLanding (s.ctxldEffect va)
  | .rft => s.afterLanding (s.rftEffect s.me.frameAt)
  | .goto pc => some (s.finish pc)
  | .trap t => some (s.enterTrap t)
  | .stop pc => some (s.stopNow pc)
  | .forced pc => some (s.saveNow true pc)

/-- The stacks that a probe goes to (R45): those of POSTLOC, and all 16 of each module of POSTMOD. -/
def State.probeStacks (s : State) : List Nat :=
  (((List.range 16).filter fun k => s.me.postloc.getLsbD k)
    ++ ((List.range 64).filter fun m => s.me.postmod.getLsbD m).flatMap fun m =>
        (List.range 16).map fun k => s.nameOf (16 * m + k)).eraseDups

def State.sendProbes (s : State) : State :=
  let ks := s.probeStacks
  ks.foldl (fun (t : State) k => t.send s.me.stack k (.probe s.me.id s.gr.id))
    { s with me := { s.me with probes := ks, probeFailed := false } }

/-- Whether a wait is over where it sends nothing. -/
def State.waitOver (s : State) : WaitStep → Bool
  | .toks m => s.me.toksZero m
  | .answers => s.me.probes.isEmpty
  | .tok k m => s.me.tok k ≤ m
  | .done op => (s.me.op? op).isNone
  | .quiet => s.saveReady
  | .number => false
  | .probe | .request => true

/-- The waits in their order: what is sent is sent, what is over is left, and the effect follows the last one. A failed
answer is POISON at the probing instruction (R460). -/
def State.advanceBy (s : State) : Nat → State
  | 0 => s
  | n + 1 => match s.me.status with
    | .wait [] k => (({ s with me := { s.me with status := .run } }).proceed k).getD s
    | .wait (w :: ws) k =>
      if !s.waitOver w then s
      else
        let t := { s with me := { s.me with status := .wait ws k } }
        match w with
        | .probe => t.sendProbes.advanceBy n
        | .request => (t.send t.me.stack t.gr.base (.numReq t.me.id t.gr.id t.me.core)).advanceBy n
        | .answers =>
          if t.me.probeFailed then
            ({ t with me := { t.me with status := .run, probeFailed := false } }).raise (t.trapHere .poison 1)
          else t.advanceBy n
        | .toks _ | .tok _ _ | .done _ | .quiet | .number => t.advanceBy n
    | _ => s

/-- At most four waits stand before an effect. -/
def State.advance (s : State) : State := s.advanceBy 6

/-- Waits entered by an instruction at issue; those already over are left at once. -/
def State.await (s : State) (steps : List WaitStep) (k : Cont) : State := (s.waitFor steps k).advance

/-! ### Accesses with a release (R208) -/

/-- A memory or object instruction: its checks, the wait of a release, and its start. Its operands are those of its issue
cycle (log entry 5). -/
def State.access (s : State) (i : Instr) (h : Hd) (n : Need8) (rel acq : Bool) (make : State → Op) : Out :=
  s.gate i h n fun t =>
    let o := { make t with acq := acq }
    if rel then t.await releaseWaits (.start o)
    else (t.begin o acq).getD t.stall

end Sys2Proof.Machine
end

