-- ==== Sys2Proof/Machine/Control.lean ====
section
/-! DEFINITION. Machine/Control.lean: branches (R128, R129), calls (R130, R131), joins and barriers (R132, R135), delays and
waits (R136 to R139), traps (R140, R141), and spin park (R71). -/

namespace Sys2Proof.Machine

/-! ### Spin park (R71) -/

/-- The stack has a free line monitor: each parked split holds one of its 64. -/
def State.monitorFree (s : State) : Bool :=
  (s.allSplits.filter fun (w : Split) => w.stack == s.me.stack && (w.status matches .parked _)).length < 64

/-- The line on which the split would park at a backward branch at `pc`. -/
def State.parkLine (s : State) (pc : Dword) : Option Nat := match s.me.spin with
  | some x =>
    if x.pc = pc && x.ok && s.me.toks.toList.all (· == 0) then
      x.line.filter fun n => s.homedOn s.me.stack (64 * n)
    else none
  | none => none

/-- A taken branch from `pc` to `target` ends the run; a backward one parks the split, or begins the iteration that the next
one examines. -/
def State.branchTo (s : State) (target : Dword) : State :=
  let pc := s.me.pc
  let t := s.finish target
  if pc.toNat < target.toNat || t.me.pc != target then t
  else match (if s.monitorFree then s.parkLine pc else none) with
    | some n =>
      { (t.onStk t.me.stack fun q => { q with spinEvents := q.spinEvents + 1 }) with
          me := { t.me with status := .parked n, spin := none } }
    | none => { t with me := { t.me with spin := some { pc := pc, line := none, ok := true, first := t.nextId } } }

/-- `pc + sext(imm, 32)`. -/
def State.relative (s : State) (off : Word) : Dword := s.me.pc + BitVec.ofInt 64 (sextOf off.toNat 32)

/-- The check of an indirect target (R412). -/
def codeChk (x : Dword) : Chk := chkIf (2 ^ 54 ≤ x.toNat || x.toNat % 4 != 0) .illegal 5

/-! ### Branches -/

/-- R128. -/
def execBra (h : Hd) (off : Word) (s : State) : Out := s.gate (.bra h off) h {} fun t => t.branchTo (t.relative off)
def execBrx (h : Hd) (a : SReg) (s : State) : Out :=
  s.gate (.brx h a) h { reads := [rdS a], chk := codeChk (s.s a) } fun t => t.branchTo (t.s a)

/-- R129: a divergent `brp` waits for its tokens and for a split number, and then divides or masks. -/
def execBrp (h : Hd) (off recon : Word) (s : State) : Out :=
  s.gate (.brp h off recon) h {} fun t =>
    let x := t.active h
    if x = t.me.act then t.branchTo (t.relative off)
    else t.spoil.await [.toks 0xFF#8, .request, .number] (.brp x (t.relative off) (t.relative recon))

/-! ### Calls (R126, R130, R131) -/

def execCall (h : Hd) (callee caller : Fin 64) (off : Word) (live : Dword) (s : State) : Out :=
  s.gate (.call h callee caller off live) h {} fun t =>
    t.await [.toks 0xF0#8] (.call (t.relative off) live (caller.val + 1) (callee.val + 1))
def execCallx (h : Hd) (b : SReg) (callee caller : Fin 64) (live : Dword) (s : State) : Out :=
  s.gate (.callx h b callee caller live) h { reads := [rdS b], chk := codeChk (s.s b) } fun t =>
    t.await [.toks 0xF0#8] (.call (t.s b) live (caller.val + 1) (callee.val + 1))
def execRet (h : Hd) (s : State) : Out := s.gate (.ret h) h {} fun t => t.await [.toks 0xF0#8] .ret

/-! ### Joins and barriers -/

/-- R132, R50. -/
def execJoin (h : Hd) (j : Fin 8) (s : State) : Out := s.gate (.join h j) h {} fun t => t.await releaseWaits (.join j.val)
/-- R135. -/
def execBarw (h : Hd) (n : Fin 16) (s : State) : Out :=
  s.gate (.barw h n) h {} fun t => t.spoil.await releaseWaits (.barw n.val (t.active h))
def execBara (h : Hd) (n : Fin 16) (s : State) : Out :=
  s.gate (.bara h n) h {} fun t => t.spoil.await releaseWaits (.bara n.val (t.active h) h)

/-! ### Delays, waits and ending -/

/-- R136. -/
def execNop (h : Hd) (s : State) : Out := s.gate (.nop h) h {} fun t => t.retire h 4
def execPause (h : Hd) (n : Fin 16) (s : State) : Out :=
  s.gate (.pause h n) h {} fun t =>
    (t.onPipe t.me.stack t.me.core t.myPipe fun p => { p with hold := n.val - 1 }).retire h 4

/-- R137. -/
def execTw (h : Hd) (k : Tok) (m : Fin 64) (s : State) : Out :=
  s.gate (.tw h k m) h {} fun t =>
    if t.me.tok k ≤ m.val then t.retire h 4
    else t.endRun.waitFor [.tok k m.val] (.goto (t.me.pc + 4#64))

/-- R74, R138. -/
def execYield (h : Hd) (s : State) : Out :=
  s.gate (.yield h) h {} fun t =>
    if t.me.preq then t.await releaseWaits (.save (t.me.pc + 4#64)) else t.finish (t.me.pc + 4#64)

/-- R139: the probe of a split that ends comes before its lanes leave it (R460). -/
def execExit (h : Hd) (s : State) : Out :=
  s.gate (.exit h) h {} fun t =>
    let x := t.active h
    let last : Bool := x == t.me.act && t.onward.isNone
    t.spoil.await (if last then releaseWaits else [.toks 0xFF#8]) (.exit x)

/-! ### Traps (R140, R141) -/

/-- The trap of `trap` or `brk`: it is taken after the instruction. -/
def State.trapAfter (s : State) (c : TClass) (n : Nat) : Trap := ⟨c, 0, n, s.me.pc + 4#64, s.me.toks⟩

def execTrap (h : Hd) (n : Fin 64) (s : State) : Out := s.gate (.trap h n) h {} fun t => t.raise (t.trapAfter .soft n.val)
def execBrk (h : Hd) (n : Fin 64) (s : State) : Out := s.gate (.brk h n) h {} fun t => t.raise (t.trapAfter .brk n.val)

/-- R396, R412: outside a handler `rft` raises PRIV whatever its guard. -/
def execRft (h : Hd) (s : State) : Out :=
  if s.me.inHandler then s.gate (.rft h) h {} fun t => t.await releaseWaits .rft
  else .next (s.raise (s.trapHere .priv 0))

end Sys2Proof.Machine
end

