-- ==== Sys2Proof/Machine/Objects.lean ====
section
/-! DEFINITION. Machine/Objects.lean: the copy and barrier-object instructions (R272 to R276, R418): their issue, and how their
accesses are performed at the home. -/

namespace Sys2Proof.Machine

/-! ### Issue -/

/-- The operation of an instruction on the object or ring header at S(A), with the scalars it reads. -/
def State.objectOp (s : State) (i : Instr) (h : Hd) (k : Tok) (a : SReg) (scap : List Dword) : Op :=
  { s.newOp i h (some k) with
    kind := .access, addr := vset (Vector.replicate 32 0#64) 0 (s.s a), scap := scap }

/-- The eight packet words `sB` to `s(B+7)` (R273). -/
def packetRegs (b : SReg) : List SReg := (List.range 8).map fun j => Fin.ofNat 32 (b.val + j)

def execCpkt (h : Hd) (sc : Scope) (d a b : SReg) (k : Tok) (s : State) : Out :=
  s.access (.cpkt h sc d a b k) h { reads := rdS a :: (packetRegs b).map rdS, tok := some k } true false
    fun t => t.objectOp (.cpkt h sc d a b k) h k a ((packetRegs b).map t.s)
/-- R274. -/
def execBinit (h : Hd) (a b : SReg) (n : BitVec 16) (k : Tok) (s : State) : Out :=
  s.access (.binit h a b n k) h { reads := [rdS a, rdS b], tok := some k } false false
    fun t => t.objectOp (.binit h a b n k) h k a [t.s b]
def execBexp (h : Hd) (arv : Bool) (sc : Scope) (a b : SReg) (k : Tok) (s : State) : Out :=
  s.access (.bexp h arv sc a b k) h { reads := [rdS a, rdS b], tok := some k } arv false
    fun t => t.objectOp (.bexp h arv sc a b k) h k a [t.s b]
def execBarv (h : Hd) (sc : Scope) (a : SReg) (n : BitVec 16) (k : Tok) (s : State) : Out :=
  s.access (.barv h sc a n k) h { reads := [rdS a], tok := some k } true false
    fun t => t.objectOp (.barv h sc a n k) h k a []
/-- R275: the split is ready again when the read has completed. -/
def execBobs (h : Hd) (w1 acq : Bool) (sc : Scope) (d a : SReg) (k : Tok) (s : State) : Out :=
  s.access (.bobs h w1 acq sc d a k) h { reads := [rdS a], tok := some k } false true
    fun t => t.objectOp (.bobs h w1 acq sc d a k) h k a []

/-! ### `bwt` (R276, R418) -/

/-- The next PC of a `bwt` that has waited. -/
def bwtNext (pc : Dword) (cont : Option Word) : Dword := match cont with
  | none => pc + 12#64
  | some x => pc + BitVec.ofInt 64 (sextOf x.toNat 32)

/-- The split waits at the object, or saves where PREQ stands and the form is `.y` (R74, R276). -/
def State.bwtWait (s : State) (pa : Nat) (q : Bool) (cont : Option Word) : State :=
  let t := s.endRun
  if cont.isSome && t.me.preq then t.await releaseWaits (.save t.me.pc)
  else { t with me := { t.me with status := .bwt pa q (bwtNext t.me.pc cont) cont.isSome } }

def execBwt (h : Hd) (sc : Scope) (a b : SReg) (cont : Option Word) (s : State) : Out :=
  let x := s.xlLocal true false 16 (s.s a)
  s.gate (.bwt h sc a b cont) h { reads := [rdS a, rdS b], chk := Chk.xl false x } fun t => match x with
    | .error _ => t
    | .ok y =>
      if t.readLater y.pa 16 then t.stall
      else match t.readHome y.pa 8 y.pois with
        | none => t.raise (t.trapHere .poison 0)
        | some w =>
          let q := (t.s b).getLsbD 0
          let u := t.logPois y.pa y.pois
          if w.testBit 63 == q then u.spoil.retire h 12 else u.spoil.bwtWait y.pa q cont

/-! ### At the home -/

/-- The translation of the one address of an operation: the home has to be the current stack (R272, R456). -/
def State.objectXl (s : State) (o : Op) (rd wr : Bool) (align : Nat) : State :=
  match s.xlLocal rd wr align (vget o.addr 0 0#64) with
  | .error c => s.putOp (o.fault 0 c)
  | .ok x => s.putOp { o with pa := vset o.pa 0 x.pa, pois := vset o.pois 0 x.pois, sent := true }

/-- The operation has been performed, and completes. -/
def State.objectDone (s : State) (o : Op) (ws : List Wr) : State :=
  let p := { o with writes := ws }.setStat 0 statDone
  (s.putOp p).complete p

/-- An update performed, or the poison that refused it. -/
def State.objectEnd (s : State) (o : Op) (t : Option State) : State := match t with
  | none => s.putOp (o.fault 0 .poison)
  | some u => u.objectDone o []

/-- LOGN of a ring header, where the header is usable (R54, R56, R273). -/
def ringLogn (header : Nat) : Option Nat :=
  let n := header / 2 ^ 128 % 256
  if 4 ≤ n ∧ n ≤ 16 ∧ header / 2 ^ 136 % 2 ^ 376 = 0 then some n else none

/-- Offset of the slot of index `k`. -/
def slotOff (k n : Nat) : Nat := 64 + 64 * (k % 2 ^ n)

/-- The first word of a packet as `cpkt` publishes it (R273). -/
def packetFirst (x : Dword) (k n asid : Nat) : Nat :=
  putBits (putBits x.toNat 0 0 (k / 2 ^ n)) 25 16 asid

/-- LOGN as `cpkt` read it with its claim; one that `rft` has started again reads it from the header (R273, R398). -/
def Op.claimLogn (o : Op) (header : Nat) : Option Nat :=
  if 0 < vget o.pa 3 0 then some (vget o.pa 3 0 - 1) else ringLogn header

/-- A `cpkt` that has claimed its index names its slot, which later accesses of the split to it follow (R230, R271). -/
def State.nameSlot (s : State) (o : Op) (n : Nat) : Op :=
  let slot := match s.xlLocal false true 64 (vget o.addr 0 0#64 + BitVec.ofNat 64 (slotOff o.cidx.toNat n)) with
    | .ok y => y.pa
    | .error _ => 0
  { o with pa := vset (vset o.pa 1 slot) 3 (n + 1) }

/-- A `cpkt` that has claimed its index: the wait for room, the slot's translation for the write, its bytes 8 to 63 and then
its first word (R273). -/
def State.fillSlot (s : State) (o : Op) (d : SReg) (hdr header n : Nat) : Option State :=
  let k := o.cidx.toNat
  let pa := vget o.pa 1 0
  let pois := vget o.pois 1 0
  if 2 ^ n ≤ (k + 2 ^ 64 - header / 2 ^ 64 % 2 ^ 64) % 2 ^ 64 then none
  else if vget o.pa 2 0 = 0 then
    match s.xlLocal false true 64 (vget o.addr 0 0#64 + BitVec.ofNat 64 (slotOff k n)) with
    | .error c => some (s.putOp (o.fault 0 c))
    | .ok y => some ((s.logPois hdr (vget o.pois 0 0)).putOp { o with pa := vset (vset o.pa 1 y.pa) 2 1, pois := vset o.pois 1 y.pois })
  else if !s.mayAccess o pa 64 true || s.heldOff pa 64 (some s.me.id) then none
  else if vget o.pa 2 0 = 1 then
    match s.writeHome (pa + 8) ((o.scap.drop 1).map fun (w : Dword) => bytesLE 8 w.toNat).flatten pois s.me.asid with
    | none => some (s.putOp (o.fault 0 .poison))
    | some t => some (t.putOp { o with pa := vset o.pa 2 2 })
  else
    match s.writeHome pa (bytesLE 8 (packetFirst (o.scap.headD 0#64) k n s.me.asid)) pois s.me.asid with
    | none => some (s.putOp (o.fault 0 .poison))
    | some t =>
      let u := t.onStk t.me.stack fun q => { q with pubs := q.pubs ++ [(hdr, k, t.gr.grid)] }
      some (u.objectDone o [.s d.val o.cidx])

/-- One step of `cpkt`: the claim of an index with the read of LOGN, and what follows it (R273). -/
def State.serveCpkt (s : State) (o : Op) (d : SReg) : Option State :=
  let hdr := vget o.pa 0 0
  let pois := vget o.pois 0 0
  if o.faulted then none
  else if !o.sent then some (s.objectXl o true true 64)
  else if !s.mayAccess o hdr 64 (!o.clm) then none
  else match s.readHome hdr 64 pois with
    | none => some (s.putOp (o.fault 0 .poison))
    | some x => match o.claimLogn x with
      | none => some (s.putOp (o.fault 0 .range))
      | some n =>
        if o.clm && !o.slotNamed then some (s.putOp (s.nameSlot o n))
        else if o.clm then s.fillSlot o d hdr x n
        else if s.heldOff hdr 8 (some s.me.id) then none
        else
          let c := x % 2 ^ 64
          match (s.logPois hdr pois).writeHome hdr (bytesLE 8 (c + 1)) pois s.me.asid with
          | none => some (s.putOp (o.fault 0 .poison))
          | some t => some (t.putOp (t.nameSlot { o with clm := true, cidx := BitVec.ofNat 64 c } n))

/-- One step of `binit`, `bexp`, `barv` or `bobs` (R274, R275). They need WR for `binit`, RD for `bobs`, and RD and WR for the
others; `bwt` needs RD (DESIGN CHOICE, log entry 73). -/
def State.serveObject (s : State) (o : Op) : Option State :=
  let pa := vget o.pa 0 0
  let pois := vget o.pois 0 0
  let b := (o.scap.headD 0#64).toNat % 2 ^ 56
  let reads : Bool := o.instr matches .bobs ..
  let init : Bool := o.instr matches .binit ..
  if o.faulted then none
  else if !o.sent then some (s.objectXl o (!init) (!reads) 16)
  else if !s.mayAccess o pa 16 (!reads) || (!reads && s.heldOff pa 16 (some s.me.id)) then none
  else match o.instr with
    | .binit _ _ _ n _ => some (s.objectEnd o (s.objectInit pa b n.toNat pois s.me.asid))
    | .bexp _ arv _ _ _ _ => some (s.objectEnd o ((s.logPois pa pois).objectUpdate pa b 0 (if arv then 1 else 0) false pois s.me.asid))
    | .barv _ _ _ n _ => some (s.objectEnd o ((s.logPois pa pois).objectUpdate pa 0 0 n.toNat false pois s.me.asid))
    | .bobs _ w1 _ _ d _ _ => match s.readHome (if w1 then pa + 8 else pa) 8 pois with
      | none => some (s.putOp (o.fault 0 .poison))
      | some x => some ((s.logPois pa pois).objectDone o [.s d.val (BitVec.ofNat 64 x)])
    | _ => none

end Sys2Proof.Machine
end

