-- ==== Sys2Proof/Machine/CopyEngine.lean ====
section
/-! DEFINITION. Machine/CopyEngine.lean: the copy engines: ring service (R55, R56, R259, R260), packets (R261 to R266), loops
(R270), and copy faults (R462 to R465). -/

namespace Sys2Proof.Machine

/-! ### Ring headers (R54 to R56) -/

/-- The header address of a queue register. -/
def ringHdr (reg : Dword) : Nat := 64 * bitsOf reg.toNat 47 6
def ringEn (reg : Dword) : Bool := reg.getLsbD 0

/-- The header that a ring's consumer reads: LOGN, or none where the ring is refused. -/
def State.ringHeader (s : State) (hdr : Nat) : Option Nat :=
  if s.mem.poisoned hdr then none else ringLogn (s.mem.read hdr 64)

/-- A ring is refused: a type 13 record (R56, R479). -/
def State.ringRefused (s : State) (kind level stack hdr : Nat) : State :=
  s.report stack 13 0 0 0 255 0 9
    [BitVec.ofNat 8 kind, BitVec.ofNat 8 level, BitVec.ofNat 8 stack, BitVec.ofNat 8 (s.mem.read (hdr + 16) 1)]

/-- What the consumer finds at the slot of RIDX: not valid yet, poison, or the 64 bytes. -/
inductive Slot
  | notYet
  | poisoned (k : Nat)
  | packet (k : Nat) (x : Nat)
  deriving DecidableEq, Repr

def State.ringSlot (s : State) (hdr n : Nat) : Slot :=
  let k := s.mem.read (hdr + 8) 8
  let pa := hdr + slotOff k n
  if s.mem.poisoned pa then .poisoned k
  else
    let x := s.mem.read pa 64
    if x % 2 == k / 2 ^ n % 2 then .packet k x else .notYet

/-- The eight words of 64 bytes. -/
def wordsOf (x : Nat) : Vector Dword 8 := Vector.ofFn fun i : Fin 8 => BitVec.ofNat 64 (x / 2 ^ (64 * i.val))

/-- A write by an agent that is no split, at its home; tag as given (R202). On a line poisoned since its consumer accepted it the
bytes are written and the poison stays (R469 names no such write; DESIGN CHOICE, log entry 84). -/
def State.agentWrite (s : State) (pa : Nat) (bs : List Byte) (tag : Nat) : State :=
  { s.written pa bs.length with mem := s.mem.write pa bs tag }

/-- Whether such a write has to wait for a holdoff or the host. -/
def State.agentWaits (s : State) (pa n : Nat) : Bool := s.heldOff pa n none || s.hostWaits pa true

/-- RIDX advances, with owner tag 0. -/
def State.takeSlot (s : State) (hdr k : Nat) : State := s.agentWrite (hdr + 8) (bytesLE 8 (k + 1)) 0

/-! ### The fields of a packet (R261) -/

def jw (w : Vector Dword 8) (i : Nat) : Nat := (vget w i 0#64).toNat
def cOp (w : Vector Dword 8) : Nat := bitsOf (jw w 0) 3 1
def cSize (w : Vector Dword 8) : Nat := 2 ^ bitsOf (jw w 0) 5 4
def cTrn (w : Vector Dword 8) : Bool := (jw w 0).testBit 6
def cClip (w : Vector Dword 8) : Bool := (jw w 0).testBit 7
def cMcast (w : Vector Dword 8) : Nat := bitsOf (jw w 0) 15 8
def cAsid (w : Vector Dword 8) : Nat := bitsOf (jw w 0) 25 16
def cStages (w : Vector Dword 8) : Nat := bitsOf (jw w 0) 29 26 + 1
def cBar (w : Vector Dword 8) : Dword := vget w 7 0#64
def cX (w : Vector Dword 8) : Nat := bitsOf (jw w 3) 23 0
def cY (w : Vector Dword 8) : Nat := if cOp w = 0 then 1 else bitsOf (jw w 3) 43 24
def cN (w : Vector Dword 8) : Nat := bitsOf (jw w 3) 63 44
def cZ (w : Vector Dword 8) : Nat := if cOp w = 2 ∨ cOp w = 4 then cN w else 1
/-- Elements of the tile, and iterations of the packet (R262). -/
def cCount (w : Vector Dword 8) : Nat := cX w * cY w * cZ w
def cIters (w : Vector Dword 8) : Nat := if cOp w = 3 then cN w else 1
/-- The tiles of the multicast, or tile 8 for a packet without one. -/
def cTiles (w : Vector Dword 8) : List Nat := (List.range 8).filter fun c => (cMcast w).testBit c
/-- Bytes of a packet, or of a loop's iteration (R263, R265). -/
def cBytes (w : Vector Dword 8) : Nat := cCount w * cSize w * Nat.max 1 (cTiles w).length

/-- Coordinates of element `e`, x fastest. -/
def cAt (w : Vector Dword 8) (e : Nat) : Nat × Nat × Nat := (e % cX w, e / cX w % cY w, e / (cX w * cY w))

def cSrc (w : Vector Dword 8) (iter e : Nat) : Dword :=
  let p := cAt w e
  let plane := if cOp w = 3 then iter else p.2.2
  BitVec.ofNat 64 (jw w 1 + p.1 * cSize w + p.2.1 * bitsOf (jw w 4) 31 0 + plane * bitsOf (jw w 4) 63 32)

def cDst (w : Vector Dword 8) (iter e : Nat) : Dword :=
  let p := cAt w e
  let row := bitsOf (jw w 5) 31 0
  if cTrn w then BitVec.ofNat 64 (jw w 2 + p.2.1 * cSize w + p.1 * row)
  else
    let plane := if cOp w = 3 then iter % cStages w else p.2.2
    BitVec.ofNat 64 (jw w 2 + p.1 * cSize w + p.2.1 * row + plane * bitsOf (jw w 5) 63 32)

/-- Whether element `e` lies past the bounds (R263, R270). -/
def cClipped (w : Vector Dword 8) (iter e : Nat) : Bool :=
  let p := cAt w e
  let step := if cOp w = 3 then iter * bitsOf (jw w 0) 51 32 else 0
  let dim := (jw w 0).testBit 30
  let bx := bitsOf (jw w 6) 23 0 - (if dim then 0 else step)
  let byy := bitsOf (jw w 6) 43 24 - (if dim then step else 0)
  cClip w && (bx ≤ p.1 || (cOp w != 0 && byy ≤ p.2.1) || (cOp w == 2 && bitsOf (jw w 6) 63 44 ≤ p.2.2))

/-! ### Translation of the engine's accesses (R264) -/

/-- The copy engine translates through its stack's translation unit; it has no core's cache. -/
def State.xlEngine (s : State) (k asid : Nat) (rd wr : Bool) (align : Nat) (va : Dword) : Except TClass Xl :=
  xlate s k 8 asid ⟨rd, wr, false, false⟩ align va

/-- The checks of R462, in their order: the class of the first that fails, with the address concerned. BAR with bits [3:0] or
[63:57] set is ILLEGAL for its reserved bits before it is a misaligned address or one out of range (DESIGN CHOICE, log entry
85). -/
def State.packetCheck (s : State) (k : Nat) (w : Vector Dword 8) : Option (TClass × Dword) :=
  let op := cOp w
  let ill : Option (TClass × Dword) := some (.illegal, 0#64)
  let extents : List Nat := match op with
    | 0 => [cX w]
    | 1 => [cX w, cY w]
    | 2 | 3 | 4 => [cX w, cY w, cN w]
    | _ => []
  if 6 ≤ op then ill
  else if extents.contains 0 then ill
  else if bitsOf (jw w 0) 63 52 != 0 || (jw w 0).testBit 31 || bitsOf (jw w 7) 63 57 != 0 || bitsOf (jw w 7) 3 0 != 0 then ill
  else if cTrn w && (op != 1 || 2 < cSize w) then ill
  else if op == 4 && (cClip w || cTrn w) then ill
  else if (op == 3 || op == 5) && cBar w == 0#64 then ill
  else
    let bar : Option (TClass × Dword) :=
      if cBar w = 0#64 then none
      else match s.xlEngine k (cAsid w) true true 16 (cBar w) with
        | .error c => some (c, cBar w)
        | .ok _ => none
    match bar with
    | some x => some x
    | none =>
      if cMcast w = 0 ∨ op = 5 then none
      else match s.xlEngine k (cAsid w) false true 1 (vget w 2 0#64) with
        | .error c => some (c, vget w 2 0#64)
        | .ok x => if s.homedOn k x.pa && isVault x.pa then none else some (.home, vget w 2 0#64)

/-! ### Faults (R463 to R465) -/

def State.chan (s : State) (k l : Nat) : CopyChan := vget (s.stk k).chans l CopyChan.reset
def State.onChan (s : State) (k l : Nat) (f : CopyChan → CopyChan) : State :=
  s.onStk k fun t => { t with chans := vset t.chans l (f (vget t.chans l CopyChan.reset)) }
def State.putJob (s : State) (k l : Nat) (j : CopyJob) : State :=
  s.onChan k l fun c => { c with jobs := c.jobs.filterMap fun (i : CopyJob) =>
    if i.no = j.no then (if jobOver j then none else some j) else some i }

/-- The packet at RIDX is not read yet: the host may have modified the header or the slot (R360). -/
def State.ringWaits (s : State) (hdr n : Nat) : Bool :=
  s.hostWaits hdr false || s.hostWaits (hdr + slotOff (s.mem.read (hdr + 8) 8) n) false

/-- An access of the engine of stack `k` at the home of `pa`: it follows what the stack has sent there, and the data of a read
what the home has sent back (R12, R264, R486). A home in a power state is woken first (R371). The home meets the grid (R375). -/
def State.atHome (s : State) (k pa : Nat) (read : Bool) (grid : Option Nat) (f : Option State) : Option State :=
  let h := homeStack pa
  if s.pairWaits k h || read && s.pairWaits h k then none
  else if (s.stk h).pstate ≠ 0 then
    (if (s.stk h).waking then none else some (s.onStk h fun q => { q with waking := true }))
  else f.map fun (t : State) => (if read then t.trip k h else t.flitsPass k h).meets h grid

/-- A read of a job's engine in another module: it asks, and goes on with the answer once that has come (R264, R362). -/
def State.fetchFar (s : State) (k l : Nat) (j : CopyJob) (x : Xl) (n : Nat) (use : Option Nat → State) : Option State :=
  match j.ask with
  | .idle => some ((s.ship k (homeOf x.pa) (.fetch x.pa n x.pois j.no)).putJob k l { j with ask := .sent })
  | .sent => none
  | .got v => some (use v)

/-- The fault record of R465. -/
def State.copyFault (s : State) (k l : Nat) (grid : Option Nat) (w : Vector Dword 8) (idx done : Nat) (kind : Nat)
    (c : TClass) (va : Dword) (tile : Nat) : State :=
  let g := grid.getD 0
  s.report k 5 g 0 (cAsid w) 255 (tclassCode c) 8
    (bytesLE 8 va.toNat ++ bytesLE 8 idx ++ bytesLE 8 done ++ bytesLE 2 (s.locOf k) ++ bytesLE 1 l ++ bytesLE 1 (tclassCode c)
      ++ bytesLE 1 kind ++ bytesLE 1 tile ++ bytesLE 2 (cAsid w))

/-- The rows that a packet has touched in every burst (R201). -/
def sweptRows (lines : List Nat) : List Nat :=
  ((lines.map fun x => x / 32).eraseDups).filter fun r => (List.range 32).all fun i => lines.contains (32 * r + i)

/-- A job that has performed its last write and its last credit reports its swept rows, the fault that has ended it, and the
tile that its multicast missed (R201, R463, R464). -/
def State.jobWritten (s : State) (k l : Nat) (j : CopyJob) : State :=
  let t := (sweptRows j.swp).foldl (fun (u : State) r =>
    u.onStk (homeStack (2048 * r)) fun q => { q with swept := insertLine q.swept r }) s
  let u := match j.fault with
    | none => t
    | some (c, va) => t.copyFault k l j.grid j.words j.idx j.done 1 c va 0
  match j.tile with
  | none => u
  | some c => u.copyFault k l j.grid j.words j.idx j.done 2 .range (vget j.words 2 0#64) c

/-- A job after one of its steps. -/
def State.jobStep (s : State) (k l : Nat) (j : CopyJob) : State :=
  (if jobOver j then s.jobWritten k l j else s).putJob k l j

/-- The packet is ended by a fault; bursts on their way to another module are still performed. -/
def State.jobFault (s : State) (k l : Nat) (j : CopyJob) (c : TClass) (va : Dword) : State :=
  s.jobStep k l { j with
    begun := true, cur := none, left := [], ask := .idle, bufs := j.bufs.filter fun (b : CopyWrite) => b.sent, readsDone := true,
    fault := if j.fault.isSome then j.fault else some (c, va) }

/-! ### Updates of barrier objects (R266, R268, R270) -/

/-- An update for a job of the engine of stack `k`, sent to an object's home along the path from `src`. -/
def State.sendUpdate (s : State) (k src : Nat) (x : Xl) (added credited arrivals : Nat) (clip : Bool) (asid : Nat)
    (j : CopyJob) : State × CopyJob :=
  (s.ship src (homeOf x.pa) (.object x.pa added credited arrivals clip x.pois asid j.no (s.locOf k)), { j with credits := j.credits + 1 })

/-- The copy job with number `no`, with its stack and its level. -/
def State.jobPlace (s : State) (no : Nat) : Option (Nat × Nat × CopyJob) :=
  (List.range 16).findSome? fun k => (List.range 4).findSome? fun l =>
    ((s.chan k l).jobs.find? fun (j : CopyJob) => j.no == no).map fun j => (k, l, j)

/-- The virtual address of the object of a packet at `pa`. -/
def State.objectVa (s : State) (k pa : Nat) (j : CopyJob) : Dword :=
  (((List.range (2 * cStages j.words)).map fun i => cBar j.words + BitVec.ofNat 64 (16 * i)).find? fun va =>
    match s.xlEngine k (cAsid j.words) true true 16 va with
    | .ok x => x.pa == pa
    | .error _ => false).getD (cBar j.words)

/-- An update of a job has been performed at its home, or poison has refused it there: then the packet is ended (R266, R463,
R468). -/
def State.creditStep (s : State) (no pa credited : Nat) (bad : Bool) : State := match s.jobPlace no with
  | none => s
  | some (k, l, j) =>
    let i := creditGone j
    if bad then s.jobFault k l i .poison (s.objectVa k pa j) else s.jobStep k l { i with done := i.done + credited }

/-- BARRIER_OBJECT_UPDATE (R268): a credit, an expectation or a signal's arrival reaches the object's home; an engine in another
module learns of it by a packet. -/
def execBarrierObjectUpdate (src dst : Nat) (s : State) : Out := match s.head src dst with
  | some (.object pa added credited arrivals clip pois asid job eng, t) =>
    if t.updateWaits pa none then .next s
    else
      let r := (t.logPois pa pois).objectUpdate pa added credited arrivals clip pois asid
      let u := r.getD t
      .next (s.served dst (if eng / 16 = s.modno then
          (u.meets dst ((u.jobOf job).bind CopyJob.grid)).creditStep job pa credited r.isNone
        else u.ship dst eng (.jobDone job pa (some credited) r.isNone)))
  | _ => .next s

/-! ### Taking a packet (R260, R462) -/

/-- The queue register is read at a packet boundary (R56). -/
def State.rereadRing (s : State) (k l : Nat) : State :=
  let c := s.chan k l
  let hdr := ringHdr c.reg
  if !ringEn c.reg then s.onChan k l fun x => { x with served := false, rewritten := false }
  else match s.ringHeader hdr with
    | some n => s.onChan k l fun x => { x with served := true, rewritten := false, hdr := hdr, logn := n }
    | none =>
      (s.onChan k l fun x => { x with served := false, rewritten := false, reg := x.reg &&& ~~~1#64 }).ringRefused 1 l k hdr

/-- COPY_PACKET, where it can take place: the channel's register is read again, or the packet at RIDX is taken. The fault record of
a poisoned slot, whose packet cannot be read, has 0 in VA and ASID (R465; DESIGN CHOICE, log entry 86). -/
def State.copyPacketStep (s : State) (k l : Nat) : Option State :=
  let c := s.chan k l
  if c.jobs.any fun (j : CopyJob) => !j.readsDone then none
  else if c.rewritten then (if s.hostWaits (ringHdr c.reg) false then none else some (s.rereadRing k l))
  else if !c.served || s.ringWaits c.hdr c.logn || s.agentWaits (c.hdr + 8) 8 then none
  else
    let pub (i : Nat) : Option Nat := ((s.stk k).pubs.find? fun p => p.1 == c.hdr && p.2.1 == i).map fun p => p.2.2
    let unpub (t : State) (i : Nat) : State :=
      t.onStk k fun q => { q with pubs := q.pubs.filter fun p => !(p.1 == c.hdr && p.2.1 == i) }
    match s.ringSlot c.hdr c.logn with
    | .notYet => none
    | .poisoned i =>
      some ((unpub (s.takeSlot c.hdr i) i).copyFault k l (pub i) (Vector.replicate 8 0#64) i 0 0 .poison 0#64 0)
    | .packet i x =>
      let w := wordsOf x
      let t := unpub (s.takeSlot c.hdr i) i
      match s.packetCheck k w with
      | some (cls, va) => some (t.copyFault k l (pub i) w i 0 0 cls va 0)
      | none =>
        let sig : Bool := cOp w == 5
        let j : CopyJob :=
          { no := t.nextId, idx := i, words := w, grid := pub i, iter := 0, begun := !(sig || cOp w == 3), next := 0,
            seen := [], cur := none, left := [], readsDone := sig, bufs := [], credits := 0, done := 0, tile := none,
            swp := [], fault := none, ask := .idle }
        some ({ t with nextId := t.nextId + 1 }.onChan k l fun x => { x with jobs := x.jobs ++ [j] })

def execCopyPacket (stack : Fin 16) (level : Fin 4) (s : State) : Out :=
  .next ((s.copyPacketStep stack.val level.val).getD s)

/-! ### Signals (R266) -/

/-- SIGNAL_PACKET: every earlier packet of the ring is over, and the arrival is sent. -/
def State.signalStep (s : State) (k l : Nat) : Option State := match (s.chan k l).jobs with
  | [] => none
  | j :: _ =>
    if cOp j.words ≠ 5 ∨ j.begun = true then none
    else match s.xlEngine k (cAsid j.words) true true 16 (cBar j.words) with
      | .error c => some (s.jobFault k l j c (cBar j.words))
      | .ok x =>
        let r := s.sendUpdate k k x 0 0 1 false (cAsid j.words) { j with begun := true }
        some (r.1.putJob k l r.2)

def execSignalPacket (stack : Fin 16) (level : Fin 4) (s : State) : Out :=
  .next ((s.signalStep stack.val level.val).getD s)

/-! ### Loops (R270) -/

/-- The object of an iteration's stage: full, or empty. -/
def stageObject (w : Vector Dword 8) (iter : Nat) (empty : Bool) : Dword :=
  cBar w + BitVec.ofNat 64 (16 * (iter % cStages w + if empty then cStages w else 0))

/-- The awaited phase of a stage's empty object. -/
def stagePhase (w : Vector Dword 8) (iter : Nat) : Bool := iter / cStages w % 2 == 1

/-- LOOP_ITERATION: the stage has been consumed, and its bytes are expected on its full object. -/
def State.loopStep (s : State) (k l : Nat) : Option State :=
  match (s.chan k l).jobs.find? fun (j : CopyJob) => cOp j.words == 3 && !j.begun with
  | none => none
  | some j =>
    let w := j.words
    let expect (t : State) : State :=
      let f := stageObject w j.iter false
      match t.xlEngine k (cAsid w) true true 16 f with
      | .error c => t.jobFault k l j c f
      | .ok x =>
        let r := t.sendUpdate k k x (cBytes w) 0 0 false (cAsid w) { j with begun := true, next := 0, seen := [], ask := .idle }
        r.1.putJob k l r.2
    if j.iter < cStages w then some (expect s)
    else
      let e := stageObject w j.iter true
      match s.xlEngine k (cAsid w) true false 16 e with
      | .error c => some (s.jobFault k l j c e)
      | .ok x =>
        let q := stagePhase w j.iter
        if homeModule x.pa ≠ s.modno then s.fetchFar k l j x 8 fun v => match v with
          | none => s.jobFault k l j .poison e
          | some v => if v.testBit 63 == q then expect s else s.putJob k l { j with ask := .idle }
        else s.atHome k x.pa true j.grid (
          if s.hostWaits x.pa false then none
          else match s.readHome x.pa 8 x.pois with
            | none => some (s.jobFault k l j .poison e)
            | some v => if v.testBit 63 == q then some (expect (s.logPois x.pa x.pois)) else none)

def execLoopIteration (stack : Fin 16) (level : Fin 4) (s : State) : Out :=
  .next ((s.loopStep stack.val level.val).getD s)

/-! ### Bursts (R263) -/

/-- The first element from `e` on whose destination line has not been gathered. -/
def nextElement (w : Vector Dword 8) (iter : Nat) (seen : List Nat) (e : Nat) : Nat → Option Nat
  | 0 => none
  | n + 1 => if seen.contains ((cDst w iter e).toNat / 64) then nextElement w iter seen (e + 1) n else some e

/-- The object that bursts of the job's current iteration credit, or 0. -/
def jobObject (j : CopyJob) : Dword := if cOp j.words = 3 then stageObject j.words j.iter false else cBar j.words

/-- The gathered burst, once for each tile of a multicast (R265). -/
def castWrites (w : Vector Dword 8) (b : CopyWrite) : List CopyWrite :=
  if cMcast w = 0 then [b]
  else (cTiles w).map fun c => { b with pa := putBits b.pa 27 25 c }

/-- The iteration has issued its last read: the next one begins, or the packet's reading ends. -/
def jobTurn (j : CopyJob) : CopyJob :=
  if j.iter + 1 < cIters j.words then { j with iter := j.iter + 1, begun := false, next := 0, seen := [] }
  else { j with readsDone := true }

/-- The next destination line begins to be gathered. -/
def State.startLine (s : State) (k l : Nat) (j : CopyJob) : State :=
  let w := j.words
  match nextElement w j.iter j.seen j.next (cCount w - j.next) with
  | none => s.jobStep k l (jobTurn j)
  | some e =>
    let d := cDst w j.iter e
    match s.xlEngine k (cAsid w) false true (cSize w) d with
    | .error c => s.jobFault k l j c d
    | .ok x =>
      if cMcast w ≠ 0 ∧ (s.homedOn k x.pa && isVault x.pa) = false then s.jobFault k l j .home d
      else
        let line := d.toNat / 64
        let es := ((List.range (cCount w)).filter fun i => (cDst w j.iter i).toNat / 64 == line)
        s.putJob k l { j with
          next := e, seen := line :: j.seen, left := es,
          cur := some { pa := 64 * lineOf x.pa, pois := x.pois, bytes := [], clip := false, va := d, obj := jobObject j,
                        swp := x.swp && isDram x.pa, sent := false } }

/-- Bytes put among the gathered ones; a later element of the packet replaces an earlier one's
(R263; DESIGN CHOICE, log entry 72). -/
def gather (bs : List (Nat × Byte)) (off : Nat) (new : List Byte) : List (Nat × Byte) :=
  bs.filter (fun b => !(off ≤ b.1 && b.1 < off + new.length)) ++ new.mapIdx fun i b => (off + i, b)

/-- One element of the line is moved into its burst (R263, R463). -/
def State.moveElement (s : State) (k l : Nat) (j : CopyJob) (b : CopyWrite) (e : Nat) (rest : List Nat) : Option State :=
  let w := j.words
  let sz := cSize w
  let d := cDst w j.iter e
  let src := cSrc w j.iter e
  let put (t : State) (x : Nat) (clip : Bool) (swp : List Nat) : State :=
    let b1 := { b with bytes := gather b.bytes (d.toNat % 64) (bytesLE sz x), clip := b.clip || clip }
    let j1 := { j with left := rest, swp := swp ++ j.swp, ask := .idle }
    if rest.isEmpty then t.putJob k l { j1 with cur := none, bufs := j.bufs ++ castWrites w b1 }
    else t.putJob k l { j1 with cur := some b1 }
  if d.toNat % sz ≠ 0 then some (s.jobFault k l j .align d)
  else if cOp w = 4 then some (put s (jw w 1) false [])
  else if cClipped w j.iter e then some (put s 0 true [])
  else match s.xlEngine k (cAsid w) true false sz src with
    | .error c => some (s.jobFault k l j c src)
    | .ok x =>
      if homeModule x.pa ≠ s.modno then s.fetchFar k l j x sz fun v => match v with
        | none => s.jobFault k l j .poison src
        | some v => put s v false []
      else s.atHome k x.pa true j.grid (
        if s.hostWaits x.pa false then none
        else match s.readHome x.pa sz x.pois with
          | none => some (s.jobFault k l j .poison src)
          | some v => some (put (s.logPois x.pa x.pois) v false (if x.swp && isDram x.pa then [lineOf x.pa] else [])))

/-- Bytes of one line written with a mask, at their home: none where poison refuses them (R193, R469). -/
def State.writeMasked (s : State) (line : Nat) (bs : List (Nat × Byte)) (pois tag : Nat) : Option State :=
  let full : Bool := 64 ≤ bs.length
  if s.mem.poisoned (64 * line) && !full && pois != 1 then none
  else
    let m0 := if s.mem.poisoned (64 * line) then (s.mem.writeBytes (64 * line) (zeros 64)).clearPoison line else s.mem
    let m := bs.foldl (fun (m : Memory) b => m.setByte (64 * line + b.1) b.2) m0
    let t := bs.foldl (fun (u : State) b => u.written (64 * line + b.1) 1) s
    some { t with mem := m.tagLines (64 * line) 1 tag }

/-- Whether the burst's tile lies in a vault range of a team of the address space (R265, R464). -/
def State.castInRange (s : State) (k asid pa : Nat) : Bool :=
  s.teams.any fun t => t.base == k && t.st != .ended && t.vaultPa ≤ pa && pa < t.vaultPa + t.vaultLen
    && (s.grid? t.grid).any fun (g : Grid) => g.asid == asid

/-- The object that a burst credits, translated: none where the packet has none. -/
def State.creditXl (s : State) (k : Nat) (j : CopyJob) (b : CopyWrite) : Except TClass (Option Xl) :=
  if b.obj = 0#64 then .ok none else (s.xlEngine k (cAsid j.words) true true 16 b.obj).map some

/-- A burst has been written: its bytes are credited from its home, where the packet has an object (R266); another module's home
has sent that credit itself. -/
def State.burstWritten (s : State) (k l : Nat) (j : CopyJob) (b : CopyWrite) (object : Option Xl) : State :=
  let n := b.bytes.length
  let j1 := { j with bufs := j.bufs.erase b, swp := if b.swp then lineOf b.pa :: j.swp else j.swp }
  if b.obj = 0#64 then s.jobStep k l { j1 with done := j.done + n }
  else match object with
    | none => s.jobStep k l j1
    | some x =>
      let r := s.sendUpdate k (homeStack b.pa) x 0 n 0 b.clip (cAsid j.words) j1
      r.1.jobStep k l r.2

/-- Whether the writes of a burst have to wait at their home: for a holdoff or for the host. -/
def State.burstWaits (s : State) (pa : Nat) (bytes : List (Nat × Byte)) : Bool :=
  (bytes.any fun x => s.heldOff (pa + x.1) 1 none) || s.hostWaits pa true

/-- A gathered burst is performed at its home and credited, or leaves for a home in another module (R263, R264, R266). An
object that does not translate ends the packet before the burst is written. -/
def State.performBurst (s : State) (k l : Nat) (j : CopyJob) (b : CopyWrite) : Option State :=
  let w := j.words
  let asid := cAsid w
  let j1 := { j with bufs := j.bufs.erase b }
  if cMcast w ≠ 0 ∧ s.castInRange k asid b.pa = false then
    let c := tileOfPa b.pa
    some (s.jobStep k l { j1 with tile := some ((j.tile.map (Nat.min c)).getD c) })
  else match s.creditXl k j b with
    | .error c => some (s.jobFault k l j1 c b.obj)
    | .ok object =>
      if homeModule b.pa = s.modno then s.atHome k b.pa false j.grid (
        if s.burstWaits b.pa b.bytes then none
        else match s.writeMasked (lineOf b.pa) b.bytes b.pois asid with
          | none => some (s.jobFault k l j1 .poison b.va)
          | some t => some (t.burstWritten k l j b object))
      else
        let sent : CopyWrite → CopyWrite := fun x => if x = b then { b with sent := true } else x
        let credit := object.map fun (x : Xl) => (x.pa, x.pois, b.clip)
        some ((s.ship k (homeOf b.pa) (.burst b.pa b.bytes b.pois asid j.no credit)).putJob k l { j with
          bufs := j.bufs.map sent, credits := if object.isSome then j.credits + 1 else j.credits })

/-- The answer to a burst that another module's home has performed, or refused for poison. -/
def State.burstAnswered (s : State) (no pa : Nat) (failed : Bool) : State := match s.jobPlace no with
  | none => s
  | some (k, l, j) => match j.bufs.find? fun (b : CopyWrite) => b.sent && b.pa == pa with
    | none => s
    | some b => if failed then s.jobFault k l (burstGone pa j) .poison b.va else s.burstWritten k l j b none

/-- COPY_BURST, where it can take place: a line begins, an element is moved, or a gathered burst is performed. Which bursts
precede a later read is the engine's choice (R463, log entry 2). A job with nothing left to do is over. -/
def State.copyBurstStep (s : State) (k l no : Nat) : Option State :=
  match (s.chan k l).jobs.find? fun (j : CopyJob) => j.no == no with
  | none => none
  | some j =>
    let reads : Bool := j.begun && !j.readsDone
    let read : Option State := match j.cur, j.left with
      | some b, e :: rest => s.moveElement k l j b e rest
      | _, _ => some (s.startLine k l j)
    let bufs := j.bufs.filter fun (b : CopyWrite) => !b.sent
    match bufs with
    | [] => if jobOver j then some (s.jobStep k l j) else if reads then read else none
    | b0 :: _ =>
      let n := Config.freeNat s.fresh
      match s.draw.performBurst k l j (bufs.getD (n / 2 % bufs.length) b0) with
      | some t => if reads && n % 2 == 1 then some (read.getD t) else some t
      | none => if reads then read else none

def execCopyBurst (stack : Fin 16) (level : Fin 4) (pkt : Nat) (s : State) : Out :=
  .next ((s.copyBurstStep stack.val level.val pkt).getD s)

end Sys2Proof.Machine
end

