-- ==== Sys2Proof/Machine/Launch.lean ====
section
/-! DEFINITION. Machine/Launch.lean: the launcher: rings and launch packets (R53 to R61, R481), dependences (R59), placement
(R62 to R65, R385, R449, R482), the end of teams (R139), and completion records and reports (R60, R233, R361, R366 to R368,
R483). -/

namespace Sys2Proof.Machine

/-! ### The launcher's accesses (R58) -/

/-- A translation of the launcher, on stack 0. -/
def State.xlLaunch (s : State) (asid : Nat) (rd wr : Bool) (align : Nat) (va : Dword) : Except TClass Xl :=
  xlate s 0 8 asid ⟨rd, wr, false, false⟩ align va

/-- `n` quads from `va` on, translated for read, each with its poison policy; none where one does not translate. -/
def State.quadsAt (s : State) (asid : Nat) (va : Dword) : Nat → Option (List (Nat × Nat))
  | 0 => some []
  | n + 1 => match s.xlLaunch asid true false 8 va, s.quadsAt asid (va + 8#64) n with
    | .ok x, some l => some ((x.pa, x.pois) :: l)
    | _, _ => none

/-- A quad as the launcher reads it, the `i`-th free value standing for one of another module; none where poison refuses it. -/
def State.quadVal (s : State) (i : Nat) (x : Nat × Nat) : Option Nat :=
  if homeModule x.1 ≠ s.modno then some (Config.freeDword (s.fresh + i)).toNat else s.readHome x.1 8 x.2

/-- The values of quads; none where poison refuses one. -/
def State.quadVals (s : State) (xs : List (Nat × Nat)) : Option (List Nat) :=
  (xs.mapIdx fun i x => s.quadVal i x).foldr (fun v r => match v, r with
    | some a, some l => some (a :: l)
    | _, _ => none) (some [])

/-- Whether a read of quads waits: for the host (R360), or on the paths between stack 0 and their homes (R12). -/
def State.quadsWait (s : State) (xs : Option (List (Nat × Nat))) : Bool := (xs.getD []).any fun x =>
  homeModule x.1 == s.modno && (s.hostWaits x.1 false || s.tripWaits 0 (homeStack x.1))

/-- Quads have been read: poisoned lines taken as zeros are logged (R187), and the links on their paths have passed flits (R486). -/
def State.quadsRead (s : State) (xs : Option (List (Nat × Nat))) : State :=
  ((xs.getD []).filter fun x => homeModule x.1 == s.modno).foldl
    (fun (t : State) x => (t.logPois x.1 x.2).trip 0 (homeStack x.1)) s

/-! ### Launch packets (R57) -/

def lAsid (w : Vector Dword 8) : Nat := bitsOf (jw w 0) 57 48
def lLanes (w : Vector Dword 8) : Nat := bitsOf (jw w 0) 45 40
def lAcc (w : Vector Dword 8) : Nat := bitsOf (jw w 0) 36 32
def lFrame (w : Vector Dword 8) : Nat := bitsOf (jw w 0) 29 24 + 1
def lGroups (w : Vector Dword 8) : Nat := bitsOf (jw w 0) 20 16 + 1
def lNdep (w : Vector Dword 8) : Nat := bitsOf (jw w 0) 8 6
def lPrio (w : Vector Dword 8) : Nat := bitsOf (jw w 0) 5 4
def lChk (w : Vector Dword 8) : Bool := (jw w 0).testBit 2
def lRed (w : Vector Dword 8) : Bool := (jw w 0).testBit 1
def lKaddr (w : Vector Dword 8) : Nat := jw w 1
def lGx (w : Vector Dword 8) : Nat := bitsOf (jw w 2) 23 0
def lGy (w : Vector Dword 8) : Nat := bitsOf (jw w 2) 43 24
def lGz (w : Vector Dword 8) : Nat := bitsOf (jw w 2) 63 44
def lTeams (w : Vector Dword 8) : Nat := lGx w * lGy w * lGz w
def lPlace (w : Vector Dword 8) : Nat := bitsOf (jw w 3) 49 48
/-- The stacks of SMASK, all of them for 0. -/
def lSmask (w : Vector Dword 8) : BitVec 16 :=
  let m := BitVec.ofNat 16 (bitsOf (jw w 3) 47 32)
  if m = 0#16 then BitVec.allOnes 16 else m
/-- The vault range of a team: VAULT + 256 bytes rounded up to 64 KiB (R63). -/
def lVault (w : Vector Dword 8) : Nat := 65536 * ceilDiv (bitsOf (jw w 3) 31 0 + 256) 65536
def lPgt (w : Vector Dword 8) : Dword := vget w 5 0#64
def lDeps (w : Vector Dword 8) : Dword := vget w 6 0#64
def lCrec (w : Vector Dword 8) : Dword := vget w 7 0#64

/-- Reserved fields of CTRL and RES set. -/
def lReserved (w : Vector Dword 8) : Bool :=
  let c := jw w 0
  bitsOf c 63 58 != 0 || bitsOf c 47 46 != 0 || bitsOf c 39 37 != 0 || bitsOf c 31 30 != 0 || bitsOf c 23 21 != 0
    || bitsOf c 15 9 != 0 || c.testBit 3 || bitsOf (jw w 3) 63 50 != 0

/-! ### Process-group tables (R365, R367) -/

/-- A table as read: its header, whether a reserved bit is set, and module, first team and count of each rank. -/
structure Pgt where
  nmod : Nat
  gridId : Nat
  reserved : Bool
  rows : List (Nat × Nat × Nat)
  deriving DecidableEq, Repr

/-- The quads of the table, with its first 64 rows; only its header where NMOD is out of range and they cannot be read. -/
def State.pgtQuads (s : State) (w : Vector Dword 8) : Option (List (Nat × Nat)) :=
  match s.quadsAt (lAsid w) (lPgt w) 8 with
  | none => none
  | some hd => match s.quadVals hd with
    | none => none
    | some v =>
      let n := v.headD 0 % 2 ^ 32
      let rows := s.quadsAt (lAsid w) (lPgt w) (8 + 4 * Nat.min n 64)
      if 64 < n && ((rows.bind s.quadVals).isNone) then some hd else rows

def pgtOf (v : List Nat) : Pgt :=
  let n := v.headD 0 % 2 ^ 32
  let rows := (List.range ((v.length - 8) / 4)).map fun r =>
    (v.getD (8 + 4 * r) 0, v.getD (9 + 4 * r) 0, v.getD (10 + 4 * r) 0)
  { nmod := n, gridId := v.headD 0 / 2 ^ 32,
    reserved := ((v.take 8).drop 1).any (fun x => x != 0) || rows.any fun r => bitsOf r.1 31 8 != 0,
    rows := rows.map fun r => (r.1 % 256, r.2) }

/-- The table that the packet names: none where it cannot be read. -/
def State.readPgt (s : State) (w : Vector Dword 8) : Option Pgt :=
  ((s.pgtQuads w).bind s.quadVals).map pgtOf

/-- The ranks that name this module. -/
def State.ownRanks (s : State) (p : Pgt) : List Nat :=
  (List.range p.rows.length).filter fun r => (p.rows.getD r (0, 0, 0)).1 == s.modno

/-- A grid identifier is in use: until the completion record of its grid, or of its refused packet, is written or refused (R61,
R483). -/
def State.gridUsed (s : State) (n : Nat) : Bool :=
  (s.grid? n).isSome || (s.md.refused.any fun (r : Refused) => r.name == n) || s.md.recordsOut.any fun x => x.2.1 == n

def State.gridIdFree (s : State) (p : Pgt) : Bool := p.gridId.testBit 31 && !s.gridUsed p.gridId

/-- The checks of R367 that come before the grid identifier, that of the identifier, and that of the share. -/
def State.pgtRankOk (s : State) (p : Pgt) : Bool := 1 ≤ p.nmod && p.nmod ≤ 64 && (s.ownRanks p).length == 1
def State.pgtShareOk (s : State) (p : Pgt) (teams : Nat) : Bool :=
  let r := p.rows.getD ((s.ownRanks p).headD 0) (0, 0, 0)
  r.2.1 + r.2.2 ≤ teams

/-! ### Grid identifiers (R61) -/

def wrapGrid (n : Nat) : Nat := if 2 ^ 31 ≤ n then n - (2 ^ 31 - 1) else n
/-- The next identifier that is not in use. -/
def State.nextGrid (s : State) : Nat :=
  (((List.range (s.grids.length + s.md.refused.length + s.md.recordsOut.length + 1)).map fun i =>
    wrapGrid (s.md.gridCount + i)).find? fun n => !s.gridUsed n).getD s.md.gridCount

/-! ### Completion records (R60, R361, R483) -/

def recordBytes (gid : Nat) (aborted : Bool) (energy : Nat) : List Byte :=
  bytesLE 8 (if aborted then 3 else 1) ++ bytesLE 8 energy ++ bytesLE 4 gid ++ zeros 12

/-- `t`, once the write of the record can be attempted: it follows what stack 0 has sent to its home, and waits for a holdoff or
the host. -/
def State.recordStep (s : State) (asid : Nat) (crec : Dword) (t : State) : Option State :=
  if crec = 0#64 then some t
  else match s.xlLaunch asid false true 32 crec with
    | .error _ => some t
    | .ok x =>
      if homeModule x.pa ≠ s.modno then some t
      else s.atHome 0 x.pa false none (if s.heldOff x.pa 32 none || s.hostWaits x.pa true then none else some t)

/-- The mirror of a record, where CPLNOTE asks for one and the host can take it (R361, R489). -/
def State.mirrorRecord (s : State) (gid : Nat) (bs : List Byte) : State :=
  if s.md.cplnote.getLsbD 0 && s.md.cxlUp then
    { s with md := { s.md with mirror :=
        (4096 * bitsOf s.md.cplnote.toNat 51 12 + 64 * (gid % 64), bs ++ zeros 32) :: s.md.mirror } }
  else s

/-- A completion record that cannot be written: a type 12 record (R483). -/
def State.recordFails (s : State) (gid asid : Nat) (crec : Dword) (c : TClass) : State :=
  s.report 0 12 gid 0 asid 255 0 9 (bytesLE 8 crec.toNat ++ [BitVec.ofNat 8 (tclassCode c)])

/-- The record of a grid is attempted; a type 12 record follows where it cannot be written. One for a home in another module
travels there, and is mirrored once its answer has come (R361, R483). -/
def State.writeRecord (s : State) (gid asid : Nat) (crec : Dword) (aborted : Bool) (energy : Nat) : State :=
  let bs := recordBytes gid aborted energy
  if crec = 0#64 then s
  else match s.xlLaunch asid false true 32 crec with
    | .error c => s.recordFails gid asid crec c
    | .ok x =>
      if homeModule x.pa ≠ s.modno then
        let no := s.nextId
        let t := { s with nextId := no + 1, md := { s.md with recordsOut := s.md.recordsOut ++ [(no, gid, asid, crec, bs)] } }
        t.ship 0 (homeOf x.pa) (.burst (64 * lineOf x.pa) (bs.mapIdx fun i b => (x.pa % 64 + i, b)) x.pois asid no none)
      else match s.writeHome x.pa bs x.pois asid with
        | none => s.recordFails gid asid crec .poison
        | some t => t.mirrorRecord gid bs

/-- The answer to a record that has travelled to another module. -/
def State.recordAnswered (s : State) (no : Nat) (failed : Bool) : State :=
  match s.md.recordsOut.find? fun x => x.1 == no with
  | none => s
  | some (_, gid, asid, crec, bs) =>
    let t := { s with md := { s.md with recordsOut := s.md.recordsOut.filter fun x => x.1 != no } }
    if failed then t.recordFails gid asid crec .poison else t.mirrorRecord gid bs

/-! ### The checks of a packet (R481) -/

/-- How many groups a core can hold with everything in service free (R63, R449). -/
def coreHolds (svc : Dword) (c acc : Nat) (red : Bool) : Nat :=
  if coreServed svc c then
    let slots := if red then 8 else 16
    if acc = 0 then slots else Nat.min slots (tilesServed svc c / (if red then 2 * acc else acc))
  else 0

/-- Whether some stack of SMASK could hold a team. -/
def State.couldHold (s : State) (w : Vector Dword 8) : Bool :=
  (List.range 16).any fun k => (lSmask w).getLsbD k
    && lGroups w ≤ ((List.range 8).map fun c => coreHolds (s.stk k).svc c (lAcc w) (lRed w)).sum

/-- The dependence list as quads, and its objects. -/
def State.depQuads (s : State) (w : Vector Dword 8) : Option (List (Nat × Nat)) := s.quadsAt (lAsid w) (lDeps w) (lNdep w)
def depObject (q : Nat) : Dword := BitVec.ofNat 64 (16 * bitsOf q 56 4)
def depReserved (q : Nat) : Bool := bitsOf q 3 1 != 0 || bitsOf q 63 57 != 0
/-- The objects of the list, each translated; none where one does not translate. -/
def State.depObjects (s : State) (w : Vector Dword 8) (qs : List Nat) : Option (List (Nat × Nat)) :=
  qs.foldr (fun q r => match s.xlLaunch (lAsid w) true false 16 (depObject q), r with
    | .ok x, some l => some ((x.pa, x.pois) :: l)
    | _, _ => none) (some [])

/-- The objects that the list names, where it can be read. -/
def State.depReads (s : State) (w : Vector Dword 8) : Option (List (Nat × Nat)) :=
  ((s.depQuads w).bind s.quadVals).bind fun qs => s.depObjects w qs

/-- The check of reason 5 on the dependence list. -/
def State.depsOk (s : State) (w : Vector Dword 8) : Bool := match (s.depQuads w).bind s.quadVals with
  | none => false
  | some qs => !qs.any depReserved && ((s.depObjects w qs).bind s.quadVals).isSome

/-- The reason for which a packet is refused, 0 for none: the lowest that applies. -/
def State.refusal (s : State) (w : Vector Dword 8) (p : Option Pgt) : Nat :=
  let named : Bool := lPgt w != 0#64
  let crecOk : Bool := lCrec w == 0#64 || match s.xlLaunch (lAsid w) false true 32 (lCrec w) with
    | .ok _ => true
    | .error _ => false
  if lReserved w || 2 ≤ lPlace w || 4 < lNdep w then 1
  else if 2 ^ 54 ≤ lKaddr w || lKaddr w % 4 != 0 then 2
  else if lTeams w = 0 ∨ 2 ^ 32 < lTeams w ∨ 16 < lAcc w ∨ 31 < lLanes w then 3
  else if (lCrec w).toNat % 32 ≠ 0 ∨ lNdep w ≠ 0 ∧ (lDeps w).toNat % 8 ≠ 0 then 4
  else if lNdep w ≠ 0 ∧ s.depsOk w = false then 5
  else if named && (p.isNone || p.any fun (x : Pgt) => x.reserved) then 5
  else if !crecOk then 5
  else if 2 ^ 25 < lVault w || !s.couldHold w then 6
  else if named && !(p.any fun (x : Pgt) => s.pgtRankOk x && s.gridIdFree x && s.pgtShareOk x (lTeams w)) then 7
  else 0

/-- The lines that the checks read wait for the host. -/
def State.checksWait (s : State) (w : Vector Dword 8) : Bool :=
  s.quadsWait (s.pgtQuads w) || s.quadsWait (s.depQuads w) || s.quadsWait (s.depReads w)

/-- They have been read. -/
def State.checksRead (s : State) (w : Vector Dword 8) : State :=
  ((s.quadsRead (if lPgt w = 0#64 then none else s.pgtQuads w)).quadsRead (s.depQuads w)).quadsRead (s.depReads w)

/-! ### LAUNCH_PACKET -/

def State.ring (s : State) (l : Nat) : Ring := vget s.md.rings l Ring.reset
def State.onRing (s : State) (l : Nat) (f : Ring → Ring) : State :=
  { s with md := { s.md with rings := vset s.md.rings l (f (s.ring l)) } }

/-- The grid of the ring's current packet: it has teams to place, and its grid is not aborted (R62, R484). -/
def State.current (s : State) (l : Nat) : Option Grid :=
  ((s.ring l).current.bind s.grid?).filter fun (g : Grid) => !g.aborted && g.next < g.last

/-- The queue register is read at a packet boundary (R56). -/
def State.rereadLaunch (s : State) (l : Nat) : State :=
  let hdr := ringHdr (s.ring l).reg
  if !ringEn (s.ring l).reg then s.onRing l fun x => { x with served := false, rewritten := false }
  else match s.ringHeader hdr with
    | some n => s.onRing l fun x => { x with served := true, rewritten := false, hdr := hdr, logn := n }
    | none =>
      (s.onRing l fun x => { x with served := false, rewritten := false, reg := x.reg &&& ~~~1#64 }).ringRefused 0 l 0 hdr

/-- A grid as its packet gives it. -/
def newGrid (w : Vector Dword 8) (l gid first last : Nat) (deps : List (Dword × Bool × Bool)) (ranks rank : Nat)
    (mods : List Nat) : Grid :=
  { id := gid, level := l, asid := lAsid w, prio := lPrio w, chktok := lChk w, red := lRed w, lanes := lLanes w + 1,
    acc := lAcc w, frame := lFrame w, groups := lGroups w, kaddr := vget w 1 0#64, args := vget w 4 0#64, crec := lCrec w,
    place := lPlace w, smask := lSmask w, vault := lVault w, first := first, last := last, next := first, gx := lGx w,
    gy := lGy w, gz := lGz w, deps := deps, ranks := ranks, rank := rank, rankMods := mods, reported := [],
    st := if deps.isEmpty then .placing else .waiting, preq := false, aborted := false, energy := 0, rankAborted := false,
    stuck := false }

/-- A report of rank `rank` reaches this module's grid, or its refused packet; one that comes before its packet is kept (R367,
R368). That of a module that is the MOD of no rank only says that the grid is aborted. -/
def State.reportIn (s : State) (grid rank : Nat) (aborted : Bool) (energy : Nat) : State :=
  let takes (g : Grid) : Bool := g.id == grid && g.rank == 0 && 0 < rank && rank < g.ranks && !g.reported.contains rank
  let asks (r : Refused) : Bool := r.id == grid && 0 < rank && rank < r.ranks && !r.reported.contains rank
  let stray (g : Grid) : Bool := g.id == grid && g.rank == 0 && g.ranks ≤ rank
  if s.grids.any stray then s.onGrid grid fun g => { g with rankAborted := g.rankAborted || aborted }
  else if s.grids.any takes then
    s.onGrid grid fun g => { g with
      reported := rank :: g.reported, rankAborted := g.rankAborted || aborted, energy := (g.energy + energy) % 2 ^ 64 }
  else match s.md.refused.find? asks with
    | some r => { s with md := { s.md with
        refused := s.md.refused.map fun x => if x = r then { r with reported := rank :: r.reported } else x } }
    | none =>
      if s.md.early.any fun e => e.1 == grid && e.2.1 == rank then s
      else { s with md := { s.md with early := s.md.early ++ [(grid, rank, aborted, energy)] } }

/-- The reports that came before the packet of a table's GRIDID. -/
def State.earlyIn (s : State) (grid : Nat) : State :=
  (s.md.early.filter fun e => e.1 == grid).foldl (fun (t : State) e => t.reportIn e.1 e.2.1 e.2.2.1 e.2.2.2)
    { s with md := { s.md with early := s.md.early.filter fun e => e.1 != grid } }

/-- A refused packet (R367, R481): its type 10 record, and a completion record, which at rank 0 of a table waits for the reports
of the others; the others report to the module of rank 0, for every rank that names them, and under rank 255 where none
does (DESIGN CHOICE, log entry 87). -/
def State.refuse (s : State) (l idx reason : Nat) (w : Vector Dword 8) (gid : Nat) (p : Option Pgt) : State :=
  let t := s.report 0 10 gid 0 (lAsid w) 255 0 9
    ([BitVec.ofNat 8 l, BitVec.ofNat 8 reason] ++ zeros 6 ++ bytesLE 8 idx)
  let crec := if (lCrec w).toNat % 32 = 0 then lCrec w else 0#64
  let own := (p.map s.ownRanks).getD []
  let waits (id ranks : Nat) (told : List Nat) : State :=
    { t with md := { t.md with refused := t.md.refused ++ [⟨id, gid, lAsid w, crec, ranks, told⟩] } }
  match p with
  | none => waits gid 1 []
  | some x => match x.rows with
    | [] => waits gid 1 []
    | r0 :: _ =>
      if r0.1 = s.modno then (waits x.gridId (Nat.min x.nmod 64) (own.filter (· != 0))).earlyIn x.gridId
      else (if own.isEmpty then [255] else own).foldl
        (fun (u : State) r => u.send 0 (u.nameOf (16 * r0.1)) (.complete x.gridId r true 0)) t

/-- A packet becomes current: it receives its identifier, and is checked. -/
def State.takeLaunch (s : State) (l idx : Nat) (w : Vector Dword 8) (bad : Bool) : State :=
  let named : Bool := !bad && lPgt w != 0#64
  let p := if named then s.readPgt w else none
  let reason := if bad then 5 else s.refusal w p
  let t := { s with
    fresh := s.fresh + 512, md := if named then s.md else { s.md with gridCount := wrapGrid (s.nextGrid + 1) } }
  let gid :=
    if !named then s.nextGrid
    else match p with
      | none => 0
      | some x =>
        if reason = 5 ∨ reason = 7 ∧ (s.pgtRankOk x && s.gridIdFree x) = false ∨ s.gridIdFree x = false then 0 else x.gridId
  if reason ≠ 0 then t.refuse l idx reason w gid p
  else
    let qs := if lNdep w = 0 then [] else ((s.depQuads w).bind s.quadVals).getD []
    let deps := qs.map fun q => (depObject q, q.testBit 0, false)
    let g := match p with
      | none => newGrid w l gid 0 (lTeams w) deps 1 0 []
      | some x =>
        let r := (s.ownRanks x).headD 0
        let row := x.rows.getD r (0, 0, 0)
        newGrid w l gid row.2.1 (row.2.1 + row.2.2) deps x.nmod r (x.rows.map fun y => y.1)
    let u := { t with grids := t.grids ++ [g] }
    (u.onRing l fun x => { x with current := some gid }).earlyIn gid

/-- LAUNCH_PACKET, where it can take place: the register is read again, or the packet at RIDX becomes current. -/
def State.launchStep (s : State) (l : Nat) : Option State :=
  let r := s.ring l
  let h := homeStack (if r.rewritten then ringHdr r.reg else r.hdr)
  if (s.current l).isSome || s.md.fatal || (r.rewritten || r.served) && s.tripWaits 0 h then none
  else if r.rewritten then (if s.hostWaits (ringHdr r.reg) false then none else some ((s.rereadLaunch l).trip 0 h))
  else if !r.served || s.ringWaits r.hdr r.logn || s.agentWaits (r.hdr + 8) 8 then none
  else match s.ringSlot r.hdr r.logn with
    | .notYet => none
    | .poisoned k => some (((s.takeSlot r.hdr k).trip 0 h).takeLaunch l k (Vector.replicate 8 0#64) true)
    | .packet k x =>
      let w := wordsOf x
      if s.checksWait w then none else some ((((s.checksRead w).takeSlot r.hdr k).trip 0 h).takeLaunch l k w false)

def execLaunchPacket (level : Fin 4) (s : State) : Out := .next ((s.launchStep level.val).getD s)

/-! ### DEPENDENCE_MET (R59) -/

def markDep (i : Nat) (g : Grid) : Grid :=
  let ds := g.deps.mapIdx fun j d => if j = i then (d.1, d.2.1, true) else d
  { g with deps := ds, st := if ds.all fun d => d.2.2 then .placing else g.st }

/-- Dependence `i` of the ring's current packet, where the launcher reads it met. -/
def State.depStep (s : State) (l i : Nat) : Option State := match s.current l with
  | none => none
  | some g => match g.deps[i]? with
    | none => none
    | some (va, phase, met) =>
      if met then none
      else match s.xlLaunch g.asid true false 16 va with
        | .error _ => none
        | .ok x =>
          let here : Bool := homeModule x.pa == s.modno
          let read : Option State := match s.quadVal 0 (x.pa, x.pois) with
            | none => none
            | some v =>
              let t := if here then s.logPois x.pa x.pois else s.draw
              if v.testBit 63 == phase then some (t.onGrid g.id (markDep i)) else if here then none else some t
          if here then s.atHome 0 x.pa true none (if s.hostWaits x.pa false then none else read) else read

def execDependenceMet (level i : Fin 4) (s : State) : Out := .next ((s.depStep level.val i.val).getD s)

/-! ### Placement (R62, R63, R449) -/

/-- The place of a group: its core, the slots of its splits with their shadows', its group slot, and the tiles it takes. -/
structure Seat where
  core : Nat
  slots : List (Nat × Option Nat)
  gslot : Nat
  shGslot : Option Nat
  tiles : Nat
  deriving DecidableEq, Repr

def Seat.taken (x : Seat) : List Nat := (x.slots.map fun y => y.1 :: y.2.toList).flatten

/-- Slots for `n` splits. -/
def pickMany (taken : List Nat) (sh : Bool) : Nat → Option (List (Nat × Option Nat))
  | 0 => some []
  | n + 1 => match pickSlots taken sh with
    | none => none
    | some x => (pickMany (x.1 :: (x.2.toList ++ taken)) sh n).map fun r => x :: r

/-- The slots taken on a core, with those of the groups placed already. -/
def State.loadOn (s : State) (k c : Nat) (chosen : List Seat) : List Nat :=
  s.takenSlots k c ++ ((chosen.filter fun (x : Seat) => x.core == c).map Seat.taken).flatten

/-- A place for a group of `n` splits and `acc` tiles on core `c`. -/
def State.seatOn (s : State) (k c n acc : Nat) (sh : Bool) (chosen : List Seat) : Option Seat :=
  let here := chosen.filter fun (x : Seat) => x.core == c
  let tiles := if sh then 2 * acc else acc
  let used := s.usedTiles k c + (here.map fun (x : Seat) => x.tiles).sum
  if !coreServed (s.stk k).svc c || tilesServed (s.stk k).svc c < used + tiles && 0 < acc then none
  else match pickMany (s.loadOn k c chosen) sh n,
      pickGslots (s.takenGslots k c ++ (here.map fun (x : Seat) => x.gslot :: x.shGslot.toList).flatten) sh with
    | some sl, some (a, b) => some { core := c, slots := sl, gslot := a, shGslot := b, tiles := tiles }
    | _, _ => none

/-- The place on the core with room that holds the fewest resident splits, the lowest of equal ones. -/
def State.bestSeat (s : State) (k n acc : Nat) (sh : Bool) (chosen : List Seat) : Option Seat :=
  let all := (List.range 8).filterMap fun c => s.seatOn k c n acc sh chosen
  match all with
  | [] => none
  | x :: xs => some (xs.foldl (fun b y =>
      if (s.loadOn k y.core chosen).length < (s.loadOn k b.core chosen).length then y else b) x)

/-- Places for groups, in order: splits, tiles, and the core where it is given. -/
def State.seatAll (s : State) (k : Nat) (sh : Bool) : List (Nat × Nat × Option Nat) → List Seat → Option (List Seat)
  | [], chosen => some chosen
  | (n, acc, c) :: gs, chosen =>
    match (match c with
      | some c => s.seatOn k c n acc sh chosen
      | none => s.bestSeat k n acc sh chosen) with
    | none => none
    | some x => s.seatAll k sh gs (chosen ++ [x])

/-- The physical address of tile `c` of stack `k`. -/
def State.tileBase (s : State) (k c : Nat) : Nat := s.locOf k * 2 ^ 38 + vaultBase + c * 2 ^ 25

/-- The lowest offset of a tile at which a free range of `size` bytes begins. -/
def State.freeVault (s : State) (k c size : Nat) : Option Nat :=
  let base := s.tileBase k c
  let busy := (s.teams.filter fun (t : Team) =>
    t.base == k && t.st != .ended && base ≤ t.vaultPa && t.vaultPa < base + 2 ^ 25).map fun (t : Team) =>
      (t.vaultPa - base, t.vaultLen)
  let ok (o : Nat) : Bool := o + size ≤ 2 ^ 25 && busy.all fun b => o + size ≤ b.1 || b.1 + b.2 ≤ o
  match (0 :: busy.map fun b => b.1 + b.2).filter ok with
  | [] => none
  | o :: os => some (os.foldl Nat.min o)

/-- The places and the vault offset of the next team of a grid on stack `k`. -/
def State.fitsOn (s : State) (g : Grid) (k : Nat) : Option (List Seat × Nat) :=
  match s.seatAll k g.red (List.replicate g.groups (1, g.acc, none)) [] with
  | none => none
  | some seats => (s.freeVault k ((seats.head?.map fun (x : Seat) => x.core).getD 0) g.vault).map fun o => (seats, o)

/-- Free split slots of a stack, on the cores in service. -/
def State.freeSlots (s : State) (k : Nat) : Nat :=
  (((List.range 8).filter fun c => coreServed (s.stk k).svc c).map fun c => 32 - (s.takenSlots k c).length).sum

/-- The base stack of the next team, with its places (R63). -/
def State.placeFor (s : State) (g : Grid) : Option (Nat × List Seat × Nat) :=
  let ks := (List.range 16).filter fun k => g.smask.getLsbD k
  if g.place = 1 then
    let k := ks.getD (g.next % ks.length) 0
    (s.fitsOn g k).map fun x => (k, x)
  else
    let fits := ks.filterMap fun k => (s.fitsOn g k).map fun x => (k, x)
    match fits with
    | [] => none
    | x :: xs => some (xs.foldl (fun b y => if s.freeSlots b.1 < s.freeSlots y.1 then y else b) x)

/-! ### Save segments (R384 to R386) -/

/-- SPBASE, SPCOUNT and DBGCTL of an address space on a stack; none where the system page cannot be read. -/
def State.sysPage (s : State) (k asid : Nat) : Option (Nat × Nat × Nat) :=
  match xlate s k 8 asid ⟨true, false, false, false⟩ 8 0x100#64 with
  | .error _ => none
  | .ok x =>
    if s.mem.poisoned x.pa then none else some (s.mem.read x.pa 8, s.mem.read (x.pa + 8) 8, s.mem.read (x.pa + 16) 8)

/-- The lowest free save segment of an address space on a stack. -/
def State.freeSegment (s : State) (k asid count : Nat) : Option Nat :=
  let used := (s.teams.filter fun (t : Team) =>
    t.base == k && t.st != .ended && (s.grid? t.grid).any fun (g : Grid) => g.asid == asid).map fun (t : Team) => t.segNo
  (List.range (used.length + 1)).find? fun n => n < count && !used.contains n

/-! ### GROUP_START (R65) -/

/-- A tile whose contents are unspecified; `n` is its first free value. -/
def freeTile (n : Nat) : Tile :=
  { rows := Vector.ofFn fun i : Fin 32 => Vector.ofFn fun j : Fin 64 => Config.freeWord (n + 64 * i.val + j.val),
    flag := (Config.freeWord (n + 2048)).getLsbD 0 }

/-- Split 0 of group `grp` of a team. -/
def firstSplit (g : Grid) (k team grp id gid now : Nat) (x : Seat) (vault : Nat) (gstop : Bool) : Split :=
  let slot := (x.slots.head?).getD (0, none)
  { Split.none with
    id := id, group := gid, num := 0, asid := g.asid, prio := g.prio, chktok := g.chktok, red := g.red, gstop := gstop,
    stack := k, core := x.core, slot := slot.1, shSlot := slot.2, gslot := x.gslot, pc := g.kaddr,
    act := Mask.where' fun l => l < g.lanes, exited := Mask.where' fun l => g.lanes ≤ l,
    sregs := vset (vset (Vector.replicate 32 0#64) 29 (BitVec.ofNat 64 vault)) 30 g.args,
    seeds := lanesOf fun l => BitVec.ofNat 32 ((team * 32 + grp) * 32 + l + 1),
    wbase := 0, frame := g.frame, preq := g.preq, status := .run, came := now }

/-- A group starts on its place. -/
def State.startGroup (s : State) (g : Grid) (k team grp : Nat) (x : Seat) (vault : Nat) (seg : Dword) (gstop : Bool) : State :=
  let gid := s.nextId
  let e : TabEntry := { mask := Mask.where' fun l => l < g.lanes, loc := k, core := x.core, join := 0, valid := true, state := 0 }
  let gr : Group := { Group.none with
    id := gid, grid := g.id, team := team, grp := grp, base := k, asid := g.asid, tileCore := x.core,
    tiles := (List.range g.acc).map fun i => freeTile (s.fresh + 2049 * i), table := vset Group.none.table 0 e,
    ended := false, shadow := g.red, seg := seg }
  let t := { s with
    nextId := gid + 2, fresh := s.fresh + 2049 * g.acc, groups := s.groups ++ [gr],
    splits := s.splits ++ [firstSplit g k team grp (gid + 1) gid (gid + 2) x vault gstop] }
  t.takeGslot k x.core x.gslot x.shGslot gid

/-- The named barriers of a team at their reset values (R133). -/
def barrierBytes (g : Grid) : List Byte := ((List.range 16).map fun _ => bytesLE 8 (g.groups * g.lanes) ++ zeros 8).flatten

/-- An event that the manual gives no ARG enters the sketchbook: its ARG is a free value (log entry 1). -/
def State.note (s : State) (k evt unit asid grid : Nat) : State :=
  (s.sketch k evt unit asid grid (bytesLE 8 (Config.freeDword s.fresh).toNat ++ bytesLE 8 (Config.freeDword (s.fresh + 1)).toNat)).draw.draw

/-- A grid begins on a stack: its energy count, and its budget where its pre-emption is requested (R73, R375). -/
def State.gridOn (s : State) (g : Grid) (k : Nat) : State :=
  s.onStk k fun q => { q with
    energy := if q.energy.any fun e => e.1 == g.id then q.energy else q.energy ++ [(g.id, 0)],
    budgets := if g.preq && !(q.budgets.any fun b => b.1 == g.id) then q.budgets ++ [(g.id, s.md.pbudget.toNat, false)]
               else q.budgets }

/-- The next team of a grid is placed. -/
def State.placeTeam (s : State) (g : Grid) (k : Nat) (seats : List Seat) (off seg : Nat) (spbase : Nat) (gstop : Bool) : State :=
  let c := (seats.head?.map fun (x : Seat) => x.core).getD 0
  let vault := s.tileBase k c + off
  let team : Team :=
    { grid := g.id, team := g.next, base := k, vaultPa := vault, vaultLen := g.vault, segNo := seg,
      seg := BitVec.ofNat 64 (spbase + 2 ^ 24 * seg), pool := [], busy := 0, st := .placed, restoreCap := false }
  let a := { s.written vault 256 with mem := s.mem.writeLines vault (barrierBytes g) g.asid, teams := s.teams ++ [team] }
  let b := (seats.mapIdx fun i x => (i, x)).foldl (fun (t : State) y => t.startGroup g k g.next y.1 y.2 vault team.seg gstop) a
  let last : Bool := g.next + 1 == g.last
  let d := (b.onGrid g.id fun y => { y with next := y.next + 1, st := if last then .running else y.st }).gridOn g k
  d.note k 6 c g.asid g.id

/-! ### PLACING_TEAMS -/

/-- A context that waits on stack `k` can be admitted, and is served before a placement (R64). -/
def State.arrivalFirst (s : State) (k : Nat) : Bool := (s.admitFirst k (s.stk k).arrivals).isSome


/-- The next team of a packet is placed, or what holds it is reported once (R482); a stack in a power state is woken first
(R371). -/
def State.placeOne (s : State) (g : Grid) : Option State := match s.placeFor g with
  | none => none
  | some (k, seats, off) =>
    let vault := s.tileBase k ((seats.head?.map fun (x : Seat) => x.core).getD 0) + off
    let lack (b : Nat) : Option State :=
      if g.stuck then none
      else some ((s.onGrid g.id fun y => { y with stuck := true }).report k 9 g.id g.next g.asid 255 0 9
        [BitVec.ofNat 8 k, BitVec.ofNat 8 b])
    if (s.stk k).pstate ≠ 0 then
      if (s.stk k).waking then none else some (s.onStk k fun q => { q with waking := true })
    else if s.arrivalFirst k || (List.range 4).any fun i => s.agentWaits (vault + 64 * i) 64 then none
    else match s.sysPage k g.asid with
      | none => lack 1
      | some (spbase, count, dbg) => match s.freeSegment k g.asid count with
        | none => lack 0
        | some seg => some (s.placeTeam g k seats off seg spbase (dbg.testBit 0))

/-! ### TEAM_END (R139) -/

def State.groupsOf (s : State) (grid team : Nat) : List Group :=
  s.allGroups.filter fun (g : Group) => g.grid == grid && g.team == team

/-- A team ends once its last group has ended and no post of its groups is left. -/
def State.teamEndStep (s0 : State) (grid team : Nat) : Option State :=
  let s := s0.unfocus
  match s.team? grid team with
  | none => none
  | some t =>
    let gs := s.groupsOf grid team
    let ids := gs.map fun (g : Group) => g.id
    let posts : Bool := s.stks.toList.any fun (q : StackSt) => q.tracker.any fun e => ids.contains e.1
    if t.st = .ended ∨ (gs.all fun (g : Group) => g.ended) = false ∨ posts = true then none
    else
      let u := { (s.onTeam grid team fun (x : Team) => { x with st := .ended, pool := [], busy := 0, restoreCap := false }) with
        groups := s.groups.filter fun (g : Group) => !ids.contains g.id,
        stks := s.stks.map fun (q : StackSt) => { q with failed := q.failed.filter fun i => !ids.contains i } }
      some (u.note t.base 6 9 (((s.grid? grid).map fun (g : Grid) => g.asid).getD 0) grid)

def execTeamEnd (grid team : Nat) (s : State) : Out := .next ((s.teamEndStep grid team).getD s)

/-! ### COMPLETION_RECORD and COMPLETION_REPORT (R60, R233, R368) -/

/-- Whether this module's share of a grid has ended (R233). -/
def State.shareOver (s : State) (g : Grid) : Bool :=
  (g.aborted || g.next == g.last) && (s.teams.all fun (t : Team) => t.grid != g.id || t.st == .ended)
    && s.stks.toList.all fun (q : StackSt) => q.pubs.all (fun p => p.2.2 != g.id)
        && q.chans.toList.all fun (c : CopyChan) => c.jobs.all fun (j : CopyJob) => j.grid != some g.id

/-- A record that announces the abort has to be published first (R479). -/
def State.abortUnsaid (s : State) (g : Grid) : Bool := s.md.errq.any fun (r : ErrRec) => r.typ == 1 && r.grid == g.id

/-- The energy of a grid's share: the last charge of each stack is still to come, and its amount is a free value (R375). -/
def State.shareEnergy (s : State) (g : Grid) : Nat :=
  if g.next = g.first then 0
  else ((s.stks.toList.map fun (q : StackSt) => ((q.energy.find? fun e => e.1 == g.id).map fun e => e.2).getD 0).sum
    + (Config.freeDword s.fresh).toNat) % 2 ^ 64

/-- The grid leaves the module: its pins, counters and requests go with it (R61, R144). -/
def State.dropGrid (s : State) (gid : Nat) : State :=
  { s with
    grids := s.grids.filter fun (g : Grid) => g.id != gid,
    teams := s.teams.filter fun (t : Team) => t.grid != gid,
    md := { s.md with
      requested := s.md.requested.filter (· != gid),
      rings := s.md.rings.map fun (r : Ring) => if r.current = some gid then { r with current := none } else r },
    stks := s.stks.map fun (q : StackSt) => { q with
      energy := q.energy.filter fun e => e.1 != gid, budgets := q.budgets.filter fun b => b.1 != gid,
      hbudgets := q.hbudgets.filter fun b => b.1 != gid,
      cores := q.cores.map fun (c : Core) => { c with
        icache := c.icache.map fun (l : ILine) => if l.pin = some gid then { l with pin := none } else l } } }

/-- The end of a grid here: rank 0 writes the record once every rank has reported; another rank sends its report. -/
def State.gridOver (s : State) (grid : Nat) : Option State := match s.grid? grid with
  | none => none
  | some g =>
    if !s.shareOver g || s.abortUnsaid g then none
    else
      let e := s.shareEnergy g
      if g.rank ≠ 0 then
        some ((s.draw.send 0 (s.nameOf (16 * g.rankMods.getD 0 0)) (.complete grid g.rank g.aborted e)).dropGrid grid)
      else if g.reported.length + 1 < g.ranks then none
      else s.recordStep g.asid g.crec
        ((s.draw.writeRecord grid g.asid g.crec (g.aborted || g.rankAborted) ((e + g.energy) % 2 ^ 64)).dropGrid grid)

/-- The completion record of a refused packet with that GRIDID, once every rank has reported (R367, R481). -/
def State.refusedOver (s : State) (grid : Nat) : Option State :=
  match s.md.refused.find? fun (r : Refused) => r.id == grid && r.ranks ≤ r.reported.length + 1 with
  | none => none
  | some r =>
    let t := s.writeRecord r.name r.asid r.crec true 0
    s.recordStep r.asid r.crec { t with md := { t.md with refused := t.md.refused.erase r } }

/-- COMPLETION_RECORD, where it can take place. -/
def State.completionStep (s : State) (grid : Nat) : Option State :=
  if s.md.fatal then none
  else match s.gridOver grid with
    | some t => some t
    | none => s.refusedOver grid

def execCompletionRecord (grid : Nat) (s : State) : Out := .next ((s.completionStep grid).getD s)

/-- COMPLETION_REPORT (R368): the report of another rank arrives. -/
def execCompletionReport (grid rank : Nat) (aborted : Bool) (energy : Nat) (s : State) : Out :=
  .next (s.reportIn grid rank aborted energy)

end Sys2Proof.Machine
end

