-- ==== Sys2Proof/Machine/Resume.lean ====
section
/-! DEFINITION. Machine/Resume.lean: pre-emption (R73 to R75, R378, R435, R436), placement in its order (R62), the resumption
of a pre-empted team (R76, R400, R432, R438, R439), and what reaches a split between its runs (R383, R391, R403 to R406). -/

namespace Sys2Proof.Machine

/-! ### Requests (R73, R378) -/

/-- Splits of a grid that stand somewhere; one in the fabric learns of a request on admission (R73). -/
def State.splitsOf (s : State) (grid : Nat) : List Split :=
  s.allSplits.filter fun (w : Split) => w.status != .transit && (s.group? w.group).any fun (g : Group) => g.grid == grid

/-- PREQ is set in the split in focus: a parked split is woken, and one that waits at `bwt.y` saves as `yield` does. -/
def State.setPreq (s : State) : State :=
  let t := { s with me := { s.me with preq := true } }
  match s.me.status with
  | .parked _ => { t with me := { t.me with status := .run, wasReady := false, spin := none } }
  | .bwt _ _ _ true =>
    if s.me.pend.kill then t
    else ({ t with me := { t.me with status := .run } }).await releaseWaits (.save t.me.pc)
  | _ => t

/-- Teams of a grid that hold their slots. -/
def State.placedTeams (s : State) (grid : Nat) : List Nat :=
  (s.teams.filter fun (t : Team) => t.grid == grid && t.st == .placed).map fun (t : Team) => t.team

/-- A request is raised: PREQ in every split, and a budget on each stack. -/
def State.raisePreq (s0 : State) (grid : Nat) : State :=
  let s := s0.unfocus
  let ids := (s.splitsOf grid).map Split.id
  let t := (s.onGrid grid fun g => { g with preq := true }).forSplits ids State.setPreq
  let u := { t with
    md := { t.md with requested := t.md.requested ++ [grid] },
    stks := t.stks.map fun (q : StackSt) => { q with budgets := q.budgets ++ [(grid, t.md.pbudget.toNat, false)] } }
  (u.placedTeams grid).foldl (fun (v : State) n => v.teamSavedAt grid n) u

/-- PREQCTL written with REQ = 1. -/
def State.askPreq (s : State) (grid : Nat) : State :=
  let t := { s with md := { s.md with preqctl := BitVec.ofNat 64 (2 ^ 32 + grid % 2 ^ 32) } }
  if (s.grid? grid).isNone || s.md.requested.contains grid || 64 ≤ s.md.requested.length then t else t.raisePreq grid

def execPreemptionRequest (grid : Nat) (s : State) : Out := if s.md.ready && s.md.cxlUp then .next (s.askPreq grid) else .next s

/-- The request is withdrawn: PREQ and the budgets go; a forced save already due still takes place. -/
def State.dropPreq (s : State) (grid : Nat) : State :=
  let clear (w : Split) : Split :=
    if s.inGrid grid w then { w with preq := false, pend := { w.pend with handler := [] } } else w
  let t := (s.onGrid grid fun g => { g with preq := false }).mapSplits clear
  { t with
    md := { t.md with requested := t.md.requested.filter (· != grid) },
    stks := t.stks.map fun (q : StackSt) => { q with
      budgets := q.budgets.filter fun b => b.1 != grid, hbudgets := q.hbudgets.filter fun b => b.1 != grid } }

def execPreemptionWithdraw (grid : Nat) (s : State) : Out :=
  let t := { s with md := { s.md with preqctl := BitVec.ofNat 64 (grid % 2 ^ 32) } }
  if s.md.ready && s.md.cxlUp then .next (t.dropPreq grid) else .next s

/-! ### Budgets (R75, R435, R436) -/

/-- A split that the expiry does not force: it saves by itself, has saved, or has ended. -/
def Split.unforced (w : Split) : Bool := w.pend.kill || match w.status with
  | .wait _ (.save _) | .wait _ (.forced _) | .leaving (.save _) | .leaving (.forced _) | .transit | .replayable | .saved
  | .stored | .ended => true
  | _ => false

/-- The budget of stack `k` has expired for the split in focus: the forced save takes its place in the order of R403. -/
def State.forceNow (k : Nat) (s : State) : State :=
  let t := { s with me := { s.me with pend := { s.me.pend with preempt := true, handler := (k :: s.me.pend.handler).eraseDups } } }
  match t.takeHalt with
  | some u => u
  | none => match t.takeFault with
    | some u => u
    | none => (t.takeForced).getD t

/-- BUDGET_EXPIRY, where the counter has run out: the second period of those in a handler begins (R436). -/
def State.expireBudget (s0 : State) (k grid : Nat) : Option State :=
  let s := s0.unfocus
  if (s.stk k).budgets.any fun b => b == (grid, 0, false) then
    let t := s.onStk k fun q => { q with
      budgets := q.budgets.map fun b => if b.1 = grid then (grid, 0, true) else b,
      hbudgets := q.hbudgets ++ [(grid, s.md.pbudget.toNat)] }
    let here := (t.splitsOf grid).filter fun (w : Split) => w.stack == k && !w.unforced
    some (t.forSplits (here.map Split.id) (State.forceNow k))
  else none

def execBudgetExpiry (stack : Fin 16) (grid : Nat) (s : State) : Out := .next ((s.expireBudget stack.val grid).getD s)

/-- HANDLER_BUDGET_EXPIRY, where the counter has run out: a split that the expiry on stack `k` has marked and that is still in a
handler, wherever it stands, ends its grid (R436). -/
def State.expireHandler (s : State) (k grid : Nat) : Option State :=
  if (s.stk k).hbudgets.contains (grid, 0) then
    let t := s.onStk k fun q => { q with hbudgets := q.hbudgets.filter (· != (grid, 0)) }
    match t.allSplits.find? fun (w : Split) =>
        t.inGrid grid w && w.pend.handler.contains k && w.inHandler && !w.pend.kill with
    | none => some t
    | some w =>
      let g := (t.group? w.group).getD Group.none
      some (t.abort grid 5 0 0 g.team g.grp)
  else none

def execHandlerBudgetExpiry (stack : Fin 16) (grid : Nat) (s : State) : Out :=
  .next ((s.expireHandler stack.val grid).getD s)

/-! ### Resumption (R76, R400, R438, R439) -/

/-- Whether the recorded core of a group with tiles still has them in service. -/
def State.tilesFit (s : State) (k : Nat) (g : Group) : Bool :=
  g.tiles.isEmpty || coreServed (s.stk k).svc g.tileCore
    && g.tiles.length * (if g.shadow then 2 else 1) ≤ tilesServed (s.stk k).svc g.tileCore

/-- The recorded cores of a team that do not fit, as a mask. -/
def State.misfits (s : State) (t : Team) : Nat :=
  let cs := ((s.groupsOf t.grid t.team).filter fun (g : Group) => !s.tilesFit t.base g).map fun (g : Group) => g.tileCore
  ((List.range 8).filter cs.contains).foldl (fun n c => n + 2 ^ c) 0

/-- Whether a team is to be resumed: its request is withdrawn, and it is pre-empted or some of its splits have saved. -/
def State.resumable (s : State) (t : Team) : Bool :=
  (s.grid? t.grid).any (fun (g : Grid) => !g.preq && !g.aborted) && match t.st with
    | .preempted => true
    | .placed => (s.groupsOf t.grid t.team).any fun (g : Group) =>
        s.splits.any fun (w : Split) => w.group == g.id && w.status == .saved
    | .ended => false

/-- Whether a pre-empted team of a level waits for its places, before the unplaced teams of that level. -/
def State.resumesAt (s : State) (l : Nat) : Bool := s.teams.any fun (t : Team) =>
  t.st == .preempted && s.resumable t && s.misfits t == 0 && (s.grid? t.grid).any fun (g : Grid) => g.level == l

/-- The first placement that can be made, from level 3 down (R62). -/
def State.placeFrom (s : State) : List Nat → Option State
  | [] => none
  | l :: ls =>
    let here : Option State := if s.resumesAt l then none else match s.current l with
      | some g => if g.st = .placing then s.placeOne g else none
      | none => none
    match here with
    | some t => some t
    | none => s.placeFrom ls

/-- PLACING_TEAMS, where a team fits. -/
def State.placingStep (s : State) : Option State := if s.md.fatal then none else s.unfocus.placeFrom [3, 2, 1, 0]

def execPlacingTeams (s : State) : Out := .next ((s.placingStep).getD s)

/-- The tiles, saturation flags and swatch state in the area of the group in focus. -/
def State.areaTiles (s : State) : Except TClass (List Tile × Swatch) :=
  match s.readArea (s.areaVa 0x60000) fun _ _ => [(0, 0x102), (0x800, 0x800)] with
  | .error c => .error c
  | .ok (tab, m) =>
    let flags := m.read (tab + 0x100) 2
    let tiles := (List.range s.gr.tiles.length).foldr (fun i (r : Except TClass (List Tile)) =>
      match s.readArea (s.areaVa (0x40000 + 0x2000 * i)) fun _ _ => [(0, 0x2000)], r with
      | .error c, _ => .error c
      | .ok _, .error c => .error c
      | .ok (pa, n), .ok l => .ok (readTile n pa (flags.testBit i) :: l)) (.ok [])
    tiles.map fun ts => (ts, readSwatch m tab (tab + 0x800))

/-- The poisoned lines that they have taken as zeros are logged. -/
def State.tilesRead (s : State) : State :=
  (List.range s.gr.tiles.length).foldl (fun (t : State) i => t.areaRead (s.areaVa (0x40000 + 0x2000 * i)) fun _ _ => [(0, 0x2000)])
    (s.areaRead (s.areaVa 0x60000) fun _ _ => [(0, 0x102), (0x800, 0x800)])

/-- The tiles of a frame with TILES set are written back. -/
def State.tilesBack (s : State) : State := match s.readArea s.frameVa fun _ _ => [(0, 64)] with
  | .error _ => s
  | .ok (pa, m) =>
    if !s.fixed || m.read (pa + 0xA) 1 / 2 % 2 == 0 then s
    else match s.areaTiles with
      | .error c => s.saveFault c false
      | .ok (ts, sw) => { s.tilesRead with gr := { s.gr with tiles := ts, swatch := sw } }

/-- The split in focus waits again where its save or stop has taken it from (R135, R431, R435). -/
def State.waitAgain (s : State) : State :=
  let w := s.me
  if w.rewait = .run ∨ w.status ≠ .run then { s with me := { w with rewait := .run } }
  else
    let t := { s with me := { w with status := w.rewait, rewait := .run, pc := w.pc - 4#64 } }
    match w.rewait with
    | .join j =>
      let u := { t with gr := { t.gr with joinCore := some w.core } }
      (u.tell w.num (some w.act) 2 j).unfocus.joinCheck t.gr.id
    | _ => t

/-- A saved split goes on from its frame. -/
def State.resumeHere (s : State) : State :=
  let t := { s with me := { s.me with status := .run, preq := false, wasReady := false, inRun := false } }
  let u := t.tell t.me.num none 0
  let v := (u.tilesBack).rftEffect u.frameVa
  if v.me.id = s.me.id then v.waitAgain else v.withSplit s.me.id State.waitAgain

/-- The splits of a group, as they were saved. -/
def State.storedOf (s : State) (gid : Nat) : List Split :=
  s.splits.filter fun (w : Split) => w.group == gid && w.status == .stored

/-- A group takes its place and its splits go on. -/
def State.resumeGroup (s : State) (k : Nat) (g : Group) (x : Seat) : State :=
  let ws := s.storedOf g.id
  let t := s.onGroup g.id fun q => { q with
    replayable := false, tileCore := x.core, joinCore := none,
    tiles := q.tiles.mapIdx fun i (_ : Tile) => freeTile (s.fresh + 2049 * i) }
  let u := ({ t with fresh := s.fresh + 2049 * g.tiles.length }).takeGslot k x.core x.gslot x.shGslot g.id
  let v := (ws.zip x.slots).foldl (fun (a : State) y => a.onSplit y.1.id fun (w : Split) => { w with
    stack := k, core := x.core, slot := y.2.1, shSlot := y.2.2, gslot := x.gslot, status := .saved }) u
  v.forSplits (ws.map Split.id) State.resumeHere

/-- TEAM_RESUMPTION, where the team fits, or a recorded core that does not fit is reported (RESTORECAP). -/
def State.resumeStep (s0 : State) (grid team : Nat) : Option State :=
  let s := s0.unfocus
  match s.team? grid team with
  | none => none
  | some t =>
    let l := ((s.grid? grid).map fun (g : Grid) => g.level).getD 0
    let gs := (List.range 32).filterMap fun n => (s.groupsOf grid team).find? fun (g : Group) => g.grp == n && !g.ended
    if !s.resumable t || s.md.fatal then none
    else if t.st = .placed then
      let ids := (s.splits.filter fun (w : Split) => w.status == .saved && gs.any fun (g : Group) => g.id == w.group).map Split.id
      some (s.forSplits ids State.resumeHere)
    else if s.misfits t ≠ 0 then
      if t.restoreCap then none
      else some ((s.onTeam grid team fun x => { x with restoreCap := true }).report t.base 3 grid team
        (((s.grid? grid).map fun (g : Grid) => g.asid).getD 0) 255 17 9 [BitVec.ofNat 8 t.base, BitVec.ofNat 8 (s.misfits t)])
    else if (s.placeFrom ([3, 2, 1, 0].filter fun n => l < n)).isSome || s.arrivalFirst t.base then none
    else if (s.stk t.base).pstate ≠ 0 then
      if (s.stk t.base).waking then none else some (s.onStk t.base fun q => { q with waking := true })
    else
      let need := gs.map fun (g : Group) =>
        ((s.storedOf g.id).length, g.tiles.length, if g.tiles.isEmpty then none else some g.tileCore)
      match s.seatAll t.base ((s.grid? grid).any fun (g : Grid) => g.red) need [] with
      | none => none
      | some seats =>
        let u := s.onTeam grid team fun x => { x with st := .placed, restoreCap := false }
        some ((gs.zip seats).foldl (fun (a : State) y => a.resumeGroup t.base y.1 y.2) u)

def execTeamResumption (grid team : Nat) (s : State) : Out := .next ((s.resumeStep grid team).getD s)

/-! ### What reaches a split between its runs (R403 to R406) -/

/-- TRAP_ENTRY: a deferred fault or a forced pre-emption is taken, where no halt comes first. -/
def State.trapStep (s : State) : Option State :=
  if s.takeHalt.isSome then none
  else match s.takeFault with
    | some t => some t
    | none => s.takeForced

def execTrapEntry (split : Nat) (s : State) : Out := .next (((s.focus split).bind State.trapStep).getD s)

/-- A halt that has come to the split in focus: it stands until it is taken, and wakes a parked split (R72, R404). A handler
entered by BREAK takes none. -/
def State.haltComes (s : State) : State :=
  if s.me.inHandler && s.me.trapSet.toNat % 32 == 14 then s
  else
    let t := { s with me := { s.me with pend := { s.me.pend with halt := true } } }
    if (s.me.status matches .parked _) then { t with me := { t.me with status := .run, wasReady := false, spin := none } } else t

/-- The state without a halt for split `id` that stands at the head of its path. -/
def State.haltFrom (s : State) (id : Nat) : Option State :=
  let mine (p : Payload) : Bool := match p with
    | .halt w => w == id
    | _ => false
  ((s.fabric.filter fun (p : Packet) => mine p.pl && p.dst < 16).filterMap fun (p : Packet) =>
    (s.takePacket mine p.src p.dst).map fun r => r.2).head?

/-- HALT: a halt on its way to the split arrives, or one that stands for it is taken (R404, R405, R431); a halt for a split
that has ended or merged away is dropped. -/
def State.haltStep (s : State) (split : Nat) : Option State := match s.haltFrom split with
  | some t => some (((t.focus split).map State.haltComes).getD t)
  | none => (s.focus split).bind State.takeHalt

def execHalt (split : Nat) (s : State) : Out := .next ((s.haltStep split).getD s)

/-- SLICE_EXPIRY, where nothing else stands for the split (R403, R406). -/
def State.sliceStep (s : State) : Option State :=
  if s.takeHalt.isSome || s.takeFault.isSome || s.takeForced.isSome then none else s.takeSlice

def execSliceExpiry (split : Nat) (s : State) : Out := .next (((s.focus split).bind State.sliceStep).getD s)

/-- ABORTCTL (R484): a fatal fault of a grid with REASON 3. -/
def execAbortctl (grid : Nat) (s : State) : Out := if s.md.ready && s.md.cxlUp then .next (s.abort grid 3 0 0 0 255) else .next s

end Sys2Proof.Machine
end

