-- ==== Sys2Proof/Machine/Registers.lean ====
section
/-! DEFINITION. Machine/Registers.lean: the register window (R355, R356, R489): queue registers (R53, R56, R259, R477), SKBCTL
(R492), ERRSTAT (R480), the monitors (R376, R377), PWRCAP, RAMP and SVC (R372, R374, R485), and every other register. -/

namespace Sys2Proof.Machine

/-- A write by the host takes effect once READY is set (R494), while the CXL link is up (R489). -/
def State.whenReady (s t : State) : Out := .next (if s.md.ready && s.md.cxlUp then t else s)

def State.onMd (s : State) (f : ModSt → ModSt) : State := { s with md := f s.md }

/-! ### Queue registers -/

/-- HDR and EN, the fields of a queue register. -/
def queueMask : Dword := 0x0000FFFFFFFFFFC1#64

def execQring (level : Fin 4) (v : Dword) (s : State) : Out :=
  s.whenReady (s.onRing level.val fun r => { r with reg := v &&& queueMask, rewritten := true })

def execCring (stack : Fin 16) (level : Fin 4) (v : Dword) (s : State) : Out :=
  s.whenReady (s.onChan stack.val level.val fun c => { c with reg := v &&& queueMask, rewritten := true })

def execErrlog (v : Dword) (s : State) : Out := s.whenReady (s.onMd fun m => { m with errlog := v &&& queueMask })

/-! ### SKBCTL, ERRSTAT, monitors -/

def State.onSketch (s : State) (k : Nat) (f : Sketch → Sketch) : State := s.onStk k fun q => { q with sketch := f q.sketch }

/-- A write of SKBCTL sets SEL; with THAW it unfreezes the sketchbook and clears LOST (R492). -/
def Sketch.write (b : Sketch) (thaw : Bool) (sel : Nat) : Sketch :=
  if thaw then { b with sel := sel, frozen := false, lost := 0 } else { b with sel := sel }

def execSkbctlThaw (write : SkbThaw) (s : State) : Out :=
  s.whenReady (s.onSketch write.stack.val fun b => b.write true write.sel.toNat)

def execErrstatClear (s : State) : Out := s.whenReady (s.onMd fun m => { m with drop := 0 })

def StackSt.monitor (t : StackSt) (n : Nat) : Monitor := vget t.monitors n Monitor.reset
def State.onMonitor (s : State) (k n : Nat) (f : Monitor → Monitor) : State :=
  s.onStk k fun q => { q with monitors := vset q.monitors n (f (q.monitor n)) }

def Monitor.clear (m : Monitor) : Monitor :=
  { m with minv := Monitor.reset.minv, maxv := Monitor.reset.maxv, bins := Monitor.reset.bins }

def execMonitorClear (stack : Fin 16) (n : Fin 32) (s : State) : Out :=
  s.whenReady (s.onMonitor stack.val n.val Monitor.clear)

/-- The value of a level source (R377): sources 2 and 3 are what the sensors read. -/
def StackSt.level (t : StackSt) (m : Monitor) (reading : Nat) : Nat → Option Nat
  | 1 => some t.arrivals.length
  | 2 | 3 => some reading
  | 4 => some (t.spinEvents - m.spinAt)
  | 5 => some ((t.cores.toList.map fun (c : Core) => c.kstep).foldl Nat.min 8)
  | 6 => some t.tracker.length
  | 7 => some ((t.chans.toList.map fun (c : CopyChan) => c.jobs.length).sum)
  | _ => none

/-- MONITOR_SAMPLE (R377), where the sample of a level is due, which it is every 1,024 router cycles in the states A0 to A2. -/
def execMonitorSample (stack : Fin 16) (n : Fin 32) (reading : Nat) (s : State) : Out :=
  let t := s.stk stack.val
  let m := t.monitor n.val
  if !t.samples.contains n.val || t.pstate == 3 then .next s
  else
    let u := (s.onStk stack.val fun q => { q with samples := q.samples.erase n.val }).draw
    match (if m.cfg.getLsbD 63 then t.level m reading (bitsOf m.cfg.toNat 55 48) else none) with
    | none => .next u
    | some v => .next (u.onMonitor stack.val n.val fun m => { m.record v with spinAt := t.spinEvents })

/-! ### PWRCAP, RAMP, SVC -/

/-- CAPW as it is stored (R372). -/
def capOf (x : Nat) : Nat := if x = 0 then 0 else Nat.min 3600 (Nat.max 600 x)

def execPwrcap (v : Dword) (s : State) : Out :=
  s.whenReady (s.onMd fun m => { m with pwrcap := BitVec.ofNat 64 (capOf (bitsOf v.toNat 11 0)) })

def execRamp (v : Dword) (s : State) : Out :=
  s.whenReady (s.onMd fun m => { m with ramp := BitVec.ofNat 64 (Nat.max 57 (bitsOf v.toNat 15 0)) })

/-- The firmware takes no core out of service while a group slot on it is in use, and no tile is counted past 64 (R485). -/
def State.svcOk (s : State) (k : Nat) (v : Dword) : Bool :=
  (List.range 8).all fun c => tilesServed v c ≤ 64 && (coreServed v c || (s.takenGslots k c).isEmpty)

/-- SVC_UPDATE: RESTORECAP teams of the stack are then tried again (R439). -/
def execSvcUpdate (stack : Fin 16) (v : Dword) (s : State) : Out :=
  .next (if s.svcOk stack.val v then
    (s.onStk stack.val fun q => { q with svc := v }).onMd fun m => { m with
      retiring := m.retiring.filter fun x => !(x.1 == stack.val && !coreServed v x.2.1) }
  else s)

/-! ### The other registers -/

/-- MONCFG as it is stored: EN, SRC, SHIFT and BASE; writing CLR clears the monitor (R376). -/
def moncfgMask : Dword := 0x80FF003FFFFFFFFF#64

/-- A register written, as its fields allow. A write of PBUDGET outside the range of R73 has no effect (DESIGN CHOICE, log entry
74). -/
def State.writeReg (s : State) (r : WinReg) (v : Dword) : State := match r with
  | .asidbase => s.onMd fun m => { m with asidbase := v &&& 0x0000FFFFFFFFE000#64 }
  | .pbudget =>
    let n := bitsOf v.toNat 24 0
    if 4096 ≤ n ∧ n ≤ 16777216 then s.onMd fun m => { m with pbudget := BitVec.ofNat 64 n } else s
  | .lattol => s.onMd fun m => { m with lattol := v &&& 0xFFFFFFFF#64 }
  | .cplnote => s.onMd fun m => { m with cplnote := v &&& 0x000FFFFFFFFFF001#64 }
  | .skbSel k => s.onSketch k.val fun b => b.write (v.getLsbD 62) (bitsOf v.toNat 11 0)
  | .monitor k n => s.onMonitor k.val n.val fun m =>
      let x := { m with cfg := v &&& moncfgMask }
      if v.getLsbD 62 then x.clear else x
  | .readOnly | .unlisted | .rstctl | .misaligned | .readAt _ => s

/-! ### Limits (R490) -/

/-- The highest row in force on a stack: its response applies. -/
def StackSt.topLimit (t : StackSt) : Option Nat := match t.limits with
  | [] => none
  | r :: rs => some (rs.foldl Nat.max r)

def State.onCores (s : State) (k : Nat) (f : Core → Core) : State := s.onStk k fun q => { q with cores := q.cores.map f }

/-- What a row does on a stack as its response begins: row 0 lowers FSTEP by a free amount, row 1 sets HSTEP to 1, row 2 lowers
it, and row 3 holds FSTEP at 4. -/
def State.limitActs (s : State) (k : Nat) : Option Nat → State
  | some 0 => (s.onCores k fun c => { c with
      fstep := if c.fstep ≤ 1 then 1 else 1 + Config.freeNat s.fresh % (c.fstep - 1) }).draw
  | some 1 => s.onCores k fun c => { c with hstep := 1 }
  | some 2 => (s.onCores k fun c => { c with hstep := Nat.max 1 (c.hstep - 1) }).onStk k fun q => { q with row2At := q.clock }
  | some 3 => s.onCores k fun c => { c with fstep := Nat.min 4 c.fstep }
  | _ => s

/-- The response of the highest row in force on every stack. -/
def State.limitsAgain (s : State) : State :=
  (List.range 16).foldl (fun (t : State) k => t.limitActs k (t.stk k).topLimit) s

/-! ### Resets (R493) -/

/-- Event 8 in every sketchbook. -/
def State.noteReset (s : State) : State := (List.range 16).foldl (fun (t : State) k => t.note k 8 9 0 0) s

/-- What a warm reset leaves of a stack. -/
def StackSt.warm (t : StackSt) : StackSt := { StackSt.reset with svc := t.svc, sketch := t.sketch, limits := t.limits }

/-- A warm reset (R493). The limits in force stand (R490). -/
def State.warm (s : State) : State :=
  (({ State.reset with
    mem := s.mem, stks := s.stks.map StackSt.warm, nextId := s.nextId, fresh := s.fresh, agenda := s.agenda,
    md := { ModSt.reset with
      pbudget := s.md.pbudget, domcfg := s.md.domcfg, routes := s.md.routes, lattol := s.md.lattol, pwrcap := s.md.pwrcap,
      ramp := s.md.ramp, fatal := s.md.fatal, msix := s.md.msix, peersDown := s.md.peersDown, hdmbase := s.md.hdmbase,
      mirror := s.md.mirror, hostReads := s.md.hostReads, windowReads := s.md.windowReads,
      outbound := s.md.outbound } } : State).limitsAgain).noteReset

/-- A cold reset: everything is as after power-on, until bring-up (R493, R494). What has left the module stays as it is. -/
def State.cold (s : State) : State :=
  { State.reset with
    nextId := s.nextId, fresh := s.fresh, agenda := s.agenda,
    md := { ModSt.reset with
      msix := s.md.msix, hdmbase := s.md.hdmbase, mirror := s.md.mirror, hostReads := s.md.hostReads,
      windowReads := s.md.windowReads, outbound := s.md.outbound } }

def execWarmReset (s : State) : Out := .next s.warm
def execColdReset (s : State) : Out := .next s.cold

/-! ### Reads of the window (R355, R480, R492) -/

def State.errstat (s : State) : Nat :=
  (if s.md.ready then 2 ^ 63 else 0) + (if s.md.fatal then 2 ^ 62 else 0)
    + (if s.stks.toList.any fun (q : StackSt) => !q.limits.isEmpty then 2 ^ 61 else 0)
    + (if s.md.downLinks.isEmpty then 0 else 2 ^ 60) + s.md.drop

/-- The four quads of a sketchbook entry (R491). -/
def SkEntry.quad (e : SkEntry) (q : Nat) : Nat :=
  ofBytesLE (((bytesLE 8 e.stamp ++ bytesLE 1 e.evt ++ bytesLE 1 e.unit ++ bytesLE 2 e.asid ++ bytesLE 4 e.grid ++ e.arg).drop
    (8 * q)).take 8)

def Sketch.skbctl (b : Sketch) : Nat := (if b.frozen then 2 ^ 63 else 0) + 2 ^ 32 * b.next + 2 ^ 12 * b.lost + b.sel
/-- SKBDATA: the entry that SEL selects; one never written reads zero (log entry 7). -/
def Sketch.data (b : Sketch) (q : Nat) : Nat := ((b.ring.find? fun e => e.1 == b.sel).map fun e => e.2.quad q).getD 0

def Monitor.reads (m : Monitor) (off : Nat) : Nat :=
  if off = 0 then m.cfg.toNat
  else if off = 8 then m.minv.toNat
  else if off = 16 then m.maxv.toNat
  else if 64 ≤ off ∧ off < 192 then vget m.bins ((off - 64) / 8) 0
  else 0

/-- A register of a stack's block. -/
def State.blockRead (s : State) (k off : Nat) : Nat :=
  let t := s.stk k
  if off < 32 then (s.chan k (off / 8)).reg.toNat
  else if off = 0x20 then t.svc.toNat
  else if off = 0x28 then t.sketch.skbctl
  else if 0x30 ≤ off ∧ off < 0x50 then t.sketch.data ((off - 0x30) / 8)
  else if 0x100 ≤ off ∧ off < 0x2100 then (t.monitor ((off - 0x100) / 256)).reads ((off - 0x100) % 256)
  else 0

/-- What an aligned 8-byte read of the window returns; an offset that names no register reads zero. -/
def State.windowRead (s : State) (off : Nat) : Dword :=
  let m := s.md
  let x : Nat :=
    if 0x100000 ≤ off then s.blockRead ((off - 0x100000) / 0x10000) ((off - 0x100000) % 0x10000)
    else if 0x1000 ≤ off ∧ off < 0x1200 then (vget m.routes ((off - 0x1000) / 8) 0#64).toNat
    else if off < 0x20 then (s.ring (off / 8)).reg.toNat
    else if off = 0x20 then m.asidbase.toNat
    else if off = 0x28 then m.pbudget.toNat
    else if off = 0x30 then m.preqctl.toNat
    else if off = 0x38 then m.domcfg.toNat
    else if off = 0x40 then m.lattol.toNat
    else if off = 0x48 then m.pwrcap.toNat
    else if off = 0x50 then m.ramp.toNat
    else if off = 0x58 then ((List.range 16).map fun k => 4 ^ k * (s.stk k).pstate).sum
    else if off = 0x60 then m.cplnote.toNat
    else if off = 0x68 then m.errlog.toNat
    else if off = 0x70 then s.errstat
    else 0
  BitVec.ofNat 64 x

/-- An access of another size than 8 bytes, or a misaligned one, sets the AER non-fatal status (R489). -/
def regFits (r : WinReg) (size : Nat) : Bool := size == 8 && match r with
  | .misaligned => false
  | .readAt off => off % 8 == 0
  | _ => true

/-- REGISTER_WRITE (R356, R489), which also stands for the reads of the window: a write before READY has no effect, but RSTCTL
is written, and the window read, at any time. While the CXL link is down none of them comes from the host; PBUDGET is written by
the firmware. -/
def execRegisterWrite (r : WinReg) (size : Nat) (v : Dword) (s : State) : Out :=
  if r = .pbudget ∧ size = 8 then .next (if s.md.ready then s.writeReg r v else s)
  else if !s.md.cxlUp then .next s
  else if !regFits r size then .next { s with md := { s.md with aer := true } }
  else match r with
    | .rstctl => .next (if v.getLsbD 1 then s.cold else if v.getLsbD 0 then s.warm else s)
    | .readAt off => .next (s.onMd fun m => { m with windowReads := (off, s.windowRead off) :: m.windowReads })
    | .asidbase | .pbudget | .lattol | .cplnote | .skbSel _ | .monitor _ _ | .readOnly | .unlisted | .misaligned =>
      s.whenReady (s.writeReg r v)

end Sys2Proof.Machine
end

