-- ==== Sys2Proof/Machine/Errors.lean ====
section
/-! DEFINITION. Machine/Errors.lean: the error ring (R477 to R480), the scrubber and poison (R203, R466, R467), uncorrectable
errors (R471, R488), links and routes (R486, R487), peers (R493), limits (R490), and traps of undecodable words (R113). -/

namespace Sys2Proof.Machine

/-! ### ERROR_RECORD (R477, R478) -/

def ErrRec.bytes (r : ErrRec) (phase : Nat) : List Byte :=
  bytesLE 8 (phase + 2 ^ 8 * r.typ + 2 ^ 16 * r.loc + 2 ^ 32 * (r.seq.getD 0 % 2 ^ 32)) ++ bytesLE 4 r.skb ++ bytesLE 4 r.grid
    ++ bytesLE 4 r.team ++ bytesLE 2 r.asid ++ bytesLE 1 r.grp ++ bytesLE 1 r.cls ++ zeros 8
    ++ r.payload ++ zeros (32 - r.payload.length)

/-- The record `r` is published at index WIDX of the error ring, or dropped. -/
def State.publish (s : State) (r : ErrRec) (hdr n : Nat) : Option State :=
  let k := s.mem.read hdr 8
  let ridx := s.mem.read (hdr + 8) 8
  let pa := hdr + slotOff k n
  if 2 ^ n ≤ (k + 2 ^ 64 - ridx) % 2 ^ 64 then some (s.onMd fun m => { m with drop := (m.drop + 1) % 2 ^ 32 })
  else if s.agentWaits hdr 8 || s.agentWaits pa 64 then none
  else
    let t := s.agentWrite hdr (bytesLE 8 (k + 1)) 0
    let bs := r.bytes (k / 2 ^ n % 2)
    let u := { t.written pa 64 with mem := t.mem.writeLines pa bs 0 }
    some (if k = ridx then u.onMd fun m => { m with msix := m.msix ||| 1#2 } else u)

/-- The oldest record is dealt with, once it has come to the launcher (R477). -/
def State.errorStep (s : State) : Option State := match s.md.errq with
  | [] => none
  | r :: rs =>
    let t := s.onMd fun m => { m with errq := rs }
    let hdr := ringHdr s.md.errlog
    let comes : Bool := r.seq.isNone
    if s.md.fatal || comes then none
    else if !ringEn s.md.errlog then some t
    else if s.hostWaits hdr false then none
    else match s.ringHeader hdr with
      | none => some ((t.onMd fun m => { m with errlog := m.errlog &&& ~~~1#64 }).ringRefused 2 0 0 hdr)
      | some n => t.publish r hdr n

def execErrorRecord (s : State) : Out := .next ((s.errorStep).getD s)

/-! ### The module becomes fatal (R488) -/

/-- What the host has sent, on its way to a home. -/
def fromHost : Payload → Bool
  | .host _ | .hostBack _ _ => true
  | _ => false

/-- The host's reads that are in flight or wait for a filter entry. -/
def State.hostAsked (s : State) : List HostReq :=
  ((s.fabric.filterMap fun (p : Packet) => match p.pl with
    | .host r => some r
    | _ => none) ++ s.md.hostWait).filter fun (r : HostReq) => !r.write

/-- The module becomes fatal: the sketchbooks freeze, and the host's requests in flight end like those that come later, reads with 64
poisoned zeros. -/
def State.toFatal (s : State) : State :=
  if s.md.fatal then s
  else
    let t := s.onMd fun m => { m with
      fatal := true, msix := m.msix ||| 2#2, hostWait := [],
      hostReads := (s.hostAsked.map fun (r : HostReq) => (r.hpa, zeros 64, true)).reverse ++ m.hostReads }
    { t with
      fabric := t.fabric.filter fun (p : Packet) => !fromHost p.pl
      stks := t.stks.map fun (q : StackSt) => { q with sketch := { q.sketch with frozen := true } } }

/-- LAUNCHER_ROUTER_ERROR (R488), and the errors of a group's registers, tiles and swatch state (R471): their core goes out
of service once the grid has ended (R485). -/
def execLauncherRouterError (site : ErrSite) (s : State) : Out := match site with
  | .launcher | .router _ => .next s.toFatal
  | .group grid team grp stack core =>
    .next ((s.abort grid 6 0 0 team grp).onMd fun m => { m with retiring := m.retiring ++ [(stack.val, core.val, grid)] })

/-! ### Poison (R203, R466, R467) -/

/-- Grids with a team on the module that run under `asid`. -/
def State.gridsUnder (s : State) (asid : Nat) : List Nat :=
  (s.grids.filter fun (g : Grid) => g.asid == asid && s.teams.any fun (t : Team) => t.grid == g.id && t.st != .ended).map
    fun (g : Grid) => g.id

/-- An uncorrectable codeword of a line: the line is poisoned and reported, and the grids of its owner tag end, once. -/
def State.poisonLine (s : State) (line : Nat) (known scrub : Bool) : State :=
  if s.mem.poison.contains line then s
  else
    let k := homeStack (64 * line)
    let tag := if known then lookupTag s.mem.tags line else 0
    let t := { s with mem := s.mem.setPoison line }
    let u := t.report k 6 0 0 tag 255 0 9
      (bytesLE 8 (64 * line) ++ bytesLE 2 tag ++ bytesLE 1 ((if known then 0 else 1) + (if scrub then 2 else 0)))
    if known then (u.gridsUnder tag).foldl (fun (v : State) g => v.abort g 2 0 0 0 255) u else u

/-- SCRUB_VISIT; an access that finds an uncorrectable codeword marks the line likewise, before it is performed. -/
def execScrubVisit (line : Nat) (found : ScrubFind) (s : State) : Out :=
  let pa := 64 * line
  if homeModule pa ≠ s.modno || isReserved pa then .next s
  else match found with
    | .clean => .next s
    | .corrected => .next (s.note (homeStack pa) 3 9 (lookupTag s.mem.tags line) 0)
    | .uncorrectable known scrub => .next (s.poisonLine line known scrub)

/-- REFRESH_WINDOW (R201): the rows reported swept are skipped until the window ends. -/
def execRefreshWindow (stack : Fin 16) (s : State) : Out := .next (s.onStk stack.val fun q => { q with swept := [] })

/-! ### Links (R15, R486, R487) -/

/-- Whether a link is there: a port at the edge of the mesh has no neighbour (R11). -/
def linkThere : Link → Bool
  | .mervel _ => true
  | .mesh k d => match d.val with
    | 0 => 4 ≤ k.val
    | 1 => k.val % 4 != 3
    | 2 => k.val < 12
    | _ => k.val % 4 != 0

def Link.stack : Link → Nat
  | .mervel n => linkStack n.val
  | .mesh k _ => k.val

/-- The code of a link in a type 7 record (R479). -/
def Link.code : Link → Nat
  | .mervel n => n.val
  | .mesh k d => 16 + 4 * k.val + d.val

/-- Consecutive retries of a link, and whether it retrains. -/
def State.linkState (s : State) (l : Link) : Nat × Bool := ((s.md.links.find? fun x => x.1 == l).map fun x => x.2).getD (0, false)
def State.setLink (s : State) (l : Link) (n : Nat) (retrains : Bool) : State := s.onMd fun m => { m with
  links := (l, n, retrains) :: m.links.filter fun x => x.1 != l }
def State.dropLink (s : State) (l : Link) : State := s.onMd fun m => { m with links := m.links.filter fun x => x.1 != l }

def Link.isDown (s : State) : Link → Bool
  | .mervel n => s.md.downLinks.contains n.val
  | .mesh _ _ => false

/-- The type 7 record of a link. -/
def State.linkRecord (s : State) (l : Link) (kind n : Nat) : State :=
  s.report (Link.stack l) 7 0 0 0 255 0 9 ([BitVec.ofNat 8 (Link.code l), BitVec.ofNat 8 kind] ++ zeros 2 ++ bytesLE 4 n)

/-- LINK_RETRY: one more consecutive retry; a flit that passes ends their count. -/
def execLinkRetry (l : Link) (s : State) : Out :=
  let x := s.linkState l
  if x.2 || Link.isDown s l || !linkThere l then .next s
  else .next ((s.setLink l (x.1 + 1) false).note (Link.stack l) 4 9 0 0)

/-- LINK_RETRAIN: the link retrains after 16 consecutive retries, and its traffic waits. -/
def execLinkRetrain (l : Link) (s : State) : Out :=
  let x := s.linkState l
  if x.1 < 16 || x.2 || Link.isDown s l || !linkThere l then .next s else .next (s.setLink l x.1 true)

def execLinkRetrained (l : Link) (s : State) : Out :=
  let x := s.linkState l
  if x.2 then .next ((s.dropLink l).linkRecord l 0 x.1) else .next s

/-- A grid with a process-group table: its identifier comes from the table (R61, R367). -/
def Grid.spans (g : Grid) : Bool := 2 ^ 31 ≤ g.id

/-- The firmware requests pre-emption of every grid with a process-group table (R487); it keeps those that it has asked for. -/
def State.quiesce (s : State) : State :=
  let ids := ((s.grids.filter fun (g : Grid) => g.spans && !g.preq).map fun (g : Grid) => g.id)
  (ids.foldl (fun (t : State) n => t.askPreq n) s).onMd fun m => { m with quiesced := m.quiesced ++ ids }

/-- A Mervel link that fails to retrain is down. -/
def State.linkFails (s : State) (n : Fin 12) : State :=
  let x := s.linkState (.mervel n)
  if x.2 then
    ((((s.dropLink (.mervel n)).onMd fun m => { m with downLinks := n.val :: m.downLinks }).linkRecord (.mervel n) 1 x.1).quiesce)
  else s

/-- RETRAIN_TIMEOUT: a mesh link that fails to retrain makes the module fatal; a Mervel link is then down. -/
def execRetrainTimeout (l : Link) (s : State) : Out := match l with
  | .mervel n => .next (s.linkFails n)
  | .mesh _ _ => if (s.linkState l).2 && linkThere l then .next s.toFatal else .next s

def execLinkDown (l : Fin 12) (s : State) : Out := .next (s.linkFails l)

/-- Whether every grid with a process-group table is saved. -/
def State.quiet (s : State) : Bool := s.grids.all fun (g : Grid) =>
  !g.spans || g.aborted || s.teams.all fun (t : Team) => t.grid != g.id || t.st != .placed

/-- Whether some route still leads to a link that is down. -/
def State.routesDown (s : State) : Bool := (List.range 64).any fun m => s.routed m && s.md.downLinks.contains (s.routeLink m)

/-- The firmware's requests are withdrawn, once no route leads to a link that is down (R487). -/
def State.unquiesce (s : State) : State :=
  if s.routesDown then s
  else (s.md.quiesced.foldl (fun (t : State) g => t.dropPreq g) s).onMd fun m => { m with quiesced := [] }

/-- ROUTE_REWRITE (R364, R487), once the grids are saved: packets held for the module leave by its new link, or are discarded
where it has none. -/
def execRouteRewrite (m : Fin 64) (v : Bool) (link : Fin 16) (s : State) : Out :=
  if !s.quiet then .next s
  else
    let t := s.onMd fun d => { d with
      routes := vset d.routes m.val (BitVec.ofNat 64 ((if v then 16 else 0) + link.val)) }
    .next t.unquiesce

/-! ### Peers (R493) -/

def execPeerWarmReset (m : Fin 64) (s : State) : Out :=
  if m.val = s.modno || s.md.peersDown.contains m.val then .next s
  else .next (s.onMd fun d => { d with peersDown := m.val :: d.peersDown })

def execPeerReady (m : Fin 64) (s : State) : Out :=
  .next (s.onMd fun d => { d with peersDown := d.peersDown.filter (· != m.val) })

/-! ### Limits (R490) -/

/-- Whether a reading meets the condition of a row. -/
def limitMet (row : Nat) (x : Sensor) (reading : Nat) : Bool := match row, x with
  | 0, .temp => 95 ≤ reading
  | 1, .temp => 105 ≤ reading
  | 2, .current => 250 < reading
  | 3, .inlet => 40 < reading
  | 3, .flow => reading < 60
  | 4, .temp => 115 ≤ reading
  | 4, .supply => reading < 48 || 58 < reading
  | _, _ => false

/-- Whether a reading lifts a row: for row 3 the inlet's temperature, with the flow, both within R379 for 10 s. Row 4 holds until
a cold reset. -/
def liftMet (row reading flow : Nat) : Bool := match row with
  | 0 => reading < 90
  | 1 => reading < 95
  | 2 => reading < 230
  | 3 => 18 ≤ reading && reading ≤ 40 && 60 ≤ flow
  | _ => false

/-- The stacks that a row is entered for: row 3 names the module. -/
def limitStacks (k row : Nat) : List Nat := if row = 3 then List.range 16 else [k]

/-- The rows in force on the stacks of a row change, and the responses with them. -/
def State.onLimits (s : State) (k row : Nat) (f : List Nat → List Nat) : State :=
  (limitStacks k row).foldl (fun (t : State) j =>
    let u := t.onStk j fun q => { q with limits := f q.limits }
    let top := (u.stk j).topLimit
    if top = (t.stk j).topLimit then u else u.limitActs j top) s

/-- SENSOR_LIMIT: entry into a row, with its type 8 record; row 4 makes the module fatal (R488). Event 5 of row 3, which is the
module's, enters the sketchbook of the stack that reports it (DESIGN CHOICE, log entry 89). -/
def execSensorLimit (stack : Fin 16) (row : Fin 5) (reading : SensorReading) (s : State) : Out :=
  let k := stack.val
  if !limitMet row.val reading.sensor reading.value || (s.stk k).limits.contains row.val || s.md.fatal then .next s
  else
    let t := s.onLimits k row.val fun l => row.val :: l
    let u := (t.note k 5 9 0 0).report k 8 0 0 0 255 0 9 ([BitVec.ofNat 8 row.val, 0#8] ++ bytesLE 2 reading.value)
    .next (if row.val = 4 then u.toFatal else u)

/-- LIMIT_LIFTED. -/
def execLimitLifted (stack : Fin 16) (row : LiftReading) (s : State) : Out :=
  let k := stack.val
  let r := row.row.val
  if !liftMet r row.value row.flow || !(s.stk k).limits.contains r then .next s
  else .next ((s.onLimits k r fun l => l.filter (· != r)).note k 5 9 0 0)

/-! ### Results and undecodable words (R70, R113) -/

/-- RESULT_LANDING: the results of a split that are due land. -/
def execResultLanding (split : Nat) (s : State) : Out := .next (s.withSplit split State.landDue)

def illDetail : IllKind → Nat
  | .opcode => 0 | .length => 1 | .sub => 2 | .unary => 3

/-- UNASSIGNED_OPCODE: ILLEGAL of the issue kind at the word. -/
def execUnassignedOpcode (k : IllKind) (s : State) : Out := .next (s.raise (s.trapHere .illegal (illDetail k)))

end Sys2Proof.Machine
end

