-- ==== Sys2Proof/Machine/MemoryOps.lean ====
section
/-! DEFINITION. Machine/MemoryOps.lean: the memory and migration instructions and the fences (R204 to R223). -/

namespace Sys2Proof.Machine

/-- An operation of a lane instruction with its addresses and data (R204, R389). -/
def State.laneOp (s : State) (i : Instr) (h : Hd) (k : Option Tok) (a : Acc) : Op :=
  { s.newOp i h k with
    kind := .access, scap := s.scapOf i,
    addr := Vector.ofFn fun l : Fin 32 => s.addrAt a.m a.sz l.val,
    data := Vector.ofFn fun l : Fin 32 => s.dataAt i l.val }

/-- An access instruction: `rd` are the data registers that it reads beside those of its address. -/
def State.laneAccess (s : State) (i : Instr) (h : Hd) (m : Addr) (rd : List Rd) (rel acq : Bool) (k : Tok) : Out :=
  s.access i h { reads := rdAddr m ++ rd, tok := some k } rel acq fun t => match Acc.of i with
    | some a => t.laneOp i h (some k) a
    | none => t.newOp i h (some k)

/-- The data registers of a store (R205, R206). -/
def storeReads (sh : Shape) (ty : MTy) (c : Fin 64) : List Rd := match sh with
  | .scal => [.s c.val]
  | .lane | .quad => [.v c.val (regsOf (sh.size ty))]

/-- R211. -/
def execLd (h : Hd) (m : Addr) (sh : Shape) (ty : MTy) (d : Fin 64) (acq : Option Scope) (k : Tok) (s : State) : Out :=
  s.laneAccess (.ld h m sh ty d acq k) h m [] false acq.isSome k
def execSt (h : Hd) (m : Addr) (sh : Shape) (ty : MTy) (c : Fin 64) (rel : Option Scope) (k : Tok) (s : State) : Out :=
  s.laneAccess (.st h m sh ty c rel k) h m (storeReads sh ty c) rel.isSome false k
/-- R212. -/
def execLdg (h : Hd) (m : Addr) (sh : Shape) (ty : MTy) (d : Fin 64) (acq : Option Scope) (k : Tok) (live : Dword)
    (s : State) : Out :=
  s.laneAccess (.ldg h m sh ty d acq k live) h m [] false acq.isSome k
def execStg (h : Hd) (m : Addr) (sh : Shape) (ty : MTy) (c : Fin 64) (rel : Option Scope) (k : Tok) (live : Dword)
    (s : State) : Out :=
  s.laneAccess (.stg h m sh ty c rel k live) h m (storeReads sh ty c) rel.isSome false k

/-- R215. -/
def execAtg (h : Hd) (m : Addr) (op : AtOp) (ty : MTy) (sat : Bool) (d c : VReg) (o : Ord) (k : Tok) (live : Dword)
    (s : State) : Out :=
  s.laneAccess (.atg h m op ty sat d c o k live) h m [.v c.val (atomicRegs op ty)] o.rel o.acq k
/-- R216. -/
def execLrg (h : Hd) (m : Addr) (ty : MTy) (d : VReg) (acq : Option Scope) (k : Tok) (live : Dword) (s : State) : Out :=
  s.laneAccess (.lrg h m ty d acq k live) h m [] false acq.isSome k
/-- R217. -/
def execScg (h : Hd) (m : Addr) (ty : MTy) (d c : VReg) (o : Ord) (k : Tok) (live : Dword) (s : State) : Out :=
  s.laneAccess (.scg h m ty d c o k live) h m [.v c.val (regsOf ty.size)] o.rel o.acq k

/-! ### Posts (R219) -/

/-- The operation of a post with its translated addresses, and its lowest faulting lane (R458). -/
def State.postOp (s : State) (i : Instr) (h : Hd) : Op × Option (TClass × Nat) := match Acc.of i with
  | none => (s.newOp i h none, none)
  | some a =>
    let o := s.laneOp i h none a
    let p := (s.active h).list.foldl (fun (x : Op × Option (TClass × Nat)) l =>
      match s.xl a.rd a.wr a.sz (vget o.addr l 0#64) with
      | .error c => (x.1, match x.2 with | some y => some y | none => some (c, l))
      | .ok y => ({ x.1 with pa := vset x.1.pa l y.pa, pois := vset x.1.pois l y.pois }, x.2)) (o, none)
    p

def State.posting (s : State) (i : Instr) (h : Hd) (m : Addr) (rd : List Rd) (rel : Bool) : Out :=
  let f := (s.postOp i h).2
  s.access i h { reads := rdAddr m ++ rd, chk := f.map fun x => (x.1, 1), arg := (f.map fun x => x.2).getD 0 } rel false
    fun t => (t.postOp i h).1

def execStp (h : Hd) (m : Addr) (ty : MTy) (c : VReg) (rel : Option Scope) (s : State) : Out :=
  s.posting (.stp h m ty c rel) h m [.v c.val (regsOf ty.size)] rel.isSome
def execAtp (h : Hd) (m : Addr) (op : AtOp) (ty : MTy) (sat : Bool) (c : VReg) (rel : Option Scope) (s : State) : Out :=
  s.posting (.atp h m op ty sat c rel) h m [.v c.val (atomicRegs op ty)] rel.isSome

/-! ### The compressed form (R220, R221) -/

/-- The operation of `ldz` or `stz`: base address, extent, and for `stz` the form that it writes. -/
def State.zOp (s : State) (i : Instr) (h : Hd) (k : Tok) (a b : SReg) (form : List Byte) : Op :=
  { s.newOp i h (some k) with
    kind := .access, addr := vset (Vector.replicate 32 0#64) 0 (s.s a), scap := [s.s b], blob := form }

def execLdz (h : Hd) (d : VReg) (a b : SReg) (ty : MTy) (n : Word) (acq : Option Scope) (k : Tok) (s : State) : Out :=
  s.access (.ldz h d a b ty n acq k) h { reads := [rdS a, rdS b], tok := some k } false acq.isSome
    fun t => t.zOp (.ldz h d a b ty n acq k) h k a b []
def execStz (h : Hd) (d a b : SReg) (c : VReg) (ty : MTy) (n : Word) (rel : Option Scope) (k : Tok) (s : State) : Out :=
  s.access (.stz h d a b c ty n rel k) h
    { reads := [rdS a, rdS b, .v c.val (ceilDiv n.toNat (32 * (4 / ty.size)))], tok := some k } rel.isSome false
    fun t => t.zOp (.stz h d a b c ty n rel k) h k a b (t.packForm c ty n.toNat (t.active h))

/-! ### Fences (R222, R223) -/

/-- A wait that ends the run: the next run starts after the instruction. -/
def State.fencing (s : State) (i : Instr) (steps : List WaitStep) : State :=
  s.endRun.await steps (.goto (s.me.pc + BitVec.ofNat 64 i.bytes))

def execFence (h : Hd) (f : FenceKind) (sc : Scope) (s : State) : Out :=
  s.gate (.fence h f sc) h {} fun t => t.fencing (.fence h f sc) (match f with
    | .full | .rel => releaseWaits
    | .acq => [.toks 0xFF#8])

def execPfence (h : Hd) (s : State) : Out :=
  s.gate (.pfence h) h {} fun t =>
    if t.me.postloc = 0#16 ∧ t.me.postmod = 0#64 then t.retire h (Instr.pfence h).bytes
    else t.fencing (.pfence h) [.probe, .answers]

end Sys2Proof.Machine
end

