-- ==== Sys2Proof/Machine/System.lean ====
section
/-! DEFINITION. Machine/System.lean: special registers (R23, R142, R143, R394), the instruction cache (R144), and the privileged
instructions (R145 to R148, R194, R412, R413). -/

namespace Sys2Proof.Machine

/-! ### Special registers -/

/-- A lane register (R142). -/
def State.laneReg (s : State) (r : SpecReg) : Lanes := match r with
  | .qtr => lanesOf fun l => BitVec.ofNat 32 (l / 8)
  | .seed => s.me.seeds
  | _ => lanesOf fun l => BitVec.ofNat 32 l

/-- TRAPINFO as it reads: PRIVM and INH are the split's own (R394). LATCH keeps its value of the trap, also when a forced
pre-emption is latched later on (DESIGN CHOICE, log entry 83). -/
def State.trapReg (s : State) : Dword :=
  (s.me.trapinfo &&& 0x3FFFFFFFFFFFFFFF#64) ||| (if s.me.priv then 1#64 <<< 63 else 0#64)
    ||| (if s.me.inHandler then 1#64 <<< 62 else 0#64)

/-- The energy count of a grid on stack `k` (R375). -/
def State.energyOf (s : State) (k grid : Nat) : Nat := ((((s.stk k).energy.find? fun e => e.1 == grid)).map fun e => e.2).getD 0

/-- A split register (R23, R142). -/
def State.splitReg (s : State) (r : SpecReg) : Dword := match r with
  | .split => BitVec.ofNat 64 s.me.num
  | .grp => BitVec.ofNat 64 s.gr.grp
  | .team => BitVec.ofNat 64 s.gr.team
  | .grid => BitVec.ofNat 64 s.gr.grid
  | .home => BitVec.ofNat 64 (s.locOf s.me.stack)
  | .base => BitVec.ofNat 64 (s.locOf s.gr.base)
  | .cycle => BitVec.ofNat 64 s.myCore.cycle
  | .energy => BitVec.ofNat 64 (s.energyOf s.me.stack s.gr.grid)
  | .throttle => BitVec.ofNat 64 (s.myCore.kstep % 16)
  | .preq => if s.me.preq then 1#64 else 0#64
  | .mstep => s.me.mstep
  | .trapinfo => s.trapReg
  | .act => BitVec.ofNat 64 s.me.act.toNat
  | .exited => BitVec.ofNat 64 s.me.exited.toNat
  | .lane | .qtr | .seed => 0#64

def isLaneReg : SpecReg → Bool
  | .lane | .qtr | .seed => true
  | _ => false

/-- R143. -/
def execSget (h : Hd) (r : SpecReg) (d : Fin 64) (s : State) : Out :=
  s.alu (.sget h r d) h {} 4 fun t =>
    if isLaneReg r then [.v (t.phys d) (t.active h) (t.laneReg r)] else [.s d.val (t.splitReg r)]

/-- R143, R412: outside privileged mode TRAPINFO raises PRIV. -/
def execSput (h : Hd) (r : SpecReg) (a : SReg) (s : State) : Out :=
  if r = .trapinfo ∧ s.me.priv = false then .next (s.raise (s.trapHere .priv 0))
  else if r ≠ .trapinfo ∧ r ≠ .mstep then .next (s.raise (s.trapHere .illegal 5))
  else s.gate (.sput h r a) h { reads := [rdS a] } fun t =>
    let ws : List Wr := if r = .mstep then [.mstep (t.s a)] else [.trapinfo (t.s a)]
    ((t.noteWrites ws).land 4 ws).retire h (Instr.sput h r a).bytes

/-! ### The instruction cache (R144) -/

/-- What is done to each line. -/
inductive IcAct
  | pre | pin | free
  deriving DecidableEq, Repr

/-- The lines that a core may pin. -/
def pinLimit : Nat := 2048

/-- One line of a core's cache; a line that does not translate for execute, or that is poisoned, is skipped, whatever its poison
policy (R471; DESIGN CHOICE, log entry 82). Under POIS 1 the read is logged (R187). -/
def State.icLine (s : State) (k c asid grid : Nat) (act : IcAct) (va : Nat) : State :=
  match xlate s k c asid ⟨false, false, true, false⟩ 1 (BitVec.ofNat 64 va) with
  | .error _ => s
  | .ok x =>
    let line := lineOf x.pa
    let q := (s.core k c).icache
    let room : Bool := (q.filter fun (l : ILine) => l.pin.isSome).length < pinLimit
    let set (p : Option Nat) : State := s.onCore k c fun y => { y with
      icache := y.icache.map fun (l : ILine) => if l.line = line then { l with pin := p } else l }
    match q.find? fun (l : ILine) => l.line == line with
    | some l => match act with
      | .pre => s
      | .pin => if l.pin.isNone && room then set (some grid) else s
      | .free => if l.pin = some grid then set none else s
    | none =>
      if act = .free then s
      else if s.mem.poisoned x.pa then s.logPois x.pa x.pois
      else s.onCore k c fun y => { y with
          icache := icInsert ⟨line, s.mem.read x.pa 64, if act = .pin && room then some grid else none⟩ y.icache }

/-- The cores of a level, with their stacks. -/
def State.icCores (s : State) : IcLevel → List (Nat × Nat)
  | .core => [(s.me.stack, s.me.core)]
  | .stk => (List.range 8).map fun c => (s.me.stack, c)
  | .mod => ((List.range 16).map fun k => (List.range 8).map fun c => (k, c)).flatten

/-- Every line that overlaps `[va, va + len)`, in the caches of the level. -/
def State.icRange (s : State) (lvl : IcLevel) (act : IcAct) (va len : Nat) : State :=
  let lines := if len = 0 then [] else (List.range ((va + len - 1) / 64 - va / 64 + 1)).map fun i => 64 * (va / 64 + i)
  lines.foldl (fun t x => (t.icCores lvl).foldl (fun (u : State) q => u.icLine q.1 q.2 s.me.asid s.gr.grid act x) t) s

def State.icOp (s : State) (i : Instr) (h : Hd) (lvl : IcLevel) (act : IcAct) (a : SReg) (len : Word) : Out :=
  s.gate i h { reads := [rdS a] } fun t => (t.icRange lvl act (t.s a).toNat len.toNat).retire h i.bytes

def execIcpre (h : Hd) (lvl : IcLevel) (a : SReg) (len : Word) (s : State) : Out :=
  s.icOp (.icpre h lvl a len) h lvl .pre a len
def execIcpin (h : Hd) (lvl : IcLevel) (a : SReg) (len : Word) (s : State) : Out :=
  s.icOp (.icpin h lvl a len) h lvl .pin a len
def execIcfree (h : Hd) (lvl : IcLevel) (a : SReg) (len : Word) (s : State) : Out :=
  s.icOp (.icfree h lvl a len) h lvl .free a len

/-! ### Privileged forms (R145 to R148) -/

/-- The issue of a privileged form: outside privileged mode it raises PRIV whatever its guard (R113). -/
def State.gateP (s : State) (i : Instr) (h : Hd) (n : Need8) (body : State → State) : Out :=
  if s.me.priv then s.gate i h n body else .next (s.raise (s.trapHere .priv 0))

/-- The failed check of an address of a privileged form (R412, R458). -/
def privChk {α : Type} (wr : Bool) (e : Except TClass α) : Chk := match e with
  | .ok _ => none
  | .error c => if (privClass c).2 = 5 then some (privClass c) else some ((privClass c).1, if wr then 1 else 0)

/-- `n` stack entries from `va` up, translated: at least the first. -/
def State.xlEntries (s : State) (wr : Bool) (va : Dword) (n : Nat) : Except TClass (List (Nat × Nat)) :=
  (List.range (Nat.max n 1)).foldr (fun i (r : Except TClass (List (Nat × Nat))) =>
    match s.xlLocal (!wr) wr 16 (va + BitVec.ofNat 64 (16 * i)), r with
    | .error c, _ => .error c
    | .ok _, .error c => .error c
    | .ok x, .ok l => .ok ((x.pa, x.pois) :: l)) (.ok [])

/-- What `stkfill` has read (R145): the addresses, the words of the entries, whether poison has ended it, and whether an
earlier access of the split has to come first. -/
structure Fill where
  pas : List (Nat × Nat)
  words : List Byte
  poisoned : Bool
  blocked : Bool
  deriving DecidableEq, Repr

/-- The entries that `stkfill` reads, translated and read one by one: it stops at the `n`-th, and at one of KIND 0. -/
def State.fillScan (s : State) (va : Dword) (f : Fill) : Nat → Except TClass Fill
  | 0 => .ok f
  | n + 1 => match s.xlLocal true false 16 va with
    | .error c => .error c
    | .ok x =>
      let g := { f with pas := f.pas ++ [(x.pa, x.pois)] }
      if s.readLater x.pa 16 then .ok { f with blocked := true }
      else match s.readHome x.pa 16 x.pois with
        | none => .ok { g with poisoned := true }
        | some w =>
          if bitsOf w 59 58 = 0 then .ok g else s.fillScan (va + 16#64) { g with words := f.words ++ bytesLE 16 w } n

/-- What `stkfill` reads at `va`, of at most `n` entries; with none to read, its first address is checked all the same. -/
def State.fill (s : State) (va : Dword) (n : Nat) : Except TClass Fill :=
  if n = 0 then (s.xlLocal true false 16 va).map fun _ => ⟨[], [], false, false⟩
  else s.fillScan va ⟨[], [], false, false⟩ n

/-- The entries that `stkspill` stores, at most. -/
def State.spillCount (s : State) (n : Word) : Nat := Nat.min n.toNat s.own.length
/-- The room that `stkfill` finds, at most. -/
def State.fillCount (s : State) (n : Word) : Nat := Nat.min n.toNat (32 - s.win.entries.length)

/-- The operation with the physical addresses of its entries. -/
def Op.withPas (o : Op) (pas : List (Nat × Nat)) : Op :=
  { o with pa := Vector.ofFn fun i : Fin 32 => (pas.getD i.val (0, 0)).1,
           pois := Vector.ofFn fun i : Fin 32 => (pas.getD i.val (0, 0)).2, cidx := BitVec.ofNat 64 pas.length }

def okPas (e : Except TClass (List (Nat × Nat))) : List (Nat × Nat) := match e with
  | .ok l => l
  | .error _ => []

/-- The operation of a privileged form, whose accesses follow those of the earlier operations (R230). -/
def State.privOp (s : State) (i : Instr) (h : Hd) (k : Tok) : Op :=
  { s.newOp i h (some k) with after := s.me.ops.map fun (e : Op) => e.id }

/-- R145. -/
def execStkspill (h : Hd) (d a : SReg) (n : Word) (k : Tok) (s : State) : Out :=
  let e := s.xlEntries true (s.s a) (s.spillCount n)
  s.gateP (.stkspill h d a n k) h { reads := [rdS a], tok := some k, chk := privChk true e } fun t =>
    (t.spoil.issue ((t.privOp (.stkspill h d a n k) h k).withPas ((okPas e).take (t.spillCount n)))).retire h
      (Instr.stkspill h d a n k).bytes
def execStkfill (h : Hd) (d a : SReg) (n : Word) (k : Tok) (s : State) : Out :=
  let e := s.fill (s.s a) (s.fillCount n)
  s.gateP (.stkfill h d a n k) h { reads := [rdS a], tok := some k, chk := privChk false e } fun t => match e with
    | .error _ => t
    | .ok f =>
      if f.blocked then t.stall
      else
        let u := f.pas.foldl (fun (v : State) x => v.logPois x.1 x.2) t
        let o := { t.privOp (.stkfill h d a n k) h k with blob := f.words, late := if f.poisoned then some 0 else none }
        (u.spoil.issue o).retire h (Instr.stkfill h d a n k).bytes

/-- The lines of an image of the split (R146). -/
def State.imageLines (s : State) : Nat := 16 + 2 * (s.me.wbase + s.me.frame)

/-- R146: the image is that of the instant at which its tokens have drained; the physical addresses are those of the issue.
R127 says all tokens, R146 all but K: K is not waited for (DESIGN CHOICE, log entry 75). -/
def execCtxsv (h : Hd) (d a : SReg) (k : Tok) (s : State) : Out :=
  let e := s.xlLines true (s.s a) s.imageLines
  s.gateP (.ctxsv h d a k) h { reads := [rdS a], tok := some k, chk := privChk true e } fun t =>
    let pas := okPas e
    let room := ((65536 - (t.s a).toNat % 65536) / 64)
    let o := { t.newOp (.ctxsv h d a k) h (some k) with
      addr := vset (Vector.replicate 32 0#64) 0 (t.s a),
      pa := vset (vset (Vector.replicate 32 0) 0 (pas.getD 0 (0, 0)).1) 1 (pas.getD room (0, 0)).1 }
    t.spoil.await [.toks (0xFF#8 &&& ~~~(1#8 <<< k.val))] (.ctxsv o)

/-- R147. The room for the image's entries is the last check of R409. -/
def execCtxld (h : Hd) (a : SReg) (s : State) : Out :=
  let chk : Chk := match s.fetchImage (s.s a) with
    | .ok _ | .error (.stack, _) => none
    | .error x => some x
  s.gateP (.ctxld h a) h { reads := [rdS a], chk := chk } fun t => match t.fetchImage (t.s a) with
    | .error (.stack, d) => t.raise (t.trapHere .stack d)
    | _ => t.await [.toks 0xFF#8] (.ctxld (t.s a))

/-! ### `tlbi` (R148, R192, R194) -/

def tlbMatches (v : TlbiVar) (asid va : Nat) (t : Tlb) : Bool := match v with
  | .page => t.hit asid va
  | .asid => t.asid == asid
  | .all => true

/-- The table entries that go with it: those of the walk path of a page (R192). -/
def walkMatches (v : TlbiVar) (asid va : Nat) (w : WalkEntry) : Bool := match v with
  | .page => w.at' asid w.level va
  | .asid => w.asid == asid
  | .all => true

/-- Whether a line lies on the page of a leaf, as stack `k` maps it. -/
def State.onPage (s : State) (k : Nat) (f : Leaf) (line : Nat) : Bool :=
  let base := f.pa s k 0
  lineOf base ≤ line && line < lineOf (base + 2 ^ levelLo f.level)

/-- Every cache of the module drops its matching translations, and the lines of the code pages so dropped. -/
def State.invalidate (s : State) (v : TlbiVar) (asid va : Nat) : State :=
  (List.range 16).foldl (fun (t : State) k =>
    t.onStk k fun q =>
      let cached := (q.tlb ++ (q.cores.toList.map fun (c : Core) => c.tlb).flatten).filter (tlbMatches v asid va)
      let walked : List Leaf := match v, walk t k asid va with
        | .page, .ok f => [f]
        | _, _ => []
      let leaves := (cached.map fun (x : Tlb) => (⟨x.leaf.toNat, x.level⟩ : Leaf)) ++ walked
      let goes (l : ILine) : Bool := leaves.any (fun f => s.onPage k f l.line) || match v with
        | .page => false
        | .asid => match l.pin with
          | none => true
          | some g => (s.grid? g).any fun (x : Grid) => x.asid == asid
        | .all => true
      { q with
        tlb := q.tlb.filter fun x => !tlbMatches v asid va x,
        walks := q.walks.filter fun w => !walkMatches v asid va w,
        cores := q.cores.map fun (c : Core) => { c with
          tlb := c.tlb.filter fun x => !tlbMatches v asid va x, icache := c.icache.filter fun l => !goes l } }) s

/-- The accesses translated before it that a `tlbi` waits for: operations and copy packets of the address space, by id. -/
def State.tlbiWaits (s : State) (v : TlbiVar) (asid : Nat) : List Nat :=
  let mine (x : Nat) : Bool := v == .all || x == asid
  ((s.allSplits.filter fun (w : Split) => mine w.asid).map fun (w : Split) => w.ops.map fun (o : Op) => o.id).flatten
    ++ (s.stks.toList.map fun (q : StackSt) => (q.chans.toList.map fun (c : CopyChan) =>
        (c.jobs.filter fun (j : CopyJob) => mine (cAsid' j.words)).map fun (j : CopyJob) => j.no).flatten).flatten
where
  /-- The ASID of a copy packet (R261). -/
  cAsid' (w : Vector Dword 8) : Nat := bitsOf (vget w 0 0#64).toNat 25 16

/-- R148. -/
def execTlbi (h : Hd) (v : TlbiVar) (dom : Bool) (a b : SReg) (k : Tok) (s : State) : Out :=
  s.gateP (.tlbi h v dom a b k) h { reads := [rdS a, rdS b], tok := some k } fun t =>
    let asid := (t.s a).toNat % 1024
    let o := { t.newOp (.tlbi h v dom a b k) h (some k) with
      kind := .tlbi, scap := [t.s a], cidx := BitVec.ofNat 64 t.nextId, after := t.tlbiWaits v asid }
    ((t.spoil.invalidate v asid (t.s b).toNat).issue o).retire h (Instr.tlbi h v dom a b k).bytes

end Sys2Proof.Machine
end

