-- ==== Sys2Proof/Machine/Power.lean ====
section
/-! DEFINITION. Machine/Power.lean: the throttle and the ramp (R372 to R374, R490), energy (R375), reservations and holdoffs that
run out (R216, R218), table walks (R190), power states (R370, R371), bring-up (R494), and host accesses (R358 to R360, R489). -/

namespace Sys2Proof.Machine

/-! ### Throttle and ramp -/

/-- RU (R374). -/
def State.ru (s : State) : Nat := s.md.ramp.toNat % 2 ^ 16

/-- Whether a core's ramp interval ends on this cycle, and its ramp step is still to come. -/
def Core.rampDue (c : Core) (ru : Nat) : Bool := c.cycle % (8 * ru) == 0 && c.cycle != c.rampAt

/-- The ramp level rises after an interval in which the array queue held work, and falls after another. -/
def Core.rampStep (c : Core) : Core :=
  { c with ramp := if c.busy then Nat.min 8 (c.ramp + 1) else c.ramp - 1, busy := !c.queue.isEmpty, rampAt := c.cycle }

def execRampInterval (stack : Fin 16) (core : Fin 8) (s : State) : Out :=
  .next (s.onCore stack.val core.val fun c => if c.rampDue s.ru then c.rampStep else c)

/-- HSTEP_FALL (R373): the flux estimate of a core is above 300 W/cm². HSTEP falls, and again each 512 cycles. -/
def execHstepFall (stack : Fin 16) (core : CoreFlux) (s : State) : Out :=
  .next (s.onCore stack.val core.core.val fun c =>
    if core.flux ≤ 300 then { c with hotAt := none }
    else
      let waits : Bool := c.hotAt.any fun t => c.cycle < t + 512
      if waits then { c with coolAt := none }
      else { c with coolAt := none, hotAt := some c.cycle, hstep := Nat.max 1 (c.hstep - 1) })

/-- Whether a hardware row of R490 holds HSTEP at 1, and so keeps it from rising. -/
def StackSt.riseHeld (t : StackSt) (hstep : Nat) : Bool := t.topLimit == some 1 || t.topLimit == some 2 && hstep == 1

/-- HSTEP_RISE (R373): the flux estimate of a core is below 270 W/cm². HSTEP rises each 4,096 cycles for which it has been so. -/
def execHstepRise (stack : Fin 16) (core : CoreFlux) (s : State) : Out :=
  .next (s.onCore stack.val core.core.val fun c =>
    if 270 ≤ core.flux then { c with coolAt := none }
    else match c.coolAt with
      | none => { c with hotAt := none, coolAt := some c.cycle }
      | some t =>
        if c.cycle < t + 4096 then { c with hotAt := none }
        else { c with
          hotAt := none, coolAt := some c.cycle,
          hstep := if (s.stk stack.val).riseHeld c.hstep then c.hstep else Nat.min 8 (c.hstep + 1) })

/-- FSTEP_UPDATE (R369, R372): 1 to 8, at most 4 while the response of row 3 applies, and no rise while that of row 0 does
(R490). -/
def execFstepUpdate (stack : Fin 16) (core : Fin 8) (step : Fin 9) (s : State) : Out :=
  let top := (s.stk stack.val).topLimit
  if step.val = 0 || 4 < step.val && top == some 3 || (s.core stack.val core.val).fstep < step.val && top == some 0 then .next s
  else .next (s.onCore stack.val core.val fun c => { c with fstep := step.val })

/-! ### Energy (R375) -/

/-- Grids with a count on a stack, and those with a split there. -/
def State.gridsAt (s : State) (k : Nat) : List Nat :=
  (((s.stk k).energy.map fun e => e.1) ++ (s.allSplits.filter fun (w : Split) => w.resident && w.stack == k).filterMap
    fun (w : Split) => (s.group? w.group).map fun (g : Group) => g.grid).eraseDups

/-- ENERGY_CHARGE, where it is due, which it is every 1,024 cycles: the metered amounts of the interval, for the grids with work
on the stack, which get a count with the first of them. -/
def execEnergyCharge (stack : Fin 16) (amounts : List (Nat × Nat)) (idle : Nat) (s : State) : Out :=
  let k := stack.val
  let more (g : Nat) : Nat := ((amounts.filter fun a => a.1 == g).map fun a => a.2).sum
  if !(s.stk k).charge then .next s
  else .next { (s.onStk k fun q => { q with
    charge := false, energy := (s.gridsAt k).map fun g => (g, (s.energyOf k g + more g) % 2 ^ 64),
    idleEnergy := q.idleEnergy + idle }) with fresh := s.fresh + amounts.length + 1 }

/-- The charge that a stack makes by itself: the metered amounts are free values. -/
def State.chargeOf (s : State) (k : Nat) : Instr :=
  .energyCharge (Fin.ofNat 16 k)
    ((s.gridsAt k).mapIdx fun i g => (g, (Config.freeWord (s.fresh + 1 + i)).toNat)) (Config.freeWord s.fresh).toNat

/-! ### What runs out on a stack (R216, R218) -/

def resvAge : Nat := 4096
def holdAge : Nat := 256

def StackSt.resvOut (t : StackSt) (r : Resv) : Bool := r.since + resvAge ≤ t.clock
def StackSt.holdOut (t : StackSt) (r : Resv) : Bool := r.hold && r.since + holdAge ≤ t.clock

/-- RESERVATION_EXPIRY and HOLDOFF_EXPIRY of reservation `n`, where its time has come. -/
def execReservationExpiry (n : Nat) (s : State) : Out :=
  .next { s with stks := s.stks.map fun (q : StackSt) => { q with
    resv := q.resv.filter fun (r : Resv) => !(r.no == n && q.resvOut r) } }
def execHoldoffExpiry (n : Nat) (s : State) : Out :=
  .next { s with stks := s.stks.map fun (q : StackSt) => { q with
    resv := q.resv.map fun (r : Resv) => if r.no = n && q.holdOut r then { r with hold := false } else r } }

/-! ### TABLE_WALK (R190) -/

/-- A walk leaves its leaf in the core's cache and in the stack's translation unit, and there the table entries of its path. -/
def execTableWalk (stack : Fin 16) (core : Fin 8) (asid : Nat) (va : Dword) (s : State) : Out :=
  if 2 ^ 57 ≤ va.toNat || 1024 ≤ asid then .next s
  else
    let r := walkPath s stack.val asid va.toNat
    let kept := s.onStk stack.val fun q => { q with walks := fillWalks q.walks r.1 asid va.toNat }
    match r.2 with
    | .error _ => .next kept
    | .ok f =>
      let t := kept.onCore stack.val core.val fun c => { c with tlb := (fillTlb c.tlb asid va.toNat f).take 512 }
      .next (t.onStk stack.val fun q => { q with tlb := (fillTlb q.tlb asid va.toNat f).take 65536 })

/-! ### Power states (R370, R371) -/

/-- Nothing but RIDX's slot not being valid: a ring that is served is empty. -/
def State.ringIdle (s : State) (served rewritten : Bool) (hdr n : Nat) : Bool :=
  !rewritten && (!served || match s.ringSlot hdr n with
    | .notYet => true
    | .poisoned _ | .packet _ _ => false)

/-- The entry condition of a state on a stack; A3's is that of the module. -/
def State.mayRest (s : State) (k : Nat) : Nat → Bool
  | 0 => true
  | n + 1 =>
    let q := s.stk k
    let a1 : Bool := ((List.range 8).all fun c => (s.splitsOn k c).isEmpty && (s.core k c).queue.isEmpty)
      && q.arrivals.isEmpty
      && q.chans.toList.all fun (c : CopyChan) => c.jobs.isEmpty && s.ringIdle c.served c.rewritten c.hdr c.logn
    let a2 : Bool := s.teams.all fun (t : Team) => t.base != k || t.st == .ended
    let a3 : Bool := (s.md.rings.toList.all fun (r : Ring) => s.ringIdle r.served r.rewritten r.hdr r.logn)
      && (s.stks.toList.all fun (x : StackSt) => x.tracker.isEmpty) && s.md.inbound.isEmpty
      && s.fabric.all fun (p : Packet) => p.src < 16 && p.dst < 16
    s.mayRest k n && (match n with
      | 0 => a1
      | 1 => a2
      | _ => a3)

/-- Exit latency of a state, in microseconds. -/
def exitLatency : Nat → Nat
  | 0 => 0 | 1 => 1 | 2 => 50 | _ => 2000

/-- The deepest state whose exit latency is tolerated and whose entry condition holds; TOL 0 keeps A0. -/
def State.restState (s : State) (k : Nat) : Nat :=
  let tol := s.md.lattol.toNat
  let ok (n : Nat) : Bool := exitLatency n ≤ tol && (if n = 3 then (List.range 16).all fun j => s.mayRest j 3 else s.mayRest k n)
  ([3, 2, 1].find? ok).getD 0

/-- A stack takes a state; event 7 enters its sketchbook. -/
def State.setPower (s : State) (k n : Nat) : State :=
  (s.onStk k fun q => { q with pstate := n, waking := false }).note k 7 9 0 0

/-- POWER_STATE_ENTRY: the deepest allowed state; A3 applies to the whole module. A3 comes after the samples that
are due (R377). A stack in a deeper one than that exits from it first. -/
def State.powerStep (s : State) (k n : Nat) : Option State :=
  if s.restState k != n || (s.stk k).pstate == n || (s.stk k).waking then none
  else if n = 3 && s.stks.toList.any fun (q : StackSt) => !q.samples.isEmpty then none
  else if n < (s.stk k).pstate then some (s.onStk k fun q => { q with waking := true })
  else some (if n = 3 then (List.range 16).foldl (fun (t : State) j => t.setPower j 3) s else s.setPower k n)

def execPowerStateEntry (stack : Fin 16) (st : Fin 4) (s : State) : Out := .next ((s.powerStep stack.val st.val).getD s)

/-- STACK_WAKE. -/
def execStackWake (stack : Fin 16) (s : State) : Out :=
  .next (if (s.stk stack.val).pstate = 0 then s else s.onStk stack.val fun q => { q with waking := true })

/-- POWER_STATE_EXIT of a stack that a request has woken; the others of a module in A3 are then in A2. -/
def State.wakeUp (s : State) (k : Nat) : State :=
  if (s.stk k).waking then
    ({ s with stks := s.stks.map fun (q : StackSt) => if q.pstate = 3 then { q with pstate := 2 } else q }).setPower k 0
  else s

def execPowerStateExit (stack : Fin 16) (s : State) : Out := .next (s.wakeUp stack.val)

/-! ### BRING_UP (R494) -/

/-- A route table as the firmware writes it: V and LINK of each module. -/
def routesOf (rs : List Word) : Vector Dword 64 := Vector.ofFn fun i : Fin 64 =>
  BitVec.ofNat 64 ((rs.getD i.val 0#32).toNat % 32)

/-- BRING_UP: the last steps of a bring-up. The mesh links train, or the module is fatal; the Mervel links of `links.mervel` train, and
the others are down; DOMCFG and ROUTE are written, FSTEP and HSTEP are 8 within the limits that stand (R373, R490), and READY is
set. A module of its own has the number 0 (R14), and a module keeps its number through a warm reset. -/
def execBringUp (links : LinkTraining) (modno : Fin 64) (domain : DomainSetup) (s : State) : Out :=
  let dsize := domain.dsize
  if s.md.ready || s.md.fatal || dsize = 0 || 64 < dsize || dsize = 1 && modno.val != 0
      || modno.val != s.modno && !(s.mem.cells.isEmpty && s.mem.tags.isEmpty && s.mem.poison.isEmpty) then .next s
  else if !links.mesh then .next s.toFatal
  else
    let t := s.onMd fun m => { m with
      domcfg := BitVec.ofNat 64 (256 * dsize + modno.val), routes := routesOf domain.routes, links := [],
      downLinks := (List.range 12).filter fun l => !links.mervel.getLsbD l, cxlUp := true, ready := true }
    .next ((List.range 16).foldl (fun (u : State) k => u.onCores k fun c => { c with fstep := 8, hstep := 8 }) t).limitsAgain

/-! ### Host accesses (R358 to R360, R489) -/

/-- What a host read returns is handed to the host. -/
def State.hostGets (s : State) (hpa : Nat) (bs : List Byte) (poisoned : Bool) : State :=
  s.onMd fun m => { m with hostReads := (hpa, bs, poisoned) :: m.hostReads }

/-- The host's filter: entries of a stack. -/
def filterSize : Nat := 32768

/-- The host keeps a line of a read, to modify it when `own` is set. -/
def State.hostKeeps (s : State) (line : Nat) (own : Bool) : State :=
  s.onStk (homeStack (64 * line)) fun q => { q with
    held := (q.held.filter fun h => h.1 != line) ++ [(line, own || q.held.any fun h => h == (line, true))] }

/-- The bytes of a write under its mask. -/
def maskedBytes (mask : BitVec 64) (data : List Byte) : List (Nat × Byte) :=
  (List.range 64).filterMap fun i => if mask.getLsbD i then some (i, data.getD i 0#8) else none

/-- A host write at its home, with owner tag 0 (R202, R469): a partial write of a poisoned line is discarded. -/
def State.hostWrite (s : State) (line : Nat) (hpa : Nat) (mask : BitVec 64) (data : List Byte) : State :=
  let pa := 64 * line
  if s.mem.poison.contains line && mask != BitVec.allOnes 64 then
    s.report (homeStack pa) 11 0 0 0 255 0 9 (bytesLE 8 hpa ++ bytesLE 1 1)
  else if mask = 0#64 then s
  else
    let bs := maskedBytes mask data
    let t := bs.foldl (fun (u : State) b => u.written (pa + b.1) 1) s
    let m := (bs.foldl (fun (n : Memory) b => n.setByte (pa + b.1) b.2) s.mem).tagLines pa 1 0
    { t with mem := m.clearPoison line }

/-- The device physical line of a host address (R358). -/
def State.hostLine (s : State) (hpa : Nat) : Nat := (s.modno * 2 ^ 42 + (hpa - s.md.hdmbase)) / 64

/-- A host access performed at its home (R359, R489). A request that needs an entry of a full filter waits there for the oldest
entry's back-invalidation (R360). -/
def State.hostPerform (s : State) (r : HostReq) : State :=
  let line := s.hostLine r.hpa
  let pa := 64 * line
  let q := s.stk (homeStack pa)
  if isReserved pa then
    let t := s.report (homeStack pa) 11 0 0 0 255 0 9 (bytesLE 8 r.hpa ++ bytesLE 1 0)
    if r.write then t else t.hostGets r.hpa (zeros 64) true
  else if r.write then s.hostWrite line r.hpa r.mask r.data
  else if r.keep && !(q.held.any fun h => h.1 == line) && filterSize ≤ q.held.length then
    s.onMd fun m => { m with hostWait := m.hostWait ++ [r] }
  else
    let bad := s.mem.poison.contains line
    let t := s.hostGets r.hpa (if bad then zeros 64 else bytesLE 64 (s.mem.read pa 64)) bad
    if r.keep then t.hostKeeps line r.own else t

/-- HOST_ACCESS (R16, R235, R359): the request enters at stack 0 and crosses the mesh to its home, behind what stack 0 has sent
there; where nothing holds it, it is performed at once. Before READY and in the fatal state it is refused (R488, R494). -/
def execHostAccess (r : HostReq) (s : State) : Out :=
  let k := homeStack (64 * s.hostLine r.hpa)
  if r.hpa < s.md.hdmbase || 2 ^ 42 ≤ r.hpa - s.md.hdmbase || !s.md.cxlUp then .next s
  else if s.md.fatal || !s.md.ready then .next (if r.write then s else s.hostGets r.hpa (zeros 64) true)
  else if s.pairWaits 0 k || (s.stk k).pstate != 0 then .next (s.send 0 k (.host r))
  else .next ((s.trip 0 k).hostPerform r)

/-- HOST_SNOOP (R357): the device holds no host line, and answers with a miss. -/
def execHostSnoop (_line : Nat) (s : State) : Out := .next s

/-- The first request that waits for an entry of the filter of stack `k`. -/
def State.hostNext (s : State) (k : Nat) : State :=
  match s.md.hostWait.find? fun (r : HostReq) => homeStack (64 * s.hostLine r.hpa) == k with
  | none => s
  | some r => (s.onMd fun m => { m with hostWait := m.hostWait.erase r }).hostPerform r

/-- The line leaves the filter of stack `k`, with its dirty data where there is some, and a request that waited for the entry is
served (R360). -/
def State.hostYields (s : State) (k line : Nat) (dirty : Option (List Byte)) : State :=
  let t := s.onStk k fun q => { q with held := q.held.filter fun x => x.1 != line }
  match dirty with
  | none => t.hostNext k
  | some bs => (t.hostWrite line (s.md.hdmbase + 64 * line % 2 ^ 42) (BitVec.allOnes 64) bs).hostNext k

/-- BACK_INVALIDATE_RESPONSE (R360): the line leaves the filter. Dirty data is a host write, which enters at stack 0 and crosses to
the home behind what stack 0 has sent there (R16); the entry stands until it arrives. -/
def execBackInvalidateResponse (line : Nat) (dirty : Option (List Byte)) (s : State) : Out :=
  let k := homeStack (64 * line)
  let gives : Bool := s.fabric.any fun (p : Packet) => match p.pl with
    | .hostBack n _ => n == line
    | _ => false
  match (s.stk k).held.find? fun h => h.1 == line with
  | none => .next s
  | some h =>
    if gives || dirty.isSome && !h.2 then .next s
    else match dirty with
      | none => .next (s.hostYields k line none)
      | some bs =>
        if s.pairWaits 0 k || (s.stk k).pstate != 0 then .next (s.send 0 k (.hostBack line bs))
        else .next ((s.flitsPass 0 k).hostYields k line (some bs))

/-- CXL_LINK_DOWN (R489): host traffic stops, its requests in flight are discarded, and what the host held is no longer waited
for. -/
def execCxlLinkDown (s : State) : Out :=
  .next { s with
    md := { s.md with cxlUp := false, hostWait := [] },
    fabric := s.fabric.filter fun (p : Packet) => !fromHost p.pl,
    stks := s.stks.map fun (q : StackSt) => { q with held := [] } }

/-! ### Packets that no event of the table names -/

/-- A burst from another module is performed at its home, which credits its object (R264, R266, R362), and answered. -/
def State.burstIn (s : State) (src dst pa : Nat) (bytes : List (Nat × Byte)) (pois asid job : Nat)
    (credit : Option (Nat × Nat × Bool)) : Option State :=
  if s.burstWaits pa bytes then none
  else match s.writeMasked (lineOf pa) bytes pois asid with
    | none => some (s.send dst src (.jobDone job pa none true))
    | some t =>
      let u := match credit with
        | none => t
        | some (o, po, clip) => t.ship dst (homeOf o) (.object o 0 bytes.length 0 clip po asid job (s.locOf src))
      some (u.send dst src (.jobDone job pa none false))

/-- A line of a save area of a group of another module (R440). -/
def State.areaIn (s : State) (pa : Nat) (bs : List Byte) (asid : Nat) : Option State :=
  if s.heldOff pa bs.length none || s.hostWaits pa true then none else some (s.putLines pa bs asid)

/-- A read for the copy engine of another module (R264, R468). -/
def State.fetchIn (s : State) (src dst pa n pois job : Nat) : Option State :=
  if s.hostWaits pa false then none
  else some ((s.logPois pa pois).send dst src (.fetched job (s.readHome pa n pois)))

/-- The answer to an update or a burst that another module has performed. -/
def State.jobAnswered (s : State) (job pa : Nat) (credited : Option Nat) (failed : Bool) : State := match credited with
  | some n => s.creditStep job pa n failed
  | none =>
    if s.md.recordsOut.any fun x => x.1 == job then s.recordAnswered job failed else s.burstAnswered job pa failed

/-- The packet at the head of a pair whose arrival is no event of the table. -/
def State.deliverStep (s : State) (a b : Nat) : Option State := match s.head a b with
  | none => none
  | some (pl, t) => match pl with
    | .record no => t.recordIn no
    | .burst pa bytes pois asid job credit => t.burstIn a b pa bytes pois asid job credit
    | .area _ pa bs asid => t.areaIn pa bs asid
    | .fetch pa n pois job => t.fetchIn a b pa n pois job
    | .fetched job x => some (t.onJob job fun j => if j.ask = .sent then { j with ask := .got x } else j)
    | .hostBack line bs => some (t.hostYields b line (some bs))
    | .jobDone job pa credited failed => some (t.jobAnswered job pa credited failed)
    | .abortShare g => some (if (t.grid? g).any fun (x : Grid) => x.aborted then t else t.stopShare g)
    | .complete g rank aborted energy => some (t.reportIn g rank aborted energy)
    | .host r => some (t.hostPerform r)
    | _ => none

end Sys2Proof.Machine
end

