-- ==== Sys2Proof/Machine/Range.lean ====
section
/-! DEFINITION. Machine/Range.lean: the range instructions and the range units (R339 to R351, R423). -/

namespace Sys2Proof.Machine

/-- The operation of a range instruction, with the scalars it reads. -/
def State.rangeOp (s : State) (i : Instr) (h : Hd) (k : Tok) (scap : List Dword) : Op :=
  { s.newOp i h (some k) with kind := .range, scap := scap }

/-- R348. -/
def execRgpost (h : Hd) (d a b : SReg) (k : Tok) (s : State) : Out :=
  s.access (.rgpost h d a b k) h { reads := [rdS a, rdS b], tok := some k } true false
    fun t => t.rangeOp (.rgpost h d a b k) h k [t.s a, t.s b]
/-- R349. -/
def execRgtake (h : Hd) (d : SReg) (g : Word) (k : Tok) (s : State) : Out :=
  s.access (.rgtake h d g k) h { tok := some k } false false fun t => t.rangeOp (.rgtake h d g k) h k []
/-- R351. -/
def execRgdone (h : Hd) (k : Tok) (s : State) : Out :=
  s.access (.rgdone h k) h { tok := some k } false false fun t => t.rangeOp (.rgdone h k) h k []

/-- The results of `rgnext` (R350). -/
def State.rangeNext (s : State) (d : SReg) (p : PReg) : List Wr :=
  if s.me.rangeEmpty then [.p p.val s.me.act 0#32] else [.s d.val s.me.rlo, .p p.val s.me.act (BitVec.allOnes 32)]

/-- R350. -/
def execRgnext (h : Hd) (d : SReg) (p : PReg) (s : State) : Out :=
  s.gate (.rgnext h d p) h {} fun t =>
    let lo := if t.me.rangeEmpty then t.me.rlo else t.me.rlo + 1#64
    let n := if t.me.rangeEmpty then t.noteWrites (t.rangeNext d p) else t.spoil
    let u := n.land 4 (t.rangeNext d p)
    { u with me := { u.me with rlo := lo } }.retire h (Instr.rgnext h d p).bytes

/-! ### The range unit -/

/-- Remaining indices of a split's range (R339). -/
def Split.rangeLeft (w : Split) : Nat := w.rhi.toNat - w.rlo.toNat

/-- A victim of a steal by a split of group `gid` with grain `g` (R343). -/
def State.victim (s : State) (gid : Nat) (team : Nat × Nat) (base g : Nat) (w : Split) : Bool :=
  w.group != gid && s.ofTeam team.1 team.2 w && w.resident && w.stack == base && !w.inHandler
    && w.status != .saved && w.status != .replayable && 2 * g ≤ w.rangeLeft

def State.grpOf (s : State) (w : Split) : Nat := ((s.group? w.group).map fun (g : Group) => g.grp).getD 0

/-- The victim of a steal: the largest remaining count, then the lowest GRP, then the lowest split number (R343). -/
def State.pickVictim (s : State) (gid : Nat) (team : Nat × Nat) (base g : Nat) : Option Split :=
  let better (a b : Split) : Bool :=
    b.rangeLeft < a.rangeLeft || a.rangeLeft == b.rangeLeft
      && (s.grpOf a < s.grpOf b || s.grpOf a == s.grpOf b && a.num < b.num)
  match s.allSplits.filter (s.victim gid team base g) with
  | [] => none
  | v :: vs => some (vs.foldl (fun b w => if better w b then w else b) v)

/-- An answer 1 of `rgtake`: BUSY rises, and the range is on its way (R349). -/
def State.giveRange (s : State) (grid team base dst w op : Nat) (lo hi : Dword) : State :=
  (s.onTeam grid team fun (t : Team) => { t with busy := Nat.min 65535 (t.busy + 1) }).send base dst
    (.rangeRep w op 1 (some (lo, hi)))

/-- The joins of a team's groups that waited for a pool entry go on (R446). -/
def State.joinsOnward (s : State) (grid team : Nat) : State :=
  let gs := s.unfocus.groups.filter fun (g : Group) => g.grid == grid && g.team == team
  gs.foldl (fun (t : State) (g : Group) => t.joinCheck g.id) s.unfocus

/-- The victim of a request of split `w` for grain `g`, where it may steal: the split stands on the base stack (R343). -/
def State.stealFrom (s : State) (base w : Nat) (gr : Group) (g : Nat) : Option Split :=
  if 1 ≤ g && (s.split? w).any fun (x : Split) => x.stack == base && x.resident then
    s.pickVictim gr.id (gr.grid, gr.team) base g
  else none

/-- A request performed by the range unit of stack `base` (R342, R343, R348, R349, R351), or what a merge in another module adds to
the pool (R345). -/
def State.rangeUnit (s : State) (base dst kind w gid op : Nat) (lo hi : Dword) (g due : Nat) : State :=
  match s.group? gid with
  | none => s
  | some gr => match s.team? gr.grid gr.team with
    | none => s
    | some t =>
      let reply (u : State) (r : Nat) : State := u.send base dst (.rangeRep w op r none)
      let upd (f : Team → Team) : State := s.onTeam gr.grid gr.team f
      match kind with
      | 0 =>
        if hi.toNat ≤ lo.toNat then reply s 1
        else if 48 ≤ t.pool.length then reply s 0
        else reply (upd fun t => { t with pool := t.pool ++ [(lo, hi)] }) 1
      | 1 => match t.pool with
        | r :: rs =>
          ((upd fun t => { t with pool := rs }).giveRange gr.grid gr.team base dst w op r.1 r.2).joinsOnward gr.grid gr.team
        | [] => match s.stealFrom base w gr g with
          | some v =>
            let m := v.rlo + BitVec.ofNat 64 (ceilDiv v.rangeLeft 2)
            (s.onSplit v.id fun v => { v with rhi := m }).giveRange gr.grid gr.team base dst w op m v.rhi
          | none => reply s (if 0 < t.busy then 2 else 0)
      | 2 => reply (upd fun t => { t with busy := t.busy - due }) 0
      | _ => upd fun t => { t with pool := t.pool ++ [(lo, hi)], busy := t.busy - due }

/-- A steal comes after the `rgnext` that its victim issues on the same cycle (R344, R352): it waits for the slot of the victim's
pipe. What a merge adds waits for room in the pool (R446). -/
def State.stealWaits (s : State) (base kind w gid g : Nat) : Bool :=
  kind == 3 && (s.group? gid).any s.poolFull || kind == 1 && (s.group? gid).any fun (gr : Group) => (s.team? gr.grid gr.team).any fun (t : Team) =>
    t.pool.isEmpty && (s.stealFrom base w gr g).any fun (v : Split) => (s.stk base).todo.contains (v.core, v.slot % 4)

/-- RANGE_REQUEST (R342). -/
def execRangeRequest (src dst : Nat) (s : State) : Out := match s.head src dst with
  | some (.rangeReq kind w gid op lo hi g due, t) =>
    if t.stealWaits dst kind w gid g then .next s else .next (t.rangeUnit dst src kind w gid op lo hi g due)
  | _ => .next s

/-- A reply reaches the split: the range register and RDUE are written, and the operation completes (R340, R349). -/
def State.rangeReply (s : State) (op r : Nat) (range : Option (Dword × Dword)) : State :=
  let t := match range with
    | none => s
    | some (lo, hi) => { s with me := { s.me with rlo := lo, rhi := hi, rdue := Nat.min 63 (s.me.rdue + 1) } }
  match t.me.op? op with
  | none => t
  | some o =>
    let ws : List Wr := match o.instr with
      | .rgpost _ d _ _ _ | .rgtake _ d _ _ => [.s d.val (BitVec.ofNat 64 r)]
      | _ => []
    let p := { o with writes := ws }
    (t.putOp p).complete p

/-- RANGE_REPLY (R342, R349). -/
def execRangeReply (src dst : Nat) (s : State) : Out := match s.head src dst with
  | some (.rangeRep w op r range, t) => .next (t.withSplit w fun u => u.rangeReply op r range)
  | _ => .next s

end Sys2Proof.Machine
end

