-- ==== Sys2Proof/Machine/Serve.lean ====
section
/-! DEFINITION. Machine/Serve.lean: OPERATION_COMPLETION: the next step of an outstanding operation, up to its completion (R124,
R145, R146, R148, R211 to R221, R434). -/

namespace Sys2Proof.Machine

/-! ### Stack entries (R145, R412) -/

/-- The oldest `m` entries that split `n` owns lose its bit. -/
def disownFirst (n : Nat) : Nat → List Entry → List Entry
  | 0, es => es
  | _, [] => []
  | m + 1, e :: es => if e.owned n then e.drop n :: disownFirst n m es else e :: disownFirst n (m + 1) es

/-- Entries inserted older than every entry that the split owns. -/
def insertOldest (n : Nat) (new : List Entry) : List Entry → List Entry
  | [] => new
  | e :: es => if e.owned n then new ++ e :: es else e :: insertOldest n new es

/-- The addresses of the entries of an operation, with their poison policies. -/
def Op.pas (o : Op) : List (Nat × Nat) := (List.range o.cidx.toNat).map fun i => (vget o.pa i 0, vget o.pois i 0)

/-- Poison has been met: the split takes POISON once the operation completes, and S(D) receives 0. -/
def State.lateEnd (s : State) (o : Op) (d : SReg) (detail : Nat) : State :=
  let p := { o with writes := [.s d.val 0#64] }
  let t := { s with me := { s.me with pend := { s.me.pend with late := some (s.me.pend.late.getD detail) } } }
  (t.putOp p).complete p

/-- Writes at homes, in order; none where poison refuses one. -/
def State.writeAll (s : State) (tag : Nat) : List (Nat × Nat × List Byte) → Option State
  | [] => some s
  | x :: xs => match s.writeHome x.1 x.2.2 x.2.1 tag with
    | none => none
    | some t => t.writeAll tag xs

def State.serveSpill (s : State) (o : Op) (d : SReg) : Option State :=
  let m := Nat.min o.cidx.toNat s.own.length
  let ws := ((s.own.take m).zip o.pas).map fun x => (x.2.1, x.2.2, x.1.bytes)
  if ws.any fun w => !s.mayAccess o w.1 16 true || s.heldOff w.1 16 (some s.me.id) then none
  else match s.writeAll s.me.asid ws with
    | none => some (s.lateEnd o d 1)
    | some t =>
      let u := t.setEntries (freeUnowned s.residents (disownFirst s.me.num m s.win.entries))
      let p := { o with writes := [.s d.val (BitVec.ofNat 64 m)] }
      some ((u.putOp p).complete p)

/-- The entries read by `stkfill`, for split `n`. -/
def Op.filled (o : Op) (n : Nat) : List Entry := (List.range (o.blob.length / 16)).map fun i =>
  let w (at' : Nat) : Nat := ofBytesLE ((o.blob.drop at').take 8)
  ({ owner := 0#4, word0 := BitVec.ofNat 64 (w (16 * i) % 2 ^ 60), word1 := BitVec.ofNat 64 (w (16 * i + 8)) } : Entry).filled n

/-- The entries read are inserted, as the slot has room (R145). -/
def State.serveFill (s : State) (o : Op) (d : SReg) : State := match o.late with
  | some x => s.lateEnd o d x
  | none =>
    let es := (o.filled s.me.num).take (32 - s.win.entries.length)
    let p := { o with writes := [.s d.val (BitVec.ofNat 64 es.length)] }
    ((s.setEntries (insertOldest s.me.num es s.win.entries)).putOp p).complete p

/-! ### `ctxsv` (R146) and `tlbi` (R148) -/

def State.serveCtxsv (s : State) (o : Op) (d : SReg) : Option State :=
  let ws := (List.range (o.blob.length / 64)).map fun i => (o.zPa (64 * i), (o.blob.drop (64 * i)).take 64)
  if ws.any fun w => !s.mayAccess o w.1.1 64 true || s.heldOff w.1.1 64 (some s.me.id) then none
  else
    let t := (s.writeAll s.me.asid (ws.map fun w => (w.1.1, w.1.2, w.2))).getD s
    let p := { o with writes := [.s d.val (BitVec.ofNat 64 o.blob.length)] }
    some ((t.putOp p).complete p)

/-- Whether an access that a `tlbi` waits for is still to be performed. -/
def State.tlbiHeld (s : State) (id : Nat) : Bool :=
  ((s.opOf id).any fun (o : Op) => match o.kind with
    | .access => o.sent && o.lanesAt 2 != 0#32
    | .array => true
    | .plain => match o.instr with
      | .stkspill _ _ _ _ _ | .ctxsv _ _ _ _ => true
      | _ => false
    | .range | .tlbi => false)
    || (s.stks.toList.any fun (q : StackSt) => q.chans.toList.any fun (c : CopyChan) =>
        c.jobs.any fun (j : CopyJob) => j.no == id && (j.cur.isSome || !j.bufs.isEmpty || 0 < j.credits || j.ask == .sent))

/-- Whether a post translated before it is not acknowledged yet, in the module or on its way through another. -/
def State.tlbiPosts (s : State) (all : Bool) (asid no : Nat) : Bool := s.stks.toList.any fun (q : StackSt) =>
  q.tracker.any fun e => e.2 < no && (all || (s.group? e.1).any fun (g : Group) => g.asid == asid)

/-- The accesses performed so far are no longer waited for; the token falls when none is left. -/
def State.serveTlbi (s : State) (o : Op) (v : TlbiVar) : Option State :=
  let left := o.after.filter s.tlbiHeld
  if left ≠ o.after then some (s.putOp { o with after := left })
  else if left.isEmpty && !s.tlbiPosts (v == .all) ((o.scap.headD 0#64).toNat % 1024) o.cidx.toNat then some (s.complete o)
  else none

/-! ### The step of an operation -/

/-- An array instruction; a re-injected `mmab` enters the queue first, once that has room (R286, R398). -/
def State.serveQueued (s : State) (o : Op) : Option State :=
  if o.again && !o.sent && !o.faulted then match o.instr with
    | .mmab _ t a b c boff _ =>
      let u := s.againMmab o t a b c boff
      if (u.me.op? o.id).any fun (p : Op) => p.sent || p.faulted then some u else none
    | _ => s.serveArray o
  else s.serveArray o

/-- A faulted operation of a split whose grid has ended is not performed and raises nothing (R434). -/
def Op.dead (o : Op) (w : Split) : Bool := w.pend.kill && o.faulted && (o.lanesAt 2 == 0#32 || !o.sent)

/-- The next step of operation `o` of the split in focus, where it can take place: not on the way to where `rft` leads (R396). -/
def State.serveOp (s : State) (o : Op) : Option State :=
  if s.me.status = .transit || (s.me.status matches .leaving (.rft _)) then none
  else if o.dead s.me then
    let t := (s.dropOp o.id).tokDone o.tok
    some (if t.me.status = .legs o.id then { t with me := { t.me with status := .run } } else t)
  else match o.kind with
    | .access => match Acc.of o.instr with
      | some a => s.serveAccess o a
      | none => match o.instr with
        | .ldz _ d _ _ ty n _ _ => s.serveLdz o d ty n.toNat
        | .stz _ d _ _ _ _ _ _ _ => s.serveStz o d
        | .cpkt _ _ d _ _ _ => s.serveCpkt o d
        | _ => s.serveObject o
    | .array => s.serveQueued o
    | .range => none
    | .tlbi => match o.instr with
      | .tlbi _ v _ _ _ _ => s.serveTlbi o v
      | _ => none
    | .plain => match o.instr with
      | .stkspill _ d _ _ _ => s.serveSpill o d
      | .stkfill _ d _ _ _ => some (s.serveFill o d)
      | .ctxsv _ d _ _ => s.serveCtxsv o d
      | _ => some (s.complete o)

/-- OPERATION_COMPLETION, where it can take place. -/
def State.operationStep (s : State) (split op : Nat) : Option State :=
  (s.focus split).bind fun t => (t.me.op? op).bind t.serveOp

def execOperationCompletion (split op : Nat) (s : State) : Out := .next ((s.operationStep split op).getD s)

end Sys2Proof.Machine
end

