-- ==== Sys2Proof/Machine/Dispatch.lean ====
section
/-! DEFINITION. Machine/Dispatch.lean: one arm per constructor of `Instr`, each a direct call of its meaning. -/

namespace Sys2Proof.Machine

def exec (i : Instr) (s : State) : Host.Outcome State Fault Refusal :=
  match i with
  | .nop h => Sys2Proof.Machine.execNop h s
  | .bra h off => Sys2Proof.Machine.execBra h off s
  | .brp h off recon => Sys2Proof.Machine.execBrp h off recon s
  | .brx h a => Sys2Proof.Machine.execBrx h a s
  | .call h callee caller off live => Sys2Proof.Machine.execCall h callee caller off live s
  | .callx h b callee caller live => Sys2Proof.Machine.execCallx h b callee caller live s
  | .ret h => Sys2Proof.Machine.execRet h s
  | .join h j => Sys2Proof.Machine.execJoin h j s
  | .barw h n => Sys2Proof.Machine.execBarw h n s
  | .bara h n => Sys2Proof.Machine.execBara h n s
  | .yield h => Sys2Proof.Machine.execYield h s
  | .exit h => Sys2Proof.Machine.execExit h s
  | .pause h n => Sys2Proof.Machine.execPause h n s
  | .tw h k m => Sys2Proof.Machine.execTw h k m s
  | .trap h n => Sys2Proof.Machine.execTrap h n s
  | .rft h => Sys2Proof.Machine.execRft h s
  | .brk h n => Sys2Proof.Machine.execBrk h n s
  | .sget h r d => Sys2Proof.Machine.execSget h r d s
  | .sput h r a => Sys2Proof.Machine.execSput h r a s
  | .icpre h lvl a len => Sys2Proof.Machine.execIcpre h lvl a len s
  | .icpin h lvl a len => Sys2Proof.Machine.execIcpin h lvl a len s
  | .icfree h lvl a len => Sys2Proof.Machine.execIcfree h lvl a len s
  | .stkspill h d a n k => Sys2Proof.Machine.execStkspill h d a n k s
  | .stkfill h d a n k => Sys2Proof.Machine.execStkfill h d a n k s
  | .ctxsv h d a k => Sys2Proof.Machine.execCtxsv h d a k s
  | .ctxld h a => Sys2Proof.Machine.execCtxld h a s
  | .tlbi h v dom a b k => Sys2Proof.Machine.execTlbi h v dom a b k s
  | .add x => Sys2Proof.Machine.execAdd x s
  | .addX x ty sat cv => Sys2Proof.Machine.execAddX x ty sat cv s
  | .sub x => Sys2Proof.Machine.execSub x s
  | .subX x ty sat cv => Sys2Proof.Machine.execSubX x ty sat cv s
  | .mul x => Sys2Proof.Machine.execMul x s
  | .mulX x ty sat => Sys2Proof.Machine.execMulX x ty sat s
  | .mulh x => Sys2Proof.Machine.execMulh x s
  | .mulhX x ty => Sys2Proof.Machine.execMulhX x ty s
  | .mad x ty sat c => Sys2Proof.Machine.execMad x ty sat c s
  | .dpb x sg sat c => Sys2Proof.Machine.execDpb x sg sat c s
  | .min x => Sys2Proof.Machine.execMin x s
  | .minX x ty => Sys2Proof.Machine.execMinX x ty s
  | .max x => Sys2Proof.Machine.execMax x s
  | .maxX x ty => Sys2Proof.Machine.execMaxX x ty s
  | .abs x => Sys2Proof.Machine.execAbs x s
  | .absX x ty sat => Sys2Proof.Machine.execAbsX x ty sat s
  | .neg x => Sys2Proof.Machine.execNeg x s
  | .negX x ty sat => Sys2Proof.Machine.execNegX x ty sat s
  | .not x => Sys2Proof.Machine.execNot x s
  | .notX x ty => Sys2Proof.Machine.execNotX x ty s
  | .popc x => Sys2Proof.Machine.execPopc x s
  | .popcX x ty => Sys2Proof.Machine.execPopcX x ty s
  | .clz x => Sys2Proof.Machine.execClz x s
  | .clzX x ty => Sys2Proof.Machine.execClzX x ty s
  | .brev x => Sys2Proof.Machine.execBrev x s
  | .brevX x ty => Sys2Proof.Machine.execBrevX x ty s
  | .div x ty sat k => Sys2Proof.Machine.execDiv x ty sat k s
  | .rem x ty k => Sys2Proof.Machine.execRem x ty k s
  | .and x => Sys2Proof.Machine.execAnd x s
  | .andX x ty => Sys2Proof.Machine.execAndX x ty s
  | .or x => Sys2Proof.Machine.execOr x s
  | .orX x ty => Sys2Proof.Machine.execOrX x ty s
  | .xor x => Sys2Proof.Machine.execXor x s
  | .xorX x ty => Sys2Proof.Machine.execXorX x ty s
  | .shl x => Sys2Proof.Machine.execShl x s
  | .shlX x ty => Sys2Proof.Machine.execShlX x ty s
  | .shr x => Sys2Proof.Machine.execShr x s
  | .shrX x ty => Sys2Proof.Machine.execShrX x ty s
  | .sra x => Sys2Proof.Machine.execSra x s
  | .sraX x ty => Sys2Proof.Machine.execSraX x ty s
  | .rot x => Sys2Proof.Machine.execRot x s
  | .rotX x ty => Sys2Proof.Machine.execRotX x ty s
  | .bfx x ty => Sys2Proof.Machine.execBfx x ty s
  | .bfi x ty c => Sys2Proof.Machine.execBfi x ty c s
  | .sel x c => Sys2Proof.Machine.execSel x c s
  | .cmp h cc p a b => Sys2Proof.Machine.execCmp h cc p a b s
  | .cmpX h cc p a b ty => Sys2Proof.Machine.execCmpX h cc p a b ty s
  | .plog h f d a b => Sys2Proof.Machine.execPlog h f d a b s
  | .mov h d b => Sys2Proof.Machine.execMov h d b s
  | .movX h m => Sys2Proof.Machine.execMovX h m s
  | .movl h d x => Sys2Proof.Machine.execMovl h d x s
  | .movs h d a => Sys2Proof.Machine.execMovs h d a s
  | .movsX h m => Sys2Proof.Machine.execMovsX h m s
  | .shfl x => Sys2Proof.Machine.execShfl x s
  | .shflX x var => Sys2Proof.Machine.execShflX x var s
  | .vote h d p => Sys2Proof.Machine.execVote h d p s
  | .voteX h v => Sys2Proof.Machine.execVoteX h v s
  | .lred h op d a => Sys2Proof.Machine.execLred h op d a s
  | .lredX h op ty sat dst a => Sys2Proof.Machine.execLredX h op ty sat dst a s
  | .lscan h op d a => Sys2Proof.Machine.execLscan h op d a s
  | .lscanX h op ty sat excl d a => Sys2Proof.Machine.execLscanX h op ty sat excl d a s
  | .scalarForm h ty op => Sys2Proof.Machine.execScalarForm h ty op s
  | .fadd x => Sys2Proof.Machine.execFadd x s
  | .faddX x ty lo rnd => Sys2Proof.Machine.execFaddX x ty lo rnd s
  | .fsub x => Sys2Proof.Machine.execFsub x s
  | .fsubX x ty lo rnd => Sys2Proof.Machine.execFsubX x ty lo rnd s
  | .fmul x => Sys2Proof.Machine.execFmul x s
  | .fmulX x ty lo rnd => Sys2Proof.Machine.execFmulX x ty lo rnd s
  | .ffma x ty lo rnd c => Sys2Proof.Machine.execFfma x ty lo rnd c s
  | .fmin x => Sys2Proof.Machine.execFmin x s
  | .fminX x ty lo => Sys2Proof.Machine.execFminX x ty lo s
  | .fmax x => Sys2Proof.Machine.execFmax x s
  | .fmaxX x ty lo => Sys2Proof.Machine.execFmaxX x ty lo s
  | .frcp x => Sys2Proof.Machine.execFrcp x s
  | .frcpX x rnd => Sys2Proof.Machine.execFrcpX x rnd s
  | .frsq x => Sys2Proof.Machine.execFrsq x s
  | .frsqX x => Sys2Proof.Machine.execFrsqX x s
  | .fsqrt x => Sys2Proof.Machine.execFsqrt x s
  | .fsqrtX x rnd => Sys2Proof.Machine.execFsqrtX x rnd s
  | .fex2 x => Sys2Proof.Machine.execFex2 x s
  | .fex2X x => Sys2Proof.Machine.execFex2X x s
  | .flg2 x => Sys2Proof.Machine.execFlg2 x s
  | .flg2X x => Sys2Proof.Machine.execFlg2X x s
  | .fsin x => Sys2Proof.Machine.execFsin x s
  | .fsinX x => Sys2Proof.Machine.execFsinX x s
  | .fcos x => Sys2Proof.Machine.execFcos x s
  | .fcosX x => Sys2Proof.Machine.execFcosX x s
  | .fcmp h cc p a b => Sys2Proof.Machine.execFcmp h cc p a b s
  | .fcmpX h cc p a b ty lo => Sys2Proof.Machine.execFcmpX h cc p a b ty lo s
  | .fcvt x td ts sel ofn sat rnd => Sys2Proof.Machine.execFcvt x td ts sel ofn sat rnd s
  | .fpk x td ts o k rnd => Sys2Proof.Machine.execFpk x td ts o k rnd s
  | .funpk x td ts o k rnd => Sys2Proof.Machine.execFunpk x td ts o k rnd s
  | .bscl h d a td ts ce i4 => Sys2Proof.Machine.execBscl h d a td ts ce i4 s
  | .bqnt h d a b td ts ofn i4 rnd => Sys2Proof.Machine.execBqnt h d a b td ts ofn i4 rnd s
  | .bdeq h d a b td ts i4 rnd => Sys2Proof.Machine.execBdeq h d a b td ts i4 rnd s
  | .rseed h a => Sys2Proof.Machine.execRseed h a s
  | .rseedX h a => Sys2Proof.Machine.execRseedX h a s
  | .ld h m sh ty d acq k => Sys2Proof.Machine.execLd h m sh ty d acq k s
  | .st h m sh ty c rel k => Sys2Proof.Machine.execSt h m sh ty c rel k s
  | .ldg h m sh ty d acq k live => Sys2Proof.Machine.execLdg h m sh ty d acq k live s
  | .stg h m sh ty c rel k live => Sys2Proof.Machine.execStg h m sh ty c rel k live s
  | .atg h m op ty sat d c o k live => Sys2Proof.Machine.execAtg h m op ty sat d c o k live s
  | .lrg h m ty d acq k live => Sys2Proof.Machine.execLrg h m ty d acq k live s
  | .scg h m ty d c o k live => Sys2Proof.Machine.execScg h m ty d c o k live s
  | .stp h m ty c rel => Sys2Proof.Machine.execStp h m ty c rel s
  | .atp h m op ty sat c rel => Sys2Proof.Machine.execAtp h m op ty sat c rel s
  | .ldz h d a b ty n acq k => Sys2Proof.Machine.execLdz h d a b ty n acq k s
  | .stz h d a b c ty n rel k => Sys2Proof.Machine.execStz h d a b c ty n rel k s
  | .fence h f sc => Sys2Proof.Machine.execFence h f sc s
  | .pfence h => Sys2Proof.Machine.execPfence h s
  | .cpkt h sc d a b k => Sys2Proof.Machine.execCpkt h sc d a b k s
  | .binit h a b n k => Sys2Proof.Machine.execBinit h a b n k s
  | .bexp h arv sc a b k => Sys2Proof.Machine.execBexp h arv sc a b k s
  | .barv h sc a n k => Sys2Proof.Machine.execBarv h sc a n k s
  | .bobs h w1 acq sc d a k => Sys2Proof.Machine.execBobs h w1 acq sc d a k s
  | .bwt h sc a b cont => Sys2Proof.Machine.execBwt h sc a b cont s
  | .palLiteral h x => Sys2Proof.Machine.execPalLiteral h x s
  | .palRegister h a => Sys2Proof.Machine.execPalRegister h a s
  | .palr h d => Sys2Proof.Machine.execPalr h d s
  | .mma h t a b ks c soff k => Sys2Proof.Machine.execMma h t a b ks c soff k s
  | .mmab h t a b c boff k => Sys2Proof.Machine.execMmab h t a b c boff k s
  | .accz h all t k => Sys2Proof.Machine.execAccz h all t k s
  | .accrd h d t j0 n k => Sys2Proof.Machine.execAccrd h d t j0 n k s
  | .accwr h t a j0 n k => Sys2Proof.Machine.execAccwr h t a j0 n k s
  | .accst h d t k => Sys2Proof.Machine.execAccst h d t k s
  | .drq h dst t b c uns j0 n k => Sys2Proof.Machine.execDrq h dst t b c uns j0 n k s
  | .drf h dst t ty sat ofn j0 n k => Sys2Proof.Machine.execDrf h dst t ty sat ofn j0 n k s
  | .swc h rule a planes width k => Sys2Proof.Machine.execSwc h rule a planes width k s
  | .swh h a b c k => Sys2Proof.Machine.execSwh h a b c k s
  | .swb h k => Sys2Proof.Machine.execSwb h k s
  | .swm h form a k => Sys2Proof.Machine.execSwm h form a k s
  | .swl h a k => Sys2Proof.Machine.execSwl h a k s
  | .swx h t j0 n k => Sys2Proof.Machine.execSwx h t j0 n k s
  | .mmas h t a b ks c soff k => Sys2Proof.Machine.execMmas h t a b ks c soff k s
  | .mmag h t a b ks soff k => Sys2Proof.Machine.execMmag h t a b ks soff k s
  | .rgpost h d a b k => Sys2Proof.Machine.execRgpost h d a b k s
  | .rgtake h d g k => Sys2Proof.Machine.execRgtake h d g k s
  | .rgnext h d p => Sys2Proof.Machine.execRgnext h d p s
  | .rgdone h k => Sys2Proof.Machine.execRgdone h k s
  | .launchPacket level => Sys2Proof.Machine.execLaunchPacket level s
  | .dependenceMet level j => Sys2Proof.Machine.execDependenceMet level j s
  | .placingTeams => Sys2Proof.Machine.execPlacingTeams s
  | .teamEnd grid team => Sys2Proof.Machine.execTeamEnd grid team s
  | .completionRecord grid => Sys2Proof.Machine.execCompletionRecord grid s
  | .completionReport grid rank aborted energy => Sys2Proof.Machine.execCompletionReport grid rank aborted energy s
  | .legDeparture split => Sys2Proof.Machine.execLegDeparture split s
  | .contextAdmission stack => Sys2Proof.Machine.execContextAdmission stack s
  | .splitTableRequest src dst => Sys2Proof.Machine.execSplitTableRequest src dst s
  | .splitTableReport src dst => Sys2Proof.Machine.execSplitTableReport src dst s
  | .division split => Sys2Proof.Machine.execDivision split s
  | .operationCompletion split op => Sys2Proof.Machine.execOperationCompletion split op s
  | .post src dst => Sys2Proof.Machine.execPost src dst s
  | .postAcknowledgement src dst => Sys2Proof.Machine.execPostAcknowledgement src dst s
  | .probe src dst => Sys2Proof.Machine.execProbe src dst s
  | .probeAnswer src dst => Sys2Proof.Machine.execProbeAnswer src dst s
  | .barrierArrival src dst => Sys2Proof.Machine.execBarrierArrival src dst s
  | .barrierObjectUpdate src dst => Sys2Proof.Machine.execBarrierObjectUpdate src dst s
  | .copyPacket stack level => Sys2Proof.Machine.execCopyPacket stack level s
  | .copyBurst stack level pkt => Sys2Proof.Machine.execCopyBurst stack level pkt s
  | .loopIteration stack level => Sys2Proof.Machine.execLoopIteration stack level s
  | .signalPacket stack level => Sys2Proof.Machine.execSignalPacket stack level s
  | .pass stack core => Sys2Proof.Machine.execPass stack core s
  | .rampInterval stack core => Sys2Proof.Machine.execRampInterval stack core s
  | .hstepFall stack core => Sys2Proof.Machine.execHstepFall stack core s
  | .hstepRise stack core => Sys2Proof.Machine.execHstepRise stack core s
  | .fstepUpdate stack core step => Sys2Proof.Machine.execFstepUpdate stack core step s
  | .energyCharge stack amounts idle => Sys2Proof.Machine.execEnergyCharge stack amounts idle s
  | .monitorSample stack n reading => Sys2Proof.Machine.execMonitorSample stack n reading s
  | .scrubVisit line found => Sys2Proof.Machine.execScrubVisit line found s
  | .refreshWindow stack => Sys2Proof.Machine.execRefreshWindow stack s
  | .tableWalk stack core asid va => Sys2Proof.Machine.execTableWalk stack core asid va s
  | .reservationExpiry n => Sys2Proof.Machine.execReservationExpiry n s
  | .holdoffExpiry n => Sys2Proof.Machine.execHoldoffExpiry n s
  | .budgetExpiry stack grid => Sys2Proof.Machine.execBudgetExpiry stack grid s
  | .handlerBudgetExpiry stack grid => Sys2Proof.Machine.execHandlerBudgetExpiry stack grid s
  | .teamResumption grid team => Sys2Proof.Machine.execTeamResumption grid team s
  | .trapEntry split => Sys2Proof.Machine.execTrapEntry split s
  | .halt split => Sys2Proof.Machine.execHalt split s
  | .sliceExpiry split => Sys2Proof.Machine.execSliceExpiry split s
  | .rangeRequest src dst => Sys2Proof.Machine.execRangeRequest src dst s
  | .rangeReply src dst => Sys2Proof.Machine.execRangeReply src dst s
  | .errorRecord => Sys2Proof.Machine.execErrorRecord s
  | .linkRetry l => Sys2Proof.Machine.execLinkRetry l s
  | .linkRetrain l => Sys2Proof.Machine.execLinkRetrain l s
  | .retrainTimeout l => Sys2Proof.Machine.execRetrainTimeout l s
  | .linkDown l => Sys2Proof.Machine.execLinkDown l s
  | .routeRewrite m v link => Sys2Proof.Machine.execRouteRewrite m v link s
  | .sensorLimit stack row reading => Sys2Proof.Machine.execSensorLimit stack row reading s
  | .limitLifted stack row => Sys2Proof.Machine.execLimitLifted stack row s
  | .powerStateEntry stack st => Sys2Proof.Machine.execPowerStateEntry stack st s
  | .stackWake stack => Sys2Proof.Machine.execStackWake stack s
  | .powerStateExit stack => Sys2Proof.Machine.execPowerStateExit stack s
  | .bringUp links modno domain => Sys2Proof.Machine.execBringUp links modno domain s
  | .hostAccess r => Sys2Proof.Machine.execHostAccess r s
  | .hostSnoop line => Sys2Proof.Machine.execHostSnoop line s
  | .cxlLinkDown => Sys2Proof.Machine.execCxlLinkDown s
  | .qring level v => Sys2Proof.Machine.execQring level v s
  | .cring stack level v => Sys2Proof.Machine.execCring stack level v s
  | .errlog v => Sys2Proof.Machine.execErrlog v s
  | .preemptionRequest grid => Sys2Proof.Machine.execPreemptionRequest grid s
  | .preemptionWithdraw grid => Sys2Proof.Machine.execPreemptionWithdraw grid s
  | .abortctl grid => Sys2Proof.Machine.execAbortctl grid s
  | .warmReset => Sys2Proof.Machine.execWarmReset s
  | .coldReset => Sys2Proof.Machine.execColdReset s
  | .skbctlThaw write => Sys2Proof.Machine.execSkbctlThaw write s
  | .errstatClear => Sys2Proof.Machine.execErrstatClear s
  | .monitorClear stack n => Sys2Proof.Machine.execMonitorClear stack n s
  | .pwrcap v => Sys2Proof.Machine.execPwrcap v s
  | .ramp v => Sys2Proof.Machine.execRamp v s
  | .svcUpdate stack v => Sys2Proof.Machine.execSvcUpdate stack v s
  | .registerWrite r size v => Sys2Proof.Machine.execRegisterWrite r size v s
  | .resultLanding split => Sys2Proof.Machine.execResultLanding split s
  | .unassignedOpcode k => Sys2Proof.Machine.execUnassignedOpcode k s
  | .linkRetrained l => Sys2Proof.Machine.execLinkRetrained l s
  | .backInvalidateResponse line dirty => Sys2Proof.Machine.execBackInvalidateResponse line dirty s
  | .launcherRouterError site => Sys2Proof.Machine.execLauncherRouterError site s
  | .peerWarmReset m => Sys2Proof.Machine.execPeerWarmReset m s
  | .peerReady m => Sys2Proof.Machine.execPeerReady m s

end Sys2Proof.Machine
end

