-- ==== Sys2Proof/Machine/Cycle.lean ====
section
/-! DEFINITION. Machine/Cycle.lean: fetch and decode (R409, R471, R472), an issue slot and arbitration (R67 to R70), a cycle of
a stack, and what can come next in the module. -/

namespace Sys2Proof.Machine

/-! ### Fetch and decode -/

/-- Step 2 of R409: a privileged form, or `sput` TRAPINFO, outside privileged mode; `rft` outside a handler. -/
def Split.refuses (w : Split) (f : Fields) : Bool :=
  (0x17 ≤ f.op && f.op ≤ 0x1B || f.op == 0x13 && f.b == SpecReg.trapinfo.code && f.bk == 0) && !w.priv || f.op == 0x10 && !w.inHandler

/-- The instruction at PC with the state after its fetch; or the trap that its fetch or its encoding raises. -/
def State.fetchInstr (s : State) : Except (TClass × Nat) (Instr × State) :=
  let w := s.me
  match fetchBytes s w.stack w.core w.asid w.pc.toNat 4 with
  | .error c => .error (c, 0)
  | .ok (x, t) =>
    let f := Fields.unpack x
    match checkOpcode f with
    | some k => .ok (.unassignedOpcode k, t)
    | none => match fetchBytes t w.stack w.core w.asid w.pc.toNat (lenBytes f.len) with
      | .error c => .error (c, 0)
      | .ok (y, u) =>
        if w.refuses (Fields.unpack y) then .error (.priv, 0)
        else match decodeWord y with
          | .ok i => .ok (i, u)
          | .error (.ill k) => .ok (.unassignedOpcode k, u)
          | .error .reserved => .error (.illegal, 5)

/-- The lines that the host holds in modified state (R360). -/
def State.modified (s : State) : List Nat :=
  (s.stks.toList.map fun (q : StackSt) => (q.held.filter fun h => h.2).map fun h => h.1).flatten

def State.veil (s : State) (ls : List Nat) : State := { s with mem := { s.mem with poison := ls ++ s.mem.poison } }

/-- Two outcomes agree but for the veil over `ls`. -/
def Out.alike (ls : List Nat) : Out → Out → Bool
  | .next a, .next b => a.veil ls == b
  | .fault _, .fault _ | .refused _, .refused _ => true
  | _, _ => false

/-- What `f` does rests on a line that the host holds in modified state: its outcome differs once these lines cannot be read. A
fetch, a walk or another device read of such a line waits for the host's answer to the snoop (R360). -/
def State.needsHost (s : State) (f : State → Out) : Bool :=
  !s.modified.isEmpty && !(f s).alike s.modified (f (s.veil s.modified))

/-- The fetch, decoding and execution of the next instruction (R409). -/
def State.issueHere (s : State) : Out := match s.fetchInstr with
  | .error (c, d) => .next (s.raise (s.trapHere c d))
  | .ok (i, t) => exec i t

/-- An `mmab` that is re-injected has not found room in the array queue yet: nothing of the split overtakes it (R286, R398). -/
def Split.requeues (w : Split) : Bool := w.ops.any fun (o : Op) => o.again && !o.sent && !o.faulted && match o.instr with
  | .mmab _ _ _ _ _ _ _ => true
  | _ => false

/-- The split in focus issues its next instruction, unless it waits inside its run or a deferred fault is to be taken. -/
def State.issueSlot (s : State) : Out :=
  if s.me.status ≠ .run ∨ s.me.faulting = true ∨ s.me.requeues = true ∨ s.needsHost State.issueHere = true then .next s
  else s.issueHere

/-! ### Arbitration (R68, R69) -/

/-- An event stands for the split, and comes before its next run. -/
def Split.eventDue (w : Split) : Bool :=
  w.reach == .all && (w.pend.halt || w.pend.stop || w.pend.preempt || w.pend.slice) || w.faulting

/-- R68. -/
def Split.ready (w : Split) : Bool :=
  w.resident && !w.inRun && w.status == .run && w.results.isEmpty && !w.pend.kill && !w.eventDue

def Split.onPipe (w : Split) (k c p : Nat) : Bool := w.resident && w.stack == k && w.core == c && w.slot % 4 == p

/-- Splits of a pipe that have become ready begin to age. -/
def State.markReady (s : State) (k c p : Nat) : State :=
  let n := (s.pipe k c p).ends
  s.mapSplits fun w =>
    if w.onPipe k c p && w.ready && !w.wasReady then { w with wasReady := true, since := n } else w

/-- The better of two ready splits: age, then slot; `ends` is the pipe's count. -/
def older (ends : Nat) (a b : Split) : Split :=
  let x := ends - a.since
  let y := ends - b.since
  if x < y ∨ x = y ∧ b.slot < a.slot then b else a

/-- The split that starts the next run on a pipe (R69). -/
def pickRun (ends : Nat) (ws : List Split) : Option Split :=
  let old := ws.filter fun (w : Split) => 24 ≤ ends - w.since
  let top := ws.foldl (fun n (w : Split) => Nat.max n w.prio) 0
  match (if old.isEmpty then ws.filter fun (w : Split) => w.prio == top else old) with
  | [] => none
  | w :: rest => some (rest.foldl (older ends) w)

/-- The choice of the pipe's next run, whose first instruction issues in the pipe's next cycle (R69). R70's worked example has a
run start in the cycle that R69 selects it in (DESIGN CHOICE, log entry 69). -/
def State.arbitrate (s : State) (k c p : Nat) : State :=
  let u := s.markReady k c p
  let n := (u.pipe k c p).ends
  match pickRun n (u.allSplits.filter fun (w : Split) => w.onPipe k c p && w.ready) with
  | none => u
  | some w =>
    (u.onPipe k c p fun q => { q with run := some w.id }).onSplit w.id fun v =>
      { v with inRun := true, stalled := false, runLen := 0, since := n }

/-- One issue slot of a pipe. A split that has become ready ages from here on, also while another holds the pipe (R69). -/
def State.pipeSlot (s0 : State) (k c p : Nat) : Out :=
  let s := s0.markReady k c p
  let q := s.pipe k c p
  if 0 < q.hold then .next (s.onPipe k c p fun q => { q with hold := q.hold - 1 })
  else match q.run with
    | none => .next (s.arbitrate k c p)
    | some id => match s.focus id with
      | none => .next (s.onPipe k c p fun q => { q with run := none })
      | some t => t.issueSlot

/-! ### A cycle of a stack -/

/-- What the next cycle of a core's clock brings by itself (R373, R374); `row2` where row 2 of R490 takes its next step. -/
def Core.tick (c : Core) (ru : Nat) (row2 : Bool) : Core :=
  let a := { c with cycle := c.cycle + 1 }
  let b := if a.rampDue ru then a.rampStep else a
  let d := if row2 then { b with hstep := Nat.max 1 (b.hstep - 1) } else b
  if d.cycle % 8 = 0 then { d with kstep := Nat.min d.fstep (Nat.min d.hstep (Nat.max d.ramp 1)) } else d

/-- The monitors of a stack that sample a level (R376, R377). -/
def StackSt.levels (t : StackSt) : List Nat := (List.range 32).filter fun n =>
  let m := t.monitor n
  m.cfg.getLsbD 63 && 1 ≤ bitsOf m.cfg.toNat 55 48 && bitsOf m.cfg.toNat 55 48 ≤ 7

/-- The router clock goes on by `n` (R13); each 1,024 of its cycles the levels are due to be sampled, and no sample that is due is
lost (R377). -/
def StackSt.routerTick (t : StackSt) (n : Nat) : StackSt :=
  let now := t.rclock + n
  { t with rclock := now, samples := if now / 1024 = t.rclock / 1024 then t.samples else t.samples ++ t.levels }

/-- The router cycles that pass with the stack's next cycle: ten pass in nine of its own (R13, R66). -/
def StackSt.routerCycles (t : StackSt) : Nat := if (t.clock + 1) % 9 = 0 then 2 else 1

/-- The counters of a stack on its next cycle (R73, R216, R218, R375, R436). Row 2 of R490 lowers HSTEP each 64 cycles from its
entry on. -/
def StackSt.tick (t0 : StackSt) (ru : Nat) : StackSt :=
  let t := t0.routerTick t0.routerCycles
  let row2 := t.topLimit == some 2 && (t.clock + 1 - t.row2At) % 64 == 0
  let u := { t with
    clock := t.clock + 1, charge := t.charge || (t.clock + 1) % 1024 == 0, cores := t.cores.map fun (c : Core) => c.tick ru row2,
    budgets := t.budgets.map fun (b : Nat × Nat × Bool) => (b.1, b.2.1 - 1, b.2.2),
    hbudgets := t.hbudgets.map fun (b : Nat × Nat) => (b.1, b.2 - 1) }
  { u with resv := (u.resv.filter fun (r : Resv) => !u.resvOut r).map fun (r : Resv) =>
      if u.holdOut r then { r with hold := false } else r }

/-- Whether anything on a stack needs its clock. -/
def State.ticks (s : State) (k : Nat) : Bool :=
  let q := s.stk k
  q.pstate == 0 && ((s.allSplits.any fun (w : Split) => w.resident && w.stack == k) || !q.resv.isEmpty
    || (q.budgets.any fun b => b.2.1 != 0) || (q.hbudgets.any fun b => b.2 != 0)
    || q.cores.toList.any fun (c : Core) => !c.queue.isEmpty || (c.pipes.toList.any fun (p : Pipe) => 0 < p.hold))

/-- The pipes that have something to do on a cycle. -/
def State.busyPipes (s : State) (k : Nat) : List (Nat × Nat) :=
  ((List.range 8).map fun c => (List.range 4).map fun p => (c, p)).flatten.filter fun x =>
    let q := s.pipe k x.1 x.2
    0 < q.hold || q.run.isSome || s.allSplits.any fun (w : Split) => w.onPipe k x.1 x.2

/-- The clocks of the stacks at which nothing happens go on with those of stack `k`, where `k` is the first at which something
does: router clocks also in A1 and A2 (R13; log entry 20). -/
def State.follow (s : State) (k : Nat) : State :=
  if (List.range 16).find? s.ticks = some k then
    let n := (s.stk k).routerCycles
    (List.range 16).foldl (fun (t : State) j =>
      if j = k ∨ s.ticks j = true then t
      else match (t.stk j).pstate with
        | 0 => t.onStk j fun q => q.tick s.ru
        | 1 | 2 => t.onStk j fun q => q.routerTick n
        | _ => t) s
  else s

/-- The next cycle of a stack: counters move, results land (R70), and its pipes have their slots before them. -/
def State.newCycle (s0 : State) (k : Nat) : State :=
  let s := s0.follow k
  let t := s.onStk k fun q => q.tick s.ru
  let ids := (t.allSplits.filter fun (w : Split) => w.stack == k && !w.results.isEmpty && w.resident).map Split.id
  let u := if ids.isEmpty then t else t.forSplits ids State.landDue
  u.onStk k fun q => { q with todo := u.busyPipes k }

/-- The next slot of a stack, or its next cycle. -/
def State.stackSlot (s : State) (k : Nat) : Out := match (s.stk k).todo with
  | [] => .next (s.newCycle k)
  | (c, p) :: rest => (s.onStk k fun q => { q with todo := rest }).pipeSlot k c p

/-! ### Splits of a grid that has ended (R434), and waits that are over -/

/-- A context of the split is still in the module's fabric or in an arrival queue. -/
def State.carriesSplit (s : State) (id : Nat) : Bool :=
  let mine (p : Payload) : Bool := match p with
    | .context w _ _ _ _ => w == id
    | _ => false
  (s.fabric.any fun (p : Packet) => mine p.pl) || s.stks.toList.any fun (q : StackSt) => q.arrivals.any mine

/-- A split of an aborted grid stops for good once it is between runs, has no instruction outstanding, awaits no split
number, and is not on its way inside the module. -/
def State.killable (s : State) (w : Split) : Bool :=
  w.pend.kill && !w.inRun && w.ops.isEmpty && match w.status with
    | .wait (.number :: _) _ => false
    | .transit => !s.carriesSplit w.id
    | _ => true

/-- Whether the next wait of the split in focus is over. -/
def State.mayAdvance (s : State) : Bool := match s.me.status with
  | .wait [] k => (({ s with me := { s.me with status := .run } }).proceed k).isSome
  | .wait (x :: _) _ => s.waitOver x
  | _ => false

/-- A split whose wait is over goes on, and a split of an aborted grid ends. -/
def State.resumeSplit (s : State) (id : Nat) : Option State := (s.focus id).bind fun t =>
  if t.killable t.me then some (t.endSplit t.me.act)
  else if t.mayAdvance && !(t.me.pend.kill && !t.me.inRun) then some t.advance
  else none

/-! ### What can come next -/

/-- What can come next: an event of the opcode table, the next slot or cycle of a stack, a split whose wait is over, or a packet
that goes on. -/
inductive Move
  | ev (i : Instr)
  | slot (k : Nat)
  | resume (id : Nat)
  /-- The packet at the head of a pair reaches its stack, where no event of the table says so. -/
  | deliver (a b : Nat)
  /-- The packet at the head of a pair leaves the module (R364). -/
  | cross (a b : Nat)
  /-- The oldest packet at a Mervel link enters the module (R364). -/
  | enter (l : Nat)
  deriving DecidableEq, Repr

/-- An event, where it can take place. -/
def evIf (b : Bool) (i : Instr) : List Move := if b then [.ev i] else []

/-- An event that a stack serves: one in a power state is woken first (R371). -/
def State.servedMove (s : State) (k : Nat) (b : Bool) (m : Move) : List Move :=
  let q := s.stk k
  if q.pstate = 0 then (if b then [m] else []) else evIf (!q.waking) (.stackWake (Fin.ofNat 16 k))
def State.servedEv (s : State) (k : Nat) (b : Bool) (i : Instr) : List Move := s.servedMove k b (.ev i)

def st16 (k : Nat) : Fin 16 := Fin.ofNat 16 k

/-- The packet at the head of a path. -/
def State.packetMoves (s : State) (a b : Nat) : List Move := match s.head a b with
  | none => []
  | some (pl, t) => match pl with
    | .post w gid who asid op ty pa data pois after no kin =>
      s.servedEv b (t.performPost a b w gid who asid op ty pa pois data after no kin).isSome (.post a b)
    | .postAck _ _ _ => [.ev (.postAcknowledgement a b)]
    | .probe _ _ => s.servedEv b true (.probe a b)
    | .probeAnswer _ _ _ => [.ev (.probeAnswer a b)]
    | .context _ _ _ _ _ => s.servedEv b (s.admissionStep b).isSome (.contextAdmission (st16 b))
    | .numReq _ _ _ => [.ev (.splitTableRequest a b)]
    | .numAns w _ => evIf ((s.focus w).bind State.divisionStep).isSome (.division w)
    | .numFree _ _ | .report _ _ _ _ _ _ _ => [.ev (.splitTableReport a b)]
    | .barrier grid team _ n _ _ _ _ _ _ => s.servedEv b (!(t.updateWaits (t.barrierPa grid team n) none)) (.barrierArrival a b)
    | .object pa _ _ _ _ _ _ _ _ => s.servedEv b (!(t.updateWaits pa none)) (.barrierObjectUpdate a b)
    | .rangeReq kind w gid _ _ _ g _ => evIf (!(t.stealWaits b kind w gid g)) (.rangeRequest a b)
    | .rangeRep _ _ _ _ => [.ev (.rangeReply a b)]
    | .halt w => [.ev (.halt w)]
    | .burst _ _ _ _ _ _ | .area _ _ _ _ | .fetch _ _ _ _ | .host _ | .hostBack _ _ =>
      s.servedMove b (s.deliverStep a b).isSome (.deliver a b)
    | .record _ => if (s.deliverStep a b).isSome then [.deliver a b] else []
    | .fetched _ _ | .jobDone _ _ _ _ | .complete _ _ _ _ | .abortShare _ | .guest _ _ _ _ _ _ => [.deliver a b]

/-- What packets can do: on the mesh, at the link by which they leave, and at the links by which others enter. -/
def State.fabricMoves (s : State) : List Move :=
  (((s.fabric.map fun (p : Packet) => (p.src, p.dst)).eraseDups).map fun x =>
      if x.2 < 16 then s.packetMoves x.1 x.2 else if (s.crossStep x.1 x.2).isSome then [.cross x.1 x.2] else []).flatten
    ++ ((s.md.inbound.map fun x => x.1).eraseDups.filter fun l => (s.enterStep l).isSome).map Move.enter

/-- A link retrains by itself after 16 consecutive retries (R486). -/
def State.linkMoves (s : State) : List Move :=
  (s.md.links.filter fun x => 16 ≤ x.2.1 && !x.2.2 && linkThere x.1 && !Link.isDown s x.1).map fun x => .ev (.linkRetrain x.1)

/-- What a split can do by itself. The legs of issued instructions go on under an abort (R434). -/
def State.splitMoves (s : State) (w : Split) : List Move :=
  let at' {α : Type} (f : State → Option α) : Bool := ((s.focus w.id).bind f).isSome
  let leaves : Bool := match w.status with
    | .leaving _ => true
    | _ => false
  let waits : Bool := match w.status with
    | .wait _ _ => true
    | _ => false
  (w.ops.map fun (o : Op) => evIf (s.operationStep w.id o.id).isSome (.operationCompletion w.id o.id)).flatten
    ++ evIf (leaves && (!w.pend.kill || !w.ops.isEmpty) && at' State.legStep) (.legDeparture w.id)
    ++ evIf ((w.mustTrap || w.pend.preempt) && at' State.trapStep) (.trapEntry w.id)
    ++ evIf ((w.pend.halt || w.pend.stop) && at' State.takeHalt) (.halt w.id)
    ++ evIf (w.pend.slice && at' State.sliceStep) (.sliceExpiry w.id)
    ++ if (waits || w.pend.kill) && (s.resumeSplit w.id).isSome then [.resume w.id] else []

def lev (l : Nat) : Fin 4 := Fin.ofNat 4 l

/-- What a copy channel can do. -/
def State.chanMoves (s : State) (k l : Nat) : List Move :=
  let c := s.chan k l
  if !c.served && !c.rewritten && c.jobs.isEmpty then []
  else
    evIf (s.copyPacketStep k l).isSome (.copyPacket (st16 k) (lev l))
      ++ evIf (s.loopStep k l).isSome (.loopIteration (st16 k) (lev l))
      ++ evIf (s.signalStep k l).isSome (.signalPacket (st16 k) (lev l))
      ++ (c.jobs.map fun (j : CopyJob) => evIf (s.copyBurstStep k l j.no).isSome (.copyBurst (st16 k) (lev l) j.no)).flatten

/-- The copy engine serves the highest level that can do something (R260). -/
def State.copyMoves (s : State) (k : Nat) : List Move :=
  let ms := (((List.range 4).reverse.map fun l => s.chanMoves k l).find? fun m => !m.isEmpty).getD []
  if ms.isEmpty || (s.stk k).pstate = 0 then ms else evIf (!(s.stk k).waking) (.stackWake (st16 k))

/-- What a stack can do. -/
def State.stackMoves (s : State) (k : Nat) : List Move :=
  let q := s.stk k
  evIf (!q.arrivals.isEmpty && q.pstate == 0 && (s.admissionStep k).isSome) (.contextAdmission (st16 k))
    ++ s.copyMoves k
    ++ ((List.range 8).map fun c => evIf (!(q.core c).queue.isEmpty && (s.nextPass k c).isSome)
        (.pass (st16 k) (Fin.ofNat 8 c))).flatten
    ++ ((q.budgets.filter fun b => b.2 == (0, false)).map fun b => .ev (.budgetExpiry (st16 k) b.1))
    ++ ((q.hbudgets.filter fun b => b.2 == 0).map fun b => .ev (.handlerBudgetExpiry (st16 k) b.1))
    ++ evIf q.waking (.powerStateExit (st16 k))
    ++ (if s.md.lattol = 0#64 && q.pstate == 0 then [] else
        evIf (s.powerStep k (s.restState k)).isSome (.powerStateEntry (st16 k) (lev (s.restState k))))
    ++ (q.samples.map fun n => .ev (.monitorSample (st16 k) (Fin.ofNat 32 n) (Config.freeWord s.fresh).toNat))
    ++ (if q.charge then [.ev (s.chargeOf k)] else [])
    ++ if !q.todo.isEmpty || s.ticks k then [.slot k] else []

/-- A core whose group met an uncorrectable error goes out of service once the grid has ended (R471, R485). -/
def State.retireMoves (s : State) : List Move :=
  (s.md.retiring.filter fun x =>
      (s.grids.all fun (g : Grid) => g.id != x.2.2) && (s.allGroups.all fun (g : Group) => g.grid != x.2.2)
        && (s.takenGslots x.1 x.2.1).isEmpty).map fun x =>
    .ev (.svcUpdate (st16 x.1) ((s.stk x.1).svc &&& ~~~(1#64 <<< x.2.1)))

/-- What the launcher can do. -/
def State.launchMoves (s : State) : List Move :=
  ((List.range 4).map fun l =>
      let r := s.ring l
      if !r.served && !r.rewritten && r.current.isNone then []
      else
        evIf (s.launchStep l).isSome (.launchPacket (lev l))
          ++ ((List.range 4).map fun i => evIf (s.depStep l i).isSome (.dependenceMet (lev l) (lev i))).flatten).flatten
    ++ evIf (!s.grids.isEmpty && s.placingStep.isSome) .placingTeams
    ++ (s.teams.map fun (t : Team) =>
        evIf (s.resumeStep t.grid t.team).isSome (.teamResumption t.grid t.team)
          ++ evIf (s.teamEndStep t.grid t.team).isSome (.teamEnd t.grid t.team)).flatten
    ++ (((s.grids.map fun (g : Grid) => g.id) ++ s.md.refused.map fun (r : Refused) => r.id).map fun n =>
        evIf (s.completionStep n).isSome (.completionRecord n)).flatten
    ++ evIf s.errorStep.isSome .errorRecord

/-- Everything that can come next. -/
def State.moves (s : State) : List Move :=
  s.fabricMoves ++ s.linkMoves ++ (s.allSplits.map s.splitMoves).flatten ++ ((List.range 16).map s.stackMoves).flatten
    ++ s.retireMoves ++ s.launchMoves

/-- Nothing can come next: the clocks of the stacks go on, and where they are gated, the router clocks (R13). -/
def State.idle (s : State) : State :=
  (List.range 16).foldl (fun (t : State) k => match (t.stk k).pstate with
    | 0 => t.newCycle k
    | 1 | 2 => t.onStk k fun q => q.routerTick 1
    | _ => t) s

def State.take (s : State) : Move → Out
  | .ev i => exec i s
  | .slot k => s.stackSlot k
  | .resume id => .next ((s.resumeSplit id).getD s)
  | .deliver a b => .next ((s.deliverStep a b).getD s)
  | .cross a b => .next ((s.crossStep a b).getD s)
  | .enter l => .next ((s.enterStep l).getD s)

/-- A packet of the host, whose arrival may rest on a line that the host itself holds. -/
def State.fromHostAt (s : State) (a b : Nat) : Bool := (s.head a b).any fun x => match x.1 with
  | .host _ | .hostBack _ _ => true
  | _ => false

/-- A move waits for the host (R360). A slot does not: the split in it waits by itself. -/
def State.moveHeld (s : State) (m : Move) : Bool := match m with
  | .slot _ => false
  | .deliver a b => !s.fromHostAt a b && s.needsHost fun t => t.take m
  | _ => s.needsHost fun t => t.take m

/-- Which of several moves comes next is the module's choice, a free value (log entry 2). -/
def State.choose (s : State) (ms : List Move) : Out := match ms with
  | [] => .next s.idle
  | [m] => s.take m
  | m :: rest => s.draw.take ((m :: rest).getD (Config.freeNat s.fresh % (rest.length + 1)) m)

/-- A step of the table that is no instruction word: only such may stand on the agenda. -/
def isEvent (i : Instr) : Bool := (encodeF i).op == 0

/-- What a fatal module still takes: the host and its register window, and resets (R488). -/
def fatalServes : Instr → Bool
  | .hostAccess _ | .hostSnoop _ | .cxlLinkDown | .registerWrite _ _ _ | .warmReset | .coldReset => true
  | .qring _ _ | .cring _ _ _ | .errlog _ | .skbctlThaw _ | .errstatClear | .monitorClear _ _ | .pwrcap _ | .ramp _ => true
  | _ => false

/-- An event that is no step of the host's waits for the host where it rests on a line the host holds modified (R360). -/
def State.eventHeld (s : State) : Instr → Bool
  | .hostAccess _ | .hostSnoop _ | .backInvalidateResponse _ _ => false
  | e => s.needsHost (exec e)

/-- What comes next: the merges of a check point that has come, before anything else (R48); the agenda's first event; or what the
module does by itself. A fatal module does nothing (R488). -/
def State.next (s : State) : Out :=
  if s.checkDue && !s.md.fatal then .next s.mergeAll
  else match s.agenda with
    | e :: es =>
      let t := { s with agenda := es }
      if isEvent e && (!s.md.fatal || fatalServes e) && !t.eventHeld e then exec e t else .next t
    | [] => if s.md.fatal then .fault .moduleFatal else s.choose (s.moves.filter fun m => !s.moveHeld m)

/-! ### A program word placed for the next step -/

/-- Where `placed` puts the code: physical address, which is also its virtual address. -/
def codeAt : Nat := 0x10000

/-- Stack 0 with the one pipe that holds the placed run before it, and the code page's leaf in the core's cache. -/
def placedStack (modno id : Nat) : StackSt :=
  let leaf : Dword := BitVec.ofNat 64 (modno * 2 ^ 42 + codeAt + 2 ^ 48 + 2 ^ 49 + 2 ^ 52)
  let c : Core := { Core.reset with
    pipes := vset Core.reset.pipes 0 { run := some id, hold := 0, ends := 0 },
    tlb := [{ asid := 0, level := 4, vpn := codeAt / 2 ^ 16, leaf := leaf }] }
  { StackSt.reset with todo := [(0, 0)], cores := vset StackSt.reset.cores 0 c }

/-- The module as loaded with the instruction whose words are `w`: one split of 32 lanes in its run at the code, and nothing
else in the module (log entry 13). -/
def State.placed (s : State) (nbits w : Nat) : State :=
  let n := s.nextId
  let e : TabEntry := { mask := BitVec.allOnes 32, loc := 0, core := 0, join := 0, valid := true, state := 0 }
  { State.reset with
    mem := s.mem.writeBytes (s.modno * 2 ^ 42 + codeAt) (bytesLE 20 (w % 2 ^ nbits)),
    me := { Split.none with
      id := n + 1, group := n, pc := BitVec.ofNat 64 codeAt, act := BitVec.allOnes 32, frame := 56, status := .run,
      inRun := true },
    win := { GroupSlot.none with group := n },
    gr := { Group.none with id := n, ended := false, table := vset Group.none.table 0 e },
    stks := vset State.reset.stks 0 (placedStack s.modno (n + 1)),
    md := { ModSt.reset with ready := true, domcfg := s.md.domcfg },
    nextId := n + 2, fresh := s.fresh }

end Sys2Proof.Machine
end

