-- ==== Sys2Proof/Safety.lean ====
section
/-! DEFINITION. Safety.lean: runs of the module, what counts as a safe run, and the words in which claims say what a step of
the table does: what an instruction waits for before it acts, what it leaves alone, and where its results go. -/

namespace Sys2Proof.Machine

/-! ### Runs -/

/-- `k` steps of the module, stopping at the first that answers no state. -/
def runSteps : Nat → State → Out
  | 0, s => .next s
  | k + 1, s => match step s with
    | .next t => runSteps k t
    | .fault r => .fault r
    | .refused r => .refused r

/-- A run of the module from `s` to `t`. -/
inductive Runs (s : State) : State → Prop
  | here : Runs s s
  | step {t u : State} : Runs s t → Machine.step t = .next u → Runs s u

/-- A run is safe when no step of it faults or refuses. -/
def SafeFrom (s : State) : Prop := ∀ t, Runs s t → ∃ u, step t = .next u

/-! ### Before an instruction acts -/

/-- No outstanding instruction holds up the next one: none is still to write a register, or pending reads are not checked
(R125, R426, R427). -/
def State.Clear (s : State) : Prop :=
  (∀ o ∈ s.me.ops, ∀ m r, o.pends s.me.wbase m r = false) ∨ (s.me.chktok = false ∧ s.me.resume ≠ 10)

/-- Token `k` can rise, and one more instruction that names a token can be outstanding (R381, R426). -/
def State.Room (s : State) (k : Tok) : Prop := s.me.tok k < 31 ∧ s.me.ops.length < 32

/-- The instruction at the head `h` acts: some lane is active under its guard, and nothing holds it up (R114). -/
def State.Acts (s : State) (h : Hd) : Prop := s.active h ≠ 0#32 ∧ s.Clear

/-- The split's newest entry is not a masked one that ends at `pc` (R47): its run goes on there as it stands. -/
def State.Straight (s : State) (pc : Dword) : Prop := maskedRpc s.own ≠ some pc

/-- A release of the split has nothing to wait for: no token counts, and no stack and no module holds a post of it (R44, R45,
R208). -/
structure State.Released (s : State) : Prop where
  status : s.me.status = .run
  toks : s.me.toks = Vector.replicate 8 0
  postloc : s.me.postloc = 0#16
  postmod : s.me.postmod = 0#64

/-- Nothing is outstanding either, and no result is in flight (R391). -/
structure State.Drained (s : State) : Prop extends State.Released s where
  ops : s.me.ops = []
  results : s.me.results = []

/-! ### What a step leaves alone -/

/-- Operations of the split in focus are served: it is not on its way to another stack, and its grid has not ended (R396,
R434). -/
structure State.Serves (s : State) : Prop where
  status : s.me.status ≠ .transit
  leaving : (s.me.status matches .leaving (.rft _)) = false
  alive : s.me.pend.kill = false

/-- What stack `k` sends to the home of `pa` is performed there at once: nothing that it has sent there before is still on its way,
no link of the path retrains, and the home rests in no power state (R12, R371, R486). -/
def State.Near (s : State) (k pa : Nat) : Prop :=
  s.pairWaits k (homeStack pa) = false ∧ (s.stk (homeStack pa)).pstate = 0

/-- A read by stack `k` at the home of `pa` is performed there at once: nothing that the home has sent to `k` is on its way either
(R12). -/
structure State.NearRead (s : State) (k pa : Nat) : Prop where
  near : s.Near k pa
  back : s.pairWaits (homeStack pa) k = false

/-- From `s` to `t` nothing that a program can read has changed: no register or predicate of the split, none of its other
registers, no byte of memory, and nothing of another split, of the tiles or of the swatch state. -/
structure Kept (s t : State) : Prop where
  regs : t.win.regs = s.win.regs
  sregs : t.me.sregs = s.me.sregs
  preds : t.me.preds = s.me.preds
  pal : t.me.pal = s.me.pal
  seeds : t.me.seeds = s.me.seeds
  range : (t.me.rlo, t.me.rhi, t.me.rdue) = (s.me.rlo, s.me.rhi, s.me.rdue)
  mstep : t.me.mstep = s.me.mstep
  trapinfo : t.me.trapinfo = s.me.trapinfo
  exited : t.me.exited = s.me.exited
  mem : t.mem = s.mem
  bytes : ∀ a, t.mem.byte a = s.mem.byte a
  tiles : t.gr.tiles = s.gr.tiles
  swatch : t.gr.swatch = s.gr.swatch
  splits : t.splits = s.splits

/-- From `s` to `t` the split in focus has moved on in its run. Nothing else changes but its results in flight, tokens and
outstanding operations: no register, no predicate, no special register, no byte of memory, nothing of another split. The
fields named on the right are the ones that may differ. -/
structure Moved (s t : State) : Prop where
  mem : t.mem = s.mem
  bytes : ∀ a, t.mem.byte a = s.mem.byte a
  me : t.me = { s.me with
    pc := t.me.pc, act := t.me.act, toks := t.me.toks, slice := t.me.slice, resume := t.me.resume, status := t.me.status,
    inRun := t.me.inRun, stalled := t.me.stalled, runLen := t.me.runLen, wasReady := t.me.wasReady, results := t.me.results,
    ops := t.me.ops, spin := t.me.spin, pend := t.me.pend, probes := t.me.probes, probeFailed := t.me.probeFailed }
  win : t.win = { s.win with entries := t.win.entries, check := t.win.check }
  gr : t.gr = s.gr
  splits : t.splits = s.splits
  slots : t.slots = s.slots
  groups : t.groups = s.groups
  teams : t.teams = s.teams
  grids : t.grids = s.grids
  stks : ∃ f, t.stks = (s.onPipe s.me.stack s.me.core s.myPipe f).stks
  fabric : t.fabric = s.fabric
  md : t.md = s.md
  agenda : t.agenda = s.agenda

/-- The split goes on with the instruction at `x` (R47, R67): its lanes and entries are as they were unless the address is
the reconvergence address of its newest entry. -/
structure GoesTo (s t : State) (x : Dword) : Prop where
  pc : s.Straight x → t.me.pc = x
  act : s.Straight x → t.me.act = s.me.act
  entries : s.Straight x → t.win.entries = s.win.entries
  status : t.me.status = s.me.status

/-- A fixed-latency instruction of `n` bytes has issued: `ws` land `lat` cycles from now (R70), and the next instruction
follows. -/
structure Lands (s : State) (n lat : Nat) (ws : List Wr) (t : State) : Prop where
  results : t.me.results = s.me.results ++ ws.map fun w => { due := s.myCore.cycle + lat, wr := w }
  toks : t.me.toks = s.me.toks
  ops : t.me.ops = s.me.ops
  moved : Moved s t
  goes : GoesTo s t (s.me.pc + BitVec.ofNat 64 n)

/-- A long-latency instruction `i` has issued (R124): its token has risen, and it is the newest outstanding operation of the
split, which `what` describes. The next instruction follows. -/
structure Starts (s : State) (i : Instr) (h : Hd) (k : Tok) (what : Op → Prop) (t : State) : Prop where
  op : ∃ o, t.me.ops = s.me.ops ++ [o] ∧ o.instr = i ∧ o.ipc = s.me.pc ∧ o.tok = some k ∧ o.act = s.active h
    ∧ o.wb = s.me.wbase ∧ o.landed = 0#32 ∧ what o
  toks : t.me.toks = vset s.me.toks k.val (s.me.tok k + 1)
  results : t.me.results = s.me.results
  moved : Moved s t
  goes : GoesTo s t (s.me.pc + BitVec.ofNat 64 i.bytes)

/-- A long-latency instruction that also acquires has issued: as under `Starts`, but its run has ended, and the split waits
until the operation has completed (R208). -/
structure Acquires (s : State) (i : Instr) (h : Hd) (k : Tok) (what : Op → Prop) (t : State) : Prop where
  op : ∃ o, t.me.ops = s.me.ops ++ [o] ∧ o.instr = i ∧ o.ipc = s.me.pc ∧ o.tok = some k ∧ o.act = s.active h
    ∧ o.wb = s.me.wbase ∧ o.landed = 0#32 ∧ what o ∧ t.me.status = .wait [.done o.id] (.goto t.me.pc)
  toks : t.me.toks = vset s.me.toks k.val (s.me.tok k + 1)
  results : t.me.results = s.me.results
  moved : Moved s t
  pc : s.Straight (s.me.pc + BitVec.ofNat 64 i.bytes) → t.me.pc = s.me.pc + BitVec.ofNat 64 i.bytes
  inRun : t.me.inRun = false

/-- An instruction on token `k` has issued, as an acquire or not. -/
def Issues (s : State) (i : Instr) (h : Hd) (k : Tok) (acq : Bool) (what : Op → Prop) (t : State) : Prop :=
  if acq then Acquires s i h k what t else Starts s i h k what t

/-- `exec` answers a next state with the property. -/
def Answers (i : Instr) (s : State) (post : State → Prop) : Prop := ∃ t, exec i s = .next t ∧ post t

/-! ### Events of the agents -/

/-- From `s` to `t` nothing has changed but stack `k`, one of its cores, or the module's own registers and queues. -/
def OnlyStk (s t : State) (k : Nat) : Prop := t = s.onStk k fun _ => t.stk k
def OnlyCore (s t : State) (k c : Nat) : Prop := t = s.onCore k c fun _ => t.core k c
def OnlyMd (s t : State) : Prop := t = { s with md := t.md }

/-- A record of this type and payload has left stack `k` for the launcher, behind what the stack has sent there; it gets its SEQ
when it arrives (R477, R478). -/
def SendsRecord (s t : State) (k typ : Nat) (payload : List Byte) : Prop :=
  ∃ r, t.md.errq = s.md.errq ++ [r] ∧ r.typ = typ ∧ r.loc = 16 * (s.md.domcfg.toNat % 64) + k ∧ r.seq = none
    ∧ r.payload = payload ∧ t.fabric = s.fabric ++ [⟨k, 0, k, .record r.no⟩] ∧ t.md.seq = s.md.seq

/-- An event has entered the sketchbook of stack `k`, which is not frozen (R491). -/
def Sketched (s t : State) (k evt : Nat) : Prop :=
  let b := (s.stk k).sketch
  let c := (t.stk k).sketch
  ∃ e, c.ring = (b.next, e) :: b.ring.filter (fun x => x.1 != b.next) ∧ e.evt = evt ∧ c.next = (b.next + 1) % 4096
    ∧ c.lost = b.lost ∧ c.frozen = false

/-- Pass `p` of group `x` is the only pass left in the queue of core `c` of stack `k`, and its slot may be now; the lines that its read
covers hold `ls`, and none of them is poisoned (R278, R280, R470). -/
structure TakesSlot (s : State) (k : Fin 16) (c : Fin 8) (p : Pass) (x : Group) (ls : List Nat) : Prop where
  next : ∃ g, s.nextPass k.val c.val = some (g, p) ∧ (s.core k.val c.val).queue = [g]
    ∧ (g.b = none ∧ (∀ y ∈ p.segs, s.mem.poisoned y.1 = false) ∧ ls = p.segs.map (fun y => s.mem.read y.1 64)
      ∨ g.b = some (ls.map fun y => (y, false)) ∧ ls.length = p.segs.length ∧ ∀ y ∈ ls, y < 2 ^ 512)
  group : s.group? p.group = some x
  named : p.group ≠ 0 ∧ p.split ≠ 0

/-- A pass has taken its slot: it has left the queue, and no byte of memory has changed. -/
def SlotTaken (s t : State) (k : Fin 16) (c : Fin 8) : Prop := t.mem = s.mem ∧ t.splits.length = s.splits.length
  ∧ queued (t.core k.val c.val).queue + 1 = queued (s.core k.val c.val).queue

/-- The newest values of the outstanding operation that a pass belongs to. -/
def State.opOfPass (s : State) (p : Pass) : Option Op := (s.split? p.split).bind fun w => w.ops.find? fun o => o.id == p.op

/-! ### Instructions -/

/-- The forms that only a privileged split executes (R380, R412). -/
def needsPriv : Instr → Bool
  | .stkspill _ _ _ _ _ | .stkfill _ _ _ _ _ | .ctxsv _ _ _ _ | .ctxld _ _ | .tlbi _ _ _ _ _ _ => true
  | .sput _ r _ => r == .trapinfo
  | _ => false

/-- `rft` is legal in a handler only (R396, R412). -/
def needsHandler : Instr → Bool
  | .rft _ => true
  | _ => false

/-- The forms that act as a release (R208, R273, R274). -/
def releases : Instr → Bool
  | .st _ _ _ _ _ q _ | .stg _ _ _ _ _ q _ _ | .stp _ _ _ _ q | .atp _ _ _ _ _ _ q | .stz _ _ _ _ _ _ _ q _ => q.isSome
  | .atg _ _ _ _ _ _ _ o _ _ | .scg _ _ _ _ _ o _ _ => o.rel
  | .bexp _ arv _ _ _ _ => arv
  | .cpkt _ _ _ _ _ _ | .barv _ _ _ _ _ => true
  | _ => false

/-- Each element of a lane value is an exact integer, saturated to the type's range or reduced modulo 2^n (R150). -/
def ElemsAre (ty : ITy) (sat : Bool) (r : Word) (f : Nat → Int) : Prop := ∀ i < 32 / ty.width,
  (elemBits ty r.toNat i : Int) = (if sat then satTo (f i) (tyLo ty) (tyHi ty) else f i) % (2 ^ ty.width : Int)

end Sys2Proof.Machine
end

