-- ==== Sys2Proof/Certificates/Slice0/Obligations.lean ====
section
/-! DEFINITION. Certificates/Slice0/Obligations.lean: the statements for the provers, each with the rules of spec/ that it
formalises. -/

open Sys2Proof Sys2Proof.Machine

/-! ### Integer instructions -/

/-- R114: an instruction of any opcode, none of whose lanes is active under its guard, leaves every register, flag, token and
byte of memory as it is, and the split goes on with the next one. The privileged forms and `rft` are checked first
(R409). -/
def Obligations.GuardOffHasNoEffect : Prop :=
  ∀ (i : Instr) (s : State), i.wf = true → s.active (hdOf i) = 0#32 → (needsPriv i = true → s.me.priv = true)
    → (needsHandler i = true → s.me.inHandler = true) →
    Answers i s fun t => t.me.results = s.me.results ∧ t.me.toks = s.me.toks ∧ t.me.ops = s.me.ops ∧ Moved s t
      ∧ GoesTo s t (s.me.pc + BitVec.ofNat 64 i.bytes)

/-- R152: `add` and `sub` of 32 bits wrap, in the active lanes, and land 4 cycles later. -/
def Sys2Proof.Claims.AddSubWrap : Prop := ∀ (s : State) (x : VA), s.Acts x.h →
  Answers (.add x) s (Lands s (Instr.add x).bytes 4 (s.toV x.h x.d fun l => lane (s.v x.a) l + lane (s.b x.b) l))
  ∧ Answers (.sub x) s (Lands s (Instr.sub x).bytes 4 (s.toV x.h x.d fun l => lane (s.v x.a) l - lane (s.b x.b) l))

/-- R150, R152: `add` and `sub` of any element type and variant: each element is the exact sum or difference, saturated or
wrapped, and a carry variant adds its predicate's bit and gives the carry or borrow of the unsigned values. -/
def Sys2Proof.Claims.AddSubElements : Prop :=
  ∀ (s : State) (x : VA) (ty : ITy) (sat : Bool) (cv : Carry), s.Acts x.h → (Instr.addX x ty sat cv).wf = true →
  let cin (l : Nat) : Nat := match cv with
    | .none | .cc _ => 0
    | .cx p | .cxc p => if (s.p p).has l then 1 else 0
  let out (f : Nat → Bool) : List Wr := match cv with
    | .none | .cx _ => []
    | .cc p | .cxc p => [.p p.val (s.active x.h) (Mask.where' f)]
  (∃ r : Lanes, Answers (.addX x ty sat cv) s (Lands s (Instr.addX x ty sat cv).bytes 4
      (.v (s.phys x.d) (s.active x.h) r
        :: out fun l => 2 ^ 32 ≤ (lane (s.v x.a) l).toNat + (lane (s.b x.b) l).toNat + cin l))
    ∧ ∀ l < 32, ElemsAre ty sat (lane r l) fun i =>
        elemInt ty (lane (s.v x.a) l).toNat i + elemInt ty (lane (s.b x.b) l).toNat i + cin l)
  ∧ (∃ r : Lanes, Answers (.subX x ty sat cv) s (Lands s (Instr.subX x ty sat cv).bytes 4
      (.v (s.phys x.d) (s.active x.h) r
        :: out fun l => (lane (s.v x.a) l).toNat < (lane (s.b x.b) l).toNat + cin l))
    ∧ ∀ l < 32, ElemsAre ty sat (lane r l) fun i =>
        elemInt ty (lane (s.v x.a) l).toNat i - elemInt ty (lane (s.b x.b) l).toNat i - cin l)

/-- R150, R152: `add` and `sub` of 32 bits, and of every element type and variant. -/
def Obligations.AddAndSubtract : Prop := Claims.AddSubWrap ∧ Claims.AddSubElements

/-- R153: the products of 32-bit lanes and of elements are exact before they are wrapped, saturated or cut to the high half;
`mad` adds its third operand before that. -/
def Obligations.ProductsAreExact : Prop :=
  ∀ (s : State) (x : VA) (ty : ITy) (sat : Bool) (c : VReg), s.Acts x.h → ty.vec = true →
  Answers (.mul x) s (Lands s (Instr.mul x).bytes 4 (s.toV x.h x.d fun l => lane (s.v x.a) l * lane (s.b x.b) l))
  ∧ (Answers (.mulh x) s (Lands s (Instr.mulh x).bytes 4 (s.toV x.h x.d fun l =>
      BitVec.ofInt 32 ((lane (s.v x.a) l).toInt * (lane (s.b x.b) l).toInt / 2 ^ 32))))
  ∧ (∃ r : Lanes, Answers (.mulX x ty sat) s (Lands s (Instr.mulX x ty sat).bytes 4 [.v (s.phys x.d) (s.active x.h) r])
    ∧ ∀ l < 32, ElemsAre ty sat (lane r l) fun i =>
        elemInt ty (lane (s.v x.a) l).toNat i * elemInt ty (lane (s.b x.b) l).toNat i)
  ∧ (∃ r : Lanes, Answers (.mulhX x ty) s (Lands s (Instr.mulhX x ty).bytes 4 [.v (s.phys x.d) (s.active x.h) r])
    ∧ ∀ l < 32, ElemsAre ty false (lane r l) fun i =>
        elemInt ty (lane (s.v x.a) l).toNat i * elemInt ty (lane (s.b x.b) l).toNat i / 2 ^ ty.width)
  ∧ (∃ r : Lanes, Answers (.mad x ty sat c) s (Lands s (Instr.mad x ty sat c).bytes 4 [.v (s.phys x.d) (s.active x.h) r])
    ∧ ∀ l < 32, ElemsAre ty sat (lane r l) fun i =>
        elemInt ty (lane (s.v x.a) l).toNat i * elemInt ty (lane (s.b x.b) l).toNat i + elemInt ty (lane (s.v c) l).toNat i)

/-- R154: `dpb` adds its four byte products, each side read as the variant says, to the 32-bit third operand, and wraps or
saturates the exact sum once. -/
def Obligations.DotProductAccumulates : Prop :=
  ∀ (s : State) (x : VA) (sg : Fin 4) (sat : Bool) (c : VReg), s.Acts x.h →
  let ta : ITy := if sg.val % 2 = 0 then .i8 else .n8
  let tb : ITy := if sg.val / 2 = 0 then .i8 else .n8
  let el (l i : Nat) : Int := elemInt ta (lane (s.v x.a) l).toNat i * elemInt tb (lane (s.b x.b) l).toNat i
  ∃ r : Lanes, Answers (.dpb x sg sat c) s (Lands s (Instr.dpb x sg sat c).bytes 4 [.v (s.phys x.d) (s.active x.h) r])
    ∧ ∀ l < 32, ElemsAre .i32 sat (lane r l) fun _ => (lane (s.v c) l).toInt + el l 0 + el l 1 + el l 2 + el l 3

/-- R155: minimum and maximum by the signedness of the type, absolute value, negation, complement, population count, leading
zeros and bit reversal, element by element. -/
def Obligations.MinMaxAndUnary : Prop :=
  ∀ (s : State) (x : VA) (u : U) (ty : ITy) (sat : Bool), s.Acts x.h → s.Acts u.h → ty.vec = true →
  let bin (i : Instr) (t : ITy) (f : Int → Int → Int) : Prop :=
    ∃ r : Lanes, Answers i s (Lands s i.bytes 4 [.v (s.phys x.d) (s.active x.h) r])
      ∧ ∀ l < 32, ElemsAre t false (lane r l) fun k =>
          f (elemInt t (lane (s.v x.a) l).toNat k) (elemInt t (lane (s.b x.b) l).toNat k)
  let un (i : Instr) (t : ITy) (st : Bool) (f : Int → Int) : Prop :=
    ∃ r : Lanes, Answers i s (Lands s i.bytes 4 [.v (s.phys u.d) (s.active u.h) r])
      ∧ ∀ l < 32, ElemsAre t st (lane r l) fun k => f (elemInt t (lane (s.v u.a) l).toNat k)
  let bits (i : Instr) (t : ITy) (f : (Nat → Bool) → Nat → Bool) : Prop :=
    ∃ r : Lanes, Answers i s (Lands s i.bytes 4 [.v (s.phys u.d) (s.active u.h) r])
      ∧ ∀ l < 32, ∀ k < 32 / t.width, ∀ j < t.width, (elemBits t (lane r l).toNat k).testBit j
          = f (elemBits t (lane (s.v u.a) l).toNat k).testBit j
  let count (i : Instr) (t : ITy) (f : (Nat → Bool) → Nat) : Prop :=
    ∃ r : Lanes, Answers i s (Lands s i.bytes 4 [.v (s.phys u.d) (s.active u.h) r])
      ∧ ∀ l < 32, ∀ k < 32 / t.width, elemBits t (lane r l).toNat k
          = f (elemBits t (lane (s.v u.a) l).toNat k).testBit
  let ones (w : Nat) (b : Nat → Bool) : Nat := ((List.range w).filter b).length
  let lead (w : Nat) (b : Nat → Bool) : Nat := ((List.range w).takeWhile fun j => !b (w - 1 - j)).length
  bin (.min x) .i32 min ∧ bin (.minX x ty) ty min ∧ bin (.max x) .i32 max ∧ bin (.maxX x ty) ty max
  ∧ un (.abs u) .i32 false (fun a => |a|) ∧ un (.absX u ty sat) ty sat (fun a => |a|)
  ∧ un (.neg u) .i32 false (fun a => -a) ∧ un (.negX u ty sat) ty sat (fun a => -a)
  ∧ bits (.not u) .i32 (fun b j => !b j) ∧ bits (.notX u ty) ty (fun b j => !b j)
  ∧ bits (.brev u) .i32 (fun b j => b (31 - j)) ∧ bits (.brevX u ty) ty (fun b j => b (ty.width - 1 - j))
  ∧ count (.popc u) .i32 (ones 32) ∧ count (.popcX u ty) ty (ones ty.width)
  ∧ count (.clz u) .i32 (lead 32) ∧ count (.clzX u ty) ty (lead ty.width)

/-- R156: division rounds toward zero; a zero divisor gives all ones and the dividend, and the lowest value by −1 gives the
lowest value, the highest with `.sat`, and remainder 0. The operation is outstanding on its token. -/
def Obligations.DivisionCorners : Prop :=
  ∀ (s : State) (x : VA) (ty : ITy) (sat : Bool) (k : Tok), s.Acts x.h → s.Room k → ty.vec = true →
  let a (l i : Nat) : Int := elemInt ty (lane (s.v x.a) l).toNat i
  let b (l i : Nat) : Int := elemInt ty (lane (s.b x.b) l).toNat i
  let corner (l i : Nat) : Prop := ty.signed = true ∧ a l i = tyLo ty ∧ b l i = -1
  let res (i : Instr) (f : Nat → Word → Prop) : Prop := Answers i s (Starts s i x.h k fun o =>
    ∃ r : Lanes, o.writes = [.v (s.phys x.d) (s.active x.h) r] ∧ ∀ l < 32, f l (lane r l))
  res (.div x ty sat k) (fun l w => ∀ i < 32 / ty.width,
    (b l i = 0 → elemBits ty w.toNat i = 2 ^ ty.width - 1)
    ∧ (corner l i → elemInt ty w.toNat i = if sat then tyHi ty else tyLo ty)
    ∧ (b l i ≠ 0 → ¬ corner l i → elemInt ty w.toNat i = (a l i).tdiv (b l i)))
  ∧ res (.rem x ty k) (fun l w => ∀ i < 32 / ty.width,
    (b l i = 0 → elemInt ty w.toNat i = a l i)
    ∧ (b l i ≠ 0 → elemInt ty w.toNat i = a l i - b l i * (a l i).tdiv (b l i)))

/-- R157: the bitwise operations act on all 32 bits of a lane whatever the type. -/
def Sys2Proof.Claims.BitwiseWhateverTheType : Prop :=
  ∀ (s : State) (x : VA) (ty : ITy), s.Acts x.h →
  let gives (i : Instr) (f : Word → Word → Word) : Prop :=
    Answers i s (Lands s i.bytes 4 (s.toV x.h x.d fun l => f (lane (s.v x.a) l) (lane (s.b x.b) l)))
  gives (.and x) (· &&& ·) ∧ gives (.andX x ty) (· &&& ·) ∧ gives (.or x) (· ||| ·) ∧ gives (.orX x ty) (· ||| ·)
  ∧ gives (.xor x) (· ^^^ ·) ∧ gives (.xorX x ty) (· ^^^ ·)

/-- R157: the shifts of an element by its own amount: what is shifted past the element is lost, an amount of the width or more
leaves zero or the sign, and a rotation takes the amount modulo the width. -/
def Sys2Proof.Claims.ShiftsByElement : Prop :=
  ∀ (s : State) (x : VA) (ty : ITy), s.Acts x.h → ty.vec = true →
  let gives (i : Instr) (t : ITy) (f : (Nat → Bool) → Nat → Nat → Bool) : Prop :=
    ∃ r : Lanes, Answers i s (Lands s i.bytes 4 [.v (s.phys x.d) (s.active x.h) r])
      ∧ ∀ l < 32, ∀ k < 32 / t.width, ∀ j < t.width, (elemBits t (lane r l).toNat k).testBit j
          = f (elemBits t (lane (s.v x.a) l).toNat k).testBit (elemBits t (lane (s.b x.b) l).toNat k) j
  let shl (b : Nat → Bool) (n j : Nat) : Bool := n ≤ j && b (j - n)
  let shr (w : Nat) (b : Nat → Bool) (n j : Nat) : Bool := j + n < w && b (j + n)
  let sra (w : Nat) (b : Nat → Bool) (n j : Nat) : Bool := b (min (j + n) (w - 1))
  let rot (w : Nat) (b : Nat → Bool) (n j : Nat) : Bool := b ((j + w - n % w) % w)
  gives (.shl x) .i32 shl ∧ gives (.shlX x ty) ty shl ∧ gives (.shr x) .i32 (shr 32) ∧ gives (.shrX x ty) ty (shr ty.width)
  ∧ gives (.sra x) .i32 (sra 32) ∧ gives (.sraX x ty) ty (sra ty.width)
  ∧ gives (.rot x) .i32 (rot 32) ∧ gives (.rotX x ty) ty (rot ty.width)

/-- R158: a bit field is cut at bit 31; `bfx` extends it by the type and `bfi` puts it into the third operand. -/
def Sys2Proof.Claims.BitFieldsAreCut : Prop :=
  ∀ (s : State) (x : VA) (ty : ITy) (c : VReg), s.Acts x.h → ty.width = 32 →
  let p (l : Nat) : Nat := (lane (s.b x.b) l).toNat % 256
  let w (l : Nat) : Nat :=
    if 32 ≤ p l then 0 else min ((lane (s.b x.b) l).toNat / 256 % 256) (32 - p l)
  (∃ r : Lanes, Answers (.bfx x ty) s (Lands s (Instr.bfx x ty).bytes 4 [.v (s.phys x.d) (s.active x.h) r])
    ∧ ∀ l < 32, ∀ j < 32, (lane r l).getLsbD j =
        if j < w l then (lane (s.v x.a) l).getLsbD (p l + j)
        else ty.signed && 0 < w l && (lane (s.v x.a) l).getLsbD (p l + w l - 1))
  ∧ (∃ r : Lanes, Answers (.bfi x ty c) s (Lands s (Instr.bfi x ty c).bytes 4 [.v (s.phys x.d) (s.active x.h) r])
    ∧ ∀ l < 32, ∀ j < 32, (lane r l).getLsbD j =
        if p l ≤ j ∧ j < p l + w l then (lane (s.v x.a) l).getLsbD (j - p l) else (lane (s.v c) l).getLsbD j)

/-- R157, R158: the bitwise operations, the shifts and rotations, and the bit fields. -/
def Obligations.BitwiseShiftsAndFields : Prop := Claims.BitwiseWhateverTheType ∧ Claims.ShiftsByElement ∧ Claims.BitFieldsAreCut

/-- R159: `sel` takes operand a where its predicate is set, and operand b elsewhere. -/
def Obligations.SelectByPredicate : Prop := ∀ (s : State) (x : VA) (c : PReg), s.Acts x.h →
  Answers (.sel x c) s (Lands s (Instr.sel x c).bytes 4 (s.toV x.h x.d fun l =>
    if (s.p c).has l then lane (s.v x.a) l else lane (s.b x.b) l))

/-- R160, R161: a comparison sets its predicate in the active lanes where its condition holds for every element, and `plog`
combines two predicates there. Nothing else is a flag of either. -/
def Obligations.PredicateResults : Prop :=
  ∀ (s : State) (h : Hd) (cc : CC) (f : PFn) (d pa pb : PReg) (a : VReg) (b : OpB) (ty : ITy), s.Acts h → ty.vec = true →
  let test (t : ITy) (l i : Nat) : Bool :=
    let x := elemInt t (lane (s.v a) l).toNat i
    let y := elemInt t (lane (s.b b) l).toNat i
    let both := (lane (s.v a) l &&& lane (s.b b) l).toNat
    match cc with
    | .eq => x == y | .ne => x != y | .lt => x < y | .le => x ≤ y | .gt => x > y | .ge => x ≥ y
    | .bs => elemBits t both i != 0 | .bc => elemBits t both i == 0
  let log (x y : Bool) : Bool := match f with
    | .and => x && y | .or => x || y | .xor => x != y | .andn => x && !y | .orn => x || !y | .nand => !(x && y)
    | .nor => !(x || y) | .xnor => x == y
  let gives (i : Instr) (g : Nat → Bool) : Prop :=
    ∃ r : Mask, Answers i s (Lands s i.bytes 4 [.p d.val (s.active h) r]) ∧ ∀ l < 32, r.has l = g l
  gives (.cmp h cc d a b) (fun l => test .i32 l 0)
  ∧ gives (.cmpX h cc d a b ty) (fun l => (List.range (32 / ty.width)).all (test ty l))
  ∧ gives (.plog h f d pa pb) (fun l => log ((s.p pa).has l) ((s.p pb).has l))

/-- R162: the moves: a lane, a predicate, a 64-bit literal into a register pair, half a scalar register into every lane, and
one lane of the split, of those in ACT, into a scalar register 8 cycles later. -/
def Obligations.Moves : Prop :=
  ∀ (s : State) (h : Hd) (d : VReg) (b : OpB) (x : Dword) (a sd : SReg) (p : PReg) (k : Fin 32), s.Acts h → d.val ≤ 62 →
  let gives (i : Instr) (f : Nat → Word) : Prop := Answers i s (Lands s i.bytes 4 (s.toV h d f))
  gives (.mov h d b) (fun l => lane (s.b b) l)
  ∧ gives (.movX h (.vec d b)) (fun l => lane (s.b b) l)
  ∧ gives (.movX h (.pv d p)) (fun l => if (s.p p).has l then 1#32 else 0#32)
  ∧ (∃ r : Mask, Answers (.movX h (.vp p b)) s
        (Lands s (Instr.movX h (.vp p b)).bytes 4 [.p p.val (s.active h) r])
      ∧ ∀ l < 32, r.has l = (lane (s.b b) l != 0#32))
  ∧ (∃ lo hi : Lanes, Answers (.movl h d x) s (Lands s (Instr.movl h d x).bytes 4
        [.v (s.phys d) (s.active h) lo, .v (s.phys d + 1) (s.active h) hi])
      ∧ ∀ l < 32, lane lo l = x.extractLsb' 0 32 ∧ lane hi l = x.extractLsb' 32 32)
  ∧ gives (.movs h d a) (fun _ => (s.s a).extractLsb' 0 32)
  ∧ gives (.movsX h (.lo d a)) (fun _ => (s.s a).extractLsb' 0 32)
  ∧ gives (.movsX h (.hi d a)) (fun _ => (s.s a).extractLsb' 32 32)
  ∧ ∃ w : Word, (s.me.act.has k.val = true → w = lane (s.v d) k.val)
    ∧ Answers (.movsX h (.get sd d k)) s
        (Lands s (Instr.movsX h (.get sd d k)).bytes 8 [.s sd.val (w.zeroExtend 64)])
    ∧ Answers (.movsX h (.gets sd d k)) s
        (Lands s (Instr.movsX h (.gets sd d k)).bytes 8 [.s sd.val (w.signExtend 64)])

/-- R163, R164: a shuffle gives each active lane the value of its source lane, or its own when the source lies outside the
group or outside ACT. -/
def Obligations.ShuffleSources : Prop :=
  ∀ (s : State) (x : VA) (var : ShVar), s.Acts x.h →
  let src (v : ShVar) (l : Nat) : Int :=
    let k := (lane (s.b x.b) l).toNat % 32
    match v with
    | .idx => k | .up => l - k | .down => l + k | .xor => (l ^^^ k : Nat)
  let take (v : ShVar) (l : Nat) : Word :=
    if 0 ≤ src v l ∧ src v l ≤ 31 ∧ s.me.act.has (src v l).toNat = true then lane (s.v x.a) (src v l).toNat
    else lane (s.v x.a) l
  Answers (.shfl x) s (Lands s (Instr.shfl x).bytes 8 (s.toV x.h x.d (take .idx)))
  ∧ Answers (.shflX x var) s (Lands s (Instr.shflX x var).bytes 8 (s.toV x.h x.d (take var)))

/-- R165: the votes of the active lanes: all, any, uniform and ballot. -/
def Sys2Proof.Claims.Votes : Prop :=
  ∀ (s : State) (h : Hd) (d p : PReg) (sd : SReg), s.Acts h →
  let on (l : Nat) : Prop := l < 32 ∧ (s.active h).has l = true
  let every : Prop := ∀ l, on l → (s.p p).has l = true
  let some' : Prop := ∃ l, on l ∧ (s.p p).has l = true
  let gives (i : Instr) (yes : Prop) : Prop := ∃ r : Mask, Answers i s (Lands s i.bytes 8 [.p d.val (s.active h) r])
    ∧ ∀ l, on l → (r.has l = true ↔ yes)
  gives (.vote h d p) every ∧ gives (.voteX h (.all d p)) every ∧ gives (.voteX h (.any d p)) some'
  ∧ gives (.voteX h (.uni d p)) (every ∨ ¬ some')
  ∧ Answers (.voteX h (.ballot sd p)) s
      (Lands s (Instr.voteX h (.ballot sd p)).bytes 8 [.s sd.val ((s.active h &&& s.p p).zeroExtend 64)])

/-- R166: a reduction leaves the combination of every active lane's element in each of them, or in a scalar register, and a
scan the combination of the lanes up to each, or before it. -/
def Sys2Proof.Claims.ReductionsAndScans : Prop :=
  ∀ (s : State) (h : Hd) (op : LOp) (ty : ITy) (sat excl : Bool) (d a : VReg) (sd : SReg), s.Acts h → ty.vec = true →
  let comb (t : ITy) (x y : Int) : Int := match op with
    | .add => x + y | .min => min x y | .max => max x y
    | .and => (modTwo x t.width &&& modTwo y t.width : Nat) | .or => (modTwo x t.width ||| modTwo y t.width : Nat)
    | .xor => (modTwo x t.width ^^^ modTwo y t.width : Nat)
  let comb' (t : ITy) (i : Nat) (from' : Nat → Bool) : Int :=
    (((List.range 32).filter fun l => (s.active h).has l && from' l).map fun l => elemInt t (lane (s.v a) l).toNat i).foldl
      (comb t) (lopUnit t op)
  let gives (i : Instr) (t : ITy) (st : Bool) (from' : Nat → Nat → Bool) : Prop :=
    ∃ r : Lanes, Answers i s (Lands s i.bytes 8 [.v (s.phys d) (s.active h) r])
      ∧ ∀ l < 32, ElemsAre t (st && op == .add) (lane r l) fun k => comb' t k (from' l)
  gives (.lred h op d a) .i32 false (fun _ _ => true)
  ∧ gives (.lredX h op ty sat (.v d) a) ty sat (fun _ _ => true)
  ∧ (∃ r : Word, ElemsAre ty (sat && op == .add) r (fun k => comb' ty k fun _ => true)
    ∧ Answers (.lredX h op ty sat (.s sd) a) s (Lands s (Instr.lredX h op ty sat (.s sd) a).bytes 8
        [.s sd.val (if ty = .i32 then r.signExtend 64 else r.zeroExtend 64)]))
  ∧ gives (.lscan h op d a) .i32 false (fun l m => m ≤ l)
  ∧ gives (.lscanX h op ty sat excl d a) ty sat (fun l m => if excl then m < l else m ≤ l)

/-- R165, R166: votes, and reductions and scans in lane order. -/
def Obligations.VotesReductionsAndScans : Prop := Claims.Votes ∧ Claims.ReductionsAndScans

/-- R151 to R153, R155 to R158, R160, R162: the scalar forms of every width from 8 to 64 bits. `and`, `or` and `xor` act on all 64
bits; each other form gives an n-bit result of the operands' low n bits, extended to 64 bits by the type. A predicate operand is that of the lowest lane of ACT and a predicate result, a carry, a borrow or a condition, goes to every lane of ACT;
division is outstanding on its token. -/
def Obligations.ScalarForms : Prop :=
  ∀ (s : State) (h : Hd) (ty : ITy) (d a c : SReg) (b : SB) (p : PReg) (cc : CC) (sat : Bool) (k : Tok), s.Acts h → s.Room k →
  let n := ty.width
  let x := readInt ty (s.s a).toNat
  let y := readInt ty (s.sb b).toNat
  let z := readInt ty (s.s c).toNat
  let ux : Nat := (s.s a).toNat % 2 ^ n
  let uy : Nat := (s.sb b).toNat % 2 ^ n
  let xa (j : Nat) : Bool := j < n && (s.s a).getLsbD j
  let fitTo (v : Int) : Int := if sat then satTo v (tyLo ty) (tyHi ty) else v
  let is (r : Dword) (v : Int) : Prop :=
    r = BitVec.ofInt 64 (readInt ty (v % 2 ^ ty.width).toNat)
  let gives (op : SOp) (v : Int) : Prop := ∃ r, is r v
    ∧ Answers (.scalarForm h ty op) s (Lands s (Instr.scalarForm h ty op).bytes 4 [.s d.val r])
  let bits (op : SOp) (f : Nat → Bool) : Prop := ∃ r : Dword,
    Answers (.scalarForm h ty op) s (Lands s (Instr.scalarForm h ty op).bytes 4 [.s d.val r])
    ∧ (∀ j < n, r.getLsbD j = f j) ∧ ∀ j < 64, n ≤ j → r.getLsbD j = (ty.signed && r.getLsbD (n - 1))
  let whole (op : SBin) (v : Dword) : Prop := Answers (.scalarForm h ty (.bin op d a b)) s
    (Lands s (Instr.scalarForm h ty (.bin op d a b)).bytes 4 [.s d.val v])
  let bit : Nat := if (∃ l, s.me.act.lowest = some l ∧ (s.p p).has l = true) then 1 else 0
  let mask (q : Bool) : Mask := if q then BitVec.allOnes 32 else 0#32
  let carries (op : SOp) (v : Int) (out : Bool) : Prop := ∃ r, is r v ∧ Answers (.scalarForm h ty op) s
    (Lands s (Instr.scalarForm h ty op).bytes 4 [.s d.val r, .p p.val s.me.act (mask out)])
  let place : Nat := (s.sb b).toNat % 256
  let width : Nat := if n ≤ place then 0 else min ((s.sb b).toNat / 256 % 256) (n - place)
  (∀ op : SOp, (sopTok op = none → ∃ ws, Answers (.scalarForm h ty op) s
        (Lands s (Instr.scalarForm h ty op).bytes 4 ws))
    ∧ (∀ k', sopTok op = some k' → s.Room k' → Answers (.scalarForm h ty op) s
        (Starts s (.scalarForm h ty op) h k' fun _ => True)))
  ∧ gives (.add d a b sat .none) (fitTo (x + y)) ∧ gives (.sub d a b sat .none) (fitTo (x - y))
  ∧ gives (.add d a b false (.cx p)) (x + y + bit) ∧ gives (.sub d a b false (.cx p)) (x - y - bit)
  ∧ carries (.add d a b false (.cc p)) (x + y) (2 ^ n ≤ ux + uy)
  ∧ carries (.add d a b false (.cxc p)) (x + y + bit) (2 ^ n ≤ ux + uy + bit)
  ∧ carries (.sub d a b false (.cc p)) (x - y) (ux < uy)
  ∧ carries (.sub d a b false (.cxc p)) (x - y - bit) (ux < uy + bit)
  ∧ gives (.mul d a b sat) (fitTo (x * y)) ∧ gives (.mad d a b c sat) (fitTo (x * y + z))
  ∧ gives (.bin .mulh d a b) (x * y / 2 ^ ty.width) ∧ gives (.bin .min d a b) (min x y) ∧ gives (.bin .max d a b) (max x y)
  ∧ gives (.un .abs d a sat none) (fitTo |x|) ∧ gives (.un .neg d a sat none) (fitTo (-x)) ∧ gives (.mov d b) y
  ∧ bits (.un .not d a false none) (fun j => !xa j) ∧ bits (.un .brev d a false none) (fun j => xa (n - 1 - j))
  ∧ gives (.un .popc d a false none) ((List.range n).filter xa).length
  ∧ gives (.un .clz d a false none) ((List.range n).takeWhile fun j => !xa (n - 1 - j)).length
  ∧ whole .and (s.s a &&& s.sb b) ∧ whole .or (s.s a ||| s.sb b) ∧ whole .xor (s.s a ^^^ s.sb b)
  ∧ bits (.bin .shl d a b) (fun j => uy ≤ j && xa (j - uy)) ∧ bits (.bin .shr d a b) (fun j => xa (j + uy))
  ∧ bits (.bin .sra d a b) (fun j => xa (min (j + uy) (n - 1))) ∧ bits (.bin .rot d a b) (fun j => xa ((j + n - uy % n) % n))
  ∧ (32 ≤ n →
      bits (.bin .bfx d a b) (fun j => if j < width then xa (place + j)
        else ty.signed && 0 < width && xa (place + width - 1))
      ∧ bits (.bfi d a b c) (fun j => if place ≤ j ∧ j < place + width then xa (j - place) else (s.s c).getLsbD j))
  ∧ (∃ r, Answers (.scalarForm h ty (.cmp cc p a b)) s
        (Lands s (Instr.scalarForm h ty (.cmp cc p a b)).bytes 4 [.p p.val s.me.act (mask r)])
      ∧ r = match cc with
        | .eq => decide (x = y) | .ne => decide (x ≠ y) | .lt => decide (x < y) | .le => decide (x ≤ y)
        | .gt => decide (y < x) | .ge => decide (y ≤ x) | .bs => decide (ux &&& uy ≠ 0) | .bc => decide (ux &&& uy = 0))
  ∧ Answers (.scalarForm h ty (.rem d a b k)) s (Starts s (.scalarForm h ty (.rem d a b k)) h k fun o =>
      ∃ r, o.writes = [.s d.val r] ∧ (y = 0 → is r x) ∧ (y ≠ 0 → is r (x - y * x.tdiv y)))
  ∧ Answers (.scalarForm h ty (.div d a b sat k)) s (Starts s (.scalarForm h ty (.div d a b sat k)) h k fun o =>
      ∃ r, o.writes = [.s d.val r] ∧ (y = 0 → is r (-1)) ∧ (y ≠ 0 → ty.signed = true ∧ x = tyLo ty ∧ y = -1 →
        is r (if sat then tyHi ty else tyLo ty))
        ∧ (y ≠ 0 → ¬ (ty.signed = true ∧ x = tyLo ty ∧ y = -1) → is r (x.tdiv y)))

/-! ### Floating point -/

/-- R86 to R89, R92, R167 to R170: each element of `fadd`, `fsub`, `fmul` and `ffma` is the exact result rounded once, an
infinite or invalid one as IEEE 754 has it; the `.lo` form computes element 0 and leaves the upper half zero; under RS each
active lane's generator takes one step per element at issue. The results land after 6 cycles. -/
def Sys2Proof.Claims.FloatArithmeticRoundsOnce : Prop :=
  ∀ (s : State) (x : VA) (ty : FTy) (lo : Bool) (rnd : Rnd) (c : VReg), s.Acts x.h → loOk ty lo = true →
  let el (t : FTy) (r : VReg) (l e : Nat) : Ext := (fTy t).value (fElem t (lane (s.v r) l) e)
  let eb (t : FTy) (l e : Nat) : Ext := (fTy t).value (fElem t (lane (s.b x.b) l) e)
  let gives (i : Instr) (t : FTy) (lw : Bool) (m : Rnd) (y : Nat → Nat → Ext) : Prop :=
    ∃ r : Lanes, Answers i s (Lands (s.stepSeeds m (s.active x.h) (fCount t lw)) i.bytes 6
        [.v (s.phys x.d) (s.active x.h) r])
      ∧ ∀ l < 32, (∀ e < fCount t lw, fElem t (lane r l) e
          = (fTy t).round m true (drawOf m (lane s.me.seeds l) e) (y l e))
        ∧ (lw = true → (lane r l).toNat < 2 ^ 16)
  gives (.fadd x) .f32 false .rne (fun l e => (el .f32 x.a l e).add .rne (eb .f32 l e))
  ∧ gives (.faddX x ty lo rnd) ty lo rnd (fun l e => (el ty x.a l e).add rnd (eb ty l e))
  ∧ gives (.fsub x) .f32 false .rne (fun l e => (el .f32 x.a l e).add .rne (eb .f32 l e).neg)
  ∧ gives (.fsubX x ty lo rnd) ty lo rnd (fun l e => (el ty x.a l e).add rnd (eb ty l e).neg)
  ∧ gives (.fmul x) .f32 false .rne (fun l e => (el .f32 x.a l e).mul (eb .f32 l e))
  ∧ gives (.fmulX x ty lo rnd) ty lo rnd (fun l e => (el ty x.a l e).mul (eb ty l e))
  ∧ gives (.ffma x ty lo rnd c) ty lo rnd (fun l e => ((el ty x.a l e).mul (eb ty l e)).add rnd (el ty c l e))

/-- R81, R87, R88: rounding leaves every value that a format holds as it is, bit for bit, under every mode, and NaN becomes
the canonical NaN. -/
def Sys2Proof.Claims.RoundingKeepsRepresentable : Prop :=
  ∀ (ty : FTy) (m : Rnd) (ofn : Bool) (u x : Nat), x < 2 ^ fWidth ty →
    (fTy ty).round m ofn u ((fTy ty).value x) = if (fTy ty).value x = .nan then (fTy ty).nan else x

/-- R171, R172: `fmin` and `fmax` return the other operand for one NaN and the chosen encoding unchanged, −0 below +0, and
their `.lo` forms leave the upper half zero; a comparison is of the values, NaN being unordered, and holds for every computed element. -/
def Sys2Proof.Claims.FloatMinMaxAndCompare : Prop :=
  ∀ (s : State) (x : VA) (ty : FTy) (lo : Bool) (cc : FCC) (p : PReg), s.Acts x.h → loOk ty lo = true →
  let ea (t : FTy) (l e : Nat) : Nat := fElem t (lane (s.v x.a) l) e
  let eb (t : FTy) (l e : Nat) : Nat := fElem t (lane (s.b x.b) l) e
  let nan (t : FTy) (y : Nat) : Prop := (fTy t).value y = .nan
  let below (t : FTy) (y z : Nat) : Prop := ((fTy t).value y).cmp ((fTy t).value z) = some .lt
  let gives (i : Instr) (t : FTy) (lw up : Bool) : Prop :=
    ∃ r : Lanes, Answers i s (Lands s i.bytes 6 [.v (s.phys x.d) (s.active x.h) r])
      ∧ ∀ l < 32, ∀ e < fCount t lw,
        let w := fElem t (lane r l) e
        let a := ea t l e
        let b := eb t l e
        (nan t a → nan t b → w = (fTy t).nan) ∧ (nan t a → ¬ nan t b → w = b) ∧ (¬ nan t a → nan t b → w = a)
        ∧ (¬ nan t a → ¬ nan t b → (w = a ∨ w = b)
          ∧ (below t a b → w = if up then b else a) ∧ (below t b a → w = if up then a else b)
          ∧ ∀ g h m n, (fTy t).value a = .fin g 0 m → (fTy t).value b = .fin h 0 n → g ≠ h → w = if g = up then b else a)
        ∧ (lw = true → (lane r l).toNat < 2 ^ 16)
  let test (t : FTy) (l e : Nat) : Bool :=
    match ((fTy t).value (ea t l e)).cmp ((fTy t).value (eb t l e)), cc with
    | none, .ne => true | none, .un => true | none, _ => false
    | some o, .eq => o == .eq | some o, .ne => o != .eq | some o, .lt => o == .lt | some o, .le => o != .gt
    | some o, .gt => o == .gt | some o, .ge => o != .lt | some _, .un => false | some _, .ord => true
  let compares (i : Instr) (t : FTy) (lw : Bool) : Prop :=
    ∃ r : Mask, Answers i s (Lands s i.bytes 4 [.p p.val (s.active x.h) r])
      ∧ ∀ l < 32, r.has l = (List.range (fCount t lw)).all (test t l)
  gives (.fmin x) .f32 false false ∧ gives (.fminX x ty lo) ty lo false
  ∧ gives (.fmax x) .f32 false true ∧ gives (.fmaxX x ty lo) ty lo true
  ∧ compares (.fcmp x.h cc p x.a x.b) .f32 false ∧ compares (.fcmpX x.h cc p x.a x.b ty lo) ty lo

/-- R81, R86 to R89, R92, R167 to R172: floating-point arithmetic, its rounding, and its order. -/
def Obligations.FloatArithmeticAndOrder : Prop := Claims.FloatArithmeticRoundsOnce ∧ Claims.RoundingKeepsRepresentable ∧ Claims.FloatMinMaxAndCompare

/-- R87, R173, R174: the special functions land after 16 cycles, and their special inputs give the table's results. `frcp` and
`fsqrt` are the exact value rounded once under the mode. The others are one fixed map each, on every core and in every state;
`fex2` is exact at integers whose power is representable, and `flg2` at powers of two. -/
def Sys2Proof.Claims.SpecialFunctionTable : Prop :=
  ∃ rsq ex2 lg2 sin cos : Word → Word, ∀ (s : State) (x : U) (rnd : Rnd), s.Acts x.h →
  let gives (i : Instr) (m : Rnd) (f : Word → Nat → Word → Prop) : Prop :=
    ∃ r : Lanes, Answers i s (Lands (s.stepSeeds m (s.active x.h) 1) i.bytes 16 [.v (s.phys x.d) (s.active x.h) r])
      ∧ ∀ l < 32, f (lane (s.v x.a) l) (drawOf m (lane s.me.seeds l) 0) (lane r l)
  let table (p0 n0 pi ni neg : Option Word) (a w : Word) : Prop :=
    (a = 0x00000000#32 → ∀ y, p0 = some y → w = y) ∧ (a = 0x80000000#32 → ∀ y, n0 = some y → w = y)
    ∧ (a = 0x7F800000#32 → ∀ y, pi = some y → w = y) ∧ (a = 0xFF800000#32 → ∀ y, ni = some y → w = y)
    ∧ (0x80000000#32 < a → a < 0xFF800000#32 → ∀ y, neg = some y → w = y)
    ∧ (fmtF32.value a.toNat = .nan → w = 0x7FC00000#32)
  let inf : Word := 0x7F800000#32
  let ninf : Word := 0xFF800000#32
  let nz : Word := 0x80000000#32
  let one : Word := 0x3F800000#32
  let nan : Word := 0x7FC00000#32
  let finite (w : Word) : Prop := w.toNat % 2 ^ 31 < 0x7F800000
  let mag (y : Nat) : ℚ := match fmtF32.value y with
    | .fin _ n d => (n : ℚ) / d
    | _ => 0
  let val (w : Word) : ℚ := if w.getLsbD 31 then -mag w.toNat else mag w.toNat
  let rcp (m : Rnd) (a : Word) (u : Nat) (w : Word) : Prop := table (some inf) (some ninf) (some 0#32) (some nz) none a w
    ∧ ∀ sg n d, fmtF32.value a.toNat = .fin sg n d → n ≠ 0 → w.toNat = fmtF32.round m true u (.fin sg d n)
  let rooted (m : Rnd) (u : Nat) (y : ℚ) (w : Nat) : Prop := match m with
    | .rne => (mag (w - 1) + mag w) ^ 2 ≤ 4 * y ∧ 4 * y ≤ (mag w + mag (w + 1)) ^ 2
    | .rtz | .rdn => mag w ^ 2 ≤ y ∧ y < mag (w + 1) ^ 2
    | .rup => mag (w - 1) ^ 2 < y ∧ y ≤ mag w ^ 2
    | .rs => ∃ l, mag l ^ 2 ≤ y ∧ y < mag (l + 1) ^ 2
        ∧ w = if (mag l + (mag (l + 1) - mag l) * (u + 1) / 2 ^ 32) ^ 2 ≤ y then l + 1 else l
  let root (m : Rnd) (a : Word) (u : Nat) (w : Word) : Prop := table (some 0#32) (some nz) (some inf) (some nan) (some nan) a w
    ∧ (0#32 < a → a < inf → w < inf ∧ rooted m u (mag a.toNat) w.toNat)
  gives (.frcp x) .rne (rcp .rne) ∧ gives (.frcpX x rnd) rnd (rcp rnd)
  ∧ gives (.fsqrt x) .rne (root .rne) ∧ gives (.fsqrtX x rnd) rnd (root rnd)
  ∧ (∀ i ∈ [Instr.frsq x, .frsqX x], gives i .rne fun a _ w =>
      w = rsq a ∧ table (some inf) (some ninf) (some 0#32) (some nan) (some nan) a w)
  ∧ (∀ i ∈ [Instr.fex2 x, .fex2X x], gives i .rne fun a _ w => w = ex2 a
      ∧ table (some one) (some one) (some inf) (some 0#32) none a w
      ∧ ∀ k : ℤ, finite a → val a = k → -149 ≤ k → k ≤ 127 → w < inf ∧ mag w.toNat = 2 ^ k)
  ∧ (∀ i ∈ [Instr.flg2 x, .flg2X x], gives i .rne fun a _ w => w = lg2 a
      ∧ table (some ninf) (some ninf) (some inf) (some nan) (some nan) a w
      ∧ ∀ k : ℤ, a < inf → mag a.toNat = 2 ^ k → finite w ∧ val w = k)
  ∧ (∀ i ∈ [Instr.fsin x, .fsinX x], gives i .rne fun a _ w =>
      w = sin a ∧ table (some 0#32) (some nz) (some nan) (some nan) none a w)
  ∧ (∀ i ∈ [Instr.fcos x, .fcosX x], gives i .rne fun a _ w =>
      w = cos a ∧ table (some one) (some one) (some nan) (some nan) none a w)

/-- R91, R182: `rseed` sets the generators of the active lanes at its issue and leaves the others, and a step of a generator is
the three shifts, a state of 0 becoming 1. -/
def Sys2Proof.Claims.GeneratorStates : Prop :=
  (∀ (s : State) (h : Hd) (a : VReg), s.Acts h → ∀ i ∈ [Instr.rseed h a, Instr.rseedX h a],
    Answers i s fun t => (∀ l < 32, lane t.me.seeds l = if (s.active h).has l then lane (s.v a) l else lane s.me.seeds l)
      ∧ t.me.results = s.me.results ∧ t.win.regs = s.win.regs ∧ t.me.preds = s.me.preds ∧ t.me.sregs = s.me.sregs
      ∧ t.me.toks = s.me.toks ∧ t.me.ops = s.me.ops ∧ (∀ x, t.mem.byte x = s.mem.byte x)
      ∧ GoesTo s t (s.me.pc + BitVec.ofNat 64 i.bytes))
  ∧ ∀ x : Word, genStep x ≠ 0#32 ∧ genStep 0#32 = 1#32 ∧ (x ≠ 0#32 →
      let y := x ^^^ x <<< 13
      let z := y ^^^ y >>> 17
      genStep x = z ^^^ z <<< 5)

/-- R87, R91, R173, R174, R182: the special functions where the manual states a value, and the lane generators. -/
def Obligations.SpecialFunctionsAndGenerators : Prop := Claims.SpecialFunctionTable ∧ Claims.GeneratorStates

/-- R90, R169, R176, R178: `fcvt` converts its elements into their places and leaves every other bit of the register; `fpk`
and `funpk` convert a run of elements of one stream into another and leave the rest of its registers. -/
def Sys2Proof.Claims.ConversionsWriteTheirBits : Prop :=
  ∀ (s : State) (x : U) (td ts : ETy) (se : Fin 8) (ofn sat : Bool) (rnd : Rnd) (o : Fin 64) (k : Fin 32), s.Acts x.h →
  let draw (l j : Nat) : Nat := drawOf rnd (lane s.me.seeds l) j
  let step (n : Nat) : State := s.stepSeeds rnd (s.active x.h) n
  let stream (f : Nat → Lanes) (n l : Nat) : Nat :=
    (List.range n).foldl (fun y j => y + (lane (f j) l).toNat * 2 ^ (32 * j)) 0
  let src (j : Nat) : Lanes := s.vAt x.a j
  let packs (i : Instr) (o1 o2 : Nat) : Prop :=
    let n := k.val + 1
    let dst := ceilDiv ((o2 + n) * td.width) 32
    ∃ mask val : Nat → Lanes, Answers i s (Lands (step n) i.bytes 6
        ((List.range dst).map fun j => .vbits (s.phys x.d + j) (s.active x.h) (mask j) (val j)))
      ∧ ∀ l < 32, (∀ b < 32 * dst, (stream mask dst l).testBit b = (td.width * o2 ≤ b && b < td.width * (o2 + n)))
        ∧ ∀ j < n, stream val dst l / 2 ^ (td.width * (o2 + j)) % 2 ^ td.width = convert td ts rnd false false (draw l j)
          (stream src (ceilDiv ((o1 + n) * ts.width) 32) l / 2 ^ (ts.width * (o1 + j)) % 2 ^ ts.width)
  ((Instr.fcvt x td ts se ofn sat rnd).wf = true →
    let n := 32 / max ts.width td.width
    let j (i : Nat) : Nat := if ts.width < td.width then i + se.val * n else i
    let k (i : Nat) : Nat := if td.width < ts.width then i + se.val * n else i
    ∃ mask val : Lanes, Answers (.fcvt x td ts se ofn sat rnd) s
        (Lands (step n) (Instr.fcvt x td ts se ofn sat rnd).bytes 6 [.vbits (s.phys x.d) (s.active x.h) mask val])
      ∧ ∀ l < 32, (∀ b < 32, (lane mask l).getLsbD b = true ↔ ∃ i < n, td.width * k i ≤ b ∧ b < td.width * (k i + 1))
        ∧ ∀ i < n, fieldOf (lane val l) (td.width * k i) td.width
            = convert td ts rnd ofn sat (draw l i) (fieldOf (lane (s.v x.a) l) (ts.width * j i) ts.width))
  ∧ ((Instr.fpk x td ts o k rnd).wf = true → packs (.fpk x td ts o k rnd) 0 o.val)
  ∧ ((Instr.funpk x td ts o k rnd).wf = true → packs (.funpk x td ts o k rnd) o.val 0)

/-- R179 to R181: `bscl` gives the E8M0 code of the block's scale: from the largest magnitude under `.fl` or `.ce`, clamped, 127 for
a block of zeros and 255 where a value is NaN or infinite; for `.t2` it gives the mean magnitude, rounded once to FP16.
`bqnt` divides each wide element by the scale and converts the exact quotient, with zero bits above its four elements, and
gives the canonical NaN or 0 under the code 255 and 0 under a scale of `.t2` that is no positive or negative number; a zero
quotient has its quotient's sign (log entry 66). `bdeq` gives each wide element its zero, NaN or rounded product. -/
def Sys2Proof.Claims.BlockScaling : Prop :=
  ∀ (s : State) (h : Hd) (d a : VReg) (sd b : SReg) (td ts : ETy) (ce ofn i4 : Bool) (rnd : Rnd), s.Acts h →
  let value (l j : Nat) : Option Ext := match readNum ts (s.wide ts a l j) with | .fl e => some e | .int _ => none
  let on (l : Nat) : Prop := l < 32 ∧ (s.active h).has l = true
  let code : Nat := (s.s b).toNat % 256
  let mag (l j : Nat) : ℚ := match value l j with
    | some (.fin _ n m) => (n : ℚ) / m
    | _ => 0
  let emax : Int := if i4 then 2 else match td with
    | .e5m2 => 15 | .e4m3 => 8 | .e3m2 => 4 | .e2m3 => 2 | .e2m1 => 2 | _ => 6
  let maxf : ℚ := if i4 then 7 else match td with
    | .e5m2 => 57344 | .e4m3 => 448 | .e3m2 => 28 | .e2m3 => 15 / 2 | .e2m1 => 6 | _ => 127
  let finite : Prop := ∀ l j, on l → j < 4 → ∃ g n m, value l j = some (.fin g n m)
  let sum : ℚ := ((List.range 128).map fun n => if (s.active h).has (n / 4) then mag (n / 4) (n % 4) else 0).sum
  let scale : Ext := if td = .t2 then fmtF16.value ((s.s b).toNat % 2 ^ 16) else .fin false (2 ^ code) (2 ^ 127)
  let quot (x : Ext) (g : Bool) (n m : Nat) : Ext := match x with
    | .nan => .nan
    | .inf f => .inf (f != g)
    | .fin f u v => .fin (f != g) (u * m) (v * n)
  let narrow (u : Nat) (y : Ext) : Nat :=
    if i4 then modTwo (toIntSat rnd u (-8) 7 y) 4 else writeNum td rnd ofn false u (.fl y)
  ((Instr.bscl h sd a td ts ce i4).wf = true → ∃ v : Dword, Answers (.bscl h sd a td ts ce i4) s
      (Lands s (Instr.bscl h sd a td ts ce i4).bytes 8 [.s sd.val v])
    ∧ ((∃ l j, on l ∧ j < 4 ∧ ∀ g n m, value l j ≠ some (.fin g n m)) → v = if td = .t2 then 0x7E00#64 else 0xFF#64)
    ∧ (finite → td = .t2 → ∃ n m : Nat, 0 < m ∧ (n : ℚ) / m = sum / 128 ∧ v.toNat = fmtF16.round .rne true 0 (.fin false n m))
    ∧ (td ≠ .t2 → (∀ l j, on l → j < 4 → ∃ g n, value l j = some (.fin g 0 n)) → v = 127#64)
    ∧ (finite → td ≠ .t2 → ∀ l j, on l → j < 4 → 0 < mag l j → (∀ m i, on m → i < 4 → mag m i ≤ mag l j) →
        ∃ e : ℤ, (v.toNat : ℤ) = satTo e (-127) 127 + 127
          ∧ if ce then mag l j ≤ maxf * 2 ^ e ∧ maxf * 2 ^ (e - 1) < mag l j
            else 2 ^ (e + emax) ≤ mag l j ∧ mag l j < 2 ^ (e + emax + 1)))
  ∧ ((Instr.bqnt h d a b td ts ofn i4 rnd).wf = true → ∃ r : Lanes, Answers (.bqnt h d a b td ts ofn i4 rnd) s
      (Lands (s.stepSeeds rnd (s.active h) 4) (Instr.bqnt h d a b td ts ofn i4 rnd).bytes 6 [.v (s.phys d) (s.active h) r])
    ∧ ∀ l < 32, (lane r l).toNat < 2 ^ (4 * blkWidth td i4)
      ∧ ∀ j < 4, let q := fieldOf (lane r l) (blkWidth td i4 * j) (blkWidth td i4)
        (td ≠ .t2 → code = 255 → q = match fmtOf td with | some f => f.nan | none => 0)
        ∧ (td = .t2 → (∀ g n m, scale = .fin g n m → n = 0) → q = 0)
        ∧ (td = .t2 ∨ code ≠ 255 → ∀ g n m, scale = .fin g n m → n ≠ 0 → ∀ x, value l j = some x →
            q = narrow (drawOf rnd (lane s.me.seeds l) j) (quot x g n m)))
  ∧ ((Instr.bdeq h d a b td ts i4 rnd).wf = true → ∃ r : Nat → Lanes, Answers (.bdeq h d a b td ts i4 rnd) s
      (Lands (s.stepSeeds rnd (s.active h) 4) (Instr.bdeq h d a b td ts i4 rnd).bytes 6
        ((List.range (blkRegs td)).map fun j => .v (s.phys d + j) (s.active h) (r j)))
    ∧ ∀ l < 32, ∀ j < 4, (if td.width = 32 then (lane (r j) l).toNat else fieldOf (lane (r (j / 2)) l) (16 * (j % 2)) 16)
        = dequantBits td ts i4 rnd (drawOf rnd (lane s.me.seeds l) j) (scaleOf ts (s.s b).toNat)
            (fieldOf (lane (s.v a) l) (blkWidth ts i4 * j) (blkWidth ts i4)))

/-- R90, R169, R176, R178 to R181: conversions, packing and unpacking, and block scaling. -/
def Obligations.ConversionsAndBlockScaling : Prop := Claims.ConversionsWriteTheirBits ∧ Claims.BlockScaling

/-! ### Control, system and privileged instructions -/

/-- R128, R129: a branch ends the run and goes to its target; a `brp` whose lanes do not all branch asks the split table for a
number. -/
def Sys2Proof.Claims.BranchesGoToTheirTarget : Prop :=
  ∀ (s : State) (h : Hd) (off recon : Word) (a : SReg), s.Acts h →
  let rel (x : Word) : Dword := s.me.pc + x.signExtend 64
  let goes (i : Instr) (x : Dword) : Prop := Answers i s fun t => Kept s t
    ∧ t.me.toks = s.me.toks ∧ t.me.ops = s.me.ops ∧ t.me.results = s.me.results ∧ t.me.inRun = false
    ∧ (s.Straight x → t.me.pc = x ∧ t.me.act = s.me.act ∧ t.win.entries = s.win.entries)
    ∧ (t.me.status = s.me.status ∨ x.toNat ≤ s.me.pc.toNat ∧ ∃ n, t.me.status = .parked n)
  goes (.bra h off) (rel off)
  ∧ ((s.s a).toNat < 2 ^ 54 → (s.s a).toNat % 4 = 0 → goes (.brx h a) (s.s a))
  ∧ (¬ ((s.s a).toNat < 2 ^ 54 ∧ (s.s a).toNat % 4 = 0) →
      exec (.brx h a) s = .next (s.fresh427.raise (s.trapHere .illegal 5)))
  ∧ (s.active h = s.me.act → goes (.brp h off recon) (rel off))
  ∧ (s.active h ≠ s.me.act → s.me.toks = Vector.replicate 8 0 → Answers (.brp h off recon) s fun t => Kept s t
      ∧ t.me.pc = s.me.pc ∧ t.me.act = s.me.act ∧ t.win.entries = s.win.entries
      ∧ t.me.status = .wait [.number] (.brp (s.active h) (rel off) (rel recon))
      ∧ t.fabric = s.fabric ++ [⟨s.me.stack, s.gr.base, s.me.stack, .numReq s.me.id s.gr.id s.me.core⟩])

/-- R130, R131: a call pushes an entry with the caller's frame, the return address and the live mask, and opens a window above
the caller's; a return pops it. A window or a stack without room, and a return without a call, raise STACK. -/
def Sys2Proof.Claims.CallsAndReturns : Prop :=
  ∀ (s : State) (h : Hd) (callee caller : Fin 64) (off : Word) (b : SReg) (live : Dword) (es : List Entry) (e : Entry),
  s.Acts h → s.me.status = .run → s.me.toksZero 0xF0#8 = true →
  let traps (i : Instr) (d : Nat) : Prop := exec i s = .next (s.fresh427.raise (s.trapHere .stack d))
  let room : Prop := s.me.wbase + caller.val + 1 ≤ 64
  let calls (i : Instr) (x : Dword) : Prop :=
    (room → s.win.entries.length < 32 → Answers i s fun t => Kept s t ∧ t.me.toks = s.me.toks ∧ t.me.ops = s.me.ops
      ∧ t.win.entries = s.win.entries ++ [callEntry (ownBit s.me.num) (caller.val + 1) (s.me.pc + 20#64) live]
      ∧ t.me.wbase = s.me.wbase + caller.val + 1 ∧ t.me.frame = callee.val + 1 ∧ t.me.pc = x ∧ t.me.act = s.me.act
      ∧ t.me.inRun = false)
    ∧ (¬ room → traps i 2) ∧ (room → 32 ≤ s.win.entries.length → traps i 0)
  calls (.call h callee caller off live) (s.me.pc + off.signExtend 64)
  ∧ ((s.s b).toNat < 2 ^ 54 → (s.s b).toNat % 4 = 0 → calls (.callx h b callee caller live) (s.s b))
  ∧ (s.win.entries = es ++ [e] → e.kind = 1 → e.owned s.me.num = true →
      maskedRpc ((freeUnowned s.residents es).filter fun x => x.owned s.me.num) ≠ some e.ret →
      Answers (.ret h) s fun t => Kept s t ∧ t.me.toks = s.me.toks ∧ t.me.ops = s.me.ops
        ∧ t.win.entries = freeUnowned s.residents (es ++ [e.drop s.me.num]) ∧ t.me.wbase = s.me.wbase - e.fsz ∧ t.me.frame = e.fsz
        ∧ t.me.pc = e.ret ∧ t.me.act = s.me.act ∧ t.me.inRun = false)
  ∧ ((∀ x ∈ s.own, x.kind ≠ 1) → traps (.ret h) 1)

/-- R128 to R131: branches, calls and returns. -/
def Obligations.ControlTransfers : Prop := Claims.BranchesGoToTheirTarget ∧ Claims.CallsAndReturns

/-- R136, R137, R138: `nop` and `pause` go on with the next instruction, `pause n` after n issue cycles of its pipe; `tw` goes
on where its token is low enough, and else waits for it; `yield` without a request ends the run. -/
def Sys2Proof.Claims.DelaysAndWaits : Prop :=
  ∀ (s : State) (h : Hd) (n : Fin 16) (k : Tok) (m : Fin 64), s.Acts h →
  let goes (i : Instr) : Prop := Answers i s fun t => t.me.results = s.me.results ∧ t.me.toks = s.me.toks
    ∧ t.me.ops = s.me.ops ∧ Moved s t ∧ GoesTo s t (s.me.pc + 4#64)
  goes (.nop h) ∧ goes (.pause h n)
  ∧ (s.me.stack < 16 → s.me.core < 8 → Answers (.pause h n) s fun t =>
      (t.pipe s.me.stack s.me.core s.myPipe).hold = n.val - 1)
  ∧ (s.me.tok k ≤ m.val → goes (.tw h k m))
  ∧ (m.val < s.me.tok k → Answers (.tw h k m) s fun t => Kept s t ∧ t.me.toks = s.me.toks ∧ t.me.ops = s.me.ops
      ∧ t.me.inRun = false ∧ t.me.status = .wait [.tok k m.val] (.goto (s.me.pc + 4#64)))
  ∧ (s.me.preq = false → goes (.yield h) ∧ Answers (.yield h) s fun t => t.me.inRun = false)

/-- R50, R52, R134, R135, R139: `exit` takes its lanes out of ACT into EXITED and decrements EXPECT of every named barrier, and
the last split of a group ends it at once, its own exit decrements still on their way as posts (log entry 29); `barw` arrives and waits, `bara` arrives and goes on; a group of one split passes its
`join` at once. -/
def Sys2Proof.Claims.ExitsBarriersAndJoins : Prop :=
  ∀ (s : State) (h : Hd) (n : Fin 16) (j : Fin 8), s.Acts h → s.Drained →
  let x := s.active h
  let sent (t : State) (l : List Payload) : Prop := t.fabric = s.fabric ++ l.map fun p => ⟨s.me.stack, s.gr.base, s.me.stack, p⟩
  let arrives (m : Nat) (exit : Bool) (post : Option Nat) : Payload :=
    .barrier s.gr.grid s.gr.team s.gr.grp m x.count exit s.me.asid s.me.id s.gr.id (post.map fun no => (no, [s.me.id]))
  let room : Prop := s.trackerFull s.me.stack = false
  let alone : Prop := s.me.id ≠ 0 ∧ s.gr.id ≠ 0 ∧ ∀ w ∈ s.splits, w.group ≠ s.gr.id ∧ w.id ≠ s.me.id
  (room → x ≠ s.me.act → Answers (.exit h) s fun t => t.me.act = s.me.act &&& ~~~x ∧ t.me.exited = s.me.exited ||| x
    ∧ (s.Straight (s.me.pc + 4#64) → t.me.pc = s.me.pc + 4#64)
    ∧ sent t ((List.range 16).map fun m => arrives m true (some (s.nextId + m)))
    ∧ t.mem = s.mem ∧ t.win.regs = s.win.regs ∧ t.me.sregs = s.me.sregs ∧ t.me.preds = s.me.preds ∧ t.me.inRun = false)
  ∧ (room → x = s.me.act → alone → s.own.all (fun e => e.kind != 3) = true → (s.grid? s.gr.grid).all (fun g => !g.preq) = true →
      (∀ w ∈ s.splits, w.status ≠ .saved) → s.me.stack = s.gr.base →
      (∀ m < 4, m ≠ s.me.num → (vget s.gr.table m TabEntry.free).valid = false) → Answers (.exit h) s fun t => (∀ w ∈ t.allSplits, w.id ≠ s.me.id)
        ∧ (∃ g ∈ t.allGroups, g.id = s.gr.id ∧ g.ended = true ∧ g.tiles = []) ∧ t.mem = s.mem)
  ∧ (s.me.stack = s.gr.base → Answers (.barw h n) s fun t => Kept s t ∧ t.me.status = .arriving n.val ∧ t.me.act = s.me.act
      ∧ t.me.pc = s.me.pc ∧ t.me.inRun = false ∧ sent t [arrives n.val false none])
  ∧ (room → Answers (.bara h n) s fun t => Kept s t ∧ GoesTo s t (s.me.pc + 4#64)
      ∧ sent t [arrives n.val false (some s.nextId)] ∧ t.me.toks = s.me.toks ∧ t.me.ops = s.me.ops)
  ∧ (alone → s.me.group = s.gr.id → s.me.stack = s.gr.base → s.gr.joinCore = none →
      s.me.home s.win = true → s.win.group ≠ 0 →
      (∀ m < 4, m ≠ s.me.num → (vget s.gr.table m TabEntry.free).valid = false) → s.Straight (s.me.pc + 4#64) →
      Answers (.join h j) s fun t => ∃ w ∈ t.allSplits, w.id = s.me.id ∧ w.status = .run ∧ w.pc = s.me.pc + 4#64
        ∧ w.act = s.me.act ∧ w.sregs = s.me.sregs ∧ w.preds = s.me.preds ∧ t.mem = s.mem)

/-- R50, R52, R134 to R139: delays and token waits, yields, barriers, joins and exits. -/
def Obligations.WaitsExitsAndJoins : Prop := Claims.DelaysAndWaits ∧ Claims.ExitsBarriersAndJoins

/-- R142, R143: `sget` gives the special registers of the split and of the lanes; `sput` writes MSTEP, and in privileged mode
TRAPINFO. -/
def Sys2Proof.Claims.SpecialRegisters : Prop :=
  ∀ (s : State) (h : Hd) (r : SpecReg) (d : Fin 64) (a : SReg), s.Acts h →
  let gets (r : SpecReg) (x : Dword) : Prop :=
    Answers (.sget h r d) s (Lands s (Instr.sget h r d).bytes 4 [.s d.val x])
  let lanes (r : SpecReg) (f : Nat → Word) : Prop :=
    Answers (.sget h r d) s (Lands s (Instr.sget h r d).bytes 4 (s.toV h d f))
  let flag (b : Bool) (n : Nat) : Dword := if b then 1#64 <<< n else 0#64
  lanes .lane (fun l => BitVec.ofNat 32 l) ∧ lanes .qtr (fun l => BitVec.ofNat 32 (l / 8))
  ∧ Answers (.sget h .seed d) s (Lands s (Instr.sget h .seed d).bytes 4 [.v (s.phys d) (s.active h) s.me.seeds])
  ∧ gets .split (BitVec.ofNat 64 s.me.num) ∧ gets .grp (BitVec.ofNat 64 s.gr.grp) ∧ gets .team (BitVec.ofNat 64 s.gr.team)
  ∧ gets .grid (BitVec.ofNat 64 s.gr.grid)
  ∧ (s.me.stack < 16 → gets .home (BitVec.ofNat 64 (s.modno * 16 + s.me.stack)))
  ∧ (s.gr.base < 16 → gets .base (BitVec.ofNat 64 (s.modno * 16 + s.gr.base)))
  ∧ (16 ≤ s.gr.base → gets .base (BitVec.ofNat 64 (s.gr.base - 16)))
  ∧ gets .throttle (BitVec.ofNat 64 (s.myCore.kstep % 16)) ∧ gets .cycle (BitVec.ofNat 64 s.myCore.cycle)
  ∧ gets .preq (flag s.me.preq 0) ∧ gets .mstep s.me.mstep ∧ gets .act (s.me.act.zeroExtend 64)
  ∧ gets .exited (s.me.exited.zeroExtend 64)
  ∧ gets .trapinfo ((s.me.trapinfo &&& 0x3FFFFFFFFFFFFFFF#64) ||| flag (s.me.asid == 0 || s.me.inHandler) 63 ||| flag s.me.inHandler 62)
  ∧ (∃ x, Answers (.sget h r d) s (Lands s (Instr.sget h r d).bytes 4 [x]))
  ∧ Answers (.sput h .mstep a) s (Lands s (Instr.sput h .mstep a).bytes 4 [.mstep (s.s a)])
  ∧ (s.me.priv = true →
      Answers (.sput h .trapinfo a) s (Lands s (Instr.sput h .trapinfo a).bytes 4 [.trapinfo (s.s a)]))

/-- R299, R300: `pal` writes all 64 bits of PAL from its literal or register, 4 cycles later, and `palr` reads PAL's fields. -/
def Sys2Proof.Claims.PaletteMoves : Prop := ∀ (s : State) (h : Hd) (x : Dword) (a d : SReg), s.Acts h →
  Answers (.palLiteral h x) s (Lands s (Instr.palLiteral h x).bytes 4 [.pal x])
  ∧ Answers (.palRegister h a) s (Lands s (Instr.palRegister h a).bytes 4 [.pal (s.s a)])
  ∧ Answers (.palr h d) s (Lands s (Instr.palr h d).bytes 4 [.s d.val ((s.me.pal.extractLsb' 0 19).zeroExtend 64)])

/-- R142, R143, R299, R300: every special register and the palette register. -/
def Obligations.SpecialRegistersAndPalette : Prop := Claims.SpecialRegisters ∧ Claims.PaletteMoves

/-- R140, R141, R383, R391 to R394: a trap of a split that is in no handler saves its frame: the PC of the next instruction in the image,
and TRAPINFO, which holds its class, DETAIL, ARG and the frame's address, at the frame's start; then the split runs, in
privileged mode, at the vector of the class. Its registers stand as they are. A word that is no instruction traps so, with
ILLEGAL and the DETAIL of its kind (R113), at its own address. -/
def Sys2Proof.Claims.TrapsEnterTheirHandler : Prop :=
  ∀ (s : State) (h : Hd) (n : Fin 64) (x : Xl), s.Acts h → s.Drained → s.me.inHandler = false → s.me.pend = Pend.none →
  s.mem.wf = true → s.gr.base < 16 → s.xlArea false true s.frameVa = .ok x → s.saveWaits = false →
  let pa : Nat := x.pa
  let va : Dword := s.frameVa
  let same (w : Split) : Nat × Dword × Mask × Vector Dword 32 × Vector Mask 8 := (w.id, w.pc, w.act, w.sregs, w.preds)
  let len : Nat := 0x400 + (s.imageFixed 0#64 0).length + s.imageRegs.length
  let enters (i : Instr) (c : TClass) (detail arg : Nat) (pc : Dword) : Prop := s.vec c ≠ 0#64 → Answers i s fun t =>
    t.me.inHandler = true ∧ t.me.priv = true ∧ t.me.pc = s.vec c ∧ t.me.status = .run ∧ t.me.inRun = false
    ∧ t.me.toks = Vector.replicate 8 0 ∧ t.me.ops = []
    ∧ t.me.trapinfo.toNat % 32 = tclassCode c ∧ t.me.trapinfo.toNat / 2 ^ 5 % 32 = detail
    ∧ t.me.trapinfo.toNat / 2 ^ 10 % 64 = arg ∧ t.me.trapinfo.toNat / 2 ^ 16 % 2 ^ 41 = va.toNat / 2 ^ 16 % 2 ^ 41
    ∧ t.mem.read pa 8 = t.me.trapinfo.toNat ∧ t.mem.read (pa + 0x400) 8 = pc.toNat
    ∧ t.win.regs = s.win.regs ∧ t.me.sregs = s.me.sregs ∧ t.me.preds = s.me.preds ∧ t.me.act = s.me.act
    ∧ t.me.pal = s.me.pal ∧ t.win.entries = s.win.entries ∧ t.splits.map same = s.splits.map same
    ∧ ∀ a, a < pa ∨ pa + len ≤ a → t.mem.byte a = s.mem.byte a
  enters (.trap h n) .soft 0 n.val (s.me.pc + 4#64) ∧ enters (.brk h n) .brk 0 n.val (s.me.pc + 4#64)
  ∧ enters (.unassignedOpcode .opcode) .illegal 0 0 s.me.pc ∧ enters (.unassignedOpcode .length) .illegal 1 0 s.me.pc
  ∧ enters (.unassignedOpcode .sub) .illegal 2 0 s.me.pc ∧ enters (.unassignedOpcode .unary) .illegal 3 0 s.me.pc

/-- R391, R395, R429: a trap in a handler aborts the grid with the class and DETAIL of the trap, and a trap of a split that has
outstanding operations which its frame does not capture waits for them. -/
def Sys2Proof.Claims.TrapsThatDoNotEnter : Prop :=
  ∀ (s : State) (h : Hd) (n : Fin 64), s.Acts h → s.me.pend = Pend.none →
  (s.me.inHandler = true → Answers (.trap h n) s fun t =>
    t = s.fresh427.endRun.abort s.gr.grid 0 (tclassCode .soft) 0 s.gr.team s.gr.grp)
  ∧ (s.me.inHandler = false → s.me.quiet = false → Answers (.trap h n) s fun t => Kept s t ∧ t.me.pc = s.me.pc
      ∧ t.me.act = s.me.act ∧ t.me.ops = s.me.ops ∧ t.me.toks = s.me.toks ∧ t.me.inHandler = false
      ∧ t.me.status = .wait [.quiet] (.trap ⟨.soft, 0, n.val, s.me.pc + 4#64, s.me.toks⟩))

/-- R113, R140, R141, R383, R391 to R395, R429: a trap enters its handler, aborts in one, or waits for what its frame does not capture. -/
def Obligations.TrapsAreTaken : Prop := Claims.TrapsEnterTheirHandler ∧ Claims.TrapsThatDoNotEnter

/-- R396, R397: `rft` in a handler restores from its frame the PC, ACT, the scalar registers, predicates, PAL, the range
register and the window, with every token at zero, and the split runs on outside the handler. -/
def Obligations.ReturnsRestoreTheFrame : Prop :=
  ∀ (s : State) (h : Hd) (pa : Nat) (m : Memory), s.Acts h → s.Drained → s.me.inHandler = true → s.me.pend = Pend.none →
  s.me.slice = 0 → s.readArea s.me.frameAt frameParts = .ok (pa, m) →
  let i := readImage m (pa + 0x400)
  s.frameOk m pa = true → s.imageRoom i = true → m.read (pa + 8) 1 = 1 → m.read (pa + 9) 1 = 0 →
  m.read (pa + 0xA) 1 % 2 = 0 → m.read (pa + 0xC) 2 % 1024 = s.locOf s.me.stack →
  (i.entries.all fun e => e.kind != 3) = true →
  Answers (.rft h) s fun t => t.me.inHandler = false ∧ t.me.pc = i.pc ∧ t.me.act = i.act ∧ t.me.exited = i.exited
    ∧ t.me.sregs = i.sregs ∧ t.me.preds = i.preds ∧ t.me.pal = i.pal ∧ t.me.rlo = i.rlo ∧ t.me.rhi = i.rhi
    ∧ t.me.wbase = i.wbase ∧ t.me.frame = i.frame ∧ t.me.mstep = BitVec.ofNat 64 (m.read (pa + 0x10) 8) &&& 0xFF0F#64
    ∧ t.me.toks = Vector.replicate 8 0 ∧ t.me.ops = [] ∧ t.me.status = .run ∧ t.me.inRun = false
    ∧ t.mem = s.mem ∧ t.splits = s.splits
    ∧ ∀ r < i.wbase + i.frame, ∀ l < 32, i.act.has l = true → lane (vget t.win.regs r (Vector.replicate 32 0#32)) l
        = BitVec.ofNat 32 (m.read (pa + 0x800 + 128 * r + 4 * l) 4)

/-- R380, R412: outside privileged mode each privileged form raises PRIV, whatever its guard and operands, and so does `rft`
outside a handler. -/
def Sys2Proof.Claims.PrivilegedFormsAreChecked : Prop :=
  ∀ (i : Instr) (s : State), needsPriv i = true ∧ s.me.priv = false ∨ needsHandler i = true ∧ s.me.inHandler = false →
  exec i s = .next (s.raise (s.trapHere .priv 0))

/-- R145 to R148: in privileged mode `stkspill`, `stkfill` and `ctxsv` are outstanding on their tokens, `ctxld` takes the
split's state from an image, and `tlbi` drops the matching translations of every cache. -/
def Sys2Proof.Claims.PrivilegedForms : Prop :=
  ∀ (s : State) (h : Hd) (d a b : SReg) (n : Word) (k : Tok) (v : TlbiVar) (dom : Bool), s.Acts h → s.Room k →
  s.me.priv = true → s.me.status = .run →
  (∀ pas, s.xlEntries true (s.s a) (min n.toNat s.own.length) = .ok pas → Answers (.stkspill h d a n k) s
    (Starts s (.stkspill h d a n k) h k fun o => o.cidx.toNat = min n.toNat s.own.length ∧ o.kind = .plain))
  ∧ (∀ f, s.fill (s.s a) (min n.toNat (32 - s.win.entries.length)) = .ok f → f.blocked = false →
      (∀ x ∈ f.pas, s.mem.poisoned x.1 = false) →
      Answers (.stkfill h d a n k) s (Starts s (.stkfill h d a n k) h k fun o => o.blob = f.words ∧ o.kind = .plain))
  ∧ (∀ pas, s.xlLines true (s.s a) (16 + 2 * (s.me.wbase + s.me.frame)) = .ok pas → s.me.toks = Vector.replicate 8 0 →
      s.me.results = [] →
      Answers (.ctxsv h d a k) s (Starts s (.ctxsv h d a k) h k fun o =>
        o.blob = s.imageFixed (s.me.pc + 12#64) d ++ s.imageRegs ∧ vget o.addr 0 0#64 = s.s a))
  ∧ (∀ lines, s.fetchImage (s.s a) = .ok lines → s.me.toks = Vector.replicate 8 0 → s.me.results = [] →
      let i := readImage (gatherLines s.mem lines) 0
      maskedRpc (i.entries.map fun e => e.filled s.me.num) ≠ some i.pc →
      Answers (.ctxld h a) s fun t => t.me.pc = i.pc ∧ t.me.act = i.act ∧ t.me.exited = i.exited ∧ t.me.sregs = i.sregs
        ∧ t.me.preds = i.preds ∧ t.me.pal = i.pal ∧ t.me.rlo = i.rlo ∧ t.me.rhi = i.rhi ∧ t.me.seeds = i.seeds
        ∧ t.me.wbase = i.wbase ∧ t.me.frame = i.frame ∧ t.me.toks = s.me.toks ∧ t.mem = s.mem ∧ t.splits = s.splits)
  ∧ Answers (.tlbi h v dom a b k) s fun t => Kept s t ∧ GoesTo s t (s.me.pc + BitVec.ofNat 64 (Instr.tlbi h v dom a b k).bytes)
      ∧ (∃ o, t.me.ops = s.me.ops ++ [o] ∧ o.kind = .tlbi ∧ o.tok = some k)
      ∧ t.me.toks = vset s.me.toks k.val (s.me.tok k + 1)
      ∧ ∀ q < 16, (∀ x ∈ (t.stk q).walks, walkMatches v ((s.s a).toNat % 1024) (s.s b).toNat x = false)
        ∧ (∀ x ∈ (t.stk q).tlb, tlbMatches v ((s.s a).toNat % 1024) (s.s b).toNat x = false)
        ∧ ∀ c < 8, ∀ x ∈ (t.core q c).tlb, tlbMatches v ((s.s a).toNat % 1024) (s.s b).toNat x = false

/-- R144: a prefetch brings a line of code into the core's instruction cache, a pin pins it for its grid where there is room,
and a free takes the grid's pin away. -/
def Sys2Proof.Claims.InstructionCacheLines : Prop :=
  ∀ (s : State) (h : Hd) (a : SReg) (x : Xl), s.Acts h → s.me.stack < 16 → s.me.core < 8 → s.mem.poisoned x.pa = false →
  xlate s s.me.stack s.me.core s.me.asid ⟨false, false, true, false⟩ 1 (BitVec.ofNat 64 (64 * ((s.s a).toNat / 64))) = .ok x →
  let old := s.myCore.icache
  let line (t : State) (p : ILine → Prop) : Prop := Kept s t
    ∧ GoesTo s t (s.me.pc + BitVec.ofNat 64 (Instr.icpre h .core a 1#32).bytes)
    ∧ t.me.toks = s.me.toks ∧ t.me.ops = s.me.ops
    ∧ ∃ l, t.myCore.icache.find? (fun (q : ILine) => q.line == lineOf x.pa) = some l ∧ p l
  let was (p : Option Nat → Prop) : Prop := ∃ l, old.find? (fun (q : ILine) => q.line == lineOf x.pa) = some l ∧ p l.pin
  (old.length < 4096 → Answers (.icpre h .core a 1#32) s fun t => line t fun l =>
    (∀ q ∈ old, q.line ≠ lineOf x.pa) → l.data = s.mem.read x.pa 64 ∧ l.pin = none)
  ∧ (old.length < 4096 → (old.filter fun (l : ILine) => l.pin.isSome).length < 2048 →
      (∀ l ∈ old, l.line = lineOf x.pa → l.pin = none) →
      Answers (.icpin h .core a 1#32) s fun t => line t fun l => l.pin = some s.gr.grid)
  ∧ (was (· = some s.gr.grid) → Answers (.icfree h .core a 1#32) s fun t => line t fun l => l.pin = none)
  ∧ ∀ (lvl : IcLevel) (len : Word), Answers (.icpre h lvl a len) s (fun t => t.mem = s.mem ∧ t.me.sregs = s.me.sregs
      ∧ t.win.regs = s.win.regs) ∧ Answers (.icpin h lvl a len) s (fun t => t.mem = s.mem ∧ t.me.sregs = s.me.sregs
      ∧ t.win.regs = s.win.regs) ∧ Answers (.icfree h lvl a len) s (fun t => t.mem = s.mem ∧ t.me.sregs = s.me.sregs
      ∧ t.win.regs = s.win.regs)

/-- R144 to R148, R380, R412: the privileged forms, and the instruction-cache instructions. -/
def Obligations.PrivilegedInstructions : Prop := Claims.PrivilegedFormsAreChecked ∧ Claims.PrivilegedForms ∧ Claims.InstructionCacheLines

/-! ### Memory, objects and fences -/

/-- R204 to R208, R211, R212, R215 to R217: `ld`, `st`, `ldg`, `stg`, `atg`, `lrg` and `scg` are outstanding on their token, one
access per active lane or one for the split, at the addresses of R204 and with the data of the lanes; no byte is accessed
yet. A migrating form whose lanes are all homed on the current stack stays there, and one whose lanes are all homed on
others ends the run and leaves. Where a redundant pair differs on an instruction that writes, its lanes stand at STATE 3 with
CAUSE 15 and nothing is sent (R451). -/
def Obligations.AccessesAreOutstanding : Prop :=
  ∀ (i : Instr) (a : Acc) (k : Tok) (s : State), Acc.of i = some a → tokOf i = some k → i.wf = true → s.Acts (hdOf i) →
  s.Room k → (releases i = true → s.Released) →
  let on (l : Nat) : Prop := l < 32 ∧ (s.active (hdOf i)).has l = true
  let idx (l : Nat) : Dword := match a.m.idx with
    | .s b => s.s b
    | .v b uns scaled => (if uns then (lane (s.v b) l).zeroExtend 64 else (lane (s.v b) l).signExtend 64)
        * (if scaled then BitVec.ofNat 64 a.sz else 1#64)
  let addr (l : Nat) : Dword := s.s a.m.a + idx l + a.m.off.signExtend 64
  let regs (o : Op) (c : VReg) (n : Nat) : Prop :=
    ∀ l < 32, ∀ j < n, (vget o.data l 0#128).extractLsb' (32 * j) 32 = lane (s.vAt c j) l
  let data (o : Op) : Prop := match i with
    | .st _ _ .scal _ c _ _ | .stg _ _ .scal _ c _ _ _ => o.scap = [s.s (Fin.ofNat 32 c.val)]
    | .st _ _ sh ty c _ _ | .stg _ _ sh ty c _ _ _ => regs o c (regsOf (sh.size ty))
    | .atg _ _ op ty _ _ c _ _ _ => regs o c ((if op = .cas then 2 else 1) * regsOf ty.size)
    | .scg _ _ ty _ c _ _ _ => regs o c (regsOf ty.size)
    | _ => True
  let differs : Bool := s.differs (s.laneOp i (hdOf i) (some k) a)
  let access (o : Op) : Prop := o.kind = .access ∧ (∀ l < 32, vget o.addr l 0#64 = addr l) ∧ data o
    ∧ ∀ l < 32, o.stateAt l = if (if actsOnce i then l == 0 else (s.active (hdOf i)).has l) then (if differs then 3 else 2) else 0
  let suspects (o : Op) : Prop := differs = true → o.sent = false
    ∧ ∀ l < 32, o.stateAt l = 3 → (vget o.stat l 0#8).toNat % 32 = 15
  let xl (l : Nat) : Except TClass Xl := s.xlMigrating a.rd a.wr a.sz (addr l)
  (a.mig = false ∨ differs = true → Answers i s (Issues s i (hdOf i) k (acquires i) fun o => access o ∧ suspects o))
  ∧ (a.mig = true → differs = false → (∀ l, on l → ∃ x, xl l = .ok x ∧ s.homedOn s.me.stack x.pa = true) →
      Answers i s (Issues s i (hdOf i) k (acquires i) fun o => access o ∧ o.sent = true
        ∧ ∀ l, on l → actsOnce i = false → ∀ x, xl l = .ok x → vget o.pa l 0 = x.pa))
  ∧ (a.mig = true → differs = false → (∀ l, on l → ∃ x, xl l = .ok x ∧ s.homedOn s.me.stack x.pa = false) →
      Answers i s fun t => Moved s t ∧ t.me.inRun = false ∧ t.me.pc = s.me.pc
        ∧ ∃ o, t.me.ops = s.me.ops ++ [o] ∧ access o ∧ t.me.status = .leaving (.access o.id))

/-- R211, R214 to R217: at its home a lane's access reads or writes the bytes at its address, and no other byte: a load fills
the lane's register value, a store writes its data, an atomic returns the old value and writes the new one, `lrg` leaves a
reservation, and `scg` writes where its reservation still stands. -/
def Obligations.LaneAccessesArePerformed : Prop :=
  ∀ (s f : State) (split id : Nat) (o : Op) (a : Acc) (l : Nat), s.focus split = some f → f.me.op? id = some o →
  Acc.of o.instr = some a → o.instr.wf = true → o.kind = .access → o.sent = true → f.Serves → (o.lanesAt 2 &&& o.legLanes).lowest = some l →
  s.mem.wf = true →
  let pa := vget o.pa l 0
  f.homedOn f.me.stack pa = true → f.mayAccess o pa a.sz (a.wr && !(o.instr matches .lrg ..)) = true →
  f.heldOff pa a.sz (some f.me.id) = false → f.mem.poisoned pa = false →
  let n := 8 * a.sz
  let x := f.mem.read pa a.sz
  let y := (vget o.data l 0#128).toNat
  let done (t : State) (v : BitVec 128) : Prop := ∃ p, t.me.op? id = some p ∧ p.stateAt l = 1 ∧ vget p.out l 0#128 = v
    ∧ ∀ m < 32, m ≠ l → p.stateAt m = o.stateAt m ∧ vget p.out m 0#128 = vget o.out m 0#128
  let same (t : State) : Prop := t.win.regs = f.win.regs ∧ t.me.sregs = f.me.sregs ∧ t.me.preds = f.me.preds
    ∧ t.me.toks = f.me.toks ∧ t.me.pc = f.me.pc ∧ t.me.act = f.me.act
  let reads (v : BitVec 128) : Prop := Answers (.operationCompletion split id) s fun t => done t v ∧ same t ∧ t.mem = f.mem
  let writes (v : BitVec 128) (new : Nat) : Prop := Answers (.operationCompletion split id) s fun t => done t v ∧ same t
    ∧ t.mem.read pa a.sz = new % 2 ^ n ∧ ∀ b, b < pa ∨ pa + a.sz ≤ b → t.mem.byte b = f.mem.byte b
  let fill (ty : MTy) : BitVec 128 := match ty with
    | .i8 | .i16 => BitVec.ofNat 128 (sextOf x n % 2 ^ 32).toNat
    | _ => BitVec.ofNat 128 x
  let holds : Prop := ∃ r, f.resvOf pa l = some r ∧ r.granule = pa / 8
  match o.instr with
  | .ld _ _ .lane ty _ _ _ | .ldg _ _ .lane ty _ _ _ _ => reads (fill ty)
  | .ld _ _ .quad _ _ _ _ | .ldg _ _ .quad _ _ _ _ _ => reads (BitVec.ofNat 128 x)
  | .ld _ _ .scal ty d _ _ | .ldg _ _ .scal ty d _ _ _ => Answers (.operationCompletion split id) s fun t =>
      same t ∧ t.mem = f.mem ∧ ∃ p, t.me.op? id = some p ∧ p.stateAt l = 1
        ∧ p.writes = [.s d.val (match ty with
          | .i8 | .i16 | .i32 => BitVec.ofInt 64 (sextOf x n)
          | _ => BitVec.ofNat 64 x)]
  | .st _ _ .scal _ _ _ _ | .stg _ _ .scal _ _ _ _ _ => writes 0#128 (o.scap.headD 0#64).toNat
  | .st _ _ _ _ _ _ _ | .stg _ _ _ _ _ _ _ _ => writes 0#128 y
  | .lrg _ _ ty _ _ _ _ => Answers (.operationCompletion split id) s fun t => done t (fill ty) ∧ same t ∧ t.mem = f.mem
      ∧ ∃ r ∈ (t.stk (homeStack pa)).resv, r.split = f.me.id ∧ r.lane = l ∧ r.granule = pa / 8
  | .scg _ _ _ _ _ _ _ _ => (holds → writes 0#128 y) ∧ (¬ holds → reads 1#128)
  | .atg _ _ op ty sat _ _ _ _ _ =>
    let sg : Bool := match ty with
      | .i32 | .i64 => true
      | _ => false
    let val (z : Nat) : Int := if sg then sextOf z n else (z % 2 ^ n : Nat)
    let cap (v : Int) : Int :=
      if sat then (if sg then satTo v (-2 ^ (n - 1)) (2 ^ (n - 1) - 1) else satTo v 0 (2 ^ n - 1)) else v
    let num (v : Int) : Nat := (v % 2 ^ n).toNat
    let c := y % 2 ^ n
    writes (BitVec.ofNat 128 x) (match op with
      | .swap => c
      | .add => num (cap (val x + val c))
      | .min => num (min (val x) (val c))
      | .max => num (max (val x) (val c))
      | .and => x &&& c
      | .or => x ||| c
      | .xor => x ^^^ c
      | .cas => if x = c then y / 2 ^ n else x
      | .fadd => fmtF32.round .rne false 0 ((fmtF32.value x).add .rne (fmtF32.value c)))
  | _ => True

/-- R124, R207: an access all of whose lanes are done, and an operation that accesses nothing, completes: its results land in
the lanes that are done, then its token falls, and it is outstanding no more. -/
def Obligations.OperationsComplete : Prop :=
  ∀ (s f : State) (split id : Nat) (o : Op) (k : Tok), s.focus split = some f → f.me.op? id = some o → o.tok = some k →
  f.Serves → f.me.status ≠ .legs id →
  let ends (t : State) : Prop := t.me.ops = f.me.ops.filter (fun p => p.id != id) ∧ t.me.tok k = f.me.tok k - 1
    ∧ t.mem = f.mem ∧ t.me.pc = f.me.pc ∧ t.me.act = f.me.act ∧ t.me.status = f.me.status ∧ t.splits = f.splits
  (o.kind = .access → (Acc.of o.instr).isSome = true → captured o.instr = true → o.sent = true → o.lanesAt 2 = 0#32 →
    o.lanesAt 3 = 0#32 → Answers (.operationCompletion split id) s fun t => ends t
      ∧ (∀ d n, vecDest o.instr = some (d, n) → ∀ j < n, o.wb + d + j < 128 → ∀ l < 32,
        let r (u : State) : Word := lane (vget u.win.regs (o.wb + d + j) (Vector.replicate 32 0#32)) l
        r t = if (o.lanesAt 1 &&& ~~~o.landed).has l then (vget o.out l 0#128).extractLsb' (32 * j) 32 else r f)
      ∧ (∀ d x, actsOnce o.instr = true → o.writes = [.s d x] → (o.lanesAt 1 &&& ~~~o.landed).has 0 = true → 0 < d → d < 32 →
        vget t.me.sregs d 0#64 = x))
  ∧ (o.kind = .plain → captured o.instr = false → vecDest o.instr = none →
      (match o.instr with | .stkspill .. | .stkfill .. | .ctxsv .. => False | _ => True) →
      Answers (.operationCompletion split id) s fun t => ends t ∧ t.win.regs = (f.applyAll o.writes).win.regs
        ∧ t.me.sregs = (f.applyAll o.writes).me.sregs)

/-- R43, R44, R219: `stp` and `atp` send one post for each active lane, in increasing lane order, to the home of its address,
count each in the tracker of the stack, set its POSTLOC bit, and go on; no register is written and nothing is accessed. -/
def Sys2Proof.Claims.PostsLeaveInLaneOrder : Prop :=
  ∀ (s : State) (h : Hd) (m : Addr) (op : AtOp) (ty : MTy) (sat : Bool) (c : VReg) (rel : Option Scope) (x : Nat → Xl),
  s.Acts h → s.me.stack < 16 → s.trackerFull s.me.stack = false → (rel.isSome = true → s.Released) →
  let ls := (s.active h).list
  let posts (i : Instr) (o : Option (AtOp × Bool)) (data : Nat → BitVec 128) : Prop := Answers i s fun t => Kept s t
    ∧ GoesTo s t (s.me.pc + BitVec.ofNat 64 i.bytes) ∧ t.me.toks = s.me.toks ∧ if s.differs (s.postOp i h).1 then
      t.fabric = s.fabric ∧ ∃ p, t.me.ops = s.me.ops ++ [p] ∧ p.instr = i ∧ ∀ l ∈ ls, p.stateAt l = 3
    else t.me.ops = s.me.ops
    ∧ t.me.postloc = s.me.postloc ||| (1#16 <<< s.me.stack)
    ∧ (t.stk s.me.stack).tracker = (s.stk s.me.stack).tracker ++ ls.mapIdx (fun j _ => (s.gr.id, s.nextId + j))
    ∧ t.fabric = s.fabric ++ ls.mapIdx fun j l => ⟨s.me.stack, s.nameOf (homeOf (x l).pa), s.me.stack, .post s.me.id s.gr.id
        (s.gr.grid, s.gr.team, s.gr.grp) s.me.asid o ty (x l).pa (data l) (x l).pois (s.me.ops.map fun e => e.id) (s.nextId + j) [s.me.id]⟩
  let sent (rd : Bool) : Prop := ∀ l ∈ ls, s.xl rd true ty.size (s.addrAt m ty.size l) = .ok (x l)
  (sent false → posts (.stp h m ty c rel) none fun l => s.wordsAt c (regsOf ty.size) l)
  ∧ (sent true → posts (.atp h m op ty sat c rel) (some (op, sat)) fun l => s.wordsAt c (regsOf ty.size) l)

/-- R43 to R45, R219, R460: a post is performed at its home, on its bytes and no others, and acknowledged; the acknowledgement frees its entry
of the tracker; a probe of a stack that tracks no post of the group is answered at once; and an answer clears its bit. -/
def Sys2Proof.Claims.PostsArePerformedAndProbed : Prop :=
  ∀ (s f : State) (src dst w gid asid : Nat) (who : Nat × Nat × Nat) (op : Option (AtOp × Bool)) (ty : MTy) (pa pois no k : Nat) (data : BitVec 128)
    (after kin : List Nat) (failed : Bool), dst < 16 → s.mem.wf = true →
  let headed (pl : Payload) : Prop := s.head src dst = some (pl, f)
  let awake : Prop := (s.stk dst).pstate = 0
  (headed (.post w gid who asid op ty pa data pois after no kin) → awake → after = [] →
    (∀ later, f.contextFirst dst f.nextId pa ty.size later = false) → f.heldOff pa ty.size (some w) = false → f.hostWaits pa true = false → f.mem.poisoned pa = false →
    Answers (.post src dst) s fun t => t.mem.read pa ty.size = (match op with
        | none => data.toNat
        | some (g, sat) => atomicNew g ty sat (f.mem.read pa ty.size) (data.toNat % 2 ^ (8 * ty.size)) 0) % 2 ^ (8 * ty.size)
      ∧ (∀ a, a < pa ∨ pa + ty.size ≤ a → t.mem.byte a = f.mem.byte a)
      ∧ t.fabric = f.fabric ++ [⟨dst, src, dst, .postAck gid no false⟩])
  ∧ (headed (.post w gid who asid op ty pa data 0 after no kin) → awake → after = [] →
    (∀ later, f.contextFirst dst f.nextId pa ty.size later = false) → f.heldOff pa ty.size (some w) = false → f.hostWaits pa true = false → f.mem.poisoned pa = true →
    Answers (.post src dst) s fun t => t.mem = f.mem ∧ ∃ u, SendsRecord f u dst 4 (bytesLE 8 pa) ∧ t.md = u.md
      ∧ t.fabric = u.fabric ++ [⟨dst, src, dst, .postAck gid no true⟩])
  ∧ (headed (.postAck gid no failed) → (f.stk dst).probed = [] → Answers (.postAcknowledgement src dst) s fun t =>
      (t.stk dst).tracker = (f.stk dst).tracker.filter (· != (gid, no))
      ∧ (failed = true → gid ∈ (t.stk dst).failed) ∧ t.mem = f.mem)
  ∧ (headed (.probe w gid) → awake → (f.stk dst).probed = [] → (∀ e ∈ (f.stk dst).tracker, e.1 ≠ gid) →
      Answers (.probe src dst) s fun t => t.mem = f.mem
        ∧ t.fabric = f.fabric ++ [⟨dst, src, dst, .probeAnswer w dst ((f.stk dst).failed.contains gid)⟩])
  ∧ (headed (.probeAnswer w k failed) → ∀ x, w ≠ 0 → f.split? w = some x → Answers (.probeAnswer src dst) s fun t =>
      t.mem = f.mem ∧ ∃ y, t.split? w = some y ∧ y.probes = x.probes.filter (· != k)
        ∧ (∀ j < 16, y.postloc.getLsbD j = (x.postloc.getLsbD j && j != k))
        ∧ (∀ m < 64, y.postmod.getLsbD m = (x.postmod.getLsbD m
            && (m != f.locOf k / 16 || y.probes.any fun j => f.locOf j / 16 == m))) ∧ y.probeFailed = (x.probeFailed || failed))

/-- R43 to R45, R219, R460: posts leave in lane order, are performed at their home, and are acknowledged and probed. -/
def Obligations.PostsTravelAndLand : Prop := Claims.PostsLeaveInLaneOrder ∧ Claims.PostsArePerformedAndProbed

/-- R220, R272 to R275: `ldz`, `stz`, `cpkt`, `binit`, `bexp`, `barv` and `bobs` are outstanding on their token with the
operands of their issue; an acquire, and every `bobs`, holds the split until it has completed. -/
def Obligations.ObjectAccessesAreOutstanding : Prop :=
  ∀ (s : State) (h : Hd) (a b d : SReg) (dv c : VReg) (ty : MTy) (n : Word) (m : BitVec 16) (acq rel : Option Scope) (sc : Scope)
    (arv w1 q : Bool) (k : Tok), s.Acts h → s.Room k →
  let op (o : Op) (xs : List Dword) : Prop := o.kind = .access ∧ o.sent = false ∧ vget o.addr 0 0#64 = s.s a ∧ o.scap = xs
  let gives (i : Instr) (what : Op → Prop) : Prop := Answers i s (Issues s i h k (acquires i) what)
  let ready (b : Bool) (p : Prop) : Prop := (b = true → s.Released) → p
  gives (.ldz h dv a b ty n acq k) (fun o => op o [s.s b])
  ∧ ((Instr.stz h d a b c ty n rel k).wf = true → ready rel.isSome (gives (.stz h d a b c ty n rel k) fun o => op o [s.s b] ∧ ofBytesLE (o.blob.take 4) = n.toNat
      ∧ o.blob.length = 16 + 16 * ((n.toNat + 127) / 128) + ofBytesLE ((o.blob.drop 4).take 4)))
  ∧ ready true (gives (.cpkt h sc d a b k) fun o => op o ((List.range 8).map fun j => s.s (Fin.ofNat 32 (b.val + j))))
  ∧ gives (.binit h a b m k) (fun o => op o [s.s b]) ∧ ready arv (gives (.bexp h arv sc a b k) fun o => op o [s.s b])
  ∧ ready true (gives (.barv h sc a m k) fun o => op o []) ∧ gives (.bobs h w1 q sc d a k) (fun o => op o [])

/-- R267, R268, R274, R419: an update of a barrier object adds to PEND, takes the arrivals from APEND, and flips the object when both are
zero: PHASE turns, CLIP takes CLIPN, and APEND takes AEXP. `binit` writes both words, and `bobs` reads one. -/
def Sys2Proof.Claims.BarrierObjectsFlip : Prop :=
  ∀ (s f : State) (split id : Nat) (o : Op), s.focus split = some f → f.me.op? id = some o → o.kind = .access → o.sent = true →
  f.Serves → o.lanesAt 3 = 0#32 → s.mem.wf = true →
  let pa := vget o.pa 0 0
  pa % 16 = 0 → f.mem.poisoned pa = false → f.heldOff pa 16 (some f.me.id) = false →
  f.mayAccess o pa 16 (!(o.instr matches .bobs ..)) = true →
  let w0 := f.mem.read pa 8
  let w1 := f.mem.read (pa + 8) 8
  let b := (o.scap.headD 0#64).toNat % 2 ^ 56
  let updates (added arrivals : Nat) : Prop := Answers (.operationCompletion split id) s fun t =>
    let v0 := t.mem.read pa 8
    let v1 := t.mem.read (pa + 8) 8
    let pend := (bitsOf w0 55 0 + added) % 2 ^ 56
    let apend := bitsOf w1 15 0 - arrivals
    (∀ y, y < pa ∨ pa + 16 ≤ y → t.mem.byte y = f.mem.byte y)
    ∧ bitsOf v0 55 0 = pend ∧ bitsOf v0 62 58 = bitsOf w0 62 58 ∧ bitsOf v1 63 16 = bitsOf w1 63 16
    ∧ if pend = 0 ∧ apend = 0 then
        bitsOf v0 63 63 = 1 - bitsOf w0 63 63 ∧ bitsOf v0 56 56 = bitsOf w0 57 57 ∧ bitsOf v0 57 57 = 0
        ∧ bitsOf v1 15 0 = bitsOf w1 31 16
      else bitsOf v0 63 63 = bitsOf w0 63 63 ∧ bitsOf v0 57 56 = bitsOf w0 57 56 ∧ bitsOf v1 15 0 = apend
  match o.instr with
  | .binit _ _ _ n _ => Answers (.operationCompletion split id) s fun t => t.mem.read pa 8 = b
      ∧ t.mem.read (pa + 8) 8 = n.toNat * 65537 ∧ ∀ y, y < pa ∨ pa + 16 ≤ y → t.mem.byte y = f.mem.byte y
  | .bexp _ arv _ _ _ _ => updates b (if arv then 1 else 0)
  | .barv _ _ _ n _ => updates 0 n.toNat
  | .bobs _ wd _ _ d _ _ => 0 < d.val → o.landed = 0#32 →
      Answers (.operationCompletion split id) s fun t =>
        t.mem = f.mem ∧ vget t.me.sregs d.val 0#64 = BitVec.ofNat 64 (if wd then w1 else w0)
  | _ => True

/-- R268: a barrier object's home performs an update that has arrived: PEND takes what is added and loses what is credited,
APEND loses the arrivals, and where both are zero the object flips. -/
def Sys2Proof.Claims.ObjectUpdatesArePerformed : Prop :=
  ∀ (s f : State) (src dst pa added credited arrivals pois asid job eng : Nat) (clip : Bool), (s.stk dst).pstate = 0 →
  s.head src dst = some (.object pa added credited arrivals clip pois asid job eng, f) → f.updateWaits pa none = false →
  f.mem.poisoned pa = false → pa % 16 = 0 → s.mem.wf = true →
  let w0 := f.mem.read pa 8
  let w1 := f.mem.read (pa + 8) 8
  let pend := (bitsOf w0 55 0 + added + 2 ^ 56 - credited % 2 ^ 56) % 2 ^ 56
  let apend := bitsOf w1 15 0 - arrivals
  let clipn := if clip then 1 else bitsOf w0 57 57
  Answers (.barrierObjectUpdate src dst) s fun t =>
    let v0 := t.mem.read pa 8
    let v1 := t.mem.read (pa + 8) 8
    (∀ a, a < pa ∨ pa + 16 ≤ a → t.mem.byte a = f.mem.byte a)
    ∧ bitsOf v0 55 0 = pend ∧ bitsOf v0 62 58 = bitsOf w0 62 58 ∧ bitsOf v1 63 16 = bitsOf w1 63 16
    ∧ if pend = 0 ∧ apend = 0 then
        bitsOf v0 63 63 = 1 - bitsOf w0 63 63 ∧ bitsOf v0 56 56 = clipn ∧ bitsOf v0 57 57 = 0
        ∧ bitsOf v1 15 0 = bitsOf w1 31 16
      else bitsOf v0 63 63 = bitsOf w0 63 63 ∧ bitsOf v0 56 56 = bitsOf w0 56 56 ∧ bitsOf v0 57 57 = clipn
        ∧ bitsOf v1 15 0 = apend

/-- R266 to R268, R274, R275, R419: what an instruction and what a packet does to a barrier object. -/
def Obligations.BarrierObjects : Prop := Claims.BarrierObjectsFlip ∧ Claims.ObjectUpdatesArePerformed

/-- R222, R223: a fence with nothing to wait for ends the run and goes on, and one with tokens outstanding waits for them;
`pfence` without posts goes on, and else asks every stack of POSTLOC and every stack of the modules of POSTMOD. -/
def Sys2Proof.Claims.FencesWaitForTokensAndPosts : Prop :=
  ∀ (s : State) (h : Hd) (f : FenceKind) (sc : Scope), s.Acts h → s.me.status = .run →
  let fence : Instr := .fence h f sc
  let pf : Instr := .pfence h
  let next (i : Instr) : Dword := s.me.pc + BitVec.ofNat 64 i.bytes
  let goes (i : Instr) (t : State) : Prop := Kept s t ∧ GoesTo s t (next i) ∧ t.me.toks = s.me.toks ∧ t.me.ops = s.me.ops
  ((s.Released ∨ f = .acq ∧ s.me.toks = Vector.replicate 8 0) →
    Answers fence s fun t => goes fence t ∧ t.me.inRun = false)
  ∧ (s.me.toksZero 0xFF#8 = false → Answers fence s fun t => Kept s t ∧ t.me.pc = s.me.pc ∧ t.me.inRun = false
      ∧ t.me.status = .wait (if f = .acq then [.toks 0xFF#8] else [.toks 0xFF#8, .probe, .answers]) (.goto (next fence)))
  ∧ (s.me.postloc = 0#16 → s.me.postmod = 0#64 → Answers pf s fun t => goes pf t)
  ∧ (s.me.postloc ≠ 0#16 ∨ s.me.postmod ≠ 0#64 → Answers pf s fun t => Kept s t ∧ t.me.pc = s.me.pc
      ∧ t.me.status = .wait [.answers] (.goto (next pf)) ∧ t.me.probes.Nodup
      ∧ (∀ k, k ∈ t.me.probes ↔ k < 16 ∧ s.me.postloc.getLsbD k = true
          ∨ ∃ m < 64, ∃ j < 16, s.me.postmod.getLsbD m = true ∧ k = s.nameOf (16 * m + j))
      ∧ t.fabric = s.fabric ++ t.me.probes.map fun k => ⟨s.me.stack, k, s.me.stack, .probe s.me.id s.gr.id⟩)

/-- R276: `bwt` goes on where the object's phase is the one it asks for; else the split waits at the object, to go on after
the instruction or at its continuation. -/
def Sys2Proof.Claims.BarrierWaits : Prop :=
  ∀ (s : State) (h : Hd) (sc : Scope) (a b : SReg) (cont : Option Word) (x : Xl), s.Acts h →
  s.xlLocal true false 16 (s.s a) = .ok x → s.mem.poisoned x.pa = false → s.readLater x.pa 16 = false →
  let q := (s.s b).getLsbD 0
  let i : Instr := .bwt h sc a b cont
  ((s.mem.read x.pa 8).testBit 63 = q → Answers i s fun t => t.me.results = s.me.results ∧ t.me.toks = s.me.toks
    ∧ t.me.ops = s.me.ops ∧ Moved s t ∧ GoesTo s t (s.me.pc + 12#64))
  ∧ ((s.mem.read x.pa 8).testBit 63 ≠ q → cont = none ∨ s.me.preq = false → Answers i s fun t => Kept s t
      ∧ t.me.pc = s.me.pc ∧ t.me.inRun = false ∧ t.me.status = .bwt x.pa q (match cont with
        | none => s.me.pc + 12#64
        | some off => s.me.pc + off.signExtend 64) cont.isSome)

/-- R222, R223, R276: fences, `pfence` and `bwt`. -/
def Obligations.FencesAndBarrierWaits : Prop := Claims.FencesWaitForTokensAndPosts ∧ Claims.BarrierWaits

/-! ### The arrays and range dispatch -/

/-- R124, R283, R286, R297, R298, R422: an array instruction whose checks pass and whose passes the queue can take is accepted
at its issue: one pass for each quarter it touches, or as many as its rule gives, join the queue, its token rises, and the
run goes on; no tile, register or byte changes then. A check that fails raises what it finds, and nothing is accepted. Where a
redundant pair differs on an instruction that writes memory, it makes no pass, and its lanes stand at STATE 3 (R451). -/
def Obligations.ArrayInstructionsAreAccepted : Prop :=
  ∀ (s : State) (h : Hd) (t : TileNo) (a c d : VReg) (b sd : SReg) (ks : Fin 256) (soff : Word) (k : Tok) (all uns sat ofn : Bool)
    (j0 : Fin 64) (n : Fin 128) (dst : DrDst) (ty : MTy) (rule : SwRule) (planes width : Fin 16) (form : SwmForm),
  s.Acts h → s.Room k → s.me.stack < 16 → s.me.core < 8 →
  let quarters : Nat := (quartersOf (s.active h)).length
  let buckets : Nat := max 1 (((s.swAccepted.taking (palSwe s.me.pal) (s.active h)).length + 7) / 8)
  let same (u : State) : Prop := u.win.regs = s.win.regs ∧ u.me.sregs = s.me.sregs ∧ u.me.preds = s.me.preds
    ∧ u.me.pal = s.me.pal ∧ u.me.mstep = s.me.mstep ∧ u.mem = s.mem ∧ u.gr = s.gr ∧ u.splits = s.splits
  let takes (i : Instr) (chk : Chk) (n : Nat) : Prop :=
    let differs : Bool := s.differs (s.newOp i h (some k))
    let passes : Nat := if differs then 0 else n
    (chk = none → queued s.myCore.queue + passes ≤ 64 → Answers i s fun u => same u
      ∧ GoesTo s u (s.me.pc + BitVec.ofNat 64 i.bytes) ∧ u.me.toks = vset s.me.toks k.val (s.me.tok k + 1)
      ∧ u.me.results = s.me.results ∧ queued u.myCore.queue = queued s.myCore.queue + passes
      ∧ ∃ o, u.me.ops = s.me.ops ++ [o] ∧ o.instr = i ∧ o.kind = .array ∧ o.tok = some k ∧ o.act = s.active h ∧ o.faulted = differs)
    ∧ ∀ cls det, chk = some (cls, det) → exec i s = .next (s.fresh427.raise (s.trapHere cls det))
  let tile : Chk := if s.gr.tiles.length ≤ t.val then some (.illegal, 5) else none
  let fixed : Chk := if s.gr.tiles = [] then some (.illegal, 5) else none
  let drain : Chk := chkIf (palDrain s.me.pal).isNone .illegal 4
  let bad (x : Bool) : Chk := chkIf x .illegal 5
  takes (.mma h t a b ks c soff k) (s.denseChk t a b ks c soff false false) quarters
  ∧ ((∀ o ∈ s.me.ops, (o.instr matches .mmab ..) = false) →
      takes (.mmab h t a b c soff k) (s.sparseChk t b c soff)
        ((quartersOf (s.active h)).filter fun q => !s.me.mstep.getLsbD q).length)
  ∧ takes (.accz h all t k) tile (if all then 4 else quarters)
  ∧ takes (.accrd h d t j0 n k) tile quarters ∧ takes (.accwr h t a j0 n k) tile quarters ∧ takes (.accst h sd t k) tile 1
  ∧ takes (.drq h dst t b c uns j0 n k) (drain.or (tile.or ((Chk.xl false (xlLines (s.xlVault true false 64) (s.s b) 10)).or
      (Chk.xl true (s.drainLines h dst (n.val + 1)))))) quarters
  ∧ takes (.drf h dst t ty sat ofn j0 n k) (drain.or ((bad (s.noTile t || sat && !palAcf s.me.pal)).or
      (Chk.xl true (s.drainLines h dst ((n.val + 1) * ty.size))))) quarters
  ∧ takes (.swc h rule b planes width k) fixed 1 ∧ takes (.swb h k) fixed 1
  ∧ takes (.swh h a b c k) ((chkIf (!palOk s.me.pal) .illegal 4).or ((bad (s.gr.tiles.isEmpty || 64 < a.val + rowRegs s.me.pal
      || !mxScaled (palA s.me.pal) && c.val != 0)).or (Chk.xl false (s.planeLines b)))) quarters
  ∧ takes (.swm h form b k) (fixed.or (Chk.xl true (xlLines (s.xlLocal false true 64) (s.s b)
      (match form with | .map => 1 | .tab => 4 | .sig => 32)))) (match form with | .map => 1 | .tab => 4 | .sig => 32)
  ∧ takes (.swl h b k) (fixed.or (Chk.xl false (xlLines (s.xlLocal true false 64) (s.s b) 1))) 1
  ∧ takes (.swx h t j0 n k) tile (s.swxQuarters (s.active h)).length
  ∧ takes (.mmas h t a b ks c soff k) (s.denseChk t a b ks c soff false true) buckets
  ∧ takes (.mmag h t a b ks soff k) (s.denseChk t a b ks 0 soff true true) buckets

/-- R277, R303 to R305, R319, R320, R328: a pass that is no multiply acts on the rows of its quarter and on no other: `accz`
clears them and the flag, `accwr` writes its columns from the copied registers, `accrd` and `accst` read what their
instruction will land, `swc` configures the swatch state, and `swb` puts every active row into the bucket of a
representative with its key. -/
def Sys2Proof.Claims.PassesActOnTheirRows : Prop :=
  ∀ (s : State) (k : Fin 16) (c : Fin 8) (p : Pass) (x : Group) (ls : List Nat), TakesSlot s k c p x ls →
  let e : Instr := .pass k c
  let rows := quarterRows p.lanes p.part
  let old := s.tileOf p.group p.tile
  let tile (f : Nat → Nat → Word) (flag : Bool) : Prop := p.tile < x.tiles.length → Answers e s fun t => SlotTaken s t k c
    ∧ (t.tileOf p.group p.tile).flag = flag
    ∧ ∀ i < 32, ∀ j < 64, vget ((t.tileOf p.group p.tile).row i) j 0#32 = f i j
  let el (i j : Nat) : Word := vget (old.row i) j 0#32
  let writes (ws : List Wr) : Prop := ∀ o, s.opOfPass p = some o → Answers e s fun t =>
    SlotTaken s t k c ∧ ∃ q, t.opOfPass p = some q ∧ q.writes = o.writes ++ ws
  match p.instr with
  | .accz _ false _ _ => tile (fun i j => if i ∈ rows then 0#32 else el i j) false
  | .accz _ true _ _ => tile (fun i j => if i / 8 = p.part then 0#32 else el i j) false
  | .accwr _ _ _ j0 _ _ => tile (fun i j => if i ∈ rows ∧ j0.val ≤ j ∧ j < j0.val + p.a.length then
      lane (p.a.getD (j - j0.val) (Vector.replicate 32 0#32)) i else el i j) old.flag
  | .accrd _ d _ j0 n _ => writes (readCols old (p.wb + d.val) j0.val (n.val + 1) rows)
  | .accst _ d _ _ => writes [.s d.val (if old.flag then 1#64 else 0#64)] ∧ tile el false
  | .swc _ rule _ planes width _ => Answers e s fun t => SlotTaken s t k c
      ∧ t.swatchOf p.group = { Swatch.reset with pset := p.pal, p := planes.val + 1, w := width.val + 1, rule := rule }
  | .swb _ _ => Answers e s fun t => SlotTaken s t k c ∧ (t.swatchOf p.group).tv = true
      ∧ ∀ i < 32, ((t.swatchOf p.group).row i).val = p.lanes.has i
        ∧ (p.lanes.has i = true → let r := ((t.swatchOf p.group).row i).rpr
            p.lanes.has r = true ∧ x.swatch.key r = x.swatch.key i ∧ ((t.swatchOf p.group).row r).rep = true)
  | _ => True

/-- R93 to R97, R288, R290 to R292, R301, R302, R318, R323, R324, R334: a K-step. Each row that a pass of a multiply acts on
adds, in every column, the exact sum of the products of its A elements and the column's B elements, a zero factor giving zero:
scaled by both and rounded once into an FP32 element, unless that sum is zero, or added to an INT32 element that wraps or
saturates, which sets the tile's flag. `mma` and `mmab` act on the rows of their quarter, `mmab` on its compressed rows and
columns, once for each quarter, with its progress in MSTEP; `mmas` gives each row of a bucket the representative's row or the
rows' mean, and `mmag` gives the representative the rows' sum; `swh` adds its planes' sums to the signatures. Every other
element stays. -/
def Sys2Proof.Claims.MultiplyPassesAddTheirProducts : Prop :=
  ∀ (s : State) (k : Fin 16) (c : Fin 8) (p : Pass) (x : Group) (ls : List Nat), TakesSlot s k c p x ls → p.part < 4 →
  palOk p.pal = true → ksOf p.instr < kSteps (palB p.pal) →
  let e : Instr := .pass k c
  let pal := p.pal
  let old := s.tileOf p.group p.tile
  let el (i j : Nat) : Word := vget (old.row i) j 0#32
  let line (i : Nat) : Nat := ls.getD i 0
  let fields (x w off n : Nat) : Nat := x / 2 ^ (off + w * n) % 2 ^ w
  let stream (l : Nat) : Nat := (p.a.mapIdx fun j r => (lane r l).toNat * 2 ^ (32 * j)).sum
  let ones (m n : Nat) : Nat := ((List.range n).filter fun b => m.testBit b).length
  let spread (f : Nat) (uns : Bool) (m v n : Nat) : Ext :=
    if m.testBit n then mxElem f uns (fields v 8 0 (ones m n)) else Ext.ofInt 0
  let a (l n : Nat) : Ext := mxElem (palA pal) (palAso pal) (fields (stream l) (mxWidth (palA pal)) 0 n)
  let b (j n : Nat) : Ext := mxElem (palB pal) (palBso pal)
    (fields (line j) (mxWidth (palB pal)) (8 * (ksOf p.instr * kBytes (palB pal))) n)
  let map (j : Nat) : Nat := fields (line (64 + j / 8)) 64 0 (j % 8)
  let e8 (n : Nat) : Ext := if n = 255 then .nan else .fin false (2 ^ n) (2 ^ 127)
  let sa (l : Nat) : Ext := if mxScaled (palA pal) then e8 ((lane p.sc l).toNat % 256) else Ext.ofInt 1
  let sb (base j : Nat) : Ext := if mxScaled (palB pal) then e8 (fields (line base) 8 0 j)
    else if palB pal = 22 then fmtF16.value (fields (line (base + j / 32)) 16 0 (j % 32)) else Ext.ofInt 1
  let total (xs : List Ext) : Ext := xs.foldl (fun y z => y.add .rne z) (.fin false 0 1)
  let dot (n : Nat) (u v : Nat → Ext) : Ext := total ((List.range n).map fun i =>
    if (u i).isZero || (v i).isZero then .fin false 0 1 else (u i).mul (v i))
  let float (acc : Word) (sum p q : Ext) : Nat := if sum.isZero then acc.toNat
    else match (fmtF32.value acc.toNat).add .rne ((sum.mul p).mul q) with
      | .fin _ 0 _ => 0
      | y => fmtF32.round .rne true 0 y
  let whole : Ext → Int
    | .fin g n _ => if g then -(n : Int) else n
    | _ => 0
  let exact (acc : Word) (n : Nat) (u v : Nat → Ext) : Int := acc.toInt + ((List.range n).map fun i => whole (u i) * whole (v i)).sum
  let fit (z : Int) : Int := if palSat pal then satTo z (-2 ^ 31) (2 ^ 31 - 1) else z
  let steps (jobs : List (List Nat × (Nat → Ext) × Ext)) (n base : Nat) (col : Nat → Nat → Ext) (t : State) : Prop :=
    let new := t.tileOf p.group p.tile
    (∀ i < 32, (∀ y ∈ jobs, i ∉ y.1) → new.row i = old.row i)
    ∧ (∀ y ∈ jobs, ∀ i ∈ y.1, i < 32 → ∀ j < 64, vget (new.row i) j 0#32 =
        if palAcf pal then BitVec.ofInt 32 (fit (exact (el i j) n y.2.1 (col j)))
        else BitVec.ofNat 32 (float (el i j) (dot n y.2.1 (col j)) y.2.2 (sb base j)))
    ∧ (new.flag = true ↔ old.flag = true ∨ palAcf pal = true ∧ ∃ y ∈ jobs, ∃ i ∈ y.1, i < 32 ∧ ∃ j < 64,
        fit (exact (el i j) n y.2.1 (col j)) ≠ exact (el i j) n y.2.1 (col j))
  let inTile (post : State → Prop) : Prop := p.tile < x.tiles.length → Answers e s fun t => SlotTaken s t k c ∧ post t
  let rows := quarterRows p.lanes p.part
  let formed (grad : Bool) (rs : List Nat) (n : Nat) : Ext :=
    let den : Nat := if grad then 1 else rs.length
    match total (rs.map fun l => a l n) with
    | .nan => .nan
    | .inf g => .inf g
    | .fin g u v => match mxFmt (palA pal) with
      | some f => if u = 0 then Ext.ofInt 0 else f.value (f.round .rne false 0 (.fin g u (v * den)))
      | none => Ext.ofInt (satTo (signed g (choose .rne g 0 (between u (v * den)))) (mxLo (palA pal) (palAso pal))
          (mxHi (palA pal) (palAso pal)))
  let served := p.served (s.swatchOf p.group)
  match p.instr with
  | .mma _ _ _ _ _ _ _ _ => inTile (steps (rows.map fun l => ([l], a l, sa l)) (palE pal) 64 b)
  | .mmab _ _ _ _ _ _ _ =>
    let hits := (List.range 64).filter fun n => rows.any (fun l => (stream l).testBit n) && (List.range 64).any fun j => (map j).testBit n
    ((s.mstepOf p).getLsbD p.part = true → inTile fun t => t.tileOf p.group p.tile = old)
    ∧ ((s.mstepOf p).getLsbD p.part = false → inTile fun t =>
      steps (rows.map fun l => ([l], spread (palA pal) (palAso pal) (stream l % 2 ^ 64) (stream l / 2 ^ 64), sa l)) 64 72
        (fun j => spread (palB pal) (palBso pal) (map j) (line j)) t
      ∧ ∀ v o, s.split? p.split = some v → v.op? p.op = some o → o.clm = false → ∃ y, t.split? p.split = some y
        ∧ bitsOf y.mstep.toNat 15 8 = (bitsOf v.mstep.toNat 15 8 + (hits.length + 15) / 16) % 256
        ∧ ∀ j, j < 8 ∨ 16 ≤ j → y.mstep.getLsbD j = (v.mstep.getLsbD j || j == p.part))
  | .mmas _ _ _ _ _ _ _ _ => (served.1.map fun y => y.rows).flatten.Nodup → (∀ y ∈ served.1, ∀ i ∈ y.rows, i < 32) →
    inTile (steps (served.1.map fun y => match served.2 with
      | .first | .maxn => (y.rows, a y.rep, sa y.rep)
      | .mean => (y.rows, if y.rows.length = 1 then a y.rep else formed false y.rows, Ext.ofInt 1)) (palE pal) 64 b)
  | .mmag _ _ _ _ _ _ _ => (served.1.map fun y => y.rep).Nodup → (∀ y ∈ served.1, y.rep < 32) →
    inTile (steps (served.1.map fun y => ([y.rep], if y.rows.length = 1 then a y.rep else formed true y.rows, Ext.ofInt 1))
      (palE pal) 64 b)
  | .swh _ _ _ _ _ => Answers e s fun t => SlotTaken s t k c
      ∧ t.swatchOf p.group = { x.swatch with sig := (t.swatchOf p.group).sig }
      ∧ ∀ i < 32, ∀ q < 16, (t.swatchOf p.group).sigAt i q = if i ∈ rows ∧ q < x.swatch.p then
          BitVec.ofNat 32 (float (x.swatch.sigAt i q)
            (dot (palE pal) (a i) fun n => mxElem 21 false (fields (line (q / 2)) 2 (256 * (q % 2)) n)) (sa i) (Ext.ofInt 1))
        else x.swatch.sigAt i q
  | _ => True

/-- R293 to R296, R306, R308, R321, R325, R331, R332, R475: a pass of a drain requantises or converts the columns of its rows and gives the
bytes to registers, which land when the drain completes, or to the vault, where they are written at once; `swm` writes a line
of the map, the table or the signatures; `swl` takes a map as buckets; and `swx` copies each representative's columns to the
rows of its bucket, or shares them out. Every other byte and row stays. -/
def Sys2Proof.Claims.DrainAndSwatchPasses : Prop :=
  ∀ (s : State) (k : Fin 16) (c : Fin 8) (p : Pass) (x : Group) (ls : List Nat), TakesSlot s k c p x ls → s.mem.wf = true →
  let e : Instr := .pass k c
  let rows := quarterRows p.lanes p.part
  let old := s.tileOf p.group p.tile
  let el (i j : Nat) : Word := vget (old.row i) j 0#32
  let w := x.swatch
  let byte (off : Nat) : Nat := ls.getD (off / 64) 0 / 2 ^ (8 * (off % 64)) % 256
  let quad (off : Nat) : Int := sextOf (byte off + 2 ^ 8 * byte (off + 1) + 2 ^ 16 * byte (off + 2) + 2 ^ 24 * byte (off + 3)) 32
  let draw (m : Rnd) (l i : Nat) : Nat := drawOf m (lane p.seeds l) i
  let quant (m : Rnd) (uns : Bool) (j0 l i : Nat) : Nat :=
    let j := j0 + i
    let y := ((el l j).toInt + quad (4 * j) - (lane p.sc l).toInt * quad 0x240) * quad (0x100 + 4 * j)
    let r := signed (decide (y < 0)) (choose m (decide (y < 0)) (draw m l i) (between y.natAbs (2 ^ (31 + byte (0x200 + j) % 32))))
    modTwo (satTo (r + quad 0x244) (if uns then 0 else -128) (if uns then 255 else 127)) 8
  let float (m : Rnd) (ty : MTy) (sat ofn : Bool) (j0 l i : Nat) : Nat :=
    convert (ofMTy ty) (if palAcf p.pal then .i32 else .f32) m ofn sat (draw m l i) (el l (j0 + i)).toNat
  let outByte (sz : Nat) (f : Nat → Nat → Nat) (l y : Nat) : Nat := f l (y / sz) / 2 ^ (8 * (y % sz)) % 256
  let only (t : State) (touched : Nat → Prop) : Prop := ∀ a, ¬ touched a → t.mem.byte a = s.mem.byte a
  let left (t : State) : Prop := t.splits.length = s.splits.length ∧ t.tileOf p.group p.tile = old
    ∧ queued (t.core k.val c.val).queue + 1 = queued (s.core k.val c.val).queue
  let gives (dst : DrDst) (sz n : Nat) (f : Nat → Nat → Nat) : Prop := match dst with
    | .regs d => ∀ o, s.opOfPass p = some o → Answers e s fun t => SlotTaken s t k c ∧ left t
        ∧ ∃ (q : Op) (mask val : Nat → Lanes), t.opOfPass p = some q ∧ q.writes = o.writes ++ (List.range ((sz * n + 3) / 4)).map (fun j =>
            Wr.vbits (p.wb + d.val + j) (Mask.ofList rows) (mask j) (val j))
          ∧ ∀ l ∈ rows, ∀ j < (sz * n + 3) / 4, ∀ y < 4, 4 * j + y < sz * n →
            (lane (mask j) l).extractLsb' (8 * y) 8 = 255#8 ∧ ((lane (val j) l).extractLsb' (8 * y) 8).toNat = outByte sz f l (4 * j + y)
    | .vault _ _ =>
        let at' (l : Nat) : List (Nat × Nat) := ((p.outs.filter fun y => y.1 == l).map fun y => y.2).flatten
        ((rows.map fun l => (at' l).map fun y => y.1).flatten.Nodup) → (∀ l ∈ rows, sz * n ≤ 64 * (at' l).length) →
        (∀ l ∈ rows, ∀ y ∈ at' l, y.1 % 64 = 0 ∧ s.mem.poisoned y.1 = false) → Answers e s fun t => left t
          ∧ (∀ l ∈ rows, ∀ y < sz * n, (t.mem.byte (((at' l).getD (y / 64) (0, 0)).1 + y % 64)).toNat = outByte sz f l y)
          ∧ only t fun a => ∃ l ∈ rows, ∃ y < sz * n, a = ((at' l).getD (y / 64) (0, 0)).1 + y % 64
  let writes (image : Nat → State → Prop) : Prop := ∀ y, p.outLines = [y] → y.1 % 64 = 0 → s.mem.poisoned y.1 = false →
    Answers e s fun t => left t ∧ image y.1 t ∧ only t fun a => y.1 ≤ a ∧ a < y.1 + 64
  match p.instr with
  | .drq _ dst _ _ _ uns j0 n _ => j0.val + n.val < 64 → ∀ m, palDrain p.pal = some m → gives dst 1 (n.val + 1) (quant m uns j0.val)
  | .drf _ dst _ ty sat ofn j0 n _ => ∀ m, palDrain p.pal = some m → gives dst ty.size (n.val + 1) (float m ty sat ofn j0.val)
  | .swm _ .map _ _ => p.part = 0 → writes fun a t => ∀ i < 32,
      (t.mem.byte (a + i)).toNat = (if w.tv then (if (w.row i).rep then 128 else 0) + (if (w.row i).val then 32 else 0) + (w.row i).rpr
        else i) % 256
      ∧ (t.mem.byte (a + 32 + i)).toNat = (if w.tv && (w.row i).rep then (vget w.buckets (w.row i).bkt (0, 0)).2 % 256 else 0)
  | .swm _ .tab _ _ => p.part < 4 → writes fun a t => match p.part with
      | 0 => ∀ i < 32, t.mem.read (a + 2 * i) 2 = (w.row i).word % 2 ^ 16
      | 3 => t.mem.read a 1 = w.nb % 256 ∧ t.mem.read (a + 1) 1 = (if w.tv then 1 else 0) ∧ t.mem.read (a + 2) 1 = w.rule.code % 256
          ∧ t.mem.read (a + 3) 1 = w.p % 256 ∧ t.mem.read (a + 4) 1 = w.w % 256 ∧ t.mem.read (a + 8) 8 = w.pset.toNat
      | h => ∀ i < 16, let y := vget w.buckets (16 * (h - 1) + i) (0, 0)
          t.mem.read (a + 4 * i) 4 = (2 ^ 16 * y.1 + y.2) % 2 ^ 32
  | .swm _ .sig _ _ => p.part < 32 → writes fun a t => ∀ q < 16, t.mem.read (a + 4 * q) 4 = (w.sigAt p.part q).toNat
  | .swl _ _ _ => Answers e s fun t => SlotTaken s t k c ∧
      let v := t.swatchOf p.group
      let rep (i : Nat) : Prop := byte i / 32 % 2 = 1 ∧ byte i / 128 = 1 ∧ byte i % 32 = i
      v.tv = true ∧ v.sig = w.sig ∧ v.pset = w.pset ∧ v.rule = w.rule
      ∧ ∀ i < 32, ((v.row i).val = true ↔ byte i / 32 % 2 = 1 ∧ rep (byte i % 32))
        ∧ ((v.row i).val = true → (v.row i).rpr = byte i % 32 ∧ ((v.row i).rep = true ↔ byte i % 32 = i)
          ∧ ∀ j < 32, (v.row j).val = true → ((v.row j).bkt = (v.row i).bkt ↔ byte j % 32 = byte i % 32))
  | .swx _ _ j0 n _ =>
      let works (i : Nat) : Prop := i < 32 ∧ w.tv = true ∧ (w.row i).val = true ∧ p.lanes.has i = true
      let same (i j : Nat) : Prop := works j ∧ (w.row j).bkt = (w.row i).bkt
      let cnt (i : Nat) : Nat := (vget w.buckets (w.row i).bkt (0, 1)).2
      let share (i : Nat) (v : Word) : Word := if w.rule ≠ .mean then v
        else if palAcf p.pal then
          BitVec.ofInt 32 (signed (decide (v.toInt < 0)) (choose .rne (decide (v.toInt < 0)) 0 (between v.toInt.natAbs (cnt i))))
        else BitVec.ofNat 32 (fmtF32.round .rne true 0 ((fmtF32.value v.toNat).mul (.fin false 1 (cnt i))))
      p.tile < x.tiles.length → (∀ i < 32, (w.row i).val = true → (w.row i).bkt < w.nb
        ∧ ∀ j < 32, (w.row j).val = true → (w.row j).bkt = (w.row i).bkt → (w.row j).rpr = (w.row i).rpr) →
      Answers e s fun t => SlotTaken s t k c ∧ (p.part ≠ 0 → t.tileOf p.group p.tile = old)
        ∧ (p.part = 0 → ∀ i < 32, ∀ j < 64,
          let new := vget ((t.tileOf p.group p.tile).row i) j 0#32
          if works i ∧ j0.val ≤ j ∧ j ≤ j0.val + n.val then ∃ r, same i r
            ∧ (same i (w.row i).rpr → r = (w.row i).rpr) ∧ (¬ same i (w.row i).rpr → ∀ m, same i m → r ≤ m)
            ∧ new = share i (el r j)
          else new = el i j)
  | _ => True

/-- R288, R292, R470: an array instruction whose passes are done and due completes: its results land, its token falls, an `mmab` leaves
MSTEP at zero, and poison that its passes met waits as a deferred POISON. -/
def Sys2Proof.Claims.ArrayInstructionsComplete : Prop :=
  ∀ (s f : State) (split id : Nat) (o : Op) (k : Tok), s.focus split = some f → f.me.op? id = some o → o.kind = .array →
  o.tok = some k → captured o.instr = (o.instr matches .mmab ..) → vecDest o.instr = none → o.lanesAt 3 = 0#32 →
  f.Serves → f.me.status ≠ .legs id → o.again = false ∨ o.sent = true →
  (∀ g ∈ f.myCore.queue, ∀ p ∈ g.passes, p.op ≠ id) → o.due ≤ f.myCore.cycle →
  Answers (.operationCompletion split id) s fun t => t.me.ops = f.me.ops.filter (fun p => p.id != id)
    ∧ t.me.tok k = f.me.tok k - 1 ∧ t.mem = f.mem ∧ t.me.pc = f.me.pc ∧ t.gr = f.gr
    ∧ ((o.instr matches .mmab ..) = true → o.writes = [] → o.clm = false → t.me.mstep = 0#64)
    ∧ ((o.instr matches .mmab ..) = false → t.win.regs = (f.applyAll o.writes).win.regs
      ∧ t.me.sregs = (f.applyAll o.writes).me.sregs)
    ∧ (∀ x, o.late = some x → f.me.pend.late = none → t.me.pend.late = some x)

/-- R277, R288, R292, R294, R295, R301, R304, R320, R325, R332, R334, R470: the passes of the array instructions and their completion. -/
def Obligations.PassesActAndComplete : Prop := Claims.PassesActOnTheirRows ∧ Claims.MultiplyPassesAddTheirProducts ∧ Claims.DrainAndSwatchPasses ∧ Claims.ArrayInstructionsComplete

/-- R339, R340, R342, R348 to R351: `rgpost` and `rgtake` ask the range unit, an `rgtake` of a split that holds a range answers by
itself, `rgnext` takes the next index or says that none is left, and `rgdone` gives up what is left and what is due. -/
def Sys2Proof.Claims.RangeInstructions : Prop :=
  ∀ (s : State) (h : Hd) (d a b : SReg) (g : Word) (p : PReg) (k : Tok), s.Acts h → s.Room k →
  let empty : Prop := s.me.rhi.toNat ≤ s.me.rlo.toNat
  let goes (i : Instr) (t : State) (what : Op → Prop) : Prop := GoesTo s t (s.me.pc + BitVec.ofNat 64 i.bytes)
    ∧ t.me.toks = vset s.me.toks k.val (s.me.tok k + 1) ∧ t.mem = s.mem ∧ t.win.regs = s.win.regs
    ∧ t.me.sregs = s.me.sregs ∧ t.me.preds = s.me.preds
    ∧ ∃ o, t.me.ops = s.me.ops ++ [o] ∧ o.instr = i ∧ o.tok = some k ∧ o.id = s.nextId ∧ what o
  let asks (t : State) (kind : Nat) (lo hi : Dword) (grain due : Nat) : Prop := t.fabric = s.fabric
    ++ [⟨s.me.stack, s.gr.base, s.me.stack, .rangeReq kind s.me.id s.gr.id s.nextId lo hi grain due⟩]
  let range (t : State) (lo hi : Dword) (due : Nat) : Prop := t.me.rlo = lo ∧ t.me.rhi = hi ∧ t.me.rdue = due
  let kept (t : State) : Prop := range t s.me.rlo s.me.rhi s.me.rdue
  (s.Released → Answers (.rgpost h d a b k) s fun t => goes (.rgpost h d a b k) t (fun o => o.kind = .range) ∧ kept t
      ∧ asks t 0 (s.s a) (s.s b) 0 0)
  ∧ (empty → Answers (.rgtake h d g k) s fun t => goes (.rgtake h d g k) t (fun o => o.kind = .range) ∧ kept t
      ∧ asks t 1 0#64 0#64 g.toNat 0)
  ∧ (¬ empty → (∀ o ∈ s.me.ops, o.id ≠ s.nextId) → Answers (.rgtake h d g k) s fun t =>
      goes (.rgtake h d g k) t (fun o => o.kind = .plain ∧ o.writes = [.s d.val 1#64]) ∧ kept t ∧ t.fabric = s.fabric)
  ∧ Answers (.rgdone h k) s (fun t => goes (.rgdone h k) t (fun o => o.kind = .range) ∧ range t s.me.rhi s.me.rhi 0
      ∧ asks t 2 0#64 0#64 0 s.me.rdue)
  ∧ Answers (.rgnext h d p) s fun t => GoesTo s t (s.me.pc + BitVec.ofNat 64 (Instr.rgnext h d p).bytes)
      ∧ t.me.toks = s.me.toks ∧ t.me.ops = s.me.ops ∧ t.mem = s.mem ∧ t.win.regs = s.win.regs ∧ t.me.sregs = s.me.sregs
      ∧ t.me.preds = s.me.preds
      ∧ ∃ ws, t.me.results = s.me.results ++ ws.map (fun w => { due := s.myCore.cycle + 4, wr := w })
        ∧ (empty → kept t ∧ ws = [.p p.val s.me.act 0#32])
        ∧ (¬ empty → range t (s.me.rlo + 1#64) s.me.rhi s.me.rdue
          ∧ ws = [.s d.val s.me.rlo, .p p.val s.me.act (BitVec.allOnes 32)])

/-- R341 to R343, R348, R349, R351: the range unit of a team posts a range where its pool has room, takes the oldest one, steals the upper
half of the largest range of the team on its stack where the grain allows, or says whether any is still due; each request is
answered. A reply fills the range register and completes its instruction. -/
def Sys2Proof.Claims.RangeUnitAnswers : Prop :=
  ∀ (s f : State) (src dst kind w gid op : Nat) (lo hi : Dword) (grain due : Nat) (gr : Group) (tm : Team),
  s.head src dst = some (.rangeReq kind w gid op lo hi grain due, f) → f.group? gid = some gr →
  f.team? gr.grid gr.team = some tm → (∀ x ∈ f.allSplits, ∀ j, x.status ≠ .join j) →
  let answer (t : State) (r : Nat) (range : Option (Dword × Dword)) : Prop :=
    t.fabric = f.fabric ++ [⟨dst, src, dst, .rangeRep w op r range⟩] ∧ t.mem = f.mem
  let team (t : State) (pool : List (Dword × Dword)) (busy : Nat) : Prop :=
    ∃ u, t.team? gr.grid gr.team = some u ∧ u.pool = pool ∧ u.busy = busy
  let gives (post : State → Prop) : Prop := Answers (.rangeRequest src dst) s post
  (kind = 0 → hi.toNat ≤ lo.toNat → gives fun t => answer t 1 none ∧ team t tm.pool tm.busy)
  ∧ (kind = 0 → lo.toNat < hi.toNat → tm.pool.length < 48 →
      gives fun t => answer t 1 none ∧ team t (tm.pool ++ [(lo, hi)]) tm.busy)
  ∧ (kind = 0 → lo.toNat < hi.toNat → 48 ≤ tm.pool.length → gives fun t => answer t 0 none ∧ team t tm.pool tm.busy)
  ∧ (∀ r rs, kind = 1 → tm.pool = r :: rs → gives fun t => answer t 1 (some r) ∧ team t rs (min 65535 (tm.busy + 1)))
  ∧ (kind = 1 → tm.pool = [] → grain = 0 → gives fun t =>
      answer t (if 0 < tm.busy then 2 else 0) none ∧ team t [] tm.busy)
  ∧ (∀ v y, y.id ≠ 0 → kind = 1 → tm.pool = [] → 1 ≤ grain → f.split? w = some v → v.stack = dst → v.resident = true →
      f.pickVictim gid (gr.grid, gr.team) dst grain = some y → (y.core, y.slot % 4) ∉ (f.stk dst).todo →
      let m := y.rlo + BitVec.ofNat 64 ((y.rhi.toNat - y.rlo.toNat + 1) / 2)
      gives fun t => answer t 1 (some (m, y.rhi)) ∧ team t [] (min 65535 (tm.busy + 1))
        ∧ y.group ≠ gid ∧ 2 * grain ≤ y.rhi.toNat - y.rlo.toNat
        ∧ ∃ z, t.split? y.id = some z ∧ z.rhi = m)
  ∧ (kind = 2 → gives fun t => answer t 0 none ∧ team t tm.pool (tm.busy - due))

/-- R340, R349: a reply of the range unit gives S(D) its answer, and with a range also RLO, RHI and one more index due. -/
def Sys2Proof.Claims.RangeRepliesLand : Prop :=
  ∀ (s f u : State) (src dst w op r : Nat) (range : Option (Dword × Dword)) (o : Op) (d : SReg) (k : Tok),
  s.head src dst = some (.rangeRep w op r range, f) → f.focus w = some u → u.me.op? op = some o → o.tok = some k →
  u.me.status ≠ .legs op → 0 < d.val →
  (∃ h a b, o.instr = .rgpost h d a b k) ∨ (∃ h g, o.instr = .rgtake h d g k) →
  Answers (.rangeReply src dst) s fun t => vget t.me.sregs d.val 0#64 = BitVec.ofNat 64 r
    ∧ t.me.tok k = u.me.tok k - 1 ∧ t.me.ops = u.me.ops.filter (fun p => p.id != op) ∧ t.mem = f.mem
    ∧ match range with
      | none => t.me.rlo = u.me.rlo ∧ t.me.rhi = u.me.rhi ∧ t.me.rdue = u.me.rdue
      | some x => t.me.rlo = x.1 ∧ t.me.rhi = x.2 ∧ t.me.rdue = min 63 (u.me.rdue + 1)

/-- R339 to R343, R348 to R351: the range instructions, the range unit and its replies. -/
def Obligations.RangeDispatch : Prop := Claims.RangeInstructions ∧ Claims.RangeUnitAnswers ∧ Claims.RangeRepliesLand

/-! ### Barriers, division and migration -/

/-- R133, R134, R420: an arrival adds its lanes to ARRIVED and an exit decrement takes them from EXPECT, modulo 2^11; where ARRIVED is
then not 0 and reaches EXPECT, PHASE turns, ARRIVED is 0 and FLIPS rises; the split that arrived waits for the old phase to
end. -/
def Obligations.NamedBarriersFlip : Prop :=
  ∀ (s f : State) (src dst grid team grp n lanes w asid gid : Nat) (exit : Bool) (post : Option (Nat × List Nat)) (tm : Team),
  s.head src dst = some (.barrier grid team grp n lanes exit asid w gid post, f) → f.team? grid team = some tm → s.mem.wf = true →
  let pa := tm.vaultPa + 16 * n
  (s.stk dst).pstate = 0 → f.updateWaits pa none = false → f.mem.poisoned pa = false →
  let w0 := f.mem.read pa 8
  let w1 := f.mem.read (pa + 8) 8
  let arrived := if exit then bitsOf w0 42 32 else (bitsOf w0 42 32 + lanes) % 2 ^ 11
  let expect := if exit then (bitsOf w0 10 0 + 2 ^ 11 - lanes % 2 ^ 11) % 2 ^ 11 else bitsOf w0 10 0
  let flips : Prop := expect ≤ arrived ∧ 0 < arrived
  Answers (.barrierArrival src dst) s fun t =>
    let v0 := t.mem.read pa 8
    let v1 := t.mem.read (pa + 8) 8
    bitsOf v0 10 0 = expect ∧ bitsOf v0 31 11 = bitsOf w0 31 11 ∧ bitsOf v0 62 43 = bitsOf w0 62 43
    ∧ (flips → bitsOf v0 63 63 = 1 - bitsOf w0 63 63 ∧ bitsOf v0 42 32 = 0 ∧ bitsOf v1 31 0 = (bitsOf w1 31 0 + 1) % 2 ^ 32)
    ∧ (¬ flips → bitsOf v0 63 63 = bitsOf w0 63 63 ∧ bitsOf v0 42 32 = arrived ∧ v1 = w1)
    ∧ (∀ a, a < pa ∨ pa + 16 ≤ a → t.mem.byte a = f.mem.byte a)
    ∧ (∀ no kin, post = some (no, kin) → ⟨dst, src, dst, .postAck gid no false⟩ ∈ t.fabric)
    ∧ (∀ x, post = none → ¬ flips → w ≠ 0 → f.split? w = some x →
        ∃ y, t.split? w = some y ∧ y.status = .barrier n (w0.testBit 63))

/-- R21, R22: the split table answers a request with its lowest free number, which is then in use, or with none; a report updates the
entry of a number in use, and a freed number is free. -/
def Sys2Proof.Claims.SplitTableServes : Prop :=
  ∀ (s f : State) (src dst w gid n stack core st join : Nat) (mask : Option Mask) (g : Group), gid ≠ 0 →
  f.group? gid = some g → n < 4 →
  let used (x : Group) (m : Nat) : Bool := (vget x.table m TabEntry.free).valid
  let table (t : State) (p : Group → Prop) : Prop := ∃ x, t.group? gid = some x ∧ p x
  (s.head src dst = some (.numReq w gid core, f) → Answers (.splitTableRequest src dst) s fun t => t.mem = f.mem
    ∧ ((∃ m < 4, used g m = false ∧ (∀ j < m, used g j = true)
        ∧ t.fabric = f.fabric ++ [⟨dst, src, dst, .numAns w (some m)⟩]
        ∧ table t fun x => used x m = true ∧ ∀ j < 4, j ≠ m → vget x.table j TabEntry.free = vget g.table j TabEntry.free)
      ∨ (∀ j < 4, used g j = true) ∧ t.fabric = f.fabric ++ [⟨dst, src, dst, .numAns w none⟩] ∧ table t fun x => x.table = g.table))
  ∧ (s.head src dst = some (.report gid n mask stack core st join, f) → Answers (.splitTableReport src dst) s fun t =>
      t.mem = f.mem ∧ t.fabric = f.fabric ∧ table t fun x =>
        (used g n = true → vget x.table n TabEntry.free =
          { mask := mask.getD (vget g.table n TabEntry.free).mask, loc := stack, core := core, join := join, valid := true,
            state := st })
        ∧ (used g n = false → used x n = false)
        ∧ ∀ j < 4, j ≠ n → vget x.table j TabEntry.free = vget g.table j TabEntry.free)
  ∧ (s.head src dst = some (.numFree gid n, f) → (∀ x ∈ f.allSplits, x.group ≠ gid) →
      Answers (.splitTableReport src dst) s fun t => t.mem = f.mem ∧ table t fun x => used x n = false)

/-- R29, R46, R47: the answer to a divergent `brp` divides the split where a number and a slot are free: the child takes the branching lanes
to the target, the parent goes on after the `brp` with the others, and both own a reconvergence entry with the lanes and PAL
of the division. Without a number the branching lanes are masked in an entry of their own. -/
def Sys2Proof.Claims.DivisionSharesTheLanes : Prop :=
  ∀ (s f : State) (id : Nat) (x : Mask) (target recon : Dword) (ws : List WaitStep) (n : Option Nat) (g : State),
  s.focus id = some f → f.me.status = .wait (.number :: ws) (.brp x target recon) → f.me.results = [] →
  f.takePacket (fun p => match p with | .numAns i _ => i == f.me.id | _ => false) f.gr.base f.me.stack
    = some (.numAns f.me.id n, g) →
  f.me.inHandler = false → f.me.pend = Pend.none → (∀ o ∈ f.me.ops, o.faulted = false) → f.win.entries.length < 32 →
  let next := f.me.pc + 20#64
  let masked (t : State) : Prop := t.me.act = f.me.act &&& ~~~x ∧ t.splits = f.splits
    ∧ t.win.entries = f.win.entries ++ [maskedEntry (ownBit f.me.num) false recon (sextOf (target - recon).toNat 64) x]
  (n = none → recon.toNat < 2 ^ 54 → recon.toNat % 4 = 0 → next ≠ recon → Answers (.division id) s fun t =>
    masked t ∧ t.me.pc = next ∧ t.me.status = .run ∧ t.mem = f.mem)
  ∧ (∀ c a b, n = some c → pickSlots (f.takenSlots f.me.stack f.me.core) f.gr.shadow = some (a, b) →
      Answers (.division id) s fun t => t.mem = f.mem ∧ t.me.act = f.me.act &&& ~~~x ∧ t.me.pc = next ∧ t.me.status = .run
        ∧ t.win.entries.getLast? = some (reconvEntry (ownBit f.me.num ||| ownBit c) f.me.num c f.me.act f.me.pal)
        ∧ ∃ y, t.splits = f.splits ++ [y] ∧ y.num = c ∧ y.act = x ∧ y.pc = target ∧ y.group = f.me.group ∧ y.slot = a
          ∧ y.sregs = f.me.sregs ∧ y.preds = f.me.preds ∧ y.pal = f.me.pal ∧ y.toks = Vector.replicate 8 0
          ∧ y.postloc = f.me.postloc ∧ y.status = .run ∧ y.rlo = 0#64 ∧ y.rhi = 0#64)

/-- R21, R22, R29, R46, R47: the split table and the division of a split. -/
def Obligations.SplitsDivide : Prop := Claims.SplitTableServes ∧ Claims.DivisionSharesTheLanes

/-- R29, R33, R34, R37, R38, R207, R216, R447: a leg departs for the home of its lowest lane not yet served, or for the group's
base where it is a barrier's, once every result has landed and no other operation of the split is outstanding. It takes the
unserved lanes homed there, and one context carries the registers that the LIVE masks of the carried frames name, with those
that the instruction names, and the split's entries. The split is then on its way: its reservations there are gone, a slot in
which no split resides is free, and so is an entry that no resident split owns. -/
def Obligations.LegsDepartWithTheirContext : Prop :=
  ∀ (s f : State) (id op n : Nat) (b : Mask) (o : Op) (a : Acc) (x : Nat → Xl) (lead : Nat), s.focus id = some f → id ≠ 0 →
  f.me.results = [] → f.me.mustTrap = false → f.me.stack < 16 → (∀ q ∈ f.slots, f.me.home q = false) →
  let va (l : Nat) : Dword := if o.again then vget o.addr l 0#64 else (f.withWindow o.wb).addrAt a.m a.sz l
  let frames (live : Dword) : List (Nat × Nat × Dword) := framesOf f.me.wbase f.me.frame live f.own.reverse
  let leaves (t : State) (dst : Nat) (why : LegFor) (pa : Option Nat) (live : Dword) (named : List (Nat × Nat)) : Prop := t.mem = f.mem
    ∧ (∃ w ∈ t.splits, w.id = id ∧ w.status = .transit ∧ w.sregs = f.me.sregs ∧ w.preds = f.me.preds ∧ w.act = f.me.act
      ∧ w.pc = f.me.pc ∧ w.toks = f.me.toks
      ∧ (why = .access op → ∃ e ∈ w.ops, e.id = op ∧ e.leg = true ∧ ∀ l < 32, e.legLanes.has l =
          ((o.lanesAt 2).has l && homeOf (x l).pa == homeOf (x lead).pa)))
    ∧ (∃ regs, ⟨f.me.stack, dst, f.me.stack, .context id regs f.own pa why⟩ ∈ t.fabric
      ∧ ∀ r v, (r, v) ∈ regs ↔ v = vget f.win.regs r (Vector.replicate 32 0#32)
        ∧ ((∃ y ∈ frames live, ∃ k < min y.2.1 64, y.2.2.getLsbD k = true ∧ r = y.1 + k)
          ∨ ∃ y ∈ named, ∃ k < y.2, r = o.wb + y.1 + k))
    ∧ (∀ r ∈ (t.stk f.me.stack).resv, r.split ≠ id)
    ∧ (∀ q ∈ t.slots, (∃ w ∈ t.splits, w.resident = true ∧ w.home q = true)
      ∧ (f.me.home q = true → q.entries = f.win.entries.filter fun e => e.owner &&& (f.residents &&& ~~~ ownBit f.me.num) != 0#4))
  (f.me.status = .leaving (.barw n b) → f.me.ops = [] → f.gr.base < 16 → f.gr.base ≠ f.me.stack →
    Answers (.legDeparture id) s fun t => leaves t f.gr.base (.barw n b) none (onesBelow f.me.frame) [])
  ∧ (f.me.status = .leaving (.access op) → f.me.op? op = some o → (∀ e ∈ f.me.ops, e.id = op) → Acc.of o.instr = some a →
      a.mig = true → o.sent = true → (o.lanesAt 2).lowest = some lead →
      (∀ l < 32, (o.lanesAt 2).has l = true → f.xlMigrating a.rd a.wr a.sz (va l) = .ok (x l) ∧ vget o.pa l 0 = (x l).pa
        ∧ f.homedOn f.me.stack (x l).pa = false) →
      Answers (.legDeparture id) s fun t => leaves t (f.nameOf (homeOf (x lead).pa)) (.access op) (some (x lead).pa)
        (liveOf o.instr) (ownRegs o.instr))

/-! ### Launch, pre-emption and what reaches a split -/

/-- R57, R61, R62, R481: a packet of a ring that the launcher serves becomes current: it gets the next identifier, its slot is taken, and
its grid is as the packet's fields say; one that a check refuses is reported as a type 10 record with the reason, and no
grid starts. -/
def Sys2Proof.Claims.LaunchPacketsStartGrids : Prop :=
  ∀ (s : State) (l : Fin 4) (k x : Nat), s.current l.val = none → s.md.fatal = false → (s.ring l.val).rewritten = false →
  (s.ring l.val).served = true → s.tripWaits 0 (homeStack (s.ring l.val).hdr) = false → s.ringWaits (s.ring l.val).hdr (s.ring l.val).logn = false →
  s.agentWaits ((s.ring l.val).hdr + 8) 8 = false →
  s.ringSlot (s.ring l.val).hdr (s.ring l.val).logn = .packet k x →
  let w := wordsOf x
  let ctrl := (vget w 0 0#64).toNat
  let f := s.takeSlot (s.ring l.val).hdr k
  s.checksWait w = false → vget w 5 0#64 = 0#64 →
  (f.refusal w none = 0 → Answers (.launchPacket l) s fun t => ∃ g, t.grids = f.grids ++ [g] ∧ g.id = f.nextGrid
    ∧ (t.ring l.val).current = some g.id ∧ t.mem = f.mem
    ∧ g.asid = bitsOf ctrl 57 48 ∧ g.lanes = bitsOf ctrl 45 40 + 1 ∧ g.acc = bitsOf ctrl 36 32
    ∧ g.frame = bitsOf ctrl 29 24 + 1 ∧ g.groups = bitsOf ctrl 20 16 + 1 ∧ g.prio = bitsOf ctrl 5 4
    ∧ g.chktok = ctrl.testBit 2 ∧ g.red = ctrl.testBit 1 ∧ g.kaddr = vget w 1 0#64 ∧ g.args = vget w 4 0#64
    ∧ g.crec = vget w 7 0#64 ∧ g.gx = bitsOf (vget w 2 0#64).toNat 23 0 ∧ g.gy = bitsOf (vget w 2 0#64).toNat 43 24
    ∧ g.gz = bitsOf (vget w 2 0#64).toNat 63 44 ∧ g.first = 0 ∧ g.next = 0 ∧ g.last = g.gx * g.gy * g.gz
    ∧ (bitsOf ctrl 8 6 = 0 → g.deps = [] ∧ g.st = .placing))
  ∧ (f.refusal w none ≠ 0 → Answers (.launchPacket l) s fun t => t.grids = f.grids ∧ (t.ring l.val).current = (f.ring l.val).current
    ∧ ∃ r ∈ t.md.errq, r.typ = 10 ∧ r.grid = f.nextGrid ∧ r.asid = bitsOf ctrl 57 48
      ∧ r.payload.take 2 = [BitVec.ofNat 8 l.val, BitVec.ofNat 8 (f.refusal w none)])

/-- R59: a dependence whose object shows the awaited phase is met, and a packet with none left may place its teams. -/
def Sys2Proof.Claims.DependencesAreMet : Prop :=
  ∀ (s : State) (l i : Fin 4) (g : Grid) (va : Dword) (phase : Bool) (x : Xl), s.current l.val = some g →
  g.deps[i.val]? = some (va, phase, false) → s.xlLaunch g.asid true false 16 va = .ok x → s.hostWaits x.pa false = false →
  s.NearRead 0 x.pa → homeModule x.pa = s.modno → s.mem.poisoned x.pa = false → (s.mem.read x.pa 8).testBit 63 = phase →
  Answers (.dependenceMet l i) s fun t => t.mem = s.mem ∧ ∃ y ∈ t.grids, y.id = g.id ∧ y.kaddr = g.kaddr
    ∧ y.deps[i.val]? = some (va, phase, true)
    ∧ (∀ j, j ≠ i.val → y.deps[j]? = g.deps[j]?)
    ∧ ((∀ d ∈ y.deps, d.2.2 = true) → y.st = .placing)

/-- R57, R59, R61, R62, R481: the launcher takes packets and serves their dependences. -/
def Obligations.LaunchesStart : Prop := Claims.LaunchPacketsStartGrids ∧ Claims.DependencesAreMet

/-- R60, R139, R233, R366, R368, R483: a team whose groups have ended and whose posts are acknowledged ends; the share of a grid whose
teams have ended is over: rank 0 writes the completion record once every rank has reported, with ERR where the grid was
aborted, and the grid is gone; a report of another rank is counted once. -/
def Sys2Proof.Claims.TeamsAndGridsEnd : Prop :=
  ∀ (s : State) (grid team rank : Nat) (ab : Bool) (energy : Nat) (tm : Team) (g : Grid), s.mem.wf = true →
  (s.unfocus.team? grid team = some tm → tm.st ≠ .ended → (∀ x ∈ s.unfocus.groupsOf grid team, x.ended = true) →
    (∀ q ∈ s.stks.toList, ∀ e ∈ q.tracker, ∀ x ∈ s.unfocus.groupsOf grid team, e.1 ≠ x.id) →
    Answers (.teamEnd grid team) s fun t => t.mem = s.mem ∧ (∃ u, t.team? grid team = some u ∧ u.st = .ended ∧ u.pool = [])
      ∧ t.groupsOf grid team = [])
  ∧ (s.grid? grid = some g → s.shareOver g = true → s.abortUnsaid g = false → s.md.fatal = false → g.rank = 0 →
    g.ranks ≤ g.reported.length + 1 → ∀ x : Xl, s.Near 0 x.pa → s.heldOff x.pa 32 none = false → s.hostWaits x.pa true = false → g.crec ≠ 0#64 →
    s.xlLaunch g.asid false true 32 g.crec = .ok x → homeModule x.pa = s.modno → s.mem.poisoned x.pa = false →
    Answers (.completionRecord grid) s fun t => t.grid? grid = none
      ∧ t.mem.read x.pa 8 = (if g.aborted || g.rankAborted then 3 else 1)
      ∧ (g.first = g.next → t.mem.read (x.pa + 8) 8 = g.energy % 2 ^ 64) ∧ t.mem.read (x.pa + 16) 4 = grid % 2 ^ 32
      ∧ ∀ a, a < x.pa ∨ x.pa + 32 ≤ a → t.mem.byte a = s.mem.byte a)
  ∧ (s.grid? grid = some g → (s.grids.map fun x => x.id).Nodup → g.rank = 0 → 0 < rank → rank < g.ranks →
    Answers (.completionReport grid rank ab energy) s fun t => t.mem = s.mem ∧ ∃ y, t.grid? grid = some y
      ∧ (g.reported.contains rank = false → y.reported = rank :: g.reported ∧ y.rankAborted = (g.rankAborted || ab)
        ∧ y.energy = (g.energy + energy) % 2 ^ 64)
      ∧ (g.reported.contains rank = true → y = g))

/-- R434, R484: the host's abort of a grid ends it: the grid is marked, each of its splits stops, a type 1 record with REASON 3 leaves, and no
byte of memory or register changes. -/
def Sys2Proof.Claims.AbortsStopTheGrid : Prop :=
  ∀ (s : State) (grid : Nat) (g : Grid), s.md.ready = true → s.md.cxlUp = true → s.grid? grid = some g → g.aborted = false →
  Answers (.abortctl grid) s fun t => t.mem = s.mem ∧ t.win = s.win ∧ t.me.sregs = s.me.sregs
    ∧ (∃ y, t.grid? grid = some y ∧ y.aborted = true)
    ∧ (s.gr.grid = grid → t.me.pend.kill = true)
    ∧ (∀ w ∈ s.splits, (∃ x, s.group? w.group = some x ∧ x.grid = grid) → ∃ y ∈ t.splits, y.id = w.id ∧ y.pend.kill = true)
    ∧ ∃ r, t.md.errq = s.md.errq ++ [r] ∧ r.typ = 1 ∧ r.grid = grid ∧ r.payload.headD 0#8 = 3#8

/-- R60, R139, R233, R366, R368, R434, R483, R484: how teams and grids end, and how the host ends a grid. -/
def Obligations.GridsEnd : Prop := Claims.TeamsAndGridsEnd ∧ Claims.AbortsStopTheGrid

/-- R62 to R65, R133: the next team of the highest level that has one to place takes its places, a vault range and a save segment: every
group starts as split 0 at KADDR with the packet's lanes, `s29` at the vault range and `s30` the arguments, and each named
barrier expects every lane of the team. -/
def Sys2Proof.Claims.TeamsArePlaced : Prop :=
  ∀ (s : State) (l : Nat) (g : Grid) (k off seg spbase count dbg : Nat) (seats : List Seat), s.md.fatal = false → l < 4 → s.mem.wf = true →
  let u := s.unfocus
  (∀ j < 4, u.resumesAt j = false) → (∀ j < 4, l < j → u.current j = none) → u.current l = some g → g.st = .placing →
  u.placeFor g = some (k, seats, off) → (u.stk k).pstate = 0 → u.arrivalFirst k = false →
  g.groups * g.lanes < 2 ^ 64 →
  let vault := u.tileBase k ((seats.head?.map fun x => x.core).getD 0) + off
  (∀ i < 4, u.agentWaits (vault + 64 * i) 64 = false) → u.sysPage k g.asid = some (spbase, count, dbg) →
  u.freeSegment k g.asid count = some seg →
  Answers .placingTeams s fun t =>
    (∃ tm, t.teams = u.teams ++ [tm] ∧ tm.grid = g.id ∧ tm.team = g.next ∧ tm.base = k ∧ tm.vaultPa = vault
      ∧ tm.segNo = seg ∧ tm.seg = BitVec.ofNat 64 (spbase + 2 ^ 24 * seg) ∧ tm.pool = [] ∧ tm.busy = 0 ∧ tm.st = .placed)
    ∧ (∃ old new, t.splits = old ++ new ∧ old.map (fun w => w.id) = u.splits.map (fun w => w.id) ∧ new.length = seats.length
      ∧ ∀ w ∈ new, w.num = 0 ∧ w.pc = g.kaddr ∧ w.stack = k ∧ w.asid = g.asid ∧ (∀ j < 32, w.act.has j = decide (j < g.lanes))
        ∧ (∀ j < 32, vget w.sregs j 0#64 = if j = 29 then BitVec.ofNat 64 vault else if j = 30 then g.args else 0#64)
        ∧ w.toks = Vector.replicate 8 0 ∧ w.wbase = 0 ∧ w.frame = g.frame ∧ w.status = .run)
    ∧ (∀ n < 16, t.mem.read (vault + 16 * n) 8 = g.groups * g.lanes ∧ t.mem.read (vault + 16 * n + 8) 8 = 0)
    ∧ (∀ a, a < vault ∨ vault + 256 ≤ a → t.mem.byte a = s.mem.byte a)
    ∧ ∃ y ∈ t.grids, y.id = g.id ∧ y.next = g.next + 1

/-- R40, R41, R445: a context that waits for admission enters a core with room: the split stands there with its registers in the lanes
that it carries, and goes on with the accesses of its leg. -/
def Sys2Proof.Claims.ContextsAreAdmitted : Prop :=
  ∀ (s : State) (k : Fin 16) (id c op : Nat) (regs : List (Nat × Lanes)) (es : List Entry) (pa : Option Nat) (w : Split) (g : Group),
  let u := s.unfocus
  u.contextSources k.val = [] → (u.stk k.val).arrivals = [.context id regs es pa (.access op)] → id ≠ 0 → w.group ≠ 0 →
  u.split? id = some w → u.group? w.group = some g → u.admitCore k.val g pa (.access op) = some c →
  w.pend = Pend.none → (∀ o ∈ w.ops, o.faulted = false) → w.inHandler = false → (u.stk k.val).budgets = [] →
  (regs.map fun r => r.1).Nodup → (u.slots.map fun q => (q.stack, q.core, q.gslot)).Nodup →
  Answers (.contextAdmission k) s fun t => t.mem = s.mem ∧ (t.stk k.val).arrivals = []
    ∧ ∃ y, t.split? id = some y ∧ y.stack = k.val ∧ y.core = c ∧ y.status = .legs op ∧ y.act = w.act ∧ y.pc = w.pc
      ∧ y.sregs = w.sregs ∧ y.preds = w.preds ∧ y.toks = w.toks
      ∧ ∃ q ∈ t.slots, y.home q = true ∧ q.group = g.id ∧ ∀ r v, (r, v) ∈ regs → r < 128 → ∀ j < 32,
          (carriedLanes w.act es).has j = true → lane (vget q.regs r (Vector.replicate 32 0#32)) j = lane v j

/-- R40, R41, R62 to R65, R133, R445: the placement of a team and the admission of a context. -/
def Obligations.PlacementAndAdmission : Prop := Claims.TeamsArePlaced ∧ Claims.ContextsAreAdmitted

/-- R73 to R75, R378, R436, R437: a pre-emption request, of at most 64 at a time, raises PREQ for the grid and starts its budget
on every stack (log entry 50); a withdrawal takes both back; and a budget that runs out marks the grid as spent there, a handler
budget that runs out ends a grid of which a split that the expiry there has marked is still in a handler (log entry 62). -/
def Sys2Proof.Claims.PreemptionRunsOnBudgets : Prop :=
  ∀ (s : State) (grid : Nat) (k : Fin 16) (g : Grid), s.md.ready = true → s.md.cxlUp = true → s.unfocus.grid? grid = some g →
  let u := s.unfocus
  let mine (t : State) (w : Split) : Prop := ∃ x, t.group? w.group = some x ∧ x.grid = grid
  let waits (w : Split) : Prop := ∃ a q n, w.status = .bwt a q n true
  (grid ∉ s.md.requested → s.md.requested.length < 64 → (∀ w ∈ u.splits, ¬ waits w) → (∀ w ∈ u.splits, w.id ≠ 0) →
    Answers (.preemptionRequest grid) s fun t => t.md.requested = s.md.requested ++ [grid] ∧ t.mem = s.mem
      ∧ t.md.preqctl = BitVec.ofNat 64 (2 ^ 32 + grid % 2 ^ 32)
      ∧ (∀ q < 16, (t.stk q).budgets = (s.stk q).budgets ++ [(grid, s.md.pbudget.toNat, false)])
      ∧ (∀ y ∈ t.grids, y.id = grid → y.preq = true)
      ∧ ((u.splits.map fun w => w.id).Nodup → ∀ w ∈ u.splits, mine u w → w.status ≠ .transit →
          ∃ y ∈ t.allSplits, y.id = w.id ∧ y.preq = true))
  ∧ Answers (.preemptionWithdraw grid) s (fun t => grid ∉ t.md.requested ∧ t.mem = s.mem
      ∧ t.md.preqctl = BitVec.ofNat 64 (grid % 2 ^ 32) ∧ (∀ y ∈ t.grids, y.id = grid → y.preq = false)
      ∧ (∀ q < 16, ∀ b ∈ (t.stk q).budgets, b.1 ≠ grid) ∧ ∀ w ∈ t.allSplits, mine s w → w.preq = false)
  ∧ ((grid, 0, false) ∈ (s.stk k.val).budgets → Answers (.budgetExpiry k grid) s fun t =>
      (grid, 0, true) ∈ (t.stk k.val).budgets ∧ (grid, 0, false) ∉ (t.stk k.val).budgets)
  ∧ ((grid, 0) ∈ (s.stk k.val).hbudgets → g.aborted = false → Answers (.handlerBudgetExpiry k grid) s fun t =>
      (grid, 0) ∉ (t.stk k.val).hbudgets ∧ t.mem = s.mem
      ∧ ∀ w ∈ s.allSplits, mine s w → k.val ∈ w.pend.handler → w.inHandler = true → w.pend.kill = false →
        ∃ y, t.grid? grid = some y ∧ y.aborted = true)

/-- R76, R438: a pre-empted team whose request is withdrawn resumes once its stack has places for its groups, each with the core of its
tiles; while a recorded core no longer has them in service, the team stays, with one RESTORECAP record. -/
def Sys2Proof.Claims.TeamsResume : Prop :=
  ∀ (s : State) (grid team : Nat) (tm : Team) (g : Grid),
  let u := s.unfocus
  u.team? grid team = some tm → tm.st = .preempted → u.grid? grid = some g → g.preq = false → g.aborted = false →
  s.md.fatal = false →
  let gs := (List.range 32).filterMap fun n => (u.groupsOf grid team).find? fun x => x.grp == n && !x.ended
  let need := gs.map fun x =>
    ((u.storedOf x.id).length, x.tiles.length, if x.tiles.isEmpty then none else some x.tileCore)
  (u.misfits tm ≠ 0 → tm.restoreCap = false → Answers (.teamResumption grid team) s fun t => t.mem = s.mem
    ∧ t.splits = u.splits ∧ (∃ x, t.team? grid team = some x ∧ x.st = .preempted ∧ x.restoreCap = true)
    ∧ ∃ r, t.md.errq = s.md.errq ++ [r] ∧ r.typ = 3 ∧ r.grid = grid ∧ r.team = team ∧ r.cls = 17)
  ∧ (∀ seats, u.misfits tm = 0 → u.placeFrom ([3, 2, 1, 0].filter fun n => g.level < n) = none →
      u.arrivalFirst tm.base = false → (u.stk tm.base).pstate = 0 →
      u.seatAll tm.base g.red need [] = some seats → Answers (.teamResumption grid team) s fun t =>
        t = (gs.zip seats).foldl (fun a y => a.resumeGroup tm.base y.1 y.2)
          (u.onTeam grid team fun x => { x with st := .placed, restoreCap := false }))

/-- R73 to R76, R378, R436 to R438: pre-emption, its budgets, and resumption. -/
def Obligations.PreemptionAndResumption : Prop := Claims.PreemptionRunsOnBudgets ∧ Claims.TeamsResume

/-- R383, R394, R403 to R406, R429, R435: what reaches a split from outside: a halt arrives, wakes a parked split, and is taken
as BREAK with DETAIL 1 where the split stands between runs; a deferred fault is taken with the class, DETAIL and lane of the
oldest faulted entry; a redundant pair that differs at a run end takes REDUND with DETAIL 0 (R451); a forced pre-emption comes after these, and a slice that expired, BREAK with DETAIL 2, last. -/
def Obligations.EventsReachASplit : Prop :=
  ∀ (s f : State) (id : Nat), s.focus id = some f → f.me.inHandler = false → f.me.pend.kill = false →
  f.me.pend.stop = false →
  let w := f.me
  (∀ g u, s.haltFrom id = some g → g.focus id = some u → u.me = f.me →
    Answers (.halt id) s fun t => t.me.pend.halt = true ∧ t.mem = f.mem ∧ t.fabric = g.fabric ∧ t.me.pc = w.pc ∧ t.me.act = w.act
      ∧ t.me.status = (match w.status with | .parked _ => .run | x => x))
  ∧ (s.haltFrom id = none → w.reach = .all → w.pend.halt = true →
    exec (.halt id) s = .next ({ f with me := { w with pend := { w.pend with halt := false } } }.raise
      ⟨.brk, 1, 0, w.framePc, w.toks⟩))
  ∧ (∀ o, w.pend.halt = false → w.faultable = true → w.ops.find? Op.faulted = some o → exec (.trapEntry id) s = .next (f.raise
      ⟨tclassOf ((vget o.stat (((o.lanesAt 3).lowest).getD 0) 0#8).toNat % 32), if mayWrite o.instr then 1 else 0,
        ((o.lanesAt 3).lowest).getD 0, w.framePc, w.toks⟩))
  ∧ (w.pend.halt = false → w.faultable = true → w.ops.find? Op.faulted = none → w.pend.late = none →
    exec (.trapEntry id) s = .next (f.raise ⟨.redund, 0, 0, w.framePc, w.toks⟩))
  ∧ (w.pend.halt = false → w.faulting = false → w.pend.preempt = true → w.reach = .all →
    exec (.trapEntry id) s = .next (if f.endRun.saveReady then f.endRun.saveNow true w.framePc
      else f.endRun.waitFor [.quiet] (.forced w.framePc)))
  ∧ (w.pend.halt = false → w.faultable = false → w.pend.preempt = false → w.pend.slice = true → w.reach = .all →
    exec (.sliceExpiry id) s = .next ({ f with me := { w with pend := { w.pend with slice := false } } }.raise
      ⟨.brk, 2, 0, w.framePc, w.toks⟩))

/-! ### Power, registers, resets and the host -/

/-- R372 to R374, R490: the ramp level rises after an interval in which the array queue held work and falls after another,
within 0 to 8; HSTEP falls while the flux estimate is above 300, each 512 cycles and to no less than 1, and rises each 4,096
cycles for which it has been below 270, to no more than 8, unless the highest row in force holds it at 1; FSTEP is set from 1
to 8, to no more than 4 where that row is row 3, and no higher than it is where it is row 0 (log entry 56). No other field of the core and nothing outside it changes. -/
def Sys2Proof.Claims.ThrottleLevels : Prop := ∀ (s : State) (k : Fin 16) (c : Fin 8) (step : Fin 9) (flux at' : Nat),
  let q := s.core k.val c.val
  let top (r : Nat) : Prop := r ∈ (s.stk k.val).limits ∧ ∀ m ∈ (s.stk k.val).limits, m ≤ r
  let held : Prop := top 1 ∨ top 2 ∧ q.hstep = 1
  let becomes (i : Instr) (x : Core) : Prop := Answers i s fun t => OnlyCore s t k.val c.val ∧ t.core k.val c.val = x
  (q.cycle % (8 * (s.md.ramp.toNat % 2 ^ 16)) = 0 → q.cycle ≠ q.rampAt → becomes (.rampInterval k c)
    { q with ramp := (if q.busy then min 8 (q.ramp + 1) else q.ramp - 1), busy := !q.queue.isEmpty, rampAt := q.cycle })
  ∧ (flux ≤ 300 → becomes (.hstepFall k ⟨c, flux⟩) { q with hotAt := none })
  ∧ (300 < flux → q.hotAt = some at' → q.cycle < at' + 512 → becomes (.hstepFall k ⟨c, flux⟩) { q with coolAt := none })
  ∧ (300 < flux → (q.hotAt = none ∨ q.hotAt = some at' ∧ at' + 512 ≤ q.cycle) → becomes (.hstepFall k ⟨c, flux⟩)
      { q with coolAt := none, hotAt := some q.cycle, hstep := max 1 (q.hstep - 1) })
  ∧ (270 ≤ flux → becomes (.hstepRise k ⟨c, flux⟩) { q with coolAt := none })
  ∧ (flux < 270 → q.coolAt = none → becomes (.hstepRise k ⟨c, flux⟩) { q with hotAt := none, coolAt := some q.cycle })
  ∧ (flux < 270 → q.coolAt = some at' → q.cycle < at' + 4096 → becomes (.hstepRise k ⟨c, flux⟩) { q with hotAt := none })
  ∧ (flux < 270 → q.coolAt = some at' → at' + 4096 ≤ q.cycle → ¬ held → becomes (.hstepRise k ⟨c, flux⟩)
      { q with hotAt := none, coolAt := some q.cycle, hstep := min 8 (q.hstep + 1) })
  ∧ (flux < 270 → q.coolAt = some at' → at' + 4096 ≤ q.cycle → held → becomes (.hstepRise k ⟨c, flux⟩)
      { q with hotAt := none, coolAt := some q.cycle })
  ∧ (1 ≤ step.val → (top 3 → step.val ≤ 4) → (top 0 → step.val ≤ q.fstep) → becomes (.fstepUpdate k c step) { q with fstep := step.val })

/-- R490: a row whose condition a reading meets is entered once, row 3 for the whole module, with a type 8 record of the row and
the reading. Only the response of the highest row in force applies: that of row 0 lowers FSTEP, that of row 1 sets HSTEP to 1,
that of row 2 lowers it by 1, and that of row 3 holds FSTEP at 4 or below. A row is lifted by its own condition, row 4 by
none. That row 2 lowers HSTEP at its entry too, how far row 0 lowers FSTEP, and what a lift leaves, is log entry 56. -/
def Sys2Proof.Claims.SensorLimits : Prop := ∀ (s : State) (k : Fin 16) (row : Fin 5) (x : Sensor) (reading flow : Nat),
  let lim := (s.stk k.val).limits
  let r := row.val
  let met : Prop := x = .temp ∧ (r = 0 ∧ 95 ≤ reading ∨ r = 1 ∧ 105 ≤ reading) ∨ x = .current ∧ r = 2 ∧ 250 < reading
    ∨ r = 3 ∧ (x = .inlet ∧ 40 < reading ∨ x = .flow ∧ reading < 60)
  let lifts : Prop := r = 0 ∧ reading < 90 ∨ r = 1 ∧ reading < 95 ∨ r = 2 ∧ reading < 230
    ∨ r = 3 ∧ 18 ≤ reading ∧ reading ≤ 40 ∧ 60 ≤ flow
  let on (j : Fin 16) : Prop := j = k ∨ r = 3
  let acts (j : Fin 16) : Prop := on j ∧ ∀ m ∈ (s.stk j.val).limits, m < r
  (met → r ∉ lim → s.md.fatal = false → Answers (.sensorLimit k row ⟨x, reading⟩) s fun t =>
      t.mem = s.mem ∧ t.splits = s.splits ∧ t.me = s.me
      ∧ (∀ j : Fin 16, (on j → (t.stk j.val).limits = r :: (s.stk j.val).limits)
          ∧ (¬ on j → (t.stk j.val).limits = (s.stk j.val).limits))
      ∧ (∀ (j : Fin 16) (c : Fin 8),
          let a := s.core j.val c.val
          let b := t.core j.val c.val
          (¬ acts j → b = a) ∧ (acts j → r = 1 → b = { a with hstep := 1 })
          ∧ (acts j → r = 2 → b = { a with hstep := max 1 (a.hstep - 1) })
          ∧ (acts j → r = 3 → b = { a with fstep := min 4 a.fstep })
          ∧ (acts j → r = 0 → b = { a with fstep := b.fstep } ∧ 1 ≤ b.fstep ∧ (b.fstep < a.fstep ∨ a.fstep ≤ 1 ∧ b.fstep = 1)))
      ∧ SendsRecord s t k.val 8 ([BitVec.ofNat 8 r, 0#8] ++ bytesLE 2 reading))
  ∧ (r ∈ lim → exec (.sensorLimit k row ⟨x, reading⟩) s = .next s)
  ∧ (lifts → r ∈ lim → Answers (.limitLifted k ⟨row, reading, flow⟩) s fun t => t.mem = s.mem ∧ t.md = s.md
      ∧ ∀ j : Fin 16, (on j → (t.stk j.val).limits = (s.stk j.val).limits.filter (· != r))
        ∧ (¬ on j → (t.stk j.val).limits = (s.stk j.val).limits))
  ∧ (¬ lifts → exec (.limitLifted k ⟨row, reading, flow⟩) s = .next s)

/-- R372 to R374, R490: the throttle, the ramp and the limits of the sensors. -/
def Obligations.ThrottleAndLimits : Prop := Claims.ThrottleLevels ∧ Claims.SensorLimits

/-- R190, R201, R216, R218, R375: what a stack does on its own. A reservation is lost 4,096 cycles of its stack's clock after
its `lrg`, and its holdoff ends after 256; a refresh window ends with no row skipped; a charge of energy adds to the grids'
counts and to the idle account; a walk leaves its leaf, and no other entry for its page, in the core's cache and in the
stack's, with the table entries of its path there, and never writes memory. -/
def Sys2Proof.Claims.StacksKeepTime : Prop :=
  (∀ (s : State) (n : Nat), Answers (.reservationExpiry n) s fun t => t = { s with stks := t.stks }
    ∧ ∀ j : Fin 16, t.stk j.val = { s.stk j.val with resv := (t.stk j.val).resv }
      ∧ ∀ r, r ∈ (t.stk j.val).resv ↔ r ∈ (s.stk j.val).resv ∧ ¬ (r.no = n ∧ r.since + 4096 ≤ (s.stk j.val).clock))
  ∧ (∀ (s : State) (n : Nat), Answers (.holdoffExpiry n) s fun t => t = { s with stks := t.stks }
    ∧ ∀ j : Fin 16, t.stk j.val = { s.stk j.val with resv := (s.stk j.val).resv.map fun r =>
        { r with hold := r.hold && !(decide (r.no = n) && decide (r.since + 256 ≤ (s.stk j.val).clock)) } })
  ∧ (∀ (s : State) (k : Fin 16), Answers (.refreshWindow k) s fun t => OnlyStk s t k.val
    ∧ t.stk k.val = { s.stk k.val with swept := [] })
  ∧ (∀ (s : State) (k : Fin 16) (amounts : List (Nat × Nat)) (idle : Nat), (s.stk k.val).charge = true →
    Answers (.energyCharge k amounts idle) s fun t => t = { s.onStk k.val (fun _ => t.stk k.val) with fresh := t.fresh }
      ∧ t.stk k.val = { s.stk k.val with
          charge := false, idleEnergy := (s.stk k.val).idleEnergy + idle, energy := (t.stk k.val).energy }
      ∧ ∀ g ∈ s.gridsAt k.val, t.energyOf k.val g
          = (s.energyOf k.val g + ((amounts.filter fun a => a.1 == g).map fun a => a.2).sum) % 2 ^ 64)
  ∧ (∀ (s : State) (k : Fin 16) (c : Fin 8) (asid : Nat) (va : Dword), va.toNat < 2 ^ 57 → asid < 1024 → ∀ r,
    walk s k.val asid va.toNat = r → Answers (.tableWalk k c asid va) s fun t => OnlyStk s t k.val
      ∧ (∀ w ∈ (t.stk k.val).walks, w ∈ (walkPath s k.val asid va.toNat).1 ∨ w ∈ (s.stk k.val).walks)
      ∧ match r with
      | .error _ => t.stk k.val = { s.stk k.val with walks := (t.stk k.val).walks }
      | .ok f =>
        let e : Tlb := ⟨asid, f.level, va.toNat / 2 ^ levelLo f.level, BitVec.ofNat 64 f.entry⟩
        t.stk k.val = { s.stk k.val with
          cores := (t.stk k.val).cores, tlb := (t.stk k.val).tlb, walks := (t.stk k.val).walks }
        ∧ (∀ d : Fin 8, t.core k.val d.val = if d = c then { s.core k.val c.val with tlb := (t.core k.val c.val).tlb }
            else s.core k.val d.val)
        ∧ ((t.core k.val c.val).tlb.filter fun x => x.hit asid va.toNat) = [e]
        ∧ ((t.stk k.val).tlb.filter fun x => x.hit asid va.toNat) = [e])

/-- R376, R377: a monitor that is enabled takes the sample of its level source that is due: MINV and MAXV keep the least and the greatest
value, and the bin of the value counts it, up to 2^32 - 1. Clearing a monitor resets the three and keeps its configuration. -/
def Sys2Proof.Claims.MonitorsRecord : Prop := ∀ (s : State) (k : Fin 16) (n : Fin 32) (reading v : Nat),
  let q := s.stk k.val
  let m := q.monitor n.val
  let c := m.cfg.toNat
  (n.val ∈ q.samples → q.pstate ≠ 3 → m.cfg.getLsbD 63 = true → v < 2 ^ 64 →
    (match c / 2 ^ 48 % 256 with
      | 1 => v = q.arrivals.length
      | 2 => v = reading
      | 3 => v = reading
      | 4 => v = q.spinEvents - m.spinAt
      | 5 => v = (q.cores.toList.map fun x => x.kstep).foldl min 8
      | 6 => v = q.tracker.length
      | 7 => v = (q.chans.toList.map fun x => x.jobs.length).sum
      | _ => False) →
    Answers (.monitorSample k n reading) s fun t => t = { s.onStk k.val (fun _ => t.stk k.val) with fresh := t.fresh }
      ∧ t.stk k.val = { q with monitors := (t.stk k.val).monitors, samples := q.samples.erase n.val }
      ∧ (∀ j : Fin 32, j ≠ n → (t.stk k.val).monitor j.val = q.monitor j.val)
      ∧ let x := (t.stk k.val).monitor n.val
        x.cfg = m.cfg ∧ x.minv.toNat = min m.minv.toNat v ∧ x.maxv.toNat = max m.maxv.toNat v
        ∧ ∀ b : Fin 16, vget x.bins b.val 0 = (if b.val = min ((v - c % 2 ^ 32) / 2 ^ (c / 2 ^ 32 % 64)) 15
            then min (vget m.bins b.val 0 + 1) (2 ^ 32 - 1) else vget m.bins b.val 0))
  ∧ (n.val ∉ q.samples ∨ q.pstate = 3 → exec (.monitorSample k n reading) s = .next s)
  ∧ (s.md.ready = true → s.md.cxlUp = true → Answers (.monitorClear k n) s fun t => OnlyStk s t k.val
      ∧ (∀ j : Fin 32, j ≠ n → (t.stk k.val).monitor j.val = q.monitor j.val)
      ∧ let x := (t.stk k.val).monitor n.val
        x.cfg = m.cfg ∧ x.minv = BitVec.allOnes 64 ∧ x.maxv = 0#64 ∧ x.bins = Vector.replicate 16 0)

/-- R190, R201, R216, R218, R375 to R377: reservations, refresh, energy, table walks and monitors. -/
def Obligations.StackUnits : Prop := Claims.StacksKeepTime ∧ Claims.MonitorsRecord

/-- R53, R259, R355, R356, R372, R374, R376, R477, R480, R485, R492: a write of a register takes effect at once, the host's of its
registers and the firmware's of PBUDGET and SVC, which the host only reads: an aligned read of the window returns what its
fields store, and no other register changes. A write of MONCFG with CLR clears the rest of its monitor. -/
def Sys2Proof.Claims.RegisterWritesStoreTheirFields : Prop :=
  ∀ (s : State) (v : Dword) (l : Fin 4) (k : Fin 16) (sel : BitVec 12), s.md.ready = true → s.md.cxlUp = true →
  let blk := 0x100000 + 0x10000 * k.val
  let reads (i : Instr) (off : Nat) (x : Dword) : Prop := Answers i s fun t => OnlyMd s t ∧ t.windowRead off = x
    ∧ ∀ o, o % 8 = 0 → o < 0x100000 → o ≠ off → t.windowRead o = s.windowRead o
  let held (i : Instr) (off : Nat) (x : Dword) : Prop := Answers i s fun t => OnlyStk s t k.val
    ∧ t.windowRead (blk + off) = x ∧ ∀ o, o % 8 = 0 → o < 0x100000 → t.windowRead o = s.windowRead o
  let n := v.toNat
  reads (.qring l v) (8 * l.val) (v &&& 0x0000FFFFFFFFFFC1#64)
  ∧ held (.cring k l v) (8 * l.val) (v &&& 0x0000FFFFFFFFFFC1#64)
  ∧ reads (.errlog v) 0x68 (v &&& 0x0000FFFFFFFFFFC1#64)
  ∧ reads (.pwrcap v) 0x48 (BitVec.ofNat 64 (if n % 2 ^ 12 = 0 then 0 else if n % 2 ^ 12 < 600 then 600
      else if 3600 < n % 2 ^ 12 then 3600 else n % 2 ^ 12))
  ∧ reads (.ramp v) 0x50 (BitVec.ofNat 64 (if n % 2 ^ 16 < 57 then 57 else n % 2 ^ 16))
  ∧ Answers .errstatClear s (fun t => OnlyMd s t ∧ t.md = { s.md with drop := 0 })
  ∧ Answers (.skbctlThaw ⟨k, sel⟩) s (fun t => OnlyStk s t k.val ∧ t.stk k.val = { s.stk k.val with
      sketch := { (s.stk k.val).sketch with sel := sel.toNat, frozen := false, lost := 0 } })
  ∧ ((∀ c : Fin 8, tilesServed v c.val ≤ 64 ∧ (coreServed v c.val = true ∨ s.takenGslots k.val c.val = [])) →
      Answers (.svcUpdate k v) s fun t => t.windowRead (blk + 0x20) = v
        ∧ t = { s.onStk k.val (fun q => { q with svc := v }) with md := { s.md with retiring := t.md.retiring } })
  ∧ reads (.registerWrite .asidbase 8 v) 0x20 (v &&& 0x0000FFFFFFFFE000#64)
  ∧ reads (.registerWrite .lattol 8 v) 0x40 (v &&& 0xFFFFFFFF#64)
  ∧ reads (.registerWrite .cplnote 8 v) 0x60 (v &&& 0x000FFFFFFFFFF001#64)
  ∧ Answers (.registerWrite (.skbSel k) 8 v) s (fun t => OnlyStk s t k.val ∧ t.stk k.val = { s.stk k.val with
      sketch := if v.getLsbD 62 then { (s.stk k.val).sketch with sel := n % 2 ^ 12, frozen := false, lost := 0 }
        else { (s.stk k.val).sketch with sel := n % 2 ^ 12 } })
  ∧ (∀ m : Fin 32, held (.registerWrite (.monitor k m) 8 v) (0x100 + 0x100 * m.val) (v &&& 0x80FF003FFFFFFFFF#64)
    ∧ Answers (.registerWrite (.monitor k m) 8 v) s fun t =>
      let x := (t.stk k.val).monitor m.val
      t.stk k.val = { s.stk k.val with monitors := (t.stk k.val).monitors }
      ∧ (∀ j : Fin 32, j ≠ m → (t.stk k.val).monitor j.val = (s.stk k.val).monitor j.val)
      ∧ x = if v.getLsbD 62 then { x with minv := BitVec.allOnes 64, maxv := 0#64, bins := Vector.replicate 16 0 }
        else { (s.stk k.val).monitor m.val with cfg := x.cfg })
  ∧ (n % 8 = 0 → Answers (.registerWrite (.readAt n) 8 v) s fun t => OnlyMd s t
      ∧ t.md = { s.md with windowReads := (n, s.windowRead n) :: s.md.windowReads })
  ∧ (4096 ≤ n % 2 ^ 25 → n % 2 ^ 25 ≤ 16777216 → reads (.registerWrite .pbudget 8 v) 0x28 (BitVec.ofNat 64 (n % 2 ^ 25)))

/-- R355, R356, R489, R494: a write or a read of another size than 8 bytes, or a misaligned one, sets the AER non-fatal status only; one to an unlisted offset
or a read-only register, and one before READY other than to RSTCTL, change nothing; neither does any from the host while the CXL
link is down. -/
def Sys2Proof.Claims.WritesThatAreDiscarded : Prop := ∀ (s : State) (r : WinReg) (size : Nat) (v : Dword) (l : Fin 4) (k : Fin 16)
    (n : Fin 32) (sel : BitVec 12),
  (s.md.cxlUp = true → size ≠ 8 ∨ r = .misaligned ∨ (∃ off, r = .readAt off ∧ off % 8 ≠ 0) → exec (.registerWrite r size v) s = .next { s with md := { s.md with aer := true } })
  ∧ (size = 8 → r = .readOnly ∨ r = .unlisted → exec (.registerWrite r size v) s = .next s)
  ∧ (s.md.ready = false → ∀ i ∈ ([.qring l v, .cring k l v, .errlog v, .pwrcap v, .ramp v, .errstatClear, .skbctlThaw ⟨k, sel⟩,
      .monitorClear k n, .registerWrite .asidbase 8 v, .registerWrite .lattol 8 v, .registerWrite .cplnote 8 v,
      .registerWrite (.skbSel k) 8 v, .registerWrite (.monitor k n) 8 v] : List Instr), exec i s = .next s)
  ∧ (s.md.cxlUp = false → (r ≠ .pbudget → exec (.registerWrite r size v) s = .next s)
    ∧ ∀ i ∈ ([.qring l v, .cring k l v, .errlog v, .pwrcap v, .ramp v, .errstatClear, .skbctlThaw ⟨k, sel⟩, .monitorClear k n,
      .abortctl sel.toNat, .preemptionRequest sel.toNat] : List Instr), exec i s = .next s)

/-- R259, R355, R356, R372, R374, R376, R477, R480, R485, R489, R492, R494: the register window. -/
def Obligations.RegisterWindow : Prop := Claims.RegisterWritesStoreTheirFields ∧ Claims.WritesThatAreDiscarded

/-- R480, R493, R494: a warm reset keeps memory with its tags and poison, DOMCFG, the routes, LATTOL, PWRCAP, RAMP, SVC, FATAL and
the limits in force (log entry 51), and notes event 8; it stops every grid and clears the queue registers, the monitors, CYCLE, SEQ and DROP. A cold reset clears
memory too. Bring-up then writes DOMCFG and ROUTE, sets FSTEP and HSTEP to 8 and READY, or makes the module fatal where the mesh
links do not train; a Mervel link that does not train is down without a record (log entry 12), and every other link and the
CXL link are as new (log entry 58). -/
def Obligations.ResetsKeepAndClear : Prop := ∀ (s : State) (v : Dword),
  let cleared (t : State) : Prop := t.splits = [] ∧ t.grids = [] ∧ t.teams = [] ∧ t.groups = [] ∧ t.slots = [] ∧ t.fabric = []
    ∧ t.me.status = .ended ∧ t.md.ready = false ∧ t.md.seq = 0 ∧ t.md.drop = 0
    ∧ (∀ l : Fin 4, t.ring l.val = Ring.reset) ∧ t.md.asidbase = 0#64 ∧ t.md.cplnote = 0#64 ∧ t.md.errlog = 0#64
    ∧ t.md.preqctl = 0#64 ∧ ∀ k : Fin 16, (t.stk k.val).tracker = [] ∧ (t.stk k.val).pstate = 0
      ∧ (∀ c : Fin 8, (t.stk k.val).limits = [] → t.core k.val c.val = Core.reset) ∧ (∀ l : Fin 4, t.chan k.val l.val = CopyChan.reset)
      ∧ ∀ n : Fin 32, (t.stk k.val).monitor n.val = Monitor.reset
  let warm (t : State) : Prop := cleared t ∧ t.mem = s.mem ∧ t.md.domcfg = s.md.domcfg ∧ t.md.routes = s.md.routes
    ∧ t.md.lattol = s.md.lattol ∧ t.md.pwrcap = s.md.pwrcap ∧ t.md.ramp = s.md.ramp ∧ t.md.fatal = s.md.fatal
    ∧ ∀ k : Fin 16, (t.stk k.val).svc = (s.stk k.val).svc ∧ (t.stk k.val).limits = (s.stk k.val).limits ∧ ((s.stk k.val).sketch.frozen = false → Sketched s t k.val 8)
  let cold (t : State) : Prop := cleared t ∧ t.mem = { cells := [], tags := [], poison := [] } ∧ t.md.fatal = false
    ∧ t.md.domcfg = 256#64 ∧ t.md.ramp = 57#64 ∧ t.md.pwrcap = 0#64 ∧ t.md.lattol = 0#64
    ∧ ∀ k : Fin 16, (t.stk k.val).svc = svcReset ∧ (t.stk k.val).limits = [] ∧ (t.stk k.val).sketch = Sketch.reset
  Answers .warmReset s warm ∧ Answers .coldReset s cold
  ∧ (s.md.cxlUp = true → v.getLsbD 1 = true → Answers (.registerWrite .rstctl 8 v) s cold)
  ∧ (s.md.cxlUp = true → v.getLsbD 1 = false → v.getLsbD 0 = true → Answers (.registerWrite .rstctl 8 v) s warm)
  ∧ (∀ (m : Fin 64) (d : Nat) (mervel : BitVec 12) (rs : List Word), s.md.ready = false → s.md.fatal = false → 1 ≤ d → d ≤ 64 →
    (d = 1 → m.val = 0) → s.md.domcfg.toNat % 64 = m.val →
    Answers (.bringUp ⟨true, mervel⟩ m ⟨d, rs⟩) s (fun t => t.mem = s.mem ∧ t.splits = s.splits ∧ t.me = s.me
      ∧ t.md = { s.md with
          domcfg := BitVec.ofNat 64 (256 * d + m.val), routes := t.md.routes, links := [], downLinks := t.md.downLinks,
          cxlUp := true, ready := true }
      ∧ (∀ j < 64, vget t.md.routes j 0#64 = BitVec.ofNat 64 ((rs.getD j 0#32).toNat % 32))
      ∧ (∀ l, l ∈ t.md.downLinks ↔ l < 12 ∧ mervel.getLsbD l = false)
      ∧ ∀ (k : Fin 16) (c : Fin 8), (s.stk k.val).limits = [] →
          t.core k.val c.val = { s.core k.val c.val with fstep := 8, hstep := 8 })
    ∧ Answers (.bringUp ⟨false, mervel⟩ m ⟨d, rs⟩) s (fun t => t.mem = s.mem ∧ t.md.fatal = true ∧ t.md.ready = false))

/-- R370, R371: a stack rests in the deepest state whose exit latency LATTOL tolerates and whose entry condition holds, A3
with the whole module, and leaves a deeper state than that; a request wakes it, and its exit leads to A0, the other stacks of a module in A3 then
being in A2 (log entry 55). Memory keeps its contents in every state. -/
def Obligations.PowerStates : Prop := ∀ (s : State) (k : Fin 16),
  let untaken (n : Fin 4) : Prop := n = 3 → ∀ j : Fin 16, (s.stk j.val).samples = []
  (∀ n, s.restState k.val = n → n ≤ 3 ∧ exitLatency n ≤ s.md.lattol.toNat ∧ s.mayRest k.val n = true
    ∧ (s.md.lattol.toNat = 0 → n = 0)
    ∧ ∀ m, n < m → m ≤ 3 → s.md.lattol.toNat < exitLatency m ∨ ∃ j : Fin 16, (m < 3 → j = k) ∧ s.mayRest j.val m = false)
  ∧ (∀ n : Fin 4, s.restState k.val = n.val → untaken n → n.val < (s.stk k.val).pstate → (s.stk k.val).waking = false →
    Answers (.powerStateEntry k n) s fun t => OnlyStk s t k.val ∧ t.stk k.val = { s.stk k.val with waking := true })
  ∧ (∀ n : Fin 4, s.restState k.val = n.val → untaken n → (s.stk k.val).pstate < n.val → (s.stk k.val).waking = false →
    Answers (.powerStateEntry k n) s fun t => t.mem = s.mem ∧ t.splits = s.splits ∧ t.md = s.md
      ∧ ∀ j : Fin 16, (t.stk j.val).pstate = if j = k ∨ n.val = 3 then n.val else (s.stk j.val).pstate)
  ∧ ((s.stk k.val).pstate ≠ 0 → Answers (.stackWake k) s fun t => OnlyStk s t k.val
      ∧ t.stk k.val = { s.stk k.val with waking := true })
  ∧ ((s.stk k.val).waking = true → Answers (.powerStateExit k) s fun t => t.mem = s.mem ∧ t.splits = s.splits ∧ t.md = s.md
      ∧ (t.stk k.val).waking = false
      ∧ ∀ j : Fin 16, (t.stk j.val).pstate = if j = k then 0 else if (s.stk j.val).pstate = 3 then 2 else (s.stk j.val).pstate)

/-- R203, R466, R467: a scrub visit that finds nothing, or corrects the line, changes no byte, tag or register. An
uncorrectable codeword poisons its line once: bytes and tags stay, a type 6 record leaves, and where the tag is known every
grid that runs under its address space with a team on the module is aborted, and no other; the record of an unknown tag holds
tag 0 (log entry 57). -/
def Obligations.PoisonEndsItsOwner : Prop := ∀ (s : State) (line : Nat) (known scrub : Bool),
  let pa := 64 * line
  let tag := lookupTag s.mem.tags line
  pa / 2 ^ 42 = s.md.domcfg.toNat % 64 → isReserved pa = false → (s.grids.map fun g => g.id).Nodup →
  exec (.scrubVisit line .clean) s = .next s
  ∧ Answers (.scrubVisit line .corrected) s (fun t => t.mem = s.mem ∧ t.me = s.me ∧ t.splits = s.splits ∧ t.md = s.md)
  ∧ (line ∈ s.mem.poison → exec (.scrubVisit line (.uncorrectable known scrub)) s = .next s)
  ∧ (line ∉ s.mem.poison → Answers (.scrubVisit line (.uncorrectable known scrub)) s fun t =>
    t.mem.cells = s.mem.cells ∧ t.mem.tags = s.mem.tags ∧ (∀ x, x ∈ t.mem.poison ↔ x = line ∨ x ∈ s.mem.poison)
    ∧ (∃ r rest, t.md.errq = s.md.errq ++ r :: rest ∧ r.typ = 6 ∧ r.loc = 16 * (pa / 2 ^ 42) + pa / 2 ^ 38 % 16
      ∧ r.payload = bytesLE 8 pa ++ bytesLE 2 (if known then tag else 0)
          ++ bytesLE 1 ((if known then 0 else 1) + if scrub then 2 else 0))
    ∧ ∀ g ∈ s.grids, ∃ y ∈ t.grids, y.id = g.id ∧ y.aborted = (g.aborted || (known && decide (g.asid = tag)
        && s.teams.any fun u => u.grid == g.id && u.st != .ended)))

/-- R434, R471, R479, R486, R488, R490: an error of the launcher or of a router, a mesh link that does not retrain, and the last row of
the limits make the module fatal: FATAL is set, vector 1 is signalled and every sketchbook freezes. A fatal module does
nothing more by itself (log entry 52). An error in a group's registers or tiles ends its grid with REASON 6 (log entry 59). -/
def Obligations.FatalModuleStops : Prop := ∀ (s : State) (k : Fin 16) (d : Fin 4) (c : Fin 8) (x : Sensor) (reading grid team grp : Nat) (g : Grid),
  let dies (i : Instr) : Prop := Answers i s fun t => t.mem = s.mem ∧ t.me = s.me ∧ t.splits = s.splits ∧ t.grids = s.grids
    ∧ t.md.fatal = true ∧ t.md.msix.getLsbD 1 = true ∧ ∀ j : Fin 16, (t.stk j.val).sketch.frozen = true
  (s.md.fatal = false → dies (.launcherRouterError .launcher) ∧ dies (.launcherRouterError (.router k)))
  ∧ (s.md.fatal = false → (s.linkState (.mesh k d)).2 = true → linkThere (.mesh k d) = true → dies (.retrainTimeout (.mesh k d)))
  ∧ (s.md.fatal = false → 4 ∉ (s.stk k.val).limits →
      x = .temp ∧ 115 ≤ reading ∨ x = .supply ∧ (reading < 48 ∨ 58 < reading) → dies (.sensorLimit k 4 ⟨x, reading⟩))
  ∧ (s.md.fatal = true → s.agenda = [] → Machine.step s = .fault .moduleFatal)
  ∧ (s.grid? grid = some g → g.aborted = false → Answers (.launcherRouterError (.group grid team grp k c)) s fun t =>
      t.mem = s.mem ∧ t.win = s.win ∧ (∃ y, t.grid? grid = some y ∧ y.aborted = true)
      ∧ ∃ r, t.md.errq = s.md.errq ++ [r] ∧ r.typ = 1 ∧ r.grid = grid ∧ r.payload.headD 0#8 = 6#8)

/-- R11, R486, R487: each retry of a link is counted, and the sixteenth lets the link retrain; a link that has retrained counts
from zero, with a type 7 record of the retries; a Mervel link that fails to retrain is down, with a record, and every grid with
a process-group table is asked to save (R61, R367), within the limit of 64 requests (R378). A port at the edge of the mesh has no link. -/
def Sys2Proof.Claims.LinksRetryAndRetrain : Prop := ∀ (s : State) (l : Link) (n : Nat) (again : Bool), s.linkState l = (n, again) →
  let there : Prop := match l with
    | .mervel _ => True
    | .mesh k d => if d.val = 0 then 4 ≤ k.val else if d.val = 1 then k.val % 4 < 3 else if d.val = 2 then k.val < 12
        else 0 < k.val % 4
  let others (t : State) : Prop := ∀ m, m ≠ l → t.linkState m = s.linkState m
  let record (down : Nat) : List Byte := [BitVec.ofNat 8 (match l with
    | .mervel i => i.val
    | .mesh k d => 16 + 4 * k.val + d.val), BitVec.ofNat 8 down, 0#8, 0#8] ++ bytesLE 4 n
  (there → again = false → Link.isDown s l = false →
    Answers (.linkRetry l) s (fun t => t.linkState l = (n + 1, false) ∧ others t ∧ t.mem = s.mem ∧ t.splits = s.splits)
    ∧ (16 ≤ n → Answers (.linkRetrain l) s fun t => t.linkState l = (n, true) ∧ others t ∧ OnlyMd s t)
    ∧ (n < 16 → exec (.linkRetrain l) s = .next s))
  ∧ (¬ there → exec (.linkRetry l) s = .next s ∧ exec (.linkRetrain l) s = .next s ∧ exec (.retrainTimeout l) s = .next s)
  ∧ (again = true → Answers (.linkRetrained l) s fun t => t.linkState l = (0, false) ∧ others t ∧ t.mem = s.mem
      ∧ SendsRecord s t (Link.stack l) 7 (record 0))
  ∧ (again = true → ∀ i : Fin 12, l = .mervel i → ∀ e ∈ ([.retrainTimeout l, .linkDown i] : List Instr), Answers e s fun t =>
      t.linkState l = (0, false) ∧ others t ∧ i.val ∈ t.md.downLinks
      ∧ (∃ r rest, t.md.errq = s.md.errq ++ r :: rest ∧ r.typ = 7 ∧ r.payload = record 1)
      ∧ ((∀ g ∈ s.grids, g.id < 2 ^ 31) → t.mem = s.mem ∧ t.splits = s.splits ∧ t.me = s.me)
      ∧ ((s.grids.map fun g => g.id).Nodup → s.md.requested.length + s.grids.length ≤ 64 →
          ∀ g ∈ s.grids, 2 ^ 31 ≤ g.id → g.id ∉ s.md.requested → ∃ y ∈ t.grids, y.id = g.id ∧ y.preq = true))

/-- R364, R487, R493: a route is rewritten once the grids that span modules are saved, and what the link's failure has requested
is withdrawn once no route leads to a link that is down (log entry 54). A packet that reaches the stack of a module's link is discarded where
the module has no route or is in warm reset, and its grid is aborted. -/
def Sys2Proof.Claims.RoutesAndPeers : Prop := ∀ (s : State) (m : Fin 64) (v : Bool) (link : Fin 16),
  (s.quiet = true → Answers (.routeRewrite m v link) s fun t => t.mem = s.mem ∧ t.fabric = s.fabric
    ∧ (∀ j : Fin 64, vget t.md.routes j.val 0#64 = if j = m then BitVec.ofNat 64 ((if v then 16 else 0) + link.val)
      else vget s.md.routes j.val 0#64)
    ∧ (t.routesDown = true → OnlyMd s t ∧ t.md.quiesced = s.md.quiesced)
    ∧ (t.routesDown = false → t.md.quiesced = [] ∧ ∀ g ∈ s.md.quiesced, g ∉ t.md.requested
        ∧ ∀ y ∈ t.grids, y.id = g → y.preq = false))
  ∧ (s.quiet = false → exec (.routeRewrite m v link) s = .next s)
  ∧ (∀ (a k g : Nat) (pl : Payload) (u : State) (y : Grid), a < 16 → k < 16 →
      s.takePacket (fun _ => true) a (16 + (16 * m.val + k)) = some (pl, u) →
      (u.routed m.val = false ∨ m.val ∈ u.md.peersDown) → u.payloadGrid pl = some g → u.grid? g = some y →
      ∃ t, s.crossStep a (16 + (16 * m.val + k)) = some t ∧ t.mem = s.mem ∧ t.md.outbound = s.md.outbound
        ∧ ∃ z, t.grid? g = some z ∧ z.aborted = true)
  ∧ (m.val ≠ s.md.domcfg.toNat % 64 → m.val ∉ s.md.peersDown → Answers (.peerWarmReset m) s fun t =>
      OnlyMd s t ∧ t.md = { s.md with peersDown := m.val :: s.md.peersDown })
  ∧ Answers (.peerReady m) s fun t => OnlyMd s t ∧ m.val ∉ t.md.peersDown
      ∧ ∀ j, j ≠ m.val → (j ∈ t.md.peersDown ↔ j ∈ s.md.peersDown)

/-- R11, R61, R364, R367, R378, R486, R487, R493: links, routes and peers. -/
def Obligations.LinksAndRoutes : Prop := Claims.LinksRetryAndRetrain ∧ Claims.RoutesAndPeers

/-- R16, R357 to R360, R469, R489: a host request is performed at its home: a write puts the bytes of its mask into the line,
with owner tag 0, a read returns the line, and the filter keeps a line that the host caches. Poisoned lines read as zeros
marked poisoned, refuse partial writes, and are cleared by full ones; reserved offsets refuse both; a fatal module (R488),
or one that is not ready (R494), answers with poisoned zeros. One that has to wait on its path, or
for a stack at rest (log entry 55), crosses the mesh from stack 0, and one that needs an entry of a full filter waits at its home
(log entry 34). -/
def Sys2Proof.Claims.HostRequests : Prop := ∀ (s : State) (r : HostReq), s.md.hdmbase ≤ r.hpa → r.hpa - s.md.hdmbase < 2 ^ 42 →
  s.md.cxlUp = true → s.mem.wf = true →
  let i : Instr := .hostAccess r
  let pa := 64 * (((s.md.domcfg.toNat % 64) * 2 ^ 42 + (r.hpa - s.md.hdmbase)) / 64)
  let line := pa / 64
  let k := pa / 2 ^ 38 % 16
  let bad := s.mem.poison.contains line
  let reads (t : State) (bs : List Byte) (p : Bool) : Prop := t.md.hostReads = (r.hpa, bs, p) :: s.md.hostReads
  let zero : List Byte := List.replicate 64 0#8
  let up : Prop := s.md.fatal = false ∧ s.md.ready = true ∧ s.Near 0 pa
  let room : Prop := r.keep = false ∨ (∃ o, (line, o) ∈ (s.stk k).held) ∨ (s.stk k).held.length < 32768
  ((s.md.fatal = true ∨ s.md.ready = false) → (r.write = true → exec i s = .next s)
    ∧ (r.write = false → Answers i s fun t => OnlyMd s t ∧ reads t zero true))
  ∧ (s.md.fatal = false → s.md.ready = true → ¬ s.Near 0 pa →
      exec i s = .next { s with fabric := s.fabric ++ [⟨0, k, 0, .host r⟩] })
  ∧ (up → isReserved pa = true → Answers i s fun t => t.mem = s.mem ∧ SendsRecord s t k 11 (bytesLE 8 r.hpa ++ bytesLE 1 0)
      ∧ (r.write = false → reads t zero true))
  ∧ (up → isReserved pa = false → r.write = true → (bad = false ∨ r.mask = BitVec.allOnes 64) → Answers i s fun t =>
      (∀ j < 64, t.mem.byte (pa + j) = if r.mask.getLsbD j then r.data.getD j 0#8 else s.mem.byte (pa + j))
      ∧ (∀ a, a < pa ∨ pa + 64 ≤ a → t.mem.byte a = s.mem.byte a)
      ∧ (r.mask ≠ 0#64 → lookupTag t.mem.tags line = 0 ∧ line ∉ t.mem.poison) ∧ t.md = { s.md with links := t.md.links })
  ∧ (up → isReserved pa = false → r.write = true → bad = true → r.mask ≠ BitVec.allOnes 64 → Answers i s fun t =>
      t.mem = s.mem ∧ SendsRecord s t k 11 (bytesLE 8 r.hpa ++ bytesLE 1 1))
  ∧ (up → isReserved pa = false → r.write = false →
      room → Answers i s fun t =>
      t.mem = s.mem ∧ reads t (if bad then zero else (List.range 64).map fun j => s.mem.byte (pa + j)) bad
      ∧ (r.keep = true → ∃ o, (line, o) ∈ (t.stk k).held ∧ (r.own = true → o = true)))
  ∧ (up → isReserved pa = false → r.write = false → ¬ room → Answers i s fun t =>
      t = { s with md := { s.md with hostWait := s.md.hostWait ++ [r], links := t.md.links } })

/-- R357, R360, R489: the device answers a host snoop with a miss; the host's answer to a back-invalidation takes the line from
the filter, and data it had modified is written at the home, where it crosses the mesh from stack 0 if it has to wait on its path; a CXL link that goes down stops host traffic only, and discards
the requests in flight and the filter (log entry 34). -/
def Sys2Proof.Claims.HostAnswers : Prop := ∀ (s : State) (line : Nat) (o : Bool) (bs : List Byte), s.mem.wf = true → s.md.hostWait = [] →
  let pa := 64 * line
  let k := pa / 2 ^ 38 % 16
  exec (.hostSnoop line) s = .next s
  ∧ ((s.stk k).held.find? (fun h => h.1 == line) = some (line, o) → (∀ p ∈ s.fabric, ∀ ds, p.pl ≠ .hostBack line ds) →
      Answers (.backInvalidateResponse line none) s (fun t => OnlyStk s t k
        ∧ t.stk k = { s.stk k with held := (s.stk k).held.filter fun x => x.1 != line })
      ∧ (o = true → ¬ s.Near 0 pa → exec (.backInvalidateResponse line (some bs)) s
          = .next { s with fabric := s.fabric ++ [⟨0, k, 0, .hostBack line bs⟩] })
      ∧ (o = true → s.Near 0 pa → Answers (.backInvalidateResponse line (some bs)) s fun t => (∀ x, (line, x) ∉ (t.stk k).held)
        ∧ (∀ j < 64, t.mem.byte (pa + j) = bs.getD j 0#8) ∧ line ∉ t.mem.poison
        ∧ ∀ a, a < pa ∨ pa + 64 ≤ a → t.mem.byte a = s.mem.byte a))
  ∧ Answers .cxlLinkDown s fun t => t.mem = s.mem ∧ t.splits = s.splits ∧ t.me = s.me ∧ t.grids = s.grids
      ∧ (∀ p, p ∈ t.fabric ↔ p ∈ s.fabric ∧ (∀ r, p.pl ≠ .host r) ∧ ∀ n ds, p.pl ≠ .hostBack n ds) ∧ t.md.cxlUp = false ∧ ∀ j : Fin 16, (t.stk j.val).held = []

/-- R16, R357 to R360, R469, R488, R489, R494: host requests, and what the host answers. -/
def Obligations.HostTraffic : Prop := Claims.HostRequests ∧ Claims.HostAnswers

/-! ### Error records and the copy engine -/

/-- R56, R477 to R480: the launcher claims the next index of the error ring, fills the record's slot with PHASE last, and signals
vector 0 where the ring was empty; a record that finds the ring full is dropped and counted without an index (log entry 53), and one
that finds no ring is dropped. A header that R56 refuses, or that is poisoned (log entry 41), turns the ring off with a type 13
record. -/
def Obligations.ErrorRecordsArePublished : Prop := ∀ (s : State) (r : ErrRec) (rs : List ErrRec) (seq : Nat),
  s.md.errq = r :: rs → s.md.fatal = false → s.mem.wf = true → r.seq = some seq →
  let hdr := 64 * (s.md.errlog.toNat / 64 % 2 ^ 42)
  let k := s.mem.read hdr 8
  let ridx := s.mem.read (hdr + 8) 8
  (s.md.errlog.getLsbD 0 = false → Answers .errorRecord s fun t => OnlyMd s t ∧ t.md = { s.md with errq := rs })
  ∧ (s.md.errlog.getLsbD 0 = true → s.hostWaits hdr false = false →
    ((s.mem.poisoned hdr = true ∨ ringLogn (s.mem.read hdr 64) = none) → Answers .errorRecord s fun t => t.mem = s.mem
      ∧ t.md.errlog = s.md.errlog &&& ~~~1#64 ∧ ∃ x, t.md.errq = rs ++ [x] ∧ x.typ = 13)
    ∧ ∀ n, s.mem.poisoned hdr = false → ringLogn (s.mem.read hdr 64) = some n →
      let pa := hdr + 64 + 64 * (k % 2 ^ n)
      (2 ^ n ≤ (k + 2 ^ 64 - ridx) % 2 ^ 64 → Answers .errorRecord s fun t => OnlyMd s t
        ∧ t.md = { s.md with errq := rs, drop := (s.md.drop + 1) % 2 ^ 32 })
      ∧ ((k + 2 ^ 64 - ridx) % 2 ^ 64 < 2 ^ n → s.agentWaits hdr 8 = false → s.agentWaits pa 64 = false →
        r.payload.length ≤ 32 → Answers .errorRecord s fun t => t.mem.read hdr 8 = (k + 1) % 2 ^ 64 ∧ t.md.errq = rs
          ∧ t.mem.read pa 8 = (k / 2 ^ n % 2 + 2 ^ 8 * r.typ + 2 ^ 16 * r.loc + 2 ^ 32 * seq) % 2 ^ 64
          ∧ t.mem.read (pa + 8) 4 = r.skb % 2 ^ 32 ∧ t.mem.read (pa + 12) 4 = r.grid % 2 ^ 32
          ∧ t.mem.read (pa + 16) 4 = r.team % 2 ^ 32 ∧ t.mem.read (pa + 20) 2 = r.asid % 2 ^ 16
          ∧ t.mem.read (pa + 22) 1 = r.grp % 2 ^ 8 ∧ t.mem.read (pa + 23) 1 = r.cls % 2 ^ 8
          ∧ (∀ j < 32, t.mem.byte (pa + 32 + j) = r.payload.getD j 0#8)
          ∧ (∀ a, (a < hdr ∨ hdr + 8 ≤ a) → (a < pa ∨ pa + 64 ≤ a) → t.mem.byte a = s.mem.byte a)
          ∧ t.md.msix = if k = ridx then s.md.msix ||| 1#2 else s.md.msix))

/-- R56, R260, R261, R462, R464, R465: at a packet boundary a channel reads its register again, and serves or refuses the
ring it names; it takes the packet at RIDX, which advances; a packet that passes the checks is begun, and one that does not,
or that lies in a poisoned slot, is a fault of kind 0 with its record. -/
def Sys2Proof.Claims.CopyPacketsAreTaken : Prop := ∀ (s : State) (k : Fin 16) (l : Fin 4) (idx x : Nat) (c : TClass) (va : Dword),
  let ch := s.chan k.val l.val
  let i : Instr := .copyPacket k l
  let hdr := ringHdr ch.reg
  let now (t : State) : CopyChan := t.chan k.val l.val
  (∀ j ∈ ch.jobs, j.readsDone = true) →
  (ch.rewritten = true → s.hostWaits hdr false = false →
    (ch.reg.getLsbD 0 = false → Answers i s fun t => OnlyStk s t k.val ∧ now t = { ch with served := false, rewritten := false })
    ∧ (∀ n, ch.reg.getLsbD 0 = true → s.ringHeader hdr = some n → Answers i s fun t => OnlyStk s t k.val
      ∧ now t = { ch with served := true, rewritten := false, hdr := hdr, logn := n })
    ∧ (ch.reg.getLsbD 0 = true → s.ringHeader hdr = none → Answers i s fun t => t.mem = s.mem
      ∧ now t = { ch with served := false, rewritten := false, reg := ch.reg &&& ~~~1#64 }
      ∧ ∃ r, t.md.errq = s.md.errq ++ [r] ∧ r.typ = 13 ∧ r.payload.take 3 = [1#8, BitVec.ofNat 8 l.val, BitVec.ofNat 8 k.val]))
  ∧ (ch.rewritten = false → ch.served = true → s.ringWaits ch.hdr ch.logn = false → s.agentWaits (ch.hdr + 8) 8 = false →
    let taken (t : State) : Prop := t.mem = s.mem.write (ch.hdr + 8) (bytesLE 8 (idx + 1)) 0
    let fails (c : TClass) (va : Dword) (t : State) : Prop := taken t ∧ (now t).jobs = ch.jobs
      ∧ ∃ r, t.md.errq = s.md.errq ++ [r] ∧ r.typ = 5 ∧ r.cls = tclassCode c
        ∧ r.payload.take 24 = bytesLE 8 va.toNat ++ bytesLE 8 idx ++ bytesLE 8 0 ∧ r.payload.getD 28 1#8 = 0#8
    (s.ringSlot ch.hdr ch.logn = .notYet → exec i s = .next s)
    ∧ (s.ringSlot ch.hdr ch.logn = .poisoned idx → Answers i s (fails .poison 0#64))
    ∧ (s.ringSlot ch.hdr ch.logn = .packet idx x → s.packetCheck k.val (wordsOf x) = some (c, va) → Answers i s (fails c va))
    ∧ (s.ringSlot ch.hdr ch.logn = .packet idx x → s.packetCheck k.val (wordsOf x) = none → Answers i s fun t => taken t
        ∧ t.md = s.md ∧ ∃ j, (now t).jobs = ch.jobs ++ [j] ∧ j.words = wordsOf x ∧ j.idx = idx ∧ j.iter = 0 ∧ j.bufs = []
          ∧ j.done = 0 ∧ j.credits = 0))

/-- R266, R268, R270: a signal packet at the head of its ring sends one arrival to the object at BAR. A loop's iteration sends
the bytes it expects to the full object of its stage, after the stage's empty object has reached the awaited phase. -/
def Sys2Proof.Claims.SignalsAndLoops : Prop := ∀ (s : State) (k : Fin 16) (l : Fin 4) (j : CopyJob) (rest : List CopyJob) (x : Xl),
  (s.chan k.val l.val).jobs = j :: rest → (∀ y ∈ rest, y.no ≠ j.no) → j.begun = false →
  let w := j.words
  let sends (i : Instr) (added arrivals : Nat) (z : CopyJob) : Prop := Answers i s fun t => t.mem = s.mem
    ∧ t.fabric = s.fabric ++ [⟨k.val, s.nameOf (homeOf x.pa), k.val,
        .object x.pa added 0 arrivals false x.pois (cAsid w) j.no (s.locOf k.val)⟩]
    ∧ (t.chan k.val l.val).jobs = { z with credits := j.credits + 1 } :: rest
  let stage := j.iter % cStages w
  let full := cBar w + BitVec.ofNat 64 (16 * stage)
  let empty := cBar w + BitVec.ofNat 64 (16 * (cStages w + stage))
  (cOp w = 5 → s.xlEngine k.val (cAsid w) true true 16 (cBar w) = .ok x →
    sends (.signalPacket k l) 0 1 { j with begun := true })
  ∧ (cOp w = 3 → s.xlEngine k.val (cAsid w) true true 16 full = .ok x →
      (j.iter < cStages w ∨ ∃ y, s.xlEngine k.val (cAsid w) true false 16 empty = .ok y ∧ homeModule y.pa = s.modno
        ∧ s.NearRead k.val y.pa ∧ s.hostWaits y.pa false = false ∧ s.mem.poisoned y.pa = false
        ∧ bitsOf (s.mem.read y.pa 8) 63 63 = j.iter / cStages w % 2) →
      sends (.loopIteration k l) (cBytes w) 0 { j with begun := true, next := 0, seen := [], ask := .idle })
  ∧ (cOp w = 3 → cStages w ≤ j.iter → s.xlEngine k.val (cAsid w) true false 16 empty = .ok x →
      homeModule x.pa = s.modno → s.Near k.val x.pa → s.hostWaits x.pa false = false → s.mem.poisoned x.pa = false →
      bitsOf (s.mem.read x.pa 8) 63 63 ≠ j.iter / cStages w % 2 → exec (.loopIteration k l) s = .next s)

/-- R56, R260, R261, R266, R268, R270, R462, R464, R465: copy packets, signals and loops. -/
def Obligations.CopyPackets : Prop := Claims.CopyPacketsAreTaken ∧ Claims.SignalsAndLoops

/-- R263, R266, R463: the copy engine gathers the elements of one destination line: an element that is filled, clipped or read
puts its bytes at its place in the burst, and a fault of its destination, which is checked first (log entry 31), or of its
source ends the packet. A gathered burst is
performed at its home, on its own bytes and no others, and its bytes are credited to the object. -/
def Obligations.CopyBurstsMoveBytes : Prop :=
  ∀ (s : State) (k : Fin 16) (l : Fin 4) (no : Nat) (j : CopyJob) (b : CopyWrite) (e : Nat) (rest : List Nat) (x : Xl),
  (s.chan k.val l.val).jobs.find? (fun y => y.no == no) = some j →
  let w := j.words
  let i : Instr := .copyBurst k l no
  let src := cSrc w j.iter e
  let dst := cDst w j.iter e
  let puts (v : Nat) (clip : Bool) : Prop :=
    let c := { b with bytes := gather b.bytes (dst.toNat % 64) (bytesLE (cSize w) v), clip := b.clip || clip }
    Answers i s fun t => t.mem = s.mem ∧ t.md = { s.md with links := t.md.links } ∧ t.splits = s.splits ∧ t.fabric = s.fabric
      ∧ ∃ swp, t.chan k.val l.val = (s.putJob k.val l.val (if rest = [] then
            { j with left := [], swp := swp, ask := .idle, cur := none, bufs := j.bufs ++ castWrites w c }
          else { j with left := rest, swp := swp, ask := .idle, cur := some c })).chan k.val l.val
  (j.begun = true → j.readsDone = false → j.bufs = [] → j.cur = some b → j.left = e :: rest →
    (dst.toNat % cSize w ≠ 0 → exec i s = .next (s.jobFault k.val l.val j .align dst))
    ∧ (dst.toNat % cSize w = 0 →
      (cOp w = 4 → puts (vget w 1 0#64).toNat false)
      ∧ (cOp w ≠ 4 → cClipped w j.iter e = true → puts 0 true)
      ∧ (cOp w ≠ 4 → cClipped w j.iter e = false → ∀ c, s.xlEngine k.val (cAsid w) true false (cSize w) src = .error c →
          exec i s = .next (s.jobFault k.val l.val j c src))
      ∧ (cOp w ≠ 4 → cClipped w j.iter e = false → s.xlEngine k.val (cAsid w) true false (cSize w) src = .ok x →
          homeModule x.pa = s.modno → s.NearRead k.val x.pa → s.hostWaits x.pa false = false → s.mem.poisoned x.pa = false →
          puts (s.mem.read x.pa (cSize w)) false)))
  ∧ (j.readsDone = true → j.bufs = [b] → b.sent = false → j.fault = none → j.tile = none → cMcast w = 0 →
      homeModule b.pa = s.modno → s.Near k.val b.pa → b.pa % 64 = 0 → s.mem.wf = true →
      (b.bytes.map fun y => y.1).Nodup → (∀ y ∈ b.bytes, y.1 < 64) → s.hostWaits b.pa true = false →
      (∀ y ∈ b.bytes, s.heldOff (b.pa + y.1) 1 none = false) → s.mem.poisoned b.pa = false →
      (b.obj = 0#64 ∨ s.xlEngine k.val (cAsid w) true true 16 b.obj = .ok x) →
      Answers i s fun t => (∀ y ∈ b.bytes, t.mem.byte (b.pa + y.1) = y.2)
        ∧ (∀ a, (∀ y ∈ b.bytes, a ≠ b.pa + y.1) → t.mem.byte a = s.mem.byte a)
        ∧ lookupTag t.mem.tags (b.pa / 64) = cAsid w
        ∧ t.fabric = s.fabric ++ (if b.obj = 0#64 then [] else
            [⟨homeStack b.pa, s.nameOf (homeOf x.pa), homeStack b.pa,
              .object x.pa 0 b.bytes.length 0 b.clip x.pois (cAsid w) j.no (s.locOf k.val)⟩]))

/-! ### The machine as a whole -/

/-- R70: when a split's results land, each of those that are due takes effect, in issue order, in the lanes of its mask and in no
other, so that of two writes of one lane the later issued stands; `s0` and `p7` are never written, `sput` leaves the bits that it
does not own, and the results that are not due stay in flight, in their order. -/
def Obligations.ResultsLandInTheirLanes : Prop := ∀ (s f : State) (split : Nat), s.focus split = some f →
  let due := f.me.results.filter fun r => decide (r.due ≤ f.myCore.cycle)
  let lands (w : Wr) (a b : State) : Prop := match w with
    | .v d m x => b = { a with win := { a.win with regs := b.win.regs } } ∧ ∀ q < 128, ∀ l < 32,
        lane (vget b.win.regs q x) l = if q = d ∧ m.has l then lane x l else lane (vget a.win.regs q x) l
    | .vbits d m mask x => b = { a with win := { a.win with regs := b.win.regs } } ∧ ∀ q < 128, ∀ l < 32,
        lane (vget b.win.regs q x) l = if q = d ∧ m.has l
          then (lane (vget a.win.regs q x) l &&& ~~~ (lane mask l)) ||| (lane x l &&& lane mask l)
          else lane (vget a.win.regs q x) l
    | .s d x => b = { a with me := { a.me with sregs := b.me.sregs } }
        ∧ ∀ q < 32, vget b.me.sregs q 0#64 = if q = d ∧ d ≠ 0 then x else vget a.me.sregs q 0#64
    | .p d m x => b = { a with me := { a.me with preds := b.me.preds } }
        ∧ ∀ q < 8, vget b.me.preds q 0#32 = if q = d ∧ d ≠ 7 then (vget a.me.preds q 0#32 &&& ~~~ m) ||| (x &&& m)
          else vget a.me.preds q 0#32
    | .pal x => b = { a with me := { a.me with pal := x } }
    | .mstep x => b = { a with me := { a.me with mstep := (a.me.mstep &&& ~~~ 0xF#64) ||| (x &&& 0xF#64) } }
    | .trapinfo x => b = { a with me := { a.me with trapinfo := (a.me.trapinfo &&& ~~~ 0xFFFF#64) ||| (x &&& 0xFFFF#64) } }
  Answers (.resultLanding split) s fun t => ∃ u : Nat → State,
    u 0 = { f with me := { f.me with results := f.me.results.filter fun r => decide (f.myCore.cycle < r.due) } }
    ∧ u due.length = t ∧ ∀ n r, due[n]? = some r → lands r.wr (u n) (u (n + 1))

/-- R133, R201, R202, R355, R363, R373, R374, R376, R480, R485, R493, R494: what a cold reset leaves: memory reads zero with owner tag 0 and
no line is poisoned; nothing is launched; FSTEP and HSTEP are 8 and the ramp level 0; RAMP is 57; every core and tile is in
service; the monitors are clear; READY, FATAL and DROP are 0. -/
def Obligations.ResetLeaves : Prop :=
  let s := State.reset
  (∀ pa, s.mem.byte pa = 0#8 ∧ lookupTag s.mem.tags (pa / 64) = 0 ∧ s.mem.poisoned pa = false)
  ∧ s.splits = [] ∧ s.teams = [] ∧ s.grids = [] ∧ s.fabric = [] ∧ s.md.ready = false ∧ s.md.fatal = false ∧ s.md.drop = 0
  ∧ s.windowRead 0x50 = 57#64 ∧ s.windowRead 0x48 = 0#64 ∧ s.windowRead 0x40 = 0#64 ∧ s.windowRead 0x58 = 0#64
  ∧ s.windowRead 0x68 = 0#64 ∧ s.windowRead 0x70 = 0#64 ∧ s.windowRead 0x20 = 0#64
  ∧ ∀ k < 16, (∀ c < 8, (s.core k c).cycle = 0 ∧ (s.core k c).fstep = 8 ∧ (s.core k c).hstep = 8 ∧ (s.core k c).ramp = 0
      ∧ coreServed (s.stk k).svc c = true ∧ tilesServed (s.stk k).svc c = 64)
    ∧ ∀ n < 32, ((s.stk k).monitor n).minv = BitVec.ofNat 64 (2 ^ 64 - 1) ∧ ((s.stk k).monitor n).maxv = 0#64
      ∧ ((s.stk k).monitor n).cfg = 0#64

/-- R99 to R105, R109 to R113: words written out from the encodings decode to the instructions they stand for, with every
operand, flag, type and literal in its place; an unassigned opcode, a length that the opcode does not take, an unassigned
sub-opcode and a reserved bit decode to no instruction. -/
def Obligations.WordsDecode : Prop :=
  decodeTableWord 32 0x04087D04 = some (.add ⟨⟨7, true⟩, 3, 1, .v 2⟩)
  ∧ decodeTableWord 32 0x00001C64 = some (.exit ⟨7, true⟩)
  ∧ decodeTableWord 32 0x06001C68 = some (.pause ⟨7, false⟩ 3)
  ∧ decodeTableWord 32 0x00007C74 = some (.tw ⟨7, true⟩ 3 0)
  ∧ decodeTableWord 32 0x000A5E68 = some (.fcmp ⟨7, false⟩ .lt 2 1 (.v 0))
  ∧ decodeTableWord 96 (0x80211EC2 + 2 ^ 32 * 0x00000880) = some (.ld ⟨7, false⟩ ⟨4, .s 0, 0#32⟩ .lane .n32 8 none 2)
  ∧ decodeTableWord 160 (0x00229D2B + 2 ^ 32 * 0x00C00014 + 2 ^ 96 * 0x01010101)
      = some (.dpb ⟨⟨7, false⟩, 20, 4, .lit 0x01010101#32⟩ 3 false 20)
  ∧ decodeTableWord 96 (0x0010DE72 + 2 ^ 64 * 0x1A8) = some (.fcvt ⟨⟨7, false⟩, 6, 2⟩ .e4m3 .f32 0 false false .rne)
  ∧ decodeTableWord 96 (0x00F01FB2 + 2 ^ 32 * 0x02000080 + 2 ^ 64 * 0xF) = some (.accwr ⟨7, false⟩ 0 30 15 0 2)
  ∧ decodeTableWord 160 (0x00001F83 + 2 ^ 96 * 0xDCF) = some (.palLiteral ⟨7, false⟩ 0xDCF#64)
  ∧ decodeTableWord 32 0x00000000 = none ∧ decodeTableWord 32 0x00001C66 = none
  ∧ decodeTableWord 96 (0x80211EC2 + 2 ^ 32 * 0x03000880) = none ∧ decodeTableWord 32 0x80001C64 = none

/-- R48, R67, R99, R113, R360, R409: when the bytes at the program counter decode to an instruction, the split that has its pipe's issue
slot runs it: the module's step there is its execution, after the fetch. Where the words are no instruction, the step takes
the trap. A step of the agents that the outside world brings, or that alone can come next, is its execution too, unless it has
to wait for the host (R360). A check point that is due comes before all of these (R48). -/
def Obligations.StepRunsTheDecodedInstruction : Prop :=
  (∀ (s t a u : State) (k c p id x y : Nat) (rest : List (Nat × Nat)) (i : Instr),
    s.checkDue = false → s.modified = [] → s.agenda = [] → s.md.fatal = false → s.moves = [.slot k] → (s.stk k).todo = (c, p) :: rest →
    let b := (s.onStk k fun q => { q with todo := rest }).markReady k c p
    (b.pipe k c p).hold = 0 → (b.pipe k c p).run = some id → b.focus id = some t → t.me.status = .run →
    t.me.faulting = false → t.me.requeues = false → fetchBytes t t.me.stack t.me.core t.me.asid t.me.pc.toNat 4 = .ok (x, a) →
    fetchBytes a t.me.stack t.me.core t.me.asid t.me.pc.toNat (lenBytes (x % 4)) = .ok (y, u) → x = y % 2 ^ 32 →
    t.me.refuses (Fields.unpack y) = false →
    (decodeWord y = .ok i → Machine.step s = exec i u)
    ∧ (decodeWord y = .error .reserved → Machine.step s = .next (t.raise (t.trapHere .illegal 5))))
  ∧ (∀ (s : State) (i : Instr) (es : List Instr), s.checkDue = false → s.agenda = i :: es → isEvent i = true →
    { s with agenda := es }.eventHeld i = false →
    s.md.fatal = false ∨ fatalServes i = true → Machine.step s = exec i { s with agenda := es })
  ∧ (∀ (s : State) (i : Instr), s.checkDue = false → s.agenda = [] → s.md.fatal = false → s.moves = [.ev i] →
    s.moveHeld (.ev i) = false → Machine.step s = exec i s)
  ∧ (∀ (s : State), s.checkDue = false → s.agenda = [] → s.md.fatal = false →
    let ms := s.moves.filter fun m => !s.moveHeld m
    2 ≤ ms.length → ∃ m ∈ ms, Machine.step s = s.draw.take m)
  ∧ ∀ (s : State), s.checkDue = true → s.md.fatal = false → Machine.step s = .next s.mergeAll

/-- R99 to R123, R409 to R411: for every well-formed instruction, with every operand at every value that its encoding admits,
the decoder reads it back from its own words; and the words of an instruction that decodes are its encoding. -/
def Obligations.DecodeReadsBackTheEncoding : Prop :=
  (∀ i : Instr, i.wf = true → decode (encode i) = .ok i)
  ∧ ∀ (w : Nat) (i : Instr), decodeWord w = .ok i → i.wf = true ∧ (encodeF i).pack = w % 2 ^ (8 * i.bytes)

/-- R193, R202, R466, log entry 7: every step keeps memory in its canonical form: addresses strictly rising, no byte and no
tag listed that an unlisted one reads as. -/
def Obligations.MemoryStaysCanonical : Prop :=
  ∀ s t : State, s.mem.wf = true → Machine.step s = .next t → t.mem.wf = true

/-- The memory of the reset state is in its canonical form. -/
def Obligations.ResetMemoryIsCanonical : Prop := State.reset.mem.wf = true

/-- R70, R114, R124, R143, R151, R169, R170 to R182: where some lane is active under the guard and no register that it needs is
pending, `exec` answers a next state for `sget` of every register, `sput` of the registers that it may write, every scalar form,
floating-point arithmetic, minimum, maximum and comparison, the special functions, conversion, packing, block scaling and the
generator's seed. Its results are on their way, or its operation is outstanding, no byte of memory changes, and the split goes
on with the next instruction. -/
def Obligations.ScalarAndFloatFormsComplete : Prop :=
  ∀ (s : State) (h : Hd) (x : VA) (u : U) (v w : VReg) (a d : SReg) (b : OpB) (p : PReg) (r : SpecReg) (e : Fin 64) (n : Fin 32)
    (ity : ITy) (op : SOp) (k : Tok) (ty : FTy) (td ts : ETy) (sel : Fin 8) (lo ofn sat ce i4 : Bool) (rnd : Rnd) (cc : FCC),
  let goes (i : Instr) (t : State) : Prop := t.mem = s.mem ∧ GoesTo s t (s.me.pc + BitVec.ofNat 64 i.bytes)
  let lands (i : Instr) (lat : Nat) (t : State) : Prop := goes i t ∧ t.me.toks = s.me.toks ∧ t.me.ops = s.me.ops
    ∧ ∃ ws, ws ≠ [] ∧ t.me.results = s.me.results ++ ws.map fun y => { due := s.myCore.cycle + lat, wr := y }
  let starts (i : Instr) (t : State) : Prop := goes i t ∧ t.me.results = s.me.results
    ∧ t.me.toks = vset s.me.toks k.val (s.me.tok k + 1) ∧ ∃ o, t.me.ops = s.me.ops ++ [o] ∧ o.instr = i
  (s.Acts h →
    (∃ t, exec (.sget h r e) s = .next t ∧ lands (.sget h r e) 4 t)
    ∧ (r = .mstep ∨ r = .trapinfo ∧ s.me.priv = true → ∃ t, exec (.sput h r a) s = .next t ∧ lands (.sput h r a) 4 t)
    ∧ (sopTok op = none → ∃ t, exec (.scalarForm h ity op) s = .next t ∧ lands (.scalarForm h ity op) 4 t)
    ∧ (sopTok op = some k → s.Room k → ∃ t, exec (.scalarForm h ity op) s = .next t ∧ starts (.scalarForm h ity op) t)
    ∧ (∃ t, exec (.fcmp h cc p v b) s = .next t ∧ lands (.fcmp h cc p v b) 4 t)
    ∧ (∃ t, exec (.fcmpX h cc p v b ty lo) s = .next t ∧ lands (.fcmpX h cc p v b ty lo) 4 t)
    ∧ (∃ t, exec (.bscl h d v td ts ce i4) s = .next t ∧ lands (.bscl h d v td ts ce i4) 8 t)
    ∧ (∃ t, exec (.bqnt h w v a td ts ofn i4 rnd) s = .next t ∧ lands (.bqnt h w v a td ts ofn i4 rnd) 6 t)
    ∧ (∃ t, exec (.bdeq h w v a td ts i4 rnd) s = .next t ∧ lands (.bdeq h w v a td ts i4 rnd) 6 t)
    ∧ ∀ i ∈ [Instr.rseed h v, .rseedX h v], ∃ t, exec i s = .next t ∧ goes i t ∧ t.me.results = s.me.results
        ∧ ∀ l < 32, lane t.me.seeds l = if (s.active h).has l then lane (s.v v) l else lane s.me.seeds l)
  ∧ (s.Acts x.h →
    (∃ t, exec (.fadd x) s = .next t ∧ lands (.fadd x) 6 t)
    ∧ (∃ t, exec (.faddX x ty lo rnd) s = .next t ∧ lands (.faddX x ty lo rnd) 6 t)
    ∧ (∃ t, exec (.fsub x) s = .next t ∧ lands (.fsub x) 6 t)
    ∧ (∃ t, exec (.fsubX x ty lo rnd) s = .next t ∧ lands (.fsubX x ty lo rnd) 6 t)
    ∧ (∃ t, exec (.fmul x) s = .next t ∧ lands (.fmul x) 6 t)
    ∧ (∃ t, exec (.fmulX x ty lo rnd) s = .next t ∧ lands (.fmulX x ty lo rnd) 6 t)
    ∧ (∃ t, exec (.ffma x ty lo rnd v) s = .next t ∧ lands (.ffma x ty lo rnd v) 6 t)
    ∧ (∃ t, exec (.fmin x) s = .next t ∧ lands (.fmin x) 6 t)
    ∧ (∃ t, exec (.fminX x ty lo) s = .next t ∧ lands (.fminX x ty lo) 6 t)
    ∧ (∃ t, exec (.fmax x) s = .next t ∧ lands (.fmax x) 6 t)
    ∧ (∃ t, exec (.fmaxX x ty lo) s = .next t ∧ lands (.fmaxX x ty lo) 6 t))
  ∧ (s.Acts u.h →
    (∃ t, exec (.frcp u) s = .next t ∧ lands (.frcp u) 16 t) ∧ (∃ t, exec (.frcpX u rnd) s = .next t ∧ lands (.frcpX u rnd) 16 t)
    ∧ (∃ t, exec (.frsq u) s = .next t ∧ lands (.frsq u) 16 t) ∧ (∃ t, exec (.frsqX u) s = .next t ∧ lands (.frsqX u) 16 t)
    ∧ (∃ t, exec (.fsqrt u) s = .next t ∧ lands (.fsqrt u) 16 t)
    ∧ (∃ t, exec (.fsqrtX u rnd) s = .next t ∧ lands (.fsqrtX u rnd) 16 t)
    ∧ (∃ t, exec (.fex2 u) s = .next t ∧ lands (.fex2 u) 16 t) ∧ (∃ t, exec (.fex2X u) s = .next t ∧ lands (.fex2X u) 16 t)
    ∧ (∃ t, exec (.flg2 u) s = .next t ∧ lands (.flg2 u) 16 t) ∧ (∃ t, exec (.flg2X u) s = .next t ∧ lands (.flg2X u) 16 t)
    ∧ (∃ t, exec (.fsin u) s = .next t ∧ lands (.fsin u) 16 t) ∧ (∃ t, exec (.fsinX u) s = .next t ∧ lands (.fsinX u) 16 t)
    ∧ (∃ t, exec (.fcos u) s = .next t ∧ lands (.fcos u) 16 t) ∧ (∃ t, exec (.fcosX u) s = .next t ∧ lands (.fcosX u) 16 t)
    ∧ (∃ t, exec (.fcvt u td ts sel ofn sat rnd) s = .next t ∧ lands (.fcvt u td ts sel ofn sat rnd) 6 t)
    ∧ (∃ t, exec (.fpk u td ts e n rnd) s = .next t ∧ lands (.fpk u td ts e n rnd) 6 t)
    ∧ (∃ t, exec (.funpk u td ts e n rnd) s = .next t ∧ lands (.funpk u td ts e n rnd) 6 t))
end

