-- ==== Sys2Proof/Laws/State.lean ====
section
/-! SUPPORT. Laws/State.lean: what each update of the state leaves of each field, one lemma per field and update. -/

namespace Sys2Proof.Machine

variable (s : State)

/-! `State.onStk` -/

@[simp] theorem State.onStk_mem (k : Nat) (f : StackSt → StackSt) : (s.onStk k f).mem = s.mem := rfl
@[simp] theorem State.onStk_me (k : Nat) (f : StackSt → StackSt) : (s.onStk k f).me = s.me := rfl
@[simp] theorem State.onStk_win (k : Nat) (f : StackSt → StackSt) : (s.onStk k f).win = s.win := rfl
@[simp] theorem State.onStk_gr (k : Nat) (f : StackSt → StackSt) : (s.onStk k f).gr = s.gr := rfl
@[simp] theorem State.onStk_splits (k : Nat) (f : StackSt → StackSt) : (s.onStk k f).splits = s.splits := rfl
@[simp] theorem State.onStk_slots (k : Nat) (f : StackSt → StackSt) : (s.onStk k f).slots = s.slots := rfl
@[simp] theorem State.onStk_groups (k : Nat) (f : StackSt → StackSt) : (s.onStk k f).groups = s.groups := rfl
@[simp] theorem State.onStk_teams (k : Nat) (f : StackSt → StackSt) : (s.onStk k f).teams = s.teams := rfl
@[simp] theorem State.onStk_grids (k : Nat) (f : StackSt → StackSt) : (s.onStk k f).grids = s.grids := rfl
@[simp] theorem State.onStk_fabric (k : Nat) (f : StackSt → StackSt) : (s.onStk k f).fabric = s.fabric := rfl
@[simp] theorem State.onStk_md (k : Nat) (f : StackSt → StackSt) : (s.onStk k f).md = s.md := rfl
@[simp] theorem State.onStk_nextId (k : Nat) (f : StackSt → StackSt) : (s.onStk k f).nextId = s.nextId := rfl
@[simp] theorem State.onStk_fresh (k : Nat) (f : StackSt → StackSt) : (s.onStk k f).fresh = s.fresh := rfl
@[simp] theorem State.onStk_agenda (k : Nat) (f : StackSt → StackSt) : (s.onStk k f).agenda = s.agenda := rfl

/-! `State.onCore` -/

@[simp] theorem State.onCore_mem (k c : Nat) (f : Core → Core) : (s.onCore k c f).mem = s.mem := rfl
@[simp] theorem State.onCore_me (k c : Nat) (f : Core → Core) : (s.onCore k c f).me = s.me := rfl
@[simp] theorem State.onCore_win (k c : Nat) (f : Core → Core) : (s.onCore k c f).win = s.win := rfl
@[simp] theorem State.onCore_gr (k c : Nat) (f : Core → Core) : (s.onCore k c f).gr = s.gr := rfl
@[simp] theorem State.onCore_splits (k c : Nat) (f : Core → Core) : (s.onCore k c f).splits = s.splits := rfl
@[simp] theorem State.onCore_slots (k c : Nat) (f : Core → Core) : (s.onCore k c f).slots = s.slots := rfl
@[simp] theorem State.onCore_groups (k c : Nat) (f : Core → Core) : (s.onCore k c f).groups = s.groups := rfl
@[simp] theorem State.onCore_teams (k c : Nat) (f : Core → Core) : (s.onCore k c f).teams = s.teams := rfl
@[simp] theorem State.onCore_grids (k c : Nat) (f : Core → Core) : (s.onCore k c f).grids = s.grids := rfl
@[simp] theorem State.onCore_fabric (k c : Nat) (f : Core → Core) : (s.onCore k c f).fabric = s.fabric := rfl
@[simp] theorem State.onCore_md (k c : Nat) (f : Core → Core) : (s.onCore k c f).md = s.md := rfl
@[simp] theorem State.onCore_nextId (k c : Nat) (f : Core → Core) : (s.onCore k c f).nextId = s.nextId := rfl
@[simp] theorem State.onCore_fresh (k c : Nat) (f : Core → Core) : (s.onCore k c f).fresh = s.fresh := rfl
@[simp] theorem State.onCore_agenda (k c : Nat) (f : Core → Core) : (s.onCore k c f).agenda = s.agenda := rfl

/-! `State.onPipe` -/

@[simp] theorem State.onPipe_mem (k c p : Nat) (f : Pipe → Pipe) : (s.onPipe k c p f).mem = s.mem := rfl
@[simp] theorem State.onPipe_me (k c p : Nat) (f : Pipe → Pipe) : (s.onPipe k c p f).me = s.me := rfl
@[simp] theorem State.onPipe_win (k c p : Nat) (f : Pipe → Pipe) : (s.onPipe k c p f).win = s.win := rfl
@[simp] theorem State.onPipe_gr (k c p : Nat) (f : Pipe → Pipe) : (s.onPipe k c p f).gr = s.gr := rfl
@[simp] theorem State.onPipe_splits (k c p : Nat) (f : Pipe → Pipe) : (s.onPipe k c p f).splits = s.splits := rfl
@[simp] theorem State.onPipe_slots (k c p : Nat) (f : Pipe → Pipe) : (s.onPipe k c p f).slots = s.slots := rfl
@[simp] theorem State.onPipe_groups (k c p : Nat) (f : Pipe → Pipe) : (s.onPipe k c p f).groups = s.groups := rfl
@[simp] theorem State.onPipe_teams (k c p : Nat) (f : Pipe → Pipe) : (s.onPipe k c p f).teams = s.teams := rfl
@[simp] theorem State.onPipe_grids (k c p : Nat) (f : Pipe → Pipe) : (s.onPipe k c p f).grids = s.grids := rfl
@[simp] theorem State.onPipe_fabric (k c p : Nat) (f : Pipe → Pipe) : (s.onPipe k c p f).fabric = s.fabric := rfl
@[simp] theorem State.onPipe_md (k c p : Nat) (f : Pipe → Pipe) : (s.onPipe k c p f).md = s.md := rfl
@[simp] theorem State.onPipe_nextId (k c p : Nat) (f : Pipe → Pipe) : (s.onPipe k c p f).nextId = s.nextId := rfl
@[simp] theorem State.onPipe_fresh (k c p : Nat) (f : Pipe → Pipe) : (s.onPipe k c p f).fresh = s.fresh := rfl
@[simp] theorem State.onPipe_agenda (k c p : Nat) (f : Pipe → Pipe) : (s.onPipe k c p f).agenda = s.agenda := rfl

/-! `State.draw` -/

@[simp] theorem State.draw_mem : (s.draw).mem = s.mem := rfl
@[simp] theorem State.draw_me : (s.draw).me = s.me := rfl
@[simp] theorem State.draw_win : (s.draw).win = s.win := rfl
@[simp] theorem State.draw_gr : (s.draw).gr = s.gr := rfl
@[simp] theorem State.draw_splits : (s.draw).splits = s.splits := rfl
@[simp] theorem State.draw_slots : (s.draw).slots = s.slots := rfl
@[simp] theorem State.draw_groups : (s.draw).groups = s.groups := rfl
@[simp] theorem State.draw_teams : (s.draw).teams = s.teams := rfl
@[simp] theorem State.draw_grids : (s.draw).grids = s.grids := rfl
@[simp] theorem State.draw_stks : (s.draw).stks = s.stks := rfl
@[simp] theorem State.draw_fabric : (s.draw).fabric = s.fabric := rfl
@[simp] theorem State.draw_md : (s.draw).md = s.md := rfl
@[simp] theorem State.draw_nextId : (s.draw).nextId = s.nextId := rfl
@[simp] theorem State.draw_agenda : (s.draw).agenda = s.agenda := rfl

/-! `State.onMe` -/

@[simp] theorem State.onMe_mem (f : Split → Split) : (s.onMe f).mem = s.mem := rfl
@[simp] theorem State.onMe_win (f : Split → Split) : (s.onMe f).win = s.win := rfl
@[simp] theorem State.onMe_gr (f : Split → Split) : (s.onMe f).gr = s.gr := rfl
@[simp] theorem State.onMe_splits (f : Split → Split) : (s.onMe f).splits = s.splits := rfl
@[simp] theorem State.onMe_slots (f : Split → Split) : (s.onMe f).slots = s.slots := rfl
@[simp] theorem State.onMe_groups (f : Split → Split) : (s.onMe f).groups = s.groups := rfl
@[simp] theorem State.onMe_teams (f : Split → Split) : (s.onMe f).teams = s.teams := rfl
@[simp] theorem State.onMe_grids (f : Split → Split) : (s.onMe f).grids = s.grids := rfl
@[simp] theorem State.onMe_stks (f : Split → Split) : (s.onMe f).stks = s.stks := rfl
@[simp] theorem State.onMe_fabric (f : Split → Split) : (s.onMe f).fabric = s.fabric := rfl
@[simp] theorem State.onMe_md (f : Split → Split) : (s.onMe f).md = s.md := rfl
@[simp] theorem State.onMe_nextId (f : Split → Split) : (s.onMe f).nextId = s.nextId := rfl
@[simp] theorem State.onMe_fresh (f : Split → Split) : (s.onMe f).fresh = s.fresh := rfl
@[simp] theorem State.onMe_agenda (f : Split → Split) : (s.onMe f).agenda = s.agenda := rfl

/-! `State.setTok` -/

@[simp] theorem State.setTok_mem (k : Tok) (n : Nat) : (s.setTok k n).mem = s.mem := rfl
@[simp] theorem State.setTok_win (k : Tok) (n : Nat) : (s.setTok k n).win = s.win := rfl
@[simp] theorem State.setTok_gr (k : Tok) (n : Nat) : (s.setTok k n).gr = s.gr := rfl
@[simp] theorem State.setTok_splits (k : Tok) (n : Nat) : (s.setTok k n).splits = s.splits := rfl
@[simp] theorem State.setTok_slots (k : Tok) (n : Nat) : (s.setTok k n).slots = s.slots := rfl
@[simp] theorem State.setTok_groups (k : Tok) (n : Nat) : (s.setTok k n).groups = s.groups := rfl
@[simp] theorem State.setTok_teams (k : Tok) (n : Nat) : (s.setTok k n).teams = s.teams := rfl
@[simp] theorem State.setTok_grids (k : Tok) (n : Nat) : (s.setTok k n).grids = s.grids := rfl
@[simp] theorem State.setTok_stks (k : Tok) (n : Nat) : (s.setTok k n).stks = s.stks := rfl
@[simp] theorem State.setTok_fabric (k : Tok) (n : Nat) : (s.setTok k n).fabric = s.fabric := rfl
@[simp] theorem State.setTok_md (k : Tok) (n : Nat) : (s.setTok k n).md = s.md := rfl
@[simp] theorem State.setTok_nextId (k : Tok) (n : Nat) : (s.setTok k n).nextId = s.nextId := rfl
@[simp] theorem State.setTok_fresh (k : Tok) (n : Nat) : (s.setTok k n).fresh = s.fresh := rfl
@[simp] theorem State.setTok_agenda (k : Tok) (n : Nat) : (s.setTok k n).agenda = s.agenda := rfl

/-! `State.land` -/

@[simp] theorem State.land_mem (n : Nat) (ws : List Wr) : (s.land n ws).mem = s.mem := rfl
@[simp] theorem State.land_win (n : Nat) (ws : List Wr) : (s.land n ws).win = s.win := rfl
@[simp] theorem State.land_gr (n : Nat) (ws : List Wr) : (s.land n ws).gr = s.gr := rfl
@[simp] theorem State.land_splits (n : Nat) (ws : List Wr) : (s.land n ws).splits = s.splits := rfl
@[simp] theorem State.land_slots (n : Nat) (ws : List Wr) : (s.land n ws).slots = s.slots := rfl
@[simp] theorem State.land_groups (n : Nat) (ws : List Wr) : (s.land n ws).groups = s.groups := rfl
@[simp] theorem State.land_teams (n : Nat) (ws : List Wr) : (s.land n ws).teams = s.teams := rfl
@[simp] theorem State.land_grids (n : Nat) (ws : List Wr) : (s.land n ws).grids = s.grids := rfl
@[simp] theorem State.land_stks (n : Nat) (ws : List Wr) : (s.land n ws).stks = s.stks := rfl
@[simp] theorem State.land_fabric (n : Nat) (ws : List Wr) : (s.land n ws).fabric = s.fabric := rfl
@[simp] theorem State.land_md (n : Nat) (ws : List Wr) : (s.land n ws).md = s.md := rfl
@[simp] theorem State.land_nextId (n : Nat) (ws : List Wr) : (s.land n ws).nextId = s.nextId := rfl
@[simp] theorem State.land_fresh (n : Nat) (ws : List Wr) : (s.land n ws).fresh = s.fresh := rfl
@[simp] theorem State.land_agenda (n : Nat) (ws : List Wr) : (s.land n ws).agenda = s.agenda := rfl

/-! `State.waitFor` -/

@[simp] theorem State.waitFor_mem (ws : List WaitStep) (k : Cont) : (s.waitFor ws k).mem = s.mem := rfl
@[simp] theorem State.waitFor_win (ws : List WaitStep) (k : Cont) : (s.waitFor ws k).win = s.win := rfl
@[simp] theorem State.waitFor_gr (ws : List WaitStep) (k : Cont) : (s.waitFor ws k).gr = s.gr := rfl
@[simp] theorem State.waitFor_splits (ws : List WaitStep) (k : Cont) : (s.waitFor ws k).splits = s.splits := rfl
@[simp] theorem State.waitFor_slots (ws : List WaitStep) (k : Cont) : (s.waitFor ws k).slots = s.slots := rfl
@[simp] theorem State.waitFor_groups (ws : List WaitStep) (k : Cont) : (s.waitFor ws k).groups = s.groups := rfl
@[simp] theorem State.waitFor_teams (ws : List WaitStep) (k : Cont) : (s.waitFor ws k).teams = s.teams := rfl
@[simp] theorem State.waitFor_grids (ws : List WaitStep) (k : Cont) : (s.waitFor ws k).grids = s.grids := rfl
@[simp] theorem State.waitFor_stks (ws : List WaitStep) (k : Cont) : (s.waitFor ws k).stks = s.stks := rfl
@[simp] theorem State.waitFor_fabric (ws : List WaitStep) (k : Cont) : (s.waitFor ws k).fabric = s.fabric := rfl
@[simp] theorem State.waitFor_md (ws : List WaitStep) (k : Cont) : (s.waitFor ws k).md = s.md := rfl
@[simp] theorem State.waitFor_nextId (ws : List WaitStep) (k : Cont) : (s.waitFor ws k).nextId = s.nextId := rfl
@[simp] theorem State.waitFor_fresh (ws : List WaitStep) (k : Cont) : (s.waitFor ws k).fresh = s.fresh := rfl
@[simp] theorem State.waitFor_agenda (ws : List WaitStep) (k : Cont) : (s.waitFor ws k).agenda = s.agenda := rfl

/-! `State.fresh427` -/

@[simp] theorem State.fresh427_mem : (s.fresh427).mem = s.mem := rfl
@[simp] theorem State.fresh427_win : (s.fresh427).win = s.win := rfl
@[simp] theorem State.fresh427_gr : (s.fresh427).gr = s.gr := rfl
@[simp] theorem State.fresh427_splits : (s.fresh427).splits = s.splits := rfl
@[simp] theorem State.fresh427_slots : (s.fresh427).slots = s.slots := rfl
@[simp] theorem State.fresh427_groups : (s.fresh427).groups = s.groups := rfl
@[simp] theorem State.fresh427_teams : (s.fresh427).teams = s.teams := rfl
@[simp] theorem State.fresh427_grids : (s.fresh427).grids = s.grids := rfl
@[simp] theorem State.fresh427_stks : (s.fresh427).stks = s.stks := rfl
@[simp] theorem State.fresh427_fabric : (s.fresh427).fabric = s.fabric := rfl
@[simp] theorem State.fresh427_md : (s.fresh427).md = s.md := rfl
@[simp] theorem State.fresh427_nextId : (s.fresh427).nextId = s.nextId := rfl
@[simp] theorem State.fresh427_fresh : (s.fresh427).fresh = s.fresh := rfl
@[simp] theorem State.fresh427_agenda : (s.fresh427).agenda = s.agenda := rfl

/-! `State.stall` -/

@[simp] theorem State.stall_mem : (s.stall).mem = s.mem := rfl
@[simp] theorem State.stall_win : (s.stall).win = s.win := rfl
@[simp] theorem State.stall_gr : (s.stall).gr = s.gr := rfl
@[simp] theorem State.stall_splits : (s.stall).splits = s.splits := rfl
@[simp] theorem State.stall_slots : (s.stall).slots = s.slots := rfl
@[simp] theorem State.stall_groups : (s.stall).groups = s.groups := rfl
@[simp] theorem State.stall_teams : (s.stall).teams = s.teams := rfl
@[simp] theorem State.stall_grids : (s.stall).grids = s.grids := rfl
@[simp] theorem State.stall_stks : (s.stall).stks = s.stks := rfl
@[simp] theorem State.stall_fabric : (s.stall).fabric = s.fabric := rfl
@[simp] theorem State.stall_md : (s.stall).md = s.md := rfl
@[simp] theorem State.stall_nextId : (s.stall).nextId = s.nextId := rfl
@[simp] theorem State.stall_fresh : (s.stall).fresh = s.fresh := rfl
@[simp] theorem State.stall_agenda : (s.stall).agenda = s.agenda := rfl

/-! `State.spoil` -/

@[simp] theorem State.spoil_mem : (s.spoil).mem = s.mem := rfl
@[simp] theorem State.spoil_win : (s.spoil).win = s.win := rfl
@[simp] theorem State.spoil_gr : (s.spoil).gr = s.gr := rfl
@[simp] theorem State.spoil_splits : (s.spoil).splits = s.splits := rfl
@[simp] theorem State.spoil_slots : (s.spoil).slots = s.slots := rfl
@[simp] theorem State.spoil_groups : (s.spoil).groups = s.groups := rfl
@[simp] theorem State.spoil_teams : (s.spoil).teams = s.teams := rfl
@[simp] theorem State.spoil_grids : (s.spoil).grids = s.grids := rfl
@[simp] theorem State.spoil_stks : (s.spoil).stks = s.stks := rfl
@[simp] theorem State.spoil_fabric : (s.spoil).fabric = s.fabric := rfl
@[simp] theorem State.spoil_md : (s.spoil).md = s.md := rfl
@[simp] theorem State.spoil_nextId : (s.spoil).nextId = s.nextId := rfl
@[simp] theorem State.spoil_fresh : (s.spoil).fresh = s.fresh := rfl
@[simp] theorem State.spoil_agenda : (s.spoil).agenda = s.agenda := rfl

/-! `State.onOp` -/

@[simp] theorem State.onOp_mem (id : Nat) (f : Op → Op) : (s.onOp id f).mem = s.mem := rfl
@[simp] theorem State.onOp_win (id : Nat) (f : Op → Op) : (s.onOp id f).win = s.win := rfl
@[simp] theorem State.onOp_gr (id : Nat) (f : Op → Op) : (s.onOp id f).gr = s.gr := rfl
@[simp] theorem State.onOp_splits (id : Nat) (f : Op → Op) : (s.onOp id f).splits = s.splits := rfl
@[simp] theorem State.onOp_slots (id : Nat) (f : Op → Op) : (s.onOp id f).slots = s.slots := rfl
@[simp] theorem State.onOp_groups (id : Nat) (f : Op → Op) : (s.onOp id f).groups = s.groups := rfl
@[simp] theorem State.onOp_teams (id : Nat) (f : Op → Op) : (s.onOp id f).teams = s.teams := rfl
@[simp] theorem State.onOp_grids (id : Nat) (f : Op → Op) : (s.onOp id f).grids = s.grids := rfl
@[simp] theorem State.onOp_stks (id : Nat) (f : Op → Op) : (s.onOp id f).stks = s.stks := rfl
@[simp] theorem State.onOp_fabric (id : Nat) (f : Op → Op) : (s.onOp id f).fabric = s.fabric := rfl
@[simp] theorem State.onOp_md (id : Nat) (f : Op → Op) : (s.onOp id f).md = s.md := rfl
@[simp] theorem State.onOp_nextId (id : Nat) (f : Op → Op) : (s.onOp id f).nextId = s.nextId := rfl
@[simp] theorem State.onOp_fresh (id : Nat) (f : Op → Op) : (s.onOp id f).fresh = s.fresh := rfl
@[simp] theorem State.onOp_agenda (id : Nat) (f : Op → Op) : (s.onOp id f).agenda = s.agenda := rfl

/-! `State.putOp` -/

@[simp] theorem State.putOp_mem (o : Op) : (s.putOp o).mem = s.mem := rfl
@[simp] theorem State.putOp_win (o : Op) : (s.putOp o).win = s.win := rfl
@[simp] theorem State.putOp_gr (o : Op) : (s.putOp o).gr = s.gr := rfl
@[simp] theorem State.putOp_splits (o : Op) : (s.putOp o).splits = s.splits := rfl
@[simp] theorem State.putOp_slots (o : Op) : (s.putOp o).slots = s.slots := rfl
@[simp] theorem State.putOp_groups (o : Op) : (s.putOp o).groups = s.groups := rfl
@[simp] theorem State.putOp_teams (o : Op) : (s.putOp o).teams = s.teams := rfl
@[simp] theorem State.putOp_grids (o : Op) : (s.putOp o).grids = s.grids := rfl
@[simp] theorem State.putOp_stks (o : Op) : (s.putOp o).stks = s.stks := rfl
@[simp] theorem State.putOp_fabric (o : Op) : (s.putOp o).fabric = s.fabric := rfl
@[simp] theorem State.putOp_md (o : Op) : (s.putOp o).md = s.md := rfl
@[simp] theorem State.putOp_nextId (o : Op) : (s.putOp o).nextId = s.nextId := rfl
@[simp] theorem State.putOp_fresh (o : Op) : (s.putOp o).fresh = s.fresh := rfl
@[simp] theorem State.putOp_agenda (o : Op) : (s.putOp o).agenda = s.agenda := rfl

/-! `State.dropOp` -/

@[simp] theorem State.dropOp_mem (id : Nat) : (s.dropOp id).mem = s.mem := rfl
@[simp] theorem State.dropOp_win (id : Nat) : (s.dropOp id).win = s.win := rfl
@[simp] theorem State.dropOp_gr (id : Nat) : (s.dropOp id).gr = s.gr := rfl
@[simp] theorem State.dropOp_splits (id : Nat) : (s.dropOp id).splits = s.splits := rfl
@[simp] theorem State.dropOp_slots (id : Nat) : (s.dropOp id).slots = s.slots := rfl
@[simp] theorem State.dropOp_groups (id : Nat) : (s.dropOp id).groups = s.groups := rfl
@[simp] theorem State.dropOp_teams (id : Nat) : (s.dropOp id).teams = s.teams := rfl
@[simp] theorem State.dropOp_grids (id : Nat) : (s.dropOp id).grids = s.grids := rfl
@[simp] theorem State.dropOp_stks (id : Nat) : (s.dropOp id).stks = s.stks := rfl
@[simp] theorem State.dropOp_fabric (id : Nat) : (s.dropOp id).fabric = s.fabric := rfl
@[simp] theorem State.dropOp_md (id : Nat) : (s.dropOp id).md = s.md := rfl
@[simp] theorem State.dropOp_nextId (id : Nat) : (s.dropOp id).nextId = s.nextId := rfl
@[simp] theorem State.dropOp_fresh (id : Nat) : (s.dropOp id).fresh = s.fresh := rfl
@[simp] theorem State.dropOp_agenda (id : Nat) : (s.dropOp id).agenda = s.agenda := rfl

/-! `State.setEntries` -/

@[simp] theorem State.setEntries_mem (es : List Entry) : (s.setEntries es).mem = s.mem := rfl
@[simp] theorem State.setEntries_me (es : List Entry) : (s.setEntries es).me = s.me := rfl
@[simp] theorem State.setEntries_gr (es : List Entry) : (s.setEntries es).gr = s.gr := rfl
@[simp] theorem State.setEntries_splits (es : List Entry) : (s.setEntries es).splits = s.splits := rfl
@[simp] theorem State.setEntries_slots (es : List Entry) : (s.setEntries es).slots = s.slots := rfl
@[simp] theorem State.setEntries_groups (es : List Entry) : (s.setEntries es).groups = s.groups := rfl
@[simp] theorem State.setEntries_teams (es : List Entry) : (s.setEntries es).teams = s.teams := rfl
@[simp] theorem State.setEntries_grids (es : List Entry) : (s.setEntries es).grids = s.grids := rfl
@[simp] theorem State.setEntries_stks (es : List Entry) : (s.setEntries es).stks = s.stks := rfl
@[simp] theorem State.setEntries_fabric (es : List Entry) : (s.setEntries es).fabric = s.fabric := rfl
@[simp] theorem State.setEntries_md (es : List Entry) : (s.setEntries es).md = s.md := rfl
@[simp] theorem State.setEntries_nextId (es : List Entry) : (s.setEntries es).nextId = s.nextId := rfl
@[simp] theorem State.setEntries_fresh (es : List Entry) : (s.setEntries es).fresh = s.fresh := rfl
@[simp] theorem State.setEntries_agenda (es : List Entry) : (s.setEntries es).agenda = s.agenda := rfl

/-! `State.push` -/

@[simp] theorem State.push_mem (e : Entry) : (s.push e).mem = s.mem := rfl
@[simp] theorem State.push_me (e : Entry) : (s.push e).me = s.me := rfl
@[simp] theorem State.push_gr (e : Entry) : (s.push e).gr = s.gr := rfl
@[simp] theorem State.push_splits (e : Entry) : (s.push e).splits = s.splits := rfl
@[simp] theorem State.push_slots (e : Entry) : (s.push e).slots = s.slots := rfl
@[simp] theorem State.push_groups (e : Entry) : (s.push e).groups = s.groups := rfl
@[simp] theorem State.push_teams (e : Entry) : (s.push e).teams = s.teams := rfl
@[simp] theorem State.push_grids (e : Entry) : (s.push e).grids = s.grids := rfl
@[simp] theorem State.push_stks (e : Entry) : (s.push e).stks = s.stks := rfl
@[simp] theorem State.push_fabric (e : Entry) : (s.push e).fabric = s.fabric := rfl
@[simp] theorem State.push_md (e : Entry) : (s.push e).md = s.md := rfl
@[simp] theorem State.push_nextId (e : Entry) : (s.push e).nextId = s.nextId := rfl
@[simp] theorem State.push_fresh (e : Entry) : (s.push e).fresh = s.fresh := rfl
@[simp] theorem State.push_agenda (e : Entry) : (s.push e).agenda = s.agenda := rfl

/-! `State.send` -/

@[simp] theorem State.send_mem (a b : Nat) (p : Payload) : (s.send a b p).mem = s.mem := rfl
@[simp] theorem State.send_me (a b : Nat) (p : Payload) : (s.send a b p).me = s.me := rfl
@[simp] theorem State.send_win (a b : Nat) (p : Payload) : (s.send a b p).win = s.win := rfl
@[simp] theorem State.send_gr (a b : Nat) (p : Payload) : (s.send a b p).gr = s.gr := rfl
@[simp] theorem State.send_splits (a b : Nat) (p : Payload) : (s.send a b p).splits = s.splits := rfl
@[simp] theorem State.send_slots (a b : Nat) (p : Payload) : (s.send a b p).slots = s.slots := rfl
@[simp] theorem State.send_groups (a b : Nat) (p : Payload) : (s.send a b p).groups = s.groups := rfl
@[simp] theorem State.send_teams (a b : Nat) (p : Payload) : (s.send a b p).teams = s.teams := rfl
@[simp] theorem State.send_grids (a b : Nat) (p : Payload) : (s.send a b p).grids = s.grids := rfl
@[simp] theorem State.send_stks (a b : Nat) (p : Payload) : (s.send a b p).stks = s.stks := rfl
@[simp] theorem State.send_md (a b : Nat) (p : Payload) : (s.send a b p).md = s.md := rfl
@[simp] theorem State.send_nextId (a b : Nat) (p : Payload) : (s.send a b p).nextId = s.nextId := rfl
@[simp] theorem State.send_fresh (a b : Nat) (p : Payload) : (s.send a b p).fresh = s.fresh := rfl
@[simp] theorem State.send_agenda (a b : Nat) (p : Payload) : (s.send a b p).agenda = s.agenda := rfl

/-! `State.onGrid` -/

@[simp] theorem State.onGrid_mem (id : Nat) (f : Grid → Grid) : (s.onGrid id f).mem = s.mem := rfl
@[simp] theorem State.onGrid_me (id : Nat) (f : Grid → Grid) : (s.onGrid id f).me = s.me := rfl
@[simp] theorem State.onGrid_win (id : Nat) (f : Grid → Grid) : (s.onGrid id f).win = s.win := rfl
@[simp] theorem State.onGrid_gr (id : Nat) (f : Grid → Grid) : (s.onGrid id f).gr = s.gr := rfl
@[simp] theorem State.onGrid_splits (id : Nat) (f : Grid → Grid) : (s.onGrid id f).splits = s.splits := rfl
@[simp] theorem State.onGrid_slots (id : Nat) (f : Grid → Grid) : (s.onGrid id f).slots = s.slots := rfl
@[simp] theorem State.onGrid_groups (id : Nat) (f : Grid → Grid) : (s.onGrid id f).groups = s.groups := rfl
@[simp] theorem State.onGrid_teams (id : Nat) (f : Grid → Grid) : (s.onGrid id f).teams = s.teams := rfl
@[simp] theorem State.onGrid_stks (id : Nat) (f : Grid → Grid) : (s.onGrid id f).stks = s.stks := rfl
@[simp] theorem State.onGrid_fabric (id : Nat) (f : Grid → Grid) : (s.onGrid id f).fabric = s.fabric := rfl
@[simp] theorem State.onGrid_md (id : Nat) (f : Grid → Grid) : (s.onGrid id f).md = s.md := rfl
@[simp] theorem State.onGrid_nextId (id : Nat) (f : Grid → Grid) : (s.onGrid id f).nextId = s.nextId := rfl
@[simp] theorem State.onGrid_fresh (id : Nat) (f : Grid → Grid) : (s.onGrid id f).fresh = s.fresh := rfl
@[simp] theorem State.onGrid_agenda (id : Nat) (f : Grid → Grid) : (s.onGrid id f).agenda = s.agenda := rfl

/-! `State.onTeam` -/

@[simp] theorem State.onTeam_mem (g n : Nat) (f : Team → Team) : (s.onTeam g n f).mem = s.mem := rfl
@[simp] theorem State.onTeam_me (g n : Nat) (f : Team → Team) : (s.onTeam g n f).me = s.me := rfl
@[simp] theorem State.onTeam_win (g n : Nat) (f : Team → Team) : (s.onTeam g n f).win = s.win := rfl
@[simp] theorem State.onTeam_gr (g n : Nat) (f : Team → Team) : (s.onTeam g n f).gr = s.gr := rfl
@[simp] theorem State.onTeam_splits (g n : Nat) (f : Team → Team) : (s.onTeam g n f).splits = s.splits := rfl
@[simp] theorem State.onTeam_slots (g n : Nat) (f : Team → Team) : (s.onTeam g n f).slots = s.slots := rfl
@[simp] theorem State.onTeam_groups (g n : Nat) (f : Team → Team) : (s.onTeam g n f).groups = s.groups := rfl
@[simp] theorem State.onTeam_grids (g n : Nat) (f : Team → Team) : (s.onTeam g n f).grids = s.grids := rfl
@[simp] theorem State.onTeam_stks (g n : Nat) (f : Team → Team) : (s.onTeam g n f).stks = s.stks := rfl
@[simp] theorem State.onTeam_fabric (g n : Nat) (f : Team → Team) : (s.onTeam g n f).fabric = s.fabric := rfl
@[simp] theorem State.onTeam_md (g n : Nat) (f : Team → Team) : (s.onTeam g n f).md = s.md := rfl
@[simp] theorem State.onTeam_nextId (g n : Nat) (f : Team → Team) : (s.onTeam g n f).nextId = s.nextId := rfl
@[simp] theorem State.onTeam_fresh (g n : Nat) (f : Team → Team) : (s.onTeam g n f).fresh = s.fresh := rfl
@[simp] theorem State.onTeam_agenda (g n : Nat) (f : Team → Team) : (s.onTeam g n f).agenda = s.agenda := rfl

/-! What the updates of the split in focus do to it -/

@[simp] theorem State.fresh427_me : s.fresh427.me = { s.me with resume := 0, stalled := false } := rfl
@[simp] theorem State.stall_me : s.stall.me = { s.me with stalled := true } := rfl
@[simp] theorem State.waitFor_me (ws : List WaitStep) (k : Cont) :
    (s.waitFor ws k).me = { s.me with status := .wait ws k } := rfl
@[simp] theorem State.land_me (n : Nat) (ws : List Wr) : (s.land n ws).me =
    { s.me with results := s.me.results ++ ws.map fun w => { due := s.myCore.cycle + n, wr := w } } := rfl
@[simp] theorem State.setEntries_win (es : List Entry) : (s.setEntries es).win = { s.win with entries := es } := rfl
@[simp] theorem State.setTok_me (k : Tok) (n : Nat) : (s.setTok k n).me = { s.me with toks := vset s.me.toks k.val n } := rfl

end Sys2Proof.Machine
end

