-- ==== Sys2Proof/Laws/Encode.lean ====
section
/-! SUPPORT. Laws/Encode.lean: the fields of an instruction's words (R99 to R105): what the parts of the
encoder leave alone, and that fields within their bits are read back from the words that they make. -/

namespace Sys2Proof

@[simp] theorem rP_val (n : Fin 8) : rP n.val = n := by apply Fin.ext; simp [rP]
@[simp] theorem n2b_b2n (b : Bool) : n2b (b2n b) = b := by cases b <;> rfl
/-- The guard and end-of-run flag of a record of fields that were built from `h`. -/
theorem hd_fields (h : Hd) : (⟨rP h.g.val, n2b (b2n h.e)⟩ : Hd) = h := by obtain ⟨g, e⟩ := h; simp

@[simp] theorem hdF_hd (h : Hd) (op len : Nat) : (hdF h op len).hd = h :=
  hd_fields h

@[simp] theorem putB_hd (f : Fields) (b : OpB) : (f.putB b).hd = f.hd := by cases b <;> rfl
@[simp] theorem putSB_hd (f : Fields) (b : SB) : (f.putSB b).hd = f.hd := by cases b <;> rfl
@[simp] theorem putCarry_hd (f : Fields) (c : Carry) : (f.putCarry c).hd = f.hd := by cases c <;> rfl
@[simp] theorem putAddr_hd (f : Fields) (m : Addr) : (f.putAddr m).hd = f.hd := by
  unfold Fields.putAddr; split <;> rfl
@[simp] theorem putAcq_hd (f : Fields) (a : Option Scope) : (f.putAcq a).hd = f.hd := by cases a <;> rfl
@[simp] theorem putRel_hd (f : Fields) (a : Option Scope) : (f.putRel a).hd = f.hd := by cases a <;> rfl
@[simp] theorem putOrd_hd (f : Fields) (o : Ord) : (f.putOrd o).hd = f.hd := rfl
@[simp] theorem putDr_hd (f : Fields) (d : DrDst) : (f.putDr d).hd = f.hd := by cases d <;> rfl
@[simp] theorem bwtF_hd (f : Fields) (x : Option Word) : (bwtF f x).hd = f.hd := by cases x <;> rfl

theorem Fields.hd_congr {f g : Fields} (hg : f.g = g.g) (he : f.e = g.e) : f.hd = g.hd := by
  unfold Fields.hd; rw [hg, he]

@[simp] theorem sopF_hd (f : Fields) (op : SOp) : (sopF f op).hd = f.hd := by
  cases op <;> simp only [sopF, putSB_hd, putCarry_hd] <;> (try split) <;> rfl

namespace Machine

@[simp] theorem hdOf_va (x : VA) (op len : Nat) : (vaF x op len).hd = x.h := by
  unfold vaF; rw [putB_hd]; exact hdF_hd x.h op len
@[simp] theorem hdOf_scalarForm (h : Hd) (ty : ITy) (op : SOp) : hdOf (.scalarForm h ty op) = h := by
  unfold hdOf encodeF; rw [sopF_hd]; exact hdF_hd h 0x3E 2
@[simp] theorem hdOf_movX (h : Hd) (m : MovX) : hdOf (.movX h m) = h := by
  cases m <;> simp only [hdOf, encodeF, movXF, putB_hd] <;> exact hdF_hd h 0x37 2
@[simp] theorem hdOf_movsX (h : Hd) (m : MovsX) : hdOf (.movsX h m) = h := by
  cases m <;> exact hdF_hd h 0x39 2
@[simp] theorem hdOf_voteX (h : Hd) (m : VoteX) : hdOf (.voteX h m) = h := by
  cases m <;> exact hdF_hd h 0x3B 2

end Machine

/-! ### Bounds of the codes -/

theorem b2n_lt (b : Bool) : b2n b < 2 := by cases b <;> decide
theorem ITy.code_lt (x : ITy) : x.code < 8 := by cases x <;> decide
theorem FTy.code_lt (x : FTy) : x.code < 16 := by cases x <;> decide
theorem ETy.code_lt (x : ETy) : x.code < 32 := by cases x <;> decide
theorem MTy.code_lt (x : MTy) : x.code < 16 := by cases x <;> decide
theorem Rnd.code_lt (x : Rnd) : x.code < 8 := by cases x <;> decide
theorem Scope.code_lt (x : Scope) : x.code < 8 := by cases x <;> decide
theorem CC.code_lt (x : CC) : x.code < 8 := by cases x <;> decide
theorem FCC.code_lt (x : FCC) : x.code < 8 := by cases x <;> decide
theorem PFn.code_lt (x : PFn) : x.code < 8 := by cases x <;> decide
theorem UFn.code_lt (x : UFn) : x.code < 6 := by cases x <;> decide
theorem LOp.code_lt (x : LOp) : x.code < 6 := by cases x <;> decide
theorem ShVar.code_lt (x : ShVar) : x.code < 4 := by cases x <;> decide
theorem SBin.code_lt (x : SBin) : x.code < 64 := by cases x <;> decide
theorem SpecReg.code_lt (x : SpecReg) : x.code < 64 := by cases x <;> decide
theorem IcLevel.code_lt (x : IcLevel) : x.code < 4 := by cases x <;> decide
theorem TlbiVar.code_lt (x : TlbiVar) : x.code < 4 := by cases x <;> decide
theorem FenceKind.code_lt (x : FenceKind) : x.code < 4 := by cases x <;> decide
theorem AtOp.code_lt (x : AtOp) : x.code < 16 := by cases x <;> decide
theorem Shape.code_lt (x : Shape) : x.code < 4 := by cases x <;> decide
theorem SwRule.code_lt (x : SwRule) : x.code < 4 := by cases x <;> decide
theorem SwmForm.code_lt (x : SwmForm) : x.code < 4 := by cases x <;> decide

/-! ### Words made of fields -/

/-- Every field is within its bits, and what the length code does not bring is zero. -/
structure Fields.Fits (f : Fields) : Prop where
  w0 : f.len < 4 ∧ f.e < 2 ∧ f.op < 128 ∧ f.g < 8 ∧ f.d < 64 ∧ f.a < 64 ∧ f.b < 64 ∧ f.bk < 2
  w1 : f.c < 64 ∧ f.tok < 8 ∧ f.ty < 16 ∧ f.rnd < 8 ∧ f.scope < 8 ∧ f.sat < 2 ∧ f.rel < 2 ∧ f.acq < 2 ∧ f.fs < 4 ∧ f.sub < 256
  imm : f.imm < 4294967296
  lit : f.lit < 18446744073709551616
  ext : hasExt f.len = false → f.c = 0 ∧ f.tok = 0 ∧ f.ty = 0 ∧ f.rnd = 0 ∧ f.scope = 0 ∧ f.sat = 0 ∧ f.rel = 0 ∧ f.acq = 0
    ∧ f.fs = 0 ∧ f.sub = 0 ∧ f.imm = 0
  nolit : hasLit f.len = false → f.lit = 0

theorem Fields.word0_lt {f : Fields} (h : f.Fits) : f.word0 < 4294967296 := by
  obtain ⟨a, b, c, d, e, g, i, j⟩ := h.w0
  unfold Fields.word0
  norm_num
  omega

theorem Fields.word1_lt {f : Fields} (h : f.Fits) : f.word1 < 4294967296 := by
  obtain ⟨a, b, c, d, e, g, i, j, k, l⟩ := h.w1
  unfold Fields.word1
  norm_num
  omega

theorem Fields.pack_split {f : Fields} (h : f.Fits) : ∃ r, f.pack = f.word0 + 4294967296 * r
    ∧ (hasExt f.len = true → r % 4294967296 = f.word1 ∧ r / 4294967296 % 4294967296 = f.imm
        ∧ (hasLit f.len = true → r / 18446744073709551616 % 18446744073709551616 = f.lit))
    ∧ (hasExt f.len = false → hasLit f.len = true → r % 18446744073709551616 = f.lit) := by
  have h1 := word1_lt h
  have h2 := h.imm
  have h3 := h.lit
  unfold Fields.pack
  cases hx : hasExt f.len <;> cases hl : hasLit f.len
  · exact ⟨0, by simp, by simp, by simp⟩
  · refine ⟨f.lit, by norm_num, by simp, fun _ _ => ?_⟩
    omega
  · refine ⟨f.word1 + 4294967296 * f.imm, by norm_num; omega, fun _ => ⟨by omega, by omega, by simp⟩, by simp⟩
  · refine ⟨f.word1 + 4294967296 * f.imm + 18446744073709551616 * f.lit, by norm_num; omega, fun _ => ⟨by omega, by omega, fun _ => by omega⟩, by simp⟩

/-- The fields of an instruction's words are the fields that the words were made of. -/
theorem Fields.unpack_pack {f : Fields} (h : f.Fits) : Fields.unpack f.pack = f := by
  obtain ⟨r, hr, he, hl⟩ := pack_split h
  obtain ⟨a0, a1, a2, a3, a4, a5, a6, a7⟩ := h.w0
  obtain ⟨b0, b1, b2, b3, b4, b5, b6, b7, b8, b9⟩ := h.w1
  have k0 : f.word0 = f.len + 4 * f.e + 8 * f.op + 1024 * f.g + 8192 * f.d + 524288 * f.a + 33554432 * f.b
      + 2147483648 * f.bk := by unfold word0; norm_num
  have k1 : f.word1 = f.c + 64 * f.tok + 512 * f.ty + 8192 * f.rnd + 65536 * f.scope + 524288 * f.sat + 1048576 * f.rel
      + 2097152 * f.acq + 4194304 * f.fs + 16777216 * f.sub := by unfold word1; norm_num
  have len : f.pack % 4 = f.len := by omega
  have low : f.pack % 4294967296 = f.word0 := by omega
  have e1 : f.pack / 4294967296 = r := by omega
  unfold Fields.unpack
  norm_num only
  rw [len]
  have q1 : f.pack / 18446744073709551616 = r / 4294967296 := by omega
  have q2 : f.pack / 79228162514264337593543950336 = r / 18446744073709551616 := by omega
  have w : (if hasExt f.len then f.pack / 4294967296 % 4294967296 else 0) = f.word1 := by
    cases hx : hasExt f.len
    · obtain ⟨c0, c1, c2, c3, c4, c5, c6, c7, c8, c9, c10⟩ := h.ext hx
      simp; omega
    · rw [e1]; simp [(he hx).1]
  have im : (if hasExt f.len then f.pack / 18446744073709551616 % 4294967296 else 0) = f.imm := by
    cases hx : hasExt f.len
    · simp [(h.ext hx).2.2.2.2.2.2.2.2.2.2]
    · rw [q1]; simp [(he hx).2.1]
  have li : (if hasLit f.len then (if hasExt f.len then f.pack / 79228162514264337593543950336 % 18446744073709551616
      else f.pack / 4294967296 % 18446744073709551616) else 0) = f.lit := by
    cases hv : hasLit f.len
    · simp [h.nolit hv]
    · cases hx : hasExt f.len
      · rw [e1]; simp [hl hx hv]
      · rw [q2]; simp [(he hx).2.2 hv]
  rw [w, im, li]
  obtain ⟨len', e, op, g, d, a, b, bk, c, tok, ty, rnd, scope, sat, rel, acq, fs, sub, imm, lit⟩ := f
  simp only [Fields.mk.injEq] at *
  and_intros <;> first | trivial | omega

end Sys2Proof
end

