-- ==== Sys2Proof/Laws/Run.lean ====
section
/-! SUPPORT. Laws/Run.lean: what going on in a run, ending it, and the issue of an instruction do, once for every instruction
(R47, R67, R70, R114, R124, R409). -/

namespace Sys2Proof.Machine

/-! ### An update that changes nothing -/

theorem vset_vget {α : Type} {n : Nat} (v : Vector α n) (i : Nat) (d : α) : vset v i (vget v i d) = v := by
  unfold vset vget
  ext j hj
  by_cases h : i = j
  · subst h; simp [hj]
  · simp [h]

theorem onStk_same (s : State) (k : Nat) (f : StackSt → StackSt) (h : f (s.stk k) = s.stk k) :
    (s.onStk k f).stks = s.stks := by
  show vset s.stks k (f (s.stk k)) = s.stks
  rw [h]; exact vset_vget _ _ _

theorem onCore_same (s : State) (k c : Nat) (f : Core → Core) (h : f (s.core k c) = s.core k c) :
    (s.onCore k c f).stks = s.stks :=
  onStk_same s k _ (congrArg (fun x => ({ s.stk k with cores := x } : StackSt))
    ((congrArg (vset (s.stk k).cores c) h).trans (vset_vget _ _ _)))

theorem onPipe_id (s : State) (k c p : Nat) : (s.onPipe k c p id).stks = s.stks :=
  onCore_same s k c _ (congrArg (fun x => ({ s.core k c with pipes := x } : Core)) (vset_vget _ _ _))

/-! ### Masked steps (R47) -/

/-- A masked step changes the running lanes, the PC and the entries only. -/
theorem maskedStep_shape (s : State) : ∃ a pc es, s.maskedStep =
    { s with me := { s.me with act := a, pc := pc }, win := { s.win with entries := es } } := by
  unfold State.maskedStep
  split
  · exact ⟨s.me.act, s.me.pc, s.win.entries, rfl⟩
  · exact ⟨_, _, _, rfl⟩

theorem settleMask_shape (n : Nat) (s : State) : ∃ a pc es, s.settleMask n =
    { s with me := { s.me with act := a, pc := pc }, win := { s.win with entries := es } } := by
  induction n generalizing s with
  | zero => exact ⟨s.me.act, s.me.pc, s.win.entries, rfl⟩
  | succ n ih =>
    unfold State.settleMask
    split
    · obtain ⟨a, pc, es, h⟩ := maskedStep_shape s
      obtain ⟨a', pc', es', h'⟩ := ih s.maskedStep
      exact ⟨a', pc', es', by rw [h', h]⟩
    · exact ⟨s.me.act, s.me.pc, s.win.entries, rfl⟩

/-- Where the next PC is not the reconvergence address of the newest entry, no masked step is taken. -/
theorem settleMask_straight (n : Nat) (s : State) (h : s.Straight s.me.pc) : s.settleMask n = s := by
  cases n with
  | zero => rfl
  | succ n => unfold State.settleMask; rw [if_neg h]

/-! ### The end of a run (R68, R406) -/

theorem endRun_shape (s : State) : ∃ r n w sl pd ck f, s.endRun =
    { s with
      me := { s.me with inRun := r, runLen := n, wasReady := w, slice := sl, pend := pd },
      win := { s.win with check := ck },
      stks := (s.onPipe s.me.stack s.me.core s.myPipe f).stks } := by
  unfold State.endRun
  split
  · exact ⟨s.me.inRun, s.me.runLen, s.me.wasReady, s.me.slice, s.me.pend, s.win.check, id, by rw [onPipe_id]⟩
  · exact ⟨false, 0, false, _, _, true, fun p => { p with run := none, ends := p.ends + 1 }, rfl⟩

/-- Setting the next PC: masked steps and the end of the run, and nothing else. -/
theorem settled_shape (s : State) (b : Bool) : ∃ a pc es r n w sl pd ck f, s.settled b =
    { s with
      me := { s.me with act := a, pc := pc, inRun := r, runLen := n, wasReady := w, slice := sl, pend := pd },
      win := { s.win with entries := es, check := ck },
      stks := (s.onPipe s.me.stack s.me.core s.myPipe f).stks } := by
  obtain ⟨a, pc, es, h⟩ := settleMask_shape 64 s
  unfold State.settled
  dsimp only
  split
  · obtain ⟨r, n, w, sl, pd, ck, f, hf⟩ := endRun_shape (s.settleMask 64)
    exact ⟨a, pc, es, r, n, w, sl, pd, ck, f, by rw [hf, h]; rfl⟩
  · exact ⟨a, pc, es, s.me.inRun, s.me.runLen, s.me.wasReady, s.me.slice, s.me.pend, s.win.check, id,
      by rw [h, onPipe_id]⟩

theorem settled_straight (s : State) (b : Bool) (h : s.Straight s.me.pc) :
    s.settled b = if b then s.endRun else s := by
  unfold State.settled
  rw [settleMask_straight 64 s h]
  cases b <;> simp

@[simp] theorem endRun_pc (s : State) : s.endRun.me.pc = s.me.pc := by
  obtain ⟨r, n, w, sl, pd, ck, f, h⟩ := endRun_shape s; rw [h]
@[simp] theorem endRun_act (s : State) : s.endRun.me.act = s.me.act := by
  obtain ⟨r, n, w, sl, pd, ck, f, h⟩ := endRun_shape s; rw [h]
@[simp] theorem endRun_entries (s : State) : s.endRun.win.entries = s.win.entries := by
  obtain ⟨r, n, w, sl, pd, ck, f, h⟩ := endRun_shape s; rw [h]
@[simp] theorem endRun_status (s : State) : s.endRun.me.status = s.me.status := by
  obtain ⟨r, n, w, sl, pd, ck, f, h⟩ := endRun_shape s; rw [h]
@[simp] theorem endRun_mem (s : State) : s.endRun.mem = s.mem := by
  obtain ⟨r, n, w, sl, pd, ck, f, h⟩ := endRun_shape s; rw [h]
theorem endRun_inRun (s : State) : s.endRun.me.inRun = false := by
  unfold State.endRun
  split
  · assumption
  · rfl

/-! ### Going on -/

/-- A state that differs from `s` in what `Moved` allows, the stacks apart. -/
structure Near (s u : State) : Prop where
  rest : u = { s with me := u.me, win := u.win, nextId := u.nextId, fresh := u.fresh }
  me : u.me = { s.me with
    pc := u.me.pc, act := u.me.act, toks := u.me.toks, slice := u.me.slice, resume := u.me.resume, status := u.me.status,
    inRun := u.me.inRun, stalled := u.me.stalled, runLen := u.me.runLen, wasReady := u.me.wasReady, results := u.me.results,
    ops := u.me.ops, spin := u.me.spin, pend := u.me.pend }
  win : u.win = { s.win with entries := u.win.entries, check := u.win.check }

theorem Near.refl (s : State) : Near s s := ⟨rfl, rfl, rfl⟩

theorem onPipe_stks_congr {s u : State} (h : u.stks = s.stks) (k c p : Nat) (f : Pipe → Pipe) :
    (u.onPipe k c p f).stks = (s.onPipe k c p f).stks := by
  simp only [State.onPipe, State.onCore, State.onStk, State.stk, h]

theorem Near.settled {s u : State} (n : Near s u) (b : Bool) : Moved s (u.settled b) := by
  obtain ⟨a, pc, es, r, m, w, sl, pd, ck, f, h⟩ := settled_shape u b
  have hme := n.me
  have hm : u.mem = s.mem := by rw [n.rest]
  have h1 : u.gr = s.gr := by rw [n.rest]
  have h2 : u.splits = s.splits := by rw [n.rest]
  have h3 : u.slots = s.slots := by rw [n.rest]
  have h4 : u.groups = s.groups := by rw [n.rest]
  have h5 : u.teams = s.teams := by rw [n.rest]
  have h6 : u.grids = s.grids := by rw [n.rest]
  have h7 : u.fabric = s.fabric := by rw [n.rest]
  have h8 : u.md = s.md := by rw [n.rest]
  have h9 : u.agenda = s.agenda := by rw [n.rest]
  have h10 : u.stks = s.stks := by rw [n.rest]
  have hst : u.me.stack = s.me.stack := by rw [hme]
  have hco : u.me.core = s.me.core := by rw [hme]
  have hsl : u.myPipe = s.myPipe := by unfold State.myPipe; rw [hme]
  rw [h]
  exact
    { mem := hm
      bytes := fun x => congrArg (fun m => Memory.byte m x) hm
      me := by dsimp only; rw [hme]
      win := by rw [n.win]
      gr := h1
      splits := h2
      slots := h3
      groups := h4
      teams := h5
      grids := h6
      stks := ⟨f, by
        show (u.onPipe u.me.stack u.me.core u.myPipe f).stks = _
        rw [hst, hco, hsl]; exact onPipe_stks_congr h10 _ _ _ _⟩
      fabric := h7
      md := h8
      agenda := h9 }

/-- What going on keeps of the split beside its PC, lanes and entries. -/
theorem settled_keeps (s : State) (b : Bool) : (s.settled b).me.toks = s.me.toks ∧ (s.settled b).me.ops = s.me.ops
    ∧ (s.settled b).me.results = s.me.results ∧ (s.settled b).me.status = s.me.status
    ∧ (s.settled b).me.resume = s.me.resume ∧ (s.settled b).me.stalled = s.me.stalled := by
  obtain ⟨a, pc, es, r, m, w, sl, pd, ck, f, h⟩ := settled_shape s b
  rw [h]; exact ⟨rfl, rfl, rfl, rfl, rfl, rfl⟩

theorem settled_goes (s : State) (b : Bool) : GoesTo s (s.settled b) s.me.pc := by
  have hst := (settled_keeps s b).2.2.2.1
  exact
    { pc := fun h => by rw [settled_straight s b h]; cases b <;> simp
      act := fun h => by rw [settled_straight s b h]; cases b <;> simp
      entries := fun h => by rw [settled_straight s b h]; cases b <;> simp
      status := hst }

/-- The state that `retire` settles. -/
def State.stepped (s : State) (n : Nat) : State :=
  { s with me := { s.me with pc := s.me.pc + BitVec.ofNat 64 n, runLen := s.me.runLen + 1 } }

theorem retire_eq (s : State) (h : Hd) (n : Nat) :
    s.retire h n = (s.stepped n).settled (h.e || 24 ≤ s.me.runLen + 1) := rfl

theorem Near.stepped {s u : State} (n : Near s u) (k : Nat) : Near s (u.stepped k) :=
  ⟨by rw [State.stepped, n.rest], by rw [State.stepped, n.me], n.win⟩

/-- After `retire` the split goes on with the next instruction. -/
theorem Near.retire_goes {s u : State} (n : Near s u) (h : Hd) (k : Nat) (hpc : u.me.pc = s.me.pc)
    (ha : u.me.act = s.me.act) (he : u.win.entries = s.win.entries) (hs : u.me.status = s.me.status) :
    GoesTo s (u.retire h k) (s.me.pc + BitVec.ofNat 64 k) := by
  have g := settled_goes (u.stepped k) (h.e || 24 ≤ u.me.runLen + 1)
  have hx : (u.stepped k).me.pc = s.me.pc + BitVec.ofNat 64 k := by rw [State.stepped, ← hpc]
  have hown : (u.stepped k).own = s.own := by
    have hn : (u.stepped k).me.num = s.me.num := by rw [State.stepped, n.me]
    unfold State.own
    rw [hn]
    exact congrArg _ he
  have hst : s.Straight (s.me.pc + BitVec.ofNat 64 k) → (u.stepped k).Straight (u.stepped k).me.pc := by
    unfold State.Straight
    rw [hown, hx]; exact id
  rw [retire_eq]
  exact
    { pc := fun q => (g.pc (hst q)).trans hx
      act := fun q => (g.act (hst q)).trans ha
      entries := fun q => (g.entries (hst q)).trans he
      status := g.status.trans hs }

theorem Near.retire_moved {s u : State} (n : Near s u) (h : Hd) (k : Nat) : Moved s (u.retire h k) :=
  (n.stepped k).settled _

/-- `retire` keeps the tokens, the outstanding operations and the results in flight. -/
theorem retire_keeps (s : State) (h : Hd) (n : Nat) : (s.retire h n).me.toks = s.me.toks
    ∧ (s.retire h n).me.ops = s.me.ops ∧ (s.retire h n).me.results = s.me.results := by
  have k := settled_keeps (s.stepped n) (h.e || 24 ≤ s.me.runLen + 1)
  exact ⟨k.1, k.2.1, k.2.2.1⟩

/-! ### The issue of an instruction (R114, R409, R426, R427) -/

theorem near_fresh427 (s : State) : Near s s.fresh427 := ⟨rfl, rfl, rfl⟩

/-- An instruction without an active lane has no effect (R114). -/
theorem gate_off {s : State} {i : Instr} {h : Hd} {n : Need8} {body : State → State} (ha : s.active h = 0#32) :
    s.gate i h n body = .next (s.fresh427.retire h i.bytes) := by
  unfold State.gate; rw [if_pos ha]

theorem Clear.not_pending {s : State} (hc : s.Clear) (h : Hd) (n : Need8) :
    s.pending h n = false ∨ (s.me.chktok = false ∧ s.me.resume ≠ 10) := by
  rcases hc with hp | hc
  · left
    unfold State.pending
    simp only [List.any_eq_false, List.any_eq_true, not_exists, not_and, Bool.not_eq_true]
    intro o ho r _
    exact hp o ho _ r
  · exact .inr hc

/-- An instruction that acts, passes its checks and finds its token free runs its body (R409). -/
theorem gate_on {s : State} {i : Instr} {h : Hd} {n : Need8} {body : State → State} (ha : s.Acts h) (hk : n.chk = none)
    (ht : ∀ k, n.tok = some k → s.Room k) : s.gate i h n body = .next (body s.fresh427) := by
  obtain ⟨ha, hc⟩ := ha
  have hp := Clear.not_pending hc h n
  have htf : s.tokFull n.tok = false := by
    unfold State.tokFull
    split
    · rfl
    · next k hk' => have := (ht k hk').1; simp; omega
  have hfull : (n.tok.isSome && decide (32 ≤ s.me.ops.length)) = false := by
    cases hn : n.tok with
    | none => rfl
    | some k => have := (ht k hn).2; simp; omega
  have hheld : s.held h n = false := by
    unfold State.held
    rw [htf]
    rcases hp with hp | ⟨_, hr⟩
    · simp [hp]
    · simp [hr]
  have hz : (s.me.chktok && s.pending h n) = false := by
    rcases hp with hp | ⟨hr, _⟩
    · simp [hp]
    · simp [hr]
  unfold State.gate
  rw [if_neg ha, hheld, hk]
  simp [hz, htf, hfull]

/-! ### Fixed-latency results (R70) and outstanding operations (R124) -/

theorem near_noteWrites {s u : State} (n : Near s u) (ws : List Wr) : Near s (u.noteWrites ws) := by
  unfold State.noteWrites State.spoil
  split
  · exact ⟨by rw [n.rest], by rw [n.me], n.win⟩
  · exact n

theorem noteWrites_keeps (s : State) (ws : List Wr) :
    (s.noteWrites ws).me = { s.me with spin := (s.noteWrites ws).me.spin } ∧ (s.noteWrites ws).win = s.win
      ∧ (s.noteWrites ws).stks = s.stks ∧ (s.noteWrites ws).nextId = s.nextId := by
  unfold State.noteWrites State.spoil
  split <;> exact ⟨rfl, rfl, rfl, rfl⟩

/-- A fixed-latency instruction that acts lands what it computes from the state at its issue. -/
theorem alu_lands {s : State} {i : Instr} {h : Hd} {n : Need8} {lat : Nat} {ws : State → List Wr} (ha : s.Acts h)
    (hk : n.chk = none) (ht : n.tok = none) :
    ∃ t, s.alu i h n lat ws = .next t ∧ Lands s i.bytes lat (ws s.fresh427) t := by
  unfold State.alu
  rw [gate_on ha hk (by rw [ht]; intro k hk; cases hk)]
  refine ⟨_, rfl, ?_⟩
  obtain ⟨hme, hwin, hstk, _⟩ := noteWrites_keeps s.fresh427 (ws s.fresh427)
  have hc : (s.fresh427.noteWrites (ws s.fresh427)).myCore.cycle = s.myCore.cycle := by
    unfold State.myCore State.core State.stk
    rw [hme, hstk]; rfl
  have hn : Near s ((s.fresh427.noteWrites (ws s.fresh427)).land lat (ws s.fresh427)) := by
    have hn := near_noteWrites (near_fresh427 s) (ws s.fresh427)
    exact ⟨by rw [State.land, hn.rest], by rw [State.land_me, hn.me], hn.win⟩
  have hk := retire_keeps ((s.fresh427.noteWrites (ws s.fresh427)).land lat (ws s.fresh427)) h i.bytes
  exact
    { results := by rw [hk.2.2, State.land_me, hc, hme]; rfl
      toks := by rw [hk.1, State.land_me, hme]; rfl
      ops := by rw [hk.2.1, State.land_me, hme]; rfl
      moved := hn.retire_moved h i.bytes
      goes := hn.retire_goes h i.bytes (by rw [State.land_me, hme]; rfl) (by rw [State.land_me, hme]; rfl)
        (by rw [State.land_win, hwin]; rfl) (by rw [State.land_me, hme]; rfl) }

/-- The issue of an operation: its token rises, and it stands last. -/
theorem issue_some (u : State) {o : Op} {k : Tok} (h : o.tok = some k) : u.issue o =
    { u with nextId := u.nextId + 1,
             me := { u.me with toks := vset u.me.toks k.val (u.me.tok k + 1), ops := u.me.ops ++ [o] } } := by
  unfold State.issue; rw [h]; rfl

theorem issue_none (u : State) {o : Op} (h : o.tok = none) : u.issue o =
    { u with nextId := u.nextId + 1, me := { u.me with ops := u.me.ops ++ [o] } } := by
  unfold State.issue; rw [h]; rfl

theorem Near.issue {s u : State} (n : Near s u) (o : Op) : Near s (u.issue o) := by
  cases h : o.tok with
  | none => rw [issue_none u h]; exact ⟨by rw [n.rest], by rw [n.me], n.win⟩
  | some k => rw [issue_some u h]; exact ⟨by rw [n.rest], by rw [n.me], n.win⟩

/-- An operation that issues in a state near `s` and goes on with the next instruction. -/
theorem Near.issue_starts {s u : State} (n : Near s u) {i : Instr} {h : Hd} {k : Tok} {o : Op} {what : Op → Prop}
    (hpc : u.me.pc = s.me.pc) (ha : u.me.act = s.me.act) (he : u.win.entries = s.win.entries)
    (hs : u.me.status = s.me.status) (ht : u.me.toks = s.me.toks) (hr : u.me.results = s.me.results)
    (hops : u.me.ops = s.me.ops) (ho : o.instr = i ∧ o.ipc = s.me.pc ∧ o.tok = some k ∧ o.act = s.active h
      ∧ o.wb = s.me.wbase ∧ o.landed = 0#32 ∧ what o) :
    Starts s i h k what ((u.issue o).retire h i.bytes) := by
  have hk := retire_keeps (u.issue o) h i.bytes
  have hi := issue_some u ho.2.2.1
  exact
    { op := ⟨o, by rw [hk.2.1, hi, ← hops], ho⟩
      toks := by rw [hk.1, hi]; simp only [ht]; rw [Split.tok, ht]; rfl
      results := by rw [hk.2.2, hi]; exact hr
      moved := (n.issue o).retire_moved h i.bytes
      goes := (n.issue o).retire_goes h i.bytes (by rw [hi]; exact hpc) (by rw [hi]; exact ha) (by rw [hi]; exact he)
        (by rw [hi]; exact hs) }

/-- A long-latency instruction that acts becomes an outstanding operation whose writes are those of its issue. -/
theorem long_starts {s : State} {i : Instr} {h : Hd} {n : Need8} {k : Tok} {ws : State → List Wr} (ha : s.Acts h)
    (hk : n.chk = none) (hr : s.Room k) :
    ∃ t, s.long i h n k ws = .next t
      ∧ Starts s i h k (fun o => o.writes = ws s.fresh427 ∧ o.kind = .plain) t := by
  unfold State.long
  rw [gate_on (n := { n with tok := some k }) ha hk (by intro k' hk'; cases hk'; exact hr)]
  obtain ⟨hme, hwin, _, _⟩ := noteWrites_keeps s.fresh427 (ws s.fresh427)
  refine ⟨_, rfl, (near_noteWrites (near_fresh427 s) (ws s.fresh427)).issue_starts ?_ ?_ ?_ ?_ ?_ ?_ ?_
    ⟨rfl, rfl, rfl, rfl, rfl, rfl, rfl, rfl⟩⟩
  · rw [hme]; rfl
  · rw [hme]; rfl
  · rw [hwin]; rfl
  · rw [hme]; rfl
  · rw [hme]; rfl
  · rw [hme]; rfl
  · rw [hme]; rfl

end Sys2Proof.Machine
end

