-- ==== Sys2Proof/Laws/Elems.lean ====
section
/-! SUPPORT. Laws/Elems.lean: lanes, sets of lanes and packed elements (R8, R20, R150): what reading back gives. -/

namespace Sys2Proof.Machine

/-! ### Lanes -/

@[simp] theorem lane_lanesOf (f : Nat → Word) (l : Nat) (h : l < 32) : lane (lanesOf f) l = f l := by
  simp [lane, vget, lanesOf, h]

theorem lanesOf_congr {f g : Nat → Word} (h : ∀ l < 32, f l = g l) : lanesOf f = lanesOf g := by
  unfold lanesOf
  congr 1
  funext i
  exact h i.val i.isLt

theorem lane_blend (m : Mask) (new old : Lanes) (l : Nat) (h : l < 32) :
    lane (blend m new old) l = if m.has l then lane new l else lane old l := by
  unfold blend; rw [lane_lanesOf _ _ h]

/-! ### Sets of lanes -/

theorem has_or (a b : Mask) (l : Nat) : Mask.has (a ||| b) l = (Mask.has a l || Mask.has b l) := by
  simp [Mask.has]

theorem has_one (k l : Nat) : Mask.has (Mask.one k) l = (decide (l = k) && decide (k < 32)) := by
  have h : Mask.has (Mask.one k) l = (decide (l < 32) && (!decide (l < k) && decide (l - k = 0))) := by
    unfold Mask.has Mask.one
    rw [BitVec.getLsbD_shiftLeft]
    simp [Bool.and_assoc]
  rw [h, Bool.eq_iff_iff]
  simp
  omega

theorem has_foldl_one (ls : List Nat) (m : Mask) (l : Nat) (hl : ∀ k ∈ ls, k < 32) :
    Mask.has (ls.foldl (fun m k => m ||| Mask.one k) m) l = (Mask.has m l || ls.contains l) := by
  induction ls generalizing m with
  | nil => simp
  | cons k ks ih =>
    have hk : k < 32 := hl k (by simp)
    rw [List.foldl_cons, ih _ (fun j hj => hl j (by simp [hj])), has_or, has_one]
    simp [hk, Bool.or_assoc]

/-- The set of the lanes for which `p` holds has just those. -/
theorem has_where (p : Nat → Bool) (l : Nat) (h : l < 32) : Mask.has (Mask.where' p) l = p l := by
  unfold Mask.where' Mask.ofList
  rw [has_foldl_one]
  · have hz : Mask.has 0#32 l = false := by simp [Mask.has]
    rw [hz, Bool.false_or, Bool.eq_iff_iff]
    simp [h]
  · intro k hk
    simp at hk
    exact hk.1

/-! ### Elements -/

theorem modTwo_cast (x : Int) (n : Nat) : (modTwo x n : Int) = x % (2 ^ n : Int) := by
  unfold modTwo
  exact Int.toNat_of_nonneg (Int.emod_nonneg _ (by positivity))

theorem modTwo_lt (x : Int) (n : Nat) : modTwo x n < 2 ^ n := by
  have h := modTwo_cast x n
  have : x % (2 ^ n : Int) < 2 ^ n := Int.emod_lt_of_pos _ (by positivity)
  zify
  rw [h]; exact this

/-- The digits of a sum of bytes or halves in their places. -/
theorem four_bytes (a b c d : Nat) (ha : a < 256) (hb : b < 256) (hc : c < 256) (hd : d < 256) :
    (0 + a * 1 + b * 256 + c * 65536 + d * 16777216) % 4294967296 / 1 % 256 = a ∧
    (0 + a * 1 + b * 256 + c * 65536 + d * 16777216) % 4294967296 / 256 % 256 = b ∧
    (0 + a * 1 + b * 256 + c * 65536 + d * 16777216) % 4294967296 / 65536 % 256 = c ∧
    (0 + a * 1 + b * 256 + c * 65536 + d * 16777216) % 4294967296 / 16777216 % 256 = d := by
  refine ⟨?_, ?_, ?_, ?_⟩ <;> omega

theorem two_halves (a b : Nat) (ha : a < 65536) (hb : b < 65536) :
    (0 + a * 1 + b * 65536) % 4294967296 / 1 % 65536 = a ∧ (0 + a * 1 + b * 65536) % 4294967296 / 65536 % 65536 = b := by
  refine ⟨?_, ?_⟩ <;> omega

theorem sum_four (f : Nat → Nat) : (List.range 4).foldl (fun x i => x + f i) 0 = 0 + f 0 + f 1 + f 2 + f 3 := by
  rw [show List.range 4 = [0, 1, 2, 3] from rfl]; rfl
theorem sum_two (f : Nat → Nat) : (List.range 2).foldl (fun x i => x + f i) 0 = 0 + f 0 + f 1 := by
  rw [show List.range 2 = [0, 1] from rfl]; rfl
theorem sum_one (f : Nat → Nat) : (List.range 1).foldl (fun x i => x + f i) 0 = 0 + f 0 := by
  rw [show List.range 1 = [0] from rfl]; rfl

theorem pack_bytes (g : Nat → Nat) (hg : ∀ j, g j < 256) (i : Nat) (h : i < 4) :
    (List.range 4).foldl (fun x i => x + g i * 2 ^ (8 * i)) 0 % 2 ^ 32 / 2 ^ (8 * i) % 2 ^ 8 = g i := by
  rw [sum_four (fun i => g i * 2 ^ (8 * i))]
  obtain ⟨h0, h1, h2, h3⟩ := four_bytes _ _ _ _ (hg 0) (hg 1) (hg 2) (hg 3)
  have h4 : i = 0 ∨ i = 1 ∨ i = 2 ∨ i = 3 := by omega
  rcases h4 with h4 | h4 | h4 | h4 <;> subst h4 <;> norm_num at * <;> assumption

theorem pack_halves (g : Nat → Nat) (hg : ∀ j, g j < 65536) (i : Nat) (h : i < 2) :
    (List.range 2).foldl (fun x i => x + g i * 2 ^ (16 * i)) 0 % 2 ^ 32 / 2 ^ (16 * i) % 2 ^ 16 = g i := by
  rw [sum_two (fun i => g i * 2 ^ (16 * i))]
  obtain ⟨h0, h1⟩ := two_halves _ _ (hg 0) (hg 1)
  have h4 : i = 0 ∨ i = 1 := by omega
  rcases h4 with h4 | h4 <;> subst h4 <;> norm_num at * <;> assumption

theorem pack_word (g : Nat → Nat) (hg : ∀ j, g j < 4294967296) (i : Nat) (h : i < 1) :
    (List.range 1).foldl (fun x i => x + g i * 2 ^ (32 * i)) 0 % 2 ^ 32 / 2 ^ (32 * i) % 2 ^ 32 = g i := by
  rw [sum_one (fun i => g i * 2 ^ (32 * i))]
  have h4 : i = 0 := by omega
  subst h4
  have := hg 0
  norm_num
  omega

/-- Element `i` of a packed lane value is the low bits of what was packed there. -/
theorem elemBits_pack (ty : ITy) (r : Nat → Nat) (i : Nat) (h : i < 32 / ty.width) :
    elemBits ty (packElems ty r).toNat i = r i % 2 ^ ty.width := by
  have byte (j : Nat) : r j % 2 ^ 8 < 256 := Nat.mod_lt _ (by norm_num)
  have half (j : Nat) : r j % 2 ^ 16 < 65536 := Nat.mod_lt _ (by norm_num)
  have word (j : Nat) : r j % 2 ^ 32 < 4294967296 := Nat.mod_lt _ (by norm_num)
  unfold elemBits packElems
  rw [BitVec.toNat_ofNat]
  cases ty
  · exact pack_word _ word i h
  · exact pack_bytes _ byte i h
  · exact pack_halves _ half i h
  · exact absurd h (Nat.not_lt_zero i)
  · exact pack_word _ word i h
  · exact pack_bytes _ byte i h
  · exact pack_halves _ half i h
  · exact absurd h (Nat.not_lt_zero i)

theorem elemBits_zip (ty : ITy) (f : Nat → Nat → Nat) (a b : Word) (i : Nat) (h : i < 32 / ty.width) :
    elemBits ty (zipElems ty f a b).toNat i = f (elemBits ty a.toNat i) (elemBits ty b.toNat i) % 2 ^ ty.width :=
  elemBits_pack ty _ i h

/-- `fit` gives the exact value saturated or wrapped, as `ElemsAre` says. -/
theorem fit_cast (ty : ITy) (sat : Bool) (y : Int) : ((fit ty sat y % 2 ^ ty.width : Nat) : Int)
    = (if sat then satTo y (tyLo ty) (tyHi ty) else y) % (2 ^ ty.width : Int) := by
  have h := modTwo_lt (if sat then satTo y (tyLo ty) (tyHi ty) else y) ty.width
  unfold fit
  rw [Nat.mod_eq_of_lt h, modTwo_cast]

theorem elemsAre_pack (ty : ITy) (sat : Bool) (r : Nat → Nat) (f : Nat → Int)
    (h : ∀ i < 32 / ty.width, r i = fit ty sat (f i)) : ElemsAre ty sat (packElems ty r) f := by
  intro i hi
  rw [elemBits_pack ty r i hi, h i hi]
  exact fit_cast ty sat (f i)

end Sys2Proof.Machine
end

