-- ==== Sys2Proof/Laws/Memory.lean ====
section
/-! SUPPORT. Laws/Memory.lean: memory keeps its canonical form under every operation over it, and a byte reads as what was
last written there. -/

namespace Sys2Proof.Machine

/-! ### Rising lists -/

theorem sortedBelow_iff (l : List Nat) : sortedBelow l = true ↔ l.Pairwise (· < ·) := by
  induction l with
  | nil => simp [sortedBelow]
  | cons a l ih =>
    cases l with
    | nil => simp [sortedBelow]
    | cons b r =>
      simp only [sortedBelow, Bool.and_eq_true, decide_eq_true_eq, ih, List.pairwise_cons]
      constructor
      · rintro ⟨h, h1, h2⟩
        refine ⟨?_, h1, h2⟩
        intro x hx
        rcases List.mem_cons.mp hx with rfl | hx
        · exact h
        · exact h.trans (h1 x hx)
      · rintro ⟨h, h1, h2⟩
        exact ⟨h b (by simp), h1, h2⟩

/-- A list of keys with values is canonical when its keys rise and no value is the one that an unlisted key reads as. -/
def Canon {α : Type} (z : α) (cs : List (Nat × α)) : Prop := (cs.map Prod.fst).Pairwise (· < ·) ∧ ∀ c ∈ cs, c.2 ≠ z

theorem Canon.tail {α : Type} {z : α} {c : Nat × α} {cs : List (Nat × α)} (h : Canon z (c :: cs)) : Canon z cs :=
  ⟨(List.pairwise_cons.mp h.1).2, fun x hx => h.2 x (List.mem_cons_of_mem _ hx)⟩

theorem Canon.below {α : Type} {z : α} {c : Nat × α} {cs : List (Nat × α)} (h : Canon z (c :: cs)) :
    ∀ x ∈ cs, c.1 < x.1 := fun x hx => (List.pairwise_cons.mp h.1).1 x.1 (List.mem_map_of_mem hx)

theorem Canon.cons {α : Type} {z : α} {c : Nat × α} {cs : List (Nat × α)} (h : Canon z cs) (hc : c.2 ≠ z)
    (hb : ∀ x ∈ cs, c.1 < x.1) : Canon z (c :: cs) := by
  refine ⟨List.pairwise_cons.mpr ⟨?_, h.1⟩, ?_⟩
  · intro y hy
    obtain ⟨x, hx, rfl⟩ := List.mem_map.mp hy
    exact hb x hx
  · intro x hx
    rcases List.mem_cons.mp hx with rfl | hx
    · exact hc
    · exact h.2 x hx

theorem mem_insertCell (cs : List Host.Cell) (x : Nat) (v : Byte) : ∀ c ∈ insertCell cs x v, c = (x, v) ∨ c ∈ cs := by
  induction cs with
  | nil => intro c; simp only [insertCell]; split <;> simp
  | cons d cs ih =>
    obtain ⟨a, b⟩ := d
    intro c hc
    simp only [insertCell] at hc
    split at hc
    · split at hc
      · exact .inr hc
      · exact List.mem_cons.mp hc
    · split at hc
      · split at hc
        · exact .inr (List.mem_cons_of_mem _ hc)
        · rcases List.mem_cons.mp hc with h | h
          · exact .inl h
          · exact .inr (List.mem_cons_of_mem _ h)
      · rcases List.mem_cons.mp hc with h | h
        · exact .inr (h ▸ List.mem_cons_self)
        · exact (ih c h).imp_right (List.mem_cons_of_mem _)

theorem insertCell_canon (cs : List Host.Cell) (x : Nat) (v : Byte) (h : Canon 0#8 cs) : Canon 0#8 (insertCell cs x v) := by
  induction cs with
  | nil =>
    simp only [insertCell]
    split
    · exact h
    · exact h.cons (by assumption) (by simp)
  | cons d cs ih =>
    obtain ⟨a, b⟩ := d
    simp only [insertCell]
    split
    · rename_i hx
      split
      · exact h
      · refine h.cons (by assumption) fun y hy => ?_
        rcases List.mem_cons.mp hy with rfl | hy
        · exact hx
        · exact hx.trans (h.below y hy)
    · rename_i hx
      split
      · rename_i hxa
        split
        · exact h.tail
        · exact h.tail.cons (by assumption) fun y hy => hxa ▸ h.below y hy
      · rename_i hne
        refine (ih h.tail).cons (h.2 (a, b) List.mem_cons_self) fun y hy => ?_
        rcases mem_insertCell cs x v y hy with rfl | hy
        · exact Nat.lt_of_le_of_ne (Nat.not_lt.mp hx) (Ne.symm hne)
        · exact h.below y hy

theorem lookupCell_below (cs : List Host.Cell) (x : Nat) (h : ∀ c ∈ cs, x < c.1) : lookupCell cs x = 0#8 := by
  induction cs with
  | nil => rfl
  | cons d cs ih =>
    obtain ⟨a, b⟩ := d
    have ha : x < a := h (a, b) List.mem_cons_self
    simp only [lookupCell, if_neg (Nat.ne_of_lt ha)]
    exact ih fun c hc => h c (List.mem_cons_of_mem _ hc)

theorem lookup_insertCell (cs : List Host.Cell) (x y : Nat) (v : Byte) (h : Canon 0#8 cs) :
    lookupCell (insertCell cs x v) y = if y = x then v else lookupCell cs y := by
  induction cs with
  | nil => simp only [insertCell]; split <;> simp_all [lookupCell]
  | cons d cs ih =>
    obtain ⟨a, b⟩ := d
    simp only [insertCell]
    have low : ∀ c ∈ cs, a < c.1 := h.below
    split
    · rename_i hx
      split
      · rename_i hv
        split
        · rename_i hy
          subst hy hv
          refine lookupCell_below _ _ fun c hc => ?_
          rcases List.mem_cons.mp hc with rfl | hc
          · exact hx
          · exact hx.trans (low c hc)
        · rfl
      · simp only [lookupCell]
    · rename_i hx
      split
      · rename_i hxa
        subst hxa
        split
        · rename_i hv
          subst hv
          simp only [lookupCell]
          split
          · rename_i hy
            subst hy
            exact lookupCell_below _ _ low
          · rfl
        · simp only [lookupCell]
          split <;> rfl
      · rename_i hne
        simp only [lookupCell, ih h.tail]
        split
        · rename_i hy
          rw [if_neg]
          rw [hy]
          exact fun e => hne e.symm
        · rfl

theorem mem_insertTag (cs : List (Nat × Nat)) (x v : Nat) : ∀ c ∈ insertTag cs x v, c = (x, v) ∨ c ∈ cs := by
  induction cs with
  | nil => intro c; simp only [insertTag]; split <;> simp
  | cons d cs ih =>
    obtain ⟨a, b⟩ := d
    intro c hc
    simp only [insertTag] at hc
    split at hc
    · split at hc
      · exact .inr hc
      · exact List.mem_cons.mp hc
    · split at hc
      · split at hc
        · exact .inr (List.mem_cons_of_mem _ hc)
        · rcases List.mem_cons.mp hc with h | h
          · exact .inl h
          · exact .inr (List.mem_cons_of_mem _ h)
      · rcases List.mem_cons.mp hc with h | h
        · exact .inr (h ▸ List.mem_cons_self)
        · exact (ih c h).imp_right (List.mem_cons_of_mem _)

theorem insertTag_canon (cs : List (Nat × Nat)) (x v : Nat) (h : Canon 0 cs) : Canon 0 (insertTag cs x v) := by
  induction cs with
  | nil =>
    simp only [insertTag]
    split
    · exact h
    · exact h.cons (by assumption) (by simp)
  | cons d cs ih =>
    obtain ⟨a, b⟩ := d
    simp only [insertTag]
    split
    · rename_i hx
      split
      · exact h
      · refine h.cons (by assumption) fun y hy => ?_
        rcases List.mem_cons.mp hy with rfl | hy
        · exact hx
        · exact hx.trans (h.below y hy)
    · rename_i hx
      split
      · rename_i hxa
        split
        · exact h.tail
        · exact h.tail.cons (by assumption) fun y hy => hxa ▸ h.below y hy
      · rename_i hne
        refine (ih h.tail).cons (h.2 (a, b) List.mem_cons_self) fun y hy => ?_
        rcases mem_insertTag cs x v y hy with rfl | hy
        · exact Nat.lt_of_le_of_ne (Nat.not_lt.mp hx) (Ne.symm hne)
        · exact h.below y hy

theorem lookupTag_below (cs : List (Nat × Nat)) (x : Nat) (h : ∀ c ∈ cs, x < c.1) : lookupTag cs x = 0 := by
  induction cs with
  | nil => rfl
  | cons d cs ih =>
    obtain ⟨a, b⟩ := d
    have ha : x < a := h (a, b) List.mem_cons_self
    simp only [lookupTag, if_neg (Nat.ne_of_lt ha)]
    exact ih fun c hc => h c (List.mem_cons_of_mem _ hc)

theorem lookup_insertTag (cs : List (Nat × Nat)) (x y v : Nat) (h : Canon 0 cs) :
    lookupTag (insertTag cs x v) y = if y = x then v else lookupTag cs y := by
  induction cs with
  | nil => simp only [insertTag]; split <;> simp_all [lookupTag]
  | cons d cs ih =>
    obtain ⟨a, b⟩ := d
    simp only [insertTag]
    have low : ∀ c ∈ cs, a < c.1 := h.below
    split
    · rename_i hx
      split
      · rename_i hv
        split
        · rename_i hy
          subst hy hv
          refine lookupTag_below _ _ fun c hc => ?_
          rcases List.mem_cons.mp hc with rfl | hc
          · exact hx
          · exact hx.trans (low c hc)
        · rfl
      · simp only [lookupTag]
    · rename_i hx
      split
      · rename_i hxa
        subst hxa
        split
        · rename_i hv
          subst hv
          simp only [lookupTag]
          split
          · rename_i hy
            subst hy
            exact lookupTag_below _ _ low
          · rfl
        · simp only [lookupTag]
          split <;> rfl
      · rename_i hne
        simp only [lookupTag, ih h.tail]
        split
        · rename_i hy
          rw [if_neg]
          rw [hy]
          exact fun e => hne e.symm
        · rfl

theorem mem_insertLine (as : List Nat) (x y : Nat) : y ∈ insertLine as x ↔ y = x ∨ y ∈ as := by
  induction as with
  | nil => simp [insertLine]
  | cons a as ih =>
    simp only [insertLine]
    split
    · simp
    · split
      · rename_i h; subst h; simp
      · simp only [List.mem_cons, ih]; tauto

theorem insertLine_rising (as : List Nat) (x : Nat) (h : as.Pairwise (· < ·)) : (insertLine as x).Pairwise (· < ·) := by
  induction as with
  | nil => simp [insertLine]
  | cons a as ih =>
    have ⟨h1, h2⟩ := List.pairwise_cons.mp h
    simp only [insertLine]
    split
    · rename_i hx
      refine List.pairwise_cons.mpr ⟨fun y hy => ?_, h⟩
      rcases List.mem_cons.mp hy with rfl | hy
      · exact hx
      · exact hx.trans (h1 y hy)
    · split
      · exact h
      · refine List.pairwise_cons.mpr ⟨fun y hy => ?_, ih h2⟩
        rcases (mem_insertLine as x y).mp hy with rfl | hy
        · omega
        · exact h1 y hy

/-! ### The canonical form is kept -/

theorem Memory.wf_iff (m : Memory) : m.wf = true ↔ Canon 0#8 m.cells ∧ Canon 0 m.tags ∧ m.poison.Pairwise (· < ·) := by
  simp only [Memory.wf, Bool.and_eq_true, sortedBelow_iff, List.all_eq_true, bne_iff_ne, Canon]
  constructor
  · rintro ⟨⟨⟨⟨a, b⟩, c⟩, d⟩, e⟩; exact ⟨⟨a, b⟩, ⟨c, d⟩, e⟩
  · rintro ⟨⟨a, b⟩, ⟨c, d⟩, e⟩; exact ⟨⟨⟨⟨a, b⟩, c⟩, d⟩, e⟩

theorem Memory.setByte_wf {m : Memory} (h : m.wf = true) (pa : Nat) (v : Byte) : (m.setByte pa v).wf = true := by
  rw [wf_iff] at h ⊢
  exact ⟨insertCell_canon _ _ _ h.1, h.2⟩

theorem Memory.writeBytes_wf {m : Memory} (h : m.wf = true) (pa : Nat) (bs : List Byte) : (m.writeBytes pa bs).wf = true := by
  induction bs generalizing m pa with
  | nil => exact h
  | cons b bs ih => exact ih (setByte_wf h pa b) (pa + 1)

theorem Memory.tag_wf {m : Memory} (h : m.wf = true) (line tag : Nat) :
    ({ m with tags := insertTag m.tags line tag } : Memory).wf = true := by
  rw [wf_iff] at h ⊢
  exact ⟨h.1, insertTag_canon _ _ _ h.2.1, h.2.2⟩

theorem Memory.tagFold_wf (line tag : Nat) (is : List Nat) {m : Memory} (h : m.wf = true) :
    (is.foldl (fun m i => { m with tags := insertTag m.tags (line + i) tag }) m).wf = true := by
  induction is generalizing m with
  | nil => exact h
  | cons i is ih => exact ih (tag_wf h _ _)

theorem Memory.tagLines_wf {m : Memory} (h : m.wf = true) (pa n tag : Nat) : (m.tagLines pa n tag).wf = true :=
  tagFold_wf _ _ _ h

theorem Memory.write_wf {m : Memory} (h : m.wf = true) (pa : Nat) (bs : List Byte) (tag : Nat) :
    (m.write pa bs tag).wf = true := tagLines_wf (writeBytes_wf h pa bs) _ _ _

theorem Memory.write64_wf {m : Memory} (h : m.wf = true) (pa x tag : Nat) : (m.write64 pa x tag).wf = true := write_wf h _ _ _
theorem Memory.write32_wf {m : Memory} (h : m.wf = true) (pa x tag : Nat) : (m.write32 pa x tag).wf = true := write_wf h _ _ _

theorem Memory.setPoison_wf {m : Memory} (h : m.wf = true) (line : Nat) : (m.setPoison line).wf = true := by
  rw [wf_iff] at h ⊢
  exact ⟨h.1, h.2.1, insertLine_rising _ _ h.2.2⟩

theorem Memory.filterPoison_wf {m : Memory} (h : m.wf = true) (p : Nat → Bool) :
    ({ m with poison := m.poison.filter p } : Memory).wf = true := by
  rw [wf_iff] at h ⊢
  exact ⟨h.1, h.2.1, h.2.2.filter p⟩

theorem Memory.clearPoison_wf {m : Memory} (h : m.wf = true) (line : Nat) : (m.clearPoison line).wf = true :=
  filterPoison_wf h _

theorem Memory.writeLines_wf {m : Memory} (h : m.wf = true) (pa : Nat) (bs : List Byte) (tag : Nat) :
    (m.writeLines pa bs tag).wf = true := filterPoison_wf (write_wf h pa bs tag) _

theorem reset_memory_wf : State.reset.mem.wf = true := by decide

/-! ### A byte reads as what was last written there -/

theorem Memory.byte_setByte {m : Memory} (h : m.wf = true) (pa a : Nat) (v : Byte) :
    (m.setByte pa v).byte a = if a = pa then v else m.byte a := lookup_insertCell _ _ _ _ ((wf_iff m).mp h).1

theorem Memory.byte_writeBytes {m : Memory} (h : m.wf = true) (pa a : Nat) (bs : List Byte) :
    (m.writeBytes pa bs).byte a = if pa ≤ a ∧ a < pa + bs.length then bs.getD (a - pa) 0#8 else m.byte a := by
  induction bs generalizing m pa with
  | nil => rw [if_neg (by simp only [List.length_nil]; omega)]; rfl
  | cons b bs ih =>
    simp only [writeBytes, ih (setByte_wf h pa b), byte_setByte h, List.length_cons]
    by_cases h1 : a = pa
    · subst h1
      rw [if_neg (by omega), if_pos rfl, if_pos (by omega)]
      simp
    · by_cases h2 : pa + 1 ≤ a ∧ a < pa + 1 + bs.length
      · rw [if_pos h2, if_pos (by omega)]
        obtain ⟨k, hk⟩ : ∃ k, a - pa = k + 1 := ⟨a - pa - 1, by omega⟩
        rw [hk, List.getD_cons_succ]
        congr 1
        omega
      · rw [if_neg h2, if_neg h1, if_neg (by omega)]

theorem Memory.tagFold_cells (line tag : Nat) (is : List Nat) (m : Memory) :
    (is.foldl (fun m i => { m with tags := insertTag m.tags (line + i) tag }) m).cells = m.cells := by
  induction is generalizing m with
  | nil => rfl
  | cons i is ih => exact ih _

theorem Memory.tagFold_poison (line tag : Nat) (is : List Nat) (m : Memory) :
    (is.foldl (fun m i => { m with tags := insertTag m.tags (line + i) tag }) m).poison = m.poison := by
  induction is generalizing m with
  | nil => rfl
  | cons i is ih => exact ih _

@[simp] theorem Memory.byte_tagLines (m : Memory) (pa n tag a : Nat) : (m.tagLines pa n tag).byte a = m.byte a := by
  unfold Memory.byte Memory.tagLines
  rw [tagFold_cells]

@[simp] theorem Memory.tagLines_poison (m : Memory) (pa n tag : Nat) : (m.tagLines pa n tag).poison = m.poison :=
  tagFold_poison _ _ _ _

theorem Memory.writeBytes_poison (m : Memory) (pa : Nat) (bs : List Byte) : (m.writeBytes pa bs).poison = m.poison := by
  induction bs generalizing m pa with
  | nil => rfl
  | cons b bs ih => exact ih _ _

@[simp] theorem Memory.write_poison (m : Memory) (pa : Nat) (bs : List Byte) (tag : Nat) :
    (m.write pa bs tag).poison = m.poison := by
  unfold Memory.write
  rw [tagLines_poison, writeBytes_poison]

@[simp] theorem Memory.byte_clearPoison (m : Memory) (line a : Nat) : (m.clearPoison line).byte a = m.byte a := rfl

/-- A write puts its bytes at their places and changes no other byte. -/
theorem Memory.byte_write {m : Memory} (h : m.wf = true) (pa a : Nat) (bs : List Byte) (tag : Nat) :
    (m.write pa bs tag).byte a = if pa ≤ a ∧ a < pa + bs.length then bs.getD (a - pa) 0#8 else m.byte a := by
  unfold Memory.write
  rw [byte_tagLines, byte_writeBytes h]

theorem Memory.byte_writeLines {m : Memory} (h : m.wf = true) (pa a : Nat) (bs : List Byte) (tag : Nat) :
    (m.writeLines pa bs tag).byte a = if pa ≤ a ∧ a < pa + bs.length then bs.getD (a - pa) 0#8 else m.byte a :=
  byte_write h pa a bs tag

theorem Memory.read_congr {m n : Memory} (pa k : Nat) (h : ∀ a, pa ≤ a → a < pa + k → m.byte a = n.byte a) :
    m.read pa k = n.read pa k := by
  induction k generalizing pa with
  | zero => rfl
  | succ k ih =>
    simp only [read]
    rw [h pa (Nat.le_refl _) (by omega), ih (pa + 1) fun a h1 h2 => h a (by omega) (by omega)]

/-- Bytes read as the number that they are. -/
theorem Memory.read_of_bytes {m : Memory} (pa : Nat) (bs : List Byte)
    (h : ∀ i, i < bs.length → m.byte (pa + i) = bs.getD i 0#8) : m.read pa bs.length = ofBytesLE bs := by
  induction bs generalizing pa with
  | nil => rfl
  | cons b bs ih =>
    simp only [List.length_cons, read, ofBytesLE]
    have h0 := h 0 (by simp)
    simp only [Nat.add_zero, List.getD_cons_zero] at h0
    rw [h0, ih (pa + 1) fun i hi => ?_]
    have := h (i + 1) (by simpa using hi)
    rw [List.getD_cons_succ] at this
    rw [← this]
    congr 1
    omega

/-- A read of what was written gives the number written. -/
theorem Memory.read_write {m : Memory} (h : m.wf = true) (pa : Nat) (bs : List Byte) (tag : Nat) :
    (m.write pa bs tag).read pa bs.length = ofBytesLE bs := by
  refine read_of_bytes pa bs fun i hi => ?_
  rw [byte_write h, if_pos (by omega)]
  congr 1
  omega

/-- A read elsewhere gives what it gave before. -/
theorem Memory.read_write_apart {m : Memory} (h : m.wf = true) (pa a n : Nat) (bs : List Byte) (tag : Nat)
    (hd : a + n ≤ pa ∨ pa + bs.length ≤ a) : (m.write pa bs tag).read a n = m.read a n := by
  refine read_congr a n fun x h1 h2 => ?_
  rw [byte_write h, if_neg (by omega)]

theorem ofBytesLE_map (n x : Nat) : ofBytesLE (bytesLE n x) = x % 256 ^ n := by
  induction n generalizing x with
  | zero => simp [bytesLE, ofBytesLE, Nat.mod_one]
  | succ n ih =>
    have hs : bytesLE (n + 1) x = BitVec.ofNat 8 x :: bytesLE n (x / 256) := by
      simp only [bytesLE, List.range_succ_eq_map, List.map_cons, List.map_map]
      congr 1
      · simp
      · refine List.map_congr_left fun i _ => ?_
        simp only [Function.comp_apply, Nat.div_div_eq_div_mul]
        congr 2
        rw [show (256 : Nat) = 2 ^ 8 from rfl, ← Nat.pow_add]
        congr 1
        simp only [Nat.succ_eq_add_one]
        omega
    rw [hs, ofBytesLE, ih, BitVec.toNat_ofNat, show 256 ^ (n + 1) = 256 * 256 ^ n from Nat.pow_succ', Nat.mod_mul]

@[simp] theorem bytesLE_length (n x : Nat) : (bytesLE n x).length = n := by simp [bytesLE]

theorem Memory.read_write64 {m : Memory} (h : m.wf = true) (pa x tag : Nat) :
    (m.write64 pa x tag).read pa 8 = x % 2 ^ 64 := by
  have := read_write h pa (bytesLE 8 x) tag
  rw [bytesLE_length, ofBytesLE_map] at this
  rw [Memory.write64, this]
  norm_num

end Sys2Proof.Machine
end

