-- ==== Sys2Proof/Laws/PerInstr.lean ====
section
/-! SUPPORT. Laws/PerInstr.lean: for every instruction, the fields that its encoding writes stay within their bits (R99 to
R105), so that they are read back from its words. The steps of the agents have no words. -/

namespace Sys2Proof.Laws.Fits

/-- The fields of a well-formed instruction's encoding are within their bits. -/
def Statement (i : Instr) : Prop := i.wf = true → (encodeF i).Fits


theorem nop (h : Hd) : Statement (.nop h) := by
  intro _
  all_goals (obtain ⟨g, e⟩ := h; have i0 := g.isLt; have i1 := b2n_lt e)
  all_goals (constructor <;> simp [encodeF, hdF, hasExt, hasLit] <;> omega)

theorem bra (h : Hd) (off : Word) : Statement (.bra h off) := by
  intro _
  all_goals (obtain ⟨g, e⟩ := h; have i0 := g.isLt; have i1 := b2n_lt e)
  all_goals (have q_off := off.isLt)
  all_goals (constructor <;> simp [encodeF, hdF, hasExt, hasLit] <;> omega)

theorem brp (h : Hd) (off recon : Word) : Statement (.brp h off recon) := by
  intro _
  all_goals (obtain ⟨g, e⟩ := h; have i0 := g.isLt; have i1 := b2n_lt e)
  all_goals (have q_off := off.isLt)
  all_goals (have q_recon := recon.isLt)
  all_goals (constructor <;> simp [encodeF, hdF, hasExt, hasLit] <;> omega)

theorem brx (h : Hd) (a : SReg) : Statement (.brx h a) := by
  intro _
  all_goals (obtain ⟨g, e⟩ := h; have i0 := g.isLt; have i1 := b2n_lt e)
  all_goals (have q_a := a.isLt)
  all_goals (constructor <;> simp [encodeF, hdF, hasExt, hasLit] <;> omega)

theorem call (h : Hd) (callee caller : Fin 64) (off : Word) (live : Dword) : Statement (.call h callee caller off live) := by
  intro _
  all_goals (obtain ⟨g, e⟩ := h; have i0 := g.isLt; have i1 := b2n_lt e)
  all_goals (have q_callee := callee.isLt)
  all_goals (have q_caller := caller.isLt)
  all_goals (have q_off := off.isLt)
  all_goals (have q_live := live.isLt)
  all_goals (constructor <;> simp [encodeF, hdF, hasExt, hasLit] <;> omega)

theorem callx (h : Hd) (b : SReg) (callee caller : Fin 64) (live : Dword) : Statement (.callx h b callee caller live) := by
  intro _
  all_goals (obtain ⟨g, e⟩ := h; have i0 := g.isLt; have i1 := b2n_lt e)
  all_goals (have q_b := b.isLt)
  all_goals (have q_callee := callee.isLt)
  all_goals (have q_caller := caller.isLt)
  all_goals (have q_live := live.isLt)
  all_goals (constructor <;> simp [encodeF, hdF, hasExt, hasLit] <;> omega)

theorem ret (h : Hd) : Statement (.ret h) := by
  intro _
  all_goals (obtain ⟨g, e⟩ := h; have i0 := g.isLt; have i1 := b2n_lt e)
  all_goals (constructor <;> simp [encodeF, hdF, hasExt, hasLit] <;> omega)

theorem join (h : Hd) (j : Fin 8) : Statement (.join h j) := by
  intro _
  all_goals (obtain ⟨g, e⟩ := h; have i0 := g.isLt; have i1 := b2n_lt e)
  all_goals (have q_j := j.isLt)
  all_goals (constructor <;> simp [encodeF, hdF, hasExt, hasLit] <;> omega)

theorem barw (h : Hd) (n : Fin 16) : Statement (.barw h n) := by
  intro _
  all_goals (obtain ⟨g, e⟩ := h; have i0 := g.isLt; have i1 := b2n_lt e)
  all_goals (have q_n := n.isLt)
  all_goals (constructor <;> simp [encodeF, hdF, hasExt, hasLit] <;> omega)

theorem bara (h : Hd) (n : Fin 16) : Statement (.bara h n) := by
  intro _
  all_goals (obtain ⟨g, e⟩ := h; have i0 := g.isLt; have i1 := b2n_lt e)
  all_goals (have q_n := n.isLt)
  all_goals (constructor <;> simp [encodeF, hdF, hasExt, hasLit] <;> omega)

theorem yield (h : Hd) : Statement (.yield h) := by
  intro _
  all_goals (obtain ⟨g, e⟩ := h; have i0 := g.isLt; have i1 := b2n_lt e)
  all_goals (constructor <;> simp [encodeF, hdF, hasExt, hasLit] <;> omega)

theorem exit (h : Hd) : Statement (.exit h) := by
  intro _
  all_goals (obtain ⟨g, e⟩ := h; have i0 := g.isLt; have i1 := b2n_lt e)
  all_goals (constructor <;> simp [encodeF, hdF, hasExt, hasLit] <;> omega)

theorem pause (h : Hd) (n : Fin 16) : Statement (.pause h n) := by
  intro _
  all_goals (obtain ⟨g, e⟩ := h; have i0 := g.isLt; have i1 := b2n_lt e)
  all_goals (have q_n := n.isLt)
  all_goals (constructor <;> simp [encodeF, hdF, hasExt, hasLit] <;> omega)

theorem tw (h : Hd) (k : Tok) (m : Fin 64) : Statement (.tw h k m) := by
  intro _
  all_goals (obtain ⟨g, e⟩ := h; have i0 := g.isLt; have i1 := b2n_lt e)
  all_goals (have q_k := k.isLt)
  all_goals (have q_m := m.isLt)
  all_goals (constructor <;> simp [encodeF, hdF, hasExt, hasLit] <;> omega)

theorem trap (h : Hd) (n : Fin 64) : Statement (.trap h n) := by
  intro _
  all_goals (obtain ⟨g, e⟩ := h; have i0 := g.isLt; have i1 := b2n_lt e)
  all_goals (have q_n := n.isLt)
  all_goals (constructor <;> simp [encodeF, hdF, hasExt, hasLit] <;> omega)

theorem rft (h : Hd) : Statement (.rft h) := by
  intro _
  all_goals (obtain ⟨g, e⟩ := h; have i0 := g.isLt; have i1 := b2n_lt e)
  all_goals (constructor <;> simp [encodeF, hdF, hasExt, hasLit] <;> omega)

theorem brk (h : Hd) (n : Fin 64) : Statement (.brk h n) := by
  intro _
  all_goals (obtain ⟨g, e⟩ := h; have i0 := g.isLt; have i1 := b2n_lt e)
  all_goals (have q_n := n.isLt)
  all_goals (constructor <;> simp [encodeF, hdF, hasExt, hasLit] <;> omega)

theorem sget (h : Hd) (r : SpecReg) (d : Fin 64) : Statement (.sget h r d) := by
  intro _
  all_goals (obtain ⟨g, e⟩ := h; have i0 := g.isLt; have i1 := b2n_lt e)
  all_goals (have q_r := r.code_lt)
  all_goals (have q_d := d.isLt)
  all_goals (constructor <;> simp [encodeF, hdF, hasExt, hasLit] <;> omega)

theorem sput (h : Hd) (r : SpecReg) (a : SReg) : Statement (.sput h r a) := by
  intro _
  all_goals (obtain ⟨g, e⟩ := h; have i0 := g.isLt; have i1 := b2n_lt e)
  all_goals (have q_r := r.code_lt)
  all_goals (have q_a := a.isLt)
  all_goals (constructor <;> simp [encodeF, hdF, hasExt, hasLit] <;> omega)

theorem icpre (h : Hd) (lvl : IcLevel) (a : SReg) (len : Word) : Statement (.icpre h lvl a len) := by
  intro _
  all_goals (obtain ⟨g, e⟩ := h; have i0 := g.isLt; have i1 := b2n_lt e)
  all_goals (have q_lvl := lvl.code_lt)
  all_goals (have q_a := a.isLt)
  all_goals (have q_len := len.isLt)
  all_goals (constructor <;> simp [encodeF, hdF, hasExt, hasLit] <;> omega)

theorem icpin (h : Hd) (lvl : IcLevel) (a : SReg) (len : Word) : Statement (.icpin h lvl a len) := by
  intro _
  all_goals (obtain ⟨g, e⟩ := h; have i0 := g.isLt; have i1 := b2n_lt e)
  all_goals (have q_lvl := lvl.code_lt)
  all_goals (have q_a := a.isLt)
  all_goals (have q_len := len.isLt)
  all_goals (constructor <;> simp [encodeF, hdF, hasExt, hasLit] <;> omega)

theorem icfree (h : Hd) (lvl : IcLevel) (a : SReg) (len : Word) : Statement (.icfree h lvl a len) := by
  intro _
  all_goals (obtain ⟨g, e⟩ := h; have i0 := g.isLt; have i1 := b2n_lt e)
  all_goals (have q_lvl := lvl.code_lt)
  all_goals (have q_a := a.isLt)
  all_goals (have q_len := len.isLt)
  all_goals (constructor <;> simp [encodeF, hdF, hasExt, hasLit] <;> omega)

theorem stkspill (h : Hd) (d a : SReg) (n : Word) (k : Tok) : Statement (.stkspill h d a n k) := by
  intro _
  all_goals (obtain ⟨g, e⟩ := h; have i0 := g.isLt; have i1 := b2n_lt e)
  all_goals (have q_d := d.isLt)
  all_goals (have q_a := a.isLt)
  all_goals (have q_n := n.isLt)
  all_goals (have q_k := k.isLt)
  all_goals (constructor <;> simp [encodeF, hdF, hasExt, hasLit] <;> omega)

theorem stkfill (h : Hd) (d a : SReg) (n : Word) (k : Tok) : Statement (.stkfill h d a n k) := by
  intro _
  all_goals (obtain ⟨g, e⟩ := h; have i0 := g.isLt; have i1 := b2n_lt e)
  all_goals (have q_d := d.isLt)
  all_goals (have q_a := a.isLt)
  all_goals (have q_n := n.isLt)
  all_goals (have q_k := k.isLt)
  all_goals (constructor <;> simp [encodeF, hdF, hasExt, hasLit] <;> omega)

theorem ctxsv (h : Hd) (d a : SReg) (k : Tok) : Statement (.ctxsv h d a k) := by
  intro _
  all_goals (obtain ⟨g, e⟩ := h; have i0 := g.isLt; have i1 := b2n_lt e)
  all_goals (have q_d := d.isLt)
  all_goals (have q_a := a.isLt)
  all_goals (have q_k := k.isLt)
  all_goals (constructor <;> simp [encodeF, hdF, hasExt, hasLit] <;> omega)

theorem ctxld (h : Hd) (a : SReg) : Statement (.ctxld h a) := by
  intro _
  all_goals (obtain ⟨g, e⟩ := h; have i0 := g.isLt; have i1 := b2n_lt e)
  all_goals (have q_a := a.isLt)
  all_goals (constructor <;> simp [encodeF, hdF, hasExt, hasLit] <;> omega)

theorem tlbi (h : Hd) (v : TlbiVar) (dom : Bool) (a b : SReg) (k : Tok) : Statement (.tlbi h v dom a b k) := by
  intro _
  all_goals (obtain ⟨g, e⟩ := h; have i0 := g.isLt; have i1 := b2n_lt e)
  all_goals (have q_v := v.code_lt)
  all_goals (have q_dom := b2n_lt dom)
  all_goals (have q_a := a.isLt)
  all_goals (have q_b := b.isLt)
  all_goals (have q_k := k.isLt)
  all_goals (constructor <;> simp [encodeF, hdF, hasExt, hasLit] <;> omega)

theorem add (x : VA) : Statement (.add x) := by
  intro _
  all_goals (obtain ⟨⟨g, e⟩, d, a, b⟩ := x; have i0 := g.isLt; have i1 := b2n_lt e; have i2 := d.isLt; have i3 := a.isLt; rcases b with ⟨n⟩ | ⟨n⟩ | ⟨n⟩ <;> have i4 := n.isLt)
  all_goals (constructor <;> simp [encodeF, hdF, hasExt, hasLit, vaF, Fields.putB] <;> omega)

theorem addX (x : VA) (ty : ITy) (sat : Bool) (cv : Carry) : Statement (.addX x ty sat cv) := by
  intro _
  all_goals (obtain ⟨⟨g, e⟩, d, a, b⟩ := x; have i0 := g.isLt; have i1 := b2n_lt e; have i2 := d.isLt; have i3 := a.isLt; rcases b with ⟨n⟩ | ⟨n⟩ | ⟨n⟩ <;> have i4 := n.isLt)
  all_goals (have q_ty := ty.code_lt)
  all_goals (have q_sat := b2n_lt sat)
  all_goals (rcases cv with _ | p | p | p)
  all_goals (constructor <;> simp [encodeF, hdF, hasExt, hasLit, vaF, Fields.putB, Fields.putCarry] <;> omega)

theorem sub (x : VA) : Statement (.sub x) := by
  intro _
  all_goals (obtain ⟨⟨g, e⟩, d, a, b⟩ := x; have i0 := g.isLt; have i1 := b2n_lt e; have i2 := d.isLt; have i3 := a.isLt; rcases b with ⟨n⟩ | ⟨n⟩ | ⟨n⟩ <;> have i4 := n.isLt)
  all_goals (constructor <;> simp [encodeF, hdF, hasExt, hasLit, vaF, Fields.putB] <;> omega)

theorem subX (x : VA) (ty : ITy) (sat : Bool) (cv : Carry) : Statement (.subX x ty sat cv) := by
  intro _
  all_goals (obtain ⟨⟨g, e⟩, d, a, b⟩ := x; have i0 := g.isLt; have i1 := b2n_lt e; have i2 := d.isLt; have i3 := a.isLt; rcases b with ⟨n⟩ | ⟨n⟩ | ⟨n⟩ <;> have i4 := n.isLt)
  all_goals (have q_ty := ty.code_lt)
  all_goals (have q_sat := b2n_lt sat)
  all_goals (rcases cv with _ | p | p | p)
  all_goals (constructor <;> simp [encodeF, hdF, hasExt, hasLit, vaF, Fields.putB, Fields.putCarry] <;> omega)

theorem mul (x : VA) : Statement (.mul x) := by
  intro _
  all_goals (obtain ⟨⟨g, e⟩, d, a, b⟩ := x; have i0 := g.isLt; have i1 := b2n_lt e; have i2 := d.isLt; have i3 := a.isLt; rcases b with ⟨n⟩ | ⟨n⟩ | ⟨n⟩ <;> have i4 := n.isLt)
  all_goals (constructor <;> simp [encodeF, hdF, hasExt, hasLit, vaF, Fields.putB] <;> omega)

theorem mulX (x : VA) (ty : ITy) (sat : Bool) : Statement (.mulX x ty sat) := by
  intro _
  all_goals (obtain ⟨⟨g, e⟩, d, a, b⟩ := x; have i0 := g.isLt; have i1 := b2n_lt e; have i2 := d.isLt; have i3 := a.isLt; rcases b with ⟨n⟩ | ⟨n⟩ | ⟨n⟩ <;> have i4 := n.isLt)
  all_goals (have q_ty := ty.code_lt)
  all_goals (have q_sat := b2n_lt sat)
  all_goals (constructor <;> simp [encodeF, hdF, hasExt, hasLit, vaF, Fields.putB] <;> omega)

theorem mulh (x : VA) : Statement (.mulh x) := by
  intro _
  all_goals (obtain ⟨⟨g, e⟩, d, a, b⟩ := x; have i0 := g.isLt; have i1 := b2n_lt e; have i2 := d.isLt; have i3 := a.isLt; rcases b with ⟨n⟩ | ⟨n⟩ | ⟨n⟩ <;> have i4 := n.isLt)
  all_goals (constructor <;> simp [encodeF, hdF, hasExt, hasLit, vaF, Fields.putB] <;> omega)

theorem mulhX (x : VA) (ty : ITy) : Statement (.mulhX x ty) := by
  intro _
  all_goals (obtain ⟨⟨g, e⟩, d, a, b⟩ := x; have i0 := g.isLt; have i1 := b2n_lt e; have i2 := d.isLt; have i3 := a.isLt; rcases b with ⟨n⟩ | ⟨n⟩ | ⟨n⟩ <;> have i4 := n.isLt)
  all_goals (have q_ty := ty.code_lt)
  all_goals (constructor <;> simp [encodeF, hdF, hasExt, hasLit, vaF, Fields.putB] <;> omega)

theorem mad (x : VA) (ty : ITy) (sat : Bool) (c : VReg) : Statement (.mad x ty sat c) := by
  intro _
  all_goals (obtain ⟨⟨g, e⟩, d, a, b⟩ := x; have i0 := g.isLt; have i1 := b2n_lt e; have i2 := d.isLt; have i3 := a.isLt; rcases b with ⟨n⟩ | ⟨n⟩ | ⟨n⟩ <;> have i4 := n.isLt)
  all_goals (have q_ty := ty.code_lt)
  all_goals (have q_sat := b2n_lt sat)
  all_goals (have q_c := c.isLt)
  all_goals (constructor <;> simp [encodeF, hdF, hasExt, hasLit, vaF, Fields.putB] <;> omega)

theorem dpb (x : VA) (sg : Fin 4) (sat : Bool) (c : VReg) : Statement (.dpb x sg sat c) := by
  intro _
  all_goals (obtain ⟨⟨g, e⟩, d, a, b⟩ := x; have i0 := g.isLt; have i1 := b2n_lt e; have i2 := d.isLt; have i3 := a.isLt; rcases b with ⟨n⟩ | ⟨n⟩ | ⟨n⟩ <;> have i4 := n.isLt)
  all_goals (have q_sg := sg.isLt)
  all_goals (have q_sat := b2n_lt sat)
  all_goals (have q_c := c.isLt)
  all_goals (constructor <;> simp [encodeF, hdF, hasExt, hasLit, vaF, Fields.putB] <;> omega)

theorem min (x : VA) : Statement (.min x) := by
  intro _
  all_goals (obtain ⟨⟨g, e⟩, d, a, b⟩ := x; have i0 := g.isLt; have i1 := b2n_lt e; have i2 := d.isLt; have i3 := a.isLt; rcases b with ⟨n⟩ | ⟨n⟩ | ⟨n⟩ <;> have i4 := n.isLt)
  all_goals (constructor <;> simp [encodeF, hdF, hasExt, hasLit, vaF, Fields.putB] <;> omega)

theorem minX (x : VA) (ty : ITy) : Statement (.minX x ty) := by
  intro _
  all_goals (obtain ⟨⟨g, e⟩, d, a, b⟩ := x; have i0 := g.isLt; have i1 := b2n_lt e; have i2 := d.isLt; have i3 := a.isLt; rcases b with ⟨n⟩ | ⟨n⟩ | ⟨n⟩ <;> have i4 := n.isLt)
  all_goals (have q_ty := ty.code_lt)
  all_goals (constructor <;> simp [encodeF, hdF, hasExt, hasLit, vaF, Fields.putB] <;> omega)

theorem max (x : VA) : Statement (.max x) := by
  intro _
  all_goals (obtain ⟨⟨g, e⟩, d, a, b⟩ := x; have i0 := g.isLt; have i1 := b2n_lt e; have i2 := d.isLt; have i3 := a.isLt; rcases b with ⟨n⟩ | ⟨n⟩ | ⟨n⟩ <;> have i4 := n.isLt)
  all_goals (constructor <;> simp [encodeF, hdF, hasExt, hasLit, vaF, Fields.putB] <;> omega)

theorem maxX (x : VA) (ty : ITy) : Statement (.maxX x ty) := by
  intro _
  all_goals (obtain ⟨⟨g, e⟩, d, a, b⟩ := x; have i0 := g.isLt; have i1 := b2n_lt e; have i2 := d.isLt; have i3 := a.isLt; rcases b with ⟨n⟩ | ⟨n⟩ | ⟨n⟩ <;> have i4 := n.isLt)
  all_goals (have q_ty := ty.code_lt)
  all_goals (constructor <;> simp [encodeF, hdF, hasExt, hasLit, vaF, Fields.putB] <;> omega)

theorem abs (x : U) : Statement (.abs x) := by
  intro _
  all_goals (obtain ⟨⟨g, e⟩, d, a⟩ := x; have i0 := g.isLt; have i1 := b2n_lt e; have i2 := d.isLt; have i3 := a.isLt)
  all_goals (constructor <;> simp [encodeF, hdF, hasExt, hasLit, uF] <;> omega)

theorem absX (x : U) (ty : ITy) (sat : Bool) : Statement (.absX x ty sat) := by
  intro _
  all_goals (obtain ⟨⟨g, e⟩, d, a⟩ := x; have i0 := g.isLt; have i1 := b2n_lt e; have i2 := d.isLt; have i3 := a.isLt)
  all_goals (have q_ty := ty.code_lt)
  all_goals (have q_sat := b2n_lt sat)
  all_goals (constructor <;> simp [encodeF, hdF, hasExt, hasLit, uF] <;> omega)

theorem neg (x : U) : Statement (.neg x) := by
  intro _
  all_goals (obtain ⟨⟨g, e⟩, d, a⟩ := x; have i0 := g.isLt; have i1 := b2n_lt e; have i2 := d.isLt; have i3 := a.isLt)
  all_goals (constructor <;> simp [encodeF, hdF, hasExt, hasLit, uF] <;> omega)

theorem negX (x : U) (ty : ITy) (sat : Bool) : Statement (.negX x ty sat) := by
  intro _
  all_goals (obtain ⟨⟨g, e⟩, d, a⟩ := x; have i0 := g.isLt; have i1 := b2n_lt e; have i2 := d.isLt; have i3 := a.isLt)
  all_goals (have q_ty := ty.code_lt)
  all_goals (have q_sat := b2n_lt sat)
  all_goals (constructor <;> simp [encodeF, hdF, hasExt, hasLit, uF] <;> omega)

theorem not (x : U) : Statement (.not x) := by
  intro _
  all_goals (obtain ⟨⟨g, e⟩, d, a⟩ := x; have i0 := g.isLt; have i1 := b2n_lt e; have i2 := d.isLt; have i3 := a.isLt)
  all_goals (constructor <;> simp [encodeF, hdF, hasExt, hasLit, uF] <;> omega)

theorem notX (x : U) (ty : ITy) : Statement (.notX x ty) := by
  intro _
  all_goals (obtain ⟨⟨g, e⟩, d, a⟩ := x; have i0 := g.isLt; have i1 := b2n_lt e; have i2 := d.isLt; have i3 := a.isLt)
  all_goals (have q_ty := ty.code_lt)
  all_goals (constructor <;> simp [encodeF, hdF, hasExt, hasLit, uF] <;> omega)

theorem popc (x : U) : Statement (.popc x) := by
  intro _
  all_goals (obtain ⟨⟨g, e⟩, d, a⟩ := x; have i0 := g.isLt; have i1 := b2n_lt e; have i2 := d.isLt; have i3 := a.isLt)
  all_goals (constructor <;> simp [encodeF, hdF, hasExt, hasLit, uF] <;> omega)

theorem popcX (x : U) (ty : ITy) : Statement (.popcX x ty) := by
  intro _
  all_goals (obtain ⟨⟨g, e⟩, d, a⟩ := x; have i0 := g.isLt; have i1 := b2n_lt e; have i2 := d.isLt; have i3 := a.isLt)
  all_goals (have q_ty := ty.code_lt)
  all_goals (constructor <;> simp [encodeF, hdF, hasExt, hasLit, uF] <;> omega)

theorem clz (x : U) : Statement (.clz x) := by
  intro _
  all_goals (obtain ⟨⟨g, e⟩, d, a⟩ := x; have i0 := g.isLt; have i1 := b2n_lt e; have i2 := d.isLt; have i3 := a.isLt)
  all_goals (constructor <;> simp [encodeF, hdF, hasExt, hasLit, uF] <;> omega)

theorem clzX (x : U) (ty : ITy) : Statement (.clzX x ty) := by
  intro _
  all_goals (obtain ⟨⟨g, e⟩, d, a⟩ := x; have i0 := g.isLt; have i1 := b2n_lt e; have i2 := d.isLt; have i3 := a.isLt)
  all_goals (have q_ty := ty.code_lt)
  all_goals (constructor <;> simp [encodeF, hdF, hasExt, hasLit, uF] <;> omega)

theorem brev (x : U) : Statement (.brev x) := by
  intro _
  all_goals (obtain ⟨⟨g, e⟩, d, a⟩ := x; have i0 := g.isLt; have i1 := b2n_lt e; have i2 := d.isLt; have i3 := a.isLt)
  all_goals (constructor <;> simp [encodeF, hdF, hasExt, hasLit, uF] <;> omega)

theorem brevX (x : U) (ty : ITy) : Statement (.brevX x ty) := by
  intro _
  all_goals (obtain ⟨⟨g, e⟩, d, a⟩ := x; have i0 := g.isLt; have i1 := b2n_lt e; have i2 := d.isLt; have i3 := a.isLt)
  all_goals (have q_ty := ty.code_lt)
  all_goals (constructor <;> simp [encodeF, hdF, hasExt, hasLit, uF] <;> omega)

theorem div (x : VA) (ty : ITy) (sat : Bool) (k : Tok) : Statement (.div x ty sat k) := by
  intro _
  all_goals (obtain ⟨⟨g, e⟩, d, a, b⟩ := x; have i0 := g.isLt; have i1 := b2n_lt e; have i2 := d.isLt; have i3 := a.isLt; rcases b with ⟨n⟩ | ⟨n⟩ | ⟨n⟩ <;> have i4 := n.isLt)
  all_goals (have q_ty := ty.code_lt)
  all_goals (have q_sat := b2n_lt sat)
  all_goals (have q_k := k.isLt)
  all_goals (constructor <;> simp [encodeF, hdF, hasExt, hasLit, vaF, Fields.putB] <;> omega)

theorem rem (x : VA) (ty : ITy) (k : Tok) : Statement (.rem x ty k) := by
  intro _
  all_goals (obtain ⟨⟨g, e⟩, d, a, b⟩ := x; have i0 := g.isLt; have i1 := b2n_lt e; have i2 := d.isLt; have i3 := a.isLt; rcases b with ⟨n⟩ | ⟨n⟩ | ⟨n⟩ <;> have i4 := n.isLt)
  all_goals (have q_ty := ty.code_lt)
  all_goals (have q_k := k.isLt)
  all_goals (constructor <;> simp [encodeF, hdF, hasExt, hasLit, vaF, Fields.putB] <;> omega)

theorem and (x : VA) : Statement (.and x) := by
  intro _
  all_goals (obtain ⟨⟨g, e⟩, d, a, b⟩ := x; have i0 := g.isLt; have i1 := b2n_lt e; have i2 := d.isLt; have i3 := a.isLt; rcases b with ⟨n⟩ | ⟨n⟩ | ⟨n⟩ <;> have i4 := n.isLt)
  all_goals (constructor <;> simp [encodeF, hdF, hasExt, hasLit, vaF, Fields.putB] <;> omega)

theorem andX (x : VA) (ty : ITy) : Statement (.andX x ty) := by
  intro _
  all_goals (obtain ⟨⟨g, e⟩, d, a, b⟩ := x; have i0 := g.isLt; have i1 := b2n_lt e; have i2 := d.isLt; have i3 := a.isLt; rcases b with ⟨n⟩ | ⟨n⟩ | ⟨n⟩ <;> have i4 := n.isLt)
  all_goals (have q_ty := ty.code_lt)
  all_goals (constructor <;> simp [encodeF, hdF, hasExt, hasLit, vaF, Fields.putB] <;> omega)

theorem or (x : VA) : Statement (.or x) := by
  intro _
  all_goals (obtain ⟨⟨g, e⟩, d, a, b⟩ := x; have i0 := g.isLt; have i1 := b2n_lt e; have i2 := d.isLt; have i3 := a.isLt; rcases b with ⟨n⟩ | ⟨n⟩ | ⟨n⟩ <;> have i4 := n.isLt)
  all_goals (constructor <;> simp [encodeF, hdF, hasExt, hasLit, vaF, Fields.putB] <;> omega)

theorem orX (x : VA) (ty : ITy) : Statement (.orX x ty) := by
  intro _
  all_goals (obtain ⟨⟨g, e⟩, d, a, b⟩ := x; have i0 := g.isLt; have i1 := b2n_lt e; have i2 := d.isLt; have i3 := a.isLt; rcases b with ⟨n⟩ | ⟨n⟩ | ⟨n⟩ <;> have i4 := n.isLt)
  all_goals (have q_ty := ty.code_lt)
  all_goals (constructor <;> simp [encodeF, hdF, hasExt, hasLit, vaF, Fields.putB] <;> omega)

theorem xor (x : VA) : Statement (.xor x) := by
  intro _
  all_goals (obtain ⟨⟨g, e⟩, d, a, b⟩ := x; have i0 := g.isLt; have i1 := b2n_lt e; have i2 := d.isLt; have i3 := a.isLt; rcases b with ⟨n⟩ | ⟨n⟩ | ⟨n⟩ <;> have i4 := n.isLt)
  all_goals (constructor <;> simp [encodeF, hdF, hasExt, hasLit, vaF, Fields.putB] <;> omega)

theorem xorX (x : VA) (ty : ITy) : Statement (.xorX x ty) := by
  intro _
  all_goals (obtain ⟨⟨g, e⟩, d, a, b⟩ := x; have i0 := g.isLt; have i1 := b2n_lt e; have i2 := d.isLt; have i3 := a.isLt; rcases b with ⟨n⟩ | ⟨n⟩ | ⟨n⟩ <;> have i4 := n.isLt)
  all_goals (have q_ty := ty.code_lt)
  all_goals (constructor <;> simp [encodeF, hdF, hasExt, hasLit, vaF, Fields.putB] <;> omega)

theorem shl (x : VA) : Statement (.shl x) := by
  intro _
  all_goals (obtain ⟨⟨g, e⟩, d, a, b⟩ := x; have i0 := g.isLt; have i1 := b2n_lt e; have i2 := d.isLt; have i3 := a.isLt; rcases b with ⟨n⟩ | ⟨n⟩ | ⟨n⟩ <;> have i4 := n.isLt)
  all_goals (constructor <;> simp [encodeF, hdF, hasExt, hasLit, vaF, Fields.putB] <;> omega)

theorem shlX (x : VA) (ty : ITy) : Statement (.shlX x ty) := by
  intro _
  all_goals (obtain ⟨⟨g, e⟩, d, a, b⟩ := x; have i0 := g.isLt; have i1 := b2n_lt e; have i2 := d.isLt; have i3 := a.isLt; rcases b with ⟨n⟩ | ⟨n⟩ | ⟨n⟩ <;> have i4 := n.isLt)
  all_goals (have q_ty := ty.code_lt)
  all_goals (constructor <;> simp [encodeF, hdF, hasExt, hasLit, vaF, Fields.putB] <;> omega)

theorem shr (x : VA) : Statement (.shr x) := by
  intro _
  all_goals (obtain ⟨⟨g, e⟩, d, a, b⟩ := x; have i0 := g.isLt; have i1 := b2n_lt e; have i2 := d.isLt; have i3 := a.isLt; rcases b with ⟨n⟩ | ⟨n⟩ | ⟨n⟩ <;> have i4 := n.isLt)
  all_goals (constructor <;> simp [encodeF, hdF, hasExt, hasLit, vaF, Fields.putB] <;> omega)

theorem shrX (x : VA) (ty : ITy) : Statement (.shrX x ty) := by
  intro _
  all_goals (obtain ⟨⟨g, e⟩, d, a, b⟩ := x; have i0 := g.isLt; have i1 := b2n_lt e; have i2 := d.isLt; have i3 := a.isLt; rcases b with ⟨n⟩ | ⟨n⟩ | ⟨n⟩ <;> have i4 := n.isLt)
  all_goals (have q_ty := ty.code_lt)
  all_goals (constructor <;> simp [encodeF, hdF, hasExt, hasLit, vaF, Fields.putB] <;> omega)

theorem sra (x : VA) : Statement (.sra x) := by
  intro _
  all_goals (obtain ⟨⟨g, e⟩, d, a, b⟩ := x; have i0 := g.isLt; have i1 := b2n_lt e; have i2 := d.isLt; have i3 := a.isLt; rcases b with ⟨n⟩ | ⟨n⟩ | ⟨n⟩ <;> have i4 := n.isLt)
  all_goals (constructor <;> simp [encodeF, hdF, hasExt, hasLit, vaF, Fields.putB] <;> omega)

theorem sraX (x : VA) (ty : ITy) : Statement (.sraX x ty) := by
  intro _
  all_goals (obtain ⟨⟨g, e⟩, d, a, b⟩ := x; have i0 := g.isLt; have i1 := b2n_lt e; have i2 := d.isLt; have i3 := a.isLt; rcases b with ⟨n⟩ | ⟨n⟩ | ⟨n⟩ <;> have i4 := n.isLt)
  all_goals (have q_ty := ty.code_lt)
  all_goals (constructor <;> simp [encodeF, hdF, hasExt, hasLit, vaF, Fields.putB] <;> omega)

theorem rot (x : VA) : Statement (.rot x) := by
  intro _
  all_goals (obtain ⟨⟨g, e⟩, d, a, b⟩ := x; have i0 := g.isLt; have i1 := b2n_lt e; have i2 := d.isLt; have i3 := a.isLt; rcases b with ⟨n⟩ | ⟨n⟩ | ⟨n⟩ <;> have i4 := n.isLt)
  all_goals (constructor <;> simp [encodeF, hdF, hasExt, hasLit, vaF, Fields.putB] <;> omega)

theorem rotX (x : VA) (ty : ITy) : Statement (.rotX x ty) := by
  intro _
  all_goals (obtain ⟨⟨g, e⟩, d, a, b⟩ := x; have i0 := g.isLt; have i1 := b2n_lt e; have i2 := d.isLt; have i3 := a.isLt; rcases b with ⟨n⟩ | ⟨n⟩ | ⟨n⟩ <;> have i4 := n.isLt)
  all_goals (have q_ty := ty.code_lt)
  all_goals (constructor <;> simp [encodeF, hdF, hasExt, hasLit, vaF, Fields.putB] <;> omega)

theorem bfx (x : VA) (ty : ITy) : Statement (.bfx x ty) := by
  intro _
  all_goals (obtain ⟨⟨g, e⟩, d, a, b⟩ := x; have i0 := g.isLt; have i1 := b2n_lt e; have i2 := d.isLt; have i3 := a.isLt; rcases b with ⟨n⟩ | ⟨n⟩ | ⟨n⟩ <;> have i4 := n.isLt)
  all_goals (have q_ty := ty.code_lt)
  all_goals (constructor <;> simp [encodeF, hdF, hasExt, hasLit, vaF, Fields.putB] <;> omega)

theorem bfi (x : VA) (ty : ITy) (c : VReg) : Statement (.bfi x ty c) := by
  intro _
  all_goals (obtain ⟨⟨g, e⟩, d, a, b⟩ := x; have i0 := g.isLt; have i1 := b2n_lt e; have i2 := d.isLt; have i3 := a.isLt; rcases b with ⟨n⟩ | ⟨n⟩ | ⟨n⟩ <;> have i4 := n.isLt)
  all_goals (have q_ty := ty.code_lt)
  all_goals (have q_c := c.isLt)
  all_goals (constructor <;> simp [encodeF, hdF, hasExt, hasLit, vaF, Fields.putB] <;> omega)

theorem sel (x : VA) (c : PReg) : Statement (.sel x c) := by
  intro _
  all_goals (obtain ⟨⟨g, e⟩, d, a, b⟩ := x; have i0 := g.isLt; have i1 := b2n_lt e; have i2 := d.isLt; have i3 := a.isLt; rcases b with ⟨n⟩ | ⟨n⟩ | ⟨n⟩ <;> have i4 := n.isLt)
  all_goals (have q_c := c.isLt)
  all_goals (constructor <;> simp [encodeF, hdF, hasExt, hasLit, vaF, Fields.putB] <;> omega)

theorem cmp (h : Hd) (cc : CC) (p : PReg) (a : VReg) (b : OpB) : Statement (.cmp h cc p a b) := by
  intro _
  all_goals (obtain ⟨g, e⟩ := h; have i0 := g.isLt; have i1 := b2n_lt e)
  all_goals (have q_cc := cc.code_lt)
  all_goals (have q_p := p.isLt)
  all_goals (have q_a := a.isLt)
  all_goals (rcases b with ⟨n⟩ | ⟨n⟩ | ⟨n⟩ <;> have i4 := n.isLt)
  all_goals (constructor <;> simp [encodeF, hdF, hasExt, hasLit, Fields.putB] <;> omega)

theorem cmpX (h : Hd) (cc : CC) (p : PReg) (a : VReg) (b : OpB) (ty : ITy) : Statement (.cmpX h cc p a b ty) := by
  intro _
  all_goals (obtain ⟨g, e⟩ := h; have i0 := g.isLt; have i1 := b2n_lt e)
  all_goals (have q_cc := cc.code_lt)
  all_goals (have q_p := p.isLt)
  all_goals (have q_a := a.isLt)
  all_goals (rcases b with ⟨n⟩ | ⟨n⟩ | ⟨n⟩ <;> have i4 := n.isLt)
  all_goals (have q_ty := ty.code_lt)
  all_goals (constructor <;> simp [encodeF, hdF, hasExt, hasLit, Fields.putB] <;> omega)

theorem plog (h : Hd) (f : PFn) (d a b : PReg) : Statement (.plog h f d a b) := by
  intro _
  all_goals (obtain ⟨g, e⟩ := h; have i0 := g.isLt; have i1 := b2n_lt e)
  all_goals (have q_f := f.code_lt)
  all_goals (have q_d := d.isLt)
  all_goals (have q_a := a.isLt)
  all_goals (have q_b := b.isLt)
  all_goals (constructor <;> simp [encodeF, hdF, hasExt, hasLit] <;> omega)

theorem mov (h : Hd) (d : VReg) (b : OpB) : Statement (.mov h d b) := by
  intro _
  all_goals (obtain ⟨g, e⟩ := h; have i0 := g.isLt; have i1 := b2n_lt e)
  all_goals (have q_d := d.isLt)
  all_goals (rcases b with ⟨n⟩ | ⟨n⟩ | ⟨n⟩ <;> have i4 := n.isLt)
  all_goals (constructor <;> simp [encodeF, hdF, hasExt, hasLit, Fields.putB] <;> omega)

theorem movX (h : Hd) (m : MovX) : Statement (.movX h m) := by
  intro _
  all_goals (obtain ⟨g, e⟩ := h; have i0 := g.isLt; have i1 := b2n_lt e)
  all_goals (rcases m with ⟨d, b⟩ | ⟨d, q⟩ | ⟨q, b⟩ <;> [(rcases b with ⟨n⟩ | ⟨n⟩ | ⟨n⟩ <;> have i4 := n.isLt); skip; (rcases b with ⟨n⟩ | ⟨n⟩ | ⟨n⟩ <;> have i4 := n.isLt)])
  all_goals (constructor <;> simp [encodeF, hdF, hasExt, hasLit, movXF, Fields.putB] <;> omega)

theorem movl (h : Hd) (d : VReg) (x : Dword) : Statement (.movl h d x) := by
  intro _
  all_goals (obtain ⟨g, e⟩ := h; have i0 := g.isLt; have i1 := b2n_lt e)
  all_goals (have q_d := d.isLt)
  all_goals (have q_x := x.isLt)
  all_goals (constructor <;> simp [encodeF, hdF, hasExt, hasLit] <;> omega)

theorem movs (h : Hd) (d : VReg) (a : SReg) : Statement (.movs h d a) := by
  intro _
  all_goals (obtain ⟨g, e⟩ := h; have i0 := g.isLt; have i1 := b2n_lt e)
  all_goals (have q_d := d.isLt)
  all_goals (have q_a := a.isLt)
  all_goals (constructor <;> simp [encodeF, hdF, hasExt, hasLit] <;> omega)

theorem movsX (h : Hd) (m : MovsX) : Statement (.movsX h m) := by
  intro _
  all_goals (obtain ⟨g, e⟩ := h; have i0 := g.isLt; have i1 := b2n_lt e)
  all_goals (cases m)
  all_goals (constructor <;> simp [encodeF, hdF, hasExt, hasLit, movsXF] <;> omega)

theorem shfl (x : VA) : Statement (.shfl x) := by
  intro _
  all_goals (obtain ⟨⟨g, e⟩, d, a, b⟩ := x; have i0 := g.isLt; have i1 := b2n_lt e; have i2 := d.isLt; have i3 := a.isLt; rcases b with ⟨n⟩ | ⟨n⟩ | ⟨n⟩ <;> have i4 := n.isLt)
  all_goals (constructor <;> simp [encodeF, hdF, hasExt, hasLit, vaF, Fields.putB] <;> omega)

theorem shflX (x : VA) (var : ShVar) : Statement (.shflX x var) := by
  intro _
  all_goals (obtain ⟨⟨g, e⟩, d, a, b⟩ := x; have i0 := g.isLt; have i1 := b2n_lt e; have i2 := d.isLt; have i3 := a.isLt; rcases b with ⟨n⟩ | ⟨n⟩ | ⟨n⟩ <;> have i4 := n.isLt)
  all_goals (have q_var := var.code_lt)
  all_goals (constructor <;> simp [encodeF, hdF, hasExt, hasLit, vaF, Fields.putB] <;> omega)

theorem vote (h : Hd) (d p : PReg) : Statement (.vote h d p) := by
  intro _
  all_goals (obtain ⟨g, e⟩ := h; have i0 := g.isLt; have i1 := b2n_lt e)
  all_goals (have q_d := d.isLt)
  all_goals (have q_p := p.isLt)
  all_goals (constructor <;> simp [encodeF, hdF, hasExt, hasLit] <;> omega)

theorem voteX (h : Hd) (v : VoteX) : Statement (.voteX h v) := by
  intro _
  all_goals (obtain ⟨g, e⟩ := h; have i0 := g.isLt; have i1 := b2n_lt e)
  all_goals (cases v)
  all_goals (constructor <;> simp [encodeF, hdF, hasExt, hasLit, voteXF] <;> omega)

theorem lred (h : Hd) (op : LOp) (d a : VReg) : Statement (.lred h op d a) := by
  intro _
  all_goals (obtain ⟨g, e⟩ := h; have i0 := g.isLt; have i1 := b2n_lt e)
  all_goals (have q_op := op.code_lt)
  all_goals (have q_d := d.isLt)
  all_goals (have q_a := a.isLt)
  all_goals (constructor <;> simp [encodeF, hdF, hasExt, hasLit] <;> omega)

theorem lredX (h : Hd) (op : LOp) (ty : ITy) (sat : Bool) (dst : LDst) (a : VReg) : Statement (.lredX h op ty sat dst a) := by
  intro _
  all_goals (obtain ⟨g, e⟩ := h; have i0 := g.isLt; have i1 := b2n_lt e)
  all_goals (have q_op := op.code_lt)
  all_goals (have q_ty := ty.code_lt)
  all_goals (have q_sat := b2n_lt sat)
  all_goals (rcases dst with ⟨n⟩ | ⟨n⟩ <;> have j5 := n.isLt)
  all_goals (have q_a := a.isLt)
  all_goals (constructor <;> simp [encodeF, hdF, hasExt, hasLit, lredXF] <;> omega)

theorem lscan (h : Hd) (op : LOp) (d a : VReg) : Statement (.lscan h op d a) := by
  intro _
  all_goals (obtain ⟨g, e⟩ := h; have i0 := g.isLt; have i1 := b2n_lt e)
  all_goals (have q_op := op.code_lt)
  all_goals (have q_d := d.isLt)
  all_goals (have q_a := a.isLt)
  all_goals (constructor <;> simp [encodeF, hdF, hasExt, hasLit] <;> omega)

theorem lscanX (h : Hd) (op : LOp) (ty : ITy) (sat : Bool) (excl : Bool) (d a : VReg) : Statement (.lscanX h op ty sat excl d a) := by
  intro _
  all_goals (obtain ⟨g, e⟩ := h; have i0 := g.isLt; have i1 := b2n_lt e)
  all_goals (have q_op := op.code_lt)
  all_goals (have q_ty := ty.code_lt)
  all_goals (have q_sat := b2n_lt sat)
  all_goals (have q_excl := b2n_lt excl)
  all_goals (have q_d := d.isLt)
  all_goals (have q_a := a.isLt)
  all_goals (constructor <;> simp [encodeF, hdF, hasExt, hasLit] <;> omega)

theorem scalarForm (h : Hd) (ty : ITy) (op : SOp) : Statement (.scalarForm h ty op) := by
  intro _
  all_goals (obtain ⟨g, e⟩ := h; have i0 := g.isLt; have i1 := b2n_lt e)
  all_goals (have q_ty := ty.code_lt)
  all_goals (rcases op with ⟨d, a, ⟨n⟩ | ⟨n⟩, sat, _ | p | p | p⟩ | ⟨d, a, ⟨n⟩ | ⟨n⟩, sat, _ | p | p | p⟩ | ⟨d, a, ⟨n⟩ | ⟨n⟩, sat⟩ | ⟨d, a, ⟨n⟩ | ⟨n⟩, c, sat⟩ | ⟨o, d, a, ⟨n⟩ | ⟨n⟩⟩ | ⟨d, a, ⟨n⟩ | ⟨n⟩, c⟩ | ⟨fn, d, a, sat, _ | n⟩ | ⟨d, a, ⟨n⟩ | ⟨n⟩, sat, k⟩ | ⟨d, a, ⟨n⟩ | ⟨n⟩, k⟩ | ⟨cc, p, a, ⟨n⟩ | ⟨n⟩⟩ | ⟨d, ⟨n⟩ | ⟨n⟩⟩)
  all_goals (try have y0 := o.code_lt)
  all_goals (try have y1 := fn.code_lt)
  all_goals (try have y2 := cc.code_lt)
  all_goals (try have y3 := b2n_lt sat)
  all_goals (constructor <;> simp [encodeF, hdF, hasExt, hasLit, sopF, Fields.putSB, Fields.putCarry] <;> omega)

theorem fadd (x : VA) : Statement (.fadd x) := by
  intro _
  all_goals (obtain ⟨⟨g, e⟩, d, a, b⟩ := x; have i0 := g.isLt; have i1 := b2n_lt e; have i2 := d.isLt; have i3 := a.isLt; rcases b with ⟨n⟩ | ⟨n⟩ | ⟨n⟩ <;> have i4 := n.isLt)
  all_goals (constructor <;> simp [encodeF, hdF, hasExt, hasLit, vaF, Fields.putB] <;> omega)

theorem faddX (x : VA) (ty : FTy) (lo : Bool) (rnd : Rnd) : Statement (.faddX x ty lo rnd) := by
  intro _
  all_goals (obtain ⟨⟨g, e⟩, d, a, b⟩ := x; have i0 := g.isLt; have i1 := b2n_lt e; have i2 := d.isLt; have i3 := a.isLt; rcases b with ⟨n⟩ | ⟨n⟩ | ⟨n⟩ <;> have i4 := n.isLt)
  all_goals (have q_ty := ty.code_lt)
  all_goals (have q_lo := b2n_lt lo)
  all_goals (have q_rnd := rnd.code_lt)
  all_goals (constructor <;> simp [encodeF, hdF, hasExt, hasLit, vaF, Fields.putB] <;> omega)

theorem fsub (x : VA) : Statement (.fsub x) := by
  intro _
  all_goals (obtain ⟨⟨g, e⟩, d, a, b⟩ := x; have i0 := g.isLt; have i1 := b2n_lt e; have i2 := d.isLt; have i3 := a.isLt; rcases b with ⟨n⟩ | ⟨n⟩ | ⟨n⟩ <;> have i4 := n.isLt)
  all_goals (constructor <;> simp [encodeF, hdF, hasExt, hasLit, vaF, Fields.putB] <;> omega)

theorem fsubX (x : VA) (ty : FTy) (lo : Bool) (rnd : Rnd) : Statement (.fsubX x ty lo rnd) := by
  intro _
  all_goals (obtain ⟨⟨g, e⟩, d, a, b⟩ := x; have i0 := g.isLt; have i1 := b2n_lt e; have i2 := d.isLt; have i3 := a.isLt; rcases b with ⟨n⟩ | ⟨n⟩ | ⟨n⟩ <;> have i4 := n.isLt)
  all_goals (have q_ty := ty.code_lt)
  all_goals (have q_lo := b2n_lt lo)
  all_goals (have q_rnd := rnd.code_lt)
  all_goals (constructor <;> simp [encodeF, hdF, hasExt, hasLit, vaF, Fields.putB] <;> omega)

theorem fmul (x : VA) : Statement (.fmul x) := by
  intro _
  all_goals (obtain ⟨⟨g, e⟩, d, a, b⟩ := x; have i0 := g.isLt; have i1 := b2n_lt e; have i2 := d.isLt; have i3 := a.isLt; rcases b with ⟨n⟩ | ⟨n⟩ | ⟨n⟩ <;> have i4 := n.isLt)
  all_goals (constructor <;> simp [encodeF, hdF, hasExt, hasLit, vaF, Fields.putB] <;> omega)

theorem fmulX (x : VA) (ty : FTy) (lo : Bool) (rnd : Rnd) : Statement (.fmulX x ty lo rnd) := by
  intro _
  all_goals (obtain ⟨⟨g, e⟩, d, a, b⟩ := x; have i0 := g.isLt; have i1 := b2n_lt e; have i2 := d.isLt; have i3 := a.isLt; rcases b with ⟨n⟩ | ⟨n⟩ | ⟨n⟩ <;> have i4 := n.isLt)
  all_goals (have q_ty := ty.code_lt)
  all_goals (have q_lo := b2n_lt lo)
  all_goals (have q_rnd := rnd.code_lt)
  all_goals (constructor <;> simp [encodeF, hdF, hasExt, hasLit, vaF, Fields.putB] <;> omega)

theorem ffma (x : VA) (ty : FTy) (lo : Bool) (rnd : Rnd) (c : VReg) : Statement (.ffma x ty lo rnd c) := by
  intro _
  all_goals (obtain ⟨⟨g, e⟩, d, a, b⟩ := x; have i0 := g.isLt; have i1 := b2n_lt e; have i2 := d.isLt; have i3 := a.isLt; rcases b with ⟨n⟩ | ⟨n⟩ | ⟨n⟩ <;> have i4 := n.isLt)
  all_goals (have q_ty := ty.code_lt)
  all_goals (have q_lo := b2n_lt lo)
  all_goals (have q_rnd := rnd.code_lt)
  all_goals (have q_c := c.isLt)
  all_goals (constructor <;> simp [encodeF, hdF, hasExt, hasLit, vaF, Fields.putB] <;> omega)

theorem fmin (x : VA) : Statement (.fmin x) := by
  intro _
  all_goals (obtain ⟨⟨g, e⟩, d, a, b⟩ := x; have i0 := g.isLt; have i1 := b2n_lt e; have i2 := d.isLt; have i3 := a.isLt; rcases b with ⟨n⟩ | ⟨n⟩ | ⟨n⟩ <;> have i4 := n.isLt)
  all_goals (constructor <;> simp [encodeF, hdF, hasExt, hasLit, vaF, Fields.putB] <;> omega)

theorem fminX (x : VA) (ty : FTy) (lo : Bool) : Statement (.fminX x ty lo) := by
  intro _
  all_goals (obtain ⟨⟨g, e⟩, d, a, b⟩ := x; have i0 := g.isLt; have i1 := b2n_lt e; have i2 := d.isLt; have i3 := a.isLt; rcases b with ⟨n⟩ | ⟨n⟩ | ⟨n⟩ <;> have i4 := n.isLt)
  all_goals (have q_ty := ty.code_lt)
  all_goals (have q_lo := b2n_lt lo)
  all_goals (constructor <;> simp [encodeF, hdF, hasExt, hasLit, vaF, Fields.putB] <;> omega)

theorem fmax (x : VA) : Statement (.fmax x) := by
  intro _
  all_goals (obtain ⟨⟨g, e⟩, d, a, b⟩ := x; have i0 := g.isLt; have i1 := b2n_lt e; have i2 := d.isLt; have i3 := a.isLt; rcases b with ⟨n⟩ | ⟨n⟩ | ⟨n⟩ <;> have i4 := n.isLt)
  all_goals (constructor <;> simp [encodeF, hdF, hasExt, hasLit, vaF, Fields.putB] <;> omega)

theorem fmaxX (x : VA) (ty : FTy) (lo : Bool) : Statement (.fmaxX x ty lo) := by
  intro _
  all_goals (obtain ⟨⟨g, e⟩, d, a, b⟩ := x; have i0 := g.isLt; have i1 := b2n_lt e; have i2 := d.isLt; have i3 := a.isLt; rcases b with ⟨n⟩ | ⟨n⟩ | ⟨n⟩ <;> have i4 := n.isLt)
  all_goals (have q_ty := ty.code_lt)
  all_goals (have q_lo := b2n_lt lo)
  all_goals (constructor <;> simp [encodeF, hdF, hasExt, hasLit, vaF, Fields.putB] <;> omega)

theorem frcp (x : U) : Statement (.frcp x) := by
  intro _
  all_goals (obtain ⟨⟨g, e⟩, d, a⟩ := x; have i0 := g.isLt; have i1 := b2n_lt e; have i2 := d.isLt; have i3 := a.isLt)
  all_goals (constructor <;> simp [encodeF, hdF, hasExt, hasLit, uF] <;> omega)

theorem frcpX (x : U) (rnd : Rnd) : Statement (.frcpX x rnd) := by
  intro _
  all_goals (obtain ⟨⟨g, e⟩, d, a⟩ := x; have i0 := g.isLt; have i1 := b2n_lt e; have i2 := d.isLt; have i3 := a.isLt)
  all_goals (have q_rnd := rnd.code_lt)
  all_goals (constructor <;> simp [encodeF, hdF, hasExt, hasLit, uF] <;> omega)

theorem frsq (x : U) : Statement (.frsq x) := by
  intro _
  all_goals (obtain ⟨⟨g, e⟩, d, a⟩ := x; have i0 := g.isLt; have i1 := b2n_lt e; have i2 := d.isLt; have i3 := a.isLt)
  all_goals (constructor <;> simp [encodeF, hdF, hasExt, hasLit, uF] <;> omega)

theorem frsqX (x : U) : Statement (.frsqX x) := by
  intro _
  all_goals (obtain ⟨⟨g, e⟩, d, a⟩ := x; have i0 := g.isLt; have i1 := b2n_lt e; have i2 := d.isLt; have i3 := a.isLt)
  all_goals (constructor <;> simp [encodeF, hdF, hasExt, hasLit, uF] <;> omega)

theorem fsqrt (x : U) : Statement (.fsqrt x) := by
  intro _
  all_goals (obtain ⟨⟨g, e⟩, d, a⟩ := x; have i0 := g.isLt; have i1 := b2n_lt e; have i2 := d.isLt; have i3 := a.isLt)
  all_goals (constructor <;> simp [encodeF, hdF, hasExt, hasLit, uF] <;> omega)

theorem fsqrtX (x : U) (rnd : Rnd) : Statement (.fsqrtX x rnd) := by
  intro _
  all_goals (obtain ⟨⟨g, e⟩, d, a⟩ := x; have i0 := g.isLt; have i1 := b2n_lt e; have i2 := d.isLt; have i3 := a.isLt)
  all_goals (have q_rnd := rnd.code_lt)
  all_goals (constructor <;> simp [encodeF, hdF, hasExt, hasLit, uF] <;> omega)

theorem fex2 (x : U) : Statement (.fex2 x) := by
  intro _
  all_goals (obtain ⟨⟨g, e⟩, d, a⟩ := x; have i0 := g.isLt; have i1 := b2n_lt e; have i2 := d.isLt; have i3 := a.isLt)
  all_goals (constructor <;> simp [encodeF, hdF, hasExt, hasLit, uF] <;> omega)

theorem fex2X (x : U) : Statement (.fex2X x) := by
  intro _
  all_goals (obtain ⟨⟨g, e⟩, d, a⟩ := x; have i0 := g.isLt; have i1 := b2n_lt e; have i2 := d.isLt; have i3 := a.isLt)
  all_goals (constructor <;> simp [encodeF, hdF, hasExt, hasLit, uF] <;> omega)

theorem flg2 (x : U) : Statement (.flg2 x) := by
  intro _
  all_goals (obtain ⟨⟨g, e⟩, d, a⟩ := x; have i0 := g.isLt; have i1 := b2n_lt e; have i2 := d.isLt; have i3 := a.isLt)
  all_goals (constructor <;> simp [encodeF, hdF, hasExt, hasLit, uF] <;> omega)

theorem flg2X (x : U) : Statement (.flg2X x) := by
  intro _
  all_goals (obtain ⟨⟨g, e⟩, d, a⟩ := x; have i0 := g.isLt; have i1 := b2n_lt e; have i2 := d.isLt; have i3 := a.isLt)
  all_goals (constructor <;> simp [encodeF, hdF, hasExt, hasLit, uF] <;> omega)

theorem fsin (x : U) : Statement (.fsin x) := by
  intro _
  all_goals (obtain ⟨⟨g, e⟩, d, a⟩ := x; have i0 := g.isLt; have i1 := b2n_lt e; have i2 := d.isLt; have i3 := a.isLt)
  all_goals (constructor <;> simp [encodeF, hdF, hasExt, hasLit, uF] <;> omega)

theorem fsinX (x : U) : Statement (.fsinX x) := by
  intro _
  all_goals (obtain ⟨⟨g, e⟩, d, a⟩ := x; have i0 := g.isLt; have i1 := b2n_lt e; have i2 := d.isLt; have i3 := a.isLt)
  all_goals (constructor <;> simp [encodeF, hdF, hasExt, hasLit, uF] <;> omega)

theorem fcos (x : U) : Statement (.fcos x) := by
  intro _
  all_goals (obtain ⟨⟨g, e⟩, d, a⟩ := x; have i0 := g.isLt; have i1 := b2n_lt e; have i2 := d.isLt; have i3 := a.isLt)
  all_goals (constructor <;> simp [encodeF, hdF, hasExt, hasLit, uF] <;> omega)

theorem fcosX (x : U) : Statement (.fcosX x) := by
  intro _
  all_goals (obtain ⟨⟨g, e⟩, d, a⟩ := x; have i0 := g.isLt; have i1 := b2n_lt e; have i2 := d.isLt; have i3 := a.isLt)
  all_goals (constructor <;> simp [encodeF, hdF, hasExt, hasLit, uF] <;> omega)

theorem fcmp (h : Hd) (cc : FCC) (p : PReg) (a : VReg) (b : OpB) : Statement (.fcmp h cc p a b) := by
  intro _
  all_goals (obtain ⟨g, e⟩ := h; have i0 := g.isLt; have i1 := b2n_lt e)
  all_goals (have q_cc := cc.code_lt)
  all_goals (have q_p := p.isLt)
  all_goals (have q_a := a.isLt)
  all_goals (rcases b with ⟨n⟩ | ⟨n⟩ | ⟨n⟩ <;> have i4 := n.isLt)
  all_goals (constructor <;> simp [encodeF, hdF, hasExt, hasLit, Fields.putB] <;> omega)

theorem fcmpX (h : Hd) (cc : FCC) (p : PReg) (a : VReg) (b : OpB) (ty : FTy) (lo : Bool) : Statement (.fcmpX h cc p a b ty lo) := by
  intro _
  all_goals (obtain ⟨g, e⟩ := h; have i0 := g.isLt; have i1 := b2n_lt e)
  all_goals (have q_cc := cc.code_lt)
  all_goals (have q_p := p.isLt)
  all_goals (have q_a := a.isLt)
  all_goals (rcases b with ⟨n⟩ | ⟨n⟩ | ⟨n⟩ <;> have i4 := n.isLt)
  all_goals (have q_ty := ty.code_lt)
  all_goals (have q_lo := b2n_lt lo)
  all_goals (constructor <;> simp [encodeF, hdF, hasExt, hasLit, Fields.putB] <;> omega)

theorem fcvt (x : U) (td ts : ETy) (sel : Fin 8) (ofn sat : Bool) (rnd : Rnd) : Statement (.fcvt x td ts sel ofn sat rnd) := by
  intro _
  all_goals (obtain ⟨⟨g, e⟩, d, a⟩ := x; have i0 := g.isLt; have i1 := b2n_lt e; have i2 := d.isLt; have i3 := a.isLt)
  all_goals (have q_td := td.code_lt)
  all_goals (have q_ts := ts.code_lt)
  all_goals (have q_sel := sel.isLt)
  all_goals (have q_ofn := b2n_lt ofn)
  all_goals (have q_sat := b2n_lt sat)
  all_goals (have q_rnd := rnd.code_lt)
  all_goals (constructor <;> simp [encodeF, hdF, hasExt, hasLit, uF, tyPair] <;> omega)

theorem fpk (x : U) (td ts : ETy) (o : Fin 64) (k : Fin 32) (rnd : Rnd) : Statement (.fpk x td ts o k rnd) := by
  intro _
  all_goals (obtain ⟨⟨g, e⟩, d, a⟩ := x; have i0 := g.isLt; have i1 := b2n_lt e; have i2 := d.isLt; have i3 := a.isLt)
  all_goals (have q_td := td.code_lt)
  all_goals (have q_ts := ts.code_lt)
  all_goals (have q_o := o.isLt)
  all_goals (have q_k := k.isLt)
  all_goals (have q_rnd := rnd.code_lt)
  all_goals (constructor <;> simp [encodeF, hdF, hasExt, hasLit, uF, tyPair] <;> omega)

theorem funpk (x : U) (td ts : ETy) (o : Fin 64) (k : Fin 32) (rnd : Rnd) : Statement (.funpk x td ts o k rnd) := by
  intro _
  all_goals (obtain ⟨⟨g, e⟩, d, a⟩ := x; have i0 := g.isLt; have i1 := b2n_lt e; have i2 := d.isLt; have i3 := a.isLt)
  all_goals (have q_td := td.code_lt)
  all_goals (have q_ts := ts.code_lt)
  all_goals (have q_o := o.isLt)
  all_goals (have q_k := k.isLt)
  all_goals (have q_rnd := rnd.code_lt)
  all_goals (constructor <;> simp [encodeF, hdF, hasExt, hasLit, uF, tyPair] <;> omega)

theorem bscl (h : Hd) (d : SReg) (a : VReg) (td ts : ETy) (ce i4 : Bool) : Statement (.bscl h d a td ts ce i4) := by
  intro _
  all_goals (obtain ⟨g, e⟩ := h; have i0 := g.isLt; have i1 := b2n_lt e)
  all_goals (have q_d := d.isLt)
  all_goals (have q_a := a.isLt)
  all_goals (have q_td := td.code_lt)
  all_goals (have q_ts := ts.code_lt)
  all_goals (have q_ce := b2n_lt ce)
  all_goals (have q_i4 := b2n_lt i4)
  all_goals (constructor <;> simp [encodeF, hdF, hasExt, hasLit, tyPair] <;> omega)

theorem bqnt (h : Hd) (d a : VReg) (b : SReg) (td ts : ETy) (ofn i4 : Bool) (rnd : Rnd) : Statement (.bqnt h d a b td ts ofn i4 rnd) := by
  intro _
  all_goals (obtain ⟨g, e⟩ := h; have i0 := g.isLt; have i1 := b2n_lt e)
  all_goals (have q_d := d.isLt)
  all_goals (have q_a := a.isLt)
  all_goals (have q_b := b.isLt)
  all_goals (have q_td := td.code_lt)
  all_goals (have q_ts := ts.code_lt)
  all_goals (have q_ofn := b2n_lt ofn)
  all_goals (have q_i4 := b2n_lt i4)
  all_goals (have q_rnd := rnd.code_lt)
  all_goals (constructor <;> simp [encodeF, hdF, hasExt, hasLit, tyPair] <;> omega)

theorem bdeq (h : Hd) (d a : VReg) (b : SReg) (td ts : ETy) (i4 : Bool) (rnd : Rnd) : Statement (.bdeq h d a b td ts i4 rnd) := by
  intro _
  all_goals (obtain ⟨g, e⟩ := h; have i0 := g.isLt; have i1 := b2n_lt e)
  all_goals (have q_d := d.isLt)
  all_goals (have q_a := a.isLt)
  all_goals (have q_b := b.isLt)
  all_goals (have q_td := td.code_lt)
  all_goals (have q_ts := ts.code_lt)
  all_goals (have q_i4 := b2n_lt i4)
  all_goals (have q_rnd := rnd.code_lt)
  all_goals (constructor <;> simp [encodeF, hdF, hasExt, hasLit, tyPair] <;> omega)

theorem rseed (h : Hd) (a : VReg) : Statement (.rseed h a) := by
  intro _
  all_goals (obtain ⟨g, e⟩ := h; have i0 := g.isLt; have i1 := b2n_lt e)
  all_goals (have q_a := a.isLt)
  all_goals (constructor <;> simp [encodeF, hdF, hasExt, hasLit] <;> omega)

theorem rseedX (h : Hd) (a : VReg) : Statement (.rseedX h a) := by
  intro _
  all_goals (obtain ⟨g, e⟩ := h; have i0 := g.isLt; have i1 := b2n_lt e)
  all_goals (have q_a := a.isLt)
  all_goals (constructor <;> simp [encodeF, hdF, hasExt, hasLit] <;> omega)

theorem ld (h : Hd) (m : Addr) (sh : Shape) (ty : MTy) (d : Fin 64) (acq : Option Scope) (k : Tok) : Statement (.ld h m sh ty d acq k) := by
  intro _
  all_goals (obtain ⟨g, e⟩ := h; have i0 := g.isLt; have i1 := b2n_lt e)
  all_goals (obtain ⟨ma, mi, mo⟩ := m; have j0 := ma.isLt; have j1 := mo.isLt; rcases mi with ⟨mb⟩ | ⟨mb, mu, ms⟩ <;> [have j2 := mb.isLt; (have j2 := mb.isLt; have j3 := b2n_lt mu; have j4 := b2n_lt ms)])
  all_goals (have q_sh := sh.code_lt)
  all_goals (have q_ty := ty.code_lt)
  all_goals (have q_d := d.isLt)
  all_goals (rcases acq with _ | sc <;> [skip; have j6 := sc.code_lt])
  all_goals (have q_k := k.isLt)
  all_goals (constructor <;> simp [encodeF, hdF, hasExt, hasLit, Fields.putAddr, Fields.putAcq] <;> omega)

theorem st (h : Hd) (m : Addr) (sh : Shape) (ty : MTy) (c : Fin 64) (rel : Option Scope) (k : Tok) : Statement (.st h m sh ty c rel k) := by
  intro _
  all_goals (obtain ⟨g, e⟩ := h; have i0 := g.isLt; have i1 := b2n_lt e)
  all_goals (obtain ⟨ma, mi, mo⟩ := m; have j0 := ma.isLt; have j1 := mo.isLt; rcases mi with ⟨mb⟩ | ⟨mb, mu, ms⟩ <;> [have j2 := mb.isLt; (have j2 := mb.isLt; have j3 := b2n_lt mu; have j4 := b2n_lt ms)])
  all_goals (have q_sh := sh.code_lt)
  all_goals (have q_ty := ty.code_lt)
  all_goals (have q_c := c.isLt)
  all_goals (rcases rel with _ | sc <;> [skip; have j6 := sc.code_lt])
  all_goals (have q_k := k.isLt)
  all_goals (constructor <;> simp [encodeF, hdF, hasExt, hasLit, Fields.putAddr, Fields.putRel] <;> omega)

theorem ldg (h : Hd) (m : Addr) (sh : Shape) (ty : MTy) (d : Fin 64) (acq : Option Scope) (k : Tok) (live : Dword) : Statement (.ldg h m sh ty d acq k live) := by
  intro _
  all_goals (obtain ⟨g, e⟩ := h; have i0 := g.isLt; have i1 := b2n_lt e)
  all_goals (obtain ⟨ma, mi, mo⟩ := m; have j0 := ma.isLt; have j1 := mo.isLt; rcases mi with ⟨mb⟩ | ⟨mb, mu, ms⟩ <;> [have j2 := mb.isLt; (have j2 := mb.isLt; have j3 := b2n_lt mu; have j4 := b2n_lt ms)])
  all_goals (have q_sh := sh.code_lt)
  all_goals (have q_ty := ty.code_lt)
  all_goals (have q_d := d.isLt)
  all_goals (rcases acq with _ | sc <;> [skip; have j6 := sc.code_lt])
  all_goals (have q_k := k.isLt)
  all_goals (have q_live := live.isLt)
  all_goals (constructor <;> simp [encodeF, hdF, hasExt, hasLit, Fields.putAddr, Fields.putAcq] <;> omega)

theorem stg (h : Hd) (m : Addr) (sh : Shape) (ty : MTy) (c : Fin 64) (rel : Option Scope) (k : Tok) (live : Dword) : Statement (.stg h m sh ty c rel k live) := by
  intro _
  all_goals (obtain ⟨g, e⟩ := h; have i0 := g.isLt; have i1 := b2n_lt e)
  all_goals (obtain ⟨ma, mi, mo⟩ := m; have j0 := ma.isLt; have j1 := mo.isLt; rcases mi with ⟨mb⟩ | ⟨mb, mu, ms⟩ <;> [have j2 := mb.isLt; (have j2 := mb.isLt; have j3 := b2n_lt mu; have j4 := b2n_lt ms)])
  all_goals (have q_sh := sh.code_lt)
  all_goals (have q_ty := ty.code_lt)
  all_goals (have q_c := c.isLt)
  all_goals (rcases rel with _ | sc <;> [skip; have j6 := sc.code_lt])
  all_goals (have q_k := k.isLt)
  all_goals (have q_live := live.isLt)
  all_goals (constructor <;> simp [encodeF, hdF, hasExt, hasLit, Fields.putAddr, Fields.putRel] <;> omega)

theorem atg (h : Hd) (m : Addr) (op : AtOp) (ty : MTy) (sat : Bool) (d c : VReg) (o : Ord) (k : Tok) (live : Dword) : Statement (.atg h m op ty sat d c o k live) := by
  intro _
  all_goals (obtain ⟨g, e⟩ := h; have i0 := g.isLt; have i1 := b2n_lt e)
  all_goals (obtain ⟨ma, mi, mo⟩ := m; have j0 := ma.isLt; have j1 := mo.isLt; rcases mi with ⟨mb⟩ | ⟨mb, mu, ms⟩ <;> [have j2 := mb.isLt; (have j2 := mb.isLt; have j3 := b2n_lt mu; have j4 := b2n_lt ms)])
  all_goals (have q_op := op.code_lt)
  all_goals (have q_ty := ty.code_lt)
  all_goals (have q_sat := b2n_lt sat)
  all_goals (have q_d := d.isLt)
  all_goals (have q_c := c.isLt)
  all_goals (obtain ⟨oa, ol, os⟩ := o; have j7 := b2n_lt oa; have j8 := b2n_lt ol; have j9 := os.code_lt)
  all_goals (have q_k := k.isLt)
  all_goals (have q_live := live.isLt)
  all_goals (constructor <;> simp [encodeF, hdF, hasExt, hasLit, Fields.putAddr, Fields.putOrd] <;> omega)

theorem lrg (h : Hd) (m : Addr) (ty : MTy) (d : VReg) (acq : Option Scope) (k : Tok) (live : Dword) : Statement (.lrg h m ty d acq k live) := by
  intro _
  all_goals (obtain ⟨g, e⟩ := h; have i0 := g.isLt; have i1 := b2n_lt e)
  all_goals (obtain ⟨ma, mi, mo⟩ := m; have j0 := ma.isLt; have j1 := mo.isLt; rcases mi with ⟨mb⟩ | ⟨mb, mu, ms⟩ <;> [have j2 := mb.isLt; (have j2 := mb.isLt; have j3 := b2n_lt mu; have j4 := b2n_lt ms)])
  all_goals (have q_ty := ty.code_lt)
  all_goals (have q_d := d.isLt)
  all_goals (rcases acq with _ | sc <;> [skip; have j6 := sc.code_lt])
  all_goals (have q_k := k.isLt)
  all_goals (have q_live := live.isLt)
  all_goals (constructor <;> simp [encodeF, hdF, hasExt, hasLit, Fields.putAddr, Fields.putAcq] <;> omega)

theorem scg (h : Hd) (m : Addr) (ty : MTy) (d c : VReg) (o : Ord) (k : Tok) (live : Dword) : Statement (.scg h m ty d c o k live) := by
  intro _
  all_goals (obtain ⟨g, e⟩ := h; have i0 := g.isLt; have i1 := b2n_lt e)
  all_goals (obtain ⟨ma, mi, mo⟩ := m; have j0 := ma.isLt; have j1 := mo.isLt; rcases mi with ⟨mb⟩ | ⟨mb, mu, ms⟩ <;> [have j2 := mb.isLt; (have j2 := mb.isLt; have j3 := b2n_lt mu; have j4 := b2n_lt ms)])
  all_goals (have q_ty := ty.code_lt)
  all_goals (have q_d := d.isLt)
  all_goals (have q_c := c.isLt)
  all_goals (obtain ⟨oa, ol, os⟩ := o; have j7 := b2n_lt oa; have j8 := b2n_lt ol; have j9 := os.code_lt)
  all_goals (have q_k := k.isLt)
  all_goals (have q_live := live.isLt)
  all_goals (constructor <;> simp [encodeF, hdF, hasExt, hasLit, Fields.putAddr, Fields.putOrd] <;> omega)

theorem stp (h : Hd) (m : Addr) (ty : MTy) (c : VReg) (rel : Option Scope) : Statement (.stp h m ty c rel) := by
  intro _
  all_goals (obtain ⟨g, e⟩ := h; have i0 := g.isLt; have i1 := b2n_lt e)
  all_goals (obtain ⟨ma, mi, mo⟩ := m; have j0 := ma.isLt; have j1 := mo.isLt; rcases mi with ⟨mb⟩ | ⟨mb, mu, ms⟩ <;> [have j2 := mb.isLt; (have j2 := mb.isLt; have j3 := b2n_lt mu; have j4 := b2n_lt ms)])
  all_goals (have q_ty := ty.code_lt)
  all_goals (have q_c := c.isLt)
  all_goals (rcases rel with _ | sc <;> [skip; have j6 := sc.code_lt])
  all_goals (constructor <;> simp [encodeF, hdF, hasExt, hasLit, Fields.putAddr, Fields.putRel] <;> omega)

theorem atp (h : Hd) (m : Addr) (op : AtOp) (ty : MTy) (sat : Bool) (c : VReg) (rel : Option Scope) : Statement (.atp h m op ty sat c rel) := by
  intro _
  all_goals (obtain ⟨g, e⟩ := h; have i0 := g.isLt; have i1 := b2n_lt e)
  all_goals (obtain ⟨ma, mi, mo⟩ := m; have j0 := ma.isLt; have j1 := mo.isLt; rcases mi with ⟨mb⟩ | ⟨mb, mu, ms⟩ <;> [have j2 := mb.isLt; (have j2 := mb.isLt; have j3 := b2n_lt mu; have j4 := b2n_lt ms)])
  all_goals (have q_op := op.code_lt)
  all_goals (have q_ty := ty.code_lt)
  all_goals (have q_sat := b2n_lt sat)
  all_goals (have q_c := c.isLt)
  all_goals (rcases rel with _ | sc <;> [skip; have j6 := sc.code_lt])
  all_goals (constructor <;> simp [encodeF, hdF, hasExt, hasLit, Fields.putAddr, Fields.putRel] <;> omega)

theorem ldz (h : Hd) (d : VReg) (a b : SReg) (ty : MTy) (n : Word) (acq : Option Scope) (k : Tok) : Statement (.ldz h d a b ty n acq k) := by
  intro _
  all_goals (obtain ⟨g, e⟩ := h; have i0 := g.isLt; have i1 := b2n_lt e)
  all_goals (have q_d := d.isLt)
  all_goals (have q_a := a.isLt)
  all_goals (have q_b := b.isLt)
  all_goals (have q_ty := ty.code_lt)
  all_goals (have q_n := n.isLt)
  all_goals (rcases acq with _ | sc <;> [skip; have j6 := sc.code_lt])
  all_goals (have q_k := k.isLt)
  all_goals (constructor <;> simp [encodeF, hdF, hasExt, hasLit, Fields.putAcq] <;> omega)

theorem stz (h : Hd) (d a b : SReg) (c : VReg) (ty : MTy) (n : Word) (rel : Option Scope) (k : Tok) : Statement (.stz h d a b c ty n rel k) := by
  intro _
  all_goals (obtain ⟨g, e⟩ := h; have i0 := g.isLt; have i1 := b2n_lt e)
  all_goals (have q_d := d.isLt)
  all_goals (have q_a := a.isLt)
  all_goals (have q_b := b.isLt)
  all_goals (have q_c := c.isLt)
  all_goals (have q_ty := ty.code_lt)
  all_goals (have q_n := n.isLt)
  all_goals (rcases rel with _ | sc <;> [skip; have j6 := sc.code_lt])
  all_goals (have q_k := k.isLt)
  all_goals (constructor <;> simp [encodeF, hdF, hasExt, hasLit, Fields.putRel] <;> omega)

theorem fence (h : Hd) (f : FenceKind) (sc : Scope) : Statement (.fence h f sc) := by
  intro _
  all_goals (obtain ⟨g, e⟩ := h; have i0 := g.isLt; have i1 := b2n_lt e)
  all_goals (have q_f := f.code_lt)
  all_goals (have q_sc := sc.code_lt)
  all_goals (constructor <;> simp [encodeF, hdF, hasExt, hasLit] <;> omega)

theorem pfence (h : Hd) : Statement (.pfence h) := by
  intro _
  all_goals (obtain ⟨g, e⟩ := h; have i0 := g.isLt; have i1 := b2n_lt e)
  all_goals (constructor <;> simp [encodeF, hdF, hasExt, hasLit] <;> omega)

theorem cpkt (h : Hd) (sc : Scope) (d a b : SReg) (k : Tok) : Statement (.cpkt h sc d a b k) := by
  intro _
  all_goals (obtain ⟨g, e⟩ := h; have i0 := g.isLt; have i1 := b2n_lt e)
  all_goals (have q_sc := sc.code_lt)
  all_goals (have q_d := d.isLt)
  all_goals (have q_a := a.isLt)
  all_goals (have q_b := b.isLt)
  all_goals (have q_k := k.isLt)
  all_goals (constructor <;> simp [encodeF, hdF, hasExt, hasLit] <;> omega)

theorem binit (h : Hd) (a b : SReg) (n : BitVec 16) (k : Tok) : Statement (.binit h a b n k) := by
  intro _
  all_goals (obtain ⟨g, e⟩ := h; have i0 := g.isLt; have i1 := b2n_lt e)
  all_goals (have q_a := a.isLt)
  all_goals (have q_b := b.isLt)
  all_goals (have q_n := n.isLt)
  all_goals (have q_k := k.isLt)
  all_goals (constructor <;> simp [encodeF, hdF, hasExt, hasLit] <;> omega)

theorem bexp (h : Hd) (arv : Bool) (sc : Scope) (a b : SReg) (k : Tok) : Statement (.bexp h arv sc a b k) := by
  intro _
  all_goals (obtain ⟨g, e⟩ := h; have i0 := g.isLt; have i1 := b2n_lt e)
  all_goals (have q_arv := b2n_lt arv)
  all_goals (have q_sc := sc.code_lt)
  all_goals (have q_a := a.isLt)
  all_goals (have q_b := b.isLt)
  all_goals (have q_k := k.isLt)
  all_goals (constructor <;> simp [encodeF, hdF, hasExt, hasLit] <;> omega)

theorem barv (h : Hd) (sc : Scope) (a : SReg) (n : BitVec 16) (k : Tok) : Statement (.barv h sc a n k) := by
  intro _
  all_goals (obtain ⟨g, e⟩ := h; have i0 := g.isLt; have i1 := b2n_lt e)
  all_goals (have q_sc := sc.code_lt)
  all_goals (have q_a := a.isLt)
  all_goals (have q_n := n.isLt)
  all_goals (have q_k := k.isLt)
  all_goals (constructor <;> simp [encodeF, hdF, hasExt, hasLit] <;> omega)

theorem bobs (h : Hd) (w1 acq : Bool) (sc : Scope) (d a : SReg) (k : Tok) : Statement (.bobs h w1 acq sc d a k) := by
  intro _
  all_goals (obtain ⟨g, e⟩ := h; have i0 := g.isLt; have i1 := b2n_lt e)
  all_goals (have q_w1 := b2n_lt w1)
  all_goals (have q_acq := b2n_lt acq)
  all_goals (have q_sc := sc.code_lt)
  all_goals (have q_d := d.isLt)
  all_goals (have q_a := a.isLt)
  all_goals (have q_k := k.isLt)
  all_goals (constructor <;> simp [encodeF, hdF, hasExt, hasLit] <;> omega)

theorem bwt (h : Hd) (sc : Scope) (a b : SReg) (cont : Option Word) : Statement (.bwt h sc a b cont) := by
  intro _
  all_goals (obtain ⟨g, e⟩ := h; have i0 := g.isLt; have i1 := b2n_lt e)
  all_goals (have q_sc := sc.code_lt)
  all_goals (have q_a := a.isLt)
  all_goals (have q_b := b.isLt)
  all_goals (rcases cont with _ | w <;> [skip; have j6 := w.isLt])
  all_goals (constructor <;> simp [encodeF, hdF, hasExt, hasLit, bwtF] <;> omega)

theorem palLiteral (h : Hd) (x : Dword) : Statement (.palLiteral h x) := by
  intro _
  all_goals (obtain ⟨g, e⟩ := h; have i0 := g.isLt; have i1 := b2n_lt e)
  all_goals (have q_x := x.isLt)
  all_goals (constructor <;> simp [encodeF, hdF, hasExt, hasLit] <;> omega)

theorem palRegister (h : Hd) (a : SReg) : Statement (.palRegister h a) := by
  intro _
  all_goals (obtain ⟨g, e⟩ := h; have i0 := g.isLt; have i1 := b2n_lt e)
  all_goals (have q_a := a.isLt)
  all_goals (constructor <;> simp [encodeF, hdF, hasExt, hasLit] <;> omega)

theorem palr (h : Hd) (d : SReg) : Statement (.palr h d) := by
  intro _
  all_goals (obtain ⟨g, e⟩ := h; have i0 := g.isLt; have i1 := b2n_lt e)
  all_goals (have q_d := d.isLt)
  all_goals (constructor <;> simp [encodeF, hdF, hasExt, hasLit] <;> omega)

theorem mma (h : Hd) (t : TileNo) (a : VReg) (b : SReg) (ks : Fin 256) (c : VReg) (soff : Word) (k : Tok) : Statement (.mma h t a b ks c soff k) := by
  intro _
  all_goals (obtain ⟨g, e⟩ := h; have i0 := g.isLt; have i1 := b2n_lt e)
  all_goals (have q_t := t.isLt)
  all_goals (have q_a := a.isLt)
  all_goals (have q_b := b.isLt)
  all_goals (have q_ks := ks.isLt)
  all_goals (have q_c := c.isLt)
  all_goals (have q_soff := soff.isLt)
  all_goals (have q_k := k.isLt)
  all_goals (constructor <;> simp [encodeF, hdF, hasExt, hasLit] <;> omega)

theorem mmab (h : Hd) (t : TileNo) (a : VReg) (b : SReg) (c : VReg) (boff : Word) (k : Tok) : Statement (.mmab h t a b c boff k) := by
  intro _
  all_goals (obtain ⟨g, e⟩ := h; have i0 := g.isLt; have i1 := b2n_lt e)
  all_goals (have q_t := t.isLt)
  all_goals (have q_a := a.isLt)
  all_goals (have q_b := b.isLt)
  all_goals (have q_c := c.isLt)
  all_goals (have q_boff := boff.isLt)
  all_goals (have q_k := k.isLt)
  all_goals (constructor <;> simp [encodeF, hdF, hasExt, hasLit] <;> omega)

theorem accz (h : Hd) (all : Bool) (t : TileNo) (k : Tok) : Statement (.accz h all t k) := by
  intro _
  all_goals (obtain ⟨g, e⟩ := h; have i0 := g.isLt; have i1 := b2n_lt e)
  all_goals (have q_all := b2n_lt all)
  all_goals (have q_t := t.isLt)
  all_goals (have q_k := k.isLt)
  all_goals (constructor <;> simp [encodeF, hdF, hasExt, hasLit] <;> omega)

theorem accrd (h : Hd) (d : VReg) (t : TileNo) (j0 : Fin 64) (n : Fin 128) (k : Tok) : Statement (.accrd h d t j0 n k) := by
  intro _
  all_goals (obtain ⟨g, e⟩ := h; have i0 := g.isLt; have i1 := b2n_lt e)
  all_goals (have q_d := d.isLt)
  all_goals (have q_t := t.isLt)
  all_goals (have q_j0 := j0.isLt)
  all_goals (have q_n := n.isLt)
  all_goals (have q_k := k.isLt)
  all_goals (constructor <;> simp [encodeF, hdF, hasExt, hasLit, colsF] <;> omega)

theorem accwr (h : Hd) (t : TileNo) (a : VReg) (j0 : Fin 64) (n : Fin 128) (k : Tok) : Statement (.accwr h t a j0 n k) := by
  intro _
  all_goals (obtain ⟨g, e⟩ := h; have i0 := g.isLt; have i1 := b2n_lt e)
  all_goals (have q_t := t.isLt)
  all_goals (have q_a := a.isLt)
  all_goals (have q_j0 := j0.isLt)
  all_goals (have q_n := n.isLt)
  all_goals (have q_k := k.isLt)
  all_goals (constructor <;> simp [encodeF, hdF, hasExt, hasLit, colsF] <;> omega)

theorem accst (h : Hd) (d : SReg) (t : TileNo) (k : Tok) : Statement (.accst h d t k) := by
  intro _
  all_goals (obtain ⟨g, e⟩ := h; have i0 := g.isLt; have i1 := b2n_lt e)
  all_goals (have q_d := d.isLt)
  all_goals (have q_t := t.isLt)
  all_goals (have q_k := k.isLt)
  all_goals (constructor <;> simp [encodeF, hdF, hasExt, hasLit] <;> omega)

theorem drq (h : Hd) (dst : DrDst) (t : TileNo) (b : SReg) (c : VReg) (uns : Bool) (j0 : Fin 64) (n : Fin 128) (k : Tok) : Statement (.drq h dst t b c uns j0 n k) := by
  intro _
  all_goals (obtain ⟨g, e⟩ := h; have i0 := g.isLt; have i1 := b2n_lt e)
  all_goals (rcases dst with ⟨v⟩ | ⟨v, w⟩ <;> have j5 := v.isLt)
  all_goals (have q_t := t.isLt)
  all_goals (have q_b := b.isLt)
  all_goals (have q_c := c.isLt)
  all_goals (cases uns)
  all_goals (have q_j0 := j0.isLt)
  all_goals (have q_n := n.isLt)
  all_goals (have q_k := k.isLt)
  all_goals (constructor <;> simp [encodeF, hdF, hasExt, hasLit, Fields.putDr, colsF] <;> omega)

theorem drf (h : Hd) (dst : DrDst) (t : TileNo) (ty : MTy) (sat ofn : Bool) (j0 : Fin 64) (n : Fin 128) (k : Tok) : Statement (.drf h dst t ty sat ofn j0 n k) := by
  intro _
  all_goals (obtain ⟨g, e⟩ := h; have i0 := g.isLt; have i1 := b2n_lt e)
  all_goals (rcases dst with ⟨v⟩ | ⟨v, w⟩ <;> have j5 := v.isLt)
  all_goals (have q_t := t.isLt)
  all_goals (have q_ty := ty.code_lt)
  all_goals (have q_sat := b2n_lt sat)
  all_goals (have q_ofn := b2n_lt ofn)
  all_goals (have q_j0 := j0.isLt)
  all_goals (have q_n := n.isLt)
  all_goals (have q_k := k.isLt)
  all_goals (constructor <;> simp [encodeF, hdF, hasExt, hasLit, Fields.putDr, colsF] <;> omega)

theorem swc (h : Hd) (rule : SwRule) (a : SReg) (planes width : Fin 16) (k : Tok) : Statement (.swc h rule a planes width k) := by
  intro _
  all_goals (obtain ⟨g, e⟩ := h; have i0 := g.isLt; have i1 := b2n_lt e)
  all_goals (have q_rule := rule.code_lt)
  all_goals (have q_a := a.isLt)
  all_goals (have q_planes := planes.isLt)
  all_goals (have q_width := width.isLt)
  all_goals (have q_k := k.isLt)
  all_goals (constructor <;> simp [encodeF, hdF, hasExt, hasLit] <;> omega)

theorem swh (h : Hd) (a : VReg) (b : SReg) (c : VReg) (k : Tok) : Statement (.swh h a b c k) := by
  intro _
  all_goals (obtain ⟨g, e⟩ := h; have i0 := g.isLt; have i1 := b2n_lt e)
  all_goals (have q_a := a.isLt)
  all_goals (have q_b := b.isLt)
  all_goals (have q_c := c.isLt)
  all_goals (have q_k := k.isLt)
  all_goals (constructor <;> simp [encodeF, hdF, hasExt, hasLit] <;> omega)

theorem swb (h : Hd) (k : Tok) : Statement (.swb h k) := by
  intro _
  all_goals (obtain ⟨g, e⟩ := h; have i0 := g.isLt; have i1 := b2n_lt e)
  all_goals (have q_k := k.isLt)
  all_goals (constructor <;> simp [encodeF, hdF, hasExt, hasLit] <;> omega)

theorem swm (h : Hd) (form : SwmForm) (a : SReg) (k : Tok) : Statement (.swm h form a k) := by
  intro _
  all_goals (obtain ⟨g, e⟩ := h; have i0 := g.isLt; have i1 := b2n_lt e)
  all_goals (have q_form := form.code_lt)
  all_goals (have q_a := a.isLt)
  all_goals (have q_k := k.isLt)
  all_goals (constructor <;> simp [encodeF, hdF, hasExt, hasLit] <;> omega)

theorem swl (h : Hd) (a : SReg) (k : Tok) : Statement (.swl h a k) := by
  intro _
  all_goals (obtain ⟨g, e⟩ := h; have i0 := g.isLt; have i1 := b2n_lt e)
  all_goals (have q_a := a.isLt)
  all_goals (have q_k := k.isLt)
  all_goals (constructor <;> simp [encodeF, hdF, hasExt, hasLit] <;> omega)

theorem swx (h : Hd) (t : TileNo) (j0 : Fin 64) (n : Fin 128) (k : Tok) : Statement (.swx h t j0 n k) := by
  intro _
  all_goals (obtain ⟨g, e⟩ := h; have i0 := g.isLt; have i1 := b2n_lt e)
  all_goals (have q_t := t.isLt)
  all_goals (have q_j0 := j0.isLt)
  all_goals (have q_n := n.isLt)
  all_goals (have q_k := k.isLt)
  all_goals (constructor <;> simp [encodeF, hdF, hasExt, hasLit, colsF] <;> omega)

theorem mmas (h : Hd) (t : TileNo) (a : VReg) (b : SReg) (ks : Fin 256) (c : VReg) (soff : Word) (k : Tok) : Statement (.mmas h t a b ks c soff k) := by
  intro _
  all_goals (obtain ⟨g, e⟩ := h; have i0 := g.isLt; have i1 := b2n_lt e)
  all_goals (have q_t := t.isLt)
  all_goals (have q_a := a.isLt)
  all_goals (have q_b := b.isLt)
  all_goals (have q_ks := ks.isLt)
  all_goals (have q_c := c.isLt)
  all_goals (have q_soff := soff.isLt)
  all_goals (have q_k := k.isLt)
  all_goals (constructor <;> simp [encodeF, hdF, hasExt, hasLit] <;> omega)

theorem mmag (h : Hd) (t : TileNo) (a : VReg) (b : SReg) (ks : Fin 256) (soff : Word) (k : Tok) : Statement (.mmag h t a b ks soff k) := by
  intro _
  all_goals (obtain ⟨g, e⟩ := h; have i0 := g.isLt; have i1 := b2n_lt e)
  all_goals (have q_t := t.isLt)
  all_goals (have q_a := a.isLt)
  all_goals (have q_b := b.isLt)
  all_goals (have q_ks := ks.isLt)
  all_goals (have q_soff := soff.isLt)
  all_goals (have q_k := k.isLt)
  all_goals (constructor <;> simp [encodeF, hdF, hasExt, hasLit] <;> omega)

theorem rgpost (h : Hd) (d a b : SReg) (k : Tok) : Statement (.rgpost h d a b k) := by
  intro _
  all_goals (obtain ⟨g, e⟩ := h; have i0 := g.isLt; have i1 := b2n_lt e)
  all_goals (have q_d := d.isLt)
  all_goals (have q_a := a.isLt)
  all_goals (have q_b := b.isLt)
  all_goals (have q_k := k.isLt)
  all_goals (constructor <;> simp [encodeF, hdF, hasExt, hasLit] <;> omega)

theorem rgtake (h : Hd) (d : SReg) (g : Word) (k : Tok) : Statement (.rgtake h d g k) := by
  intro _
  all_goals (obtain ⟨g, e⟩ := h; have i0 := g.isLt; have i1 := b2n_lt e)
  all_goals (have q_d := d.isLt)
  all_goals (have q_g := g.isLt)
  all_goals (have q_k := k.isLt)
  all_goals (constructor <;> simp [encodeF, hdF, hasExt, hasLit] <;> omega)

theorem rgnext (h : Hd) (d : SReg) (p : PReg) : Statement (.rgnext h d p) := by
  intro _
  all_goals (obtain ⟨g, e⟩ := h; have i0 := g.isLt; have i1 := b2n_lt e)
  all_goals (have q_d := d.isLt)
  all_goals (have q_p := p.isLt)
  all_goals (constructor <;> simp [encodeF, hdF, hasExt, hasLit] <;> omega)

theorem rgdone (h : Hd) (k : Tok) : Statement (.rgdone h k) := by
  intro _
  all_goals (obtain ⟨g, e⟩ := h; have i0 := g.isLt; have i1 := b2n_lt e)
  all_goals (have q_k := k.isLt)
  all_goals (constructor <;> simp [encodeF, hdF, hasExt, hasLit] <;> omega)

theorem launchPacket (level : Fin 4) : Statement (.launchPacket level) := fun h => Bool.noConfusion h
theorem dependenceMet (level : Fin 4) (i : Fin 4) : Statement (.dependenceMet level i) := fun h => Bool.noConfusion h
theorem placingTeams : Statement (.placingTeams) := fun h => Bool.noConfusion h
theorem teamEnd (grid team : Nat) : Statement (.teamEnd grid team) := fun h => Bool.noConfusion h
theorem completionRecord (grid : Nat) : Statement (.completionRecord grid) := fun h => Bool.noConfusion h
theorem completionReport (grid rank : Nat) (aborted : Bool) (energy : Nat) : Statement (.completionReport grid rank aborted energy) := fun h => Bool.noConfusion h
theorem legDeparture (split : Nat) : Statement (.legDeparture split) := fun h => Bool.noConfusion h
theorem contextAdmission (stack : Fin 16) : Statement (.contextAdmission stack) := fun h => Bool.noConfusion h
theorem splitTableRequest (src dst : Nat) : Statement (.splitTableRequest src dst) := fun h => Bool.noConfusion h
theorem splitTableReport (src dst : Nat) : Statement (.splitTableReport src dst) := fun h => Bool.noConfusion h
theorem division (split : Nat) : Statement (.division split) := fun h => Bool.noConfusion h
theorem operationCompletion (split op : Nat) : Statement (.operationCompletion split op) := fun h => Bool.noConfusion h
theorem post (src dst : Nat) : Statement (.post src dst) := fun h => Bool.noConfusion h
theorem postAcknowledgement (src dst : Nat) : Statement (.postAcknowledgement src dst) := fun h => Bool.noConfusion h
theorem probe (src dst : Nat) : Statement (.probe src dst) := fun h => Bool.noConfusion h
theorem probeAnswer (src dst : Nat) : Statement (.probeAnswer src dst) := fun h => Bool.noConfusion h
theorem barrierArrival (src dst : Nat) : Statement (.barrierArrival src dst) := fun h => Bool.noConfusion h
theorem barrierObjectUpdate (src dst : Nat) : Statement (.barrierObjectUpdate src dst) := fun h => Bool.noConfusion h
theorem copyPacket (stack : Fin 16) (level : Fin 4) : Statement (.copyPacket stack level) := fun h => Bool.noConfusion h
theorem copyBurst (stack : Fin 16) (level : Fin 4) (pkt : Nat) : Statement (.copyBurst stack level pkt) := fun h => Bool.noConfusion h
theorem loopIteration (stack : Fin 16) (level : Fin 4) : Statement (.loopIteration stack level) := fun h => Bool.noConfusion h
theorem signalPacket (stack : Fin 16) (level : Fin 4) : Statement (.signalPacket stack level) := fun h => Bool.noConfusion h
theorem pass (stack : Fin 16) (core : Fin 8) : Statement (.pass stack core) := fun h => Bool.noConfusion h
theorem rampInterval (stack : Fin 16) (core : Fin 8) : Statement (.rampInterval stack core) := fun h => Bool.noConfusion h
theorem hstepFall (stack : Fin 16) (core : CoreFlux) : Statement (.hstepFall stack core) := fun h => Bool.noConfusion h
theorem hstepRise (stack : Fin 16) (core : CoreFlux) : Statement (.hstepRise stack core) := fun h => Bool.noConfusion h
theorem fstepUpdate (stack : Fin 16) (core : Fin 8) (step : Fin 9) : Statement (.fstepUpdate stack core step) := fun h => Bool.noConfusion h
theorem energyCharge (stack : Fin 16) (amounts : List (Nat × Nat)) (idle : Nat) : Statement (.energyCharge stack amounts idle) := fun h => Bool.noConfusion h
theorem monitorSample (stack : Fin 16) (n : Fin 32) (reading : Nat) : Statement (.monitorSample stack n reading) := fun h => Bool.noConfusion h
theorem scrubVisit (line : Nat) (found : ScrubFind) : Statement (.scrubVisit line found) := fun h => Bool.noConfusion h
theorem refreshWindow (stack : Fin 16) : Statement (.refreshWindow stack) := fun h => Bool.noConfusion h
theorem tableWalk (stack : Fin 16) (core : Fin 8) (asid : Nat) (va : Dword) : Statement (.tableWalk stack core asid va) := fun h => Bool.noConfusion h
theorem reservationExpiry (n : Nat) : Statement (.reservationExpiry n) := fun h => Bool.noConfusion h
theorem holdoffExpiry (n : Nat) : Statement (.holdoffExpiry n) := fun h => Bool.noConfusion h
theorem budgetExpiry (stack : Fin 16) (grid : Nat) : Statement (.budgetExpiry stack grid) := fun h => Bool.noConfusion h
theorem handlerBudgetExpiry (stack : Fin 16) (grid : Nat) : Statement (.handlerBudgetExpiry stack grid) := fun h => Bool.noConfusion h
theorem teamResumption (grid team : Nat) : Statement (.teamResumption grid team) := fun h => Bool.noConfusion h
theorem trapEntry (split : Nat) : Statement (.trapEntry split) := fun h => Bool.noConfusion h
theorem halt (split : Nat) : Statement (.halt split) := fun h => Bool.noConfusion h
theorem sliceExpiry (split : Nat) : Statement (.sliceExpiry split) := fun h => Bool.noConfusion h
theorem rangeRequest (src dst : Nat) : Statement (.rangeRequest src dst) := fun h => Bool.noConfusion h
theorem rangeReply (src dst : Nat) : Statement (.rangeReply src dst) := fun h => Bool.noConfusion h
theorem errorRecord : Statement (.errorRecord) := fun h => Bool.noConfusion h
theorem linkRetry (l : Link) : Statement (.linkRetry l) := fun h => Bool.noConfusion h
theorem linkRetrain (l : Link) : Statement (.linkRetrain l) := fun h => Bool.noConfusion h
theorem retrainTimeout (l : Link) : Statement (.retrainTimeout l) := fun h => Bool.noConfusion h
theorem linkDown (l : Fin 12) : Statement (.linkDown l) := fun h => Bool.noConfusion h
theorem routeRewrite (m : Fin 64) (v : Bool) (link : Fin 16) : Statement (.routeRewrite m v link) := fun h => Bool.noConfusion h
theorem sensorLimit (stack : Fin 16) (row : Fin 5) (reading : SensorReading) : Statement (.sensorLimit stack row reading) := fun h => Bool.noConfusion h
theorem limitLifted (stack : Fin 16) (row : LiftReading) : Statement (.limitLifted stack row) := fun h => Bool.noConfusion h
theorem powerStateEntry (stack : Fin 16) (st : Fin 4) : Statement (.powerStateEntry stack st) := fun h => Bool.noConfusion h
theorem stackWake (stack : Fin 16) : Statement (.stackWake stack) := fun h => Bool.noConfusion h
theorem powerStateExit (stack : Fin 16) : Statement (.powerStateExit stack) := fun h => Bool.noConfusion h
theorem bringUp (links : LinkTraining) (modno : Fin 64) (domain : DomainSetup) : Statement (.bringUp links modno domain) := fun h => Bool.noConfusion h
theorem hostAccess (r : HostReq) : Statement (.hostAccess r) := fun h => Bool.noConfusion h
theorem hostSnoop (line : Nat) : Statement (.hostSnoop line) := fun h => Bool.noConfusion h
theorem cxlLinkDown : Statement (.cxlLinkDown) := fun h => Bool.noConfusion h
theorem qring (level : Fin 4) (v : Dword) : Statement (.qring level v) := fun h => Bool.noConfusion h
theorem cring (stack : Fin 16) (level : Fin 4) (v : Dword) : Statement (.cring stack level v) := fun h => Bool.noConfusion h
theorem errlog (v : Dword) : Statement (.errlog v) := fun h => Bool.noConfusion h
theorem preemptionRequest (grid : Nat) : Statement (.preemptionRequest grid) := fun h => Bool.noConfusion h
theorem preemptionWithdraw (grid : Nat) : Statement (.preemptionWithdraw grid) := fun h => Bool.noConfusion h
theorem abortctl (grid : Nat) : Statement (.abortctl grid) := fun h => Bool.noConfusion h
theorem warmReset : Statement (.warmReset) := fun h => Bool.noConfusion h
theorem coldReset : Statement (.coldReset) := fun h => Bool.noConfusion h
theorem skbctlThaw (write : SkbThaw) : Statement (.skbctlThaw write) := fun h => Bool.noConfusion h
theorem errstatClear : Statement (.errstatClear) := fun h => Bool.noConfusion h
theorem monitorClear (stack : Fin 16) (n : Fin 32) : Statement (.monitorClear stack n) := fun h => Bool.noConfusion h
theorem pwrcap (v : Dword) : Statement (.pwrcap v) := fun h => Bool.noConfusion h
theorem ramp (v : Dword) : Statement (.ramp v) := fun h => Bool.noConfusion h
theorem svcUpdate (stack : Fin 16) (v : Dword) : Statement (.svcUpdate stack v) := fun h => Bool.noConfusion h
theorem registerWrite (r : WinReg) (size : Nat) (v : Dword) : Statement (.registerWrite r size v) := fun h => Bool.noConfusion h
theorem resultLanding (split : Nat) : Statement (.resultLanding split) := fun h => Bool.noConfusion h
theorem unassignedOpcode (k : IllKind) : Statement (.unassignedOpcode k) := fun h => Bool.noConfusion h
theorem linkRetrained (l : Link) : Statement (.linkRetrained l) := fun h => Bool.noConfusion h
theorem backInvalidateResponse (line : Nat) (dirty : Option (List Byte)) : Statement (.backInvalidateResponse line dirty) := fun h => Bool.noConfusion h
theorem launcherRouterError (site : ErrSite) : Statement (.launcherRouterError site) := fun h => Bool.noConfusion h
theorem peerWarmReset (m : Fin 64) : Statement (.peerWarmReset m) := fun h => Bool.noConfusion h
theorem peerReady (m : Fin 64) : Statement (.peerReady m) := fun h => Bool.noConfusion h
end Sys2Proof.Laws.Fits
end

