-- ==== Sys2Proof/Tests/Slice0.lean ====
section
/-! SUPPORT. Tests/Slice0.lean: terms that WellFormed refuses, words written out from the encodings of spec/, single steps
whose results are worked out from the rules, and for every statement with hypotheses a state and operands that meet them. -/

namespace Sys2Proof.Tests

open Sys2Proof.Machine

set_option Elab.async false

/-! ### Helpers -/

/-- The head with the constant predicate `p7`. -/
def h7 : Hd := ⟨7, false⟩

/-- The words of an instruction as one number, the first word lowest. -/
def joinWords : List Nat → Nat
  | [] => 0
  | w :: ws => w + 2 ^ 32 * joinWords ws

/-- The words decode to the instruction. -/
abbrev reads (ws : List Nat) (i : Instr) : Prop := decodeTableWord (32 * ws.length) (joinWords ws) = some i

/-- The words decode to no instruction. -/
abbrev refused (ws : List Nat) : Prop := decodeTableWord (32 * ws.length) (joinWords ws) = none

/-- One split of 32 lanes at its issue, alone in the module, in privileged mode (ASID 0). -/
def w0 : State := State.reset.placed 32 0

def all32 (x : Word) : Lanes := Vector.replicate 32 x
def withReg (s : State) (r : Nat) (x : Lanes) : State := { s with win := { s.win with regs := vset s.win.regs r x } }
def withS (s : State) (r : Nat) (x : Dword) : State := { s with me := { s.me with sregs := vset s.me.sregs r x } }
def withP (s : State) (r : Nat) (x : Mask) : State := { s with me := { s.me with preds := vset s.me.preds r x } }

/-- A vector form on `v1` and `v2`. -/
def x12 : VA := ⟨h7, 3, 1, .v 2⟩

/-! ### Ill-formed terms -/

theorem test_ill_formed_control :
    Instr.wf (.bra h7 2) = false ∧ Instr.wf (.brp h7 2 4) = false ∧ Instr.wf (.brp h7 4 1) = false
    ∧ Instr.wf (.call h7 0 0 3 0) = false ∧ Instr.wf (.call h7 0 56 4 0) = false ∧ Instr.wf (.callx h7 0 0 56 0) = false
    ∧ Instr.wf (.pause h7 0) = false ∧ Instr.wf (.sget h7 .cycle 32) = false ∧ Instr.wf (.sput h7 .act 0) = false
    ∧ Instr.wf (.stkspill h7 0 1 0 0) = false ∧ Instr.wf (.stkspill h7 0 1 33 0) = false
    ∧ Instr.wf (.stkfill h7 0 1 0 0) = false ∧ Instr.wf (.stkfill h7 0 1 33 0) = false := by decide

theorem test_ill_formed_integer :
    Instr.wf (.addX ⟨h7, 0, 0, .v 0⟩ .i64 false .none) = false ∧ Instr.wf (.subX ⟨h7, 0, 0, .v 0⟩ .i32 true (.cc 0)) = false
    ∧ Instr.wf (.addX ⟨h7, 0, 0, .v 0⟩ .i16 false (.cx 0)) = false
    ∧ Instr.wf (.mulX ⟨h7, 0, 0, .v 0⟩ .n64 false) = false ∧ Instr.wf (.cmpX h7 .eq 0 0 (.v 0) .i64) = false
    ∧ Instr.wf (.bfx ⟨h7, 0, 0, .v 0⟩ .i16) = false ∧ Instr.wf (.bfi ⟨h7, 0, 0, .v 0⟩ .n8 0) = false
    ∧ Instr.wf (.movl h7 63 0) = false
    ∧ Instr.wf (.scalarForm h7 .i16 (.add 0 0 (.s 0) false (.cx 0))) = false
    ∧ Instr.wf (.scalarForm h7 .i16 (.bin .bfx 0 0 (.s 0))) = false
    ∧ Instr.wf (.scalarForm h7 .i16 (.bfi 0 0 (.s 0) 0)) = false
    ∧ Instr.wf (.scalarForm h7 .i32 (.un .popc 0 0 true none)) = false
    ∧ Instr.wf (.scalarForm h7 .i32 (.un .neg 0 0 false (some 0))) = false := by decide

theorem test_ill_formed_float :
    Instr.wf (.faddX ⟨h7, 0, 0, .v 0⟩ .f32 true .rne) = false
    ∧ Instr.wf (.fcvt ⟨h7, 0, 0⟩ .e2m1 .f16 0 false false .rne) = false
    ∧ Instr.wf (.fcvt ⟨h7, 0, 0⟩ .f32 .t2 0 false false .rne) = false
    ∧ Instr.wf (.fcvt ⟨h7, 0, 0⟩ .f32 .i8 0 false true .rne) = false
    ∧ Instr.wf (.fcvt ⟨h7, 0, 0⟩ .e4m3 .f16 2 false false .rne) = false
    ∧ Instr.wf (.fpk ⟨h7, 0, 0⟩ .f32 .f32 0 0 .rne) = false ∧ Instr.wf (.fpk ⟨h7, 0, 0⟩ .e2m1 .i64 0 0 .rne) = false
    ∧ Instr.wf (.fpk ⟨h7, 0, 63⟩ .e2m1 .f32 0 1 .rne) = false ∧ Instr.wf (.fpk ⟨h7, 63, 0⟩ .e2m1 .f32 7 1 .rne) = false
    ∧ Instr.wf (.funpk ⟨h7, 63, 0⟩ .f32 .e2m1 0 1 .rne) = false ∧ Instr.wf (.funpk ⟨h7, 0, 63⟩ .f32 .e2m1 7 1 .rne) = false
    ∧ Instr.wf (.funpk ⟨h7, 0, 0⟩ .e2m1 .f32 0 0 .rne) = false
    ∧ Instr.wf (.bscl h7 0 0 .f32 .f32 false false) = false ∧ Instr.wf (.bscl h7 0 0 .i8 .i8 false false) = false
    ∧ Instr.wf (.bscl h7 0 0 .t2 .f32 true false) = false ∧ Instr.wf (.bscl h7 0 0 .e4m3 .f32 false true) = false
    ∧ Instr.wf (.bscl h7 0 61 .i8 .f32 false false) = false ∧ Instr.wf (.bqnt h7 0 61 0 .i8 .f32 false false .rne) = false
    ∧ Instr.wf (.bqnt h7 0 0 0 .e4m3 .f32 false true .rne) = false ∧ Instr.wf (.bqnt h7 0 0 0 .f16 .f32 false false .rne) = false
    ∧ Instr.wf (.bdeq h7 63 0 0 .f16 .i8 false .rne) = false ∧ Instr.wf (.bdeq h7 0 0 0 .i8 .i8 false .rne) = false
    ∧ Instr.wf (.bdeq h7 0 0 0 .f16 .e2m1 true .rne) = false := by decide

theorem test_ill_formed_memory :
    let m : Addr := ⟨0, .s 0, 0⟩
    let mv : Addr := ⟨0, .v 0 false false, 0⟩
    Instr.wf (.ld h7 m .lane .i64 63 none 0) = false ∧ Instr.wf (.ld h7 m .quad .i32 61 none 0) = false
    ∧ Instr.wf (.ld h7 m .quad .i64 0 none 0) = false ∧ Instr.wf (.st h7 mv .scal .i32 0 none 0) = false
    ∧ Instr.wf (.stg h7 m .scal .i32 32 none 0 0) = false
    ∧ Instr.wf (.atg h7 m .fadd .i32 false 0 0 ⟨false, false, .sp⟩ 0 0) = false
    ∧ Instr.wf (.atg h7 m .add .i16 false 0 0 ⟨false, false, .sp⟩ 0 0) = false
    ∧ Instr.wf (.atg h7 m .min .i32 true 0 0 ⟨false, false, .sp⟩ 0 0) = false
    ∧ Instr.wf (.atg h7 m .add .i64 false 63 0 ⟨false, false, .sp⟩ 0 0) = false
    ∧ Instr.wf (.atg h7 m .cas .i32 false 0 63 ⟨false, false, .sp⟩ 0 0) = false
    ∧ Instr.wf (.atg h7 m .add .i32 false 0 0 ⟨false, false, .dm⟩ 0 0) = false
    ∧ Instr.wf (.lrg h7 m .f32 0 none 0 0) = false ∧ Instr.wf (.lrg h7 m .i64 63 none 0 0) = false
    ∧ Instr.wf (.scg h7 m .i8 0 0 ⟨false, false, .sp⟩ 0 0) = false ∧ Instr.wf (.scg h7 m .i64 0 63 ⟨true, false, .sp⟩ 0 0) = false
    ∧ Instr.wf (.scg h7 m .i32 0 0 ⟨false, false, .gp⟩ 0 0) = false
    ∧ Instr.wf (.stp h7 m .n64 63 none) = false ∧ Instr.wf (.atp h7 m .swap .i32 false 0 none) = false
    ∧ Instr.wf (.atp h7 m .cas .i32 false 0 none) = false ∧ Instr.wf (.atp h7 m .and .i32 true 0 none) = false
    ∧ Instr.wf (.ldz h7 0 0 1 .i64 1 none 0) = false ∧ Instr.wf (.ldz h7 0 0 1 .i8 0 none 0) = false
    ∧ Instr.wf (.ldz h7 63 0 1 .i8 129 none 0) = false ∧ Instr.wf (.stz h7 0 0 1 63 .i32 33 none 0) = false
    ∧ Instr.wf (.cpkt h7 .sp 0 0 25 0) = false ∧ Instr.wf (.barv h7 .sp 0 0 0) = false
    ∧ Instr.wf (.bwt h7 .sp 0 0 (some 6)) = false := by decide

theorem test_ill_formed_array :
    Instr.wf (.mmab h7 0 47 0 0 0 0) = false ∧ Instr.wf (.mmab h7 0 0 0 0 32 0) = false
    ∧ Instr.wf (.accrd h7 0 0 60 4 0) = false ∧ Instr.wf (.accrd h7 61 0 0 3 0) = false
    ∧ Instr.wf (.accwr h7 0 0 1 63 0) = false ∧ Instr.wf (.accwr h7 0 62 0 2 0) = false
    ∧ Instr.wf (.drq h7 (.regs 63) 0 0 0 false 0 4 0) = false ∧ Instr.wf (.drq h7 (.regs 0) 0 0 0 false 63 1 0) = false
    ∧ Instr.wf (.drf h7 (.regs 0) 0 .i64 false false 0 0 0) = false ∧ Instr.wf (.drf h7 (.regs 0) 0 .f16 true false 0 0 0) = false
    ∧ Instr.wf (.drf h7 (.regs 63) 0 .f32 false false 0 1 0) = false ∧ Instr.wf (.drf h7 (.regs 0) 0 .f32 false false 1 63 0) = false
    ∧ Instr.wf (.drf h7 (.vault 0 0) 0 .f32 false false 0 15 0) = false
    ∧ Instr.wf (.swc h7 .first 0 3 4 0) = false ∧ Instr.wf (.swx h7 0 32 32 0) = false := by decide

/-- A step of the hardware's own agents has no words. -/
theorem test_ill_formed_event : Instr.wf .placingTeams = false ∧ Instr.wf (.unassignedOpcode .opcode) = false := by decide

/-! ### Words

Each word is written out from R101, R104 and the section of its instruction, field by field: LEN, OP, G, E, D, A and B of
word 0, then TYPE, SUB, BK, SAT, FS, RND, C, TOK, ACQ, REL and SCOPE of word 1, IMM32 and LIT64. -/

theorem test_decode_control_a :
    reads [0x0000140C] (.nop ⟨5, true⟩)
    ∧ reads [0x00001412, 0x00000000, 0xFFFFFFF8] (.bra ⟨5, false⟩ 0xFFFFFFF8#32)
    ∧ reads [0x0000141B, 0x00000000, 0x00000040, 0x00000080, 0x00000000] (.brp ⟨5, false⟩ 0x40#32 0x80#32)
    ∧ reads [0x00301420] (.brx ⟨5, false⟩ 6)
    ∧ reads [0x005EF42B, 0x00000000, 0x00000100, 0x00000021, 0x00000000] (.call ⟨5, false⟩ 11 55 0x100#32 0x21#64)
    ∧ reads [0x92599433, 0x00000000, 0x00000000, 0x00000001, 0x80000000] (.callx ⟨5, false⟩ 9 11 12 0x8000000000000001#64)
    ∧ reads [0x00001438] (.ret ⟨5, false⟩)
    ∧ reads [0x0000F440] (.join ⟨5, false⟩ 7) := by decide

theorem test_decode_control_b :
    reads [0x0001F448] (.barw ⟨5, false⟩ 15)
    ∧ reads [0x00007454] (.bara ⟨5, true⟩ 3) := by decide

theorem test_decode_system_a :
    reads [0x00001458] (.yield ⟨5, false⟩)
    ∧ reads [0x00001464] (.exit ⟨5, true⟩)
    ∧ reads [0x1E001468] (.pause ⟨5, false⟩ 15)
    ∧ reads [0x7E00D470] (.tw ⟨5, false⟩ 6 63)
    ∧ reads [0x52001478] (.trap ⟨5, false⟩ 41)
    ∧ reads [0x00001480] (.rft ⟨5, false⟩)
    ∧ reads [0x7E001488] (.brk ⟨5, false⟩ 63)
    ∧ reads [0x1A07F490] (.sget ⟨5, false⟩ .seed 63) := by decide

theorem test_decode_system_b :
    reads [0x1C481498] (.sput ⟨5, false⟩ .trapinfo 9)
    ∧ reads [0x004814A2, 0x00000000, 0x00000080] (.icpre ⟨5, false⟩ .core 9 0x80#32)
    ∧ reads [0x004814AA, 0x00800000, 0x00000040] (.icpin ⟨5, false⟩ .mod 9 64#32)
    ∧ reads [0x004814B2, 0x00400000, 0x00000040] (.icfree ⟨5, false⟩ .stk 9 64#32) := by decide

theorem test_decode_privileged :
    reads [0x0048F4BA, 0x000000C0, 0x00000020] (.stkspill ⟨5, false⟩ 7 9 32#32 3)
    ∧ reads [0x0048F4C2, 0x000000C0, 0x00000001] (.stkfill ⟨5, false⟩ 7 9 1#32 3)
    ∧ reads [0x0048F4CA, 0x000000C0, 0x00000000] (.ctxsv ⟨5, false⟩ 7 9 3)
    ∧ reads [0x004814D2, 0x00000000, 0x00000000] (.ctxld ⟨5, false⟩ 9)
    ∧ reads [0x944814DA, 0x004500C0, 0x00000000] (.tlbi ⟨5, false⟩ .asid true 9 10 3) := by decide

theorem test_decode_integer_a :
    reads [0x3FF83500] (.add ⟨⟨5, false⟩, 1, 63, .v 31⟩)
    ∧ reads [0x3FF83502, 0x00C00806, 0x00000000] (.addX ⟨⟨5, false⟩, 1, 63, .v 31⟩ .n32 false (.cxc 6))
    ∧ reads [0xBFF83508] (.sub ⟨⟨5, false⟩, 1, 63, .s 31⟩)
    ∧ reads [0x01F8350B, 0x00080400, 0x00000000, 0x80000001, 0x00000000] (.subX ⟨⟨5, false⟩, 1, 63, .lit 0x80000001#32⟩ .i16 true .none)
    ∧ reads [0x3FF83510] (.mul ⟨⟨5, false⟩, 1, 63, .v 31⟩)
    ∧ reads [0x3FF83512, 0x00080A00, 0x00000000] (.mulX ⟨⟨5, false⟩, 1, 63, .v 31⟩ .n8 true)
    ∧ reads [0x3FF83518] (.mulh ⟨⟨5, false⟩, 1, 63, .v 31⟩)
    ∧ reads [0x3FF8351A, 0x00000200, 0x00000000] (.mulhX ⟨⟨5, false⟩, 1, 63, .v 31⟩ .i8) := by decide

theorem test_decode_integer_b :
    reads [0x3FF83522, 0x00080C3E, 0x00000000] (.mad ⟨⟨5, false⟩, 1, 63, .v 31⟩ .n16 true 62)
    ∧ reads [0x3FF8352A, 0x0088003E, 0x00000000] (.dpb ⟨⟨5, false⟩, 1, 63, .v 31⟩ 2 true 62)
    ∧ reads [0x3FF83530] (.min ⟨⟨5, false⟩, 1, 63, .v 31⟩)
    ∧ reads [0x3FF83532, 0x00000800, 0x00000000] (.minX ⟨⟨5, false⟩, 1, 63, .v 31⟩ .n32)
    ∧ reads [0x3FF83538] (.max ⟨⟨5, false⟩, 1, 63, .v 31⟩)
    ∧ reads [0xBFF8353A, 0x00000800, 0x00000000] (.maxX ⟨⟨5, false⟩, 1, 63, .s 31⟩ .n32)
    ∧ reads [0x3FF83542, 0x00080300, 0x00000000] (.div ⟨⟨5, false⟩, 1, 63, .v 31⟩ .i8 true 4)
    ∧ reads [0x01F8354B, 0x00000900, 0x00000000, 0x00000007, 0x00000000] (.rem ⟨⟨5, false⟩, 1, 63, .lit 7#32⟩ .n32 4) := by decide

theorem test_decode_bitwise_a :
    reads [0x3FF83550] (.and ⟨⟨5, false⟩, 1, 63, .v 31⟩)
    ∧ reads [0x3FF83552, 0x00000A00, 0x00000000] (.andX ⟨⟨5, false⟩, 1, 63, .v 31⟩ .n8)
    ∧ reads [0x3FF83558] (.or ⟨⟨5, false⟩, 1, 63, .v 31⟩)
    ∧ reads [0x3FF8355A, 0x00000400, 0x00000000] (.orX ⟨⟨5, false⟩, 1, 63, .v 31⟩ .i16)
    ∧ reads [0x01F83561, 0x000000FF, 0x00000000] (.xor ⟨⟨5, false⟩, 1, 63, .lit 0xFF#32⟩)
    ∧ reads [0x3FF83562, 0x00000800, 0x00000000] (.xorX ⟨⟨5, false⟩, 1, 63, .v 31⟩ .n32)
    ∧ reads [0x3FF83570] (.shl ⟨⟨5, false⟩, 1, 63, .v 31⟩)
    ∧ reads [0x3FF83572, 0x00000C00, 0x00000000] (.shlX ⟨⟨5, false⟩, 1, 63, .v 31⟩ .n16) := by decide

theorem test_decode_bitwise_b :
    reads [0x3FF83578] (.shr ⟨⟨5, false⟩, 1, 63, .v 31⟩)
    ∧ reads [0x3FF8357A, 0x00000C00, 0x00000000] (.shrX ⟨⟨5, false⟩, 1, 63, .v 31⟩ .n16)
    ∧ reads [0x3FF83580] (.sra ⟨⟨5, false⟩, 1, 63, .v 31⟩)
    ∧ reads [0x3FF83582, 0x00000200, 0x00000000] (.sraX ⟨⟨5, false⟩, 1, 63, .v 31⟩ .i8)
    ∧ reads [0x3FF83588] (.rot ⟨⟨5, false⟩, 1, 63, .v 31⟩)
    ∧ reads [0x3FF8358A, 0x00000C00, 0x00000000] (.rotX ⟨⟨5, false⟩, 1, 63, .v 31⟩ .n16)
    ∧ reads [0x3FF83592, 0x00000800, 0x00000000] (.bfx ⟨⟨5, false⟩, 1, 63, .v 31⟩ .n32)
    ∧ reads [0x3FF8359A, 0x0000003E, 0x00000000] (.bfi ⟨⟨5, false⟩, 1, 63, .v 31⟩ .i32 62) := by decide

theorem test_decode_unary_a :
    reads [0x01F83568] (.abs ⟨⟨5, false⟩, 1, 63⟩)
    ∧ reads [0x01F8356A, 0x00080200, 0x00000000] (.absX ⟨⟨5, false⟩, 1, 63⟩ .i8 true)
    ∧ reads [0x03F83568] (.neg ⟨⟨5, false⟩, 1, 63⟩)
    ∧ reads [0x03F8356A, 0x00080200, 0x00000000] (.negX ⟨⟨5, false⟩, 1, 63⟩ .i8 true)
    ∧ reads [0x05F83568] (.not ⟨⟨5, false⟩, 1, 63⟩)
    ∧ reads [0x05F8356A, 0x00000200, 0x00000000] (.notX ⟨⟨5, false⟩, 1, 63⟩ .i8)
    ∧ reads [0x07F83568] (.popc ⟨⟨5, false⟩, 1, 63⟩)
    ∧ reads [0x07F8356A, 0x00000200, 0x00000000] (.popcX ⟨⟨5, false⟩, 1, 63⟩ .i8) := by decide

theorem test_decode_unary_b :
    reads [0x09F83568] (.clz ⟨⟨5, false⟩, 1, 63⟩)
    ∧ reads [0x09F8356A, 0x00000200, 0x00000000] (.clzX ⟨⟨5, false⟩, 1, 63⟩ .i8)
    ∧ reads [0x0BF83568] (.brev ⟨⟨5, false⟩, 1, 63⟩)
    ∧ reads [0x0BF8356A, 0x00000200, 0x00000000] (.brevX ⟨⟨5, false⟩, 1, 63⟩ .i8) := by decide

theorem test_decode_predicates_and_moves_a :
    reads [0x3FF835A2, 0x00000006, 0x00000000] (.sel ⟨⟨5, false⟩, 1, 63, .v 31⟩ 6)
    ∧ reads [0x3FFFD5A8] (.cmp ⟨5, false⟩ .bc 6 63 (.v 31))
    ∧ reads [0xBFFAD5AA, 0x00000A00, 0x00000000] (.cmpX ⟨5, false⟩ .lt 6 63 (.s 31) .n8)
    ∧ reads [0x040BD5B0] (.plog ⟨5, false⟩ .andn 6 1 2)
    ∧ reads [0xBE0035B8] (.mov ⟨5, false⟩ 1 (.s 31))
    ∧ reads [0x003035BA, 0x00400000, 0x00000000] (.movX ⟨5, false⟩ (.pv 1 6))
    ∧ reads [0x3E00D5BA, 0x00800000, 0x00000000] (.movX ⟨5, false⟩ (.vp 6 (.v 31)))
    ∧ reads [0x0007D5C1, 0x9ABCDEF0, 0x12345678] (.movl ⟨5, false⟩ 62 0x123456789ABCDEF0#64) := by decide

theorem test_decode_predicates_and_moves_b :
    reads [0x00F835C8] (.movs ⟨5, false⟩ 1 31)
    ∧ reads [0x00F835CA, 0x00400000, 0x00000000] (.movsX ⟨5, false⟩ (.hi 1 31))
    ∧ reads [0x01F835CA, 0x00C00000, 0x0000001E] (.movsX ⟨5, false⟩ (.gets 1 63 30)) := by decide

theorem test_decode_lanes :
    reads [0x3FF835D0] (.shfl ⟨⟨5, false⟩, 1, 63, .v 31⟩)
    ∧ reads [0x01F835D3, 0x00C00000, 0x00000000, 0x00000010, 0x00000000] (.shflX ⟨⟨5, false⟩, 1, 63, .lit 16#32⟩ .xor)
    ∧ reads [0x003035D8] (.vote ⟨5, false⟩ 1 6)
    ∧ reads [0x0033F5DA, 0x00C00000, 0x00000000] (.voteX ⟨5, false⟩ (.ballot 31 6))
    ∧ reads [0x0BF835E0] (.lred ⟨5, false⟩ .xor 1 63)
    ∧ reads [0x01FBF5E2, 0x00480800, 0x00000000] (.lredX ⟨5, false⟩ .add .n32 true (.s 31) 63)
    ∧ reads [0x03F835E8] (.lscan ⟨5, false⟩ .min 1 63)
    ∧ reads [0x05F835EA, 0x00400400, 0x00000000] (.lscanX ⟨5, false⟩ .max .i16 false true 1 63) := by decide

theorem test_decode_scalar :
    reads [0x3CF835F2, 0x20080600, 0x00000000] (.scalarForm ⟨5, false⟩ .i64 (.add 1 31 (.s 30) true .none))
    ∧ reads [0x00F835F3, 0x21400E06, 0x00000000, 0xFFFFFFFF, 0xFFFFFFFF] (.scalarForm ⟨5, false⟩ .n64 (.sub 1 31 (.lit 0xFFFFFFFFFFFFFFFF#64) false (.cc 6)))
    ∧ reads [0x3CF835F2, 0x2400081D, 0x00000000] (.scalarForm ⟨5, false⟩ .n32 (.mad 1 31 (.s 30) 29 false))
    ∧ reads [0x06F835F2, 0x2D000E00, 0x00000000] (.scalarForm ⟨5, false⟩ .n64 (.un .popc 1 31 false none))
    ∧ reads [0x3CFDD5F2, 0x35000600, 0x00000000] (.scalarForm ⟨5, false⟩ .i64 (.cmp .ge 6 31 (.s 30)))
    ∧ reads [0x3CF835F2, 0x28000100, 0x00000000] (.scalarForm ⟨5, false⟩ .i32 (.div 1 31 (.s 30) false 4)) := by decide

theorem test_decode_floating_point_a :
    reads [0x3FF83600] (.fadd ⟨⟨5, false⟩, 1, 63, .v 31⟩)
    ∧ reads [0x3FF83602, 0x00409200, 0x00000000] (.faddX ⟨⟨5, false⟩, 1, 63, .v 31⟩ .f16 true .rs)
    ∧ reads [0x3FF83608] (.fsub ⟨⟨5, false⟩, 1, 63, .v 31⟩)
    ∧ reads [0x3FF8360A, 0x00007400, 0x00000000] (.fsubX ⟨⟨5, false⟩, 1, 63, .v 31⟩ .bf16 false .rup)
    ∧ reads [0x3FF83610] (.fmul ⟨⟨5, false⟩, 1, 63, .v 31⟩)
    ∧ reads [0xBFF83612, 0x00003000, 0x00000000] (.fmulX ⟨⟨5, false⟩, 1, 63, .s 31⟩ .f32 false .rtz)
    ∧ reads [0x3FF8361A, 0x0000523E, 0x00000000] (.ffma ⟨⟨5, false⟩, 1, 63, .v 31⟩ .f16 false .rdn 62)
    ∧ reads [0x3FF83620] (.fmin ⟨⟨5, false⟩, 1, 63, .v 31⟩) := by decide

theorem test_decode_floating_point_b :
    reads [0x3FF83622, 0x00401200, 0x00000000] (.fminX ⟨⟨5, false⟩, 1, 63, .v 31⟩ .f16 true)
    ∧ reads [0x3FF83628] (.fmax ⟨⟨5, false⟩, 1, 63, .v 31⟩)
    ∧ reads [0x3FF8362A, 0x00001400, 0x00000000] (.fmaxX ⟨⟨5, false⟩, 1, 63, .v 31⟩ .bf16 false)
    ∧ reads [0x3FFFD668] (.fcmp ⟨5, false⟩ .ord 6 63 (.v 31))
    ∧ reads [0x3FFED66A, 0x00401200, 0x00000000] (.fcmpX ⟨5, false⟩ .un 6 63 (.v 31) .f16 true) := by decide

theorem test_decode_special_functions_a :
    reads [0x01F83630] (.frcp ⟨⟨5, false⟩, 1, 63⟩)
    ∧ reads [0x01F83632, 0x00005000, 0x00000000] (.frcpX ⟨⟨5, false⟩, 1, 63⟩ .rdn)
    ∧ reads [0x01F83638] (.frsq ⟨⟨5, false⟩, 1, 63⟩)
    ∧ reads [0x01F8363A, 0x00001000, 0x00000000] (.frsqX ⟨⟨5, false⟩, 1, 63⟩)
    ∧ reads [0x01F83640] (.fsqrt ⟨⟨5, false⟩, 1, 63⟩)
    ∧ reads [0x01F83642, 0x00005000, 0x00000000] (.fsqrtX ⟨⟨5, false⟩, 1, 63⟩ .rdn)
    ∧ reads [0x01F83648] (.fex2 ⟨⟨5, false⟩, 1, 63⟩)
    ∧ reads [0x01F8364A, 0x00001000, 0x00000000] (.fex2X ⟨⟨5, false⟩, 1, 63⟩) := by decide

theorem test_decode_special_functions_b :
    reads [0x01F83650] (.flg2 ⟨⟨5, false⟩, 1, 63⟩)
    ∧ reads [0x01F83652, 0x00001000, 0x00000000] (.flg2X ⟨⟨5, false⟩, 1, 63⟩)
    ∧ reads [0x01F83658] (.fsin ⟨⟨5, false⟩, 1, 63⟩)
    ∧ reads [0x01F8365A, 0x00001000, 0x00000000] (.fsinX ⟨⟨5, false⟩, 1, 63⟩)
    ∧ reads [0x01F83660] (.fcos ⟨⟨5, false⟩, 1, 63⟩)
    ∧ reads [0x01F83662, 0x00001000, 0x00000000] (.fcosX ⟨⟨5, false⟩, 1, 63⟩) := by decide

theorem test_decode_conversions :
    reads [0x01F83672, 0x00408000, 0x00000DA8] (.fcvt ⟨⟨5, false⟩, 1, 63⟩ .e4m3 .f32 3 true false .rs)
    ∧ reads [0x0010367A, 0x00002000, 0x000915C8] (.fpk ⟨⟨5, false⟩, 1, 2⟩ .e3m2 .f32 5 9 .rtz)
    ∧ reads [0x00103682, 0x00000000, 0x0009150F] (.funpk ⟨⟨5, false⟩, 1, 2⟩ .f32 .e2m3 5 9 .rne)
    ∧ reads [0x01E3F68A, 0x00C00000, 0x00000028] (.bscl ⟨5, false⟩ 31 60 .i8 .f32 true true)
    ∧ reads [0xBFE03692, 0x00408000, 0x000001A8] (.bqnt ⟨5, false⟩ 1 60 31 .e4m3 .f32 true false .rs)
    ∧ reads [0xBFFF969A, 0x00006000, 0x00000151] (.bdeq ⟨5, false⟩ 60 63 31 .bf16 .t2 false .rup)
    ∧ reads [0x01F816A0] (.rseed ⟨5, false⟩ 63)
    ∧ reads [0x01F816A2, 0x00000000, 0x00000000] (.rseedX ⟨5, false⟩ 63) := by decide

theorem test_decode_memory_a :
    reads [0x7C27F6C2, 0x00A41AC0, 0xFFFFFFFC] (.ld ⟨5, false⟩ ⟨4, .v 62 true false, 0xFFFFFFFC#32⟩ .lane .e4m3 63 (some .md) 3)
    ∧ reads [0xBE2016CA, 0x011600FC, 0x00000008] (.st ⟨5, false⟩ ⟨4, .s 31, 8#32⟩ .quad .i32 60 (some .sy) 3)
    ∧ reads [0xBE23F6D3, 0x020006C0, 0x00000008, 0x0000003F, 0x00000000] (.ldg ⟨5, false⟩ ⟨4, .s 31, 8#32⟩ .scal .i64 31 none 3 0x3F#64)
    ∧ reads [0x7C2016DB, 0x00800CFF, 0xFFFFFFFC, 0x0000003F, 0x00000000] (.stg ⟨5, false⟩ ⟨4, .v 62 true false, 0xFFFFFFFC#32⟩ .lane .n16 63 none 3 0x3F#64)
    ∧ reads [0x7C27D6E3, 0x07B50EFC, 0xFFFFFFFC, 0x0000003F, 0x00000000] (.atg ⟨5, false⟩ ⟨4, .v 62 true false, 0xFFFFFFFC#32⟩ .cas .n64 false 62 60 ⟨true, true, .dm⟩ 3 0x3F#64)
    ∧ reads [0x7C27D6EB, 0x00A108C0, 0xFFFFFFFC, 0x0000003F, 0x00000000] (.lrg ⟨5, false⟩ ⟨4, .v 62 true false, 0xFFFFFFFC#32⟩ .n32 62 (some .gp) 3 0x3F#64)
    ∧ reads [0x7C2036F3, 0x009206FC, 0xFFFFFFFC, 0x0000003F, 0x00000000] (.scg ⟨5, false⟩ ⟨4, .v 62 true false, 0xFFFFFFFC#32⟩ .i64 1 60 ⟨false, true, .tm⟩ 3 0x3F#64)
    ∧ reads [0xBE2016FA, 0x0013103C, 0x00000008] (.stp ⟨5, false⟩ ⟨4, .s 31, 8#32⟩ .f32 60 (some .sk)) := by decide

theorem test_decode_memory_b :
    reads [0x7C201702, 0x0188003C, 0xFFFFFFFC] (.atp ⟨5, false⟩ ⟨4, .v 62 true false, 0xFFFFFFFC#32⟩ .add .i32 true 60 none)
    ∧ reads [0x944C170A, 0x00200AC0, 0x00000400] (.ldz ⟨5, false⟩ 32 9 10 .n8 0x400#32 (some .sp) 3)
    ∧ reads [0x9448F712, 0x000012E0, 0x00000100] (.stz ⟨5, false⟩ 7 9 10 32 .f16 0x100#32 none 3) := by decide

theorem test_decode_fences_and_objects_a :
    reads [0x0000171A, 0x00860000, 0x00000000] (.fence ⟨5, false⟩ .acq .sy)
    ∧ reads [0x00001720] (.pfence ⟨5, false⟩)
    ∧ reads [0xB048F72A, 0x000600C0, 0x00000000] (.cpkt ⟨5, false⟩ .sy 7 9 24 3)
    ∧ reads [0x94481732, 0x000000C0, 0x00008001] (.binit ⟨5, false⟩ 9 10 0x8001#16 3)
    ∧ reads [0x9448173A, 0x004200C0, 0x00000000] (.bexp ⟨5, false⟩ true .tm 9 10 3)
    ∧ reads [0x00481742, 0x000400C0, 0x0000FFFF] (.barv ⟨5, false⟩ .md 9 0xFFFF#16 3)
    ∧ reads [0x0048F74A, 0x006300C0, 0x00000000] (.bobs ⟨5, false⟩ true true .sk 7 9 3)
    ∧ reads [0x94481752, 0x00410000, 0xFFFFFFF0] (.bwt ⟨5, false⟩ .gp 9 10 (some 0xFFFFFFF0#32)) := by decide

theorem test_decode_fences_and_objects_b :
    reads [0x94481752, 0x00000000, 0x00000000] (.bwt ⟨5, false⟩ .sp 9 10 none) := by decide

theorem test_decode_arrays_a :
    reads [0x00001783, 0x00000000, 0x00000000, 0x00000DCF, 0x00000000] (.palLiteral ⟨5, false⟩ 0xDCF#64)
    ∧ reads [0x00F81782, 0x00000000, 0x00000000] (.palRegister ⟨5, false⟩ 31)
    ∧ reads [0x0003F788] (.palr ⟨5, false⟩ 31)
    ∧ reads [0x95E1F792, 0x070000FD, 0x00001000] (.mma ⟨5, false⟩ 15 60 10 7 61 0x1000#32 3)
    ∧ reads [0x9571F79A, 0x000000FD, 0x00000040] (.mmab ⟨5, false⟩ 15 46 10 61 0x40#32 3)
    ∧ reads [0x95E1F7A2, 0x070000FD, 0x00001000] (.mmas ⟨5, false⟩ 15 60 10 7 61 0x1000#32 3)
    ∧ reads [0x95E1F7AA, 0x070000C0, 0x00001000] (.mmag ⟨5, false⟩ 15 60 10 7 0x1000#32 3)
    ∧ reads [0x000017B2, 0x004000C0, 0x00000000] (.accz ⟨5, false⟩ true 0 3) := by decide

theorem test_decode_arrays_b :
    reads [0x007F97B2, 0x010000C0, 0x0000007E] (.accrd ⟨5, false⟩ 60 15 62 1 3)
    ∧ reads [0x00F1F7B2, 0x02000080, 0x000003C0] (.accwr ⟨5, false⟩ 15 30 0 15 2)
    ∧ reads [0x007BF7B2, 0x030000C0, 0x00000000] (.accst ⟨5, false⟩ 31 15 3)
    ∧ reads [0x947BF7BA, 0x00400AFD, 0x00020FC0] (.drq ⟨5, false⟩ (.vault 31 2#16) 15 10 61 true 0 63 3)
    ∧ reads [0x007F97C2, 0x008018C0, 0x000003C8] (.drf ⟨5, false⟩ (.regs 60) 15 .e5m2 false true 8 15 3) := by decide

theorem test_decode_swatches_and_ranges_a :
    reads [0x00F817CA, 0x008000C0, 0x00000057] (.swc ⟨5, false⟩ .maxn 31 7 5 3)
    ∧ reads [0x95F817CA, 0x010000FD, 0x00000000] (.swh ⟨5, false⟩ 63 10 61 3)
    ∧ reads [0x000017CA, 0x020000C0, 0x00000000] (.swb ⟨5, false⟩ 3)
    ∧ reads [0x00F817CA, 0x038000C0, 0x00000000] (.swm ⟨5, false⟩ .sig 31 3)
    ∧ reads [0x00F817CA, 0x040000C0, 0x00000000] (.swl ⟨5, false⟩ 31 3)
    ∧ reads [0x0001F7CA, 0x050000C0, 0x000003C8] (.swx ⟨5, false⟩ 15 8 15 3)
    ∧ reads [0xBAF3F7D2, 0x000000C0, 0x00000000] (.rgpost ⟨5, false⟩ 31 30 29 3)
    ∧ reads [0x0003F7D2, 0x010000C0, 0x00010000] (.rgtake ⟨5, false⟩ 31 0x10000#32 3) := by decide

theorem test_decode_swatches_and_ranges_b :
    reads [0x0003F7D2, 0x02000006, 0x00000000] (.rgnext ⟨5, false⟩ 31 6)
    ∧ reads [0x000017D2, 0x030000C0, 0x00000000] (.rgdone ⟨5, false⟩ 3) := by decide

/-- The words that R176 prints for its first conversion. -/
theorem test_decode_printed_conversions :
    reads [0x0010DE72, 0x00000000, 0x000001A8] (.fcvt ⟨h7, 6, 2⟩ .e4m3 .f32 0 false false .rne) := by decide

/-- R113: an opcode that is not assigned, a length that its opcode does not take, a reserved bit, a reserved type. -/
theorem test_decode_refused :
    refused [0x000003FC] ∧ refused [0x0000140D, 0x00000000] ∧ refused [0x0000340C] ∧ refused [0x01F81672, 0x00000000, 0x00000E12]
    := by decide

/-! ### What meets the hypotheses of the statements

Each `premises_<statement>` shows a state and operands that meet all hypotheses of the statement together, clause by clause
where it has clauses. -/

theorem w0_acts : w0.Acts h7 := ⟨by decide, .inr (by decide)⟩
theorem w0_room (k : Tok) : w0.Room k := by revert k; exact (by decide : ∀ k : Tok, w0.me.tok k < 31 ∧ w0.me.ops.length < 32)
theorem w0_released : w0.Released := ⟨by decide, rfl, rfl, rfl⟩
theorem w0_drained : w0.Drained := ⟨w0_released, rfl, rfl⟩

theorem premises_GuardOffHasNoEffect :
    let i : Instr := .tlbi ⟨0, true⟩ .page true 1 2 3
    i.wf = true ∧ w0.active (hdOf i) = 0#32 ∧ (needsPriv i = true → w0.me.priv = true)
      ∧ (needsHandler i = true → w0.me.inHandler = true) := by decide

theorem premises_AddSubWrap : w0.Acts x12.h := w0_acts

/-- The four variants: plain with saturation on a narrow type, and each carry variant, which takes 32 bits. -/
theorem premises_AddSubElements : w0.Acts x12.h ∧ (Instr.addX x12 .n8 true .none).wf = true
    ∧ (Instr.addX x12 .i32 false (.cx 0)).wf = true ∧ (Instr.addX x12 .n32 false (.cc 7)).wf = true
    ∧ (Instr.addX x12 .i32 false (.cxc 6)).wf = true := ⟨w0_acts, by decide⟩

theorem premises_ProductsAreExact : w0.Acts x12.h ∧ ITy.vec .i8 = true := ⟨w0_acts, by decide⟩

theorem premises_DotProductAccumulates : w0.Acts x12.h := w0_acts

theorem premises_MinMaxAndUnary : w0.Acts x12.h ∧ w0.Acts (⟨h7, 3, 1⟩ : U).h ∧ ITy.vec .n16 = true :=
  ⟨w0_acts, w0_acts, by decide⟩

/-- Lane 0 divides by zero, lane 1 divides the lowest value by −1, and lane 2 divides it by 3. -/
theorem premises_DivisionCorners :
    let s := withReg (withReg w0 1 (all32 0x80000000#32)) 2 (vset (vset (all32 3#32) 0 0#32) 1 0xFFFFFFFF#32)
    s.Acts x12.h ∧ s.Room 7 ∧ ITy.vec .i32 = true
    ∧ elemInt .i32 (lane (s.b x12.b) 0).toNat 0 = 0
    ∧ (elemInt .i32 (lane (s.v x12.a) 1).toNat 0 = tyLo .i32 ∧ elemInt .i32 (lane (s.b x12.b) 1).toNat 0 = -1)
    ∧ elemInt .i32 (lane (s.b x12.b) 2).toNat 0 = 3 :=
  ⟨⟨by decide, .inr (by decide)⟩, ⟨by decide, by decide⟩, by decide +kernel⟩

theorem premises_BitwiseWhateverTheType : w0.Acts x12.h := w0_acts
theorem premises_ShiftsByElement : w0.Acts x12.h ∧ ITy.vec .i8 = true := ⟨w0_acts, by decide⟩
theorem premises_BitFieldsAreCut : w0.Acts x12.h ∧ ITy.width .n32 = 32 := ⟨w0_acts, by decide⟩
theorem premises_SelectByPredicate : w0.Acts x12.h := w0_acts
theorem premises_PredicateResults : w0.Acts h7 ∧ ITy.vec .n8 = true := ⟨w0_acts, by decide⟩
theorem premises_Moves : w0.Acts h7 ∧ (62 : VReg).val ≤ 62 ∧ w0.me.act.has 31 = true := ⟨w0_acts, by decide, by decide⟩
theorem premises_ShuffleSources : w0.Acts x12.h := w0_acts
theorem premises_Votes : w0.Acts h7 := w0_acts
theorem premises_ReductionsAndScans : w0.Acts h7 ∧ ITy.vec .i16 = true := ⟨w0_acts, by decide⟩

/-- One scalar form that lands, and one that is outstanding on a token. -/
theorem premises_ScalarForms : w0.Acts h7 ∧ w0.Room 0 ∧ sopTok (.mov 1 (.s 2)) = none
    ∧ sopTok (.rem 1 2 (.s 3) 7) = some 7 ∧ w0.Room 7
    ∧ (let s := withS w0 2 0x80000000#64; readInt .i32 (s.s 2).toNat = tyLo .i32 ∧ readInt .i32 (s.sb (.lit 0xFFFFFFFF#64)).toNat = -1)
    ∧ readInt .i32 (w0.sb (.s 3)).toNat = 0 ∧ 32 ≤ ITy.width .i32 :=
  ⟨w0_acts, w0_room 0, by decide, by decide, w0_room 7, by decide, by decide, by decide⟩

theorem premises_FloatArithmeticRoundsOnce : w0.Acts x12.h ∧ loOk .f16 true = true ∧ loOk .f32 false = true :=
  ⟨w0_acts, by decide, by decide⟩

theorem premises_RoundingKeepsRepresentable : 0x7FC00000 < 2 ^ fWidth .f32 ∧ 0xFFFF < 2 ^ fWidth .f16 := by decide

/-- One NaN, two, and the two zeros. -/
theorem premises_FloatMinMaxAndCompare : w0.Acts x12.h ∧ loOk .bf16 true = true ∧ loOk .f32 false = true
    ∧ fmtF32.value 0x7F800001 = .nan ∧ fmtF32.value 0x3F800000 ≠ .nan
    ∧ (∃ m, fmtF32.value 0 = .fin false 0 m) ∧ (∃ n, fmtF32.value 0x80000000 = .fin true 0 n) :=
  ⟨w0_acts, by decide, by decide, by decide, by decide, ⟨_, rfl⟩, _, rfl⟩

/-- The inputs of the table: both zeros, both infinities, the least and the greatest negative finite number; the least and the
greatest positive ones; and 2^-149 and 2^127, inputs of `flg2` and results of `fex2`. -/
theorem premises_SpecialFunctionTable : w0.Acts h7 ∧ 0#32 < 1#32 ∧ 0x7F7FFFFF#32 < 0x7F800000#32
    ∧ fmtF32.value 1 = .fin false 2 (2 ^ 150) ∧ fmtF32.value 0x7F000000 = .fin false (2 ^ 277) (2 ^ 150)
    ∧ fmtF32.value 0x42FE0000 = .fin false (127 * 2 ^ 150) (2 ^ 150) ∧ 0x80000000#32 < 0x80000001#32 ∧ 0x80000001#32 < 0xFF800000#32
    ∧ 0x80000000#32 < 0xFF7FFFFF#32 ∧ 0xFF7FFFFF#32 < 0xFF800000#32
    ∧ fmtF32.value (0x7F800001#32).toNat = .nan := ⟨w0_acts, by decide⟩

theorem premises_ConversionsWriteTheirBits : w0.Acts h7 ∧ (Instr.fcvt ⟨h7, 1, 2⟩ .e4m3 .f32 3 true false .rs).wf = true
    ∧ (Instr.fpk ⟨h7, 1, 2⟩ .e2m1 .f32 7 31 .rne).wf = true ∧ (Instr.funpk ⟨h7, 1, 2⟩ .f32 .e2m1 7 31 .rne).wf = true :=
  ⟨w0_acts, by decide⟩

/-- A block of zeros, one with an infinity, one of ones, the scale code 255 and another, and scales of `.t2` that are zero and one. -/
theorem premises_BlockScaling :
    let s := withReg w0 4 (all32 0x7F800000#32)
    let value (s : State) (a : VReg) (j : Nat) : Option Ext :=
      match readNum .f32 (s.wide .f32 a 0 j) with | .fl e => some e | .int _ => none
    s.Acts h7 ∧ (Instr.bscl h7 1 4 .e4m3 .f32 true false).wf = true ∧ (Instr.bscl h7 1 4 .t2 .f32 false false).wf = true
    ∧ value s 4 0 = some (.inf false) ∧ (∃ n, value s 8 0 = some (.fin false 0 n))
    ∧ value (withReg s 4 (all32 0x3F800000#32)) 4 0 = some (.fin false (2 ^ 150) (2 ^ 150))
    ∧ fmtF16.value 0 = .fin false 0 (2 ^ 25) ∧ fmtF16.value 0x3C00 = .fin false (2 ^ 25) (2 ^ 25) ∧ 127 ≠ 255
    ∧ (Instr.bqnt h7 1 60 2 .e2m1 .f32 true false .rs).wf = true ∧ ((withS w0 2 0xFF#64).s 2).toNat % 256 = 255
    ∧ (Instr.bdeq h7 60 1 2 .f32 .i8 true .rne).wf = true ∧ (Instr.bdeq h7 62 1 2 .bf16 .t2 false .rne).wf = true :=
  ⟨⟨by decide, .inr (by decide)⟩, by decide, by decide, by decide +kernel, ⟨2 ^ 150, by decide +kernel⟩, by decide +kernel⟩

/-- `sput` of MSTEP, and of TRAPINFO in privileged mode; a scalar form that lands and one that is outstanding. -/
theorem premises_ScalarAndFloatFormsComplete : w0.Acts h7 ∧ w0.Acts x12.h ∧ w0.Acts (⟨h7, 3, 1⟩ : U).h
    ∧ (SpecReg.mstep = .mstep ∨ SpecReg.mstep = .trapinfo ∧ w0.me.priv = true)
    ∧ (SpecReg.trapinfo = .mstep ∨ SpecReg.trapinfo = .trapinfo ∧ w0.me.priv = true)
    ∧ sopTok (.mov 1 (.s 2)) = none ∧ sopTok (.div 1 2 (.s 3) true 7) = some 7 ∧ w0.Room 7 :=
  ⟨w0_acts, w0_acts, w0_acts, .inl rfl, .inr ⟨rfl, by decide⟩, by decide, by decide, w0_room 7⟩

theorem premises_GeneratorStates : w0.Acts h7 ∧ 1#32 ≠ 0#32 := ⟨w0_acts, by decide⟩

/-- The first 2 MB of the address space, mapped to themselves for every use, in the core's cache. -/
def page0 (asid : Nat) : Tlb := ⟨asid, 3, 0, 0x001F000000000000#64⟩

/-- `w0` with that page, a team whose save segment starts at 1 MB, and the grid that it belongs to. -/
def w1 : State :=
  { (w0.onCore 0 0 fun c => { c with tlb := [page0 0] }) with
    teams := [⟨0, 0, 0, 0x8000, 0x1000, 0, 0x100000#64, [], 0, .placed, false⟩], gr := { w0.gr with seg := 0x100000#64 } }

def withMem (s : State) (l : List (Nat × Byte)) : State :=
  l.foldl (fun t x => { t with mem := t.mem.writeBytes x.1 [x.2] }) s

/-- One operation on token 3 outstanding. -/
def withOp (s : State) (i : Instr) : State :=
  let o := s.newOp i h7 (some 3)
  { s with nextId := s.nextId + 1, me := { s.me with ops := [o], toks := vset s.me.toks 3 1 } }

theorem w1_acts : w1.Acts h7 := ⟨by decide, .inr (by decide)⟩
theorem w1_drained : w1.Drained := ⟨⟨rfl, rfl, rfl, rfl⟩, rfl, rfl⟩

theorem premises_BranchesGoToTheirTarget : w0.Acts h7
    ∧ (let s := withS w0 1 0x003FFFFFFFFFFFFC#64; (s.s 1).toNat < 2 ^ 54 ∧ (s.s 1).toNat % 4 = 0)
    ∧ (let s := withS w0 1 0x0040000000000000#64; ¬ ((s.s 1).toNat < 2 ^ 54 ∧ (s.s 1).toNat % 4 = 0))
    ∧ (let s := withS w0 1 2#64; ¬ ((s.s 1).toNat < 2 ^ 54 ∧ (s.s 1).toNat % 4 = 0))
    ∧ w0.active h7 = w0.me.act
    ∧ (let s := withP w0 0 1#32; s.active ⟨0, true⟩ ≠ 0#32 ∧ s.active ⟨0, true⟩ ≠ s.me.act)
    ∧ w0.me.toks = Vector.replicate 8 0 :=
  ⟨w0_acts, by decide, by decide, by decide, by decide, by decide, rfl⟩

/-- A call with the last window that fits and one that does not, a full stack, a return to a call, and one without. -/
theorem premises_CallsAndReturns :
    let s := { w0 with win := { w0.win with entries := [callEntry 1#4 2 0x400#64 0#64] } }
    w0.Acts h7 ∧ w0.me.status = .run ∧ w0.me.toksZero 0xF0#8 = true
    ∧ w0.me.wbase + (63 : Fin 64).val + 1 ≤ 64 ∧ w0.win.entries.length < 32
    ∧ ¬ ({ w0.me with wbase := 1 }.wbase + (63 : Fin 64).val + 1 ≤ 64)
    ∧ 32 ≤ (List.replicate 32 (callEntry 1#4 2 0x400#64 0#64)).length
    ∧ ((w0.s 1).toNat < 2 ^ 54 ∧ (w0.s 1).toNat % 4 = 0)
    ∧ s.Acts h7 ∧ s.win.entries = [] ++ [callEntry 1#4 2 0x400#64 0#64] ∧ (callEntry 1#4 2 0x400#64 0#64).kind = 1
    ∧ (callEntry 1#4 2 0x400#64 0#64).owned s.me.num = true
    ∧ maskedRpc ((freeUnowned s.residents []).filter fun x => x.owned s.me.num) ≠ some (callEntry 1#4 2 0x400#64 0#64).ret
    ∧ ∀ x ∈ w0.own, x.kind ≠ 1 :=
  by refine ⟨w0_acts, ?_, ?_, ?_, ?_, ?_, ?_, ?_, ⟨by decide, .inr (by decide)⟩, rfl, ?_⟩ <;> decide

theorem premises_DelaysAndWaits : w0.Acts h7 ∧ w0.me.stack < 16 ∧ w0.me.core < 8 ∧ w0.me.tok 3 ≤ (0 : Fin 64).val
    ∧ (let s := withOp w0 (.div x12 .i32 false 3); s.Acts h7 ∧ (0 : Fin 64).val < s.me.tok 3) ∧ w0.me.preq = false :=
  ⟨w0_acts, by decide, by decide, by decide, ⟨⟨by decide, .inr (by decide)⟩, by decide⟩, by decide⟩

theorem w0_room_post : w0.trackerFull 0 = false := decide_eq_false (Nat.not_lt_zero _)

/-- An exit of one lane, and one of all the lanes of a split that is alone. -/
theorem premises_ExitsBarriersAndJoins :
    w0.Acts h7 ∧ w0.Drained ∧ w0.trackerFull w0.me.stack = false
    ∧ (let s := withP w0 0 1#32; s.Acts ⟨0, true⟩ ∧ s.Drained ∧ s.active ⟨0, true⟩ ≠ s.me.act)
    ∧ w0.active h7 = w0.me.act ∧ (w0.me.id ≠ 0 ∧ w0.gr.id ≠ 0 ∧ ∀ w ∈ w0.splits, w.group ≠ w0.gr.id ∧ w.id ≠ w0.me.id)
    ∧ w0.own.all (fun e => e.kind != 3) = true ∧ (w0.grid? w0.gr.grid).all (fun g => !g.preq) = true
    ∧ (∀ w ∈ w0.splits, w.status ≠ .saved)
    ∧ w0.me.stack = w0.gr.base ∧ w0.me.group = w0.gr.id ∧ w0.gr.joinCore = none ∧ w0.me.home w0.win = true
    ∧ w0.win.group ≠ 0 ∧ (∀ m < 4, m ≠ w0.me.num → (vget w0.gr.table m TabEntry.free).valid = false)
    ∧ w0.Straight (w0.me.pc + 4#64) := by
  refine ⟨w0_acts, w0_drained, w0_room_post, ⟨⟨by decide, .inr (by decide)⟩, ⟨⟨rfl, rfl, rfl, rfl⟩, rfl, rfl⟩, by decide⟩, ?_⟩
  exact ⟨by decide, ⟨by decide, by decide, fun w hw => by cases hw⟩, by decide, by decide, (fun w hw => by cases hw), by decide, by decide, by decide,
    by decide, by decide, by decide, (by decide : maskedRpc w0.own ≠ some _)⟩

/-- A group whose base stack is in this module, and one whose base stack is stack 0 of module 0 of the domain, as another sees it. -/
theorem premises_SpecialRegisters : w0.Acts h7 ∧ w0.me.priv = true ∧ w0.me.stack < 16 ∧ w0.gr.base < 16
    ∧ (let s := { w0 with gr := { w0.gr with base := 16 } }; s.Acts h7 ∧ 16 ≤ s.gr.base) :=
  ⟨w0_acts, by decide, by decide, by decide, ⟨by decide, .inr (by decide)⟩, by decide⟩

theorem premises_PrivilegedFormsAreChecked :
    let s := { w0 with me := { w0.me with asid := 5 } }
    (needsPriv (.tlbi h7 .page false 1 2 3) = true ∧ s.me.priv = false) ∧ (needsPriv (.sput h7 .trapinfo 1) = true ∧ s.me.priv = false)
    ∧ (needsHandler (.rft h7) = true ∧ w0.me.inHandler = false) := by decide

/-- The vectors of ILLEGAL, SOFT and BREAK stand in the table at 0. -/
def wTrap : State := withMem w1 [(0x9, 0x20#8), (0x69, 0x21#8), (0x71, 0x22#8)]

theorem premises_TrapsEnterTheirHandler : wTrap.Acts h7 ∧ wTrap.Drained ∧ wTrap.me.inHandler = false
    ∧ wTrap.me.pend = Pend.none ∧ wTrap.mem.wf = true
    ∧ wTrap.gr.base < 16 ∧ wTrap.frameVa = 0x100000#64 ∧ wTrap.xlArea false true wTrap.frameVa = .ok ⟨0x100000, 0, false⟩
    ∧ wTrap.saveWaits = false ∧ wTrap.vec .illegal = 0x2000#64 ∧ wTrap.vec .soft = 0x2100#64 ∧ wTrap.vec .brk = 0x2200#64 := by
  refine ⟨⟨by decide, .inr (by decide)⟩, ⟨⟨rfl, rfl, rfl, rfl⟩, rfl, rfl⟩, rfl, rfl, ?_, ?_, ?_, rfl, ?_⟩ <;> decide +kernel

theorem premises_TrapsThatDoNotEnter :
    let s := withOp w0 (.div x12 .i32 false 3)
    w0.Acts h7 ∧ { w0.me with inHandler := true }.inHandler = true ∧ w0.me.pend = Pend.none
    ∧ s.Acts h7 ∧ s.me.inHandler = false ∧ s.me.quiet = false ∧ s.me.pend = Pend.none :=
  ⟨w0_acts, rfl, rfl, ⟨by decide, .inr (by decide)⟩, by decide, by decide, rfl⟩

/-- A split in its handler, whose frame has KIND 1 and a window of one register. -/
def wFrame : State :=
  let s := withMem w1 [(0x100008, 1#8), (0x10040E, 1#8), (0x100409, 1#8), (0x100401, 0x30#8)]
  { s with me := { s.me with inHandler := true, trapinfo := BitVec.ofNat 64 0x100000 } }

theorem premises_ReturnsRestoreTheFrame :
    let s := wFrame
    let pa := 0x100000
    let i := readImage s.mem (pa + 0x400)
    s.Acts h7 ∧ s.Drained ∧ s.me.inHandler = true ∧ s.me.pend = Pend.none ∧ s.me.slice = 0
    ∧ s.readArea s.me.frameAt frameParts = .ok (pa, s.mem)
    ∧ s.frameOk s.mem pa = true ∧ s.imageRoom i = true ∧ s.mem.read (pa + 8) 1 = 1 ∧ s.mem.read (pa + 9) 1 = 0
    ∧ s.mem.read (pa + 0xA) 1 % 2 = 0 ∧ s.mem.read (pa + 0xC) 2 % 1024 = s.locOf s.me.stack
    ∧ (i.entries.all fun e => e.kind != 3) = true :=
  ⟨⟨by decide, .inr (by decide)⟩, ⟨⟨rfl, rfl, rfl, rfl⟩, rfl, rfl⟩, by decide, rfl, rfl, rfl, by decide +kernel⟩

/-- `stkspill` of no entries and of one, `stkfill` up to an entry of KIND 0, `ctxsv` and `ctxld` of an image, and the
invalidation of every translation. -/
theorem premises_PrivilegedForms :
    let s := withS (withMem w1 [(0x3000E, 1#8), (0x30009, 1#8), (0x30001, 0x30#8)]) 1 0x30000#64
    let one := { s with win := { s.win with entries := [callEntry 1#4 2 0x400#64 0#64] } }
    s.Acts h7 ∧ s.Room 3 ∧ s.me.priv = true ∧ s.me.status = .run ∧ s.me.toks = Vector.replicate 8 0
    ∧ s.me.results = []
    ∧ (match s.xlEntries true (s.s 1) (min 32 s.own.length), one.xlEntries true (one.s 1) (min 1 one.own.length),
        s.fill (s.s 1) (min 32 (32 - s.win.entries.length)),
        s.xlLines true (s.s 1) (16 + 2 * (s.me.wbase + s.me.frame)), s.fetchImage (s.s 1) with
      | .ok _, .ok l, .ok f, .ok _, .ok lines =>
        let i := readImage (gatherLines s.mem lines) 0
        l.length == 1 && !f.blocked && (f.pas.all fun x => !s.mem.poisoned x.1)
          && (maskedRpc (i.entries.map fun e => e.filled s.me.num) != some i.pc)
      | _, _, _, _, _ => false) = true :=
  ⟨⟨by decide, .inr (by decide)⟩, ⟨by decide, by decide⟩, by decide, rfl, rfl, rfl, by decide +kernel⟩

/-- A line that is not in the cache, and one that is pinned by the split's grid. -/
theorem premises_InstructionCacheLines :
    let s := withS w1 1 0x20000#64
    let x : Xl := ⟨0x20000, 0, false⟩
    let t := s.onCore 0 0 fun c => { c with icache := [⟨lineOf 0x20000, 0, some 0⟩] }
    s.Acts h7 ∧ s.me.stack < 16 ∧ s.me.core < 8 ∧ s.mem.poisoned x.pa = false
    ∧ xlate s s.me.stack s.me.core s.me.asid ⟨false, false, true, false⟩ 1 (BitVec.ofNat 64 (64 * ((s.s 1).toNat / 64))) = .ok x
    ∧ s.myCore.icache.length < 4096 ∧ (s.myCore.icache.filter fun (l : ILine) => l.pin.isSome).length < 2048
    ∧ (∀ l ∈ s.myCore.icache, l.line = lineOf x.pa → l.pin = none)
    ∧ t.Acts h7 ∧ xlate t t.me.stack t.me.core t.me.asid ⟨false, false, true, false⟩ 1 (BitVec.ofNat 64 (64 * ((t.s 1).toNat / 64))) = .ok x
    ∧ ∃ l, t.myCore.icache.find? (fun (q : ILine) => q.line == lineOf x.pa) = some l ∧ l.pin = some t.gr.grid :=
  ⟨⟨by decide, .inr (by decide)⟩, by decide, by decide, by decide, rfl, by decide, by decide, by decide,
    ⟨by decide, .inr (by decide)⟩, rfl, _, rfl, rfl⟩

/-- `w1` with `s4` = 0x40000, an address of its own stack. -/
def w4 : State := withS w1 4 0x40000#64
theorem w4_acts : w4.Acts h7 := ⟨by decide, .inr (by decide)⟩
/-- `w4` with its first 2 MB mapped to stack 1. -/
def w4far : State := w4.onCore 0 0 fun c => { c with tlb := [⟨0, 3, 0, 0x001F004000000000#64⟩] }

/-- A form that stays on its stack, one that may migrate with all lanes here, the same with all lanes elsewhere, and a
release. -/
theorem premises_AccessesAreOutstanding :
    let m : Addr := ⟨4, .s 0, 0#32⟩
    let i : Instr := .ld h7 m .lane .e4m3 63 (some .md) 3
    let j : Instr := .atg h7 m .cas .n64 false 62 60 ⟨true, true, .dm⟩ 3 0x3F#64
    (Acc.of i = some ⟨m, 1, true, false, false⟩ ∧ tokOf i = some 3 ∧ i.wf = true ∧ w4.Acts (hdOf i) ∧ w4.Room 3)
    ∧ (Acc.of j = some ⟨m, 8, true, true, true⟩ ∧ tokOf j = some 3 ∧ j.wf = true ∧ w4.Acts (hdOf j) ∧ releases j = true
      ∧ w4.Released ∧ (∃ x, w4.xlMigrating true true 8 0x40000#64 = .ok x ∧ w4.homedOn w4.me.stack x.pa = true)
      ∧ w4far.Acts (hdOf j) ∧ w4far.Room 3 ∧ w4far.Released
      ∧ w4.differs (w4.laneOp j (hdOf j) (some 3) ⟨m, 8, true, true, true⟩) = false
      ∧ w4far.differs (w4far.laneOp j (hdOf j) (some 3) ⟨m, 8, true, true, true⟩) = false
      ∧ ∃ x, w4far.xlMigrating true true 8 0x40000#64 = .ok x ∧ w4far.homedOn w4far.me.stack x.pa = false) :=
  ⟨⟨rfl, rfl, by decide, w4_acts, by decide, by decide⟩, rfl, rfl, by decide, w4_acts, by decide, ⟨rfl, rfl, rfl, rfl⟩,
    ⟨⟨0x40000, 0, false⟩, by rfl, by decide⟩, ⟨by decide, .inr (by decide)⟩, ⟨by decide, by decide⟩, ⟨rfl, rfl, rfl, rfl⟩,
    rfl, rfl, ⟨0x4000040000, 0, false⟩, by rfl, by decide⟩

/-- What stack `k` sends to the home of `pa` is performed at once: what `State.Near` asks. -/
abbrev near (s : State) (k pa : Nat) : Prop := s.pairWaits k (homeStack pa) = false ∧ (s.stk (homeStack pa)).pstate = 0
theorem near_iff (s : State) (k pa : Nat) : near s k pa ↔ s.Near k pa := .rfl

/-- What `State.NearRead` asks. -/
abbrev nearRead (s : State) (k pa : Nat) : Prop := near s k pa ∧ s.pairWaits (homeStack pa) k = false
theorem nearRead_iff (s : State) (k pa : Nat) : nearRead s k pa ↔ s.NearRead k pa := ⟨fun h => ⟨h.1, h.2⟩, fun h => ⟨h.1, h.2⟩⟩

/-- The split in focus is served: what `State.Serves` asks. -/
abbrev serves (s : State) : Prop :=
  s.me.status ≠ .transit ∧ (s.me.status matches .leaving (.rft _)) = false ∧ s.me.pend.kill = false
theorem serves_iff (s : State) : serves s ↔ s.Serves := ⟨fun h => ⟨h.1, h.2.1, h.2.2⟩, fun h => ⟨h.status, h.leaving, h.alive⟩⟩

/-- An access of `i` whose addresses are translated to 0x40000, with lane 0 to be served, or with its lanes at STATE 1. -/
def served (i : Instr) (b : Byte) : State :=
  let o := { w4.newOp i h7 (some 3) with
    kind := .access, sent := true, pa := Vector.replicate 32 0x40000, legLanes := BitVec.allOnes 32,
    stat := if actsOnce i then vset (Vector.replicate 32 0#8) 0 b else Vector.replicate 32 b }
  { w4 with nextId := w4.nextId + 1, me := { w4.me with ops := [o], toks := vset w4.me.toks 3 1 } }

/-- The hypotheses of `LaneAccessesArePerformed` for an instruction, at lane 0. -/
def LaneServed (i : Instr) : Prop :=
  let s := served i statPending
  ∃ o a, s.focus s.me.id = some s ∧ s.me.op? w4.nextId = some o ∧ Acc.of o.instr = some a ∧ o.instr.wf = true
    ∧ o.kind = .access ∧ o.sent = true ∧ serves s
    ∧ (o.lanesAt 2 &&& o.legLanes).lowest = some 0 ∧ s.mem.wf = true ∧ s.homedOn s.me.stack (vget o.pa 0 0) = true
    ∧ s.mayAccess o (vget o.pa 0 0) a.sz (a.wr && !(o.instr matches .lrg ..)) = true
    ∧ s.heldOff (vget o.pa 0 0) a.sz (some s.me.id) = false ∧ s.mem.poisoned (vget o.pa 0 0) = false

theorem premises_LaneAccessesArePerformed :
    let m : Addr := ⟨4, .s 0, 0#32⟩
    LaneServed (.ld h7 m .lane .i8 8 none 3) ∧ LaneServed (.ldg h7 m .quad .i32 60 none 3 0) ∧ LaneServed (.ld h7 m .scal .i16 31 none 3)
    ∧ LaneServed (.st h7 m .scal .n64 31 none 3) ∧ LaneServed (.stg h7 m .quad .i32 60 none 3 0)
    ∧ LaneServed (.lrg h7 m .n64 62 none 3 0) ∧ LaneServed (.scg h7 m .i32 8 63 ⟨false, false, .sp⟩ 3 0)
    ∧ LaneServed (.atg h7 m .cas .i64 false 62 60 ⟨false, false, .sp⟩ 3 0)
    ∧ LaneServed (.atg h7 m .add .n32 true 8 9 ⟨false, false, .sp⟩ 3 0)
    ∧ LaneServed (.atg h7 m .fadd .f32 false 8 9 ⟨false, false, .sp⟩ 3 0) := by
  refine ⟨?_, ?_, ?_, ?_, ?_, ?_, ?_, ?_, ?_, ?_⟩ <;> exact ⟨_, _, rfl, rfl, rfl, by decide +kernel⟩

/-- A reservation of lane 0 that still stands for `scg`, and none. -/
theorem premises_LaneAccessesArePerformed_reservations :
    let s := served (.scg h7 ⟨4, .s 0, 0#32⟩ .i32 8 63 ⟨false, false, .sp⟩ 3 0) statPending
    let t := s.onStk 0 fun q => { q with resv := [⟨9, s.me.id, 0, 0x40000 / 8, 0, true⟩] }
    (∃ r, t.resvOf 0x40000 0 = some r ∧ r.granule = 0x40000 / 8) ∧ t.heldOff 0x40000 4 (some t.me.id) = false
    ∧ s.resvOf 0x40000 0 = none := ⟨⟨_, rfl, rfl⟩, by decide, by decide⟩

/-- A load whose lanes are done, a scalar load that is done, and a division. -/
theorem premises_OperationsComplete :
    let s := served (.ld h7 ⟨4, .s 0, 0#32⟩ .quad .i32 60 none 3) statDone
    let t := served (.ld h7 ⟨4, .s 0, 0#32⟩ .scal .i16 31 none 3) statDone
    let u := withOp w0 (.div x12 .i32 false 3)
    (∃ o, s.focus s.me.id = some s ∧ s.me.op? w4.nextId = some o ∧ o.tok = some 3 ∧ serves s
      ∧ s.me.status ≠ .legs w4.nextId ∧ o.kind = .access ∧ (Acc.of o.instr).isSome = true
      ∧ captured o.instr = true ∧ o.sent = true ∧ o.lanesAt 2 = 0#32 ∧ o.lanesAt 3 = 0#32 ∧ vecDest o.instr = some (60, 4)
      ∧ (o.lanesAt 1 &&& ~~~o.landed).has 31 = true)
    ∧ (∃ o, t.me.op? w4.nextId = some o ∧ actsOnce o.instr = true ∧ (o.lanesAt 1 &&& ~~~o.landed).has 0 = true
      ∧ o.lanesAt 2 = 0#32 ∧ o.lanesAt 3 = 0#32)
    ∧ (∃ o, u.focus u.me.id = some u ∧ u.me.op? w0.nextId = some o ∧ o.tok = some 3 ∧ serves u
      ∧ u.me.status ≠ .legs w0.nextId ∧ o.kind = .plain ∧ captured o.instr = false
      ∧ vecDest o.instr = none) :=
  ⟨⟨_, rfl, rfl, by decide⟩, ⟨_, rfl, by decide⟩, ⟨_, rfl, rfl, by decide⟩⟩

/-- 32 lanes at one address; a tracker without entries is not full, whatever its size. -/
theorem premises_PostsLeaveInLaneOrder :
    let m : Addr := ⟨4, .s 0, 0#32⟩
    let x : Xl := ⟨0x40000, 0, false⟩
    w4.Acts h7 ∧ w4.me.stack < 16 ∧ w4.trackerFull w4.me.stack = false ∧ w4.Released
    ∧ ((w4.active h7).list.all fun l => (match w4.xl false true 8 (w4.addrAt m 8 l), w4.xl true true 8 (w4.addrAt m 8 l) with
        | .ok y, .ok z => y == x && z == x
        | _, _ => false)) = true ∧ homeModule x.pa = w4.modno :=
  ⟨w4_acts, by decide, decide_eq_false (Nat.not_lt_zero _), ⟨rfl, rfl, rfl, rfl⟩, by decide +kernel, by decide⟩

theorem premises_ObjectAccessesAreOutstanding :
    w4.Acts h7 ∧ w4.Room 3 ∧ w4.Released ∧ (Instr.stz h7 1 4 2 63 .i8 128 (some .sp) 3).wf = true :=
  ⟨w4_acts, ⟨by decide, by decide⟩, ⟨rfl, rfl, rfl, rfl⟩, by decide⟩

/-- The hypotheses of `BarrierObjectsFlip` for an instruction and the words that stand in its object. -/
def ObjectServed (i : Instr) (w0 w1 : List Byte) : Prop :=
  let f := served i statPending
  let s := { f with mem := (f.mem.writeBytes 0x40000 w0).writeBytes 0x40008 w1 }
  ∃ o, s.focus s.me.id = some s ∧ s.me.op? w4.nextId = some o ∧ o.kind = .access ∧ o.sent = true ∧ serves s
    ∧ o.lanesAt 3 = 0#32 ∧ s.mem.wf = true ∧ vget o.pa 0 0 % 16 = 0
    ∧ s.mem.poisoned (vget o.pa 0 0) = false ∧ s.heldOff (vget o.pa 0 0) 16 (some s.me.id) = false
    ∧ s.mayAccess o (vget o.pa 0 0) 16 (!(o.instr matches .bobs ..)) = true ∧ o.landed = 0#32

/-- An object that an arrival flips (PEND 0, APEND 1), and one that it does not. -/
theorem premises_BarrierObjectsFlip :
    ObjectServed (.binit h7 4 2 65535 3) [] [] ∧ ObjectServed (.bexp h7 true .sp 4 2 3) [] [1#8, 0#8, 7#8]
    ∧ ObjectServed (.bexp h7 false .md 4 2 3) [5#8] [2#8] ∧ ObjectServed (.barv h7 .gp 4 1 3) [] [1#8, 0#8, 255#8]
    ∧ ObjectServed (.barv h7 .gp 4 1 3) [] [2#8] ∧ ObjectServed (.bobs h7 true true .sp 31 4 3) [] [] := by
  refine ⟨?_, ?_, ?_, ?_, ?_, ?_⟩ <;> exact ⟨_, rfl, rfl, by decide +kernel⟩

/-- Nothing to wait for, a token outstanding, and a post of stack 15. -/
theorem premises_FencesWaitForTokensAndPosts :
    let s := withOp w0 (.div x12 .i32 false 3)
    let t := { w0 with me := { w0.me with postloc := 0x8000#16 } }
    w0.Acts h7 ∧ w0.me.status = .run ∧ w0.Released ∧ w0.me.toks = Vector.replicate 8 0
    ∧ s.Acts h7 ∧ s.me.status = .run ∧ s.me.toksZero 0xFF#8 = false ∧ w0.me.postloc = 0#16 ∧ w0.me.postmod = 0#64
    ∧ t.Acts h7 ∧ t.me.status = .run ∧ t.me.postloc ≠ 0#16 ∧ t.me.postmod = 0#64 :=
  ⟨w0_acts, rfl, w0_released, rfl, ⟨by decide, .inr (by decide)⟩, rfl, by decide, rfl, rfl, ⟨by decide, .inr (by decide)⟩, rfl,
    by decide, rfl⟩

/-- The object's PHASE is 0: the phase asked for, and the other. -/
theorem premises_BarrierWaits :
    let x : Xl := ⟨0x40000, 0, false⟩
    let s := withS w4 5 1#64
    s.Acts h7 ∧ s.xlLocal true false 16 (s.s 4) = .ok x ∧ s.mem.poisoned x.pa = false
    ∧ s.readLater x.pa 16 = false
    ∧ (s.mem.read x.pa 8).testBit 63 = (s.s 6).getLsbD 0 ∧ (s.mem.read x.pa 8).testBit 63 ≠ (s.s 5).getLsbD 0 ∧ s.me.preq = false :=
  ⟨⟨by decide, .inr (by decide)⟩, rfl, by decide, by decide, by decide, by decide, by decide⟩

theorem premises_PaletteMoves : w0.Acts h7 := w0_acts

/-- A fixed group of one tile whose first 2 MB are the vault tile above its core; PAL names two scaled 8-bit formats. -/
def wArr : State :=
  let s := w0.onCore 0 0 fun c => { c with tlb := [⟨0, 3, 0, 0x009F002000000000#64⟩] }
  let t := { s with gr := { s.gr with tiles := [Tile.zero] }, me := { s.me with pal := 0x89#64 } }
  withS (withS t 2 0x10000#64) 1 0x20000#64

/-- Every check of an array instruction passes on `wArr` (with another PAL for `mmag`), and the queue is empty. -/
theorem premises_ArrayInstructionsAreAccepted :
    let s := wArr
    wArr.Acts h7 ∧ wArr.Room 3 ∧ s.me.stack < 16 ∧ s.me.core < 8
    ∧ s.denseChk 0 1 2 0 3 0 false false = none ∧ s.sparseChk 0 2 3 0 = none ∧ s.denseChk 0 1 2 0 3 0 false true = none
    ∧ { s with me := { s.me with pal := 0xDCF#64 } }.denseChk 0 1 2 0 0 0 true true = none
    ∧ (∀ o ∈ s.me.ops, (o.instr matches .mmab ..) = false)
    ∧ ¬ s.gr.tiles.length ≤ (0 : TileNo).val ∧ s.gr.tiles ≠ [] ∧ s.noTile 0 = false ∧ palOk s.me.pal = true
    ∧ (palDrain s.me.pal).isNone = false
    ∧ (xlLines (s.xlVault true false 64) (s.s 1) 10).isOk = true ∧ (s.drainLines h7 (.vault 1 2) 64).isOk = true
    ∧ (s.planeLines 3).isOk = true ∧ (xlLines (s.xlLocal true false 64) (s.s 1) 1).isOk = true
    ∧ (xlLines (s.xlLocal false true 64) (s.s 1) 32).isOk = true
    ∧ queued s.myCore.queue + 32 ≤ 64 := by
  refine ⟨⟨by decide, .inr (by decide)⟩, ⟨by decide, by decide⟩, ?_⟩
  decide +kernel

/-- Checks that fail: a tile that the group does not have, a PAL that pairs no formats, and a drain mode that is reserved. -/
theorem premises_ArrayInstructionsAreAccepted_refused :
    let p (x : Dword) : State := { wArr with me := { wArr.me with pal := x } }
    wArr.denseChk 1 1 2 0 3 0 false false = some (.illegal, 5) ∧ (p 0x7FFFF#64).sparseChk 0 2 3 0 = some (.illegal, 4)
    ∧ w0.gr.tiles = [] ∧ (palDrain (p 0x1C000#64).me.pal).isNone = true := by decide +kernel

/-- A pass of `i` over the last quarter, of the operation of the split in focus. -/
def onePass (i : Instr) : Pass := { wArr.newPass i h7 with op := wArr.nextId, part := 3 }
/-- `s` with that pass alone in its core's queue, its slot come. -/
def passing (s : State) (p : Pass) : State :=
  (withOp s p.instr).onCore 0 0 fun c => { c with cycle := 8, queue := [⟨none, 0, 1, [p], [], none⟩] }

/-- What the statements on passes ask of a pass, with what they share on its operands. -/
def PassServed (s : State) (p : Pass) : Prop := ∃ x ls, TakesSlot (passing s p) 0 0 p x ls ∧ p.tile < x.tiles.length
  ∧ palOk p.pal = true ∧ ksOf p.instr < kSteps (palB p.pal) ∧ ((passing s p).opOfPass p).isSome = true ∧ (passing s p).mem.wf = true
  ∧ p.part < 4

theorem premises_PassesActOnTheirRows : ∀ i ∈ [Instr.accz h7 false 0 3, .accz h7 true 0 3, .accwr h7 0 1 0 63 3, .accrd h7 0 0 0 63 3,
    .accst h7 1 0 3, .swc h7 .first 1 15 0 3, .swb h7 3], PassServed wArr (onePass i) := by
  intro i hi
  simp only [List.mem_cons, List.not_mem_nil, or_false] at hi
  rcases hi with rfl | rfl | rfl | rfl | rfl | rfl | rfl <;>
    exact ⟨_, _, ⟨⟨_, rfl, rfl, .inl ⟨rfl, by decide, rfl⟩⟩, rfl, by decide⟩, by decide⟩

/-- The pass with two lines for its read and two registers of A; it serves a bucket of three rows and one of one. -/
def mulPass (i : Instr) : Pass :=
  { onePass i with segs := [(0x2000000000, 0), (0x2000000040, 1)], a := [all32 0x38#32, all32 0x40#32]
                   buckets := some ([⟨24, [24, 25, 31]⟩, ⟨26, [26]⟩], .mean) }

/-- Multiplies of every kind, with their buckets, and a quarter of an `mmab` that is done and one that is not. -/
theorem premises_MultiplyPassesAddTheirProducts :
    (∀ i ∈ [Instr.mma h7 0 1 2 0 3 0 3, .mmab h7 0 1 2 3 0 3, .mmas h7 0 1 2 0 3 0 3, .mmag h7 0 1 2 0 0 3, .swh h7 1 2 3 3],
      PassServed wArr (mulPass i))
    ∧ (let p := mulPass (.mmas h7 0 1 2 0 3 0 3)
      let bs := (p.served wArr.gr.swatch).1
      (bs.map fun y => y.rows).flatten.Nodup ∧ (∀ y ∈ bs, ∀ i ∈ y.rows, i < 32) ∧ (bs.map fun y => y.rep).Nodup
        ∧ (∀ y ∈ bs, y.rep < 32))
    ∧ (let p := mulPass (.mmab h7 0 1 2 3 0 3)
      let done := { wArr with me := { wArr.me with mstep := 8#64 } }
      ((passing wArr p).mstepOf p).getLsbD p.part = false ∧ ((passing done p).mstepOf p).getLsbD p.part = true
        ∧ ((passing wArr p).opOfPass p).any (fun o => !o.clm) = true) := by
  refine ⟨fun i hi => ?_, by decide, by decide⟩
  simp only [List.mem_cons, List.not_mem_nil, or_false] at hi
  rcases hi with rfl | rfl | rfl | rfl | rfl <;>
    exact ⟨_, _, ⟨⟨_, rfl, rfl, .inl ⟨rfl, by decide, rfl⟩⟩, rfl, by decide⟩, by decide⟩

/-- `wArr` with a swatch table: rows 24, 25 and 31 are a bucket of representative 24, row 26 its own. -/
def wSwatch : State :=
  let row (i : Fin 32) : SwRow := ⟨decide (24 ≤ i.val), decide (i.val = 24 ∨ i.val = 26), if i.val = 26 then 1 else 0, if i.val = 26 then 26 else 24⟩
  { wArr with gr := { wArr.gr with swatch := { Swatch.reset with
      tv := true, nb := 2, rule := .mean, rows := Vector.ofFn row, buckets := vset (vset Swatch.reset.buckets 0 (5, 7)) 1 (9, 1) } } }

/-- The pass with its results' lines: one of its own for each lane of the quarter. -/
def outPass (i : Instr) : Pass :=
  { onePass i with pal := 0x4089#64, segs := [(0x2000000000, 0)]
                   outs := (List.range 8).map fun l => (24 + l, [(0x2000010000 + 64 * l, 0)]) }
def partPass (i : Instr) (n : Nat) : Pass := { outPass i with part := n }

/-- Drains to registers and to the vault, the forms of `swm` with each line of the table, `swl`, and `swx` at its first quarter and
at another. -/
theorem premises_DrainAndSwatchPasses :
    (∀ p ∈ [outPass (.drq h7 (.regs 8) 0 1 2 false 1 62 3), outPass (.drq h7 (.vault 1 2) 0 1 2 true 1 62 3),
        outPass (.drf h7 (.regs 8) 0 .f16 true false 0 3 3), outPass (.drf h7 (.vault 1 2) 0 .f32 false false 0 15 3),
        partPass (.swm h7 .map 1 3) 0, partPass (.swm h7 .tab 1 3) 0, partPass (.swm h7 .tab 1 3) 2, partPass (.swm h7 .tab 1 3) 3,
        partPass (.swm h7 .sig 1 3) 2, outPass (.swl h7 1 3), outPass (.swx h7 0 8 15 3), partPass (.swx h7 0 8 15 3) 0],
      PassServed wSwatch p)
    ∧ (palDrain (outPass (.swl h7 1 3)).pal).isSome = true ∧ 1 + 62 < 64
    ∧ (let p := outPass (.drq h7 (.vault 1 2) 0 1 2 true 1 62 3)
      let rows := quarterRows p.lanes p.part
      let at' (l : Nat) : List (Nat × Nat) := ((p.outs.filter fun y => y.1 == l).map fun y => y.2).flatten
      ((rows.map fun l => (at' l).map fun y => y.1).flatten.Nodup) ∧ (∀ l ∈ rows, 63 ≤ 64 * (at' l).length)
        ∧ rows = [24, 25, 26, 27, 28, 29, 30, 31])
    ∧ (partPass (.swm h7 .tab 1 3) 3).outLines = [(0x20000100C0, 0)] ∧ (partPass (.swm h7 .map 1 3) 0).outLines = [(0x2000010000, 0)]
    ∧ (let w := wSwatch.gr.swatch
      ∀ i < 32, (w.row i).val = true → (w.row i).bkt < w.nb ∧ ∀ j < 32, (w.row j).val = true → (w.row j).bkt = (w.row i).bkt →
        (w.row j).rpr = (w.row i).rpr) := by
  refine ⟨fun i hi => ?_, by decide +kernel⟩
  simp only [List.mem_cons, List.not_mem_nil, or_false] at hi
  rcases hi with rfl | rfl | rfl | rfl | rfl | rfl | rfl | rfl | rfl | rfl | rfl | rfl <;>
    exact ⟨_, _, ⟨⟨_, rfl, rfl, .inl ⟨rfl, by decide, rfl⟩⟩, rfl, by decide⟩, by decide⟩

/-- An instruction whose passes are done, `mmab` and another. -/
theorem premises_ArrayInstructionsComplete :
    let fin (i : Instr) (late : Option Nat) : State :=
      let s := withOp wArr i
      { s with me := { s.me with ops := s.me.ops.map fun o => { o with kind := .array, late := late } } }
    ∀ i ∈ [Instr.mmab h7 0 1 2 3 0 3, .accst h7 1 0 3, .mma h7 0 1 2 0 3 0 3], ∀ late ∈ [none, some 0],
      let s := fin i late
      s.focus s.me.id = some s ∧ ∃ o, s.me.op? wArr.nextId = some o ∧ o.kind = .array ∧ o.tok = some 3
        ∧ captured o.instr = (o.instr matches .mmab ..) ∧ vecDest o.instr = none ∧ o.lanesAt 3 = 0#32
        ∧ serves s ∧ s.me.status ≠ .legs wArr.nextId ∧ o.again = false
        ∧ (∀ g ∈ s.myCore.queue, ∀ p ∈ g.passes, p.op ≠ wArr.nextId) ∧ o.due ≤ s.myCore.cycle ∧ o.writes = []
        ∧ o.late = late ∧ s.me.pend.late = none := by
  intro fin i hi late hl
  simp only [List.mem_cons, List.not_mem_nil, or_false] at hi hl
  rcases hi with rfl | rfl | rfl <;> rcases hl with rfl | rfl <;> exact ⟨rfl, _, rfl, by decide⟩

/-- An empty range register, one that holds two indices, and nothing outstanding under the next name. -/
theorem premises_RangeInstructions :
    let s := { w0 with me := { w0.me with rlo := 5#64, rhi := 7#64 } }
    w0.Acts h7 ∧ w0.Room 3 ∧ w0.Released ∧ w0.me.rhi.toNat ≤ w0.me.rlo.toNat
    ∧ s.Acts h7 ∧ s.Room 3 ∧ ¬ s.me.rhi.toNat ≤ s.me.rlo.toNat ∧ ∀ o ∈ s.me.ops, o.id ≠ s.nextId :=
  ⟨w0_acts, w0_room 3, w0_released, by decide, ⟨by decide, .inr (by decide)⟩, ⟨by decide, by decide⟩, by decide, by decide⟩

/-- A request at the head of its queue, with the ranges of the team's pool and what the other split holds. -/
def asking (kind : Nat) (lo hi : Dword) (g due : Nat) (pool : List (Dword × Dword)) : State :=
  let v := { w1.me with id := 70, group := 71, gslot := 1, slot := 1, rlo := 0#64, rhi := 64#64 }
  { w1 with
    fabric := [⟨0, 0, 0, .rangeReq kind w1.me.id w1.gr.id 9 lo hi g due⟩], splits := [v],
    groups := [{ w1.gr with id := 71, grp := 1 }], teams := w1.teams.map fun t => { t with pool := pool } }

/-- The hypotheses that every clause of `RangeUnitAnswers` shares. -/
def Asked (s : State) (kind : Nat) (lo hi : Dword) (g due : Nat) (pool : List (Dword × Dword)) : Prop :=
  ∃ f v gr tm, s.head 0 0 = some (.rangeReq kind w1.me.id w1.gr.id 9 lo hi g due, f) ∧ f.split? w1.me.id = some v
    ∧ f.group? w1.gr.id = some gr ∧ f.team? gr.grid gr.team = some tm ∧ (∀ x ∈ f.allSplits, ∀ j, x.status ≠ .join j)
    ∧ tm.pool = pool ∧ v.stack = 0 ∧ v.resident = true

theorem no_joins (s : State) (h : (s.allSplits.all fun x => !(x.status matches .join _)) = true) :
    ∀ x ∈ s.allSplits, ∀ j, x.status ≠ .join j := by
  intro x hx j hj
  simpa [hj] using List.all_eq_true.mp h x hx

/-- An empty range posted, a range posted with room for it and without, a range taken from the pool, and from an empty one
with grain 0, a range stolen with the greatest grain that allows it, and a range given up. -/
theorem premises_RangeUnitAnswers :
    let full := List.replicate 48 (0#64, 1#64)
    let ask (kind : Nat) (lo hi : Dword) (g : Nat) (pool : List (Dword × Dword)) : Prop :=
      Asked (asking kind lo hi g 0 pool) kind lo hi g 0 pool
    ask 0 5#64 5#64 0 [] ∧ ask 0 5#64 6#64 0 (List.replicate 47 (0#64, 1#64)) ∧ ask 0 5#64 6#64 0 full
    ∧ ask 1 0#64 0#64 0 [(2#64, 3#64)] ∧ ask 1 0#64 0#64 0 [] ∧ ask 1 0#64 0#64 32 [] ∧ ask 2 0#64 0#64 0 []
    ∧ ∃ y v, (asking 1 0#64 0#64 32 0 []).split? w1.me.id = some v
      ∧ (asking 1 0#64 0#64 32 0 []).pickVictim w1.gr.id (0, 0) 0 32 = some y ∧ y.id ≠ 0
      ∧ (y.core, y.slot % 4) ∉ ((asking 1 0#64 0#64 32 0 []).stk 0).todo := by
  refine ⟨?_, ?_, ?_, ?_, ?_, ?_, ?_, ⟨_, _, rfl, rfl, by decide⟩⟩ <;>
    exact ⟨_, _, _, _, rfl, rfl, rfl, rfl, no_joins _ (by decide), rfl, rfl, rfl⟩

/-- A reply without a range and one with. -/
theorem premises_RangeRepliesLand :
    let s (r : Option (Dword × Dword)) : State :=
      { withOp w1 (.rgtake h7 2 8#32 3) with fabric := [⟨0, 0, 0, .rangeRep w1.me.id w1.nextId 1 r⟩] }
    ∀ r ∈ [none, some (0#64, 64#64)], ∃ f u o, (s r).head 0 0 = some (.rangeRep w1.me.id w1.nextId 1 r, f)
      ∧ f.focus w1.me.id = some u ∧ u.me.op? w1.nextId = some o ∧ o.tok = some 3 ∧ u.me.status ≠ .legs w1.nextId
      ∧ 0 < (2 : SReg).val ∧ ∃ h g, o.instr = .rgtake h 2 g 3 := by
  intro s r hr
  simp only [List.mem_cons, List.not_mem_nil, or_false] at hr
  rcases hr with rfl | rfl <;> exact ⟨_, _, _, rfl, rfl, rfl, rfl, by decide, by decide, _, _, rfl⟩

/-- A packet from stack 15 to stack 0, alone in the fabric. -/
def carrying (s : State) (pl : Payload) : State := { s with fabric := [⟨15, 0, 15, pl⟩] }

/-- A plain post and a posted atomic; one of a poisoned line that is not forgiven; an acknowledgement, which failed; a probe of
a stack that tracks another group's post; and an answer of stack 15 for the split in focus. -/
theorem premises_PostsArePerformedAndProbed :
    let post (op : Option (AtOp × Bool)) (pois : Nat) : Payload := .post 2 1 (0, 0, 0) 0 op .i64 0x40000 7#128 pois [] 9 []
    let s (pl : Payload) : State := carrying w4 pl
    let p : State := { s (post none 0) with mem := { w4.mem with poison := [0x1000] } }
    let t := (s (.probe 2 1)).onStk 0 fun q => { q with tracker := [(7, 3)] }
    let u : State := { s (.probeAnswer w4.me.id 15 true) with me := { w4.me with postloc := 0x8000#16, probes := [3, 15] } }
    (0 : Nat) < 16 ∧ (15 : Nat) < 16 ∧ w4.mem.wf = true ∧ p.mem.wf = true
    ∧ (∀ pl, ((s pl).stk 0).pstate = 0) ∧ (p.stk 0).pstate = 0 ∧ (t.stk 0).pstate = 0
    ∧ (∃ f, (s (post none 1)).head 15 0 = some (post none 1, f)
      ∧ (∀ later, f.contextFirst 0 f.nextId 0x40000 8 later = false)
      ∧ f.heldOff 0x40000 8 (some 2) = false ∧ f.hostWaits 0x40000 true = false ∧ f.mem.poisoned 0x40000 = false)
    ∧ (∃ f, (s (post (some (.add, true)) 0)).head 15 0 = some (post (some (.add, true)) 0, f)
      ∧ (∀ later, f.contextFirst 0 f.nextId 0x40000 8 later = false)
      ∧ f.heldOff 0x40000 8 (some 2) = false ∧ f.hostWaits 0x40000 true = false ∧ f.mem.poisoned 0x40000 = false)
    ∧ (∃ f, p.head 15 0 = some (post none 0, f)
      ∧ (∀ later, f.contextFirst 0 f.nextId 0x40000 8 later = false) ∧ f.heldOff 0x40000 8 (some 2) = false
      ∧ f.hostWaits 0x40000 true = false
      ∧ f.mem.poisoned 0x40000 = true)
    ∧ (∃ f, (s (.postAck 1 9 true)).head 15 0 = some (.postAck 1 9 true, f) ∧ (f.stk 0).probed = [])
    ∧ (∃ f, t.head 15 0 = some (.probe 2 1, f) ∧ (f.stk 0).probed = [] ∧ ∀ e ∈ (f.stk 0).tracker, e.1 ≠ 1)
    ∧ ∃ f x, u.head 15 0 = some (.probeAnswer w4.me.id 15 true, f) ∧ w4.me.id ≠ 0 ∧ f.split? w4.me.id = some x :=
  ⟨by decide, by decide, by decide, by decide +kernel, fun _ => rfl, rfl, rfl, ⟨_, rfl, fun _ => rfl, by decide⟩, ⟨_, rfl, fun _ => rfl, by decide⟩,
    ⟨_, rfl, fun _ => rfl, by decide⟩, ⟨_, rfl, rfl⟩, ⟨_, rfl, rfl, by decide⟩, _, _, rfl, by decide, rfl⟩

/-- Arrivals of 32 lanes: the last that the barrier expects, one that leaves it waiting, and an exit decrement. -/
theorem premises_NamedBarriersFlip :
    let s (e : Byte) (exit : Bool) (post : Option (Nat × List Nat)) : State :=
      carrying (withMem w1 [(0x8010, e)]) (.barrier 0 0 0 1 32 exit 0 w1.me.id w1.gr.id post)
    let ok (e : Byte) (exit : Bool) (post : Option (Nat × List Nat)) (flips : Bool) : Prop := ∃ f tm,
      (s e exit post).head 15 0 = some (.barrier 0 0 0 1 32 exit 0 w1.me.id w1.gr.id post, f) ∧ f.team? 0 0 = some tm
      ∧ (s e exit post).mem.wf = true ∧ ((s e exit post).stk 0).pstate = 0 ∧ f.updateWaits (tm.vaultPa + 16) none = false ∧ f.mem.poisoned (tm.vaultPa + 16) = false
      ∧ (let w0 := f.mem.read (tm.vaultPa + 16) 8
        let arrived := if exit then bitsOf w0 42 32 else (bitsOf w0 42 32 + 32) % 2 ^ 11
        let expect := if exit then (bitsOf w0 10 0 + 2 ^ 11 - 32 % 2 ^ 11) % 2 ^ 11 else bitsOf w0 10 0
        decide (expect ≤ arrived ∧ 0 < arrived) = flips) ∧ w1.me.id ≠ 0 ∧ (f.split? w1.me.id).isSome = true
    ok 32#8 false (some (5, [])) true ∧ ok 33#8 false none false ∧ ok 32#8 true (some (5, [])) false := by
  refine ⟨?_, ?_, ?_⟩ <;> exact ⟨_, _, rfl, rfl, by decide +kernel⟩

/-- A request with a number free (0 is in use), one without, a report on a number in use and on a free one, and a number
given back that no split of the group holds. -/
theorem premises_SplitTableServes :
    let gid := w1.gr.id
    let full : Group := { w1.gr with table := Vector.replicate 4 ⟨1#32, 0, 0, 0, true, 0⟩ }
    let other : State := { w1 with gr := { w1.gr with id := 71 }, groups := [w1.gr], me := { w1.me with group := 71 } }
    gid ≠ 0 ∧ (3 : Nat) < 4
    ∧ (∃ f, (carrying w1 (.numReq 2 gid 7)).head 15 0 = some (.numReq 2 gid 7, f) ∧ f.group? gid = some w1.gr)
    ∧ (vget w1.gr.table 0 TabEntry.free).valid = true ∧ (vget w1.gr.table 1 TabEntry.free).valid = false
    ∧ (∃ f, (carrying { w1 with gr := full } (.numReq 2 gid 7)).head 15 0 = some (.numReq 2 gid 7, f) ∧ f.group? gid = some full)
    ∧ (∀ j < 4, (vget full.table j TabEntry.free).valid = true)
    ∧ (∃ f, (carrying w1 (.report gid 3 none 0 0 1 0)).head 15 0 = some (.report gid 3 none 0 0 1 0, f)
      ∧ f.group? gid = some w1.gr)
    ∧ ∃ f, (carrying other (.numFree gid 3)).head 15 0 = some (.numFree gid 3, f) ∧ f.group? gid = some w1.gr
      ∧ ∀ x ∈ f.allSplits, x.group ≠ gid :=
  ⟨by decide, by decide, ⟨_, rfl, rfl⟩, by decide, by decide, ⟨_, rfl, rfl⟩, by decide, ⟨_, rfl, rfl⟩, _, rfl, rfl, by decide⟩

/-- The answer to a divergent `brp`: no number, or number 3 with a slot free. -/
theorem premises_DivisionSharesTheLanes :
    let s (n : Option Nat) : State :=
      { w1 with
        me := { w1.me with status := .wait [.number] (.brp 1#32 0x20000#64 0x003FFFFFFFFFFFFC#64) },
        fabric := [⟨0, 0, 0, .numAns w1.me.id n⟩] }
    ∀ n ∈ [none, some 3], (s n).focus w1.me.id = some (s n)
      ∧ (s n).me.status = .wait [.number] (.brp 1#32 0x20000#64 0x003FFFFFFFFFFFFC#64) ∧ (s n).me.results = []
      ∧ (∃ g, (s n).takePacket (fun p => match p with | .numAns i _ => i == (s n).me.id | _ => false) (s n).gr.base (s n).me.stack
        = some (.numAns (s n).me.id n, g))
      ∧ (s n).me.inHandler = false ∧ (s n).me.pend = Pend.none ∧ (∀ o ∈ (s n).me.ops, o.faulted = false)
      ∧ (s n).win.entries.length < 32 ∧ (0x003FFFFFFFFFFFFC#64).toNat < 2 ^ 54 ∧ (0x003FFFFFFFFFFFFC#64).toNat % 4 = 0
      ∧ (s n).me.pc + 20#64 ≠ 0x003FFFFFFFFFFFFC#64
      ∧ (pickSlots ((s n).takenSlots (s n).me.stack (s n).me.core) (s n).gr.shadow).isSome = true := by
  intro s n hn
  simp only [List.mem_cons, List.not_mem_nil, or_false] at hn
  rcases hn with rfl | rfl <;> exact ⟨rfl, rfl, rfl, ⟨_, rfl⟩, rfl, rfl, by decide, by decide, by decide, by decide, by decide, by decide⟩

/-- A leg to the barrier's base, and one of an access whose lanes are all homed on stack 1. -/
theorem premises_LegsDepartWithTheirContext :
    let s := { w1 with me := { w1.me with status := .leaving (.barw 3 0xF#32) }, gr := { w1.gr with base := 15 } }
    let i : Instr := .ldg h7 ⟨4, .s 0, 0#32⟩ .lane .n32 8 none 3 0xFF#64
    let o : Op := { w4far.laneOp i h7 (some 3) ⟨⟨4, .s 0, 0#32⟩, 4, true, false, true⟩ with
      sent := true, pa := Vector.replicate 32 0x4000040000 }
    let u := { w4far with me := { w4far.me with status := .leaving (.access o.id), ops := [o] } }
    let home (s : State) : Prop := s.focus s.me.id = some s ∧ s.me.id ≠ 0 ∧ s.me.results = [] ∧ s.me.mustTrap = false
      ∧ s.me.stack < 16 ∧ ∀ q ∈ s.slots, s.me.home q = false
    home s ∧ s.me.status = .leaving (.barw 3 0xF#32) ∧ s.me.ops = [] ∧ s.gr.base < 16 ∧ s.gr.base ≠ s.me.stack
    ∧ home u ∧ u.me.op? o.id = some o ∧ (∀ e ∈ u.me.ops, e.id = o.id) ∧ Acc.of i = some ⟨⟨4, .s 0, 0#32⟩, 4, true, false, true⟩
    ∧ (o.lanesAt 2).lowest = some 0 ∧ (u.withWindow o.wb).addrAt ⟨4, .s 0, 0#32⟩ 4 0 = 0x40000#64
    ∧ u.xlMigrating true false 4 0x40000#64 = .ok ⟨0x4000040000, 0, false⟩ ∧ u.homedOn u.me.stack 0x4000040000 = false :=
  ⟨⟨rfl, by decide, rfl, by decide, by decide, by decide⟩, rfl, rfl, by decide, by decide,
    ⟨rfl, by decide, rfl, by decide, by decide, by decide⟩, rfl, by decide, rfl, by decide, by decide, rfl, by decide⟩

/-- A grid of one team of two groups of 32 lanes, at level 3, in address space 5. -/
def grid0 : Grid :=
  { id := 0, level := 3, asid := 5, prio := 0, chktok := false, red := false, lanes := 32, acc := 0, frame := 8, groups := 2,
    kaddr := 0x10000#64, args := 7#64, crec := 0x40000#64, place := 0, smask := 1#16, vault := 0x10000, first := 0, last := 1,
    next := 0, gx := 1, gy := 1, gz := 1, deps := [], ranks := 0, rank := 0, rankMods := [], reported := [], st := .placing,
    preq := false, aborted := false, energy := 0, rankAborted := false, stuck := false }

/-- The module after bring-up, with the first 2 MB of address space 5 in stack 0's cache. -/
def wLaunch : State :=
  { State.reset.onStk 0 fun q => { q with tlb := [page0 5] } with md := { State.reset.md with ready := true } }

/-- Ring 3 at 0x50000 with 16 slots, served. -/
def withRing (s : State) : State :=
  { s with md := { s.md with rings := vset s.md.rings 3 ⟨0x50001#64, true, false, 0x50000, 4, none⟩ } }

/-- A packet of one team of one group of one lane, and one of no teams, which reason 3 refuses. -/
theorem premises_LaunchPacketsStartGrids :
    let good := withMem (withRing wLaunch) [(0x50050, 1#8), (0x50053, 1#8), (0x50055, 0x10#8)]
    let bad := withRing wLaunch
    let x := good.mem.read 0x50040 64
    let ok (s : State) (x r : Nat) : Prop := s.current 3 = none ∧ s.md.fatal = false ∧ (s.ring 3).rewritten = false
      ∧ (s.ring 3).served = true ∧ s.tripWaits 0 (homeStack (s.ring 3).hdr) = false ∧ s.ringWaits (s.ring 3).hdr (s.ring 3).logn = false
      ∧ s.agentWaits ((s.ring 3).hdr + 8) 8 = false
      ∧ s.ringSlot (s.ring 3).hdr (s.ring 3).logn = .packet 0 x ∧ s.checksWait (wordsOf x) = false
      ∧ vget (wordsOf x) 5 0#64 = 0#64 ∧ (s.takeSlot (s.ring 3).hdr 0).refusal (wordsOf x) none = r
    ok good x 0 ∧ ok bad 0 3 := by
  refine ⟨⟨rfl, ?_⟩, rfl, ?_⟩ <;> decide +kernel

/-- The last dependence of a packet, whose object's PHASE is 1. -/
theorem premises_DependencesAreMet :
    let g := { grid0 with deps := [(0x60000#64, false, true), (0x60010#64, true, false)], st := .waiting }
    let r := withRing wLaunch
    let s := withMem { r with grids := [g], md := { r.md with rings := vset r.md.rings 3 ⟨0x50001#64, true, false, 0x50000, 4, some 0⟩ } }
      [(0x60017, 0x80#8)]
    let x : Xl := ⟨0x60010, 0, false⟩
    s.current 3 = some g ∧ g.deps[1]? = some (0x60010#64, true, false) ∧ s.xlLaunch g.asid true false 16 0x60010#64 = .ok x
    ∧ s.hostWaits x.pa false = false ∧ nearRead s 0 x.pa ∧ homeModule x.pa = s.modno ∧ s.mem.poisoned x.pa = false
    ∧ (s.mem.read x.pa 8).testBit 63 = true := ⟨rfl, rfl, rfl, by decide, by decide, by decide, by decide, by decide +kernel⟩

/-- A team whose groups are gone; a share that is over, of rank 0, aborted or not; and the report of the last rank. -/
theorem premises_TeamsAndGridsEnd :
    let tm : Team := ⟨0, 0, 0, 0x8000, 0x1000, 0, 0x100000#64, [], 0, .placed, false⟩
    let a := { wLaunch with teams := [tm] }
    let b (ab : Bool) (next : Nat) : State := { wLaunch with grids := [{ grid0 with next := next, aborted := ab }] }
    let x : Xl := ⟨0x40000, 0, false⟩
    let fin (ab : Bool) (next : Nat) : Prop := ∃ g, (b ab next).grid? 0 = some g
      ∧ (b ab next).xlLaunch g.asid false true 32 g.crec = .ok x ∧ (b ab next).shareOver g = true
      ∧ (b ab next).abortUnsaid g = false ∧ (b ab next).md.fatal = false ∧ g.rank = 0 ∧ g.ranks ≤ g.reported.length + 1
      ∧ near (b ab next) 0 x.pa ∧ (b ab next).heldOff x.pa 32 none = false ∧ (b ab next).hostWaits x.pa true = false ∧ g.crec ≠ 0#64
      ∧ homeModule x.pa = (b ab next).modno ∧ (b ab next).mem.poisoned x.pa = false ∧ (b ab next).mem.wf = true
    let c := { wLaunch with grids := [{ grid0 with ranks := 64 }] }
    (a.mem.wf = true ∧ a.unfocus.team? 0 0 = some tm ∧ tm.st ≠ .ended ∧ (∀ x ∈ a.unfocus.groupsOf 0 0, x.ended = true)
      ∧ ∀ q ∈ a.stks.toList, ∀ e ∈ q.tracker, ∀ x ∈ a.unfocus.groupsOf 0 0, e.1 ≠ x.id)
    ∧ fin false 1 ∧ fin true 0 ∧ ∃ g, c.grid? 0 = some g ∧ (c.grids.map fun x => x.id).Nodup ∧ g.rank = 0 ∧ 0 < 63 ∧ 63 < g.ranks := by
  refine ⟨⟨by decide, rfl, by decide, by decide, by decide +kernel⟩, ?_, ?_, _, rfl, by decide⟩ <;>
    exact ⟨_, rfl, rfl, by decide +kernel⟩

/-- The packet's grid at level 3, with the system page of its address space: two save segments from 1 MB on. -/
def wPlace : State :=
  let s := withMem wLaunch [(0x102, 0x10#8), (0x108, 2#8)]
  { s with
    grids := [grid0], md := { s.md with rings := vset s.md.rings 3 ⟨0x50001#64, true, false, 0x50000, 4, some 0⟩ } }

theorem premises_TeamsArePlaced :
    let s := wPlace
    let u := s.unfocus
    ∃ k seats off, s.md.fatal = false ∧ 3 < 4 ∧ s.mem.wf = true ∧ (∀ j < 4, u.resumesAt j = false)
      ∧ (∀ j < 4, 3 < j → u.current j = none) ∧ u.current 3 = some grid0 ∧ grid0.st = .placing
      ∧ u.placeFor grid0 = some (k, seats, off) ∧ (u.stk k).pstate = 0 ∧ u.arrivalFirst k = false ∧ grid0.groups * grid0.lanes < 2 ^ 64
      ∧ (let vault := u.tileBase k ((seats.head?.map fun x => x.core).getD 0) + off
        (∀ i < 4, u.agentWaits (vault + 64 * i) 64 = false) ∧ u.sysPage k grid0.asid = some (0x100000, 2, 0)
          ∧ u.freeSegment k grid0.asid 2 = some 0) :=
  ⟨0, [⟨0, [(0, none)], 0, none, 0⟩, ⟨1, [(0, none)], 0, none, 0⟩], 0, by decide +kernel⟩

/-- A context with one register at the head of stack 15's arrivals, for a leg of operation 7. -/
theorem premises_ContextsAreAdmitted :
    let w := { w1.me with status := .transit }
    let s := { w1 with me := w }.onStk 15 fun q => { q with arrivals := [.context w.id [(127, all32 9#32)] [] none (.access 7)] }
    let u := s.unfocus
    u.contextSources 15 = [] ∧ (u.stk 15).arrivals = [.context w.id [(127, all32 9#32)] [] none (.access 7)] ∧ w.id ≠ 0
    ∧ w.group ≠ 0 ∧ u.split? w.id = some w ∧ u.group? w.group = some w1.gr ∧ u.admitCore 15 w1.gr none (.access 7) = some 0
    ∧ w.pend = Pend.none ∧ (∀ o ∈ w.ops, o.faulted = false) ∧ w.inHandler = false ∧ (u.stk 15).budgets = []
    ∧ ([((127 : Nat), all32 9#32)].map fun r => r.1).Nodup ∧ (u.slots.map fun q => (q.stack, q.core, q.gslot)).Nodup :=
  ⟨by decide +kernel, rfl, by decide, by decide, rfl, rfl, by decide +kernel, rfl, by decide, rfl, rfl, by decide, by decide +kernel⟩

/-- A request for a grid with a split on the module, a withdrawal, and budgets that have run out on stack 0. -/
theorem premises_PreemptionRunsOnBudgets :
    let r := { w1 with grids := [grid0], md := { w1.md with requested := List.replicate 63 9 } }
    let s := r.onStk 0 fun q => { q with budgets := [(0, 0, false)], hbudgets := [(0, 0)] }
    let h := { s with me := { s.me with inHandler := true, pend := { Pend.none with handler := [0] } } }
    let u := s.unfocus
    s.md.ready = true ∧ s.md.cxlUp = true ∧ u.grid? 0 = some grid0 ∧ (0 : Nat) ∉ s.md.requested ∧ s.md.requested.length < 64
    ∧ (∀ w ∈ u.splits, w.status = .run) ∧ (∀ w ∈ u.splits, w.id ≠ 0) ∧ (u.splits.map fun w => w.id).Nodup
    ∧ ((0, 0, false) : Nat × Nat × Bool) ∈ (s.stk 0).budgets ∧ ((0, 0) : Nat × Nat) ∈ (s.stk 0).hbudgets ∧ grid0.aborted = false
    ∧ ∃ w ∈ h.allSplits, (∃ x, h.group? w.group = some x ∧ x.grid = 0) ∧ 0 ∈ w.pend.handler ∧ w.inHandler = true
      ∧ w.pend.kill = false :=
  ⟨rfl, rfl, rfl, by decide, by decide, by decide +kernel, by decide, by decide, by decide, by decide, rfl, _, .head _, ⟨_, rfl, rfl⟩, .head _, rfl, rfl⟩

/-- A pre-empted team with one group, which fits, and one whose group's tiles are on a core out of service. -/
theorem premises_TeamsResume :
    let tm : Team := ⟨0, 0, 0, 0x8000, 0x1000, 0, 0x100000#64, [], 0, .preempted, false⟩
    let s := { w1 with teams := [tm], grids := [{ grid0 with next := 1 }], me := { w1.me with status := .stored } }
    let t := { s with gr := { s.gr with tiles := [Tile.zero], tileCore := 7 } }.onStk 0 fun q => { q with svc := 0#64 }
    let seats (u : State) : Option (List Seat) := u.seatAll 0 false [(1, 0, none)] []
    (s.unfocus.team? 0 0 = some tm ∧ tm.st = .preempted ∧ s.unfocus.grid? 0 = some { grid0 with next := 1 } ∧ grid0.preq = false
      ∧ grid0.aborted = false ∧ s.md.fatal = false)
    ∧ (t.unfocus.misfits tm ≠ 0 ∧ tm.restoreCap = false)
    ∧ s.unfocus.misfits tm = 0 ∧ ([3, 2, 1, 0].filter fun n => grid0.level < n) = []
    ∧ s.unfocus.arrivalFirst tm.base = false ∧ (s.unfocus.stk tm.base).pstate = 0 ∧ (seats s.unfocus).isSome = true
    ∧ ((List.range 32).filterMap fun n => (s.unfocus.groupsOf 0 0).find? fun x => x.grp == n && !x.ended).map
        (fun x => ((s.unfocus.storedOf x.id).length, x.tiles.length)) = [(1, 0)] :=
  ⟨⟨rfl, rfl, rfl, rfl, rfl, rfl⟩, ⟨by decide +kernel, rfl⟩, by decide +kernel, by decide, by decide, rfl, by decide +kernel, by decide +kernel⟩

/-- A halt that arrives, one that is taken between runs, a deferred fault, a pair that differs, a forced pre-emption, and a
slice that expired. -/
theorem premises_EventsReachASplit :
    let s (p : Pend) : State := { w1 with me := { w1.me with inRun := false, pend := p } }
    let halt := { s Pend.none with fabric := [⟨3, 0, 3, .halt w1.me.id⟩] }
    let f : State :=
      let t := served (.ld h7 ⟨4, .s 0, 0#32⟩ .lane .i8 8 none 3) statDone
      { t with me := { t.me with ops := t.me.ops.map fun o => o.setStat 31 (statFault .page) } }
    (halt.focus w1.me.id = some halt ∧ halt.me.inHandler = false ∧ halt.me.pend.kill = false ∧ halt.me.pend.stop = false
      ∧ ∃ g u, halt.haltFrom w1.me.id = some g ∧ g.focus w1.me.id = some u ∧ u.me = halt.me)
    ∧ ((s { Pend.none with halt := true }).haltFrom w1.me.id = none ∧ (s { Pend.none with halt := true }).me.reach = .all)
    ∧ (∃ o, f.focus f.me.id = some f ∧ f.me.pend.halt = false ∧ f.me.pend.kill = false ∧ f.me.pend.stop = false
      ∧ f.me.faultable = true ∧ f.me.ops.find? Op.faulted = some o)
    ∧ (let w := (s { Pend.none with redund := true }).me
      w.pend.halt = false ∧ w.pend.kill = false ∧ w.pend.stop = false ∧ w.inHandler = false ∧ w.faultable = true
      ∧ w.ops.find? Op.faulted = none ∧ w.pend.late = none)
    ∧ (let w := (s { Pend.none with preempt := true }).me
      w.pend.halt = false ∧ w.faulting = false ∧ w.pend.preempt = true ∧ w.reach = .all)
    ∧ (let w := (s { Pend.none with slice := true }).me
      w.pend.halt = false ∧ w.faultable = false ∧ w.pend.preempt = false ∧ w.pend.slice = true ∧ w.reach = .all) :=
  ⟨⟨rfl, rfl, rfl, rfl, _, _, rfl, rfl, rfl⟩, ⟨by decide, by decide⟩, ⟨_, rfl, by decide, by decide, by decide, by decide, rfl⟩,
    by decide, by decide, by decide⟩

theorem premises_AbortsStopTheGrid :
    let s := { w1 with grids := [grid0] }
    s.md.ready = true ∧ s.grid? 0 = some grid0 ∧ grid0.aborted = false ∧ s.gr.grid = 0 := ⟨rfl, rfl, rfl, rfl⟩

/-- The module ready after bring-up, with nothing launched. -/
def wReady : State := { State.reset with md := { State.reset.md with ready := true } }
def withLimits (l : List Nat) : State := wReady.onStk 0 fun q => { q with limits := l }

/-- The end of a ramp interval (8 · 57 cycles); a flux at each bound, with the spacing met, not met and not begun; no row in
force, row 1, and row 2 at the least HSTEP and above it; and the steps allowed. -/
theorem premises_ThrottleLevels :
    let s := wReady.onCore 15 7 fun c => { c with cycle := 456 }
    let u := wReady.onCore 15 7 fun c => { c with cycle := 5000, hotAt := some 4488, coolAt := some 904, hstep := 1 }
    let v := u.onCore 15 7 fun c => { c with hotAt := some 4489, coolAt := some 905 }
    let q (s : State) : Core := s.core 15 7
    let top (s : State) (r : Nat) : Bool := decide (r ∈ (s.stk 15).limits ∧ ∀ m ∈ (s.stk 15).limits, m ≤ r)
    let held (s : State) : Bool := top s 1 || top s 2 && decide ((q s).hstep = 1)
    let with' (s : State) (l : List Nat) : State := s.onStk 15 fun q => { q with limits := l }
    ((q s).cycle % (8 * (s.md.ramp.toNat % 2 ^ 16)) = 0 ∧ (q s).cycle ≠ (q s).rampAt)
    ∧ (q u).hotAt = some 4488 ∧ 4488 + 512 ≤ (q u).cycle ∧ (q v).hotAt = some 4489 ∧ (q v).cycle < 4489 + 512
    ∧ (q s).hotAt = none ∧ (q s).coolAt = none
    ∧ (q u).coolAt = some 904 ∧ 904 + 4096 ≤ (q u).cycle ∧ (q v).coolAt = some 905 ∧ (q v).cycle < 905 + 4096
    ∧ ¬ held u ∧ held (with' u [0, 1]) ∧ held (with' u [2]) ∧ ¬ held (with' u [1, 3]) ∧ ¬ held (with' s [2])
    ∧ (1 ≤ (8 : Fin 9).val ∧ ¬ top s 3) ∧ (1 ≤ (4 : Fin 9).val ∧ top (with' s [3]) 3) := by decide +kernel

/-- Each row at its boundary reading, a row that is in force already and the bounds at which it is lifted, and row 4. -/
theorem premises_SensorLimits :
    let met (r : Nat) (x : Sensor) (reading : Nat) : Bool := decide (x = .temp ∧ (r = 0 ∧ 95 ≤ reading ∨ r = 1 ∧ 105 ≤ reading)
      ∨ x = .current ∧ r = 2 ∧ 250 < reading ∨ r = 3 ∧ (x = .inlet ∧ 40 < reading ∨ x = .flow ∧ reading < 60))
    let lifts (r reading flow : Nat) : Bool := decide (r = 0 ∧ reading < 90 ∨ r = 1 ∧ reading < 95 ∨ r = 2 ∧ reading < 230
      ∨ r = 3 ∧ 18 ≤ reading ∧ reading ≤ 40 ∧ 60 ≤ flow)
    met 0 .temp 95 ∧ met 1 .temp 105 ∧ met 2 .current 251 ∧ met 3 .inlet 41 ∧ met 3 .flow 59
    ∧ lifts 0 89 0 ∧ lifts 1 94 0 ∧ lifts 2 229 0 ∧ lifts 3 18 60 ∧ lifts 3 40 60 ∧ ¬ lifts 3 17 60 ∧ ¬ lifts 4 0 60
    ∧ (∀ r < 4, r ∉ (wReady.stk 0).limits ∧ r ∈ ((withLimits [r]).stk 0).limits) ∧ wReady.md.fatal = false := by decide

/-- A walk that finds no table, and one through ASID 5's tables to a leaf of 8 GB. -/
theorem premises_StacksKeepTime :
    let s := withMem wReady [(0x29, 0x80#8), (0x2E, 1#8), (0x8002, 1#8), (0x8006, 1#8), (0x10006, 0x7F#8)]
    (0x01FFFFFFFFFFFFFF#64).toNat < 2 ^ 57 ∧ 1023 < 1024
    ∧ ((wReady.onStk 3 fun q => { q with charge := true }).stk 3).charge = true
    ∧ (match walk wReady 0 1023 (0x01FFFFFFFFFFFFFF#64).toNat, walk s 0 5 (0x1FFFFFFFF#64).toNat with
      | .error _, .ok f => f.level == 1 && f.entry == 0x007F000000000000
      | _, _ => false) = true := ⟨by decide, by decide, by decide +kernel, by decide +kernel⟩

/-- Monitor 31 of stack 15 with a level source, unshifted bins of width 1, and a sample that is due, and none that is. -/
theorem premises_MonitorsRecord :
    let s (src : Nat) : State := wReady.onStk 15 fun q => { q with
      samples := [31], monitors := vset q.monitors 31 { Monitor.reset with cfg := BitVec.ofNat 64 (2 ^ 63 + src * 2 ^ 48) } }
    let q (src : Nat) : StackSt := (s src).stk 15
    let on (src : Nat) : Prop := 31 ∈ (q src).samples ∧ (q src).pstate ≠ 3 ∧ ((q src).monitor 31).cfg.getLsbD 63 = true
      ∧ ((q src).monitor 31).cfg.toNat / 2 ^ 48 % 256 = src
    on 1 ∧ on 2 ∧ on 3 ∧ on 4 ∧ on 5 ∧ on 6 ∧ on 7 ∧ (q 1).arrivals.length = 0 ∧ 2 ^ 64 - 1 < 2 ^ 64
    ∧ 31 ∉ (wReady.stk 15).samples ∧ wReady.md.ready = true ∧ wReady.md.cxlUp = true := by
  decide +kernel

/-- A new SVC with one core out of service, the bounds of PBUDGET, and an aligned read. -/
theorem premises_RegisterWritesStoreTheirFields :
    let v : Dword := svcReset &&& ~~~ 0x80#64
    wReady.md.ready = true ∧ wReady.md.cxlUp = true ∧ (∀ c : Fin 8, tilesServed v c.val ≤ 64 ∧ (coreServed v c.val = true ∨ wReady.takenGslots 15 c.val = []))
    ∧ 4096 ≤ (4096#64).toNat % 2 ^ 25 ∧ (16777216#64).toNat % 2 ^ 25 ≤ 16777216 ∧ (0x1F0020#64).toNat % 8 = 0 := by decide +kernel

theorem premises_WritesThatAreDiscarded : (4 : Nat) ≠ 8 ∧ (∃ off, WinReg.readAt 4 = .readAt off ∧ off % 8 ≠ 0)
    ∧ State.reset.md.cxlUp = true ∧ State.reset.md.ready = false ∧ { State.reset.md with cxlUp := false }.cxlUp = false :=
  ⟨by decide, ⟨4, rfl, by decide⟩, rfl, rfl, rfl⟩

/-- RSTCTL with COLD, RSTCTL with WARM alone, and bring-up of module 0 in a domain of 1 and of 64. -/
theorem premises_ResetsKeepAndClear :
    State.reset.md.cxlUp = true ∧ (2#64).getLsbD 1 = true ∧ (1#64).getLsbD 1 = false ∧ (1#64).getLsbD 0 = true ∧ (wReady.stk 0).sketch.frozen = false
    ∧ State.reset.md.ready = false ∧ State.reset.md.fatal = false ∧ 1 ≤ 1 ∧ 64 ≤ 64 ∧ (State.reset.stk 15).limits = []
    ∧ State.reset.md.domcfg.toNat % 64 = (0 : Fin 64).val := by decide

/-- LATTOL at the exit latency of each state, a stack in the state and one in a deeper state. -/
theorem premises_PowerStates :
    let s (n : Nat) : State := { wReady with md := { wReady.md with lattol := BitVec.ofNat 64 n } }
    let t := wReady.onStk 15 fun q => { q with pstate := 2, waking := true }
    let u := (s 0).onStk 15 fun q => { q with pstate := 2 }
    (∀ j : Fin 16, ((s 2000).stk j.val).samples = []) ∧ (s 0).restState 15 = 0 ∧ (s 1).restState 15 = 1 ∧ (s 50).restState 15 = 2 ∧ (s 1999).restState 15 = 2
    ∧ (s 2000).restState 15 = 3 ∧ ((s 2000).stk 15).pstate < 3 ∧ ((s 2000).stk 15).waking = false
    ∧ u.restState 15 = 0 ∧ 0 < (u.stk 15).pstate ∧ (u.stk 15).waking = false
    ∧ (t.stk 15).pstate ≠ 0 ∧ (t.stk 15).waking = true := by decide +kernel

/-- The last DRAM line of stack 0, not poisoned and poisoned, with a grid of address space 5. -/
theorem premises_PoisonEndsItsOwner :
    let line := 0x1000000000 / 64 - 1
    let s := { wReady with grids := [grid0, { grid0 with id := 1 }] }
    let t := { s with mem := { s.mem with poison := [line] } }
    64 * line / 2 ^ 42 = s.md.domcfg.toNat % 64 ∧ isReserved (64 * line) = false ∧ (s.grids.map fun g => g.id).Nodup
    ∧ line ∉ s.mem.poison ∧ line ∈ t.mem.poison := by decide

theorem premises_FatalModuleStops :
    let s := { wReady with md := { wReady.md with links := [(.mesh 15 3, 16, true)] }, grids := [grid0] }
    s.md.fatal = false ∧ (s.linkState (.mesh 15 3)).2 = true ∧ linkThere (.mesh 15 3) = true ∧ (115 ≤ 115 ∧ 47 < 48 ∧ 58 < 59) ∧ 4 ∉ (s.stk 15).limits
    ∧ { s.md with fatal := true }.fatal = true ∧ s.agenda = [] ∧ s.grid? 0 = some grid0 ∧ grid0.aborted = false :=
  ⟨by decide, by decide, by decide, by decide, by decide, rfl, rfl, rfl, rfl⟩

/-- 15 retries, 16 retries, a link that retrains, the ports at both edges of a row and of a column, and a grid with a process-group table that has no request yet. -/
theorem premises_LinksRetryAndRetrain :
    let s (n : Nat) (again : Bool) : State :=
      { wReady with md := { wReady.md with links := [(.mervel 11, n, again)] }, grids := [{ grid0 with id := 2 ^ 31 }] }
    let there : Link → Bool
      | .mervel _ => true
      | .mesh k d => decide (if d.val = 0 then 4 ≤ k.val else if d.val = 1 then k.val % 4 < 3 else if d.val = 2 then k.val < 12
          else 0 < k.val % 4)
    there (.mervel 11) ∧ ¬ there (.mesh 3 0) ∧ there (.mesh 4 0) ∧ ¬ there (.mesh 3 1) ∧ there (.mesh 2 1) ∧ ¬ there (.mesh 12 2)
    ∧ there (.mesh 11 2) ∧ ¬ there (.mesh 12 3) ∧ there (.mesh 13 3)
    ∧ (s 15 false).linkState (.mervel 11) = (15, false) ∧ Link.isDown (s 15 false) (.mervel 11) = false ∧ 15 < 16
    ∧ (s 16 false).linkState (.mervel 11) = (16, false) ∧ 16 ≤ 16 ∧ (s 16 true).linkState (.mervel 11) = (16, true)
    ∧ (∀ g ∈ wReady.grids, g.id < 2 ^ 31) ∧ ((s 16 true).grids.map fun g => g.id).Nodup
    ∧ (s 16 true).md.requested.length + (s 16 true).grids.length ≤ 64
    ∧ ∃ g ∈ (s 16 true).grids, 2 ^ 31 ≤ g.id ∧ g.id ∉ (s 16 true).md.requested := by decide

/-- No grid spans modules, one does and a team of it is placed; no route to a link that is down, and one; another module that is
up; and a packet for a module to which no route leads. -/
theorem premises_RoutesAndPeers :
    let s := { wReady with grids := [{ grid0 with id := 2 ^ 31 }], teams := [⟨2 ^ 31, 0, 0, 0, 0, 0, 0#64, [], 0, .placed, false⟩] }
    let p := { s with fabric := [⟨0, 16 + (16 * 63 + 15), 0, .complete (2 ^ 31) 1 false 0⟩] }
    let d := { wReady with md := { wReady.md with downLinks := [3], routes := vset wReady.md.routes 1 0x13#64, domcfg := 0x200#64 } }
    wReady.quiet = true ∧ s.quiet = false ∧ wReady.routesDown = false ∧ d.quiet = true ∧ d.routesDown = true
    ∧ (63 : Fin 64).val ≠ wReady.md.domcfg.toNat % 64 ∧ (63 : Fin 64).val ∉ wReady.md.peersDown
    ∧ ∃ u y, p.takePacket (fun _ => true) 0 (16 + (16 * 63 + 15)) = some (.complete (2 ^ 31) 1 false 0, u)
      ∧ u.routed 63 = false ∧ u.payloadGrid (.complete (2 ^ 31) 1 false 0) = some (2 ^ 31) ∧ u.grid? (2 ^ 31) = some y := by
  refine ⟨?_, ?_, ?_, ?_, ?_, ?_, ?_, _, _, rfl, by decide, rfl, rfl⟩ <;> decide

/-- The last host address (a reserved one), a DRAM line, poisoned or not, full and partial masks; a stack at rest. -/
theorem premises_HostRequests :
    let r (w : Bool) (m : BitVec 64) (hpa : Nat) : HostReq := ⟨hpa, w, true, true, m, List.replicate 64 7#8⟩
    let pa (r : HostReq) : Nat := 64 * (((wReady.md.domcfg.toNat % 64) * 2 ^ 42 + (r.hpa - wReady.md.hdmbase)) / 64)
    let p := { wReady with mem := { wReady.mem with poison := [0x1000] } }
    let a := wReady.onStk 0 fun q => { q with pstate := 1 }
    let full := wReady.onStk 0 fun q => { q with held := List.replicate 32768 (0, false) }
    wReady.md.hdmbase ≤ (r true 1#64 (2 ^ 42 - 1)).hpa ∧ (r true 1#64 (2 ^ 42 - 1)).hpa - wReady.md.hdmbase < 2 ^ 42 ∧ wReady.md.cxlUp = true ∧ wReady.mem.wf = true ∧ p.mem.wf = true
    ∧ State.reset.md.ready = false ∧ wReady.md.fatal = false ∧ wReady.md.ready = true ∧ near wReady 0 0x40000
    ∧ ¬ near a 0 0x40000 ∧ (r false 0#64 0x40000).keep = true ∧ ¬ (full.stk 0).held.length < 32768
    ∧ ((full.stk 0).held.all fun x => x.1 != 0x1000) = true ∧ isReserved (pa (r true 1#64 (2 ^ 42 - 1))) = true ∧ isReserved (pa (r true 1#64 0x40000)) = false
    ∧ (1#64 ≠ BitVec.allOnes 64) ∧ wReady.mem.poison.contains 0x1000 = false ∧ p.mem.poison.contains 0x1000 = true
    ∧ (wReady.stk 0).held.length < 32768 := by decide +kernel

theorem premises_HostAnswers :
    let s := wReady.onStk 0 fun q => { q with held := [(0x1000, true)] }
    let a := s.onStk 0 fun q => { q with pstate := 1 }
    s.mem.wf = true ∧ s.md.hostWait = [] ∧ s.fabric = [] ∧ near s 0 0x40000 ∧ ¬ near a 0 0x40000 ∧ (s.stk (64 * 0x1000 / 2 ^ 38 % 16)).held.find? (fun h => h.1 == 0x1000) = some (0x1000, true) := by
  decide +kernel

/-- No ring, a header that is refused (LOGN 0), a ring with room for one more record of 16, and a full one. -/
theorem premises_ErrorRecordsArePublished :
    let r : ErrRec := { no := 9, seq := some 3, stamp := 0, typ := 6, loc := 0, skb := 0, grid := 0, team := 0, asid := 0, grp := 255, cls := 9, payload := List.replicate 32 1#8 }
    let s (e : Dword) (l : List (Nat × Byte)) : State :=
      let t := withMem wReady l
      { t with md := { t.md with errq := [r], errlog := e } }
    let hdr := 0x50000
    let ring (w : Byte) : State := s 0x50001#64 [(hdr, w), (hdr + 16, 4#8)]
    (s 0#64 []).md.errq = [r] ∧ r.seq = some 3 ∧ (s 0#64 []).md.fatal = false ∧ (s 0#64 []).mem.wf = true ∧ (s 0#64 []).md.errlog.getLsbD 0 = false
    ∧ (s 0x50001#64 []).md.errlog.getLsbD 0 = true ∧ 64 * ((s 0x50001#64 []).md.errlog.toNat / 64 % 2 ^ 42) = hdr
    ∧ (s 0x50001#64 []).hostWaits hdr false = false ∧ ringLogn ((s 0x50001#64 []).mem.read hdr 64) = none
    ∧ (ring 15#8).mem.poisoned hdr = false ∧ ringLogn ((ring 15#8).mem.read hdr 64) = some 4 ∧ (ring 15#8).mem.wf = true
    ∧ ((ring 15#8).mem.read hdr 8 + 2 ^ 64 - (ring 15#8).mem.read (hdr + 8) 8) % 2 ^ 64 < 2 ^ 4
    ∧ 2 ^ 4 ≤ ((ring 16#8).mem.read hdr 8 + 2 ^ 64 - (ring 16#8).mem.read (hdr + 8) 8) % 2 ^ 64
    ∧ (ring 15#8).agentWaits hdr 8 = false ∧ (ring 15#8).agentWaits (hdr + 64 + 64 * 15) 64 = false ∧ r.payload.length ≤ 32 := by
  decide +kernel

/-! #### The copy engine -/

/-- A packet's words: a 2-by-1 tile of 4-byte elements from 0x60000 to 0x70000, its object at `bar`, with `ctrl` in word 0. -/
def copyWords (ctrl : Dword) (bar : Dword) : Vector Dword 8 :=
  vset (vset (vset (vset (vset (vset (Vector.replicate 8 0#64) 0 ctrl) 1 0x60000#64) 2 0x70000#64) 3 0x0000100001000002#64) 6
    0x0000000001000002#64) 7 bar

/-- A job of channel 3 of stack 0, in address space 5, at the start of its packet. -/
def copyJob (ctrl bar : Dword) : CopyJob :=
  { no := 9, idx := 0, words := copyWords ctrl bar, grid := none, iter := 0, begun := false, next := 0, seen := [], cur := none,
    left := [], readsDone := false, bufs := [], credits := 0, done := 0, tile := none, swp := [], fault := none, ask := .idle }

def withJob (s : State) (j : CopyJob) : State :=
  s.onStk 0 fun q => { q with chans := vset q.chans 3 ⟨0x50001#64, true, false, 0x50000, 4, [j]⟩ }

/-- A channel whose register was rewritten: off, with a usable header, with one that is refused; and one served: a slot not
valid yet, a poisoned one, a linear copy of one byte, which passes the checks, and one of no bytes, which does not. -/
theorem premises_CopyPacketsAreTaken :
    let chan (s : State) (reg : Dword) (re : Bool) : State :=
      s.onStk 0 fun q => { q with chans := vset q.chans 3 ⟨reg, true, re, 0x50000, 4, []⟩ }
    let m (l : List (Nat × Byte)) : State := withMem wLaunch l
    let good := chan (m [(0x50010, 4#8), (0x50058, 1#8)]) 0x50001#64 false
    let bad := chan (m [(0x50010, 4#8)]) 0x50001#64 false
    let late := chan (m [(0x50010, 4#8), (0x50040, 1#8)]) 0x50001#64 false
    let pois := { good with mem := { good.mem with poison := [0x50040 / 64] } }
    (∀ j ∈ (good.chan 0 3).jobs, j.readsDone = true) ∧ (good.chan 0 3).rewritten = false ∧ (good.chan 0 3).served = true
    ∧ good.ringWaits (good.chan 0 3).hdr (good.chan 0 3).logn = false ∧ good.agentWaits ((good.chan 0 3).hdr + 8) 8 = false
    ∧ ((chan wLaunch 0x50001#64 true).chan 0 3).rewritten = true ∧ wLaunch.hostWaits 0x50000 false = false ∧ (0x50000#64).getLsbD 0 = false
    ∧ (0x50001#64).getLsbD 0 = true
    ∧ good.ringHeader (ringHdr 0x50001#64) = some 4 ∧ wLaunch.ringHeader (ringHdr 0x50001#64) = none
    ∧ late.ringSlot 0x50000 4 = .notYet ∧ pois.ringSlot 0x50000 4 = .poisoned 0
    ∧ (let x := good.mem.read 0x50040 64; good.ringSlot 0x50000 4 = .packet 0 x ∧ good.packetCheck 0 (wordsOf x) = none)
    ∧ bad.ringSlot 0x50000 4 = .packet 0 0 ∧ bad.packetCheck 0 (wordsOf 0) = some (.illegal, 0#64) := by decide +kernel

/-- A signal; a loop's first iteration, one whose stage is free again, and one that has to wait for it (two stages). -/
theorem premises_SignalsAndLoops :
    let sig := copyJob 0x5000A#64 0x40000#64
    let loop (n : Nat) : CopyJob := { copyJob 0x4050026#64 0x40000#64 with iter := n }
    let x : Xl := ⟨0x40000, 0, false⟩
    let y : Xl := ⟨0x40020, 0, false⟩
    let a (n : Nat) : State := withJob (withMem wLaunch [(0x40027, 0x80#8)]) (loop n)
    let b : State := withJob wLaunch (loop 2)
    ((withJob wLaunch sig).chan 0 3).jobs = [sig] ∧ (withJob wLaunch sig).xlEngine 0 (cAsid sig.words) true true 16 (cBar sig.words) = .ok x
    ∧ (a 0).xlEngine 0 5 true true 16 (cBar (loop 0).words + BitVec.ofNat 64 (16 * (0 % 2))) = .ok x
    ∧ (a 2).xlEngine 0 5 true false 16 (cBar (loop 0).words + BitVec.ofNat 64 (16 * (2 + 2 % 2))) = .ok y
    ∧ sig.begun = false ∧ cOp sig.words = 5 ∧ cOp (loop 0).words = 3 ∧ cStages (loop 0).words = 2 ∧ (loop 1).iter < 2
    ∧ homeModule y.pa = (a 2).modno ∧ nearRead (a 2) 0 y.pa ∧ (a 2).hostWaits y.pa false = false ∧ (a 2).mem.poisoned y.pa = false
    ∧ bitsOf ((a 2).mem.read y.pa 8) 63 63 = 2 / 2 % 2 ∧ bitsOf (b.mem.read y.pa 8) 63 63 ≠ 2 / 2 % 2 :=
  ⟨rfl, rfl, rfl, rfl, by decide +kernel⟩

/-- Element 1 of a tile, of a fill, of a packet that clips it, and of one whose destination is not aligned or whose source is
not mapped; and a gathered burst with an object and without one. -/
theorem premises_CopyBurstsMoveBytes :
    let b : CopyWrite := ⟨0x70000, 0, [(0, 1#8), (63, 2#8)], false, 0x70000#64, 0x40000#64, false, false⟩
    let at1 (w : Vector Dword 8) : CopyJob := { copyJob 0#64 0#64 with words := w, begun := true, cur := some b, left := [1] }
    let tile := copyWords 0x50022#64 0#64
    let fill := copyWords 0x50028#64 0#64
    let clip := vset (copyWords 0x500A2#64 0#64) 6 0x0000000001000001#64
    let odd := vset tile 2 0x70002#64
    let far := vset tile 1 0x10000000000#64
    let s (w : Vector Dword 8) : State := withJob wLaunch (at1 w)
    let done (obj : Dword) : CopyJob :=
      { copyJob 0x50022#64 0x40000#64 with begun := true, readsDone := true, bufs := [{ b with obj := obj }] }
    let t := withJob wLaunch (done 0x40000#64)
    let x : Xl := ⟨0x60004, 0, false⟩
    ((s tile).chan 0 3).jobs.find? (fun y => y.no == 9) = some (at1 tile)
    ∧ (s tile).xlEngine 0 5 true false 4 (cSrc tile 0 1) = .ok x
    ∧ t.xlEngine 0 5 true true 16 b.obj = .ok ⟨0x40000, 0, false⟩ ∧ (cDst tile 0 1).toNat % cSize tile = 0 ∧ (cDst odd 0 1).toNat % cSize odd ≠ 0
    ∧ cOp fill = 4 ∧ (cDst fill 0 1).toNat % cSize fill = 0 ∧ cOp tile = 1
    ∧ cClipped clip 0 1 = true ∧ cOp clip = 1 ∧ (cDst clip 0 1).toNat % cSize clip = 0 ∧ cClipped tile 0 1 = false
    ∧ cClipped far 0 1 = false ∧ (cDst far 0 1).toNat % cSize far = 0
    ∧ ((s far).xlEngine 0 5 true false 4 (cSrc far 0 1)).isOk = false
    ∧ homeModule x.pa = (s tile).modno
    ∧ nearRead (s tile) 0 x.pa ∧ (s tile).hostWaits x.pa false = false ∧ (s tile).mem.poisoned x.pa = false
    ∧ b.sent = false ∧ (done 0#64).fault = none ∧ (done 0#64).tile = none ∧ near t 0 b.pa ∧ cMcast (done 0#64).words = 0 ∧ homeModule b.pa = t.modno ∧ b.pa % 64 = 0 ∧ t.mem.wf = true
    ∧ (b.bytes.map fun y => y.1).Nodup ∧ (∀ y ∈ b.bytes, y.1 < 64) ∧ t.hostWaits b.pa true = false
    ∧ (∀ y ∈ b.bytes, t.heldOff (b.pa + y.1) 1 none = false) ∧ t.mem.poisoned b.pa = false :=
  ⟨rfl, rfl, rfl, by decide +kernel⟩

/-- A credit that completes the object (PEND 8, then 0), and one that does not. -/
theorem premises_ObjectUpdatesArePerformed :
    ∀ credited ∈ [8, 7], let s := carrying (withMem w1 [(0x40000, 8#8)]) (.object 0x40000 0 credited 0 true 0 5 9 2)
      (s.stk 0).pstate = 0 ∧ ∃ f, s.head 15 0 = some (.object 0x40000 0 credited 0 true 0 5 9 2, f) ∧ f.updateWaits 0x40000 none = false
        ∧ f.mem.poisoned 0x40000 = false ∧ 0x40000 % 16 = 0 ∧ s.mem.wf = true
        ∧ ((bitsOf (f.mem.read 0x40000 8) 55 0 + 2 ^ 56 - credited % 2 ^ 56) % 2 ^ 56 = 0 ↔ credited = 8) := by
  intro c hc
  simp only [List.mem_cons, List.not_mem_nil, or_false] at hc
  rcases hc with rfl | rfl <;> exact ⟨rfl, _, rfl, by decide +kernel⟩

/-! #### The machine as a whole -/

/-- A result of every kind, and in flight two that are due, the later one issued first, about one that is not. -/
theorem premises_ResultsLandInTheirLanes :
    let ws : List Wr := [.v 127 1#32 (all32 5#32), .vbits 0 1#32 (all32 0xFF#32) (all32 5#32), .s 0 7#64, .s 31 7#64,
      .p 7 1#32 1#32, .p 6 1#32 1#32, .pal 1#64, .mstep 0xFF#64, .trapinfo 0xFFFFF#64]
    ∀ w ∈ ws, let s := { w0 with me := { w0.me with results := [⟨0, w⟩, ⟨9, .s 3 1#64⟩, ⟨0, .s 31 8#64⟩] } }
      s.focus s.me.id = some s
      ∧ (s.me.results.filter fun r => decide (r.due ≤ s.myCore.cycle)) = [⟨0, w⟩, ⟨0, .s 31 8#64⟩] := by
  intro ws w _
  exact ⟨rfl, rfl⟩

/-- What the first clause of `StepRunsTheDecodedInstruction` asks of a placed word `w`, whose instruction's bits are `y`. -/
def Steps (w y : Nat) : Prop :=
  let s := State.reset.placed 32 w
  let b := (s.onStk 0 fun q => { q with todo := [] }).markReady 0 0 0
  s.checkDue = false ∧ s.modified = [] ∧ b.me.requeues = false
    ∧ s.agenda = [] ∧ s.md.fatal = false ∧ s.moves = [.slot 0] ∧ (s.stk 0).todo = (0, 0) :: [] ∧ (b.pipe 0 0 0).hold = 0
    ∧ (b.pipe 0 0 0).run = some s.me.id ∧ b.focus s.me.id = some b ∧ b.me.status = .run ∧ b.me.faulting = false
    ∧ (match fetchBytes b b.me.stack b.me.core b.me.asid b.me.pc.toNat 4 with
      | .ok (x, a) => (match fetchBytes a b.me.stack b.me.core b.me.asid b.me.pc.toNat (lenBytes (x % 4)) with
        | .ok (z, _) => z == y && x == y % 2 ^ 32
        | .error _ => false)
      | .error _ => false) = true
    ∧ b.me.refuses (Fields.unpack y) = false

/-- `exit`, a `nop` with a reserved bit set, an event on the agenda, an event that alone can come next, and two that can, while no
check point is due and nothing waits for the host; and a check point. -/
theorem premises_StepRunsTheDecodedInstruction :
    let s (l : List Nat) : State := { wReady with fabric := l.map fun k => ⟨k, 0, k, .postAck 1 k true⟩ }
    (Steps 0x00001C64 0x00001C64 ∧ decodeWord 0x00001C64 = .ok (.exit ⟨7, true⟩))
    ∧ (Steps 0x0000340C 0x0000340C ∧ decodeWord 0x0000340C = .error .reserved) ∧ isEvent .warmReset = true
    ∧ wReady.md.fatal = false ∧ fatalServes .coldReset = true
    ∧ wReady.checkDue = false ∧ wReady.eventHeld .warmReset = false ∧ (s [15]).checkDue = false ∧ (s [15, 14]).checkDue = false
    ∧ (s [15]).moveHeld (.ev (.postAcknowledgement 15 0)) = false ∧ { w1 with win := { w1.win with check := true } }.checkDue = true
    ∧ ((s [15]).agenda = [] ∧ (s [15]).md.fatal = false ∧ (s [15]).moves = [.ev (.postAcknowledgement 15 0)])
    ∧ ((s [15, 14]).agenda = [] ∧ (s [15, 14]).md.fatal = false
      ∧ 2 ≤ ((s [15, 14]).moves.filter fun m => !(s [15, 14]).moveHeld m).length) := by
  refine ⟨⟨?_, by decide⟩, ⟨?_, by decide⟩, by decide, rfl, rfl, rfl, by decide +kernel, rfl, rfl, by decide +kernel, rfl, ?_, ?_⟩
  · exact ⟨rfl, rfl, by decide, rfl, rfl, by decide +kernel, rfl, rfl, rfl, rfl, rfl, by decide, by decide +kernel⟩
  · exact ⟨rfl, rfl, by decide, rfl, rfl, by decide +kernel, rfl, rfl, rfl, rfl, rfl, by decide, by decide +kernel⟩
  · exact ⟨rfl, rfl, by decide +kernel⟩
  · exact ⟨rfl, rfl, by decide +kernel⟩

theorem premises_DecodeReadsBackTheEncoding : (Instr.exit ⟨7, true⟩).wf = true
    ∧ decodeWord 0xFFFFFFFF00001C64 = .ok (.exit ⟨7, true⟩) := by decide

/-- The reset state: its memory is in its canonical form, and its step answers a state. -/
theorem premises_MemoryStaysCanonical : State.reset.mem.wf = true ∧ ∃ t, Machine.step State.reset = .next t :=
  ⟨by decide, _, rfl⟩

/-! ### Single steps

The expected results are those that the manual prints, or are worked out by hand from the rule named. -/

/-- What an instruction sends to the registers. -/
def outOf (i : Instr) (s : State) : List Wr := match exec i s with
  | .next t => t.me.results.map Result.wr
  | .fault _ | .refused _ => []

/-- Lane `l` of its first vector result. -/
def laneOf (l : Nat) (i : Instr) (s : State) : Option Word := match outOf i s with
  | .v _ _ x :: _ => some (lane x l)
  | .vbits _ _ _ x :: _ => some (lane x l)
  | _ => none

def stepsTo (i : Instr) (s : State) (f : State → Bool) : Bool := match exec i s with
  | .next t => f t
  | .fault _ | .refused _ => false

/-- `a` in every lane of `v1`, and `b` in those of `v2`. -/
def ab (a b : Word) : State := withReg (withReg w0 1 (all32 a)) 2 (all32 b)

theorem test_add_wraps : laneOf 31 (.add x12) (ab 0xFFFFFFFF#32 2#32) = some 1#32 := by decide +kernel
/-- R150: 0x7F + 1, 0 − 1, −1 + 1 and −128 − 128 in the four bytes. -/
theorem test_addX_saturates : laneOf 0 (.addX x12 .i8 true .none) (ab 0x7F00FF80#32 0x01FF0180#32) = some 0x7FFF0080#32 := by
  decide +kernel
theorem test_subX_borrows : outOf (.subX x12 .n32 false (.cc 3)) (ab 1#32 2#32)
    = [.v 3 (BitVec.allOnes 32) (all32 0xFFFFFFFF#32), .p 3 (BitVec.allOnes 32) (BitVec.allOnes 32)] := by decide +kernel
/-- R153. -/
theorem test_mulhX_unsigned : laneOf 0 (.mulhX x12 .n32) (ab 0xFFFFFFFF#32 0xFFFFFFFF#32) = some 0xFFFFFFFE#32 := by
  decide +kernel
theorem test_mulhX_signed : laneOf 0 (.mulhX x12 .i32) (ab 0xFFFFFFFF#32 0xFFFFFFFF#32) = some 0#32 := by decide +kernel
/-- R154: 1 · 1 + 2 · 1 + 3 · 1 + 255 · 1 unsigned, and −1 · 1 in its last byte signed. -/
theorem test_dpb_sides : laneOf 0 (.dpb x12 3 false 9) (ab 0xFF030201#32 0x01010101#32) = some 261#32
    ∧ laneOf 0 (.dpb x12 0 false 9) (ab 0xFF030201#32 0x01010101#32) = some 5#32 := by decide +kernel
theorem test_absX_lowest : laneOf 0 (.absX ⟨h7, 3, 1⟩ .i32 true) (ab 0x80000000#32 0#32) = some 0x7FFFFFFF#32
    ∧ laneOf 0 (.abs ⟨h7, 3, 1⟩) (ab 0x80000000#32 0#32) = some 0x80000000#32 := by decide +kernel
theorem test_clzX_elements : laneOf 0 (.clzX ⟨h7, 3, 1⟩ .i8) (ab 0x0180FF00#32 0#32) = some 0x07000008#32 := by decide +kernel
theorem test_brev_ends : laneOf 0 (.brev ⟨h7, 3, 1⟩) (ab 0x80000002#32 0#32) = some 0x40000001#32 := by decide +kernel
/-- R157: an amount of the width or more. -/
theorem test_shifts_past_the_width : laneOf 0 (.shl x12) (ab 0xFFFFFFFF#32 32#32) = some 0#32
    ∧ laneOf 0 (.sra x12) (ab 0x80000000#32 255#32) = some 0xFFFFFFFF#32 := by decide +kernel
theorem test_rot_modulo : laneOf 0 (.rot x12) (ab 0x80000001#32 33#32) = some 3#32 := by decide +kernel
/-- R158: `bfx.i32 v3, v2, 0x0000_0C04` takes bits [15:4]. -/
theorem test_bfx_example : laneOf 0 (.bfx ⟨h7, 3, 1, .lit 0x00000C04#32⟩ .i32) (ab 0x00008120#32 0#32) = some 0xFFFFF812#32 := by
  decide +kernel
/-- R156: −50 by 7. -/
theorem test_div_example : stepsTo (.div ⟨h7, 9, 2, .lit 7#32⟩ .i32 false 4) (ab 0#32 (BitVec.ofInt 32 (-50))) (fun t =>
    t.me.ops.map Op.writes == [[Wr.v 9 (BitVec.allOnes 32) (all32 (BitVec.ofInt 32 (-7)))]] && t.me.tok 4 == 1) = true := by
  decide +kernel
theorem test_sel_lanes : laneOf 0 (.sel x12 2) (withP (ab 5#32 7#32) 2 2#32) = some 7#32
    ∧ laneOf 1 (.sel x12 2) (withP (ab 5#32 7#32) 2 2#32) = some 5#32 := by decide +kernel
theorem test_cmp_signed : outOf (.cmp h7 .lt 3 1 (.v 2)) (ab 0xFFFFFFFF#32 0#32)
    = [.p 3 (BitVec.allOnes 32) (BitVec.allOnes 32)] := by decide +kernel
theorem test_cmpX_unsigned : outOf (.cmpX h7 .lt 3 1 (.v 2) .n32) (ab 0xFFFFFFFF#32 0#32)
    = [.p 3 (BitVec.allOnes 32) 0#32] := by decide +kernel
/-- R162: the low word in `v10` and the high word in `v11`. -/
theorem test_movl_halves : outOf (.movl h7 10 0x0001200000000040#64) w0
    = [.v 10 (BitVec.allOnes 32) (all32 0x40#32), .v 11 (BitVec.allOnes 32) (all32 0x00012000#32)] := by decide +kernel
/-- R164: lane 1 takes lane 17's value, and lane 0 of an `up` by 1 its own. -/
theorem test_shfl_sources :
    let s := withReg w0 1 (vset (all32 4#32) 17 9#32)
    laneOf 1 (.shflX ⟨h7, 6, 1, .lit 16#32⟩ .xor) s = some 9#32 ∧ laneOf 0 (.shflX ⟨h7, 6, 1, .lit 1#32⟩ .up) s = some 4#32 := by
  decide +kernel
theorem test_vote_ballot : outOf (.voteX h7 (.ballot 5 2)) (withP w0 2 0x80000001#32) = [.s 5 0x80000001#64] := by decide +kernel
theorem test_lscan_exclusive : laneOf 31 (.lscanX h7 .add .i32 false true 3 1) (ab 2#32 0#32) = some 62#32 := by decide +kernel
theorem test_scalar_mad_extends : outOf (.scalarForm h7 .i32 (.mad 1 2 (.lit 2#64) 3 false)) (withS w0 2 0x40000000#64)
    = [.s 1 0xFFFFFFFF80000000#64] := by decide +kernel
theorem test_scalar_carry : outOf (.scalarForm h7 .n64 (.add 1 2 (.lit 1#64) false (.cc 3))) (withS w0 2 0xFFFFFFFFFFFFFFFF#64)
    = [.s 1 0#64, .p 3 (BitVec.allOnes 32) (BitVec.allOnes 32)] := by decide +kernel

/-- R87: 1 + 2^−24 is halfway, and goes to the even 1. -/
theorem test_fadd_ties_to_even : laneOf 0 (.fadd x12) (ab 0x3F800000#32 0x33800000#32) = some 0x3F800000#32 := by decide +kernel
theorem test_ffma_rounds_once : laneOf 0 (.ffma x12 .f32 false .rne 4) (withReg (ab 0x3F800001#32 0x3F800001#32) 4 (all32 0xBF800002#32))
    = some 0x28800000#32 := by decide +kernel
theorem test_fmulX_invalid : laneOf 0 (.fmulX x12 .f32 false .rtz) (ab 0x7F800000#32 0x80000000#32) = some 0x7FC00000#32 := by
  decide +kernel
/-- R171: `fmax.bf16 v3, v3, 0` turns a NaN into +0. -/
theorem test_fmaxX_clamps : laneOf 0 (.fmaxX ⟨h7, 3, 1, .lit 0#32⟩ .bf16 false) (ab 0x7FC1BF80#32 0#32) = some 0#32 := by
  decide +kernel
/-- R173: the reciprocal of −0 and of 3. -/
theorem test_frcp_values : laneOf 0 (.frcp ⟨h7, 3, 1⟩) (ab 0x80000000#32 0#32) = some 0xFF800000#32
    ∧ laneOf 0 (.frcp ⟨h7, 3, 1⟩) (ab 0x40400000#32 0#32) = some 0x3EAAAAAB#32 := by decide +kernel
/-- R176: 300.0, 470.0 and −0.375 as E4M3, and 470.0 with OFN. -/
theorem test_fcvt_table :
    let c (se : Fin 8) (ofn : Bool) (x : Word) : Option Word := laneOf 0 (.fcvt ⟨h7, 6, 1⟩ .e4m3 .f32 se ofn false .rne) (ab x 0#32)
    (c 0 false 0x43960000#32).map (fun w => w.toNat % 256) = some 0x79
    ∧ (c 1 false 0x43EB0000#32).map (fun w => w.toNat / 2 ^ 8 % 256) = some 0x7E
    ∧ (c 3 false 0xBEC00000#32).map (fun w => w.toNat / 2 ^ 24) = some 0xAC
    ∧ (c 1 true 0x43EB0000#32).map (fun w => w.toNat / 2 ^ 8 % 256) = some 0x7F := by decide +kernel
/-- R80: 1.0, −0.5, 6.0 and 0 as FP4 are the bytes 0x92 and 0x07. -/
theorem test_fpk_example :
    let s := withReg (withReg (withReg (withReg w0 2 (all32 0x3F800000#32)) 3 (all32 0xBF000000#32)) 4 (all32 0x40C00000#32)) 5 (all32 0#32)
    (laneOf 0 (.fpk ⟨h7, 9, 2⟩ .e2m1 .f32 0 3 .rne) s).map (fun w => w.toNat % 2 ^ 16) = some 0x0792 := by decide +kernel
/-- R91: a state of 1, and the state 0, which becomes 1. -/
theorem test_generator : genStep 1#32 = 0x42021#32 ∧ genStep 0#32 = 1#32 := by decide +kernel

theorem test_bra_target : stepsTo (.bra h7 0xFFFFFFFC#32) w0 (fun t => t.me.pc == 0xFFFC#64 && !t.me.inRun) = true := by
  decide +kernel
theorem test_call_window : stepsTo (.call h7 9 11 0x100#32 5#64) w0 (fun t =>
    t.me.pc == 0x10100#64 && t.me.wbase == 12 && t.me.frame == 10 && t.win.entries.map Entry.ret == [0x10014#64]) = true := by
  decide +kernel
theorem test_exit_lanes : stepsTo (.exit ⟨0, true⟩) (withP w0 0 0xFF#32) (fun t =>
    t.me.act == 0xFFFFFF00#32 && t.me.exited == 0xFF#32 && t.fabric.length == 16) = true := by decide +kernel
theorem test_sget_home : outOf (.sget h7 .act 5) w0 = [.s 5 0xFFFFFFFF#64] := by decide +kernel
/-- R391 to R394: the vector of SOFT, and class 13 with ARG 41 in TRAPINFO. -/
theorem test_trap_enters : stepsTo (.trap h7 41) wTrap (fun t => t.me.pc == 0x2100#64 && t.me.inHandler
    && t.me.trapinfo.toNat % 2 ^ 16 == 13 + 41 * 1024) = true := by decide +kernel
/-- R396: the frame's PC, and the split is out of its handler. -/
theorem test_rft_returns : stepsTo (.rft h7) wFrame (fun t => t.me.pc == 0x3000#64 && !t.me.inHandler && t.me.frame == 1) = true := by
  decide +kernel

/-- R204: element 3 of 4-byte elements from 8 bytes before `s4` on. -/
theorem test_ld_addresses : stepsTo (.ld h7 ⟨4, .v 1 false true, 0xFFFFFFF8#32⟩ .lane .n32 8 none 2) (withS (ab 3#32 0#32) 4 0x2000#64)
    (fun t => t.me.ops.map (fun o => vget o.addr 31 0#64) == [0x2004#64]) = true := by decide +kernel
/-- R342: an `rgtake` of a split without a range asks its base stack. -/
theorem test_rgtake_asks : stepsTo (.rgtake h7 3 8#32 1) w0 (fun t =>
    t.fabric.map Packet.pl == [.rangeReq 1 w0.me.id w0.gr.id w0.nextId 0#64 0#64 8 0]) = true := by decide +kernel
/-- R348: the next index, and that one was left. -/
theorem test_rgnext_counts : outOf (.rgnext h7 3 1) { w0 with me := { w0.me with rlo := 5#64, rhi := 6#64 } }
    = [.s 3 5#64, .p 1 (BitVec.allOnes 32) (BitVec.allOnes 32)] := by decide +kernel
theorem test_pal_literal : outOf (.palLiteral h7 0xDCF#64) w0 = [.pal 0xDCF#64] := by decide +kernel

/-- R212: lane 0 stores its 16-bit element, little-endian, and nothing beside it. -/
theorem test_st_bytes :
    let s := served (.st h7 ⟨4, .s 0, 0#32⟩ .lane .n16 5 none 3) statPending
    let t := { s with me := { s.me with ops := s.me.ops.map fun o => { o with data := Vector.replicate 32 0x12345678#128 } } }
    stepsTo (.operationCompletion s.me.id w4.nextId) t (fun u => u.mem.read 0x40000 4 == 0x5678) = true := by decide +kernel
/-- R211: an `.i8` load extends its sign. -/
theorem test_ld_sign :
    let s := withMem (served (.ld h7 ⟨4, .s 0, 0#32⟩ .lane .i8 5 none 3) statPending) [(0x40000, 0x80#8)]
    stepsTo (.operationCompletion s.me.id w4.nextId) s (fun u =>
      u.me.ops.map (fun o => vget o.out 0 0#128) == [0xFFFFFF80#128]) = true := by decide +kernel
/-- R214: a saturated unsigned addition. -/
theorem test_atg_saturates :
    let s := withMem (served (.atg h7 ⟨4, .s 0, 0#32⟩ .add .n32 true 8 9 ⟨false, false, .sp⟩ 3 0) statPending)
      [(0x40000, 0xFE#8), (0x40001, 0xFF#8), (0x40002, 0xFF#8), (0x40003, 0xFF#8)]
    let t := { s with me := { s.me with ops := s.me.ops.map fun o => { o with data := Vector.replicate 32 3#128 } } }
    stepsTo (.operationCompletion s.me.id w4.nextId) t (fun u => u.mem.read 0x40000 4 == 0xFFFFFFFF) = true := by decide +kernel
/-- R268, R274: the last arrival of an object with no bytes expected flips it: PHASE 1, APEND again AEXP. -/
theorem test_barv_flips :
    let s := withMem (served (.barv h7 .sp 4 1 3) statPending) [(0x40008, 1#8), (0x4000A, 7#8)]
    stepsTo (.operationCompletion s.me.id w4.nextId) s (fun u =>
      u.mem.read 0x40000 8 == 2 ^ 63 && u.mem.read 0x40008 8 == 0x70007) = true := by decide +kernel
/-- R134: the last lane that the barrier expects turns its PHASE. -/
theorem test_barrier_flips :
    stepsTo (.barrierArrival 15 0) (carrying (withMem w1 [(0x8010, 32#8)]) (.barrier 0 0 0 1 32 false 0 w1.me.id w1.gr.id (some (5, []))))
      (fun u => u.mem.read 0x8010 8 == 2 ^ 63 + 32 && u.mem.read 0x8018 8 == 1) = true := by decide +kernel
/-- R349: the oldest range of the pool. -/
theorem test_range_taken : stepsTo (.rangeRequest 0 0) (asking 1 0#64 0#64 8 0 [(2#64, 3#64), (4#64, 5#64)]) (fun u =>
    u.fabric.map Packet.pl == [.rangeRep w1.me.id 9 1 (some (2#64, 3#64))]) = true := by decide +kernel
/-- R305: `accwr` writes its columns in the rows of the pass. -/
theorem test_accwr_columns :
    stepsTo (.pass 0 0) (passing wArr { onePass (.accwr h7 0 1 5 0 3) with a := [all32 9#32] }) (fun u => vget ((u.tileOf wArr.gr.id 0).row 24) 5 0#32 == 9#32
      && vget ((u.tileOf wArr.gr.id 0).row 23) 5 0#32 == 0#32 && vget ((u.tileOf wArr.gr.id 0).row 24) 6 0#32 == 0#32) = true := by
  decide +kernel
/-- R469, R489: a partial host write into a poisoned line is refused, with a record of type 11. -/
theorem test_host_partial_write :
    stepsTo (.hostAccess ⟨0x40000, true, false, false, 1#64, [7#8]⟩) { wReady with mem := { wReady.mem with poison := [0x1000] } }
      (fun u => u.mem.byte 0x40000 == 0#8 && u.md.errq.map ErrRec.typ == [11]) = true := by decide +kernel
/-- R62: the packet's team is placed, and a group waits at its first instruction. -/
theorem test_team_placed : stepsTo .placingTeams wPlace (fun u => u.teams.length == 1 && u.splits.map Split.pc == [0x10000#64, 0x10000#64]
    && u.splits.map (fun w => vget w.sregs 30 0#64) == [7#64, 7#64]) = true := by decide +kernel
/-- R90, R176: a conversion to the same type leaves an infinity as it is, also with OFN 0. -/
theorem test_fcvt_same_type : laneOf 0 (.fcvt ⟨h7, 3, 1⟩ .e5m2 .e5m2 0 false false .rne) (withReg w0 1 (all32 0x7C#32))
    = some 0x7C#32 := by decide +kernel
/-- R11: the port of stack 3 to the north has no link. -/
theorem test_edge_port : exec (.linkRetry (.mesh 3 0)) wReady = .next wReady := by rfl
/-- R492: one write of SKBCTL thaws the sketchbook and sets SEL. -/
theorem test_thaw_selects : stepsTo (.registerWrite (.skbSel 2) 8 0x4000000000000005#64)
    (wReady.onStk 2 fun q => { q with sketch := { q.sketch with frozen := true, lost := 3 } })
    (fun u => (u.stk 2).sketch.sel == 5 && !(u.stk 2).sketch.frozen && (u.stk 2).sketch.lost == 0) = true := by decide +kernel
/-- R494: a bring-up sets READY, the module number and the steps allowed. -/
theorem test_bring_up : stepsTo (.bringUp ⟨true, 0xFFF#12⟩ 0 ⟨1, []⟩) State.reset (fun u => u.md.ready && u.md.domcfg == 256#64
    && (u.core 15 7).fstep == 8 && (u.core 15 7).hstep == 8) = true := by decide +kernel
/-- R494: after a cold reset nothing runs. -/
theorem test_reset_is_empty : State.reset.splits = [] ∧ State.reset.grids = [] ∧ State.reset.md.ready = false := by decide

end Sys2Proof.Tests
end

section
/-! PROOF. What a sketchbook entry and an error record leave of each field (R477, R491). -/
namespace Sys2Proof.Machine

theorem sketch_shape (s : State) (k evt unit asid grid : Nat) (arg : List Byte) :
    ∃ st, s.sketch k evt unit asid grid arg = { s with stks := st } := by
  unfold State.sketch
  dsimp only
  split
  · exact ⟨_, rfl⟩
  · exact ⟨_, rfl⟩

theorem note_shape (s : State) (k evt unit asid grid : Nat) :
    ∃ st n, s.note k evt unit asid grid = { s with stks := st, fresh := n } := by
  obtain ⟨st, h⟩ := sketch_shape s k evt unit asid grid
    (bytesLE 8 (Config.freeDword s.fresh).toNat ++ bytesLE 8 (Config.freeDword (s.fresh + 1)).toNat)
  exact ⟨st, s.fresh + 2, by rw [State.note, h]; rfl⟩

theorem report_shape (s : State) (k typ grid team asid grp cls unit : Nat) (payload : List Byte) :
    ∃ r st n f, s.report k typ grid team asid grp cls unit payload =
        { s with stks := st, nextId := n, fresh := f, md := { s.md with errq := s.md.errq ++ [r] },
                 fabric := s.fabric ++ [⟨k, 0, k, .record r.no⟩] }
      ∧ r.typ = typ ∧ r.loc = s.locOf k ∧ r.seq = none ∧ r.payload = payload := by
  obtain ⟨st, h⟩ := sketch_shape s k 2 unit asid grid (bytesLE 8 typ ++ bytesLE 8 0)
  refine ⟨{ no := s.nextId, seq := none, stamp := (s.stk k).rclock, typ := typ, loc := s.locOf k,
            skb := if (s.stk k).sketch.frozen then (Config.freeWord s.fresh).toNat % 4096 else s.skNext k, grid := grid,
            team := team, asid := asid, grp := grp, cls := cls, payload := payload },
    st, s.nextId + 1, s.fresh + 1, ?_, rfl, rfl, rfl, rfl⟩
  unfold State.report
  rw [h]
  rfl

theorem sendsRecord_report (s : State) {k : Nat} (hk : k < 16) (typ grid team asid grp cls unit : Nat) (payload : List Byte) :
    SendsRecord s (s.report k typ grid team asid grp cls unit payload) k typ payload := by
  obtain ⟨r, st, n, f, h, htyp, hloc, hseq, hpay⟩ := report_shape s k typ grid team asid grp cls unit payload
  rw [h]
  refine ⟨r, rfl, htyp, ?_, hseq, hpay, rfl, rfl⟩
  rw [hloc, State.locOf, if_pos hk, State.modno, Nat.mul_comm]

end Sys2Proof.Machine
end

section
/-! PROOF. What the saves of a pre-emption leave of the links, the requests, the error records and the grids (R74, R431,
R486, R487). -/
namespace Sys2Proof.Machine

/-- From `s` to `t` no link has changed, no request has come or gone, records have only joined the queue, and the grids are the
same with the same PREQ. -/
structure LinksKept (s t : State) : Prop where
  links : t.md.links = s.md.links
  down : t.md.downLinks = s.md.downLinks
  requested : t.md.requested = s.md.requested
  errq : s.md.errq <+: t.md.errq
  grids : t.grids.map (fun g => (g.id, g.preq)) = s.grids.map fun g => (g.id, g.preq)

namespace LinksKept

theorem of_eq {s t : State} (hm : t.md = s.md) (hg : t.grids = s.grids) : LinksKept s t :=
  ⟨by rw [hm], by rw [hm], by rw [hm], by rw [hm], by rw [hg]⟩

theorem refl (s : State) : LinksKept s s := of_eq rfl rfl

theorem trans {s t u : State} (a : LinksKept s t) (b : LinksKept t u) : LinksKept s u :=
  ⟨b.links.trans a.links, b.down.trans a.down, b.requested.trans a.requested, a.errq.trans b.errq, b.grids.trans a.grids⟩

/-- A change of fields that hold neither module registers nor grids comes after what is kept. -/
theorem andThen {s t u : State} (a : LinksKept s t) (hm : u.md = t.md) (hg : u.grids = t.grids) : LinksKept s u :=
  a.trans (of_eq hm hg)

theorem foldl {α : Type} {f : State → α → State} (h : ∀ u x, LinksKept u (f u x)) (l : List α) (s : State) :
    LinksKept s (l.foldl f s) := by
  induction l generalizing s with
  | nil => exact refl s
  | cons x l ih => exact (h s x).trans (ih (f s x))

end LinksKept

open LinksKept

/-! ### Registers and runs -/

theorem applyWr_linksKept (s : State) (w : Wr) : LinksKept s (s.applyWr w) := by
  cases w with
  | s r x =>
    unfold State.applyWr
    dsimp only
    split
    · exact refl s
    · exact of_eq rfl rfl
  | p r m x =>
    unfold State.applyWr
    dsimp only
    split
    · exact refl s
    · exact of_eq rfl rfl
  | _ => exact of_eq rfl rfl

theorem settle_linksKept (s : State) : LinksKept s s.settle := by
  have all (u : State) (ws : List Wr) : LinksKept u (u.applyAll ws) := foldl applyWr_linksKept ws u
  have land : LinksKept s s.landAll := (of_eq rfl rfl : LinksKept s { s with me := { s.me with results := [] } }).trans (all _ _)
  exact (land.trans (foldl (fun u (o : Op) => all u (o.writesFor o.unlanded)) _ _)).andThen rfl rfl

theorem endRun_linksKept (s : State) : LinksKept s s.endRun := by
  obtain ⟨r, n, w, sl, pd, ck, f, h⟩ := endRun_shape s
  rw [h]; exact of_eq rfl rfl

theorem finish_linksKept (s : State) (pc : Dword) : LinksKept s (s.finish pc) := by
  obtain ⟨a, pc', es, r, n, w, sl, pd, ck, f, h⟩ := settled_shape { s with me := { s.me with pc := pc } } true
  rw [State.finish, h]; exact of_eq rfl rfl

/-! ### Reports -/

theorem sketch_linksKept (s : State) (k evt unit asid grid : Nat) (arg : List Byte) :
    LinksKept s (s.sketch k evt unit asid grid arg) := by
  obtain ⟨st, h⟩ := sketch_shape s k evt unit asid grid arg
  rw [h]; exact of_eq rfl rfl

theorem report_linksKept (s : State) (k typ grid team asid grp cls unit : Nat) (payload : List Byte) :
    LinksKept s (s.report k typ grid team asid grp cls unit payload) := by
  obtain ⟨r, st, n, f, h, -⟩ := report_shape s k typ grid team asid grp cls unit payload
  rw [h]; exact ⟨rfl, rfl, rfl, List.prefix_append _ _, rfl⟩

theorem tell_linksKept (s : State) (n : Nat) (mask : Option Mask) (st join : Nat) : LinksKept s (s.tell n mask st join) := by
  unfold State.tell State.tellAs State.onGroup
  split
  · split <;> exact of_eq rfl rfl
  · exact of_eq rfl rfl

/-- A change of a grid that keeps its identifier and PREQ. -/
theorem onGrid_linksKept (s : State) (id : Nat) {f : Grid → Grid} (h : ∀ g, (f g).id = g.id ∧ (f g).preq = g.preq) :
    LinksKept s (s.onGrid id f) := by
  refine ⟨rfl, rfl, rfl, List.prefix_refl _, ?_⟩
  show (s.grids.map fun g => if g.id = id then f g else g).map _ = _
  rw [List.map_map]
  refine List.map_congr_left fun g _ => ?_
  by_cases hg : g.id = id
  · simp [hg, h g]
  · simp [hg]

theorem stopShare_linksKept (s : State) (grid : Nat) : LinksKept s (s.stopShare grid) := by
  have marked : LinksKept s (s.onGrid grid fun g => { g with aborted := true }) := onGrid_linksKept s grid fun _ => ⟨rfl, rfl⟩
  have killed : LinksKept s ((s.onGrid grid fun g => { g with aborted := true }).killGrid grid) := marked.andThen rfl rfl
  unfold State.stopShare
  refine killed.trans (foldl ?_ _ _)
  exact fun _ _ => of_eq rfl rfl

theorem abortOthers_linksKept (s : State) (g : Grid) : LinksKept s (s.abortOthers g) := by
  refine foldl ?_ _ _
  exact fun _ _ => of_eq rfl rfl

theorem abort_linksKept (s : State) (grid reason cls detail team grp : Nat) :
    LinksKept s (s.abort grid reason cls detail team grp) := by
  unfold State.abort
  split
  · split
    · exact refl s
    · split
      · exact refl s
      · exact (((of_eq rfl rfl : LinksKept s (s.killGrid grid)).trans (report_linksKept ..)).andThen rfl rfl)
  · split
    · exact refl s
    · exact ((stopShare_linksKept s grid).trans (report_linksKept ..)).trans (abortOthers_linksKept ..)

theorem saveFault_linksKept (s : State) (c : TClass) (wr : Bool) : LinksKept s (s.saveFault c wr) := abort_linksKept ..

/-! ### The save area -/

theorem written_linksKept (s : State) (pa n : Nat) : LinksKept s (s.written pa n) := by
  refine LinksKept.trans (t := s.onStk (homeStack pa) _) (of_eq rfl rfl) (foldl ?_ _ _)
  exact fun _ _ => of_eq rfl rfl

theorem writeHome_linksKept {s t : State} {pa pois tag : Nat} {bs : List Byte} (h : s.writeHome pa bs pois tag = some t) :
    LinksKept s t := by
  have w := written_linksKept s pa bs.length
  unfold State.writeHome at h
  dsimp only at h
  split at h
  · split at h
    · cases h; exact w.andThen rfl rfl
    · split at h
      · cases h; exact w.andThen rfl rfl
      · cases h
  · cases h; exact w.andThen rfl rfl

theorem putLines_linksKept (s : State) (pa : Nat) (bs : List Byte) (tag : Nat) : LinksKept s (s.putLines pa bs tag) := by
  unfold State.putLines
  split
  · exact refl s
  · exact (written_linksKept s pa bs.length).andThen rfl rfl

theorem putArea_linksKept (s : State) (pa : Nat) (bs : List Byte) : LinksKept s (s.putArea pa bs) := by
  unfold State.putArea
  dsimp only
  split
  · exact putLines_linksKept ..
  · refine (putLines_linksKept s pa bs s.me.asid).trans (foldl ?_ _ _)
    exact fun _ _ => of_eq rfl rfl

/-- An answer of a step that may fail is kept. -/
def AnswerKept (s : State) (r : Except TClass State) : Prop := ∀ u, r = .ok u → LinksKept s u

theorem putFrame_kept (s : State) (kind : Nat) (tinfo pc : Dword) (slice : Nat) (toks : Vector Nat 8) (latch tiles : Bool) :
    AnswerKept s (s.putFrame kind tinfo pc slice toks latch tiles) := by
  intro u h
  unfold State.putFrame at h
  split at h
  · cases h
  · cases h; exact (putArea_linksKept ..).trans (putArea_linksKept ..)

theorem AnswerKept.ok {s u : State} (h : LinksKept s u) : AnswerKept s (.ok u) := fun _ hu => by cases hu; exact h

theorem AnswerKept.foldl {α : Type} {f : Except TClass State → α → Except TClass State} {s : State}
    (h : ∀ r x, AnswerKept s r → AnswerKept s (f r x)) (l : List α) {r : Except TClass State} (hr : AnswerKept s r) :
    AnswerKept s (l.foldl f r) := by
  induction l generalizing r with
  | nil => exact hr
  | cons x l ih => exact ih (h r x hr)

theorem putTiles_kept (s : State) : AnswerKept s s.putTiles := by
  unfold State.putTiles
  extract_lets put tiles flags
  have piece (r : Except TClass State) (off : Nat) (bs : List Byte) (hr : AnswerKept s r) : AnswerKept s (put r off bs) := by
    intro v hv
    cases r with
    | error c => cases hv
    | ok u =>
      cases hx : u.xlArea false true (u.areaVa off) with
      | error c => simp only [put, hx] at hv; cases hv
      | ok x => simp only [put, hx] at hv; cases hv; exact (hr u rfl).trans (putArea_linksKept ..)
  have all : AnswerKept s tiles := by
    refine AnswerKept.foldl (fun r i hr => ?_) _ (.ok (refl s))
    split
    · exact hr
    · exact piece _ _ _ hr
  have written := piece _ 0x60800 (swSig s.gr.swatch) (piece _ 0x60000 (swTab s.gr.swatch) all)
  generalize put (put tiles 0x60000 (swTab s.gr.swatch)) 0x60800 (swSig s.gr.swatch) = r at written ⊢
  -- The translation is given a name, so that the kernel does not evaluate it.
  obtain ⟨xl, hxl⟩ : ∃ xl : State → Except TClass Xl, ∀ u, u.xlArea false true (u.areaVa 0x60100) = xl u := ⟨_, fun _ => rfl⟩
  simp only [hxl]
  intro t h
  cases r with
  | error c => cases h
  | ok u =>
    dsimp only at h
    generalize xl u = e at h
    cases e with
    | error c => cases h
    | ok x =>
      dsimp only at h
      split at h
      · cases h
      next v hv => cases h; exact (written u rfl).trans (writeHome_linksKept hv)

theorem putRecord_kept (s : State) (kind : Nat) (tinfo pc : Dword) (slice : Nat) (toks : Vector Nat 8) (latch tiles : Bool) :
    AnswerKept s (s.putRecord kind tinfo pc slice toks latch tiles) := by
  intro u h
  unfold State.putRecord at h
  dsimp only at h
  split at h
  · cases h
  next v hv =>
    have hf := putFrame_kept s _ _ _ _ _ _ _ v hv
    split at h
    · exact hf.trans (putTiles_kept v u h)
    · split at h
      · cases h; exact hf.andThen rfl rfl
      · cases h; exact hf

theorem teamSavedAt_linksKept (s : State) (grid team : Nat) : LinksKept s (s.teamSavedAt grid team) := by
  unfold State.teamSavedAt
  dsimp only
  split
  · exact of_eq rfl rfl
  · exact refl s

theorem teamSaved_linksKept (s : State) : LinksKept s s.teamSaved := teamSavedAt_linksKept ..

theorem toReplayable_linksKept (s : State) : LinksKept s s.toReplayable :=
  (of_eq rfl rfl : LinksKept s { s with me := { s.me with status := .replayable, pend := { s.me.pend with stop := false } } }).trans
    (tell_linksKept ..)

theorem replayable_linksKept (s : State) (c : TClass) (frame : Dword) : LinksKept s (s.replayable c frame) := by
  have here := toReplayable_linksKept s
  unfold State.replayable
  dsimp only
  split
  · exact here.trans (teamSaved_linksKept _)
  · refine LinksKept.trans ?_ (teamSaved_linksKept _)
    refine LinksKept.trans ?_ (report_linksKept ..)
    exact here.andThen rfl rfl

theorem haltOthers_linksKept (s : State) : LinksKept s s.haltOthers := by
  refine foldl ?_ _ _
  exact fun _ _ => of_eq rfl rfl

theorem haltIf_linksKept {s : State} (c : Prop) [Decidable c] : LinksKept s (if c then s.haltOthers else s) := by
  split
  · exact haltOthers_linksKept s
  · exact refl s

theorem stopNow_linksKept (s : State) (pc : Dword) : LinksKept s (s.stopNow pc) := by
  have here := settle_linksKept s
  unfold State.stopNow
  dsimp only
  split
  · exact here.trans (saveFault_linksKept ..)
  next u hu =>
    refine LinksKept.trans ?_ (teamSaved_linksKept _)
    refine LinksKept.trans ?_ (toReplayable_linksKept _)
    exact (here.trans (putRecord_kept _ _ _ _ _ _ _ _ u hu)).andThen rfl rfl

theorem stopSplit_linksKept (s : State) (pc : Dword) : LinksKept s (s.stopSplit pc) := by
  have here := endRun_linksKept s
  unfold State.stopSplit
  dsimp only
  split
  · exact here.trans (stopNow_linksKept _ _)
  · exact here.andThen rfl rfl

theorem saveNow_linksKept (s : State) (forced : Bool) (pc : Dword) : LinksKept s (s.saveNow forced pc) := by
  have here := settle_linksKept s
  unfold State.saveNow
  dsimp only
  split
  · exact here.trans (saveFault_linksKept ..)
  next v hv =>
    have put := here.trans (putRecord_kept _ _ _ _ _ _ _ _ v hv)
    have noted (arg : List Byte) : LinksKept s (if forced then v.sketch v.me.stack 1 v.me.core v.me.asid v.gr.grid arg else v) := by
      split
      · exact put.trans (sketch_linksKept ..)
      · exact put
    split
    · refine LinksKept.trans ?_ (teamSaved_linksKept _)
      exact (noted _).andThen rfl rfl
    · exact (noted _).andThen rfl rfl

theorem enterTrap_linksKept (s : State) (t : Trap) : LinksKept s (s.enterTrap t) := by
  have here := settle_linksKept s
  unfold State.enterTrap
  dsimp only
  split
  · exact here.trans (saveFault_linksKept ..)
  next u hu =>
    have put := here.trans (putRecord_kept _ _ _ _ _ _ _ _ u hu)
    split
    · refine LinksKept.andThen (t := ite _ _ _) ?_ rfl rfl
      refine LinksKept.trans (LinksKept.trans ?_ (sketch_linksKept ..)) (haltIf_linksKept _)
      exact put.andThen rfl rfl
    · refine LinksKept.trans ?_ (replayable_linksKept ..)
      refine LinksKept.trans (LinksKept.trans ?_ (sketch_linksKept ..)) (haltIf_linksKept _)
      exact put.andThen rfl rfl

theorem raise_linksKept (s : State) (t : Trap) : LinksKept s (s.raise t) := by
  have here := endRun_linksKept s
  unfold State.raise
  dsimp only
  split
  · exact here
  · split
    · exact here.trans (abort_linksKept ..)
    · split
      · exact stopSplit_linksKept ..
      · split
        · exact here.trans (enterTrap_linksKept ..)
        · exact here.andThen rfl rfl

/-! ### Saves -/

theorem saveWhole_linksKept (s : State) (pc : Dword) : LinksKept s (s.saveWhole pc) := by
  unfold State.saveWhole
  split
  · exact refl s
  · split
    · exact stopSplit_linksKept ..
    · split
      · exact saveNow_linksKept ..
      · exact of_eq rfl rfl

theorem saveEffect_linksKept (s : State) (pc : Dword) : LinksKept s (s.saveEffect pc) := by
  have here := finish_linksKept s pc
  unfold State.saveEffect
  dsimp only
  split
  · exact here.trans (saveWhole_linksKept ..)
  · exact here.andThen rfl rfl

theorem sendProbes_linksKept (s : State) : LinksKept s s.sendProbes := by
  refine LinksKept.trans (t := { s with me := { s.me with probes := s.probeStacks, probeFailed := false } }) (of_eq rfl rfl)
    (foldl ?_ _ _)
  exact fun _ _ => of_eq rfl rfl

theorem sendProbes_me (s : State) : s.sendProbes.me = { s.me with probes := s.probeStacks, probeFailed := false } := by
  have sent (ks : List Nat) (u : State) :
      (ks.foldl (fun (t : State) k => t.send s.me.stack k (.probe s.me.id s.gr.id)) u).me = u.me := by
    induction ks generalizing u with
    | nil => rfl
    | cons k ks ih => exact ih _
  exact sent s.probeStacks _

/-- The waits before a cooperative save, however far they come. -/
theorem advanceBy_save_linksKept (n : Nat) (s : State) (ws : List WaitStep) (pc : Dword) (h : s.me.status = .wait ws (.save pc)) :
    LinksKept s (s.advanceBy n) := by
  induction n generalizing s ws with
  | zero => exact refl s
  | succ n ih =>
    unfold State.advanceBy
    rw [h]
    cases ws with
    | nil => exact (of_eq rfl rfl : LinksKept s { s with me := { s.me with status := .run } }).trans (saveEffect_linksKept ..)
    | cons w ws =>
      dsimp only
      split
      · exact refl s
      · have on : LinksKept s { s with me := { s.me with status := .wait ws (.save pc) } } := of_eq rfl rfl
        split
        · exact (on.trans (sendProbes_linksKept _)).trans (ih _ ws (by rw [sendProbes_me]))
        · refine LinksKept.trans ?_ (ih _ ws rfl)
          exact on.andThen rfl rfl
        · split
          · refine LinksKept.trans ?_ (raise_linksKept ..)
            exact on.andThen rfl rfl
          · exact on.trans (ih _ ws rfl)
        all_goals exact on.trans (ih _ ws rfl)

theorem setPreq_linksKept (s : State) : LinksKept s s.setPreq := by
  unfold State.setPreq
  dsimp only
  split
  · exact of_eq rfl rfl
  · split
    · exact of_eq rfl rfl
    · unfold State.await State.advance
      refine LinksKept.trans ?_ (advanceBy_save_linksKept 6 _ releaseWaits _ rfl)
      exact of_eq rfl rfl
  · exact of_eq rfl rfl

/-! ### The focus -/

theorem focus_linksKept {s t : State} {id : Nat} (h : s.focus id = some t) : LinksKept s t := by
  unfold State.focus at h
  dsimp only at h
  split at h
  · cases h; exact refl s
  · split at h
    · cases h
    · cases h; exact of_eq rfl rfl

theorem withSplit_linksKept {f : State → State} (hf : ∀ u, LinksKept u (f u)) (s : State) (id : Nat) :
    LinksKept s (s.withSplit id f) := by
  unfold State.withSplit
  split
  · exact refl s
  next t ht => exact (focus_linksKept ht).trans (hf t)

theorem forSplits_linksKept {f : State → State} (hf : ∀ u, LinksKept u (f u)) (s : State) (ids : List Nat) :
    LinksKept s (s.forSplits ids f) :=
  (foldl (fun u id => withSplit_linksKept hf u id) ids s).andThen rfl rfl

/-! ### Requests for pre-emption (R73, R378) -/

/-- From `s` to `t` requests for pre-emption have been raised: the links are as they were, requests and records have only come,
and a grid keeps its identifier, and a PREQ that it had. -/
structure Asked (s t : State) : Prop where
  links : t.md.links = s.md.links
  down : t.md.downLinks = s.md.downLinks
  errq : s.md.errq <+: t.md.errq
  ids : t.grids.map Grid.id = s.grids.map Grid.id
  preq : ∀ g ∈ s.grids, g.preq = true → ∃ y ∈ t.grids, y.id = g.id ∧ y.preq = true

theorem Asked.refl (s : State) : Asked s s := ⟨rfl, rfl, List.prefix_refl _, rfl, fun g hg hp => ⟨g, hg, rfl, hp⟩⟩

theorem Asked.trans {s t u : State} (a : Asked s t) (b : Asked t u) : Asked s u where
  links := b.links.trans a.links
  down := b.down.trans a.down
  errq := a.errq.trans b.errq
  ids := b.ids.trans a.ids
  preq g hg hp := by
    obtain ⟨y, hy, hid, hp⟩ := a.preq g hg hp
    obtain ⟨z, hz, hid', hp⟩ := b.preq y hy hp
    exact ⟨z, hz, hid'.trans hid, hp⟩

/-- A grid of the one state stands in the other with the same identifier and PREQ. -/
theorem LinksKept.mem_grids {s t : State} (h : LinksKept s t) {g : Grid} (hg : g ∈ s.grids) :
    ∃ y ∈ t.grids, y.id = g.id ∧ y.preq = g.preq := by
  have : (g.id, g.preq) ∈ t.grids.map fun g => (g.id, g.preq) := by
    rw [h.grids]; exact List.mem_map_of_mem hg
  obtain ⟨y, hy, he⟩ := List.mem_map.mp this
  exact ⟨y, hy, congrArg Prod.fst he, congrArg Prod.snd he⟩

theorem LinksKept.ids {s t : State} (h : LinksKept s t) : t.grids.map Grid.id = s.grids.map Grid.id := by
  have := congrArg (List.map Prod.fst) h.grids
  rw [List.map_map, List.map_map] at this
  exact this

theorem LinksKept.asked {s t : State} (h : LinksKept s t) : Asked s t where
  links := h.links
  down := h.down
  errq := h.errq
  ids := h.ids
  preq g hg hp := by
    obtain ⟨y, hy, hid, hpr⟩ := h.mem_grids hg
    exact ⟨y, hy, hid, hpr.trans hp⟩

theorem markPreq_asked (s : State) (n : Nat) : Asked s (s.onGrid n fun g => { g with preq := true }) where
  links := rfl
  down := rfl
  errq := List.prefix_refl _
  ids := by
    show (s.grids.map fun g => if g.id = n then { g with preq := true } else g).map Grid.id = _
    rw [List.map_map]
    refine List.map_congr_left fun g _ => ?_
    by_cases h : g.id = n <;> simp [h]
  preq g hg hp := by
    refine ⟨_, List.mem_map_of_mem hg, ?_⟩
    by_cases h : g.id = n <;> simp [h, hp]

/-- A request raises PREQ of its grid, and stands from then on. -/
theorem raisePreq_asked (s : State) (n : Nat) : Asked s (s.raisePreq n) ∧ (s.raisePreq n).md.requested = s.md.requested ++ [n]
    ∧ ∀ g ∈ s.grids, g.id = n → ∃ y ∈ (s.raisePreq n).grids, y.id = n ∧ y.preq = true := by
  unfold State.raisePreq
  extract_lets u ids t m v
  have saved : LinksKept (u.onGrid n fun g => { g with preq := true }) t := forSplits_linksKept setPreq_linksKept _ _
  have freed : LinksKept v ((v.placedTeams n).foldl (fun (w : State) m => w.teamSavedAt n m) v) :=
    foldl (fun w m => teamSavedAt_linksKept w n m) _ _
  have unfocused : Asked s u := (of_eq rfl rfl : LinksKept s u).asked
  have noted : Asked t v := ⟨rfl, rfl, List.prefix_refl _, rfl, fun g hg hp => ⟨g, hg, rfl, hp⟩⟩
  refine ⟨((unfocused.trans (markPreq_asked u n)).trans saved.asked).trans (noted.trans freed.asked), ?_, fun g hg hid => ?_⟩
  · rw [freed.requested]
    show t.md.requested ++ [n] = _
    rw [saved.requested]; rfl
  · have here : { g with preq := true } ∈ (u.onGrid n fun g => { g with preq := true }).grids :=
      List.mem_map.mpr ⟨g, hg, if_pos hid⟩
    obtain ⟨y, hy, hyid, hyp⟩ := saved.mem_grids here
    obtain ⟨z, hz, hzid, hzp⟩ := freed.mem_grids (show y ∈ v.grids from hy)
    exact ⟨z, hz, hzid.trans (hyid.trans hid), hzp.trans hyp⟩

/-- A write of PREQCTL raises at most its own request; it does where the grid is here, none of it stands, and there is room
for one more. -/
theorem askPreq_asked (s : State) (n : Nat) : Asked s (s.askPreq n)
    ∧ ((s.askPreq n).md.requested = s.md.requested ∨ (s.askPreq n).md.requested = s.md.requested ++ [n])
    ∧ (n ∉ s.md.requested → s.md.requested.length < 64 → ∀ g ∈ s.grids, g.id = n →
        ∃ y ∈ (s.askPreq n).grids, y.id = n ∧ y.preq = true) := by
  unfold State.askPreq
  extract_lets m t
  have written : Asked s t := ⟨rfl, rfl, List.prefix_refl _, rfl, fun g hg hp => ⟨g, hg, rfl, hp⟩⟩
  split
  next hno =>
    refine ⟨written, .inl rfl, fun hn hlen g hg hid => absurd hno ?_⟩
    have hsome : (s.grid? n).isSome = true := List.find?_isSome.mpr ⟨g, hg, by simp [hid]⟩
    simp [Option.isNone_iff_eq_none, Option.ne_none_iff_isSome.mpr hsome, hn, hlen]
  · obtain ⟨ha, hr, hp⟩ := raisePreq_asked t n
    exact ⟨written.trans ha, .inr hr, fun _ _ => hp⟩

theorem askAll_asked (ids : List Nat) (s : State) : Asked s (ids.foldl (fun (t : State) n => t.askPreq n) s) := by
  induction ids generalizing s with
  | nil => exact Asked.refl s
  | cons n ids ih => exact (askPreq_asked s n).1.trans (ih _)

/-- Requests for grids that are here and for which none stands, within the limit: each has PREQ afterwards. -/
theorem askAll_raises (ids : List Nat) (s : State) (hnd : ids.Nodup) (hroom : s.md.requested.length + ids.length ≤ 64)
    (g : Grid) (hg : g ∈ s.grids) (hmem : g.id ∈ ids) (hfree : g.id ∉ s.md.requested) :
    ∃ y ∈ (ids.foldl (fun (t : State) n => t.askPreq n) s).grids, y.id = g.id ∧ y.preq = true := by
  induction ids generalizing s g with
  | nil => exact absurd hmem List.not_mem_nil
  | cons n ids ih =>
    obtain ⟨hn, hnd⟩ := List.nodup_cons.mp hnd
    obtain ⟨first, hreq, raised⟩ := askPreq_asked s n
    rw [List.length_cons] at hroom
    rcases List.mem_cons.mp hmem with hid | hmem
    · obtain ⟨y, hy, hyid, hyp⟩ := raised (hid ▸ hfree) (by omega) g hg hid
      obtain ⟨z, hz, hzid, hzp⟩ := (askAll_asked ids (s.askPreq n)).preq y hy hyp
      exact ⟨z, hz, (hzid.trans hyid).trans hid.symm, hzp⟩
    · have hne : g.id ≠ n := fun e => hn (e ▸ hmem)
      have hid : g.id ∈ (s.askPreq n).grids.map Grid.id := by rw [first.ids]; exact List.mem_map_of_mem hg
      obtain ⟨y, hy, hyid⟩ := List.mem_map.mp hid
      obtain ⟨z, hz, hzid, hzp⟩ := ih (s.askPreq n) hnd (by rcases hreq with h | h <;> simp [h] <;> omega) y hy (hyid ▸ hmem)
        (by rcases hreq with h | h <;> simp [h, hyid, hfree, hne])
      exact ⟨z, hz, hzid.trans hyid, hzp⟩

/-! ### The firmware's requests (R61, R487) -/

theorem spans_iff (g : Grid) : g.spans = true ↔ 2 ^ 31 ≤ g.id := decide_eq_true_iff

/-- The grids that a link's failure asks to save. -/
def State.toQuiesce (s : State) : List Nat := (s.grids.filter fun (g : Grid) => g.spans && !g.preq).map fun (g : Grid) => g.id

theorem quiesce_eq (s : State) : s.quiesce =
    (s.toQuiesce.foldl (fun (t : State) n => t.askPreq n) s).onMd fun m => { m with quiesced := m.quiesced ++ s.toQuiesce } := rfl

theorem quiesce_asked (s : State) : Asked s s.quiesce := by
  rw [quiesce_eq]
  exact (askAll_asked s.toQuiesce s).trans ⟨rfl, rfl, List.prefix_refl _, rfl, fun g hg hp => ⟨g, hg, rfl, hp⟩⟩

theorem quiesce_raises (s : State) (hnd : (s.grids.map Grid.id).Nodup) (hroom : s.md.requested.length + s.grids.length ≤ 64)
    (g : Grid) (hg : g ∈ s.grids) (hspan : 2 ^ 31 ≤ g.id) (hfree : g.id ∉ s.md.requested) :
    ∃ y ∈ s.quiesce.grids, y.id = g.id ∧ y.preq = true := by
  cases hp : g.preq with
  | true => exact (quiesce_asked s).preq g hg hp
  | false =>
    have hsub : s.toQuiesce.Sublist (s.grids.map Grid.id) := List.filter_sublist.map _
    have hlen := hsub.length_le
    rw [List.length_map] at hlen
    have hmem : g.id ∈ s.toQuiesce :=
      List.mem_map_of_mem (List.mem_filter.mpr ⟨hg, by rw [(spans_iff g).mpr hspan, hp]; rfl⟩)
    exact askAll_raises s.toQuiesce s (hnd.sublist hsub) (by omega) g hg hmem hfree

/-- Where no grid has a process-group table, none is asked. -/
theorem quiesce_idle (s : State) (h : ∀ g ∈ s.grids, g.id < 2 ^ 31) : OnlyMd s s.quiesce := by
  have hnone : s.toQuiesce = [] := by
    unfold State.toQuiesce
    rw [List.map_eq_nil_iff, List.filter_eq_nil_iff]
    intro g hg hsp
    have := (spans_iff g).mp (Bool.and_eq_true _ _ ▸ hsp).1
    exact absurd (h g hg) (by omega)
  rw [quiesce_eq, hnone]
  rfl

end Sys2Proof.Machine
end

section
/-! PROOF. Links: their retries, retraining and failure (R11, R486, R487). -/
namespace Sys2Proof.Machine

/-! ### The state of a link -/

theorem linkState_congr {s t : State} (h : t.md.links = s.md.links) (l : Link) : t.linkState l = s.linkState l := by
  unfold State.linkState; rw [h]

theorem find?_without {l m : Link} (h : m ≠ l) (xs : List (Link × Nat × Bool)) :
    (xs.filter fun x => x.1 != l).find? (fun x => x.1 == m) = xs.find? fun x => x.1 == m := by
  rw [List.find?_filter]
  congr 1
  funext x
  by_cases hx : x.1 = m
  · simp [hx, h]
  · simp [hx]

theorem dropLink_same (s : State) (l : Link) : (s.dropLink l).linkState l = (0, false) := by
  have : (s.md.links.filter fun x => x.1 != l).find? (fun x => x.1 == l) = none := by
    rw [List.find?_eq_none]
    intro x hx
    simpa using (List.mem_filter.mp hx).2
  show ((((s.md.links.filter fun x => x.1 != l).find? fun x => x.1 == l).map _).getD _) = _
  rw [this]; rfl

theorem dropLink_other (s : State) {l m : Link} (h : m ≠ l) : (s.dropLink l).linkState m = s.linkState m := by
  show ((((s.md.links.filter fun x => x.1 != l).find? fun x => x.1 == m).map _).getD _) = _
  rw [find?_without h]; rfl

theorem setLink_same (s : State) (l : Link) (n : Nat) (b : Bool) : (s.setLink l n b).linkState l = (n, b) := by
  show ((((l, n, b) :: _).find? fun x : Link × Nat × Bool => x.1 == l).map _).getD _ = _
  rw [List.find?_cons_of_pos (by simp)]; rfl

theorem setLink_other (s : State) {l m : Link} (n : Nat) (b : Bool) (h : m ≠ l) :
    (s.setLink l n b).linkState m = s.linkState m := by
  show ((((l, n, b) :: s.md.links.filter fun x => x.1 != l).find? fun x => x.1 == m).map _).getD _ = _
  rw [List.find?_cons_of_neg (by simpa using fun e => h e.symm), find?_without h]; rfl

theorem link_stack_lt (l : Link) : Link.stack l < 16 := by
  cases l with
  | mervel n => exact (by decide : ∀ n : Fin 12, linkStack n.val < 16) n
  | mesh k d => exact k.isLt

/-- A port of the mesh has a link where it has a neighbour (R11). -/
theorem linkThere_mesh (k : Fin 16) (d : Fin 4) : linkThere (.mesh k d) = true ↔
    if d.val = 0 then 4 ≤ k.val else if d.val = 1 then k.val % 4 < 3 else if d.val = 2 then k.val < 12 else 0 < k.val % 4 := by
  revert k d; decide

/-! ### Retries and retraining (R486) -/

theorem linkRetry_counts {s : State} {l : Link} {n : Nat} (h : s.linkState l = (n, false)) (hup : Link.isDown s l = false)
    (hl : linkThere l = true) : Answers (.linkRetry l) s fun t => t.linkState l = (n + 1, false)
      ∧ (∀ m, m ≠ l → t.linkState m = s.linkState m) ∧ t.mem = s.mem ∧ t.splits = s.splits := by
  obtain ⟨st, f, hn⟩ := note_shape (s.setLink l (n + 1) false) (Link.stack l) 4 9 0 0
  have hexec : exec (.linkRetry l) s = .next { s.setLink l (n + 1) false with stks := st, fresh := f } := by
    show execLinkRetry l s = _
    unfold execLinkRetry
    simp [h, hup, hl, hn]
  exact ⟨_, hexec, setLink_same s l _ _, fun m hm => setLink_other s _ _ hm, rfl, rfl⟩

theorem linkRetrain_starts {s : State} {l : Link} {n : Nat} (h : s.linkState l = (n, false)) (hup : Link.isDown s l = false)
    (hl : linkThere l = true) (hn : 16 ≤ n) : Answers (.linkRetrain l) s fun t => t.linkState l = (n, true)
      ∧ (∀ m, m ≠ l → t.linkState m = s.linkState m) ∧ OnlyMd s t := by
  have hexec : exec (.linkRetrain l) s = .next (s.setLink l n true) := by
    show execLinkRetrain l s = _
    unfold execLinkRetrain
    simp [h, hup, hl, Nat.not_lt.mpr hn]
  exact ⟨_, hexec, setLink_same s l _ _, fun m hm => setLink_other s _ _ hm, rfl⟩

theorem linkRetrain_early {s : State} {l : Link} {n : Nat} (h : s.linkState l = (n, false)) (hn : n < 16) :
    exec (.linkRetrain l) s = .next s := by
  show execLinkRetrain l s = _
  unfold execLinkRetrain
  simp [h, hn]

/-- Nothing happens at a port without a link (R11). -/
theorem no_link {l : Link} (hl : linkThere l = false) (s : State) :
    exec (.linkRetry l) s = .next s ∧ exec (.linkRetrain l) s = .next s ∧ exec (.retrainTimeout l) s = .next s := by
  refine ⟨?_, ?_, ?_⟩
  · show execLinkRetry l s = _
    unfold execLinkRetry
    simp [hl]
  · show execLinkRetrain l s = _
    unfold execLinkRetrain
    simp [hl]
  · cases l with
    | mervel n => cases hl
    | mesh k d =>
      show execRetrainTimeout (.mesh k d) s = .next s
      unfold execRetrainTimeout
      simp [hl]

/-- The payload of a type 7 record (R479). -/
def linkPayload (l : Link) (kind n : Nat) : List Byte :=
  [BitVec.ofNat 8 (Link.code l), BitVec.ofNat 8 kind, 0#8, 0#8] ++ bytesLE 4 n

theorem linkRecord_sends (s : State) (l : Link) (kind n : Nat) :
    SendsRecord s (s.linkRecord l kind n) (Link.stack l) 7 (linkPayload l kind n) :=
  sendsRecord_report s (link_stack_lt l) 7 0 0 0 255 0 9 (linkPayload l kind n)

theorem linkRecord_shape (s : State) (l : Link) (kind n : Nat) : ∃ r st i f, s.linkRecord l kind n =
    { s with stks := st, nextId := i, fresh := f, md := { s.md with errq := s.md.errq ++ [r] },
             fabric := s.fabric ++ [⟨Link.stack l, 0, Link.stack l, .record r.no⟩] }
      ∧ r.typ = 7 ∧ r.payload = linkPayload l kind n := by
  obtain ⟨r, st, i, f, h, htyp, -, -, hpay⟩ := report_shape s (Link.stack l) 7 0 0 0 255 0 9 (linkPayload l kind n)
  exact ⟨r, st, i, f, h, htyp, hpay⟩

theorem linkRetrained_resets {s : State} {l : Link} {n : Nat} (h : s.linkState l = (n, true)) :
    Answers (.linkRetrained l) s fun t => t.linkState l = (0, false) ∧ (∀ m, m ≠ l → t.linkState m = s.linkState m)
      ∧ t.mem = s.mem ∧ SendsRecord s t (Link.stack l) 7 (linkPayload l 0 n) := by
  have hexec : exec (.linkRetrained l) s = .next ((s.dropLink l).linkRecord l 0 n) := by
    show execLinkRetrained l s = _
    unfold execLinkRetrained
    simp [h]
  obtain ⟨r, st, i, f, hr, -⟩ := linkRecord_shape (s.dropLink l) l 0 n
  have hlinks : ((s.dropLink l).linkRecord l 0 n).md.links = (s.dropLink l).md.links := by rw [hr]
  refine ⟨_, hexec, (linkState_congr hlinks l).trans (dropLink_same s l),
    fun m hm => (linkState_congr hlinks m).trans (dropLink_other s hm), by rw [hr]; rfl, ?_⟩
  exact linkRecord_sends (s.dropLink l) l 0 n

/-! ### The failure of a Mervel link (R487) -/

/-- The link is down, and its record has left. -/
def State.linkGone (s : State) (i : Fin 12) (n : Nat) : State :=
  ((s.dropLink (.mervel i)).onMd fun m => { m with downLinks := i.val :: m.downLinks }).linkRecord (.mervel i) 1 n

theorem linkFails_eq {s : State} {i : Fin 12} {n : Nat} (h : s.linkState (.mervel i) = (n, true)) :
    s.linkFails i = (s.linkGone i n).quiesce := by
  unfold State.linkFails
  simp only [h, if_true]
  rfl

/-- Its state, its record and its grids before any grid is asked. -/
theorem linkGone_shape (s : State) (i : Fin 12) (n : Nat) : ∃ r st k f, s.linkGone i n =
    { s with stks := st, nextId := k, fresh := f, fabric := s.fabric ++ [⟨linkStack i.val, 0, linkStack i.val, .record r.no⟩],
             md := { s.md with
               links := (s.dropLink (.mervel i)).md.links, downLinks := i.val :: s.md.downLinks, errq := s.md.errq ++ [r] } }
      ∧ r.typ = 7 ∧ r.payload = linkPayload (.mervel i) 1 n := linkRecord_shape _ _ _ _

theorem linkFails_effect {s : State} {i : Fin 12} {n : Nat} (h : s.linkState (.mervel i) = (n, true)) :
    let t := s.linkFails i
    t.linkState (.mervel i) = (0, false) ∧ (∀ m, m ≠ .mervel i → t.linkState m = s.linkState m) ∧ i.val ∈ t.md.downLinks
      ∧ (∃ r rest, t.md.errq = s.md.errq ++ r :: rest ∧ r.typ = 7 ∧ r.payload = linkPayload (.mervel i) 1 n)
      ∧ ((∀ g ∈ s.grids, g.id < 2 ^ 31) → t.mem = s.mem ∧ t.splits = s.splits ∧ t.me = s.me)
      ∧ ((s.grids.map fun g => g.id).Nodup → s.md.requested.length + s.grids.length ≤ 64 →
          ∀ g ∈ s.grids, 2 ^ 31 ≤ g.id → g.id ∉ s.md.requested → ∃ y ∈ t.grids, y.id = g.id ∧ y.preq = true) := by
  intro t
  obtain ⟨r, st, k, f, hg, htyp, hpay⟩ := linkGone_shape s i n
  have asked : Asked (s.linkGone i n) t := by
    have := quiesce_asked (s.linkGone i n)
    rwa [← linkFails_eq h] at this
  have hlinks : t.md.links = (s.dropLink (.mervel i)).md.links := by rw [asked.links, hg]
  have hgrids : (s.linkGone i n).grids = s.grids := by rw [hg]
  refine ⟨(linkState_congr hlinks _).trans (dropLink_same s _), fun m hm => (linkState_congr hlinks m).trans (dropLink_other s hm),
    ?_, ?_, fun hsmall => ?_, fun hnd hroom g hmem hspan hfree => ?_⟩
  · rw [asked.down, hg]; exact List.mem_cons_self
  · obtain ⟨rest, hrest⟩ := asked.errq
    exact ⟨r, rest, by rw [← hrest, hg]; simp, htyp, hpay⟩
  · have idle := quiesce_idle (s.linkGone i n) (by rwa [hgrids])
    rw [← linkFails_eq h] at idle
    have hall : t.mem = (s.linkGone i n).mem ∧ t.splits = (s.linkGone i n).splits ∧ t.me = (s.linkGone i n).me := by
      unfold OnlyMd at idle; rw [show t = _ from idle]; exact ⟨rfl, rfl, rfl⟩
    rw [hg] at hall
    exact hall
  · show ∃ y ∈ (s.linkFails i).grids, _
    rw [linkFails_eq h]
    exact quiesce_raises (s.linkGone i n) (by rwa [hgrids]) (by rw [hgrids, hg]; exact hroom) g (by rwa [hgrids]) hspan
      (by rw [hg]; exact hfree)

theorem linksRetryAndRetrain : Claims.LinksRetryAndRetrain := by
  intro s l n again h there others record
  have hthere : there ↔ linkThere l = true := by
    cases l with
    | mervel i => exact ⟨fun _ => rfl, fun _ => trivial⟩
    | mesh k d => exact (linkThere_mesh k d).symm
  have hrecord (down : Nat) : record down = linkPayload l down n := by
    cases l with
    | mervel i => rfl
    | mesh k d => rfl
  refine ⟨fun hl ha hup => ?_, fun hl => no_link (by simpa [hthere] using hl) s, fun ha => ?_, fun ha i hi e he => ?_⟩
  · subst ha
    have hl := hthere.mp hl
    exact ⟨linkRetry_counts h hup hl, linkRetrain_starts h hup hl, linkRetrain_early h⟩
  · subst ha
    rw [hrecord]
    exact linkRetrained_resets h
  · subst ha hi
    rw [hrecord]
    have hexec : exec e s = .next (s.linkFails i) := by
      rcases List.mem_cons.mp he with rfl | he
      · rfl
      · rw [List.mem_singleton.mp he]; rfl
    exact ⟨_, hexec, linkFails_effect h⟩

end Sys2Proof.Machine
end

section
/-! PROOF. Routes, peers, and packets that no route takes (R364, R487, R493). -/
namespace Sys2Proof.Machine

/-! ### Requests withdrawn (R487) -/

/-- From `s` to `t` the requests for the grids of `ids` have been withdrawn: memory, the fabric and the rest of the module's
registers are as they were. -/
structure Withdrawn (ids : List Nat) (s t : State) : Prop where
  mem : t.mem = s.mem
  fabric : t.fabric = s.fabric
  md : t.md = { s.md with requested := t.md.requested }
  requested : ∀ n ∈ t.md.requested, n ∈ s.md.requested ∧ n ∉ ids
  grids : ∀ y ∈ t.grids, (y.id ∈ ids → y.preq = false) ∧ ∃ x ∈ s.grids, x.id = y.id ∧ (x.preq = false → y.preq = false)

theorem dropPreq_withdrawn (s : State) (n : Nat) : Withdrawn [n] s (s.dropPreq n) where
  mem := rfl
  fabric := rfl
  md := rfl
  requested m hm := by
    obtain ⟨hm, hne⟩ := List.mem_filter.mp (show m ∈ s.md.requested.filter (· != n) from hm)
    exact ⟨hm, by simpa using hne⟩
  grids y hy := by
    obtain ⟨x, hx, rfl⟩ := List.mem_map.mp
      (show y ∈ s.grids.map fun g => if g.id = n then { g with preq := false } else g from hy)
    by_cases h : x.id = n
    · rw [if_pos h]; exact ⟨fun _ => rfl, x, hx, rfl, fun _ => rfl⟩
    · rw [if_neg h]; exact ⟨fun hid => absurd (List.mem_singleton.mp hid) h, x, hx, rfl, id⟩

theorem Withdrawn.trans {a b : List Nat} {s t u : State} (h : Withdrawn a s t) (k : Withdrawn b t u) : Withdrawn (a ++ b) s u where
  mem := k.mem.trans h.mem
  fabric := k.fabric.trans h.fabric
  md := by rw [k.md, h.md]
  requested n hn := by
    obtain ⟨hn, hb⟩ := k.requested n hn
    obtain ⟨hn, ha⟩ := h.requested n hn
    exact ⟨hn, by simp [ha, hb]⟩
  grids y hy := by
    obtain ⟨hb, x, hx, hid, hkeep⟩ := k.grids y hy
    obtain ⟨ha, w, hw, hid', hkeep'⟩ := h.grids x hx
    refine ⟨fun hm => ?_, w, hw, hid'.trans hid, fun hp => hkeep (hkeep' hp)⟩
    rcases List.mem_append.mp hm with hm | hm
    · exact hkeep (ha (hid ▸ hm))
    · exact hb hm

theorem dropAll_withdrawn (ids : List Nat) (s : State) : Withdrawn ids s (ids.foldl (fun (t : State) n => t.dropPreq n) s) := by
  induction ids generalizing s with
  | nil => exact ⟨rfl, rfl, rfl, fun n hn => ⟨hn, List.not_mem_nil⟩,
      fun y hy => ⟨fun h => absurd h List.not_mem_nil, y, hy, rfl, id⟩⟩
  | cons n ids ih => exact (dropPreq_withdrawn s n).trans (ih _)

/-! ### Routes (R364, R487) -/

theorem routesDown_congr {s t : State} (hd : t.md.domcfg = s.md.domcfg) (hr : t.md.routes = s.md.routes)
    (hl : t.md.downLinks = s.md.downLinks) : t.routesDown = s.routesDown := by
  unfold State.routesDown State.routed State.routeLink State.modno State.dsize
  rw [hd, hr, hl]

theorem vget_vset {α : Type} {n : Nat} (v : Vector α n) (i j : Nat) (x d : α) (hi : i < n) :
    vget (vset v i x) j d = if j = i then x else vget v j d := by
  unfold vget vset
  rw [Vector.getElem?_setIfInBounds]
  by_cases h : j = i
  · subst h; simp [hi]
  · rw [if_neg (fun e => h e.symm), if_neg h]

/-- What the failure of a link has requested is withdrawn once no route leads to a link that is down. -/
theorem unquiesce_cases (s : State) : s.routesDown = true ∧ s.unquiesce = s
    ∨ s.routesDown = false ∧ ∃ t, Withdrawn s.md.quiesced s t ∧ s.unquiesce = t.onMd fun m => { m with quiesced := [] } := by
  unfold State.unquiesce
  cases h : s.routesDown with
  | true => exact .inl ⟨rfl, rfl⟩
  | false => exact .inr ⟨rfl, _, dropAll_withdrawn s.md.quiesced s, rfl⟩

/-- The route of module `m` with its valid bit and link. -/
def State.reroute (s : State) (m : Fin 64) (v : Bool) (link : Fin 16) : State := s.onMd fun d => { d with
  routes := vset d.routes m.val (BitVec.ofNat 64 ((if v then 16 else 0) + link.val)) }

theorem routeRewrite_quiet {s : State} (m : Fin 64) (v : Bool) (link : Fin 16) (h : s.quiet = true) :
    exec (.routeRewrite m v link) s = .next (s.reroute m v link).unquiesce := by
  show execRouteRewrite m v link s = _
  unfold execRouteRewrite
  simp only [h, Bool.not_true, Bool.false_eq_true, if_false]
  rfl

theorem routeRewrite_waits {s : State} (m : Fin 64) (v : Bool) (link : Fin 16) (h : s.quiet = false) :
    exec (.routeRewrite m v link) s = .next s := by
  show execRouteRewrite m v link s = _
  unfold execRouteRewrite
  simp [h]

theorem reroute_effect (s : State) (m : Fin 64) (v : Bool) (link : Fin 16) :
    let t := (s.reroute m v link).unquiesce
    t.mem = s.mem ∧ t.fabric = s.fabric
    ∧ (∀ j : Fin 64, vget t.md.routes j.val 0#64 = if j = m then BitVec.ofNat 64 ((if v then 16 else 0) + link.val)
      else vget s.md.routes j.val 0#64)
    ∧ (t.routesDown = true → OnlyMd s t ∧ t.md.quiesced = s.md.quiesced)
    ∧ (t.routesDown = false → t.md.quiesced = [] ∧ ∀ g ∈ s.md.quiesced, g ∉ t.md.requested
        ∧ ∀ y ∈ t.grids, y.id = g → y.preq = false) := by
  intro t
  have written (j : Fin 64) : vget (s.reroute m v link).md.routes j.val 0#64 =
      if j = m then BitVec.ofNat 64 ((if v then 16 else 0) + link.val) else vget s.md.routes j.val 0#64 := by
    simp only [Fin.ext_iff]
    exact vget_vset _ _ _ _ _ m.isLt
  rcases unquiesce_cases (s.reroute m v link) with ⟨hdown, he⟩ | ⟨hup, u, hw, he⟩
  · have ht : t = s.reroute m v link := he
    rw [ht]
    exact ⟨rfl, rfl, written, fun _ => ⟨rfl, rfl⟩, fun h => absurd (hdown.symm.trans h) (by decide)⟩
  · have ht : t = u.onMd fun m => { m with quiesced := [] } := he
    have hroutes : t.md.routes = (s.reroute m v link).md.routes := by rw [ht]; show u.md.routes = _; rw [hw.md]
    have hnot : t.routesDown = false := by
      rw [← hup]
      refine routesDown_congr ?_ hroutes ?_
      · rw [ht]; show u.md.domcfg = _; rw [hw.md]
      · rw [ht]; show u.md.downLinks = _; rw [hw.md]
    refine ⟨by rw [ht]; exact hw.mem, by rw [ht]; exact hw.fabric, fun j => by rw [hroutes]; exact written j,
      fun h => absurd (hnot.symm.trans h) (by decide), fun _ => ⟨by rw [ht]; rfl, fun g hg => ⟨fun hr => ?_, fun y hy hid => ?_⟩⟩⟩
    · rw [ht] at hr
      exact (hw.requested g hr).2 hg
    · rw [ht] at hy
      exact (hw.grids y hy).1 (hid ▸ hg)

/-! ### Packets that no route takes (R364, R487, R493) -/

/-- The state with other counts of link retries. -/
def State.withLinks (s : State) (ls : List (Link × Nat × Bool)) : State := { s with md := { s.md with links := ls } }

theorem flitsPass_links (s : State) (via dst : Nat) : ∃ ls, s.flitsPass via dst = s.withLinks ls := by
  unfold State.flitsPass
  split
  · exact ⟨s.md.links, rfl⟩
  · exact ⟨_, rfl⟩

/-- What is left of the state when a packet has left the mesh. -/
theorem takePacket_shape {s u : State} {f : Payload → Bool} {a b : Nat} {pl : Payload}
    (h : s.takePacket f a b = some (pl, u)) : ∃ ls fab, u = { s.withLinks ls with fabric := fab } := by
  unfold State.takePacket at h
  obtain ⟨r, -, hr⟩ := Option.map_eq_some_iff.mp h
  extract_lets via passed at hr
  obtain ⟨ls, hl⟩ : ∃ ls, passed = s.withLinks ls := flitsPass_links s via (s.meshEnd b)
  rw [hl] at hr
  cases hr
  exact ⟨ls, r.2, rfl⟩

/-- From `s` to `t` memory, the grids and what has left the module are the same. -/
structure GridsKept (s t : State) : Prop where
  mem : t.mem = s.mem
  grids : t.grids = s.grids
  outbound : t.md.outbound = s.md.outbound

theorem GridsKept.refl (s : State) : GridsKept s s := ⟨rfl, rfl, rfl⟩

theorem GridsKept.trans {s t u : State} (a : GridsKept s t) (b : GridsKept t u) : GridsKept s u :=
  ⟨b.mem.trans a.mem, b.grids.trans a.grids, b.outbound.trans a.outbound⟩

theorem GridsKept.foldl {α : Type} {f : State → α → State} (h : ∀ u x, GridsKept u (f u x)) (l : List α) (s : State) :
    GridsKept s (l.foldl f s) := by
  induction l generalizing s with
  | nil => exact refl s
  | cons x l ih => exact (h s x).trans (ih (f s x))

theorem report_gridsKept (s : State) (k typ grid team asid grp cls unit : Nat) (payload : List Byte) :
    GridsKept s (s.report k typ grid team asid grp cls unit payload) := by
  obtain ⟨r, st, n, f, h, -⟩ := report_shape s k typ grid team asid grp cls unit payload
  rw [h]; exact ⟨rfl, rfl, rfl⟩

theorem onSplit_gridsKept (s : State) (id : Nat) (f : Split → Split) : GridsKept s (s.onSplit id f) := by
  unfold State.onSplit
  split <;> exact ⟨rfl, rfl, rfl⟩

theorem answerProbes_gridsKept (s : State) (k : Nat) : GridsKept s (s.answerProbes k) := by
  refine GridsKept.foldl (fun u p => ?_) _ s
  dsimp only
  split
  · exact .refl u
  · exact ⟨rfl, rfl, rfl⟩

theorem acked_gridsKept (s : State) (k gid no : Nat) (failed : Bool) : GridsKept s (s.acked k gid no failed) := by
  unfold State.acked
  refine GridsKept.trans ?_ (answerProbes_gridsKept _ k)
  exact ⟨rfl, rfl, rfl⟩

theorem grid?_onGrid {s : State} {g : Nat} {y : Grid} {f : Grid → Grid} (hf : ∀ x, (f x).id = x.id) (h : s.grid? g = some y) :
    (s.onGrid g f).grid? g = some (f y) := by
  have hy : y.id = g := by simpa using List.find?_some h
  show (s.grids.map fun x => if x.id = g then f x else x).find? _ = _
  rw [List.find?_map]
  have : ((fun x : Grid => x.id == g) ∘ fun x => if x.id = g then f x else x) = fun x => x.id == g := by
    funext x
    by_cases hx : x.id = g <;> simp [hx, hf]
  rw [this, show s.grids.find? (fun x => x.id == g) = some y from h, Option.map_some, if_pos hy]

/-- The share of a grid on this module stops, and nothing of another grid. -/
theorem stopShare_gridsKept (s : State) (g : Nat) :
    GridsKept (s.onGrid g fun x => { x with aborted := true }) (s.stopShare g) := by
  unfold State.stopShare
  refine GridsKept.trans (t := (s.onGrid g fun x => { x with aborted := true }).killGrid g) ⟨rfl, rfl, rfl⟩ (.foldl ?_ _ _)
  exact fun _ _ => ⟨rfl, rfl, rfl⟩

/-- An abort of a grid that is here leaves memory and what has left the module, and the grid is aborted. -/
theorem abort_marks {s : State} {g : Nat} {y : Grid} (h : s.grid? g = some y) (reason cls detail team grp : Nat) :
    let t := s.abort g reason cls detail team grp
    t.mem = s.mem ∧ t.md.outbound = s.md.outbound ∧ ∃ z, t.grid? g = some z ∧ z.aborted = true := by
  dsimp only
  unfold State.abort
  rw [h]
  dsimp only
  split
  next ha => exact ⟨rfl, rfl, y, h, ha⟩
  · have kept : GridsKept (s.onGrid g fun x => { x with aborted := true })
        (((s.stopShare g).report 0 1 g team y.asid grp cls 9 [BitVec.ofNat 8 reason, BitVec.ofNat 8 cls, BitVec.ofNat 8 detail]).abortOthers y) := by
      refine ((stopShare_gridsKept s g).trans (report_gridsKept ..)).trans (.foldl ?_ _ _)
      exact fun _ _ => ⟨rfl, rfl, rfl⟩
    refine ⟨kept.mem, kept.outbound, { y with aborted := true }, ?_, rfl⟩
    have marked := grid?_onGrid (f := fun x => { x with aborted := true }) (fun _ => rfl) h
    unfold State.grid? at marked ⊢
    rw [kept.grids]
    exact marked

/-- A packet of this module that no route takes: its grid is aborted. -/
theorem discard_aborts {s : State} {a g : Nat} {pl : Payload} {y : Grid} (ha : a < 16) (hg : s.payloadGrid pl = some g)
    (h : s.grid? g = some y) : let t := s.discard a pl
    t.mem = s.mem ∧ t.md.outbound = s.md.outbound ∧ ∃ z, t.grid? g = some z ∧ z.aborted = true := by
  obtain ⟨hmem, hout, z, hz, hab⟩ := abort_marks h 4 0 0 0 255
  have rest : GridsKept (s.abort g 4 0 0 0 255) (s.discard a pl) := by
    unfold State.discard
    simp only [ha, decide_true, Bool.true_or, if_true, hg, Option.filter_some, Option.map_some, Option.getD_some, Bool.not_true,
      Bool.false_eq_true, if_false]
    split
    · exact acked_gridsKept ..
    · exact onSplit_gridsKept ..
    · split
      · exact ⟨rfl, rfl, rfl⟩
      · exact ⟨rfl, rfl, rfl⟩
    · exact ⟨rfl, rfl, rfl⟩
    · exact ⟨rfl, rfl, rfl⟩
    · exact .refl _
  refine ⟨rest.mem.trans hmem, rest.outbound.trans hout, z, ?_, hab⟩
  unfold State.grid? at hz ⊢
  rw [rest.grids]
  exact hz

theorem unreached {s : State} {m : Nat} (h : s.routed m = false ∨ m ∈ s.md.peersDown) : s.reaches m = false := by
  unfold State.reaches
  rcases h with h | h <;> simp [h]

theorem crossStep_discards {s u : State} {a b : Nat} {pl : Payload} (hb : 16 ≤ b)
    (h : s.takePacket (fun _ => true) a b = some (pl, u)) (hm : u.reaches ((b - 16) / 16) = false) :
    s.crossStep a b = some (u.discard a pl) := by
  unfold State.crossStep
  rw [if_neg (Nat.not_lt.mpr hb), h]
  simp [hm]

theorem crossing_aborts {s u : State} {m : Fin 64} {a k g : Nat} {pl : Payload} {y : Grid} (ha : a < 16) (hk : k < 16)
    (h : s.takePacket (fun _ => true) a (16 + (16 * m.val + k)) = some (pl, u))
    (hno : u.routed m.val = false ∨ m.val ∈ u.md.peersDown) (hg : u.payloadGrid pl = some g) (hy : u.grid? g = some y) :
    ∃ t, s.crossStep a (16 + (16 * m.val + k)) = some t ∧ t.mem = s.mem ∧ t.md.outbound = s.md.outbound
      ∧ ∃ z, t.grid? g = some z ∧ z.aborted = true := by
  have hm : (16 + (16 * m.val + k) - 16) / 16 = m.val := by omega
  obtain ⟨ls, fab, hu⟩ := takePacket_shape h
  obtain ⟨hmem, hout, hz⟩ := discard_aborts ha hg hy
  refine ⟨_, crossStep_discards (Nat.le_add_right _ _) h (by rw [hm]; exact unreached hno), ?_, ?_, hz⟩
  · rw [hmem, hu]; rfl
  · rw [hout, hu]; rfl

/-! ### Peers (R493) -/

theorem peerWarmReset_notes {s : State} {m : Fin 64} (hself : m.val ≠ s.md.domcfg.toNat % 64) (hnew : m.val ∉ s.md.peersDown) :
    Answers (.peerWarmReset m) s fun t => OnlyMd s t ∧ t.md = { s.md with peersDown := m.val :: s.md.peersDown } := by
  have hexec : exec (.peerWarmReset m) s = .next (s.onMd fun d => { d with peersDown := m.val :: d.peersDown }) := by
    show execPeerWarmReset m s = _
    unfold execPeerWarmReset State.modno
    simp [hself, hnew]
  exact ⟨_, hexec, rfl, rfl⟩

theorem peerReady_notes (s : State) (m : Fin 64) : Answers (.peerReady m) s fun t => OnlyMd s t ∧ m.val ∉ t.md.peersDown
    ∧ ∀ j, j ≠ m.val → (j ∈ t.md.peersDown ↔ j ∈ s.md.peersDown) := by
  refine ⟨_, rfl, rfl, ?_, fun j hj => ?_⟩
  · show m.val ∉ s.md.peersDown.filter (· != m.val)
    simp
  · show j ∈ s.md.peersDown.filter (· != m.val) ↔ _
    simp [hj]

theorem routesAndPeers : Claims.RoutesAndPeers := fun s m v link =>
  ⟨fun h => ⟨_, routeRewrite_quiet m v link h, reroute_effect s m v link⟩,
   routeRewrite_waits m v link,
   fun _ _ _ _ _ _ ha hk h hno hg hy => crossing_aborts ha hk h hno hg hy,
   peerWarmReset_notes,
   peerReady_notes s m⟩

/-- Settles O48: the failure of a link saves what its requests reach without touching a link, and what no route takes ends its
grid. -/
theorem linksAndRoutes : Obligations.LinksAndRoutes := ⟨linksRetryAndRetrain, routesAndPeers⟩

end Sys2Proof.Machine
end

section
/-! PROOF. What a host access leaves of memory, the filter and the module's registers (R202, R357 to R360, R469, R489). -/
namespace Sys2Proof.Machine

/-! ### Stacks -/

theorem stk_onStk (s : State) {k : Nat} (hk : k < 16) (f : StackSt → StackSt) (j : Nat) :
    (s.onStk k f).stk j = if j = k then f (s.stk k) else s.stk j := vget_vset s.stks k j _ _ hk

theorem homeStack_lt (pa : Nat) : homeStack pa < 16 := Nat.mod_lt _ (by decide)

/-- A write wakes splits and breaks reservations: memory, the module's registers and the filter stay. -/
structure FilterKept (s t : State) : Prop where
  md : t.md = s.md
  held : ∀ j, (t.stk j).held = (s.stk j).held

theorem FilterKept.refl (s : State) : FilterKept s s := ⟨rfl, fun _ => rfl⟩

theorem FilterKept.trans {s t u : State} (a : FilterKept s t) (b : FilterKept t u) : FilterKept s u :=
  ⟨b.md.trans a.md, fun j => (b.held j).trans (a.held j)⟩

theorem FilterKept.foldl {α : Type} {f : State → α → State} (h : ∀ u x, FilterKept u (f u x)) (l : List α) (s : State) :
    FilterKept s (l.foldl f s) := by
  induction l generalizing s with
  | nil => exact refl s
  | cons x l ih => exact (h s x).trans (ih (f s x))

theorem written_filterKept (s : State) (pa n : Nat) : FilterKept s (s.written pa n) := by
  unfold State.written
  refine FilterKept.trans (t := s.onStk (homeStack pa) _) ⟨rfl, fun j => ?_⟩ (.foldl ?_ _ _)
  · rw [stk_onStk s (homeStack_lt pa)]
    split
    next h => rw [h]
    · rfl
  · exact fun _ _ => ⟨rfl, fun _ => rfl⟩

/-! ### The bytes of a line (R202, R469) -/

theorem bytesLE_succ (n x : Nat) : bytesLE (n + 1) x = BitVec.ofNat 8 x :: bytesLE n (x / 256) := by
  simp only [bytesLE, List.range_succ_eq_map, List.map_cons, List.map_map]
  congr 1
  · simp
  · refine List.map_congr_left fun i _ => ?_
    simp only [Function.comp_apply, Nat.div_div_eq_div_mul, Nat.succ_eq_add_one]
    rw [Nat.mul_succ, Nat.add_comm, Nat.pow_add]

theorem Memory.bytesLE_read (m : Memory) (pa n : Nat) : bytesLE n (m.read pa n) = (List.range n).map fun j => m.byte (pa + j) := by
  induction n generalizing pa with
  | zero => rfl
  | succ n ih =>
    have hlow : BitVec.ofNat 8 ((m.byte pa).toNat + 256 * m.read (pa + 1) n) = m.byte pa := by
      apply BitVec.eq_of_toNat_eq
      rw [BitVec.toNat_ofNat]
      have := (m.byte pa).isLt
      omega
    have hhigh : ((m.byte pa).toNat + 256 * m.read (pa + 1) n) / 256 = m.read (pa + 1) n := by
      have := (m.byte pa).isLt
      omega
    rw [Memory.read, bytesLE_succ, hlow, hhigh, ih, List.range_succ_eq_map, List.map_cons, List.map_map]
    refine congrArg _ (List.map_congr_left fun j _ => ?_)
    simp only [Function.comp_apply, Nat.succ_eq_add_one]
    congr 1
    omega

/-- Bytes written one by one at their places from `pa` on. -/
def Memory.setBytes (m : Memory) (pa : Nat) (bs : List (Nat × Byte)) : Memory :=
  bs.foldl (fun (n : Memory) b => n.setByte (pa + b.1) b.2) m

theorem Memory.setBytes_wf {m : Memory} (h : m.wf = true) (pa : Nat) (bs : List (Nat × Byte)) : (m.setBytes pa bs).wf = true := by
  induction bs generalizing m with
  | nil => exact h
  | cons b bs ih => exact ih (setByte_wf h _ _)

/-- What the byte at `a` is after the bytes of a write under its mask. -/
theorem Memory.byte_setMasked {m : Memory} (h : m.wf = true) (pa : Nat) (mask : BitVec 64) (data : List Byte) (is : List Nat) (a : Nat) :
    (m.setBytes pa (is.filterMap fun i => if mask.getLsbD i then some (i, data.getD i 0#8) else none)).byte a
      = if ∃ i ∈ is, mask.getLsbD i = true ∧ a = pa + i then data.getD (a - pa) 0#8 else m.byte a := by
  induction is generalizing m with
  | nil => simp [setBytes]
  | cons i is ih =>
    cases hi : mask.getLsbD i with
    | false =>
      rw [List.filterMap_cons_none (by simp [hi]), ih h]
      simp [hi]
    | true =>
      rw [List.filterMap_cons_some (b := (i, data.getD i 0#8)) (by simp [hi])]
      show ((m.setByte (pa + i) (data.getD i 0#8)).setBytes pa _).byte a = _
      rw [ih (setByte_wf h _ _), byte_setByte h]
      by_cases ha : a = pa + i
      · subst ha
        simp [hi]
      · simp [ha]

/-- A write of one line under its mask, by its bytes, tag and poison. -/
theorem Memory.masked_line {m : Memory} (h : m.wf = true) (line : Nat) (mask : BitVec 64) (data : List Byte) :
    let n := ((m.setBytes (64 * line) (maskedBytes mask data)).tagLines (64 * line) 1 0).clearPoison line
    (∀ j < 64, n.byte (64 * line + j) = if mask.getLsbD j then data.getD j 0#8 else m.byte (64 * line + j))
    ∧ (∀ a, a < 64 * line ∨ 64 * line + 64 ≤ a → n.byte a = m.byte a)
    ∧ lookupTag n.tags line = 0 ∧ line ∉ n.poison := by
  intro n
  have hbyte (a : Nat) : n.byte a = if ∃ i ∈ List.range 64, mask.getLsbD i = true ∧ a = 64 * line + i
      then data.getD (a - 64 * line) 0#8 else m.byte a := by
    rw [← byte_setMasked h]
    exact byte_tagLines _ _ _ _ _
  refine ⟨fun j hj => ?_, fun a ha => ?_, ?_, ?_⟩
  · rw [hbyte]
    by_cases hm : mask.getLsbD j = true
    · rw [if_pos ⟨j, List.mem_range.mpr hj, hm, rfl⟩, if_pos hm, Nat.add_sub_cancel_left]
    · rw [if_neg, if_neg hm]
      rintro ⟨i, -, hi, he⟩
      exact hm (Nat.add_left_cancel he ▸ hi)
  · rw [hbyte, if_neg]
    rintro ⟨i, hi, -, rfl⟩
    have := List.mem_range.mp hi
    omega
  · have hone : ceilDiv (64 * line % 64 + 1) 64 = 1 := by unfold ceilDiv; omega
    have htags : n.tags = insertTag (m.setBytes (64 * line) (maskedBytes mask data)).tags line 0 := by
      show (((List.range (ceilDiv (64 * line % 64 + 1) 64)).foldl _ _ : Memory)).tags = _
      rw [hone]
      show insertTag _ (lineOf (64 * line) + 0) 0 = _
      rw [lineOf, Nat.mul_div_cancel_left line (by decide), Nat.add_zero]
    rw [htags, lookup_insertTag _ _ _ _ ((wf_iff _).mp (setBytes_wf h _ _)).2.1, if_pos rfl]
  · show line ∉ List.filter _ _
    simp

/-! ### A host write at its home -/

theorem hostWrite_refused {s : State} {line : Nat} {mask : BitVec 64} (hp : s.mem.poison.contains line = true)
    (hm : mask ≠ BitVec.allOnes 64) (hpa : Nat) (data : List Byte) : s.hostWrite line hpa mask data =
      s.report (homeStack (64 * line)) 11 0 0 0 255 0 9 (bytesLE 8 hpa ++ bytesLE 1 1) := by
  have hpart : (s.mem.poison.contains line && mask != BitVec.allOnes 64) = true := by
    rw [hp, Bool.true_and, bne_iff_ne]; exact hm
  unfold State.hostWrite
  exact if_pos hpart

theorem hostWrite_effect {s : State} (h : s.mem.wf = true) {line : Nat} {mask : BitVec 64}
    (hok : s.mem.poison.contains line = false ∨ mask = BitVec.allOnes 64) (hpa : Nat) (data : List Byte) :
    let t := s.hostWrite line hpa mask data
    (∀ j < 64, t.mem.byte (64 * line + j) = if mask.getLsbD j then data.getD j 0#8 else s.mem.byte (64 * line + j))
    ∧ (∀ a, a < 64 * line ∨ 64 * line + 64 ≤ a → t.mem.byte a = s.mem.byte a)
    ∧ (mask ≠ 0#64 → lookupTag t.mem.tags line = 0 ∧ line ∉ t.mem.poison) ∧ FilterKept s t := by
  have hfull : (s.mem.poison.contains line && mask != BitVec.allOnes 64) = false := by
    rcases hok with h | h
    · rw [h, Bool.false_and]
    · rw [h, bne_self_eq_false, Bool.and_false]
  dsimp only
  unfold State.hostWrite
  rw [hfull]
  dsimp only
  rw [if_neg Bool.false_ne_true]
  split
  next hz => subst hz; exact ⟨fun j _ => by simp, fun _ _ => rfl, fun hne => absurd rfl hne, .refl s⟩
  · obtain ⟨hin, hout, htag, hpois⟩ := Memory.masked_line h line mask data
    have kept : FilterKept s ((maskedBytes mask data).foldl (fun (u : State) b => u.written (64 * line + b.1) 1) s) :=
      .foldl (fun u b => written_filterKept u _ _) _ s
    exact ⟨hin, hout, fun _ => ⟨htag, hpois⟩, kept.md, kept.held⟩

end Sys2Proof.Machine
end

section
/-! PROOF. Host requests and what the host answers (R16, R357 to R360, R469, R488, R489, R494). -/
namespace Sys2Proof.Machine

theorem trip_links (s : State) (a b : Nat) : ∃ ls, s.trip a b = s.withLinks ls := by
  obtain ⟨l1, h1⟩ := flitsPass_links s a b
  obtain ⟨l2, h2⟩ := flitsPass_links (s.withLinks l1) b a
  exact ⟨l2, by rw [State.trip, h1, h2]; rfl⟩

/-! ### A request at its home (R359, R360) -/

section
variable {s : State} {r : HostReq} {line : Nat} (hl : s.hostLine r.hpa = line)
include hl

theorem hostPerform_reserved (hr : isReserved (64 * line) = true) : s.hostPerform r =
    if r.write then s.report (homeStack (64 * line)) 11 0 0 0 255 0 9 (bytesLE 8 r.hpa ++ bytesLE 1 0)
    else (s.report (homeStack (64 * line)) 11 0 0 0 255 0 9 (bytesLE 8 r.hpa ++ bytesLE 1 0)).hostGets r.hpa (zeros 64) true := by
  unfold State.hostPerform
  rw [hl]
  exact if_pos hr

theorem hostPerform_write (hr : isReserved (64 * line) = false) (hw : r.write = true) :
    s.hostPerform r = s.hostWrite line r.hpa r.mask r.data := by
  unfold State.hostPerform
  rw [hl]
  simp only [hr, hw, Bool.false_eq_true, if_false, if_true]

omit hl in
/-- Whether the filter has the line of a read that the host keeps, or an entry is free. -/
theorem fullFilter_iff (keep : Bool) (held : List (Nat × Bool)) :
    (keep && !(held.any fun h => h.1 == line) && filterSize ≤ held.length) = true
      ↔ ¬ (keep = false ∨ (∃ o, (line, o) ∈ held) ∨ held.length < 32768) := by
  have entry : (held.any fun h => h.1 == line) = true ↔ ∃ o, (line, o) ∈ held := by
    rw [List.any_eq_true]
    constructor
    · rintro ⟨⟨l, o⟩, ho, hl⟩; exact ⟨o, (beq_iff_eq.mp hl) ▸ ho⟩
    · rintro ⟨o, ho⟩; exact ⟨_, ho, beq_self_eq_true _⟩
  have full : (filterSize ≤ held.length) ↔ ¬ held.length < 32768 := Nat.not_lt.symm
  rw [Bool.and_eq_true, Bool.and_eq_true, decide_eq_true_iff, full, ← entry, Bool.not_eq_true']
  generalize (held.any fun h => h.1 == line) = here
  cases keep <;> cases here <;> simp

theorem hostPerform_waits (hr : isReserved (64 * line) = false) (hw : r.write = false)
    (hfull : ¬ (r.keep = false ∨ (∃ o, (line, o) ∈ (s.stk (homeStack (64 * line))).held)
      ∨ (s.stk (homeStack (64 * line))).held.length < 32768)) :
    s.hostPerform r = s.onMd fun m => { m with hostWait := m.hostWait ++ [r] } := by
  unfold State.hostPerform
  rw [hl]
  simp only [hr, hw, Bool.false_eq_true, if_false]
  exact if_pos ((fullFilter_iff _ _).mpr hfull)

theorem hostPerform_reads (hr : isReserved (64 * line) = false) (hw : r.write = false)
    (hroom : r.keep = false ∨ (∃ o, (line, o) ∈ (s.stk (homeStack (64 * line))).held)
      ∨ (s.stk (homeStack (64 * line))).held.length < 32768) :
    s.hostPerform r =
      let bad := s.mem.poison.contains line
      let t := s.hostGets r.hpa (if bad then zeros 64 else bytesLE 64 (s.mem.read (64 * line) 64)) bad
      if r.keep then t.hostKeeps line r.own else t := by
  unfold State.hostPerform
  rw [hl]
  simp only [hr, hw, Bool.false_eq_true, if_false]
  exact if_neg fun h => (fullFilter_iff _ _).mp h hroom

omit hl in
/-- The filter keeps the line, as owned when the host asks for that. -/
theorem hostKeeps_held (s : State) (line : Nat) (own : Bool) :
    ∃ o, (line, o) ∈ ((s.hostKeeps line own).stk (homeStack (64 * line))).held ∧ (own = true → o = true) := by
  unfold State.hostKeeps
  rw [stk_onStk s (homeStack_lt _), if_pos rfl]
  exact ⟨_, List.mem_append_right _ List.mem_cons_self, fun h => by simp [h]⟩

/-- Reserved offsets refuse a request, with a record; a read is given poisoned zeros (R489). -/
theorem reserved_request (hres : isReserved (64 * line) = true) : (s.hostPerform r).mem = s.mem
    ∧ SendsRecord s (s.hostPerform r) (homeStack (64 * line)) 11 (bytesLE 8 r.hpa ++ bytesLE 1 0)
    ∧ (r.write = false → (s.hostPerform r).md.hostReads = (r.hpa, zeros 64, true) :: s.md.hostReads) := by
  have sends := sendsRecord_report s (homeStack_lt (64 * line)) 11 0 0 0 255 0 9 (bytesLE 8 r.hpa ++ bytesLE 1 0)
  obtain ⟨x, st, n, f, hrep, -⟩ := report_shape s (homeStack (64 * line)) 11 0 0 0 255 0 9 (bytesLE 8 r.hpa ++ bytesLE 1 0)
  rw [hostPerform_reserved hl hres]
  cases hw : r.write with
  | true =>
    rw [if_pos rfl]
    exact ⟨by rw [hrep], sends, fun h => nomatch h⟩
  | false =>
    rw [if_neg Bool.false_ne_true]
    refine ⟨?_, sends, fun _ => ?_⟩
    · rw [hrep]; rfl
    · rw [hrep]; rfl

/-- A read gives the line, or poisoned zeros, and leaves the line in the filter where the host keeps it (R359, R360, R469). -/
theorem read_request (hres : isReserved (64 * line) = false) (hw : r.write = false)
    (hroom : r.keep = false ∨ (∃ o, (line, o) ∈ (s.stk (homeStack (64 * line))).held)
      ∨ (s.stk (homeStack (64 * line))).held.length < 32768) :
    (s.hostPerform r).mem = s.mem
    ∧ (s.hostPerform r).md.hostReads = (r.hpa, if s.mem.poison.contains line then zeros 64
        else (List.range 64).map fun j => s.mem.byte (64 * line + j), s.mem.poison.contains line) :: s.md.hostReads
    ∧ (r.keep = true → ∃ o, (line, o) ∈ ((s.hostPerform r).stk (homeStack (64 * line))).held ∧ (r.own = true → o = true)) := by
  rw [hostPerform_reads hl hres hw hroom, Memory.bytesLE_read]
  dsimp only
  cases r.keep with
  | true =>
    rw [if_pos rfl]
    exact ⟨rfl, rfl, fun _ => hostKeeps_held _ _ _⟩
  | false =>
    rw [if_neg Bool.false_ne_true]
    exact ⟨rfl, rfl, fun h => nomatch h⟩

end

/-! ### Where a request is performed (R16, R235, R371) -/

/-- The request is for an address of the module's decoder, over a link that is up. -/
structure State.Decodes (s : State) (r : HostReq) : Prop where
  low : s.md.hdmbase ≤ r.hpa
  high : r.hpa - s.md.hdmbase < 2 ^ 42
  up : s.md.cxlUp = true

theorem State.Decodes.accepted {s : State} {r : HostReq} (h : s.Decodes r) :
    (decide (r.hpa < s.md.hdmbase) || decide (2 ^ 42 ≤ r.hpa - s.md.hdmbase) || !s.md.cxlUp) = false := by
  obtain ⟨hl, hh, hu⟩ := h
  rw [decide_eq_false (Nat.not_lt.mpr hl), decide_eq_false (Nat.not_le.mpr hh), hu]
  rfl

theorem hostAccess_refused {s : State} {r : HostReq} (h : s.Decodes r) (hdown : s.md.fatal = true ∨ s.md.ready = false) :
    exec (.hostAccess r) s = .next (if r.write then s else s.hostGets r.hpa (zeros 64) true) := by
  have hcond : (s.md.fatal || !s.md.ready) = true := by rcases hdown with h | h <;> simp [h]
  show execHostAccess r s = _
  unfold execHostAccess
  rw [h.accepted, hcond]
  rfl

theorem not_near_iff (s : State) (pa : Nat) :
    (s.pairWaits 0 (homeStack pa) || (s.stk (homeStack pa)).pstate != 0) = true ↔ ¬ s.Near 0 pa := by
  unfold State.Near
  rw [Bool.or_eq_true, bne_iff_ne, not_and_or, Bool.not_eq_false]

theorem hostAccess_crosses {s : State} {r : HostReq} (h : s.Decodes r) (hf : s.md.fatal = false) (hr : s.md.ready = true)
    (hn : ¬ s.Near 0 (64 * s.hostLine r.hpa)) : exec (.hostAccess r) s
      = .next (s.send 0 (homeStack (64 * s.hostLine r.hpa)) (.host r)) := by
  have hcond := (not_near_iff s _).mpr hn
  show execHostAccess r s = _
  unfold execHostAccess
  rw [h.accepted, hf, hr]
  dsimp only
  rw [hcond]
  rfl

/-- A request that nothing holds is performed at once; no more than the retries of mesh links has changed before that. -/
theorem hostAccess_near {s : State} {r : HostReq} (h : s.Decodes r) (hf : s.md.fatal = false) (hr : s.md.ready = true)
    (hn : s.Near 0 (64 * s.hostLine r.hpa)) :
    ∃ ls, exec (.hostAccess r) s = .next ((s.withLinks ls).hostPerform r) := by
  have hcond : (s.pairWaits 0 (homeStack (64 * s.hostLine r.hpa))
      || (s.stk (homeStack (64 * s.hostLine r.hpa))).pstate != 0) = false :=
    Bool.eq_false_iff.mpr fun e => (not_near_iff s _).mp e hn
  obtain ⟨ls, ht⟩ := trip_links s 0 (homeStack (64 * s.hostLine r.hpa))
  refine ⟨ls, ?_⟩
  show execHostAccess r s = _
  unfold execHostAccess
  rw [h.accepted, hf, hr]
  dsimp only
  rw [hcond, ht]
  rfl

theorem hostRequests : Claims.HostRequests := by
  intro s r hlow hhigh hcxl hwf i pa line k bad reads zero up room
  have hdec : s.Decodes r := ⟨hlow, hhigh, hcxl⟩
  have hline : s.hostLine r.hpa = line := (Nat.mul_div_cancel_left _ (by decide)).symm
  have hpa : pa = 64 * line := congrArg (64 * ·) hline
  refine ⟨fun hdown => ⟨fun hw => ?_, fun hw => ?_⟩, fun hf hr hn => ?_, fun hup hres => ?_, fun hup hres hw hok => ?_,
    fun hup hres hw hbad hm => ?_, fun hup hres hw hroom => ?_, fun hup hres hw hroom => ?_⟩
  · exact (hostAccess_refused hdec hdown).trans (by rw [hw]; rfl)
  · have hexec : exec i s = .next (s.hostGets r.hpa zero true) := (hostAccess_refused hdec hdown).trans (by rw [hw]; rfl)
    exact ⟨_, hexec, rfl, rfl⟩
  · exact hostAccess_crosses hdec hf hr hn
  all_goals
    obtain ⟨hf, hr, hn⟩ := hup
    obtain ⟨ls, hexec⟩ := hostAccess_near hdec hf hr hn
    have hl : (s.withLinks ls).hostLine r.hpa = line := hline
    have hk : k = homeStack (64 * line) := congrArg homeStack hpa
    rw [hpa] at hres
    refine ⟨_, hexec, ?_⟩
    clear_value line k
  · rw [hk]
    exact reserved_request hl hres
  · rw [hostPerform_write hl hres hw, hpa]
    obtain ⟨hin, hout, htag, kept⟩ := hostWrite_effect (s := s.withLinks ls) hwf hok r.hpa r.data
    exact ⟨hin, hout, htag, by rw [kept.md]; rfl⟩
  · rw [hostPerform_write hl hres hw, hostWrite_refused (s := s.withLinks ls) hbad hm, hk]
    obtain ⟨x, st, n, f, hrep, -⟩ := report_shape (s.withLinks ls) (homeStack (64 * line)) 11 0 0 0 255 0 9
      (bytesLE 8 r.hpa ++ bytesLE 1 1)
    exact ⟨by rw [hrep]; rfl, sendsRecord_report (s.withLinks ls) (homeStack_lt _) 11 0 0 0 255 0 9 _⟩
  · subst hk
    rw [hpa]
    exact read_request hl hres hw hroom
  · subst hk
    rw [hostPerform_waits hl hres hw hroom]
    rfl

/-! ### What the host answers (R357, R360, R489) -/

theorem hostNext_idle {s : State} (h : s.md.hostWait = []) (k : Nat) : s.hostNext k = s := by
  unfold State.hostNext
  rw [h]
  rfl

/-- The line leaves the filter of its stack. -/
def State.lineLeaves (s : State) (line : Nat) : State :=
  s.onStk (homeStack (64 * line)) fun q => { q with held := q.held.filter fun x => x.1 != line }

theorem lineLeaves_stk (s : State) (line : Nat) : (s.lineLeaves line).stk (homeStack (64 * line)) =
    { s.stk (homeStack (64 * line)) with held := (s.stk (homeStack (64 * line))).held.filter fun x => x.1 != line } := by
  unfold State.lineLeaves
  rw [stk_onStk s (homeStack_lt _), if_pos rfl]

theorem hostYields_clean {s : State} (h : s.md.hostWait = []) (line : Nat) :
    s.hostYields (homeStack (64 * line)) line none = s.lineLeaves line := hostNext_idle (s := s.lineLeaves line) h _

/-- Modified data is written at the home, and the line has left the filter. -/
theorem hostYields_dirty {s : State} (h : s.md.hostWait = []) (hwf : s.mem.wf = true) (line : Nat) (bs : List Byte) :
    let t := s.hostYields (homeStack (64 * line)) line (some bs)
    (∀ x, (line, x) ∉ (t.stk (homeStack (64 * line))).held) ∧ (∀ j < 64, t.mem.byte (64 * line + j) = bs.getD j 0#8)
      ∧ line ∉ t.mem.poison ∧ ∀ a, a < 64 * line ∨ 64 * line + 64 ≤ a → t.mem.byte a = s.mem.byte a := by
  obtain ⟨hin, hout, htag, kept⟩ := hostWrite_effect (s := s.lineLeaves line) hwf (line := line) (.inr rfl)
    (s.md.hdmbase + 64 * line % 2 ^ 42) bs
  have hidle : s.hostYields (homeStack (64 * line)) line (some bs) =
      (s.lineLeaves line).hostWrite line (s.md.hdmbase + 64 * line % 2 ^ 42) (BitVec.allOnes 64) bs :=
    hostNext_idle ((congrArg ModSt.hostWait kept.md).trans h) _
  dsimp only
  rw [hidle]
  refine ⟨fun x hx => ?_, fun j hj => ?_, (htag (by decide)).2, hout⟩
  · rw [kept.held, lineLeaves_stk] at hx
    simpa using (List.mem_filter.mp hx).2
  · rw [hin j hj, if_pos]
    rw [BitVec.getLsbD_allOnes, decide_eq_true hj]

/-- An answer of the host for a line that stands in the filter, while no data for it is on its way. -/
structure State.Awaited (s : State) (line : Nat) (o : Bool) : Prop where
  entry : (s.stk (homeStack (64 * line))).held.find? (fun h => h.1 == line) = some (line, o)
  quiet : ∀ p ∈ s.fabric, ∀ ds, p.pl ≠ .hostBack line ds

/-- What happens on the answer: clean lines leave the filter, and modified data goes to the home as a host write does. -/
theorem response_awaited {s : State} {line : Nat} {o : Bool} (h : s.Awaited line o) (dirty : Option (List Byte))
    (ho : dirty.isSome = true → o = true) : exec (.backInvalidateResponse line dirty) s =
      .next (dirty.elim (s.hostYields (homeStack (64 * line)) line none) fun bs =>
        if s.pairWaits 0 (homeStack (64 * line)) || (s.stk (homeStack (64 * line))).pstate != 0 then
          s.send 0 (homeStack (64 * line)) (.hostBack line bs)
        else (s.flitsPass 0 (homeStack (64 * line))).hostYields (homeStack (64 * line)) line (some bs)) := by
  show execBackInvalidateResponse line dirty s = _
  unfold execBackInvalidateResponse
  extract_lets k gives
  have hgives : gives = false := by
    refine List.any_eq_false.mpr fun p hp hm => ?_
    split at hm
    next n ds hpl => exact h.quiet p hp ds (by rw [hpl, beq_iff_eq.mp hm])
    · exact Bool.false_ne_true hm
  have hperforms : (gives || dirty.isSome && !o) = false := by
    rw [hgives, Bool.false_or]
    cases hd : dirty.isSome with
    | false => rfl
    | true => rw [ho hd]; rfl
  rw [show (s.stk k).held.find? (fun h => h.1 == line) = some (line, o) from h.entry]
  dsimp only
  rw [if_neg (Bool.eq_false_iff.mp hperforms)]
  cases dirty with
  | none => rfl
  | some bs => exact (apply_ite _ _ _ _).symm

theorem fromHost_iff (pl : Payload) : fromHost pl = false ↔ (∀ r, pl ≠ .host r) ∧ ∀ n ds, pl ≠ .hostBack n ds := by
  unfold fromHost
  split
  · simp
  · simp
  next h1 h2 => exact ⟨fun _ => ⟨h1, h2⟩, fun _ => rfl⟩

theorem vget_map {α β : Type} {n : Nat} (v : Vector α n) (f : α → β) (i : Nat) (hi : i < n) (d : α) (e : β) :
    vget (v.map f) i e = f (vget v i d) := by
  unfold vget
  simp [hi]

theorem cxlLinkDown_stops (s : State) : Answers .cxlLinkDown s fun t => t.mem = s.mem ∧ t.splits = s.splits ∧ t.me = s.me
    ∧ t.grids = s.grids ∧ (∀ p, p ∈ t.fabric ↔ p ∈ s.fabric ∧ (∀ r, p.pl ≠ .host r) ∧ ∀ n ds, p.pl ≠ .hostBack n ds)
    ∧ t.md.cxlUp = false ∧ ∀ j : Fin 16, (t.stk j.val).held = [] := by
  refine ⟨_, rfl, rfl, rfl, rfl, rfl, fun p => ?_, rfl, fun j => ?_⟩
  · show p ∈ s.fabric.filter (fun p => !fromHost p.pl) ↔ _
    rw [List.mem_filter, Bool.not_eq_true', fromHost_iff]
  · exact congrArg StackSt.held (vget_map s.stks (fun q : StackSt => { q with held := [] }) j.val j.isLt StackSt.reset StackSt.reset)

theorem hostAnswers : Claims.HostAnswers := by
  intro s line o bs hwf hwait pa k
  refine ⟨rfl, fun hentry hquiet => ?_, cxlLinkDown_stops s⟩
  have h : s.Awaited line o := ⟨hentry, hquiet⟩
  refine ⟨?_, fun ho hn => ?_, fun ho hn => ?_⟩
  · have hstep : exec (.backInvalidateResponse line none) s = .next (s.lineLeaves line) :=
      (response_awaited h none fun e => nomatch e).trans (congrArg Host.Outcome.next (hostYields_clean hwait line))
    exact ⟨_, hstep, congrArg (fun q => s.onStk k fun _ => q) (lineLeaves_stk s line).symm, lineLeaves_stk s line⟩
  · rw [response_awaited h (some bs) fun _ => ho]
    exact congrArg Host.Outcome.next (if_pos ((not_near_iff s pa).mpr hn))
  · obtain ⟨ls, hls⟩ := flitsPass_links s 0 k
    have hstay : exec (.backInvalidateResponse line (some bs)) s = .next ((s.withLinks ls).hostYields k line (some bs)) := by
      rw [response_awaited h (some bs) fun _ => ho, ← hls]
      exact congrArg Host.Outcome.next (if_neg fun e => (not_near_iff s pa).mp e hn)
    exact ⟨_, hstay, hostYields_dirty (s := s.withLinks ls) hwait hwf line bs⟩

/-- Settles O49: a host request and the host's answers meet memory and the filter at the home, where one write of a line
serves them both. -/
theorem hostTraffic : Obligations.HostTraffic := ⟨hostRequests, hostAnswers⟩

end Sys2Proof.Machine
end

section
/-! PROOF. What bringing a split into focus leaves of each field. -/
namespace Sys2Proof.Machine

/-- Bringing a split into focus moves splits, slots and groups between the lists and the focus, and changes nothing else. -/
theorem focus_shape {s t : State} {id : Nat} (h : s.focus id = some t) :
    ∃ me win gr sp sl gs, t = { s with me := me, win := win, gr := gr, splits := sp, slots := sl, groups := gs } := by
  unfold State.focus at h
  dsimp only at h
  split at h
  · cases h; exact ⟨s.me, s.win, s.gr, s.splits, s.slots, s.groups, rfl⟩
  · split at h
    · cases h
    · cases h; exact ⟨_, _, _, _, _, _, rfl⟩

theorem focus_stks {s t : State} {id : Nat} (h : s.focus id = some t) : t.stks = s.stks := by
  obtain ⟨me, win, gr, sp, sl, gs, rfl⟩ := focus_shape h; rfl

theorem focus_mem {s t : State} {id : Nat} (h : s.focus id = some t) : t.mem = s.mem := by
  obtain ⟨me, win, gr, sp, sl, gs, rfl⟩ := focus_shape h; rfl

theorem focus_fabric {s t : State} {id : Nat} (h : s.focus id = some t) : t.fabric = s.fabric := by
  obtain ⟨me, win, gr, sp, sl, gs, rfl⟩ := focus_shape h; rfl

end Sys2Proof.Machine
end

section
/-! PROOF. A step of the module: the issue slot, the events and the moves that can come next (R48, R67, R113, R360, R409). -/
namespace Sys2Proof.Machine

/-! ### Fetch and decode (R99, R409) -/

/-- The opcode and the length code stand in the first word, so what a fetch of one word shows of them is what the whole
instruction holds. -/
theorem checkOpcode_first_word (y : Nat) : checkOpcode (Fields.unpack (y % 2 ^ 32)) = checkOpcode (Fields.unpack y) := by
  have hop : (Fields.unpack (y % 2 ^ 32)).op = (Fields.unpack y).op := by
    show y % 2 ^ 32 / 2 ^ 3 % 2 ^ 7 = y / 2 ^ 3 % 2 ^ 7
    omega
  have hlen : (Fields.unpack (y % 2 ^ 32)).len = (Fields.unpack y).len := by
    show y % 2 ^ 32 % 2 ^ 2 = y % 2 ^ 2
    omega
  unfold checkOpcode
  rw [hop, hlen]

/-- Words that decode, or whose reserved fields alone are wrong, have an assigned opcode and a length that it accepts. -/
theorem checkOpcode_of_decodeWord {y : Nat} (h : ∀ k, decodeWord y ≠ .error (.ill k)) : checkOpcode (Fields.unpack y) = none := by
  cases hc : checkOpcode (Fields.unpack y) with
  | none => rfl
  | some k => exact absurd (by unfold decodeWord; dsimp only; rw [hc]) (h k)

/-- The fetch of the instruction at PC whose first word, and then whose words, have been read (R409). -/
theorem fetchInstr_of_words {t a u : State} {x y : Nat}
    (hx : fetchBytes t t.me.stack t.me.core t.me.asid t.me.pc.toNat 4 = .ok (x, a))
    (hy : fetchBytes a t.me.stack t.me.core t.me.asid t.me.pc.toNat (lenBytes (x % 4)) = .ok (y, u))
    (hxy : x = y % 2 ^ 32) (hok : t.me.refuses (Fields.unpack y) = false) (hd : ∀ k, decodeWord y ≠ .error (.ill k)) :
    t.fetchInstr = match decodeWord y with
      | .ok i => .ok (i, u)
      | .error _ => .error (.illegal, 5) := by
  have hop : checkOpcode (Fields.unpack x) = none := by
    rw [hxy, checkOpcode_first_word]; exact checkOpcode_of_decodeWord hd
  have hlen : (Fields.unpack x).len = x % 4 := rfl
  unfold State.fetchInstr
  simp only [hx, hop, hlen, hy, hok]
  cases hw : decodeWord y with
  | ok i => rfl
  | error e =>
    cases e with
    | ill k => exact absurd hw (hd k)
    | reserved => rfl

/-! ### What the host holds (R360) -/

/-- Which lines the host holds in modified state rests on the filters alone. -/
theorem modified_congr {s t : State} (h : ∀ k < 16, (t.stk k).held = (s.stk k).held) : t.modified = s.modified := by
  have hv : t.stks.map StackSt.held = s.stks.map StackSt.held := by
    ext1 k hk
    simpa [State.stk, vget, hk] using h k hk
  have hl := congrArg Vector.toList hv
  simp only [Vector.toList_map] at hl
  have heq (w : State) : w.modified = ((w.stks.toList.map StackSt.held).map fun q => (q.filter fun h => h.2).map fun h => h.1).flatten := by
    rw [List.map_map]; rfl
  rw [heq, heq, hl]

theorem needsHost_of_unmodified {s : State} (h : s.modified = []) (f : State → Out) : s.needsHost f = false := by
  unfold State.needsHost; rw [h]; rfl

/-! ### The issue slot of a pipe (R67, R409) -/

/-- A pipe without a hold whose run holds split `id` gives that split its slot. -/
theorem stackSlot_of_run {s t : State} {k c p id : Nat} {rest : List (Nat × Nat)} (htodo : (s.stk k).todo = (c, p) :: rest)
    (hhold : (((s.onStk k fun q => { q with todo := rest }).markReady k c p).pipe k c p).hold = 0)
    (hrun : (((s.onStk k fun q => { q with todo := rest }).markReady k c p).pipe k c p).run = some id)
    (hfocus : ((s.onStk k fun q => { q with todo := rest }).markReady k c p).focus id = some t) :
    s.stackSlot k = t.issueSlot := by
  unfold State.stackSlot
  rw [htodo]
  dsimp only
  unfold State.pipeSlot
  dsimp only
  rw [hhold, if_neg (Nat.lt_irrefl 0), hrun]
  dsimp only
  rw [hfocus]

theorem issueSlot_issues {t : State} (hs : t.me.status = .run) (hf : t.me.faulting = false) (hr : t.me.requeues = false)
    (hm : t.modified = []) : t.issueSlot = t.issueHere := by
  unfold State.issueSlot
  rw [if_neg]
  rw [hs, hf, hr, needsHost_of_unmodified hm]
  simp

/-- The state in which a pipe's split stands in focus holds what the host held before. -/
theorem focus_slot_modified {s t : State} {k c p id : Nat} {rest : List (Nat × Nat)} (hk : k < 16)
    (hfocus : ((s.onStk k fun q => { q with todo := rest }).markReady k c p).focus id = some t) : t.modified = s.modified := by
  refine modified_congr fun j _ => ?_
  have hst : t.stks = (s.onStk k fun q => { q with todo := rest }).stks := (focus_stks hfocus).trans rfl
  have hj : t.stk j = (s.onStk k fun q => { q with todo := rest }).stk j := by unfold State.stk; rw [hst]
  rw [hj, stk_onStk s hk]
  split
  next h => rw [h]
  · rfl

/-! ### What comes next (R48, R360, R488) -/

theorem step_check {s : State} (h : s.checkDue = true) (hf : s.md.fatal = false) : Machine.step s = .next s.mergeAll := by
  unfold Machine.step State.next
  rw [h, hf]; rfl

theorem step_event {s : State} {i : Instr} {es : List Instr} (hc : s.checkDue = false) (ha : s.agenda = i :: es)
    (he : isEvent i = true) (hh : State.eventHeld { s with agenda := es } i = false) (hf : s.md.fatal = false ∨ fatalServes i = true) :
    Machine.step s = exec i { s with agenda := es } := by
  have hserves : (!s.md.fatal || fatalServes i) = true := by
    rcases hf with h | h <;> rw [h] <;> simp
  unfold Machine.step State.next
  rw [hc, Bool.false_and, if_neg Bool.false_ne_true, ha]
  dsimp only
  rw [he, hh, hserves]
  rfl

/-- With nothing on the agenda, the module takes one of the moves that do not wait for the host. -/
theorem step_choose {s : State} (hc : s.checkDue = false) (ha : s.agenda = []) (hf : s.md.fatal = false) :
    Machine.step s = s.choose (s.moves.filter fun m => !s.moveHeld m) := by
  unfold Machine.step State.next
  rw [hc, Bool.false_and, if_neg Bool.false_ne_true, ha]
  dsimp only
  rw [hf, if_neg Bool.false_ne_true]

theorem step_only {s : State} {m : Move} (hc : s.checkDue = false) (ha : s.agenda = []) (hf : s.md.fatal = false)
    (hm : s.moves = [m]) (hh : s.moveHeld m = false) : Machine.step s = s.take m := by
  have hfilter : ([m].filter fun m => !s.moveHeld m) = [m] := by simp [hh]
  rw [step_choose hc ha hf, hm, hfilter]
  rfl

/-- Of several moves the module takes one of them (log entry 2). -/
theorem choose_several (s : State) {ms : List Move} (h : 2 ≤ ms.length) : ∃ m ∈ ms, s.choose ms = s.draw.take m := by
  match ms, h with
  | m :: m' :: rest, _ =>
    refine ⟨_, ?_, rfl⟩
    have hlt : Config.freeNat s.fresh % ((m' :: rest).length + 1) < (m :: m' :: rest).length := Nat.mod_lt _ (Nat.succ_pos _)
    rw [List.getD_eq_getElem _ _ hlt]
    exact List.getElem_mem hlt

/-- Settles O56: the slot of a pipe reaches the decoder with the words at PC, and everything else that a step can be is read off
the order in which it looks for what comes next. -/
theorem stepRunsTheDecodedInstruction : Obligations.StepRunsTheDecodedInstruction := by
  refine ⟨?_, fun _ _ _ hc ha he hh hf => step_event hc ha he hh hf, fun _ _ hc ha hf hm hh => step_only hc ha hf hm hh,
    fun s hc ha hf => ?_, fun _ h hf => step_check h hf⟩
  · intro s t a u k c p id x y rest i hc hmod ha hf hm htodo b hhold hrun hfocus hst hfault hreq hx hy hxy hok
    have hk : k < 16 := by
      by_contra hge
      have : (s.stk k).todo = [] := by unfold State.stk vget; simp [Nat.le_of_not_lt hge]; rfl
      rw [this] at htodo; cases htodo
    have hissue : Machine.step s = t.issueHere := by
      rw [step_only hc ha hf hm rfl]
      show s.stackSlot k = _
      rw [stackSlot_of_run htodo hhold hrun hfocus]
      exact issueSlot_issues hst hfault hreq ((focus_slot_modified hk hfocus).trans hmod)
    have hfetch := fetchInstr_of_words hx hy hxy hok
    refine ⟨fun hd => ?_, fun hd => ?_⟩
    · rw [hissue, State.issueHere, hfetch (by rw [hd]; intro k h; cases h), hd]
    · rw [hissue, State.issueHere, hfetch (by rw [hd]; intro k h; cases h), hd]
  · intro ms hlen
    obtain ⟨m, hmem, hch⟩ := choose_several s hlen
    exact ⟨m, hmem, (step_choose hc ha hf).trans hch⟩

end Sys2Proof.Machine
end

section
/-! PROOF. A division whose answer brings a number that no split has (R21, R29, R46). -/
namespace Sys2Proof.Machine

/-- A split at a divergent `brp`, whose answer brings the number 16. Number 16 in the child's field of a reconvergence entry
reaches the field of its kind, so that the entry reads as a masked one; its reconvergence address is then four times the lanes
of the division, which is where the `brp` goes on. -/
def wideNumber : State :=
  let s := State.reset.placed 32 0
  { s with
    me := { s.me with pc := 0x3FFFFFFE8#64, status := .wait [.number] (.brp 1#32 0x20000#64 0x003FFFFFFFFFFFFC#64) },
    fabric := [⟨0, 0, 0, .numAns s.me.id (some 16)⟩] }

theorem wideNumber_entry_is_masked :
    let e := reconvEntry (ownBit 0 ||| ownBit 16) 0 16 (BitVec.allOnes 32) 0#64
    e.kind = 3 ∧ e.rpc = wideNumber.me.pc + 20#64 := by decide

/-- The masked steps that end at once take the entry off the stack. -/
theorem wideNumber_division : ∃ t, exec (.division wideNumber.me.id) wideNumber = .next t ∧ t.win.entries = [] :=
  ⟨_, rfl, by decide +kernel⟩

/-- Refutes O34: the answer's number is any natural number there, and 16 makes of the reconvergence entry a masked one, which the
masked steps after the `brp` consume, so that the parent does not own it. -/
theorem not_splitsDivide : ¬ Obligations.SplitsDivide := by
  rintro ⟨-, divides⟩
  have answered : ∃ g, wideNumber.takePacket (fun p => match p with | .numAns i _ => i == wideNumber.me.id | _ => false)
      wideNumber.gr.base wideNumber.me.stack = some (.numAns wideNumber.me.id (some 16), g) := ⟨_, rfl⟩
  obtain ⟨g, hg⟩ := answered
  have slots : pickSlots (wideNumber.takenSlots wideNumber.me.stack wideNumber.me.core) wideNumber.gr.shadow = some (1, none) := by
    decide
  obtain ⟨t, ht, -, -, -, -, owned, -⟩ := (divides wideNumber wideNumber wideNumber.me.id 1#32 0x20000#64 0x003FFFFFFFFFFFFC#64 [] (some 16) g
    rfl rfl rfl hg rfl rfl (fun _ h => nomatch h) (by decide)).2 16 1 none rfl slots
  obtain ⟨u, hu, hnone⟩ := wideNumber_division
  cases ht.symm.trans hu
  rw [hnone] at owned
  cases owned

end Sys2Proof.Machine
end

section
/-! PROOF. An `exit` of some lanes just before the reconvergence address of a masked entry (R47, R139). -/
namespace Sys2Proof.Machine

/-- A split at an `exit` of its lane 0, whose newest entry is a masked one that ends after the `exit` and defers lane 1. -/
def exitBeforeReconvergence : State :=
  let s := State.reset.placed 32 0
  { s with
    me := { s.me with preds := vset s.me.preds 0 1#32 },
    win := { s.win with entries := [maskedEntry 1#4 false (s.me.pc + 4#64) 8 2#32] } }

/-- After the `exit` the masked step of R47 runs the deferred lane in place of the lanes that are left. -/
theorem exitBeforeReconvergence_act :
    ∃ t, exec (.exit ⟨0, true⟩) exitBeforeReconvergence = .next t ∧ t.me.act = 2#32 := ⟨_, rfl, by decide +kernel⟩

/-- Refutes O18: the lanes of a split after an `exit` of some of them are the others only where no masked entry ends there; here
one does, and its deferred lane runs next. -/
theorem not_waitsExitsAndJoins : ¬ Obligations.WaitsExitsAndJoins := by
  rintro ⟨-, exits⟩
  have acts : exitBeforeReconvergence.Acts ⟨0, true⟩ := ⟨by decide, .inr (by decide)⟩
  have drained : exitBeforeReconvergence.Drained := ⟨⟨rfl, rfl, rfl, rfl⟩, rfl, rfl⟩
  have room : exitBeforeReconvergence.trackerFull exitBeforeReconvergence.me.stack = false := decide_eq_false (Nat.not_lt_zero _)
  obtain ⟨t, ht, hact, -⟩ := (exits exitBeforeReconvergence ⟨0, true⟩ 0 0 acts drained).1 room (by decide)
  obtain ⟨u, hu, hlanes⟩ := exitBeforeReconvergence_act
  cases ht.symm.trans hu
  rw [hlanes] at hact
  exact absurd hact (by decide)

end Sys2Proof.Machine
end

section
/-! PROOF. Packets at their home: what taking one from the mesh, a write and a change of one split leave of each field. -/
namespace Sys2Proof.Machine

/-- A packet that has reached its home leaves the mesh, and nothing changes but the fabric and the counts of link retries. -/
theorem head_shape {s u : State} {a b : Nat} {pl : Payload} (h : s.head a b = some (pl, u)) :
    ∃ ls fab, u = { s.withLinks ls with fabric := fab } := by
  unfold State.head at h
  split at h
  · exact takePacket_shape h
  · cases h

theorem head_mem {s u : State} {a b : Nat} {pl : Payload} (h : s.head a b = some (pl, u)) : u.mem = s.mem := by
  obtain ⟨ls, fab, rfl⟩ := head_shape h; rfl

/-- A write wakes splits and breaks reservations; every split keeps its name. -/
theorem written_shape (s : State) (pa n : Nat) : ∃ f st, (∀ w : Split, (f w).id = w.id)
    ∧ s.written pa n = { s with me := f s.me, splits := s.splits.map f, stks := st } := by
  have wakes (is : List Nat) (u : State) : ∃ f, (∀ w : Split, (f w).id = w.id)
      ∧ is.foldl (fun u i => u.mapSplits (wakeLine (lineOf pa + i))) u = { u with me := f u.me, splits := u.splits.map f } := by
    induction is generalizing u with
    | nil => exact ⟨id, fun _ => rfl, by rw [List.map_id]; rfl⟩
    | cons i is ih =>
      obtain ⟨f, hid, hf⟩ := ih (u.mapSplits (wakeLine (lineOf pa + i)))
      refine ⟨fun w => f (wakeLine (lineOf pa + i) w), fun w => ?_, ?_⟩
      · rw [hid]; unfold wakeLine; split <;> rfl
      · rw [List.foldl_cons, hf]
        simp only [State.mapSplits, List.map_map, Function.comp_def]
  obtain ⟨f, hid, hf⟩ := wakes (List.range (ceilDiv (pa % 64 + n) 64))
    (s.onStk (homeStack pa) fun q => { q with resv := q.resv.filter fun (r : Resv) => !onGranule pa n r.granule })
  exact ⟨f, _, hid, hf⟩

theorem meets_shape (s : State) (k : Nat) (g : Option Nat) : ∃ st, s.meets k g = { s with stks := st } := by
  unfold State.meets
  split
  · exact ⟨s.stks, rfl⟩
  · split
    · exact ⟨s.stks, rfl⟩
    · exact ⟨_, rfl⟩

/-- A number written as bytes is read back as what they hold of it. -/
theorem Memory.read_write_bytesLE {m : Memory} (h : m.wf = true) (pa n x tag : Nat) :
    (m.write pa (bytesLE n x) tag).read pa n = x % 2 ^ (8 * n) := by
  have := read_write h pa (bytesLE n x) tag
  rwa [bytesLE_length, ofBytesLE_map, show (256 : Nat) = 2 ^ 8 from rfl, ← Nat.pow_mul] at this

/-- A change of a split that keeps its name is what is found under the name. -/
theorem split?_onSplit {s : State} {id : Nat} {x : Split} (hid : id ≠ 0) (h : s.split? id = some x) {f : Split → Split}
    (hf : ∀ w, (f w).id = w.id) : (s.onSplit id f).split? id = some (f x) := by
  have found (l : List Split) : (l.map fun w => if w.id = id then f w else w).find? (·.id == id) = (l.find? (·.id == id)).map f := by
    rw [List.find?_map]
    have : ((fun w : Split => w.id == id) ∘ fun w => if w.id = id then f w else w) = fun w => w.id == id := by
      funext w
      by_cases hw : w.id = id <;> simp [hw, hf]
    rw [this]
    cases hl : l.find? (·.id == id) with
    | none => rfl
    | some w =>
      have hw : w.id = id := by simpa using List.find?_some hl
      simp [hw]
  unfold State.split? State.allSplits at h ⊢
  unfold State.onSplit
  by_cases hme : s.me.id = id
  · have hx : s.me = x := by
      rw [if_neg (hme ▸ hid), List.find?_cons_of_pos (by simpa using hme)] at h
      exact Option.some.inj h
    have hfx : (f x).id = id := by rw [hf, ← hx, hme]
    rw [if_pos hme, hx]
    dsimp only
    rw [if_neg (hfx ▸ hid), List.find?_cons_of_pos (by simpa using hfx)]
  · rw [if_neg hme]
    dsimp only
    split at h
    next h0 => rw [if_pos h0, found, h]; rfl
    next h0 =>
      rw [List.find?_cons_of_neg (by simpa using hme)] at h
      rw [if_neg h0, List.find?_cons_of_neg (by simpa using hme), found, h]
      rfl

end Sys2Proof.Machine
end

section
/-! PROOF. Posts at their home, their acknowledgements, probes and answers (R43 to R45, R219, R460). -/
namespace Sys2Proof.Machine

/-! ### A post at its home (R43, R460) -/

section
variable {f : State} {src dst w gid asid no : Nat} {who : Nat × Nat × Nat} {op : Option (AtOp × Bool)} {ty : MTy} {pa pois : Nat}
  {data : BitVec 128} {kin : List Nat}

/-- Nothing is left that a post has to wait for at its home. -/
structure State.LetsPost (f : State) (dst w pa n : Nat) : Prop where
  contexts : ∀ later, f.contextFirst dst f.nextId pa n later = false
  holdoff : f.heldOff pa n (some w) = false
  host : f.hostWaits pa true = false

/-- The value that a post leaves at its address (R219). -/
def postValue (op : Option (AtOp × Bool)) (ty : MTy) (old : Nat) (data : BitVec 128) : Nat := match op with
  | none => data.toNat
  | some (g, sat) => atomicNew g ty sat old (data.toNat % 2 ^ (8 * ty.size)) 0

theorem performPost_lands (h : f.LetsPost dst w pa ty.size) (hp : f.mem.poisoned pa = false) :
    f.performPost src dst w gid who asid op ty pa pois data [] no kin =
      some ((State.meets { f.written pa ty.size with
        mem := f.mem.write pa (bytesLE ty.size (postValue op ty (f.mem.read pa ty.size) data)) asid } dst (some who.1)).send
        dst src (.postAck gid no false)) := by
  have hlog : f.logPois pa pois = f := by unfold State.logPois; rw [hp]; rfl
  have hsame : (if op.isSome then f.logPois pa pois else f) = f := by rw [hlog, ite_self]
  unfold State.performPost
  simp only [h.contexts, h.holdoff, h.host, List.any_nil, Bool.or_false, Bool.false_eq_true, if_false]
  unfold State.readHome State.writeHome
  simp only [hp, Bool.false_eq_true, if_false, hsame, bytesLE_length]
  cases op <;> rfl

theorem performPost_fails (h : f.LetsPost dst w pa ty.size) (hp : f.mem.poisoned pa = true) :
    f.performPost src dst w gid who asid op ty pa 0 data [] no kin =
      some ((f.postFailure dst who asid pa).send dst src (.postAck gid no true)) := by
  unfold State.performPost
  simp only [h.contexts, h.holdoff, h.host, List.any_nil, Bool.or_false, Bool.false_eq_true, if_false]
  unfold State.readHome
  simp [hp]

end

theorem served_awake {s : State} {k : Nat} (h : (s.stk k).pstate = 0) (t : State) : s.served k t = t := if_pos h

theorem exec_post {s f t : State} {src dst w gid asid no : Nat} {who : Nat × Nat × Nat} {op : Option (AtOp × Bool)} {ty : MTy}
    {pa pois : Nat} {data : BitVec 128} {after kin : List Nat}
    (h : s.head src dst = some (.post w gid who asid op ty pa data pois after no kin, f)) (hk : (s.stk dst).pstate = 0)
    (ht : f.performPost src dst w gid who asid op ty pa pois data after no kin = some t) :
    exec (.post src dst) s = .next t := by
  show execPost src dst s = _
  unfold execPost
  rw [h]
  dsimp only
  rw [served_awake hk, ht]
  rfl

/-- What a post that has been performed leaves: its bytes, every other byte, and its acknowledgement on the way. -/
theorem post_landed {f : State} (h : f.mem.wf = true) (src dst gid asid no pa n x : Nat) (grid : Option Nat) :
    let t := (State.meets { f.written pa n with mem := f.mem.write pa (bytesLE n x) asid } dst grid).send dst src (.postAck gid no false)
    t.mem.read pa n = x % 2 ^ (8 * n) ∧ (∀ a, a < pa ∨ pa + n ≤ a → t.mem.byte a = f.mem.byte a)
      ∧ t.fabric = f.fabric ++ [⟨dst, src, dst, .postAck gid no false⟩] := by
  obtain ⟨g, st, -, hw⟩ := written_shape f pa n
  obtain ⟨st', hm⟩ := meets_shape { f.written pa n with mem := f.mem.write pa (bytesLE n x) asid } dst grid
  intro t
  have ht : t = State.send { f.written pa n with mem := f.mem.write pa (bytesLE n x) asid, stks := st' } dst src (.postAck gid no false) := by
    show State.send (State.meets _ _ _) _ _ _ = _
    rw [hm]
  have hmem : t.mem = f.mem.write pa (bytesLE n x) asid := by rw [ht]; rfl
  refine ⟨by rw [hmem]; exact Memory.read_write_bytesLE h _ _ _ _, fun a ha => ?_, ?_⟩
  · rw [hmem, Memory.byte_write h, if_neg]
    rw [bytesLE_length]; omega
  · rw [ht, hw]; rfl

/-! ### Acknowledgements (R44, R460) -/

theorem answerProbes_none {s : State} {k : Nat} (h : (s.stk k).probed = []) : s.answerProbes k = s := by
  unfold State.answerProbes; rw [h]; rfl

theorem stk_onStk_same (s : State) {k : Nat} (hk : k < 16) (f : StackSt → StackSt) : (s.onStk k f).stk k = f (s.stk k) := by
  rw [stk_onStk s hk, if_pos rfl]

theorem acked_frees {f : State} {k : Nat} (hk : k < 16) (hp : (f.stk k).probed = []) (gid no : Nat) (failed : Bool) :
    let t := f.acked k gid no failed
    (t.stk k).tracker = (f.stk k).tracker.filter (· != (gid, no)) ∧ (failed = true → gid ∈ (t.stk k).failed) ∧ t.mem = f.mem := by
  intro t
  have ht : t = f.onStk k fun q => { q with
      tracker := q.tracker.filter (· != (gid, no)),
      failed := if failed && !q.failed.contains gid then q.failed ++ [gid] else q.failed } :=
    answerProbes_none (by rw [stk_onStk_same f hk]; exact hp)
  rw [ht, stk_onStk_same f hk]
  refine ⟨rfl, fun hf => ?_, rfl⟩
  dsimp only
  by_cases hin : gid ∈ (f.stk k).failed <;> simp [hf, hin]

/-! ### Probes and their answers (R45, R460) -/

/-- A probe of a group that the stack tracks no post of is answered at once. -/
theorem probe_answered {f : State} {k : Nat} (hk : k < 16) (hp : (f.stk k).probed = []) (src w gid : Nat)
    (hno : ∀ e ∈ (f.stk k).tracker, e.1 ≠ gid) :
    let t := (f.onStk k fun q => { q with probed := q.probed ++ [(src, w, gid, f.nextId)] }).answerProbes k
    t.mem = f.mem ∧ t.fabric = f.fabric ++ [⟨k, src, k, .probeAnswer w k ((f.stk k).failed.contains gid)⟩] := by
  have hst := stk_onStk_same f hk fun q => { q with probed := q.probed ++ [(src, w, gid, f.nextId)] }
  have hnone : ((f.stk k).tracker.any fun e => e.1 == gid && decide (e.2 < f.nextId)) = false := by
    rw [List.any_eq_false]
    intro e he
    simp [hno e he]
  dsimp only
  unfold State.answerProbes
  rw [hst]
  simp only [hp, List.nil_append, List.foldl_cons, List.foldl_nil, hst, hnone, Bool.false_eq_true, if_false]
  exact ⟨rfl, rfl⟩

/-- What an answer from stack `k` does to the split that has probed. -/
def Split.answered (f : State) (k : Nat) (failed : Bool) (v : Split) : Split :=
  let u := { v with probes := v.probes.filter (· != k), probeFailed := v.probeFailed || failed }
  { u with
    postloc := if k < 16 then u.postloc &&& ~~~(1#16 <<< k) else u.postloc,
    postmod := if u.awaits f (f.locOf k / 16) then u.postmod else u.postmod &&& ~~~(1#64 <<< (f.locOf k / 16)) }

theorem getLsbD_clear {n : Nat} (x : BitVec n) (k j : Nat) (hj : j < n) :
    (x &&& ~~~(BitVec.ofNat n 1 <<< k)).getLsbD j = (x.getLsbD j && j != k) := by
  have hone : (BitVec.ofNat n 1 <<< k).getLsbD j = decide (j = k) := by
    rw [← BitVec.twoPow_eq, BitVec.getLsbD_twoPow, Bool.eq_iff_iff]
    simp
    omega
  rw [BitVec.getLsbD_and, BitVec.getLsbD_not, hone, decide_eq_true hj, Bool.true_and]
  rfl

theorem answered_postloc (f : State) (k : Nat) (failed : Bool) (v : Split) (j : Nat) (hj : j < 16) :
    (v.answered f k failed).postloc.getLsbD j = (v.postloc.getLsbD j && j != k) := by
  show (if k < 16 then v.postloc &&& ~~~(1#16 <<< k) else v.postloc).getLsbD j = _
  split
  · exact getLsbD_clear _ _ _ hj
  · have : (j != k) = true := by rw [bne_iff_ne]; omega
    rw [this, Bool.and_true]

theorem answered_postmod (f : State) (k : Nat) (failed : Bool) (v : Split) (m : Nat) (hm : m < 64) :
    (v.answered f k failed).postmod.getLsbD m = (v.postmod.getLsbD m
      && (m != f.locOf k / 16 || (v.probes.filter (· != k)).any fun j => f.locOf j / 16 == m)) := by
  show (if (v.probes.filter (· != k)).any (fun j => f.locOf j / 16 == f.locOf k / 16) then v.postmod
    else v.postmod &&& ~~~(1#64 <<< (f.locOf k / 16))).getLsbD m = _
  by_cases h : m = f.locOf k / 16
  · subst h
    split
    next ha => rw [ha, Bool.or_true, Bool.and_true]
    next ha =>
      rw [getLsbD_clear _ _ _ hm, Bool.eq_false_iff.mpr ha, Bool.or_false]
  · have hne : (m != f.locOf k / 16) = true := bne_iff_ne.mpr h
    rw [hne, Bool.true_or, Bool.and_true]
    split
    · rfl
    · rw [getLsbD_clear _ _ _ hm, hne, Bool.and_true]

theorem onSplit_mem (s : State) (id : Nat) (f : Split → Split) : (s.onSplit id f).mem = s.mem := by
  unfold State.onSplit; split <;> rfl

theorem postsArePerformedAndProbed : Claims.PostsArePerformedAndProbed := by
  intro s f src dst w gid asid who op ty pa pois no k data after kin failed hdst hwf headed awake
  refine ⟨?_, ?_, ?_, ?_, ?_⟩
  · intro h hk hafter hctx hhold hhost hpois
    subst hafter
    have lands := performPost_lands (src := src) (gid := gid) (who := who) (asid := asid) (op := op) (pois := pois) (data := data)
      (no := no) (kin := kin) ⟨hctx, hhold, hhost⟩ hpois
    refine ⟨_, exec_post h hk lands, ?_⟩
    have done := post_landed (f := f) (by rw [head_mem h]; exact hwf) src dst gid asid no pa ty.size
      (postValue op ty (f.mem.read pa ty.size) data) (some who.1)
    refine ⟨done.1.trans ?_, done.2⟩
    cases op <;> rfl
  · intro h hk hafter hctx hhold hhost hpois
    subst hafter
    exact ⟨_, exec_post h hk (performPost_fails ⟨hctx, hhold, hhost⟩ hpois), (report_gridsKept f dst 4 who.1 who.2.1 asid who.2.2 8 9 (bytesLE 8 pa)).mem, _,
      sendsRecord_report f hdst 4 _ _ _ _ _ _ _, rfl, rfl⟩
  · intro h hp
    refine ⟨_, ?_, acked_frees hdst hp gid no failed⟩
    show execPostAcknowledgement src dst s = _
    unfold execPostAcknowledgement
    rw [h]
  · intro h hk hp hno
    refine ⟨_, ?_, probe_answered hdst hp src w gid hno⟩
    show execProbe src dst s = _
    unfold execProbe
    rw [h]
    dsimp only
    rw [served_awake hk]
  · intro h x hw hx
    have hexec : exec (.probeAnswer src dst) s = .next (f.onSplit w (Split.answered f k failed)) := by
      show execProbeAnswer src dst s = _
      unfold execProbeAnswer
      rw [h]
      rfl
    exact ⟨_, hexec, onSplit_mem .., _, split?_onSplit hw hx (fun _ => rfl), rfl, answered_postloc f k failed x,
      answered_postmod f k failed x, rfl⟩

end Sys2Proof.Machine
end

section
/-! PROOF. What a translation rests on, a release that has nothing to wait for, and going on after other fields have changed
(R45, R47, R188, R208). -/
namespace Sys2Proof.Machine

/-! ### Translations (R186 to R190, R456) -/

section
variable {s t : State} (hm : t.mem = s.mem) (hs : t.stks = s.stks) (hd : t.md = s.md)
include hm hs hd

omit hd in
theorem tableEntry_congr (k asid l va pa : Nat) : t.tableEntry k asid l va pa = s.tableEntry k asid l va pa := by
  unfold State.tableEntry State.stk
  rw [hm, hs]

theorem walkFrom_congr (k asid va : Nat) (ls : List Nat) (table : Nat) (acc : List WalkEntry) :
    walkFrom t k asid va ls table acc = walkFrom s k asid va ls table acc := by
  have hleaf (e l : Nat) : leafOk t e l = leafOk s e l := by unfold leafOk State.routed State.modno State.dsize; rw [hd]
  have hpointer (e l : Nat) : pointerOk t e l = pointerOk s e l := by unfold pointerOk State.modno; rw [hd]
  induction ls generalizing table acc with
  | nil => rfl
  | cons l ls ih =>
    unfold walkFrom
    rw [tableEntry_congr hm hs]
    split
    · rfl
    · rw [hleaf, hpointer, ih]

/-- A translation rests on memory, the stacks' caches and the module's registers alone. -/
theorem xlate_congr (k c asid : Nat) (need : Need) (align : Nat) (va : Dword) :
    xlate t k c asid need align va = xlate s k c asid need align va := by
  have hwalk (a : Nat) : walk t k asid a = walk s k asid a := by
    have hpointer (e l : Nat) : pointerOk t e l = pointerOk s e l := by unfold pointerOk State.modno; rw [hd]
    unfold walk walkPath
    rw [tableEntry_congr hm hs, hd]
    split
    · rfl
    · rw [hpointer, walkFrom_congr hm hs hd]
  have hleaf (a : Nat) : findLeaf t k c asid a = findLeaf s k c asid a := by
    unfold findLeaf State.core State.stk
    rw [hs, hwalk]
  have hpa (f : Leaf) (a : Nat) : f.pa t k a = f.pa s k a := by unfold Leaf.pa State.locOf State.modno; rw [hd]
  unfold xlate
  simp only [hleaf, hpa]

end

/-! ### Releases (R45, R208) -/

/-- The state after a probe that had no stack to go to. -/
def State.probedNone (s : State) : State := { s with me := { s.me with probes := [], probeFailed := false } }

theorem Released.toksZero {s : State} (h : s.Released) (m : BitVec 8) : s.me.toksZero m = true := by
  unfold Split.toksZero
  rw [h.toks, List.all_eq_true]
  intro k hk
  have : k < 8 := List.mem_range.mp hk
  simp [vget, this]

/-- A release that has nothing to wait for does at once what it waits for. -/
theorem await_released {s : State} (h : s.Released) (k : Cont) :
    s.await releaseWaits k = (s.probedNone.proceed k).getD { s.probedNone with me := { s.probedNone.me with status := .wait [] k } } := by
  have hst := h.status
  have htoks (w : Status) : Split.toksZero { s.me with status := w } 0xFF#8 = true := Released.toksZero h _
  have hprobes (w : Status) : State.probeStacks { s with me := { s.me with status := w } } = [] := by
    unfold State.probeStacks
    simp [h.postloc, h.postmod]
  have hsame : ({ s.me with status := .run, probes := [], probeFailed := false } : Split) = s.probedNone.me := by
    rw [← hst]; rfl
  unfold State.await State.advance releaseWaits State.waitFor
  simp only [State.advanceBy, State.waitOver, htoks, State.sendProbes, hprobes, List.foldl_nil, List.isEmpty_nil, Bool.not_true,
    Bool.false_eq_true, if_false, hsame]
  rfl

/-! ### Going on after other fields have changed (R47, R67) -/

theorem own_congr {s u : State} (hn : u.me.num = s.me.num) (he : u.win.entries = s.win.entries) : u.own = s.own := by
  unfold State.own; rw [hn, he]

/-- The split goes on with the next instruction, whatever has changed beside what says where it stands. -/
theorem retire_goes {s u : State} (h : Hd) (n : Nat) (hpc : u.me.pc = s.me.pc) (ha : u.me.act = s.me.act)
    (hs : u.me.status = s.me.status) (hn : u.me.num = s.me.num) (he : u.win.entries = s.win.entries) :
    GoesTo s (u.retire h n) (s.me.pc + BitVec.ofNat 64 n) := by
  have g := settled_goes (u.stepped n) (h.e || 24 ≤ u.me.runLen + 1)
  have hx : (u.stepped n).me.pc = s.me.pc + BitVec.ofNat 64 n := by rw [State.stepped, ← hpc]
  have hst : s.Straight (s.me.pc + BitVec.ofNat 64 n) → (u.stepped n).Straight (u.stepped n).me.pc := by
    have hown : (u.stepped n).own = s.own := own_congr hn he
    unfold State.Straight
    rw [hown, hx]; exact id
  rw [retire_eq]
  exact
    { pc := fun q => (g.pc (hst q)).trans hx
      act := fun q => (g.act (hst q)).trans ha
      entries := fun q => (g.entries (hst q)).trans he
      status := g.status.trans hs }

theorem Kept.settled {s u : State} (k : Kept s u) (b : Bool) : Kept s (u.settled b) := by
  obtain ⟨a, pc, es, r, n, w, sl, pd, ck, f, h⟩ := settled_shape u b
  rw [h]
  exact ⟨k.regs, k.sregs, k.preds, k.pal, k.seeds, k.range, k.mstep, k.trapinfo, k.exited, k.mem, k.bytes, k.tiles, k.swatch,
    k.splits⟩

theorem Kept.retire {s u : State} (k : Kept s u) (h : Hd) (n : Nat) : Kept s (u.retire h n) := by
  rw [retire_eq]
  refine Kept.settled ?_ _
  exact ⟨k.regs, k.sregs, k.preds, k.pal, k.seeds, k.range, k.mstep, k.trapinfo, k.exited, k.mem, k.bytes, k.tiles, k.swatch,
    k.splits⟩

theorem onPipe_tracker (s : State) {k : Nat} (hk : k < 16) (c p : Nat) (f : Pipe → Pipe) (j : Nat) :
    ((s.onPipe k c p f).stk j).tracker = (s.stk j).tracker := by
  unfold State.onPipe State.onCore
  rw [stk_onStk _ hk]
  split
  next e => subst e; rfl
  · rfl

/-- Going on changes pipes alone on the stacks, and nothing of the fabric or the post mask. -/
theorem retire_posts (s : State) (h : Hd) (n : Nat) (hk : s.me.stack < 16) : (s.retire h n).fabric = s.fabric
    ∧ (s.retire h n).me.postloc = s.me.postloc ∧ ∀ k, ((s.retire h n).stk k).tracker = (s.stk k).tracker := by
  obtain ⟨a, pc, es, r, m, w, sl, pd, ck, f, hsh⟩ := settled_shape (s.stepped n) (h.e || 24 ≤ s.me.runLen + 1)
  rw [retire_eq, hsh]
  exact ⟨rfl, rfl, fun j => onPipe_tracker (s.stepped n) hk _ _ f j⟩

end Sys2Proof.Machine
end

section
/-! PROOF. The issue of posts (R43, R44, R219, R451). -/
namespace Sys2Proof.Machine

/-! ### The operation of a post (R204, R458) -/

theorem xl_fresh427 (s : State) : s.fresh427.xl = s.xl := by
  funext rd wr al va
  exact xlate_congr (s := s) (t := s.fresh427) rfl rfl rfl _ _ _ _ _ _

theorem postOp_fresh427 (s : State) (i : Instr) (h : Hd) : s.fresh427.postOp i h = s.postOp i h := by
  unfold State.postOp
  rw [xl_fresh427]
  generalize s.xl = f
  rfl

/-- The lanes `ls` of an operation translated by `f`, and the lowest lane that faults (R458). -/
def translatedBy (f : Nat → Except TClass Xl) (ls : List Nat) (o : Op) : Op × Option (TClass × Nat) :=
  ls.foldl (fun x l =>
    match f l with
    | .error c => (x.1, match x.2 with | some y => some y | none => some (c, l))
    | .ok y => ({ x.1 with pa := vset x.1.pa l y.pa, pois := vset x.1.pois l y.pois }, x.2)) (o, none)

theorem postOp_eq {s : State} {i : Instr} {h : Hd} {a : Acc} (ha : Acc.of i = some a) :
    s.postOp i h = translatedBy (fun l => s.xl a.rd a.wr a.sz (vget (s.laneOp i h none a).addr l 0#64)) (s.active h).list
      (s.laneOp i h none a) := by
  unfold State.postOp
  rw [ha]
  dsimp only
  generalize s.laneOp i h none a = o
  generalize s.xl a.rd a.wr a.sz = f
  rfl

/-- Lanes that all translate: their addresses stand in the operation, and no lane faults. -/
theorem translatedBy_ok (f : Nat → Except TClass Xl) (x : Nat → Xl) (ls : List Nat) (hls : ∀ l ∈ ls, l < 32) (o : Op)
    (hok : ∀ l ∈ ls, f l = .ok (x l)) :
    ∃ pa pois, translatedBy f ls o = ({ o with pa := pa, pois := pois }, none)
      ∧ (∀ l ∈ ls, vget pa l 0 = (x l).pa ∧ vget pois l 0 = (x l).pois)
      ∧ ∀ l ∉ ls, vget pa l 0 = vget o.pa l 0 ∧ vget pois l 0 = vget o.pois l 0 := by
  induction ls generalizing o with
  | nil => exact ⟨o.pa, o.pois, rfl, by simp, fun _ _ => ⟨rfl, rfl⟩⟩
  | cons l ls ih =>
    have hl : l < 32 := hls l List.mem_cons_self
    obtain ⟨pa, pois, hfold, hin, hout⟩ := ih (fun j hj => hls j (List.mem_cons_of_mem _ hj))
      { o with pa := vset o.pa l (x l).pa, pois := vset o.pois l (x l).pois } fun j hj => hok j (List.mem_cons_of_mem _ hj)
    refine ⟨pa, pois, ?_, fun j hj => ?_, fun j hj => ?_⟩
    · unfold translatedBy
      rw [List.foldl_cons]
      dsimp only
      rw [hok l List.mem_cons_self]
      exact hfold
    · by_cases hjs : j ∈ ls
      · exact hin j hjs
      · obtain rfl : j = l := (List.mem_cons.mp hj).resolve_right hjs
        obtain ⟨h1, h2⟩ := hout j hjs
        dsimp only at h1 h2
        rw [vget_vset _ _ _ _ _ hl, if_pos rfl] at h1 h2
        exact ⟨h1, h2⟩
    · obtain ⟨hne, hjs⟩ := not_or.mp fun e => hj (List.mem_cons.mpr e)
      obtain ⟨h1, h2⟩ := hout j hjs
      dsimp only at h1 h2
      rw [vget_vset _ _ _ _ _ hl, if_neg hne] at h1 h2
      exact ⟨h1, h2⟩

theorem list_lt (m : Mask) : ∀ l ∈ m.list, l < 32 := fun _ hl => List.mem_range.mp (List.mem_of_mem_filter hl)

/-- A post whose lanes all translate: their addresses stand in its operation, and no check fails. -/
theorem postOp_translated {s : State} {i : Instr} {h : Hd} {a : Acc} {x : Nat → Xl} (ha : Acc.of i = some a)
    (hx : ∀ l ∈ (s.active h).list, s.xl a.rd a.wr a.sz (s.addrAt a.m a.sz l) = .ok (x l)) :
    ∃ pa pois, s.postOp i h = ({ s.laneOp i h none a with pa := pa, pois := pois }, none)
      ∧ ∀ l ∈ (s.active h).list, vget pa l 0 = (x l).pa ∧ vget pois l 0 = (x l).pois := by
  have addrs : ∀ l ∈ (s.active h).list, vget (s.laneOp i h none a).addr l 0#64 = s.addrAt a.m a.sz l := fun l hl => by
    simp [State.laneOp, vget, list_lt (s.active h) l hl]
  rw [postOp_eq ha]
  obtain ⟨pa, pois, hfold, hin, -⟩ := translatedBy_ok (fun l => s.xl a.rd a.wr a.sz (vget (s.laneOp i h none a).addr l 0#64)) x
    (s.active h).list (list_lt _) (s.laneOp i h none a) fun l hl => (congrArg _ (addrs l hl)).trans (hx l hl)
  exact ⟨pa, pois, hfold, hin⟩

/-! ### Posts leave (R43, R44, R219) -/

/-- The packet of a post of the split in focus with the number `no`. -/
def State.postPacket (s : State) (op : Option (AtOp × Bool)) (ty : MTy) (pa pois : Nat) (data : BitVec 128) (no : Nat) : Packet :=
  ⟨s.me.stack, s.nameOf (homeOf pa), s.me.stack, .post s.me.id s.gr.id (s.gr.grid, s.gr.team, s.gr.grp) s.me.asid op ty pa data
    pois (s.me.ops.map fun e => e.id) no [s.me.id]⟩

/-- The state after the split in focus has sent a post: the tracker of its stack has one entry more. -/
def State.afterPost (s : State) (p : Nat → Packet) : State :=
  { (s.onStk s.me.stack fun q => { q with tracker := q.tracker ++ [(s.gr.id, s.nextId)] }) with
    nextId := s.nextId + 1, me := { s.me with postloc := s.me.postloc ||| (1#16 <<< s.me.stack) },
    fabric := s.fabric ++ [p s.nextId] }

theorem sendPost_eq (s : State) (op : Option (AtOp × Bool)) (ty : MTy) (pa pois : Nat) (data : BitVec 128) :
    s.sendPost op ty pa pois data = s.afterPost (s.postPacket op ty pa pois data) := rfl

/-- From `s` to `t` posts with the packets `ps` have left, numbered from the next unused id on. -/
structure PostsLeft (s t : State) (ps : List (Nat → Packet)) : Prop where
  rest : t = { s with nextId := t.nextId, me := { s.me with postloc := t.me.postloc }, stks := t.stks, fabric := t.fabric }
  postloc : t.me.postloc = if ps.isEmpty then s.me.postloc else s.me.postloc ||| (1#16 <<< s.me.stack)
  tracker : (t.stk s.me.stack).tracker = (s.stk s.me.stack).tracker ++ ps.mapIdx fun j _ => (s.gr.id, s.nextId + j)
  fabric : t.fabric = s.fabric ++ ps.mapIdx fun j p => p (s.nextId + j)

theorem mapIdx_cons_add {α β : Type} (f : Nat → α → β) (n : Nat) (a : α) (as : List α) :
    (a :: as).mapIdx (fun j b => f (n + j) b) = f n a :: as.mapIdx fun j b => f (n + 1 + j) b := by
  rw [List.mapIdx_cons]
  simp only [Nat.add_zero, Nat.add_assoc, Nat.add_comm 1]

/-- A post sent before others leaves before them. -/
theorem PostsLeft.cons {s t : State} {p : Nat → Packet} {ps : List (Nat → Packet)} (hk : s.me.stack < 16)
    (h : PostsLeft (s.afterPost p) t ps) : PostsLeft s t (p :: ps) := by
  obtain ⟨rest, postloc, tracker, fabric⟩ := h
  refine ⟨rest, postloc.trans ?_, ?_, ?_⟩
  · have twice : s.me.postloc ||| (1#16 <<< s.me.stack) ||| (1#16 <<< s.me.stack) = s.me.postloc ||| (1#16 <<< s.me.stack) := by
      rw [BitVec.or_assoc, BitVec.or_self]
    show (if ps.isEmpty then s.me.postloc ||| (1#16 <<< s.me.stack)
      else s.me.postloc ||| (1#16 <<< s.me.stack) ||| (1#16 <<< s.me.stack)) = s.me.postloc ||| (1#16 <<< s.me.stack)
    rw [twice, ite_self]
  · have hst : ((s.afterPost p).stk s.me.stack).tracker = (s.stk s.me.stack).tracker ++ [(s.gr.id, s.nextId)] :=
      congrArg StackSt.tracker (stk_onStk_same s hk fun q => { q with tracker := q.tracker ++ [(s.gr.id, s.nextId)] })
    refine tracker.trans ?_
    rw [mapIdx_cons_add (fun n _ => (s.gr.id, n)) s.nextId p ps]
    refine (congrArg (· ++ _) hst).trans ?_
    rw [List.append_assoc]
    rfl
  · rw [mapIdx_cons_add (fun n (q : Nat → Packet) => q n) s.nextId p ps]
    refine fabric.trans ?_
    exact List.append_assoc _ _ _

/-- Posts sent one after the other leave in their order. -/
theorem sendPost_foldl (op : Option (AtOp × Bool)) (ty : MTy) (pa pois : Nat → Nat) (data : Nat → BitVec 128) (ls : List Nat)
    (s : State) (hk : s.me.stack < 16) :
    PostsLeft s (ls.foldl (fun (t : State) l => t.sendPost op ty (pa l) (pois l) (data l)) s)
      (ls.map fun l => s.postPacket op ty (pa l) (pois l) (data l)) := by
  induction ls generalizing s with
  | nil => exact ⟨rfl, rfl, by simp, by simp⟩
  | cons l ls ih =>
    rw [List.foldl_cons, sendPost_eq, List.map_cons]
    exact (ih (s.afterPost _) hk).cons hk

end Sys2Proof.Machine
end

section
/-! PROOF. Posts leave in lane order, or stay outstanding where a redundant pair differs (R43, R44, R219, R451). -/
namespace Sys2Proof.Machine

/-- The operation and type of an instruction that sends posts. -/
def postOf : Instr → Option (Option (AtOp × Bool) × MTy)
  | .stp _ _ ty _ _ => some (none, ty)
  | .atp _ _ op ty sat _ _ => some (some (op, sat), ty)
  | _ => none

/-- The state in which the operation of a post starts: fields of the split in focus that say how it came to its issue differ. -/
def State.readied (s : State) (ps : List Nat) (failed : Bool) : State :=
  { s with me := { s.me with resume := 0, stalled := false, probes := ps, probeFailed := failed } }

/-- An operation as it enters the split's list at its start (R124, R230). -/
def State.entering (s : State) (o : Op) : Op := { o with id := s.nextId, acq := false, after := s.me.ops.map fun e => e.id }

theorem differs_congr {s u : State} {o p : Op} (hr : u.me.red = s.me.red) (hi : p.instr = o.instr) (hid : p.id = o.id)
    (hs : p.signed = o.signed) : u.differs p = s.differs o := by
  unfold State.differs; rw [hr, hi, hid, hs]

theorem released_fresh427 {s : State} (h : s.Released) : s.fresh427.Released := ⟨h.status, h.toks, h.postloc, h.postmod⟩

/-- A post with nothing to wait for starts at once, in a state that differs only in how the split came to its issue. -/
theorem posting_starts {s : State} {i : Instr} {h : Hd} {m : Addr} {rd : List Rd} {rel : Bool} (ha : s.Acts h)
    (hf : (s.postOp i h).2 = none) (hrel : rel = true → s.Released) :
    ∃ ps failed, ∀ t, (s.readied ps failed).begin { (s.postOp i h).1 with acq := false } false = some t →
      s.posting i h m rd rel = .next t := by
  have hgate (body : State → State) : s.gate i h { reads := rdAddr m ++ rd, chk := none, arg := 0 } body
      = .next (body s.fresh427) := gate_on ha rfl fun _ e => by cases e
  cases hr : rel with
  | false =>
    refine ⟨s.me.probes, s.me.probeFailed, fun t ht => ?_⟩
    unfold State.posting State.access
    rw [hf]
    refine (hgate _).trans ?_
    dsimp only
    have hbegin : s.fresh427.begin { (s.postOp i h).1 with acq := false } false = some t := ht
    rw [postOp_fresh427, if_neg Bool.false_ne_true, hbegin]
    rfl
  | true =>
    refine ⟨[], false, fun t ht => ?_⟩
    unfold State.posting State.access
    rw [hf]
    refine (hgate _).trans ?_
    dsimp only
    have hproceed : s.fresh427.probedNone.proceed (.start { (s.postOp i h).1 with acq := false }) = some t := ht
    rw [if_pos rfl, postOp_fresh427, await_released (released_fresh427 (hrel hr)), hproceed]
    rfl

theorem sendPosts_eq {o : Op} {op : Option (AtOp × Bool)} {ty : MTy} (hi : postOf o.instr = some (op, ty)) (s : State) :
    s.sendPosts o = o.act.list.foldl
      (fun (t : State) l => t.sendPost op ty (vget o.pa l 0) (vget o.pois l 0) (vget o.data l 0#128)) s := by
  unfold State.sendPosts
  split
  next e => rw [e] at hi; cases hi; rfl
  next e => rw [e] at hi; cases hi; rfl
  next hs ha =>
    exfalso
    unfold postOf at hi
    split at hi
    next e => exact hs _ _ _ _ _ e
    next e => exact ha _ _ _ _ _ _ _ e
    · cases hi

/-- The start of a post: it is held where a redundant pair differs, and sends its posts where the tracker has room. -/
theorem begin_post {s : State} {o : Op} {r : Option (AtOp × Bool) × MTy} (hi : postOf o.instr = some r)
    (hfull : s.trackerFull s.me.stack = false) : s.begin o false =
      if s.spoil.differs (s.entering o) then
        some ((s.spoil.issue (s.entering o).suspect).retire (hdOf o.instr) o.instr.bytes)
      else some ((s.spoil.sendPosts (s.entering o)).retire (hdOf o.instr) o.instr.bytes) := by
  have hspoils : spoils o.instr = true := by
    unfold postOf at hi
    split at hi
    next e => rw [e]; rfl
    next e => rw [e]; rfl
    · cases hi
  have hfull' : s.spoil.trackerFull s.spoil.me.stack = false := hfull
  unfold State.begin
  rw [if_pos hspoils]
  refine if_congr Iff.rfl rfl ?_
  rw [hfull']
  unfold postOf at hi
  split at hi
  next e => simp only [e, State.entering, Bool.false_eq_true, if_false]; rfl
  next e => simp only [e, State.entering, Bool.false_eq_true, if_false]; rfl
  · cases hi

theorem stateOf_fault_redund : stateOf (statFault .redund) = 3 := by decide

theorem stateOf_pending : stateOf statPending = 2 := by decide

/-- Where the pair differs, every lane of the operation stands at STATE 3 (R451). -/
theorem suspect_stateAt {o : Op} {l : Nat} (hl : l < 32) (hp : vget o.stat l 0#8 = statPending) : o.suspect.stateAt l = 3 := by
  unfold Op.stateAt Op.suspect
  dsimp only
  rw [vget_map _ _ _ hl 0#8 _, hp, stateOf_pending, if_pos rfl, stateOf_fault_redund]

/-- A post whose lanes all translate, with an operation that has its addresses and its data. -/
structure PostMade (s : State) (i : Instr) (h : Hd) (o : Op) (x : Nat → Xl) : Prop where
  instr : o.instr = i
  id : o.id = s.nextId
  act : o.act = s.active h
  tok : o.tok = none
  pending : ∀ l ∈ (s.active h).list, vget o.stat l 0#8 = statPending
  pa : ∀ l ∈ (s.active h).list, vget o.pa l 0 = (x l).pa
  pois : ∀ l ∈ (s.active h).list, vget o.pois l 0 = (x l).pois
  data : ∀ l ∈ (s.active h).list, vget o.data l 0#128 = s.dataAt i l

theorem postOp_made {s : State} {i : Instr} {h : Hd} {a : Acc} {x : Nat → Xl} (ha : Acc.of i = some a) (hone : actsOnce i = false)
    (hx : ∀ l ∈ (s.active h).list, s.xl a.rd a.wr a.sz (s.addrAt a.m a.sz l) = .ok (x l)) :
    PostMade s i h (s.postOp i h).1 x ∧ (s.postOp i h).2 = none := by
  obtain ⟨pa, pois, hop, hpa⟩ := postOp_translated ha hx
  rw [hop]
  refine ⟨⟨rfl, rfl, rfl, rfl, fun l hl => ?_, fun l hl => (hpa l hl).1, fun l hl => (hpa l hl).2, fun l hl => ?_⟩, rfl⟩
  · have hin : (s.active h).has l = true := (List.mem_filter.mp hl).2
    simp [State.laneOp, State.newOp, vget, list_lt (s.active h) l hl, hone, hin]
  · simp [State.laneOp, vget, list_lt (s.active h) l hl]

theorem entering_made {s u : State} {i : Instr} {h : Hd} {o : Op} {x : Nat → Xl} (m : PostMade s i h o x)
    (hid : u.nextId = s.nextId) : PostMade s i h (u.entering o) x :=
  ⟨m.instr, hid, m.act, m.tok, m.pending, m.pa, m.pois, m.data⟩

/-- What `stp` and `atp` leave of a state (R219), where `posts` are the packets of the lanes. -/
structure Posts (s t : State) (i : Instr) (ls : List Nat) (posts : Nat → Nat → Packet) (differ : Bool) : Prop where
  kept : Kept s t
  goes : GoesTo s t (s.me.pc + BitVec.ofNat 64 i.bytes)
  toks : t.me.toks = s.me.toks
  held : differ = true → t.fabric = s.fabric ∧ ∃ p, t.me.ops = s.me.ops ++ [p] ∧ p.instr = i ∧ ∀ l ∈ ls, p.stateAt l = 3
  sent : differ = false → t.me.ops = s.me.ops ∧ t.me.postloc = s.me.postloc ||| (1#16 <<< s.me.stack)
    ∧ (t.stk s.me.stack).tracker = (s.stk s.me.stack).tracker ++ ls.mapIdx (fun j _ => (s.gr.id, s.nextId + j))
    ∧ t.fabric = s.fabric ++ ls.mapIdx fun j l => posts (s.nextId + j) l

/-- The instruction retires from `w`, where its posts are sent or its operation is held: the split goes on. -/
theorem posts_of_retire {s w : State} {i : Instr} {ls : List Nat} {posts : Nat → Nat → Packet} {differ : Bool}
    (hk : w.me.stack < 16) (kept : Kept s w) (hpc : w.me.pc = s.me.pc) (hact : w.me.act = s.me.act)
    (hst : w.me.status = s.me.status) (hn : w.me.num = s.me.num) (he : w.win.entries = s.win.entries)
    (htoks : w.me.toks = s.me.toks)
    (held : differ = true → w.fabric = s.fabric ∧ ∃ p, w.me.ops = s.me.ops ++ [p] ∧ p.instr = i ∧ ∀ l ∈ ls, p.stateAt l = 3)
    (sent : differ = false → w.me.ops = s.me.ops ∧ w.me.postloc = s.me.postloc ||| (1#16 <<< s.me.stack)
      ∧ (w.stk s.me.stack).tracker = (s.stk s.me.stack).tracker ++ ls.mapIdx (fun j _ => (s.gr.id, s.nextId + j))
      ∧ w.fabric = s.fabric ++ ls.mapIdx fun j l => posts (s.nextId + j) l) :
    Posts s (w.retire (hdOf i) i.bytes) i ls posts differ := by
  obtain ⟨toks, ops, -⟩ := retire_keeps w (hdOf i) i.bytes
  obtain ⟨fabric, postloc, tracker⟩ := retire_posts w (hdOf i) i.bytes hk
  refine ⟨kept.retire _ _, retire_goes _ _ hpc hact hst hn he, toks.trans htoks, fun hd => ?_, fun hd => ?_⟩
  · rw [fabric, ops]; exact held hd
  · rw [fabric, ops, postloc, tracker]; exact sent hd

theorem list_ne_nil {m : Mask} (h : m ≠ 0#32) : m.list ≠ [] := by
  intro hnil
  refine h (BitVec.eq_of_getLsbD_eq fun l hl => ?_)
  have hnot := List.filter_eq_nil_iff.mp hnil l (List.mem_range.mpr hl)
  rw [BitVec.getLsbD_zero]
  exact Bool.eq_false_iff.mpr hnot

theorem mapIdx_of_map {α β γ : Type} (f : α → β) (g : Nat → β → γ) (as : List α) :
    (as.map f).mapIdx g = as.mapIdx fun j a => g j (f a) := List.ext_getElem (by simp) (by simp)

theorem begin_posts {s : State} {ps : List Nat} {failed : Bool} {i : Instr} {h : Hd} {o : Op} {x : Nat → Xl}
    {op : Option (AtOp × Bool)} {ty : MTy} (m : PostMade s i h o x) (hi : postOf i = some (op, ty)) (ha : s.active h ≠ 0#32)
    (hk : s.me.stack < 16) (hfull : s.trackerFull s.me.stack = false) :
    ∃ t, (s.readied ps failed).begin o false = some t ∧ Posts s t i (s.active h).list
      (fun no l => s.postPacket op ty (x l).pa (x l).pois (s.dataAt i l) no) (s.differs o) := by
  have hpost : postOf o.instr = some (op, ty) := by rw [m.instr]; exact hi
  have hdiff : (s.readied ps failed).spoil.differs ((s.readied ps failed).entering o) = s.differs o :=
    differs_congr rfl rfl m.id.symm rfl
  have m' : PostMade s i h ((s.readied ps failed).entering o) x := entering_made m rfl
  rw [begin_post (s := s.readied ps failed) hpost hfull, hdiff, m.instr]
  generalize (s.readied ps failed).entering o = e at m'
  cases hd : s.differs o with
  | true =>
    refine ⟨_, rfl, ?_⟩
    rw [issue_none _ (show e.suspect.tok = none from m'.tok)]
    exact posts_of_retire hk ⟨rfl, rfl, rfl, rfl, rfl, rfl, rfl, rfl, rfl, rfl, fun _ => rfl, rfl, rfl, rfl⟩ rfl rfl rfl rfl rfl rfl
      (fun _ => ⟨rfl, e.suspect, rfl, m'.instr, fun l hl => suspect_stateAt (list_lt (s.active h) l hl) (m'.pending l hl)⟩)
      fun hf => nomatch hf
  | false =>
    refine ⟨_, rfl, ?_⟩
    have hfold : (s.readied ps failed).spoil.sendPosts e = (s.active h).list.foldl
        (fun (t : State) l => t.sendPost op ty (x l).pa (x l).pois (s.dataAt i l)) (s.readied ps failed).spoil := by
      rw [sendPosts_eq (by rw [m'.instr]; exact hi), m'.act]
      exact List.foldl_ext _ _ _ fun t l hl => by rw [m'.pa l hl, m'.pois l hl, m'.data l hl]
    rw [hfold]
    obtain ⟨rest, postloc, tracker, fabric⟩ := sendPost_foldl op ty (fun l => (x l).pa) (fun l => (x l).pois) (s.dataAt i)
      (s.active h).list (s.readied ps failed).spoil hk
    generalize (s.active h).list.foldl _ _ = w at rest postloc tracker fabric ⊢
    have hme : w.me = { (s.readied ps failed).spoil.me with postloc := w.me.postloc } := by rw [rest]
    have hwin : w.win = s.win := by rw [rest]; rfl
    have hmem : w.mem = s.mem := by rw [rest]; rfl
    have hgr : w.gr = s.gr := by rw [rest]; rfl
    have hsplits : w.splits = s.splits := by rw [rest]; rfl
    have hne : ((s.active h).list.map fun l =>
        (s.readied ps failed).spoil.postPacket op ty (x l).pa (x l).pois (s.dataAt i l)).isEmpty = false := by
      rw [List.isEmpty_eq_false_iff, ne_eq, List.map_eq_nil_iff]
      exact list_ne_nil ha
    rw [hne] at postloc
    refine posts_of_retire (by rw [hme]; exact hk)
      ⟨congrArg _ hwin, by rw [hme]; rfl, by rw [hme]; rfl, by rw [hme]; rfl, by rw [hme]; rfl, by rw [hme]; rfl, by rw [hme]; rfl,
        by rw [hme]; rfl, by rw [hme]; rfl, hmem, fun a => by rw [hmem], by rw [hgr], by rw [hgr], hsplits⟩
      (by rw [hme]; rfl) (by rw [hme]; rfl) (by rw [hme]; rfl) (by rw [hme]; rfl) (by rw [hwin]) (by rw [hme]; rfl)
      (fun hf => nomatch hf) fun _ => ⟨by rw [hme]; rfl, postloc, ?_, ?_⟩
    · rw [mapIdx_of_map] at tracker
      exact tracker
    · rw [mapIdx_of_map] at fabric
      exact fabric

/-- R43, R44, R219, R451: an instruction that sends posts, where every lane's address translates. -/
theorem posting_answers {s : State} {i : Instr} {h : Hd} {m : Addr} {rd : List Rd} {rel : Bool} {a : Acc} {x : Nat → Xl}
    {op : Option (AtOp × Bool)} {ty : MTy} (hexec : exec i s = s.posting i h m rd rel) (ha : Acc.of i = some a)
    (hi : postOf i = some (op, ty)) (hone : actsOnce i = false) (hacts : s.Acts h) (hk : s.me.stack < 16)
    (hfull : s.trackerFull s.me.stack = false) (hrel : rel = true → s.Released)
    (hx : ∀ l ∈ (s.active h).list, s.xl a.rd a.wr a.sz (s.addrAt a.m a.sz l) = .ok (x l)) :
    Answers i s fun t => Posts s t i (s.active h).list
      (fun no l => s.postPacket op ty (x l).pa (x l).pois (s.dataAt i l) no) (s.differs (s.postOp i h).1) := by
  obtain ⟨hmade, hnone⟩ := postOp_made ha hone hx
  obtain ⟨ps, failed, hstart⟩ := posting_starts (m := m) (rd := rd) hacts hnone hrel
  obtain ⟨t, hbegin, hposts⟩ := begin_posts (ps := ps) (failed := failed)
    (o := { (s.postOp i h).1 with acq := false })
    ⟨hmade.instr, hmade.id, hmade.act, hmade.tok, hmade.pending, hmade.pa, hmade.pois, hmade.data⟩ hi hacts.1 hk hfull
  have hdiff : s.differs { (s.postOp i h).1 with acq := false } = s.differs (s.postOp i h).1 := differs_congr rfl rfl rfl rfl
  rw [hdiff] at hposts
  exact ⟨t, hexec.trans (hstart t hbegin), hposts⟩

/-- R43, R44, R219: posts leave in lane order. -/
theorem postsLeaveInLaneOrder : Claims.PostsLeaveInLaneOrder := by
  intro s h m op ty sat c rel x hacts hk hfull hrel ls posts sent
  have settle (i : Instr) (o : Option (AtOp × Bool)) (data : Nat → BitVec 128) (hdata : s.dataAt i = data)
      (hp : Answers i s fun t => Posts s t i ls (fun no l => s.postPacket o ty (x l).pa (x l).pois (s.dataAt i l) no)
        (s.differs (s.postOp i h).1)) : posts i o data := by
    rw [hdata] at hp
    obtain ⟨t, ht, kept, goes, toks, held, sent⟩ := hp
    refine ⟨t, ht, kept, goes, toks, ?_⟩
    split
    next hd => exact held hd
    next hd => exact sent (Bool.eq_false_iff.mpr hd)
  have hstp : exec (.stp h m ty c rel) s = s.posting (.stp h m ty c rel) h m [.v c.val (regsOf ty.size)] rel.isSome := rfl
  have hatp : exec (.atp h m op ty sat c rel) s
      = s.posting (.atp h m op ty sat c rel) h m [.v c.val (atomicRegs op ty)] rel.isSome := rfl
  exact ⟨fun hx => settle _ _ _ rfl
      (posting_answers (a := ⟨m, ty.size, false, true, false⟩) hstp rfl rfl rfl hacts hk hfull hrel hx),
    fun hx => settle _ _ _ rfl
      (posting_answers (a := ⟨m, ty.size, true, true, false⟩) hatp rfl rfl rfl hacts hk hfull hrel hx)⟩

/-- Settles O26: posts leave in lane order, are performed at their home, and are acknowledged and probed. -/
theorem postsTravelAndLand : Obligations.PostsTravelAndLand := ⟨postsLeaveInLaneOrder, postsArePerformedAndProbed⟩

end Sys2Proof.Machine
end

section
/-! PROOF. The departure of a context (R33 to R38, R216, R447). -/
namespace Sys2Proof.Machine

/-! ### What travels (R33, R37) -/

/-- The registers that the masks of the carried frames name. -/
theorem mem_carried {s : State} {live : Dword} {r : Nat} : r ∈ s.carried live ↔
    ∃ y ∈ framesOf s.me.wbase s.me.frame live s.own.reverse, ∃ k < min y.2.1 64, y.2.2.getLsbD k = true ∧ r = y.1 + k := by
  simp only [State.carried, List.mem_flatten, List.mem_map, List.mem_reverse]
  constructor
  · rintro ⟨l, ⟨y, hy, rfl⟩, hr⟩
    obtain ⟨k, hkb, rfl⟩ := List.mem_map.mp hr
    obtain ⟨hk, hb⟩ := List.mem_filter.mp hkb
    exact ⟨y, hy, k, List.mem_range.mp hk, hb, rfl⟩
  · rintro ⟨y, hy, k, hk, hb, rfl⟩
    exact ⟨_, ⟨y, hy, rfl⟩, List.mem_map.mpr ⟨k, List.mem_filter.mpr ⟨List.mem_range.mpr hk, hb⟩, rfl⟩⟩

/-- The registers of a leg are those of the masks and those that the instruction names (R212). -/
theorem mem_legRegs {s : State} {o : Op} {r : Nat} : r ∈ s.legRegs o ↔
    r ∈ s.carried (liveOf o.instr) ∨ ∃ y ∈ ownRegs o.instr, ∃ k < y.2, r = o.wb + y.1 + k := by
  simp only [State.legRegs, List.mem_eraseDups, List.mem_append, List.mem_flatten, List.mem_map]
  refine or_congr Iff.rfl ⟨?_, ?_⟩
  · rintro ⟨l, ⟨y, hy, rfl⟩, hr⟩
    obtain ⟨k, hk, rfl⟩ := List.mem_map.mp hr
    exact ⟨y, hy, k, List.mem_range.mp hk, rfl⟩
  · rintro ⟨y, hy, k, hk, rfl⟩
    exact ⟨_, ⟨y, hy, rfl⟩, List.mem_map.mpr ⟨k, List.mem_range.mpr hk, rfl⟩⟩

/-! ### The departure -/

/-- A report to the split table changes the group's table or sends a packet. -/
theorem tell_shape (s : State) (n : Nat) (mask : Option Mask) (st join : Nat) :
    ∃ gr gs fb, s.tell n mask st join = { s with gr := gr, groups := gs, fabric := fb } := by
  unfold State.tell State.tellAs State.onGroup
  dsimp only
  split
  · split
    · exact ⟨_, s.groups, s.fabric, rfl⟩
    · exact ⟨s.gr, _, s.fabric, rfl⟩
  · exact ⟨s.gr, s.groups, _, rfl⟩

/-- What a departure from `s` for `home` leaves. -/
structure Departed (s t : State) (why : LegFor) (home : Nat) (regs : List Nat) (pa : Option Nat) : Prop where
  mem : t.mem = s.mem
  split : ∃ pl pm, { s.me with status := .transit, spin := none, wasReady := false, postloc := pl, postmod := pm } ∈ t.splits
  context : ⟨s.me.stack, s.nameOf home, s.me.stack, .context s.me.id
    (regs.map fun r => (r, vget s.win.regs r (Vector.replicate 32 0#32))) s.own pa why⟩ ∈ t.fabric
  resv : ∀ r ∈ (t.stk s.me.stack).resv, r.split ≠ s.me.id
  slots : ∀ q ∈ t.slots, (∃ w ∈ t.splits, w.resident = true ∧ w.home q = true)
    ∧ (s.me.home q = true → q.entries = leaveEntries s.residents s.win.entries s.me.num)

/-- Slots that stand after the sweep hold a split. -/
theorem mem_sweepSlots {s : State} {q : GroupSlot} (h : q ∈ s.sweepSlots.slots) :
    q ∈ s.slots ∧ ∃ w ∈ s.splits, w.resident = true ∧ w.home q = true := by
  obtain ⟨hq, hany⟩ := List.mem_filter.mp h
  obtain ⟨w, hw, hr⟩ := List.any_eq_true.mp hany
  exact ⟨hq, w, hw, Bool.and_eq_true_iff.mp hr⟩

/-- The state whose focus is given up at the end of a departure. -/
theorem depart_shape {s : State} {why : LegFor} {home : Nat} {regs : List Nat} {pa : Option Nat}
    (haway : home ≠ s.locOf s.me.stack) : ∃ v : State, s.depart why home regs pa = v.unfocus.sweepSlots ∧ v.mem = s.mem
      ∧ (∃ pl pm, v.me = { s.me with status := .transit, spin := none, wasReady := false, postloc := pl, postmod := pm })
      ∧ v.win = { s.win with entries := leaveEntries s.residents s.win.entries s.me.num } ∧ v.splits = s.splits
      ∧ v.slots = s.slots
      ∧ v.stks = (s.onStk s.me.stack fun q => { q with resv := q.resv.filter fun r => r.split != s.me.id }).stks
      ∧ ⟨s.me.stack, s.nameOf home, s.me.stack, .context s.me.id
        (regs.map fun r => (r, vget s.win.regs r (Vector.replicate 32 0#32))) s.own pa why⟩ ∈ v.fabric := by
  obtain ⟨gr, gs, fb, htell⟩ := tell_shape s s.me.num none 1 0
  unfold State.depart
  rw [htell]
  dsimp only
  rw [if_neg (show ¬ home = State.locOf _ s.me.stack from haway)]
  exact ⟨_, rfl, rfl, ⟨_, _, rfl⟩, rfl, rfl, rfl, rfl, List.mem_append_right _ (List.mem_singleton.mpr rfl)⟩

theorem depart_departed {s : State} {why : LegFor} {home : Nat} {regs : List Nat} {pa : Option Nat} (hid : s.me.id ≠ 0)
    (hk : s.me.stack < 16) (haway : home ≠ s.locOf s.me.stack) (hslots : ∀ q ∈ s.slots, s.me.home q = false) :
    Departed s (s.depart why home regs pa) why home regs pa := by
  obtain ⟨v, hv, hmem, ⟨pl, pm, hme⟩, hwin, -, hsl, hstks, hfabric⟩ := depart_shape (s := s) (why := why) (regs := regs) (pa := pa) haway
  rw [hv]
  have hsplits : v.unfocus.splits = v.me :: v.splits := if_neg (by rw [hme]; exact hid)
  refine ⟨hmem, ⟨pl, pm, ?_⟩, hfabric, fun r hr => ?_, fun q hq => ?_⟩
  · rw [← hme]
    exact hsplits ▸ List.mem_cons_self
  · have hst : (v.unfocus.sweepSlots.stk s.me.stack).resv = (s.stk s.me.stack).resv.filter fun r => r.split != s.me.id := by
      show (vget v.stks _ _).resv = _
      rw [hstks]
      exact congrArg StackSt.resv (stk_onStk_same s hk _)
    rw [hst] at hr
    exact bne_iff_ne.mp (List.mem_filter.mp hr).2
  · obtain ⟨hq, hown⟩ := mem_sweepSlots hq
    refine ⟨hown, fun hhome => ?_⟩
    have : q = v.win := by
      by_cases hw : v.win.group = 0
      · have hall : v.unfocus.slots = s.slots := (if_pos hw).trans hsl
        rw [hall] at hq
        exact absurd hhome (Bool.eq_false_iff.mp (hslots q hq))
      · have hall : v.unfocus.slots = v.win :: s.slots := (if_neg hw).trans (by rw [hsl])
        rw [hall] at hq
        exact (List.mem_cons.mp hq).resolve_right fun hin => absurd hhome (Bool.eq_false_iff.mp (hslots q hin))
    rw [this, hwin]

end Sys2Proof.Machine
end

section
/-! PROOF. The legs of an access and of a barrier (R38, R207, R212). -/
namespace Sys2Proof.Machine

/-! ### Lanes -/

theorem where_zero {p : Nat → Bool} (h : ∀ l < 32, p l = false) : Mask.where' p = 0#32 := by
  unfold Mask.where'
  rw [List.filter_eq_nil_iff.mpr fun l hl => Bool.eq_false_iff.mp (h l (List.mem_range.mp hl))]
  rfl

theorem where_congr {p q : Nat → Bool} (h : ∀ l < 32, p l = q l) : Mask.where' p = Mask.where' q := by
  unfold Mask.where'
  rw [List.filter_congr fun l hl => h l (List.mem_range.mp hl)]

theorem lowest_eq_some {m : Mask} {l : Nat} : m.lowest = some l ↔ m.has l = true ∧ l < 32 ∧ ∀ j < l, m.has j = false := by
  unfold Mask.lowest Mask.list
  rw [List.head?_filter, List.find?_range_eq_some]
  simp

theorem ne_zero_of_has {m : Mask} {l : Nat} (h : m.has l = true) : m ≠ 0#32 := by
  rintro rfl
  simp [Mask.has] at h

/-! ### The next leg (R38, R212) -/

/-- The pending lanes homed where lane `lead` is, of an operation whose lanes go to the addresses of `x`. -/
def legOf (o : Op) (x : Nat → Xl) (lead : Nat) : Mask :=
  Mask.where' fun l => (o.lanesAt 2).has l && homeOf (x l).pa == homeOf (x lead).pa

theorem leg_of_away {s : State} {o : Op} {x : Nat → Xl} {lead : Nat} (hlead : (o.lanesAt 2).lowest = some lead)
    (hpa : ∀ l < 32, (o.lanesAt 2).has l = true → vget o.pa l 0 = (x l).pa ∧ s.homedOn s.me.stack (x l).pa = false) :
    o.leg' s = legOf o x lead := by
  obtain ⟨hin, hlt, -⟩ := lowest_eq_some.mp hlead
  unfold Op.leg'
  have hhere : Mask.where' (fun l => (o.lanesAt 2).has l && s.homedOn s.me.stack (vget o.pa l 0)) = 0#32 := by
    refine where_zero fun l hl => ?_
    cases hp : (o.lanesAt 2).has l with
    | false => rfl
    | true =>
      obtain ⟨hpa, haway⟩ := hpa l hl hp
      rw [hpa, haway]; rfl
  dsimp only
  rw [hhere, hlead, if_neg (by decide)]
  dsimp only
  rw [(hpa lead hlt hin).1]
  refine where_congr fun l hl => ?_
  cases hp : (o.lanesAt 2).has l with
  | false => rfl
  | true => rw [(hpa l hl hp).1]

theorem legOf_lowest {o : Op} {x : Nat → Xl} {lead : Nat} (hlead : (o.lanesAt 2).lowest = some lead) :
    (legOf o x lead).lowest = some lead := by
  obtain ⟨hin, hlt, hbelow⟩ := lowest_eq_some.mp hlead
  refine lowest_eq_some.mpr ⟨?_, hlt, fun j hj => ?_⟩
  · rw [legOf, has_where _ _ hlt, hin, beq_self_eq_true]; rfl
  · rw [legOf, has_where _ _ (hj.trans hlt), hbelow j hj]; rfl

/-- Lanes that all translate: their addresses stand in the operation. -/
theorem translateLanes_ok {s : State} {a : Acc} (ha : a.mig = true) (x : Nat → Xl) (ls : List Nat) (hls : ∀ l ∈ ls, l < 32) (o : Op)
    (hok : ∀ l ∈ ls, s.xlMigrating a.rd a.wr a.sz (vget o.addr l 0#64) = .ok (x l)) :
    ∃ pa pois, s.translateLanes a ls o = { o with pa := pa, pois := pois }
      ∧ (∀ l ∈ ls, vget pa l 0 = (x l).pa) ∧ ∀ l ∉ ls, vget pa l 0 = vget o.pa l 0 := by
  induction ls generalizing o with
  | nil => exact ⟨o.pa, o.pois, rfl, by simp, fun _ _ => rfl⟩
  | cons l ls ih =>
    have hl : l < 32 := hls l List.mem_cons_self
    obtain ⟨pa, pois, hfold, hin, hout⟩ := ih (fun j hj => hls j (List.mem_cons_of_mem _ hj))
      { o with pa := vset o.pa l (x l).pa, pois := vset o.pois l (x l).pois } fun j hj => hok j (List.mem_cons_of_mem _ hj)
    refine ⟨pa, pois, ?_, fun j hj => ?_, fun j hj => ?_⟩
    · unfold State.translateLanes
      rw [List.foldl_cons, if_pos ha, hok l List.mem_cons_self]
      exact hfold
    · by_cases hjs : j ∈ ls
      · exact hin j hjs
      · obtain rfl : j = l := (List.mem_cons.mp hj).resolve_right hjs
        exact (hout j hjs).trans ((vget_vset _ _ _ _ _ hl).trans (if_pos rfl))
    · obtain ⟨hne, hjs⟩ := not_or.mp fun e => hj (List.mem_cons.mpr e)
      exact (hout j hjs).trans ((vget_vset _ _ _ _ _ hl).trans (if_neg hne))

/-- The address of a lane as the registers that the context carries give it (R207). -/
def State.legAddr (s : State) (o : Op) (a : Acc) (l : Nat) : Dword :=
  if o.again then vget o.addr l 0#64 else (s.withWindow o.wb).addrAt a.m a.sz l

/-- Reading the operands again changes those of the pending lanes alone. -/
theorem reread_shape (s : State) (o : Op) (a : Acc) : ∃ scap addr data, s.reread o a = { o with scap := scap, addr := addr, data := data }
    ∧ ∀ l < 32, (o.lanesAt 2).has l = true → vget addr l 0#64 = s.legAddr o a l := by
  unfold State.reread State.legAddr
  by_cases h : o.again = true
  · rw [if_pos h]
    exact ⟨o.scap, o.addr, o.data, rfl, fun _ _ _ => (if_pos h).symm⟩
  · rw [if_neg h]
    exact ⟨_, _, _, rfl, fun l hl hp => by simp [vget, hl, hp, h]⟩

theorem mem_list {m : Mask} {l : Nat} : l ∈ m.list ↔ l < 32 ∧ m.has l = true := by
  rw [Mask.list, List.mem_filter, List.mem_range]

/-- No lane of a leg has failed: its lanes are pending. -/
theorem faulted_and_leg (o p : Op) (x : Nat → Xl) (lead : Nat) (hs : p.stat = o.stat) : p.lanesAt 3 &&& legOf o x lead = 0#32 := by
  refine BitVec.eq_of_getLsbD_eq fun l hl => ?_
  rw [BitVec.getLsbD_and, BitVec.getLsbD_zero]
  show (Mask.has (Mask.where' _) l && Mask.has (Mask.where' _) l) = false
  rw [has_where _ _ hl, has_where _ _ hl]
  unfold Op.lanesAt Op.stateAt
  rw [has_where _ _ hl, hs]
  by_cases h : stateOf (vget o.stat l 0#8) = 3
  · rw [h]; rfl
  · simp [h]

/-- The leg of an access whose pending lanes are all homed elsewhere: the context leaves with it. -/
theorem departAccess_departs {s : State} {id lead : Nat} {o : Op} {a : Acc} {x : Nat → Xl} (hop : s.me.op? id = some o)
    (ha : Acc.of o.instr = some a) (hmig : a.mig = true) (hsent : o.sent = true) (hlead : (o.lanesAt 2).lowest = some lead)
    (hx : ∀ l < 32, (o.lanesAt 2).has l = true → s.xlMigrating a.rd a.wr a.sz (s.legAddr o a l) = .ok (x l)
      ∧ vget o.pa l 0 = (x l).pa ∧ s.homedOn s.me.stack (x l).pa = false) :
    ∃ q : Op, s.departAccess id = (s.putOp q).depart (.access id) (homeOf (x lead).pa) (s.legRegs q) (some (x lead).pa)
      ∧ q.id = o.id ∧ q.instr = o.instr ∧ q.wb = o.wb ∧ q.leg = true ∧ q.legLanes = legOf o x lead := by
  obtain ⟨scap, addr, data, hreread, haddr⟩ := reread_shape s o a
  have hleg : (s.reread o a).leg' s = legOf o x lead := by
    rw [hreread]
    exact leg_of_away (o := { o with scap := scap, addr := addr, data := data }) hlead fun l hl hp => (hx l hl hp).2
  have pending (l : Nat) (hl : l ∈ (legOf o x lead).list) : l < 32 ∧ (o.lanesAt 2).has l = true := by
    obtain ⟨hlt, hhas⟩ := mem_list.mp hl
    rw [legOf, has_where _ _ hlt] at hhas
    exact ⟨hlt, (Bool.and_eq_true_iff.mp hhas).1⟩
  obtain ⟨pa, pois, htranslate, hin, hout⟩ := translateLanes_ok hmig x (legOf o x lead).list (list_lt _) (s.reread o a) fun l hl => by
    obtain ⟨hlt, hhas⟩ := pending l hl
    rw [hreread]
    dsimp only
    rw [haddr l hlt hhas]
    exact (hx l hlt hhas).1
  have hpa (l : Nat) (hl : l < 32) (hp : (o.lanesAt 2).has l = true) : vget pa l 0 = (x l).pa := by
    by_cases hin' : l ∈ (legOf o x lead).list
    · exact hin l hin'
    · rw [hout l hin', hreread]; exact (hx l hl hp).2.1
  unfold State.departAccess
  rw [hop]
  dsimp only
  rw [ha]
  dsimp only
  rw [hleg]
  generalize hp : s.translateLanes a (legOf o x lead).list (s.reread o a) = p
  have kept : p.id = o.id ∧ p.instr = o.instr ∧ p.wb = o.wb ∧ p.stat = o.stat ∧ p.sent = true ∧ p.pa = pa := by
    rw [← hp, htranslate, hreread]; exact ⟨rfl, rfl, rfl, rfl, hsent, rfl⟩
  obtain ⟨hid, hinstr, hwb, hstat, hsent', hpas⟩ := kept
  have hlanes : p.lanesAt 2 = o.lanesAt 2 := by unfold Op.lanesAt Op.stateAt; rw [hstat]
  have hleg' : p.leg' s = legOf o x lead := by
    have := leg_of_away (s := s) (o := p) (x := x) (by rw [hlanes]; exact hlead) fun l hl hl2 => by
      rw [hlanes] at hl2
      exact ⟨by rw [hpas]; exact hpa l hl hl2, (hx l hl hl2).2.2⟩
    rw [this, legOf, legOf, hlanes]
  have hlow : (legOf o x lead).lowest = some lead := legOf_lowest hlead
  obtain ⟨hhas, hlt, -⟩ := lowest_eq_some.mp hlow
  obtain ⟨hlast, -, -⟩ := lowest_eq_some.mp hlead
  have hdeparts : Op.departs s { p with legLanes := legOf o x lead } = true := by
    have hsome : (p.lanesAt 2 &&& legOf o x lead) ≠ 0#32 := ne_zero_of_has (l := lead) (by
      rw [hlanes]
      show BitVec.getLsbD (_ &&& _) _ = true
      rw [BitVec.getLsbD_and]
      exact Bool.and_eq_true_iff.mpr ⟨hlast, hhas⟩)
    have haway : ((p.lanesAt 2 &&& legOf o x lead).list.any fun l => s.homedOn s.me.stack (vget p.pa l 0)) = false := by
      refine Bool.eq_false_iff.mpr fun hany => ?_
      obtain ⟨l, hl, hhome⟩ := List.any_eq_true.mp hany
      obtain ⟨hl, hboth⟩ := mem_list.mp hl
      have hl2 : (o.lanesAt 2).has l = true := by
        rw [hlanes] at hboth
        exact (Bool.and_eq_true_iff.mp ((BitVec.getLsbD_and).symm.trans hboth)).1
      rw [hpas, hpa l hl hl2, (hx l hl hl2).2.2] at hhome
      cases hhome
    unfold Op.departs
    show (p.sent && (p.lanesAt 2 &&& legOf o x lead) != 0#32
      && !((p.lanesAt 2 &&& legOf o x lead).list.any fun l => s.homedOn s.me.stack (vget p.pa l 0))) = true
    rw [hsent', haway, bne_iff_ne.mpr hsome]
    rfl
  rw [hleg', faulted_and_leg o p x lead hstat, if_neg (by decide), hdeparts, if_pos rfl]
  refine ⟨{ p with legLanes := legOf o x lead, leg := true }, ?_, hid, hinstr, hwb, rfl, rfl⟩
  have hlead' : vget p.pa (((legOf o x lead).lowest).getD 0) 0 = (x lead).pa := by
    rw [hlow, hpas]; exact hpa lead hlt hlast
  rw [hlead']
  rfl

/-! ### The context that leaves -/

theorem mem_putOp {s : State} {id : Nat} {o q : Op} (h : s.me.op? id = some o) (hq : q.id = o.id) : q ∈ (s.putOp q).me.ops := by
  obtain ⟨hid, hmem⟩ : o.id = id ∧ o ∈ s.me.ops := ⟨by simpa using List.find?_some h, List.mem_of_find?_eq_some h⟩
  exact List.mem_map.mpr ⟨o, hmem, if_pos hq.symm⟩

theorem residents_putOp (s : State) (q : Op) : (s.putOp q).residents = s.residents := by
  have hme : (s.putOp q).me.resident = s.me.resident ∧ (s.putOp q).me.home = s.me.home ∧ (s.putOp q).me.num = s.me.num := ⟨rfl, rfl, rfl⟩
  have hall : (s.putOp q).allSplits = if s.me.id = 0 then s.splits else (s.putOp q).me :: s.splits := rfl
  have hwin : (s.putOp q).win = s.win := rfl
  unfold State.residents State.residentsOf
  rw [hall, hwin]
  unfold State.allSplits
  split
  · rfl
  · rw [List.filter_cons, List.filter_cons, hme.1, hme.2.1]
    split
    · rw [List.foldl_cons, List.foldl_cons, hme.2.2]
    · rfl

/-- Registers are carried with the values that they hold. -/
theorem mem_carriedValues {s : State} {regs : List Nat} {r : Nat} {v : Lanes} :
    (r, v) ∈ regs.map (fun r => (r, vget s.win.regs r (Vector.replicate 32 0#32)))
      ↔ v = vget s.win.regs r (Vector.replicate 32 0#32) ∧ r ∈ regs := by
  rw [List.mem_map]
  constructor
  · rintro ⟨k, hk, h⟩
    obtain ⟨rfl, rfl⟩ := Prod.mk.inj h
    exact ⟨rfl, hk⟩
  · rintro ⟨rfl, hr⟩
    exact ⟨r, hr, rfl⟩

/-- A split brought into focus is the one asked for. -/
theorem focus_id {s t : State} {id : Nat} (h : s.focus id = some t) : t.me.id = id := by
  unfold State.focus at h
  dsimp only at h
  split at h
  next hid => cases h; exact hid
  · split at h
    · cases h
    next w hw => cases h; exact by simpa using List.find?_some hw

/-- A leg departs once everything that has to be over before it is over. -/
theorem legDeparture_answers {s f : State} {id : Nat} {t : State} {post : State → Prop} (hf : s.focus id = some f)
    (hstep : f.legStep = some t) (hp : post t) : Answers (.legDeparture id) s post := by
  refine ⟨t, ?_, hp⟩
  show execLegDeparture id s = _
  unfold execLegDeparture
  rw [hf, Option.bind_some, hstep]
  rfl

/-- Settles O35: the step is a departure, of the split as it stands for a barrier's leg, and with the operands of the leg read
and translated again for an access's. -/
theorem legsDepartWithTheirContext : Obligations.LegsDepartWithTheirContext := by
  intro s f id op n b o a x lead hf hid hres htrap hk hslots va frames leaves
  have hme : f.me.id = id := focus_id hf
  refine ⟨fun hst hops hbase hne => ?_, fun hst hop honly ha hmig hsent hlead hx => ?_⟩
  · have hmay : f.mayDepart (.barw n b) = true := by unfold State.mayDepart; rw [hres, hops]; rfl
    have haway : f.locOf f.gr.base ≠ f.locOf f.me.stack := by
      unfold State.locOf
      rw [if_pos hbase, if_pos hk]
      omega
    have hname : f.nameOf (f.locOf f.gr.base) = f.gr.base := by
      unfold State.locOf State.nameOf
      rw [if_pos hbase, if_pos (by omega)]
      omega
    have hstep : f.legStep = some (f.depart (.barw n b) (f.locOf f.gr.base) (f.carried (onesBelow f.me.frame)) none) := by
      unfold State.legStep
      rw [hst]
      dsimp only
      rw [hmay, htrap]
      rfl
    obtain ⟨hmem, ⟨pl, pm, hsplit⟩, hcontext, hresv, hsl⟩ :=
      depart_departed (s := f) (why := .barw n b) (regs := f.carried (onesBelow f.me.frame)) (pa := none)
        (by rw [hme]; exact hid) hk haway hslots
    refine legDeparture_answers hf hstep ?_
    rw [hname, hme] at hcontext
    refine ⟨hmem, ⟨_, hsplit, hme, rfl, rfl, rfl, rfl, rfl, rfl, fun h => nomatch h⟩, ⟨_, hcontext, fun r v => ?_⟩,
      fun r hr => hme ▸ hresv r hr, hsl⟩
    rw [mem_carriedValues, mem_carried]
    refine and_congr Iff.rfl ⟨Or.inl, fun h => h.resolve_right ?_⟩
    rintro ⟨y, hy, -⟩
    exact absurd hy List.not_mem_nil
  · have hmay : f.mayDepart (.access op) = true := by
      unfold State.mayDepart
      rw [hres]
      exact List.all_eq_true.mpr fun e he => by simp [honly e he]
    obtain ⟨q, hdepart, hqid, hqi, hqw, hqleg, hqlanes⟩ := departAccess_departs hop ha hmig hsent hlead hx
    obtain ⟨hin, hlt, -⟩ := lowest_eq_some.mp hlead
    have haway : homeOf (x lead).pa ≠ f.locOf f.me.stack := bne_iff_ne.mp (by
      have := (hx lead hlt hin).2.2
      unfold State.homedOn at this
      rw [bne, this]; rfl)
    have hstep : f.legStep = some ((f.putOp q).depart (.access op) (homeOf (x lead).pa) (f.legRegs q) (some (x lead).pa)) := by
      unfold State.legStep
      rw [hst]
      dsimp only
      rw [hmay, htrap, ← hdepart]
      rfl
    obtain ⟨hmem, ⟨pl, pm, hsplit⟩, hcontext, hresv, hsl⟩ :=
      depart_departed (s := f.putOp q) (why := .access op) (regs := f.legRegs q) (pa := some (x lead).pa)
        (by exact hme.symm ▸ hid) hk haway hslots
    refine legDeparture_answers hf hstep ?_
    have hopid : o.id = op := by simpa using List.find?_some hop
    refine ⟨hmem, ⟨_, hsplit, hme, rfl, rfl, rfl, rfl, rfl, rfl, fun _ => ⟨q, mem_putOp hop hqid, hqid.trans hopid, hqleg, fun l hl => ?_⟩⟩,
      ⟨_, hme ▸ hcontext, fun r v => ?_⟩, fun r hr => hme ▸ hresv r hr, fun p hp => ?_⟩
    · rw [hqlanes, legOf, has_where _ _ hl]
    · refine mem_carriedValues.trans ?_
      rw [mem_legRegs, mem_carried, hqi, hqw]
      rfl
    · rw [residents_putOp] at hsl
      exact hsl p hp

end Sys2Proof.Machine
end

section
/-! PROOF. The placement of a team (R62 to R65, R133). -/
namespace Sys2Proof.Machine

/-! ### Memory of a team's named barriers (R133) -/

theorem getD_flatten_replicate {α : Type} (b : List α) (d : α) (k n i : Nat) (hn : n < k) (hi : i < b.length) :
    (List.replicate k b).flatten.getD (b.length * n + i) d = b.getD i d := by
  induction k generalizing n with
  | zero => omega
  | succ k ih =>
    rw [List.replicate_succ, List.flatten_cons]
    cases n with
    | zero => rw [Nat.mul_zero, Nat.zero_add, List.getD_append _ _ _ _ hi]
    | succ n =>
      have hle : b.length ≤ b.length * (n + 1) + i := Nat.le_add_right_of_le (Nat.le_mul_of_pos_right _ n.succ_pos)
      rw [List.getD_append_right _ _ _ _ hle, ← ih n (by omega)]
      congr 1
      rw [Nat.mul_succ]
      omega

theorem barrierBytes_eq (g : Grid) :
    barrierBytes g = (List.replicate 16 (bytesLE 8 (g.groups * g.lanes) ++ zeros 8)).flatten := by
  rw [barrierBytes, List.map_const', List.length_range]

theorem barrierBytes_length (g : Grid) : (barrierBytes g).length = 256 := by
  rw [barrierBytes_eq, List.length_flatten, List.map_replicate, List.length_append, bytesLE_length]
  rfl

theorem barrierBytes_getD (g : Grid) {n i : Nat} (hn : n < 16) (hi : i < 16) :
    (barrierBytes g).getD (16 * n + i) 0#8 = (bytesLE 8 (g.groups * g.lanes) ++ zeros 8).getD i 0#8 := by
  have hlen : (bytesLE 8 (g.groups * g.lanes) ++ zeros 8).length = 16 := by rw [List.length_append, bytesLE_length]; rfl
  rw [barrierBytes_eq]
  have := getD_flatten_replicate (bytesLE 8 (g.groups * g.lanes) ++ zeros 8) 0#8 16 n i hn (by rw [hlen]; exact hi)
  rw [hlen] at this
  exact this

/-- Each barrier's EXPECT is the number of the team's lanes, and the rest of its object is zero. -/
theorem barriers_read {m : Memory} (hm : m.wf = true) (g : Grid) (tag pa n : Nat) (hn : n < 16) (hg : g.groups * g.lanes < 2 ^ 64) :
    (m.writeLines pa (barrierBytes g) tag).read (pa + 16 * n) 8 = g.groups * g.lanes
      ∧ (m.writeLines pa (barrierBytes g) tag).read (pa + 16 * n + 8) 8 = 0 := by
  have byteAt (j : Nat) (hj : j < 16) : (m.writeLines pa (barrierBytes g) tag).byte (pa + 16 * n + j)
      = (bytesLE 8 (g.groups * g.lanes) ++ zeros 8).getD j 0#8 := by
    rw [Memory.byte_writeLines hm, barrierBytes_length, if_pos (by omega), ← barrierBytes_getD g hn hj]
    congr 1
    omega
  constructor
  · have := Memory.read_of_bytes (m := m.writeLines pa (barrierBytes g) tag) (pa + 16 * n) (bytesLE 8 (g.groups * g.lanes))
      fun i hi => by
        rw [bytesLE_length] at hi
        rw [byteAt i (by omega), List.getD_append _ _ _ _ (by rw [bytesLE_length]; exact hi)]
    rw [bytesLE_length, ofBytesLE_map] at this
    rw [this]
    exact Nat.mod_eq_of_lt (by simpa using hg)
  · have := Memory.read_of_bytes (m := m.writeLines pa (barrierBytes g) tag) (pa + 16 * n + 8) (zeros 8) fun i hi => by
      have hi : i < 8 := hi
      rw [Nat.add_assoc (pa + 16 * n), byteAt (8 + i) (by omega), List.getD_append_right _ _ _ _ (by rw [bytesLE_length]; omega),
        bytesLE_length, Nat.add_sub_cancel_left]
    exact this

/-! ### The groups of a team start (R65) -/

/-- `w` is split 0 of a group of the team `team` of `g` on stack `k`. -/
def StartsTeam (g : Grid) (k team vault : Nat) (gstop : Bool) (w : Split) : Prop :=
  ∃ grp id gid now x, w = firstSplit g k team grp id gid now x vault gstop

/-- The groups of a team start one after the other, each with its split 0. -/
theorem startGroups_shape (g : Grid) (k team vault : Nat) (seg : Dword) (gstop : Bool) (ys : List (Nat × Seat)) (s : State) :
    ∃ nid fr gs sl new, ys.foldl (fun (t : State) y => t.startGroup g k team y.1 y.2 vault seg gstop) s
        = { s with nextId := nid, fresh := fr, groups := gs, slots := sl, splits := s.splits ++ new }
      ∧ new.length = ys.length ∧ ∀ w ∈ new, StartsTeam g k team vault gstop w := by
  induction ys generalizing s with
  | nil => exact ⟨_, _, _, _, [], by rw [List.append_nil]; rfl, rfl, by simp⟩
  | cons y ys ih =>
    obtain ⟨nid, fr, gs, sl, new, hfold, hlen, hnew⟩ := ih (s.startGroup g k team y.1 y.2 vault seg gstop)
    refine ⟨nid, fr, gs, sl, firstSplit g k team y.1 (s.nextId + 1) s.nextId (s.nextId + 2) y.2 vault gstop :: new, ?_,
      congrArg (· + 1) hlen, fun w hw => ?_⟩
    · rw [List.foldl_cons, hfold]
      show _ = { s with nextId := nid, fresh := fr, groups := gs, slots := sl, splits := s.splits ++ _ }
      rw [List.append_cons]
      rfl
    · rcases List.mem_cons.mp hw with rfl | hin
      · exact ⟨_, _, _, _, _, rfl⟩
      · exact hnew w hin

/-- Split 0 of a group: at KADDR with the packet's lanes, `s29` and `s30` (R65). -/
theorem StartsTeam.fields {g : Grid} {k team vault : Nat} {gstop : Bool} {w : Split} (h : StartsTeam g k team vault gstop w) :
    w.num = 0 ∧ w.pc = g.kaddr ∧ w.stack = k ∧ w.asid = g.asid ∧ (∀ j < 32, w.act.has j = decide (j < g.lanes))
      ∧ (∀ j < 32, vget w.sregs j 0#64 = if j = 29 then BitVec.ofNat 64 vault else if j = 30 then g.args else 0#64)
      ∧ w.toks = Vector.replicate 8 0 ∧ w.wbase = 0 ∧ w.frame = g.frame ∧ w.status = .run := by
  obtain ⟨grp, id, gid, now, x, rfl⟩ := h
  refine ⟨rfl, rfl, rfl, rfl, fun j hj => has_where _ _ hj, fun j hj => ?_, rfl, rfl, rfl, rfl⟩
  show vget (vset (vset _ 29 _) 30 _) j _ = _
  rw [vget_vset _ _ _ _ _ (by decide), vget_vset _ _ _ _ _ (by decide)]
  by_cases h30 : j = 30
  · subst h30; rfl
  · rw [if_neg h30, if_neg h30]
    simp [vget, hj]

/-! ### The placement -/

/-- The next team of `g`, placed on stack `k` with the vault range at `vault` and save segment `seg`. -/
def placedTeam (g : Grid) (k vault seg spbase : Nat) : Team where
  grid := g.id
  team := g.next
  base := k
  vaultPa := vault
  vaultLen := g.vault
  segNo := seg
  seg := BitVec.ofNat 64 (spbase + 2 ^ 24 * seg)
  pool := []
  busy := 0
  st := .placed
  restoreCap := false

/-- The state in which the groups of a placed team start: its barriers are at their reset values. -/
def State.readyFor (s : State) (g : Grid) (k vault seg spbase : Nat) : State :=
  { s.written vault 256 with
    mem := s.mem.writeLines vault (barrierBytes g) g.asid, teams := s.teams ++ [placedTeam g k vault seg spbase] }

/-- What the placement of a team with the vault range at `vault` leaves. -/
structure TeamPlaced (s t : State) (g : Grid) (k vault seg spbase groups : Nat) (gstop : Bool) : Prop where
  mem : t.mem = s.mem.writeLines vault (barrierBytes g) g.asid
  teams : t.teams = s.teams ++ [placedTeam g k vault seg spbase]
  splits : ∃ old new, t.splits = old ++ new ∧ old.map (fun w => w.id) = s.splits.map (fun w => w.id) ∧ new.length = groups
    ∧ ∀ w ∈ new, StartsTeam g k g.next vault gstop w
  grids : ∃ st : Grid → GridSt, t.grids = s.grids.map fun y => if y.id = g.id then { y with next := y.next + 1, st := st y } else y

theorem placeTeam_placed (s : State) (g : Grid) (k : Nat) (seats : List Seat) (off seg spbase : Nat) (gstop : Bool) :
    TeamPlaced s (s.placeTeam g k seats off seg spbase gstop) g k (s.tileBase k ((seats.head?.map fun x => x.core).getD 0) + off)
      seg spbase seats.length gstop := by
  unfold State.placeTeam
  dsimp only
  generalize s.tileBase k ((seats.head?.map fun x => x.core).getD 0) + off = vault
  obtain ⟨f, sk, hid, hwritten⟩ := written_shape s vault 256
  obtain ⟨nid, fr, gs, sl, new, hfold, hlen, hnew⟩ := startGroups_shape g k g.next vault (BitVec.ofNat 64 (spbase + 2 ^ 24 * seg))
    gstop (seats.mapIdx fun i x => (i, x)) (s.readyFor g k vault seg spbase)
  unfold State.readyFor placedTeam at hfold
  rw [hfold, hwritten]
  generalize hd : State.gridOn _ g k = d
  obtain ⟨sn, nn, hnote⟩ := note_shape d k 6 ((seats.head?.map fun x => x.core).getD 0) g.asid g.id
  rw [hnote, ← hd]
  exact ⟨rfl, rfl, ⟨s.splits.map f, new, rfl, by rw [List.map_map]; exact List.map_congr_left fun w _ => hid w,
    by rw [hlen, List.length_mapIdx], hnew⟩, _, rfl⟩

/-- A level without a grid to place is passed. -/
theorem placeFrom_skip {s : State} {l : Nat} (h : s.current l = none) (ls : List Nat) : s.placeFrom (l :: ls) = s.placeFrom ls := by
  rw [State.placeFrom, h]
  dsimp only
  rw [ite_self]

/-- The first placement that can be made is that of the highest level with a grid that places. -/
theorem placeFrom_takes {s t : State} {l : Nat} {g : Grid} (hr : s.resumesAt l = false) (hc : s.current l = some g)
    (hg : g.st = .placing) (hp : s.placeOne g = some t) (ls : List Nat) : s.placeFrom (l :: ls) = some t := by
  rw [State.placeFrom, hr, hc]
  dsimp only
  rw [if_neg Bool.false_ne_true, if_pos hg, hp]

/-- Levels 3 down to `l`, where none above has a grid to place. -/
theorem placeFrom_level {s t : State} {l : Nat} (hl : l < 4) (habove : ∀ j < 4, l < j → s.current j = none)
    (hp : ∀ ls, s.placeFrom (l :: ls) = some t) : s.placeFrom [3, 2, 1, 0] = some t := by
  obtain rfl | rfl | rfl | rfl : l = 3 ∨ l = 2 ∨ l = 1 ∨ l = 0 := by omega
  · exact hp _
  · rw [placeFrom_skip (habove 3 (by omega) (by omega)), hp]
  · rw [placeFrom_skip (habove 3 (by omega) (by omega)), placeFrom_skip (habove 2 (by omega) (by omega)), hp]
  · rw [placeFrom_skip (habove 3 (by omega) (by omega)), placeFrom_skip (habove 2 (by omega) (by omega)),
      placeFrom_skip (habove 1 (by omega) (by omega)), hp]

/-- A grid that is current is one of the module's. -/
theorem current_mem {s : State} {l : Nat} {g : Grid} (h : s.current l = some g) : g ∈ s.grids := by
  obtain ⟨hb, -⟩ := Option.filter_eq_some_iff.mp h
  obtain ⟨x, -, hx⟩ := Option.bind_eq_some_iff.mp hb
  exact List.mem_of_find?_eq_some hx

/-- R62 to R65, R133: a team that fits is placed. -/
theorem teamsArePlaced : Claims.TeamsArePlaced := by
  intro s l g k off seg spbase count dbg seats hfatal hl hwf u hres habove hcur hst hplace hstate harr hexpect vault hwaits hsys hseg
  have placed := placeTeam_placed u g k seats off seg spbase (dbg.testBit 0)
  have hone : u.placeOne g = some (u.placeTeam g k seats off seg spbase (dbg.testBit 0)) := by
    have hfree : ((List.range 4).any fun i => u.agentWaits (vault + 64 * i) 64) = false :=
      List.any_eq_false.mpr fun i hi => Bool.eq_false_iff.mp (hwaits i (List.mem_range.mp hi))
    unfold State.placeOne
    rw [hplace]
    dsimp only
    rw [if_neg (not_not.mpr hstate), harr, hsys]
    refine (if_neg (by rw [Bool.false_or, hfree]; decide)).trans ?_
    dsimp only
    rw [hseg]
  have hstep : s.placingStep = some (u.placeTeam g k seats off seg spbase (dbg.testBit 0)) := by
    unfold State.placingStep
    rw [hfatal, if_neg Bool.false_ne_true]
    exact placeFrom_level hl habove (placeFrom_takes (hres l hl) hcur hst hone)
  obtain ⟨hmem, hteams, ⟨old, new, hsplits, hold, hlen, hnew⟩, st, hgrids⟩ := placed
  have hmem : (u.placeTeam g k seats off seg spbase (dbg.testBit 0)).mem = s.mem.writeLines vault (barrierBytes g) g.asid := hmem
  have hexec : exec .placingTeams s = .next (u.placeTeam g k seats off seg spbase (dbg.testBit 0)) := by
    show execPlacingTeams s = _
    unfold execPlacingTeams
    rw [hstep]
    rfl
  refine ⟨_, hexec,
    ⟨_, hteams, rfl, rfl, rfl, rfl, rfl, rfl, rfl, rfl, rfl⟩, ⟨old, new, hsplits, hold, hlen, fun w hw => (hnew w hw).fields⟩,
    fun n hn => ?_, fun a ha => ?_, ?_⟩
  · rw [hmem]
    exact barriers_read hwf g g.asid vault n hn hexpect
  · rw [hmem, Memory.byte_writeLines hwf, barrierBytes_length, if_neg (by omega)]
  · refine ⟨{ g with next := g.next + 1, st := st g }, ?_, rfl, rfl⟩
    show _ ∈ (u.placeTeam g k seats off seg spbase (dbg.testBit 0)).grids
    rw [hgrids]
    exact List.mem_map.mpr ⟨g, current_mem hcur, if_pos rfl⟩

end Sys2Proof.Machine
end

section
/-! PROOF. The admission of a context (R40, R41, R377, R383, R445). -/
namespace Sys2Proof.Machine

/-! ### Registers that a context brings (R41, R445) -/

theorem vget_vset_ne {α : Type} {n : Nat} (v : Vector α n) {i j : Nat} (x d : α) (h : j ≠ i) : vget (vset v i x) j d = vget v j d := by
  unfold vget vset
  rw [Vector.getElem?_setIfInBounds, if_neg (Ne.symm h)]

/-- The registers of a context, each written in the lanes `m`. -/
def State.takeRegs (s : State) (m : Mask) (regs : List (Nat × Lanes)) : State :=
  regs.foldl (fun (u : State) r => u.applyWr (.v r.1 m r.2)) s

/-- Registers named once each hold what the context brings in the lanes `m`. -/
theorem takeRegs_shape (m : Mask) (regs : List (Nat × Lanes)) (hnd : (regs.map fun r => r.1).Nodup) (s : State) :
    ∃ rs, s.takeRegs m regs = { s with win := { s.win with regs := rs } }
      ∧ (∀ r ∉ regs.map (fun r => r.1), ∀ d, vget rs r d = vget s.win.regs r d)
      ∧ ∀ r v, (r, v) ∈ regs → r < 128 → ∀ j < 32, m.has j = true → ∀ d, lane (vget rs r d) j = lane v j := by
  induction regs generalizing s with
  | nil => exact ⟨s.win.regs, rfl, fun _ _ _ => rfl, fun _ _ h => absurd h List.not_mem_nil⟩
  | cons y ys ih =>
    obtain ⟨hnot, hnd⟩ := List.nodup_cons.mp hnd
    obtain ⟨rs, hfold, hout, hin⟩ := ih hnd (s.applyWr (.v y.1 m y.2))
    refine ⟨rs, hfold, fun r hr d => ?_, fun r v hrv hr j hj hm d => ?_⟩
    · obtain ⟨hne, hys⟩ := not_or.mp fun e => hr (List.mem_cons.mpr e)
      rw [hout r hys d]
      exact vget_vset_ne _ _ _ hne
    · rcases List.mem_cons.mp hrv with rfl | hys
      · rw [hout _ hnot d]
        show lane (vget (vset s.win.regs r _) r d) j = _
        rw [vget_vset _ _ _ _ _ hr, if_pos rfl, lane_blend _ _ _ _ hj, if_pos hm]
      · exact hin r v hys hr j hj hm d

/-! ### What a stack counts (R375, R377) -/

/-- A field of a stack that an update leaves alone. -/
theorem onStk_field {α : Type} (s : State) {k : Nat} (hk : k < 16) (field : StackSt → α) {f : StackSt → StackSt}
    (hf : ∀ q, field (f q) = field q) : field (vget (s.onStk k f).stks k StackSt.reset) = field (s.stk k) :=
  (congrArg field (stk_onStk_same s hk f)).trans (hf _)

/-- Counts of energy and of events leave the arrivals and the budgets of a stack. -/
theorem meets_keeps (s : State) {k : Nat} (hk : k < 16) (g : Option Nat) : ∃ st, s.meets k g = { s with stks := st }
    ∧ (vget st k StackSt.reset).budgets = (s.stk k).budgets ∧ (vget st k StackSt.reset).arrivals = (s.stk k).arrivals := by
  unfold State.meets
  split
  · exact ⟨s.stks, rfl, rfl, rfl⟩
  next g =>
    split
    · exact ⟨s.stks, rfl, rfl, rfl⟩
    · exact ⟨(s.onStk k fun q => { q with energy := q.energy ++ [(g, 0)] }).stks, rfl,
        onStk_field s hk StackSt.budgets fun _ => rfl, onStk_field s hk StackSt.arrivals fun _ => rfl⟩

theorem monitorEvent_keeps (s : State) {k : Nat} (hk : k < 16) (at' : Nat) : ∃ st fr, s.monitorEvent k at' = { s with stks := st, fresh := fr }
    ∧ (vget st k StackSt.reset).budgets = (s.stk k).budgets ∧ (vget st k StackSt.reset).arrivals = (s.stk k).arrivals := by
  exact ⟨_, _, rfl, onStk_field s hk StackSt.budgets fun _ => rfl, onStk_field s hk StackSt.arrivals fun _ => rfl⟩

/-! ### What stands for the split (R383, R403) -/

/-- Nothing stands for a split that no event and no fault waits for. -/
theorem takeFirst_none {s : State} (hp : s.me.pend = Pend.none) (hops : ∀ o ∈ s.me.ops, o.faulted = false) : s.takeFirst = none := by
  have hmust : s.me.mustTrap = false := by
    unfold Split.mustTrap
    rw [hp]
    simp only [Pend.none, Option.isSome_none, Bool.or_false, List.any_eq_false]
    intro o ho
    simp [hops o ho]
  have hhalt : s.takeHalt = none := by
    unfold State.takeHalt
    dsimp only
    rw [hp]
    split <;> rfl
  have hfault : s.takeFault = none := by
    unfold State.takeFault Split.faultable
    rw [hmust]
    rfl
  have hforced : s.takeForced = none := by
    unfold State.takeForced
    dsimp only
    rw [hp]
    rfl
  have hslice : s.takeSlice = none := by
    unfold State.takeSlice
    dsimp only
    rw [hp]
    rfl
  unfold State.takeFirst
  rw [hhalt, hfault, hforced, hslice]

end Sys2Proof.Machine
end

section
/-! PROOF. The split that a context brings stands in its slot (R40, R41, R383, R445). -/
namespace Sys2Proof.Machine

/-- What the arrival of the context of an access on stack `k` leaves: the split in focus goes on with its accesses. -/
structure SettledIn (s t : State) (k op : Nat) (regs : List (Nat × Lanes)) (es : List Entry) : Prop where
  mem : t.mem = s.mem
  me : t.me = { s.me with status := .legs op, wasReady := false, preq := t.me.preq, pend := t.me.pend }
  win : t.win = { s.win with regs := t.win.regs, entries := t.win.entries, check := t.win.check }
  splits : t.splits = s.splits
  slots : t.slots = s.slots
  arrivals : (t.stk k).arrivals = (s.stk k).arrivals
  regs : ∀ r v, (r, v) ∈ regs → r < 128 → ∀ j < 32, (carriedLanes s.me.act es).has j = true →
    ∀ d, lane (vget t.win.regs r d) j = lane v j

theorem settleIn_access {s : State} {k op : Nat} {regs : List (Nat × Lanes)} {es : List Entry} (hst : s.me.stack = k) (hk : k < 16)
    (hpend : s.me.pend = Pend.none) (hops : ∀ o ∈ s.me.ops, o.faulted = false) (hbud : (s.stk k).budgets = [])
    (hnd : (regs.map fun r => r.1).Nodup) : SettledIn s (s.settleIn regs es (.access op)) k op regs es := by
  obtain ⟨st, hmeets, hbudgets, harrivals⟩ := meets_keeps s hk (some s.gr.grid)
  obtain ⟨rs, hregs, -, hin⟩ := takeRegs_shape (carriedLanes s.me.act es) regs hnd { s with stks := st }
  unfold State.settleIn
  extract_lets lanes t grid preq spent saved a b c u v
  have ht : t = { s with win := { s.win with regs := rs }, stks := st } := by
    rw [← hregs, ← hmeets, ← hst]; rfl
  have hspent : spent = false := by
    show ((t.stk t.me.stack).budgets.any fun b => b.1 == grid && b.2.2) = false
    rw [ht]
    show ((vget st s.me.stack StackSt.reset).budgets.any _) = false
    rw [hst, hbudgets, hbud]
    rfl
  have htme : t.me = s.me := by rw [ht]
  have hupend : u.me.pend = Pend.none := by
    show ({ t.me.pend with
      preempt := t.me.pend.preempt || spent && !saved,
      handler := if (spent && !saved) = true then (t.me.stack :: t.me.pend.handler).eraseDups else t.me.pend.handler } : Pend) = _
    rw [hspent, htme, hpend]
    rfl
  have hume : u.me = { s.me with status := .legs op, wasReady := false, preq := u.me.preq, pend := u.me.pend } := by
    rw [← htme]
  obtain ⟨gr, gs, fb, htell⟩ := tell_shape u u.me.num none 0 0
  have hv : v = { u with gr := gr, groups := gs, fabric := fb } := htell
  have hvme : v.me = u.me := by rw [hv]
  have hnone : v.takeFirst = none := takeFirst_none (by rw [hvme, hupend]) (by rw [hvme, hume]; exact hops)
  have hkill : ¬ v.me.pend.kill = true := by rw [hvme, hupend]; decide
  rw [if_neg hkill]
  dsimp only
  rw [hnone]
  have hwin : v.win = { s.win with regs := rs, entries := v.win.entries, check := true } := by
    have hvt : v.win = { t.win with entries := v.win.entries, check := true } := by rw [hv]
    rw [ht] at hvt
    exact hvt
  have hwregs : v.win.regs = rs := congrArg GroupSlot.regs hwin
  have hwcheck : v.win.check = true := congrArg GroupSlot.check hwin
  exact
    { mem := by
        show v.mem = _
        rw [hv, show u.mem = t.mem from rfl, ht]
      me := by
        show ({ v.me with status := .legs op } : Split)
          = { s.me with status := .legs op, wasReady := false, preq := v.me.preq, pend := v.me.pend }
        rw [hvme]
        exact congrArg (fun w : Split => { w with status := .legs op }) hume
      win := by
        show v.win = { s.win with regs := v.win.regs, entries := v.win.entries, check := v.win.check }
        rw [hwregs, hwcheck]
        exact hwin
      splits := by
        show v.splits = _
        rw [hv, show u.splits = t.splits from rfl, ht]
      slots := by
        show v.slots = _
        rw [hv, show u.slots = t.slots from rfl, ht]
      arrivals := by
        show (vget v.stks k _).arrivals = _
        rw [hv, show u.stks = t.stks from rfl, ht]
        exact harrivals
      regs := by
        show ∀ r v', _ → _ → ∀ j < 32, _ → ∀ d, lane (vget v.win.regs r d) j = _
        rw [hwregs]
        exact hin }

end Sys2Proof.Machine
end

section
/-! PROOF. A core with room admits a context (R40, R41, R64, R377, R445). -/
namespace Sys2Proof.Machine

/-! ### Places on a core (R66) -/

theorem pickGslot_free {taken : List Nat} {n : Nat} (h : pickGslot taken = some n) : n ∉ taken := by
  have := List.find?_some h
  simpa using this

theorem pickGslots_free {taken : List Nat} {sh : Bool} {x : Nat × Option Nat} (h : pickGslots taken sh = some x) : x.1 ∉ taken := by
  unfold pickGslots at h
  split at h
  · cases h
  next n hn =>
    have hfree := pickGslot_free hn
    split at h
    · split at h
      · cases h
      · cases h; exact hfree
    · cases h; exact hfree

/-- Where a core has room for a split of a group, the group's slot stands there, or is taken. -/
theorem roomOn_slot {s : State} {k c a gs : Nat} {b gsh : Option Nat} {g : Group} {w : Split} (h : s.roomOn k c g = some (a, b, gs, gsh))
    (hwin : s.win.group = 0) (hnd : (s.slots.map fun q => (q.stack, q.core, q.gslot)).Nodup)
    (hw : w.stack = k ∧ w.core = c ∧ w.gslot = gs) :
    ∃ q, (if (s.slotAt k c gs).isSome then s else s.takeGslot k c gs gsh g.id).slots.find? w.home = some q ∧ q.group = g.id := by
  obtain ⟨rfl, rfl, rfl⟩ := hw
  have hall : s.allSlots = s.slots := if_pos hwin
  have hat : s.slotAt w.stack w.core w.gslot = s.slots.find? w.home := rfl
  have home_iff (q : GroupSlot) : w.home q = true ↔ q.stack = w.stack ∧ q.core = w.core ∧ q.gslot = w.gslot := by
    simp [Split.home, and_assoc]
  have on_iff (q : GroupSlot) : q ∈ s.slotsOn w.stack w.core ↔ q ∈ s.slots ∧ q.stack = w.stack ∧ q.core = w.core := by
    simp [State.slotsOn, hall]
  unfold State.roomOn at h
  split at h
  · cases h
  · split at h
    next q hq =>
      obtain ⟨-, -, hgs, -⟩ : _ ∧ _ ∧ q.gslot = w.gslot ∧ _ := by simpa only [Option.some.injEq, Prod.mk.injEq] using h
      obtain ⟨hin, hqs, hqc⟩ := (on_iff q).mp (List.mem_of_find?_eq_some hq)
      have hgroup : q.group = g.id := by simpa using List.find?_some hq
      have hsome : (s.slots.find? w.home).isSome := List.find?_isSome.mpr ⟨q, hin, (home_iff q).mpr ⟨hqs, hqc, hgs⟩⟩
      obtain ⟨p, hp⟩ := Option.isSome_iff_exists.mp hsome
      have hpq : p = q := by
        obtain ⟨hps, hpc, hpg⟩ := (home_iff p).mp (List.find?_some hp)
        refine List.inj_on_of_nodup_map hnd (List.mem_of_find?_eq_some hp) hin ?_
        rw [hps, hpc, hpg, hqs, hqc, hgs]
      rw [hat, if_pos hsome]
      exact ⟨p, hp, hpq ▸ hgroup⟩
    next hnone =>
      obtain ⟨x, hx, hxe⟩ := Option.map_eq_some_iff.mp h
      obtain ⟨-, -, hgs, -⟩ : _ ∧ _ ∧ x.1 = w.gslot ∧ _ := by simpa only [Prod.mk.injEq] using hxe
      have hfree : w.gslot ∉ s.takenGslots w.stack w.core := hgs ▸ pickGslots_free hx
      have hno : s.slots.find? w.home = none := List.find?_eq_none.mpr fun q hq hh => by
        obtain ⟨hqs, hqc, hqg⟩ := (home_iff q).mp hh
        refine hfree (List.mem_flatten.mpr ⟨_, List.mem_map.mpr ⟨q, (on_iff q).mpr ⟨hq, hqs, hqc⟩, rfl⟩, ?_⟩)
        rw [hqg]
        exact List.mem_cons_self
      rw [hat, hno, if_neg (by decide)]
      refine ⟨⟨w.stack, w.core, w.gslot, g.id, gsh, freeRegs s.fresh, [], false⟩, ?_, rfl⟩
      show List.find? w.home (s.slots ++ [_]) = _
      rw [List.find?_append, hno, Option.none_or, List.find?_cons_of_pos]
      exact (home_iff _).mpr ⟨rfl, rfl, rfl⟩

/-! ### The admission -/

/-- A split found in the lists comes into focus with its slot. -/
theorem focus_some {s : State} {id : Nat} {w : Split} (hid : s.me.id ≠ id) (h : s.split? id = some w) :
    ∃ v, s.focus id = some v ∧ v.me = w ∧ v.win = (s.allSlots.find? w.home).getD GroupSlot.none ∧ v.mem = s.mem ∧ v.stks = s.stks := by
  have hfind : s.unfocus.splits.find? (fun x => x.id == id) = some w := h
  unfold State.focus
  rw [if_neg hid]
  dsimp only
  rw [hfind]
  exact ⟨_, rfl, rfl, rfl, rfl, rfl⟩

/-- A split in its new place. -/
def Split.movedTo (w : Split) (k c a : Nat) (b : Option Nat) (gs : Nat) : Split :=
  { w with stack := k, core := c, slot := a, shSlot := b, gslot := gs }

/-- What the admission of the split `w` to core `c` of stack `k`, with the accesses of operation `op` before it, leaves. -/
structure AdmittedTo (s t : State) (k c op : Nat) (w : Split) (gid : Nat) (regs : List (Nat × Lanes)) (es : List Entry) : Prop where
  mem : t.mem = s.mem
  arrivals : (t.stk k).arrivals = (s.stk k).arrivals
  stands : ∃ y, t.split? w.id = some y ∧ y.stack = k ∧ y.core = c ∧ y.status = .legs op ∧ y.act = w.act ∧ y.pc = w.pc
    ∧ y.sregs = w.sregs ∧ y.preds = w.preds ∧ y.toks = w.toks
    ∧ ∃ q ∈ t.slots, y.home q = true ∧ q.group = gid ∧ ∀ r v, (r, v) ∈ regs → r < 128 → ∀ j < 32,
      (carriedLanes w.act es).has j = true → lane (vget q.regs r (Vector.replicate 32 0#32)) j = lane v j

/-- The split in focus, moved to its place, takes what the context brings. -/
theorem settleIn_admits {s v : State} {k c a op : Nat} {b : Option Nat} {gs : Nat} {w : Split} {q : GroupSlot} {gid : Nat}
    {regs : List (Nat × Lanes)} {es : List Entry} (hk : k < 16) (hid : w.id ≠ 0) (hvme : v.me = w.movedTo k c a b gs)
    (hvwin : v.win = q) (hhome : (w.movedTo k c a b gs).home q = true) (hqg : q.group = gid) (hg : gid ≠ 0)
    (hmem : v.mem = s.mem) (hstk : v.stk k = s.stk k) (hpend : w.pend = Pend.none) (hops : ∀ o ∈ w.ops, o.faulted = false)
    (hbud : (s.stk k).budgets = []) (hnd : (regs.map fun r => r.1).Nodup) :
    AdmittedTo s (((v.monitorEvent k w.cameAt).settleIn regs es (.access op)).unfocus) k c op w gid regs es := by
  obtain ⟨st, fr, hmon, hmbud, hmarr⟩ := monitorEvent_keeps v hk w.cameAt
  have settled := settleIn_access (s := { v with stks := st, fresh := fr }) (k := k) (op := op) (regs := regs) (es := es)
    (by rw [hvme]; rfl) hk (by rw [hvme]; exact hpend) (by rw [hvme]; exact hops) (by rw [← hbud, ← hstk]; exact hmbud) hnd
  rw [hmon]
  generalize State.settleIn _ regs es (.access op) = t at settled
  obtain ⟨tmem, tme, twin, -, -, tarr, tregs⟩ := settled
  dsimp only at tmem tme twin tregs
  rw [hvme] at tme tregs
  rw [hvwin] at twin
  have tid : t.me.id ≠ 0 := by rw [tme]; exact hid
  have tgroup : t.win.group ≠ 0 := by rw [twin]; exact hqg ▸ hg
  have hsplits : t.unfocus.splits = t.me :: t.splits := if_neg tid
  have hslots : t.unfocus.slots = t.win :: t.slots := if_neg tgroup
  have hfind : t.unfocus.split? w.id = some t.me := by
    show List.find? _ t.unfocus.splits = _
    rw [hsplits, List.find?_cons_of_pos]
    rw [tme]
    exact beq_self_eq_true w.id
  refine ⟨tmem.trans hmem, (tarr.trans hmarr).trans (congrArg StackSt.arrivals hstk), t.me, hfind, ?_⟩
  rw [hslots]
  have hhome' : t.me.home t.win = true := by rw [tme, twin]; exact hhome
  refine ⟨by rw [tme]; rfl, by rw [tme]; rfl, by rw [tme], by rw [tme]; rfl, by rw [tme]; rfl, by rw [tme]; rfl, by rw [tme]; rfl,
    by rw [tme]; rfl, t.win, List.mem_cons_self, hhome', by rw [twin]; exact hqg, fun r x hr hlt j hj hm => tregs r x hr hlt j hj hm _⟩

theorem admitAt_admits {s : State} {k c op : Nat} {w : Split} {g : Group} {regs : List (Nat × Lanes)} {es : List Entry} (hk : k < 16)
    (hme : s.me.id = 0) (hwin : s.win.group = 0) (hid : w.id ≠ 0) (hsplit : s.split? w.id = some w) (hg : g.id ≠ 0)
    (hroom : (s.roomOn k c g).isSome) (hpend : w.pend = Pend.none) (hops : ∀ o ∈ w.ops, o.faulted = false)
    (hbud : (s.stk k).budgets = []) (hnd : (regs.map fun r => r.1).Nodup)
    (hslots : (s.slots.map fun q => (q.stack, q.core, q.gslot)).Nodup) :
    AdmittedTo s (s.admitAt k c w g regs es (.access op)) k c op w g.id regs es := by
  obtain ⟨⟨a, b, gs, gsh⟩, hr⟩ := Option.isSome_iff_exists.mp hroom
  obtain ⟨q, hq, hqg⟩ := roomOn_slot hr hwin hslots (w := w.movedTo k c a b gs) ⟨rfl, rfl, rfl⟩
  unfold State.admitAt
  rw [hr]
  dsimp only
  generalize ht : (if (s.slotAt k c gs).isSome then s else s.takeGslot k c gs gsh g.id) = t at hq ⊢
  have hkeep : t.me = s.me ∧ t.win = s.win ∧ t.splits = s.splits ∧ t.mem = s.mem ∧ t.stks = s.stks := by
    rw [← ht]
    split <;> exact ⟨rfl, rfl, rfl, rfl, rfl⟩
  obtain ⟨htme, htwin, htsplits, htmem, htstks⟩ := hkeep
  have htw : t.split? w.id = some w := by
    unfold State.split? State.allSplits
    rw [htme, htsplits]
    exact hsplit
  have hne : t.me.id ≠ w.id := by rw [htme, hme]; exact hid.symm
  have huw : (t.onSplit w.id fun v => v.movedTo k c a b gs).split? w.id = some (w.movedTo k c a b gs) :=
    split?_onSplit hid htw fun _ => rfl
  obtain ⟨u, hu⟩ : ∃ u, (t.onSplit w.id fun v => v.movedTo k c a b gs) = u := ⟨_, rfl⟩
  have hukeep : u.me = t.me ∧ u.win = t.win ∧ u.slots = t.slots ∧ u.mem = t.mem ∧ u.stks = t.stks := by
    rw [← hu, State.onSplit, if_neg hne]
    exact ⟨rfl, rfl, rfl, rfl, rfl⟩
  obtain ⟨hume, huwin, huslots, humem, hustks⟩ := hukeep
  rw [hu] at huw
  obtain ⟨v, hv, hvme, hvwin, hvmem, hvstks⟩ := focus_some (by rw [hume]; exact hne) huw
  have hmatch : (t.onSplit w.id fun v => { v with stack := k, core := c, slot := a, shSlot := b, gslot := gs }) = u := hu
  rw [hmatch, hv]
  dsimp only
  have hvq : v.win = q := by
    have hall : u.allSlots = t.slots := (if_pos (by rw [huwin, htwin]; exact hwin)).trans huslots
    rw [hvwin, hall, hq]
    rfl
  refine settleIn_admits hk hid hvme hvq (List.find?_some hq) hqg hg (hvmem.trans (humem.trans htmem)) ?_ hpend hops hbud hnd
  unfold State.stk
  rw [hvstks, hustks, htstks]

/-- One of a list, picked by comparing, is in the list. -/
theorem foldl_pick_mem {α : Type} (better : α → α → Bool) (x : α) (xs : List α) :
    xs.foldl (fun b y => if better b y then y else b) x ∈ x :: xs := by
  induction xs generalizing x with
  | nil => exact List.mem_cons_self
  | cons y ys ih =>
    rw [List.foldl_cons]
    rcases List.mem_cons.mp (ih (if better x y then y else x)) with h | h
    · rw [h]
      split
      · exact List.mem_cons_of_mem _ List.mem_cons_self
      · exact List.mem_cons_self
    · exact List.mem_cons_of_mem _ (List.mem_cons_of_mem _ h)

/-- The core that admits a context has room. -/
theorem admitCore_room {s : State} {k c : Nat} {g : Group} {pa : Option Nat} {op : Nat}
    (h : s.admitCore k g pa (.access op) = some c) : (s.roomOn k c g).isSome = true := by
  unfold State.admitCore at h
  extract_lets opens only fewest at h
  have room {c : Nat} (ho : opens c = true) : (s.roomOn k c g).isSome = true := (Bool.and_eq_true_iff.mp ho).2
  have ofOnly {n : Nat} (ho : only n = some c) : (s.roomOn k c g).isSome = true := by
    by_cases hn : opens n = true
    · obtain rfl : n = c := Option.some.inj ((if_pos hn).symm.trans ho)
      exact room hn
    · exact nomatch (if_neg hn).symm.trans ho
  have ofFewest (ho : fewest = some c) : (s.roomOn k c g).isSome = true := by
    cases hl : (List.range 8).filter opens with
    | nil => simp only [fewest, hl] at ho; cases ho
    | cons x xs =>
      simp only [fewest, hl, Option.some.injEq] at ho
      have hmem := foldl_pick_mem (fun b y => decide ((s.takenSlots k y).length < (s.takenSlots k b).length)) x xs
      simp only [decide_eq_true_eq] at hmem
      rw [ho, ← hl] at hmem
      exact room (List.mem_filter.mp hmem).2
  split at h
  · split at h
    · exact ofOnly h
    · exact ofFewest h
  · exact ofFewest h

/-- The arrival `p` has left the queue of stack `k`. -/
def State.admitted (s : State) (k : Nat) (p : Payload) : State :=
  s.onStk k fun q => { q with arrivals := q.arrivals.erase p }

theorem admitFirst_context {s : State} {k id c : Nat} {regs : List (Nat × Lanes)} {es : List Entry} {pa : Option Nat} {why : LegFor}
    {w : Split} {g : Group} (hw : s.split? id = some w) (hg : s.group? w.group = some g) (hc : s.admitCore k g pa why = some c)
    (ps : List Payload) : s.admitFirst k (.context id regs es pa why :: ps)
      = some ((s.admitted k (.context id regs es pa why)).admitAt k c w g regs es why) := by
  unfold State.admitFirst
  dsimp only
  rw [hw]
  dsimp only
  rw [hg]
  dsimp only
  rw [hc]
  rfl

/-- R40, R41, R445: a context that waits for admission enters a core with room. -/
theorem contextsAreAdmitted : Claims.ContextsAreAdmitted := by
  intro s k id c op regs es pa w g u hsrc harr hid hgroup hw hg hcore hpend hops _ hbud hnd hslots
  obtain rfl : w.id = id := by simpa using List.find?_some hw
  have hgid : g.id = w.group := by simpa using List.find?_some hg
  have hin : u.contextIn k.val = none := by unfold State.contextIn; rw [hsrc]
  have hstep : s.admissionStep k.val
      = some ((u.admitted k.val (.context w.id regs es pa (.access op))).admitAt k.val c w g regs es (.access op)) := by
    have hqueue : s.admissionStep k.val = u.admitFirst k.val (u.stk k.val).arrivals := by
      unfold State.admissionStep
      dsimp only
      rw [show s.unfocus.contextIn k.val = none from hin]
    rw [hqueue, harr, admitFirst_context hw hg hcore]
  have hexec : exec (.contextAdmission k) s = .next _ := congrArg (fun y : Option State => (.next (y.getD s) : Out)) hstep
  have hbudgets : ((u.admitted k.val (.context w.id regs es pa (.access op))).stk k.val).budgets = [] :=
    (congrArg StackSt.budgets (stk_onStk_same u k.isLt _)).trans hbud
  obtain ⟨hmem, harrivals, hstands⟩ := admitAt_admits (s := u.admitted k.val (.context w.id regs es pa (.access op)))
    (k := k.val) (c := c) (op := op) (w := w) (g := g) (regs := regs) (es := es)
    k.isLt rfl rfl hid hw (hgid ▸ hgroup) (show (u.roomOn k.val c g).isSome = true from admitCore_room hcore) hpend hops
    hbudgets hnd hslots
  refine ⟨_, hexec, hmem, ?_, hstands⟩
  refine harrivals.trans ((congrArg StackSt.arrivals (stk_onStk_same u k.isLt _)).trans ?_)
  dsimp only
  rw [harr]
  exact List.erase_cons_head ..

/-- Settles O38: a team that fits is placed, and a context enters a core with room. -/
theorem placementAndAdmission : Obligations.PlacementAndAdmission := ⟨teamsArePlaced, contextsAreAdmitted⟩

end Sys2Proof.Machine
end

section
/-! PROOF. Results land in their lanes and in no other (R70). -/
namespace Sys2Proof.Machine

/-- Lane `l` of register `q` after a write of register `d` in the lanes of `m`. -/
theorem applyWr_v_lane (a : State) (d : Nat) (m : Mask) (x : Lanes) {q l : Nat} (hq : q < 128) (hl : l < 32) :
    lane (vget (a.applyWr (.v d m x)).win.regs q x) l
      = if q = d ∧ m.has l then lane x l else lane (vget a.win.regs q x) l := by
  show lane (vget (vset a.win.regs d _) q x) l = _
  by_cases h : q = d
  · subst h
    rw [vget_vset _ _ _ _ _ hq, if_pos rfl, lane_blend _ _ _ _ hl]
    simp
  · rw [vget_vset_ne _ _ _ h, if_neg fun e => h e.1]

/-- Lane `l` of register `q` after a write of some bits of register `d` in the lanes of `m` (R169). -/
theorem applyWr_vbits_lane (a : State) (d : Nat) (m : Mask) (mask x : Lanes) {q l : Nat} (hq : q < 128) (hl : l < 32) :
    lane (vget (a.applyWr (.vbits d m mask x)).win.regs q x) l
      = if q = d ∧ m.has l then (lane (vget a.win.regs q x) l &&& ~~~ (lane mask l)) ||| (lane x l &&& lane mask l)
        else lane (vget a.win.regs q x) l := by
  show lane (vget (vset a.win.regs d _) q x) l = _
  by_cases h : q = d
  · subst h
    rw [vget_vset _ _ _ _ _ hq, if_pos rfl, lane_lanesOf _ _ hl]
    simp
  · rw [vget_vset_ne _ _ _ h, if_neg fun e => h e.1]

/-- A write of a scalar register changes that register, and none where it is `s0` (R28). -/
theorem applyWr_s (a : State) (d : Nat) (x : Dword) :
    a.applyWr (.s d x) = { a with me := { a.me with sregs := (a.applyWr (.s d x)).me.sregs } }
      ∧ ∀ q < 32, vget (a.applyWr (.s d x)).me.sregs q 0#64 = if q = d ∧ d ≠ 0 then x else vget a.me.sregs q 0#64 := by
  by_cases h : d = 0
  · have he : a.applyWr (.s d x) = a := if_pos h
    rw [he]
    exact ⟨rfl, fun q _ => (if_neg fun e => e.2 h).symm⟩
  · have he : a.applyWr (.s d x) = { a with me := { a.me with sregs := vset a.me.sregs d x } } := if_neg h
    rw [he]
    refine ⟨rfl, fun q hq => ?_⟩
    by_cases e : q = d
    · subst e
      rw [if_pos ⟨rfl, h⟩, vget_vset _ _ _ _ _ hq, if_pos rfl]
    · rw [if_neg fun y => e y.1]
      exact vget_vset_ne _ _ _ e

/-- A write of a predicate changes the lanes of `m` of that predicate, and none where it is `p7` (R28). -/
theorem applyWr_p (a : State) (d : Nat) (m x : Mask) :
    a.applyWr (.p d m x) = { a with me := { a.me with preds := (a.applyWr (.p d m x)).me.preds } }
      ∧ ∀ q < 8, vget (a.applyWr (.p d m x)).me.preds q 0#32
          = if q = d ∧ d ≠ 7 then (vget a.me.preds q 0#32 &&& ~~~ m) ||| (x &&& m) else vget a.me.preds q 0#32 := by
  by_cases h : d = 7
  · have he : a.applyWr (.p d m x) = a := if_pos h
    rw [he]
    exact ⟨rfl, fun q _ => (if_neg fun e => e.2 h).symm⟩
  · have he : a.applyWr (.p d m x) = { a with me := { a.me with
        preds := vset a.me.preds d ((vget a.me.preds d 0#32 &&& ~~~ m) ||| (x &&& m)) } } := if_neg h
    rw [he]
    refine ⟨rfl, fun q hq => ?_⟩
    by_cases e : q = d
    · subst e
      rw [if_pos ⟨rfl, h⟩, vget_vset _ _ _ _ _ hq, if_pos rfl]
    · rw [if_neg fun y => e y.1]
      exact vget_vset_ne _ _ _ e

/-- The results that are due now, in issue order. -/
def State.dueNow (f : State) : List Result := f.me.results.filter fun r => decide (r.due ≤ f.myCore.cycle)

/-- The split after the first `n` of the results due now have landed. -/
def State.landedFirst (f : State) (n : Nat) : State :=
  { f with me := { f.me with results := f.me.results.filter fun r => decide (f.myCore.cycle < r.due) } }.applyAll
    ((f.dueNow.take n).map Result.wr)

theorem landedFirst_succ {f : State} {n : Nat} {r : Result} (h : f.dueNow[n]? = some r) :
    f.landedFirst (n + 1) = (f.landedFirst n).applyWr r.wr := by
  unfold State.landedFirst State.applyAll
  rw [List.take_add_one, h]
  simp

theorem landDue_eq (f : State) : f.landDue = f.landedFirst f.dueNow.length := by
  have hrest : (f.me.results.filter fun r => !decide (r.due ≤ f.myCore.cycle))
      = f.me.results.filter fun r => decide (f.myCore.cycle < r.due) :=
    List.filter_congr fun r _ => decide_not.symm.trans (decide_eq_decide.mpr Nat.not_le)
  unfold State.landDue State.landedFirst
  rw [List.take_length, ← hrest]
  rfl

/-- Settles O53: one write after the other, in issue order, each in its own lanes. -/
theorem resultsLandInTheirLanes : Obligations.ResultsLandInTheirLanes := by
  intro s f split hf due lands
  have hexec : exec (.resultLanding split) s = .next (f.landedFirst f.dueNow.length) := by
    show Host.Outcome.next (s.withSplit split State.landDue) = _
    unfold State.withSplit
    rw [hf]
    exact congrArg _ (landDue_eq f)
  refine ⟨_, hexec, f.landedFirst, rfl, rfl, fun n r hr => ?_⟩
  rw [landedFirst_succ hr]
  cases r.wr with
  | v d m x => exact ⟨rfl, fun q hq l hl => applyWr_v_lane _ d m x hq hl⟩
  | vbits d m mask x => exact ⟨rfl, fun q hq l hl => applyWr_vbits_lane _ d m mask x hq hl⟩
  | s d x => exact applyWr_s _ d x
  | p d m x => exact applyWr_p _ d m x
  | pal x => rfl
  | mstep x => rfl
  | trapinfo x => rfl

end Sys2Proof.Machine
end

section
/-! PROOF. The scalar forms, the special registers and the floating-point instructions complete (R70, R114, R124). -/
namespace Sys2Proof.Machine

/-- An instruction of `n` bytes has issued: results land `lat` cycles from now (R70), no byte of memory changes, and the next
instruction follows. -/
def LandsSome (s : State) (n lat : Nat) (t : State) : Prop :=
  (t.mem = s.mem ∧ GoesTo s t (s.me.pc + BitVec.ofNat 64 n)) ∧ t.me.toks = s.me.toks ∧ t.me.ops = s.me.ops
    ∧ ∃ ws, ws ≠ [] ∧ t.me.results = s.me.results ++ ws.map fun y => { due := s.myCore.cycle + lat, wr := y }

theorem Lands.some {s t : State} {n lat : Nat} {ws : List Wr} (h : Lands s n lat ws t) (hne : ws ≠ []) : LandsSome s n lat t :=
  ⟨⟨h.moved.mem, h.goes⟩, h.toks, h.ops, ws, hne, h.results⟩

theorem retire_mem (s : State) (h : Hd) (n : Nat) : (s.retire h n).mem = s.mem := ((Near.refl s).retire_moved h n).mem

theorem noteWrites_mem (s : State) (ws : List Wr) : (s.noteWrites ws).mem = s.mem := by
  unfold State.noteWrites State.spoil
  split <;> rfl

/-! ### The body of an instruction whose results land -/

/-- Results land from a state in which only seeds have changed since the issue of the instruction. -/
theorem noteWrites_land_retire {s t : State} {seeds : Lanes} (ht : t = { s.fresh427 with me := { s.fresh427.me with seeds := seeds } })
    (h : Hd) (n lat : Nat) {ws : List Wr} (hne : ws ≠ []) :
    LandsSome s n lat (((t.noteWrites ws).land lat ws).retire h n) := by
  subst ht
  obtain ⟨hme, hwin, hstk, _⟩ := noteWrites_keeps { s.fresh427 with me := { s.fresh427.me with seeds := seeds } } ws
  have hmem := noteWrites_mem { s.fresh427 with me := { s.fresh427.me with seeds := seeds } } ws
  generalize State.noteWrites _ ws = u at hme hwin hstk hmem ⊢
  have hcycle : u.myCore.cycle = s.myCore.cycle := by
    unfold State.myCore State.core State.stk
    rw [hme, hstk]
    rfl
  obtain ⟨htoks, hops, hres⟩ := retire_keeps (u.land lat ws) h n
  refine ⟨⟨(retire_mem _ h n).trans hmem, retire_goes h n ?_ ?_ ?_ ?_ ?_⟩, htoks.trans ?_, hops.trans ?_, ws, hne, hres.trans ?_⟩
  · rw [State.land_me, hme]; rfl
  · rw [State.land_me, hme]; rfl
  · rw [State.land_me, hme]; rfl
  · rw [State.land_me, hme]; rfl
  · rw [State.land_win, hwin]; rfl
  · rw [State.land_me, hme]; rfl
  · rw [State.land_me, hme]; rfl
  · rw [State.land_me, hcycle, hme]; rfl

theorem stepSeeds_seeds (s : State) (mode : Rnd) (m : Mask) (n : Nat) :
    ∃ seeds, s.stepSeeds mode m n = { s with me := { s.me with seeds := seeds } } := by
  unfold State.stepSeeds
  dsimp only
  split
  · exact ⟨_, rfl⟩
  · exact ⟨s.me.seeds, rfl⟩

variable {s : State} {i : Instr} {h : Hd} {n : Need8} {lat : Nat} {ws : State → List Wr}

/-- A fixed-latency instruction that acts completes. -/
theorem alu_completes (ha : s.Acts h) (hk : n.chk = none) (ht : n.tok = none) (hne : ws s.fresh427 ≠ []) :
    ∃ t, s.alu i h n lat ws = .next t ∧ LandsSome s i.bytes lat t := by
  obtain ⟨t, ht, hl⟩ := alu_lands (i := i) (lat := lat) (ws := ws) ha hk ht
  exact ⟨t, ht, hl.some hne⟩

/-- The same for one that may take generator steps (R92). -/
theorem falu_completes {mode : Rnd} {steps : Nat} (ha : s.Acts h) (hk : n.chk = none) (ht : n.tok = none)
    (hne : ws s.fresh427 ≠ []) : ∃ t, s.falu i h n lat mode steps ws = .next t ∧ LandsSome s i.bytes lat t := by
  obtain ⟨seeds, hs⟩ := stepSeeds_seeds s.fresh427 mode (s.fresh427.active h) steps
  unfold State.falu
  rw [gate_on ha hk fun k hk => absurd (ht.symm.trans hk) (Option.some_ne_none k).symm]
  exact ⟨_, rfl, noteWrites_land_retire hs h i.bytes lat hne⟩

theorem arith_completes {x : VA} {rd : List Rd} {ty : FTy} {lo : Bool} {rnd : Rnd} {f : Ext → Ext → Nat → Nat → Ext}
    (ha : s.Acts x.h) : ∃ t, s.arith i x rd ty lo rnd f = .next t ∧ LandsSome s i.bytes 6 t :=
  falu_completes ha rfl rfl (List.cons_ne_nil _ _)

theorem special_completes {u : U} {rnd : Rnd} {f : Word → Nat → Nat} (ha : s.Acts u.h) :
    ∃ t, s.special i u rnd f = .next t ∧ LandsSome s i.bytes 16 t :=
  falu_completes ha rfl rfl (List.cons_ne_nil _ _)

theorem fminmax_completes {x : VA} {ty : FTy} {lo up : Bool} (ha : s.Acts x.h) :
    ∃ t, s.fminmax i x ty lo up = .next t ∧ LandsSome s i.bytes 6 t :=
  alu_completes ha rfl rfl (List.cons_ne_nil _ _)

theorem fcompare_completes {cc : FCC} {p : PReg} {v : VReg} {b : OpB} {ty : FTy} {lo : Bool} (ha : s.Acts h) :
    ∃ t, s.fcompare i h cc p v b ty lo = .next t ∧ LandsSome s i.bytes 4 t :=
  alu_completes ha rfl rfl (List.cons_ne_nil _ _)

/-! ### Every form writes something -/

theorem sopWrites_ne_nil (s : State) (ty : ITy) (op : SOp) : s.sopWrites ty op ≠ [] := by
  cases op <;> exact List.cons_ne_nil _ _

theorem ETy.width_pos (ty : ETy) : 0 < ty.width := by cases ty <;> decide

/-- Elements of some width fill at least a part of one register. -/
theorem streamWr_ne_nil (s : State) (r : VReg) (m : Mask) (mask : Nat) (x : Nat → Nat) (td : ETy) (o k : Nat) :
    s.streamWr r (ceilDiv ((o + (k + 1)) * td.width) 32) m mask x ≠ [] := by
  have hpos : 0 < (o + (k + 1)) * td.width := Nat.mul_pos (Nat.succ_pos _) (ETy.width_pos td)
  have hregs : ceilDiv ((o + (k + 1)) * td.width) 32 ≠ 0 := by unfold ceilDiv; omega
  unfold State.streamWr
  simpa using hregs

theorem blkRegs_ne_zero (td : ETy) : blkRegs td ≠ 0 := by
  unfold blkRegs
  split <;> decide

/-- What the arm of an instruction answers, the instruction answers. -/
theorem of_arm (out : Out) {post : State → Prop} (harm : exec i s = out) (h : ∃ t, out = .next t ∧ post t) :
    ∃ t, exec i s = .next t ∧ post t := harm ▸ h

/-! ### The forms that do not go through a fixed-latency unit -/

/-- R143: `sput` of a register that it may write. -/
theorem sput_completes {r : SpecReg} {a : SReg} (ha : s.Acts h) (hr : r = .mstep ∨ r = .trapinfo ∧ s.me.priv = true) :
    ∃ t, exec (.sput h r a) s = .next t ∧ LandsSome s (Instr.sput h r a).bytes 4 t := by
  have hpriv : ¬ (r = .trapinfo ∧ s.me.priv = false) := by
    rintro ⟨rfl, hp⟩
    rcases hr with hr | ⟨_, hq⟩
    · cases hr
    · exact absurd hq (by rw [hp]; decide)
  have hown : ¬ (r ≠ .trapinfo ∧ r ≠ .mstep) := fun ⟨ht, hm⟩ => hr.elim hm fun e => ht e.1
  have hexec : exec (.sput h r a) s = execSput h r a s := rfl
  rw [hexec, execSput, if_neg hpriv, if_neg hown, gate_on ha rfl fun k hk => absurd hk (Option.some_ne_none k).symm]
  refine ⟨_, rfl, noteWrites_land_retire (seeds := s.me.seeds) rfl h _ 4 ?_⟩
  split <;> exact List.cons_ne_nil _ _

/-- R182: the seeds of the active lanes are those of the operand. -/
theorem reseed_completes {a : VReg} (ha : s.Acts h) : ∃ t, s.reseed i h a = .next t
    ∧ (t.mem = s.mem ∧ GoesTo s t (s.me.pc + BitVec.ofNat 64 i.bytes)) ∧ t.me.results = s.me.results
    ∧ ∀ l < 32, lane t.me.seeds l = if (s.active h).has l then lane (s.v a) l else lane s.me.seeds l := by
  unfold State.reseed
  rw [gate_on ha rfl fun k hk => absurd hk (Option.some_ne_none k).symm]
  have seeded (u : State) (hu : u = s.fresh427 ∨ u = s.fresh427.spoil) (new : Lanes) :
      let w : State := { u with me := { u.me with seeds := new } }
      ((w.retire h i.bytes).mem = s.mem ∧ GoesTo s (w.retire h i.bytes) (s.me.pc + BitVec.ofNat 64 i.bytes))
        ∧ (w.retire h i.bytes).me.results = s.me.results ∧ (w.retire h i.bytes).me.seeds = new := by
    intro w
    have hseeds : (w.retire h i.bytes).me.seeds = new := by
      rw [((Near.refl w).retire_moved h i.bytes).me]
    obtain ⟨_, _, hres⟩ := retire_keeps w h i.bytes
    refine ⟨⟨(retire_mem w h _).trans ?_, retire_goes h _ ?_ ?_ ?_ ?_ ?_⟩, hres.trans ?_, hseeds⟩ <;>
      rcases hu with rfl | rfl <;> rfl
  obtain ⟨hgoes, hres, hseeds⟩ := seeded
    (if blend (s.fresh427.active h) (s.fresh427.v a) s.fresh427.me.seeds = s.fresh427.me.seeds then s.fresh427 else s.fresh427.spoil)
    (by split; exacts [.inl rfl, .inr rfl]) (blend (s.fresh427.active h) (s.fresh427.v a) s.fresh427.me.seeds)
  refine ⟨_, rfl, hgoes, hres, fun l hl => ?_⟩
  dsimp only
  rw [hseeds, lane_blend _ _ _ _ hl]
  rfl

/-- A scalar form without a token lands; one with a token becomes an outstanding operation. -/
theorem scalarForm_lands {ity : ITy} {op : SOp} (ha : s.Acts h) (hop : sopTok op = none) :
    ∃ t, exec (.scalarForm h ity op) s = .next t ∧ LandsSome s (Instr.scalarForm h ity op).bytes 4 t := by
  have hexec : exec (.scalarForm h ity op) s = execScalarForm h ity op s := rfl
  rw [hexec, execScalarForm, hop]
  exact alu_completes ha rfl rfl (sopWrites_ne_nil _ ity op)

theorem scalarForm_starts {ity : ITy} {op : SOp} {k : Tok} (ha : s.Acts h) (hop : sopTok op = some k) (hk : s.Room k) :
    ∃ t, exec (.scalarForm h ity op) s = .next t
      ∧ (t.mem = s.mem ∧ GoesTo s t (s.me.pc + BitVec.ofNat 64 (Instr.scalarForm h ity op).bytes))
      ∧ t.me.results = s.me.results ∧ t.me.toks = vset s.me.toks k.val (s.me.tok k + 1)
      ∧ ∃ o, t.me.ops = s.me.ops ++ [o] ∧ o.instr = .scalarForm h ity op := by
  have hexec : exec (.scalarForm h ity op) s = execScalarForm h ity op s := rfl
  rw [hexec, execScalarForm, hop]
  obtain ⟨t, ht, hs⟩ := long_starts (i := .scalarForm h ity op) (n := { reads := sopReads op })
    (ws := fun t => t.sopWrites ity op) ha rfl hk
  obtain ⟨o, hops, hinstr, _⟩ := hs.op
  exact ⟨t, ht, ⟨hs.moved.mem, hs.goes⟩, hs.results, hs.toks, o, hops, hinstr⟩

/-- R143: what `sget` reads lands in a vector register or in a scalar one. -/
theorem sget_completes {r : SpecReg} {e : Fin 64} (ha : s.Acts h) :
    ∃ t, exec (.sget h r e) s = .next t ∧ LandsSome s (Instr.sget h r e).bytes 4 t := by
  have hexec : exec (.sget h r e) s = execSget h r e s := rfl
  rw [hexec, execSget]
  refine alu_completes ha rfl rfl ?_
  split <;> exact List.cons_ne_nil _ _

/-- A wide block takes two registers or four. -/
theorem bdeq_completes {w v : VReg} {a : SReg} {td ts : ETy} {i4 : Bool} {rnd : Rnd} (ha : s.Acts h) :
    ∃ t, exec (.bdeq h w v a td ts i4 rnd) s = .next t ∧ LandsSome s (Instr.bdeq h w v a td ts i4 rnd).bytes 6 t := by
  have hexec : exec (.bdeq h w v a td ts i4 rnd) s = execBdeq h w v a td ts i4 rnd s := rfl
  rw [hexec]
  unfold execBdeq
  refine falu_completes ha rfl rfl ?_
  simpa using blkRegs_ne_zero td

/-- A packed stream takes at least one register. -/
theorem pack_completes {x : U} {td ts : ETy} {o1 o2 k : Nat} {rnd : Rnd} (ha : s.Acts x.h) :
    ∃ t, s.pack i x td ts o1 o2 (k + 1) rnd = .next t ∧ LandsSome s i.bytes 6 t := by
  unfold State.pack
  exact falu_completes ha rfl rfl (streamWr_ne_nil _ _ _ _ _ td o2 k)

end Sys2Proof.Machine
end

section
/-! PROOF. Every listed form completes wherever it acts (O60). -/
namespace Sys2Proof.Machine

variable {s : State}

/-- R171, R172, R179 to R182: comparison, block scaling and the generator's seed. -/
theorem comparisonsAndBlocks_complete {h : Hd} (ha : s.Acts h) (cc : FCC) (p : PReg) (v w : VReg) (b : OpB) (ty : FTy) (lo : Bool)
    (a d : SReg) (td ts : ETy) (ce i4 ofn : Bool) (rnd : Rnd) :
    (∃ t, exec (.fcmp h cc p v b) s = .next t ∧ LandsSome s (Instr.fcmp h cc p v b).bytes 4 t)
    ∧ (∃ t, exec (.fcmpX h cc p v b ty lo) s = .next t ∧ LandsSome s (Instr.fcmpX h cc p v b ty lo).bytes 4 t)
    ∧ (∃ t, exec (.bscl h d v td ts ce i4) s = .next t ∧ LandsSome s (Instr.bscl h d v td ts ce i4).bytes 8 t)
    ∧ ∃ t, exec (.bqnt h w v a td ts ofn i4 rnd) s = .next t ∧ LandsSome s (Instr.bqnt h w v a td ts ofn i4 rnd).bytes 6 t := by
  refine ⟨of_arm (execFcmp h cc p v b s) rfl ?_, of_arm (execFcmpX h cc p v b ty lo s) rfl ?_,
    of_arm (execBscl h d v td ts ce i4 s) rfl ?_, of_arm (execBqnt h w v a td ts ofn i4 rnd s) rfl ?_⟩
  · exact fcompare_completes ha
  · exact fcompare_completes ha
  · exact alu_completes ha rfl rfl (List.cons_ne_nil _ _)
  · exact falu_completes ha rfl rfl (List.cons_ne_nil _ _)

/-- R170, R171: arithmetic, minimum and maximum. -/
theorem arithmetic_completes {x : VA} (ha : s.Acts x.h) (ty : FTy) (lo : Bool) (rnd : Rnd) (v : VReg) :
    (∃ t, exec (.fadd x) s = .next t ∧ LandsSome s (Instr.fadd x).bytes 6 t)
    ∧ (∃ t, exec (.faddX x ty lo rnd) s = .next t ∧ LandsSome s (Instr.faddX x ty lo rnd).bytes 6 t)
    ∧ (∃ t, exec (.fsub x) s = .next t ∧ LandsSome s (Instr.fsub x).bytes 6 t)
    ∧ (∃ t, exec (.fsubX x ty lo rnd) s = .next t ∧ LandsSome s (Instr.fsubX x ty lo rnd).bytes 6 t)
    ∧ (∃ t, exec (.fmul x) s = .next t ∧ LandsSome s (Instr.fmul x).bytes 6 t)
    ∧ (∃ t, exec (.fmulX x ty lo rnd) s = .next t ∧ LandsSome s (Instr.fmulX x ty lo rnd).bytes 6 t)
    ∧ (∃ t, exec (.ffma x ty lo rnd v) s = .next t ∧ LandsSome s (Instr.ffma x ty lo rnd v).bytes 6 t)
    ∧ (∃ t, exec (.fmin x) s = .next t ∧ LandsSome s (Instr.fmin x).bytes 6 t)
    ∧ (∃ t, exec (.fminX x ty lo) s = .next t ∧ LandsSome s (Instr.fminX x ty lo).bytes 6 t)
    ∧ (∃ t, exec (.fmax x) s = .next t ∧ LandsSome s (Instr.fmax x).bytes 6 t)
    ∧ ∃ t, exec (.fmaxX x ty lo) s = .next t ∧ LandsSome s (Instr.fmaxX x ty lo).bytes 6 t := by
  refine ⟨of_arm (execFadd x s) rfl ?_, of_arm (execFaddX x ty lo rnd s) rfl ?_, of_arm (execFsub x s) rfl ?_,
    of_arm (execFsubX x ty lo rnd s) rfl ?_, of_arm (execFmul x s) rfl ?_, of_arm (execFmulX x ty lo rnd s) rfl ?_,
    of_arm (execFfma x ty lo rnd v s) rfl ?_, of_arm (execFmin x s) rfl ?_, of_arm (execFminX x ty lo s) rfl ?_,
    of_arm (execFmax x s) rfl ?_, of_arm (execFmaxX x ty lo s) rfl ?_⟩
  iterate 7 exact arith_completes ha
  iterate 4 exact fminmax_completes ha

/-- R173, R174: the special functions. -/
theorem specials_complete {u : U} (ha : s.Acts u.h) (rnd : Rnd) :
    (∃ t, exec (.frcp u) s = .next t ∧ LandsSome s (Instr.frcp u).bytes 16 t)
    ∧ (∃ t, exec (.frcpX u rnd) s = .next t ∧ LandsSome s (Instr.frcpX u rnd).bytes 16 t)
    ∧ (∃ t, exec (.frsq u) s = .next t ∧ LandsSome s (Instr.frsq u).bytes 16 t)
    ∧ (∃ t, exec (.frsqX u) s = .next t ∧ LandsSome s (Instr.frsqX u).bytes 16 t)
    ∧ (∃ t, exec (.fsqrt u) s = .next t ∧ LandsSome s (Instr.fsqrt u).bytes 16 t)
    ∧ (∃ t, exec (.fsqrtX u rnd) s = .next t ∧ LandsSome s (Instr.fsqrtX u rnd).bytes 16 t)
    ∧ (∃ t, exec (.fex2 u) s = .next t ∧ LandsSome s (Instr.fex2 u).bytes 16 t)
    ∧ (∃ t, exec (.fex2X u) s = .next t ∧ LandsSome s (Instr.fex2X u).bytes 16 t)
    ∧ (∃ t, exec (.flg2 u) s = .next t ∧ LandsSome s (Instr.flg2 u).bytes 16 t)
    ∧ (∃ t, exec (.flg2X u) s = .next t ∧ LandsSome s (Instr.flg2X u).bytes 16 t)
    ∧ (∃ t, exec (.fsin u) s = .next t ∧ LandsSome s (Instr.fsin u).bytes 16 t)
    ∧ (∃ t, exec (.fsinX u) s = .next t ∧ LandsSome s (Instr.fsinX u).bytes 16 t)
    ∧ (∃ t, exec (.fcos u) s = .next t ∧ LandsSome s (Instr.fcos u).bytes 16 t)
    ∧ ∃ t, exec (.fcosX u) s = .next t ∧ LandsSome s (Instr.fcosX u).bytes 16 t := by
  refine ⟨of_arm (execFrcp u s) rfl ?_, of_arm (execFrcpX u rnd s) rfl ?_, of_arm (execFrsq u s) rfl ?_,
    of_arm (execFrsqX u s) rfl ?_, of_arm (execFsqrt u s) rfl ?_, of_arm (execFsqrtX u rnd s) rfl ?_,
    of_arm (execFex2 u s) rfl ?_, of_arm (execFex2X u s) rfl ?_, of_arm (execFlg2 u s) rfl ?_, of_arm (execFlg2X u s) rfl ?_,
    of_arm (execFsin u s) rfl ?_, of_arm (execFsinX u s) rfl ?_, of_arm (execFcos u s) rfl ?_, of_arm (execFcosX u s) rfl ?_⟩
  all_goals exact special_completes ha

/-- R176 to R178: conversion and packing. -/
theorem conversions_complete {u : U} (ha : s.Acts u.h) (td ts : ETy) (sel : Fin 8) (ofn sat : Bool) (rnd : Rnd) (e : Fin 64) (n : Fin 32) :
    (∃ t, exec (.fcvt u td ts sel ofn sat rnd) s = .next t ∧ LandsSome s (Instr.fcvt u td ts sel ofn sat rnd).bytes 6 t)
    ∧ (∃ t, exec (.fpk u td ts e n rnd) s = .next t ∧ LandsSome s (Instr.fpk u td ts e n rnd).bytes 6 t)
    ∧ ∃ t, exec (.funpk u td ts e n rnd) s = .next t ∧ LandsSome s (Instr.funpk u td ts e n rnd).bytes 6 t := by
  refine ⟨of_arm (execFcvt u td ts sel ofn sat rnd s) rfl ?_, of_arm (execFpk u td ts e n rnd s) rfl ?_,
    of_arm (execFunpk u td ts e n rnd s) rfl ?_⟩
  · exact falu_completes ha rfl rfl (List.cons_ne_nil _ _)
  · exact pack_completes ha
  · exact pack_completes ha

/-- Settles O60: each form is one of a few shapes, each of which completes. -/
theorem scalarAndFloatFormsComplete : Obligations.ScalarAndFloatFormsComplete := by
  intro s h x u v w a d b p r e n ity op k ty td ts sel lo ofn sat ce i4 rnd cc goes lands starts
  refine ⟨fun ha => ?_, fun ha => arithmetic_completes ha ty lo rnd v, fun ha => ?_⟩
  · obtain ⟨hfcmp, hfcmpX, hbscl, hbqnt⟩ := comparisonsAndBlocks_complete ha cc p v w b ty lo a d td ts ce i4 ofn rnd
    refine ⟨sget_completes ha, sput_completes ha, scalarForm_lands ha, scalarForm_starts ha, hfcmp, hfcmpX, hbscl, hbqnt,
      bdeq_completes ha, fun i hi => ?_⟩
    simp only [List.mem_cons, List.not_mem_nil, or_false] at hi
    rcases hi with rfl | rfl
    · exact of_arm (execRseed h v s) rfl (reseed_completes ha)
    · exact of_arm (execRseedX h v s) rfl (reseed_completes ha)
  · obtain ⟨h1, h2, h3, h4, h5, h6, h7, h8, h9, h10, h11, h12, h13, h14⟩ := specials_complete ha rnd
    exact ⟨h1, h2, h3, h4, h5, h6, h7, h8, h9, h10, h11, h12, h13, h14, conversions_complete ha td ts sel ofn sat rnd e n⟩

end Sys2Proof.Machine
end

section
/-! PROOF. Bytes that memory holds from an address on (R3, R193). -/
namespace Sys2Proof.Machine

/-- Memory holds `bs` from `pa` on. -/
def Memory.Holds (m : Memory) (pa : Nat) (bs : List Byte) : Prop := ∀ i < bs.length, m.byte (pa + i) = bs.getD i 0#8

theorem Memory.holds_append {m : Memory} {pa : Nat} {as bs : List Byte} :
    m.Holds pa (as ++ bs) ↔ m.Holds pa as ∧ m.Holds (pa + as.length) bs := by
  constructor
  · refine fun h => ⟨fun i hi => ?_, fun i hi => ?_⟩
    · rw [h i (by rw [List.length_append]; omega), List.getD_append _ _ _ _ hi]
    · rw [Nat.add_assoc, h (as.length + i) (by rw [List.length_append]; omega), List.getD_append_right _ _ _ _ (by omega),
        Nat.add_sub_cancel_left]
  · rintro ⟨ha, hb⟩ i hi
    rw [List.length_append] at hi
    by_cases hlt : i < as.length
    · rw [ha i hlt, List.getD_append _ _ _ _ hlt]
    · have := hb (i - as.length) (by omega)
      rw [List.getD_append_right _ _ _ _ (by omega), ← this]
      congr 1
      omega

theorem Memory.Holds.read {m : Memory} {pa n x : Nat} (h : m.Holds pa (bytesLE n x)) : m.read pa n = x % 2 ^ (8 * n) := by
  have := Memory.read_of_bytes pa (bytesLE n x) h
  rwa [bytesLE_length, ofBytesLE_map, show (256 : Nat) = 2 ^ 8 from rfl, ← Nat.pow_mul] at this

theorem Memory.holds_writeLines {m : Memory} (h : m.wf = true) (pa : Nat) (bs : List Byte) (tag : Nat) :
    (m.writeLines pa bs tag).Holds pa bs := by
  intro i hi
  rw [byte_writeLines h, if_pos (by omega), Nat.add_sub_cancel_left]

end Sys2Proof.Machine
end

section
/-! PROOF. Error records are published in their ring or dropped (R56, R477 to R480). -/
namespace Sys2Proof.Machine

/-! ### The bytes of a record (R478) -/

theorem errRec_bytes_length {r : ErrRec} (h : r.payload.length ≤ 32) (phase : Nat) : (r.bytes phase).length = 64 := by
  simp only [ErrRec.bytes, zeros, List.length_append, List.length_replicate, bytesLE_length]
  omega

/-- What a slot holds of a record, field by field. -/
theorem holds_errRec {m : Memory} {pa : Nat} {r : ErrRec} {phase seq : Nat} (hseq : r.seq = some seq) (hm : m.Holds pa (r.bytes phase)) :
    m.read pa 8 = (phase + 2 ^ 8 * r.typ + 2 ^ 16 * r.loc + 2 ^ 32 * seq) % 2 ^ 64
      ∧ m.read (pa + 8) 4 = r.skb % 2 ^ 32 ∧ m.read (pa + 12) 4 = r.grid % 2 ^ 32 ∧ m.read (pa + 16) 4 = r.team % 2 ^ 32
      ∧ m.read (pa + 20) 2 = r.asid % 2 ^ 16 ∧ m.read (pa + 22) 1 = r.grp % 2 ^ 8 ∧ m.read (pa + 23) 1 = r.cls % 2 ^ 8
      ∧ m.Holds (pa + 32) (r.payload ++ zeros (32 - r.payload.length)) := by
  unfold ErrRec.bytes at hm
  rw [List.append_assoc] at hm
  iterate 8 rw [Memory.holds_append] at hm
  simp only [List.length_append, bytesLE_length, zeros, List.length_replicate] at hm
  obtain ⟨⟨⟨⟨⟨⟨⟨⟨hfirst, hskb⟩, hgrid⟩, hteam⟩, hasid⟩, hgrp⟩, hcls⟩, -⟩, hpayload⟩ := hm
  refine ⟨?_, hskb.read, hgrid.read, hteam.read, hasid.read, hgrp.read, hcls.read, hpayload⟩
  rw [hfirst.read, hseq]
  simp only [Option.getD_some]
  omega

/-- The payload, with zeros after it. -/
theorem payload_bytes {m : Memory} {pa : Nat} {bs : List Byte} (hlen : bs.length ≤ 32) (h : m.Holds pa (bs ++ zeros (32 - bs.length)))
    {j : Nat} (hj : j < 32) : m.byte (pa + j) = bs.getD j 0#8 := by
  have hall : (bs ++ zeros (32 - bs.length)).length = 32 := by
    rw [List.length_append, zeros, List.length_replicate]
    omega
  rw [h j (by omega)]
  by_cases hlt : j < bs.length
  · exact List.getD_append _ _ _ _ hlt
  · rw [List.getD_append_right _ _ _ _ (by omega), List.getD_eq_default bs _ (by omega)]
    rw [zeros, List.getD_eq_getElem _ _ (by rw [List.length_replicate]; omega), List.getElem_replicate]

/-! ### What the launcher does with the oldest record -/

/-- The oldest record has left the queue. -/
def State.recordTaken (s : State) (rs : List ErrRec) : State := s.onMd fun m => { m with errq := rs }

section
variable {s : State} {r : ErrRec} {rs : List ErrRec} {seq : Nat} (hq : s.md.errq = r :: rs) (hf : s.md.fatal = false)
  (hseq : r.seq = some seq)
include hq hf hseq

/-- No ring: the record is dropped. -/
theorem errorStep_off (hen : ringEn s.md.errlog = false) : s.errorStep = some (s.recordTaken rs) := by
  have hgo : (s.md.fatal || r.seq.isNone) = false := by rw [hf, hseq]; rfl
  unfold State.errorStep
  rw [hq]
  simp only [hgo, hen]
  rfl

variable (hen : ringEn s.md.errlog = true) (hw : s.hostWaits (ringHdr s.md.errlog) false = false)
include hen hw

/-- The ring that the register names is refused. -/
theorem errorStep_refused (hh : s.ringHeader (ringHdr s.md.errlog) = none) : s.errorStep =
    some (((s.recordTaken rs).onMd fun m => { m with errlog := m.errlog &&& ~~~1#64 }).ringRefused 2 0 0 (ringHdr s.md.errlog)) := by
  have hgo : (s.md.fatal || r.seq.isNone) = false := by rw [hf, hseq]; rfl
  unfold State.errorStep
  rw [hq]
  simp only [hgo, hen, hw, hh]
  rfl

/-- The record is published in that ring. -/
theorem errorStep_publishes {n : Nat} (hh : s.ringHeader (ringHdr s.md.errlog) = some n) :
    s.errorStep = (s.recordTaken rs).publish r (ringHdr s.md.errlog) n := by
  have hgo : (s.md.fatal || r.seq.isNone) = false := by rw [hf, hseq]; rfl
  unfold State.errorStep
  rw [hq]
  simp only [hgo, hen, hw, hh]
  rfl

end

theorem ringHeader_none_iff {s : State} {hdr : Nat} :
    s.ringHeader hdr = none ↔ s.mem.poisoned hdr = true ∨ ringLogn (s.mem.read hdr 64) = none := by
  unfold State.ringHeader
  split <;> simp_all

theorem ringHeader_some {s : State} {hdr n : Nat} (hp : s.mem.poisoned hdr = false) (hn : ringLogn (s.mem.read hdr 64) = some n) :
    s.ringHeader hdr = some n := by
  unfold State.ringHeader
  rw [hp, hn]
  rfl

theorem exec_errorRecord {s t : State} (h : s.errorStep = some t) : exec .errorRecord s = .next t := by
  have harm : exec .errorRecord s = .next ((s.errorStep).getD s) := rfl
  rw [harm, h]
  rfl

/-! ### Publication -/

/-- The error ring is full: the record is dropped and counted. -/
theorem publish_full {s : State} {r : ErrRec} {hdr n : Nat}
    (h : 2 ^ n ≤ (s.mem.read hdr 8 + 2 ^ 64 - s.mem.read (hdr + 8) 8) % 2 ^ 64) :
    s.publish r hdr n = some (s.onMd fun m => { m with drop := (m.drop + 1) % 2 ^ 32 }) := by
  unfold State.publish
  exact if_pos h

/-- Memory after a record is published at index `k`: the next index is claimed, and then the slot at `pa` is filled. -/
def State.publishedMem (s : State) (r : ErrRec) (hdr k pa n : Nat) : Memory :=
  (s.mem.write hdr (bytesLE 8 (k + 1)) 0).writeLines pa (r.bytes (k / 2 ^ n % 2)) 0

section
variable {s : State} {r : ErrRec} {hdr k ridx pa n : Nat}

/-- The record takes the index at WIDX, and vector 0 is signalled where the ring was empty. -/
theorem publish_room (hk : s.mem.read hdr 8 = k) (hridx : s.mem.read (hdr + 8) 8 = ridx) (hpa : hdr + slotOff k n = pa)
    (hroom : (k + 2 ^ 64 - ridx) % 2 ^ 64 < 2 ^ n) (hw : s.agentWaits hdr 8 = false) (hs : s.agentWaits pa 64 = false) :
    ∃ t, s.publish r hdr n = some t ∧ t.mem = s.publishedMem r hdr k pa n
      ∧ t.md = if k = ridx then { s.md with msix := s.md.msix ||| 1#2 } else s.md := by
  have hmd (u : State) (pa k : Nat) : (u.written pa k).md = u.md := by
    obtain ⟨f, st, -, h⟩ := written_shape u pa k
    rw [h]
  unfold State.publish
  simp only [hk, hridx, hpa]
  rw [if_neg (Nat.not_le.mpr hroom), hw, hs]
  refine ⟨_, rfl, ?_⟩
  split
  · exact ⟨rfl, by simp only [State.onMd, hmd, State.agentWrite]⟩
  · exact ⟨rfl, by simp only [hmd, State.agentWrite]⟩

/-- The claim and the slot read back, and no other byte has changed. -/
theorem publishedMem_reads (hwf : s.mem.wf = true) (hpa : hdr + slotOff k n = pa) (hlen : r.payload.length ≤ 32) :
    (s.publishedMem r hdr k pa n).read hdr 8 = (k + 1) % 2 ^ 64
      ∧ (s.publishedMem r hdr k pa n).Holds pa (r.bytes (k / 2 ^ n % 2))
      ∧ ∀ a, (a < hdr ∨ hdr + 8 ≤ a) → (a < pa ∨ pa + 64 ≤ a) → (s.publishedMem r hdr k pa n).byte a = s.mem.byte a := by
  have hclaim := Memory.write_wf hwf hdr (bytesLE 8 (k + 1)) 0
  have hbytes := errRec_bytes_length hlen (k / 2 ^ n % 2)
  have hapart : hdr + 8 ≤ pa := by
    unfold slotOff at hpa
    omega
  have hbyte (a : Nat) := Memory.byte_writeLines hclaim pa a (r.bytes (k / 2 ^ n % 2)) 0
  rw [hbytes] at hbyte
  unfold State.publishedMem
  refine ⟨?_, Memory.holds_writeLines hclaim pa _ 0, fun a hhdr hslot => ?_⟩
  · refine (Memory.read_congr hdr 8 fun a _ hlt => ?_).trans (Memory.read_write_bytesLE hwf hdr 8 (k + 1) 0)
    rw [hbyte, if_neg (by omega)]
  · rw [hbyte, if_neg (by omega), Memory.byte_write hwf, bytesLE_length, if_neg (by omega)]

end

/-- Settles O50: the cases of what the launcher finds, with the bytes of the slot read back field by field. -/
theorem errorRecordsArePublished : Obligations.ErrorRecordsArePublished := by
  intro s r rs seq hq hf hwf hseq hdr k ridx
  refine ⟨fun hen => ⟨_, exec_errorRecord (errorStep_off hq hf hseq hen), rfl, rfl⟩, fun hen hw => ⟨fun hbad => ?_, fun n hp hn => ?_⟩⟩
  · obtain ⟨x, st, i, fr, hrep, htyp, -⟩ := report_shape ((s.recordTaken rs).onMd fun m => { m with errlog := m.errlog &&& ~~~1#64 })
      0 13 0 0 0 255 0 9 [BitVec.ofNat 8 2, BitVec.ofNat 8 0, BitVec.ofNat 8 0, BitVec.ofNat 8 (s.mem.read (hdr + 16) 1)]
    have hstep := errorStep_refused hq hf hseq hen hw (ringHeader_none_iff.mpr hbad)
    exact ⟨_, exec_errorRecord (hstep.trans (congrArg some hrep)), rfl, rfl, x, rfl, htyp⟩
  · intro pa
    have hstep := errorStep_publishes hq hf hseq hen hw (ringHeader_some hp hn)
    have hpa : hdr + slotOff k n = pa := (Nat.add_assoc hdr 64 _).symm
    refine ⟨fun hfull => ?_, fun hroom hclaim hslot hlen => ?_⟩
    · exact ⟨_, exec_errorRecord (hstep.trans (publish_full (s := s.recordTaken rs) hfull)), rfl, rfl⟩
    · obtain ⟨t, hpub, hmem, hmd⟩ := publish_room (s := s.recordTaken rs) (r := r) (hdr := hdr) (k := k) (ridx := ridx)
        rfl rfl hpa hroom hclaim hslot
      obtain ⟨hindex, hholds, hrest⟩ := publishedMem_reads (s := s.recordTaken rs) hwf hpa hlen
      rw [← hmem] at hindex hholds hrest
      obtain ⟨hfirst, hskb, hgrid, hteam, hasid, hgrp, hcls, hpayload⟩ := holds_errRec hseq hholds
      refine ⟨t, exec_errorRecord (hstep.trans hpub), hindex, ?_, hfirst, hskb, hgrid, hteam, hasid, hgrp, hcls,
        fun j hj => payload_bytes hlen hpayload hj, hrest, ?_⟩
      · rw [hmd]
        split <;> rfl
      · rw [hmd]
        exact apply_ite ModSt.msix (k = ridx) _ _

end Sys2Proof.Machine
end

section
/-! PROOF. Fields of a stack that steps leave alone, and records with all their fields (R477, R491). -/
namespace Sys2Proof.Machine

/-! ### A field of every stack -/

/-- From `s` to `t` the field `F` of no stack has changed. -/
structure StackKept {α : Type} (F : StackSt → α) (s t : State) : Prop where
  stk : ∀ j, F (t.stk j) = F (s.stk j)

namespace StackKept
variable {α : Type} {F : StackSt → α} {s t u : State}

theorem of_eq (h : t.stks = s.stks) : StackKept F s t :=
  ⟨fun j => by unfold State.stk; rw [h]⟩

theorem refl (s : State) : StackKept F s s := ⟨fun _ => rfl⟩

theorem trans (a : StackKept F s t) (b : StackKept F t u) : StackKept F s u :=
  ⟨fun j => (b.stk j).trans (a.stk j)⟩

theorem andThen (a : StackKept F s t) (h : u.stks = t.stks) : StackKept F s u := a.trans (of_eq h)

theorem foldl {β : Type} {f : State → β → State} (h : ∀ u x, StackKept F u (f u x)) (l : List β) (s : State) :
    StackKept F s (l.foldl f s) := by
  induction l generalizing s with
  | nil => exact refl s
  | cons x l ih => exact (h s x).trans (ih (f s x))

theorem onStk (s : State) (k : Nat) {f : StackSt → StackSt} (hf : ∀ q, F (f q) = F q) : StackKept F s (s.onStk k f) := by
  refine ⟨fun j => ?_⟩
  by_cases hk : k < 16
  · rw [stk_onStk s hk]
    split
    next h => rw [h, hf]
    next => rfl
  · have hout : (s.onStk k f).stks = s.stks := Vector.setIfInBounds_eq_of_size_le (Nat.le_of_not_lt hk)
    unfold State.stk
    rw [hout]

theorem onCore (s : State) (k c : Nat) (f : Core → Core) (hF : ∀ q cs, F { q with cores := cs } = F q) :
    StackKept F s (s.onCore k c f) := onStk s k fun q => hF q _

theorem onPipe (s : State) (k c p : Nat) (f : Pipe → Pipe) (hF : ∀ q cs, F { q with cores := cs } = F q) :
    StackKept F s (s.onPipe k c p f) := onStk s k fun q => hF q _

theorem written (s : State) (pa n : Nat) (hF : ∀ q r, F { q with resv := r } = F q) : StackKept F s (s.written pa n) := by
  unfold State.written
  refine trans (t := s.onStk (homeStack pa) _) (onStk s _ fun q => hF q _) (foldl ?_ _ _)
  exact fun _ _ => of_eq rfl

theorem meets (s : State) (k : Nat) (g : Option Nat) (hF : ∀ q e, F { q with energy := e } = F q) : StackKept F s (s.meets k g) := by
  unfold State.meets
  split
  · exact refl s
  · split
    · exact refl s
    · exact onStk s k fun q => hF q _

theorem sketch (s : State) (k evt unit asid grid : Nat) (arg : List Byte) (hF : ∀ q b, F { q with sketch := b } = F q) :
    StackKept F s (s.sketch k evt unit asid grid arg) := by
  unfold State.sketch
  dsimp only
  split
  · exact onStk s k fun q => hF q _
  · exact onStk s k fun q => hF q _

theorem report (s : State) (k typ grid team asid grp cls unit : Nat) (payload : List Byte)
    (hF : ∀ q b, F { q with sketch := b } = F q) : StackKept F s (s.report k typ grid team asid grp cls unit payload) :=
  (sketch s k 2 unit asid grid (bytesLE 8 typ ++ bytesLE 8 0) hF).andThen rfl

theorem trip (s : State) (a b : Nat) : StackKept F s (s.trip a b) := by
  obtain ⟨ls, h⟩ := trip_links s a b
  exact of_eq (by rw [h]; rfl)

end StackKept

/-! ### Records -/

/-- The record that stack `k` would send next. -/
def State.newRecord (s : State) (k typ grid team asid grp cls : Nat) (payload : List Byte) : ErrRec where
  no := s.nextId
  seq := none
  stamp := (s.stk k).rclock
  typ := typ
  loc := s.locOf k
  skb := if (s.stk k).sketch.frozen then (Config.freeWord s.fresh).toNat % 4096 else s.skNext k
  grid := grid
  team := team
  asid := asid
  grp := grp
  cls := cls
  payload := payload

/-- What a report changes: the sketchbook, the queue of records and the mesh. -/
theorem report_eq (s : State) (k typ grid team asid grp cls unit : Nat) (payload : List Byte) :
    s.report k typ grid team asid grp cls unit payload = { s with
      stks := (s.sketch k 2 unit asid grid (bytesLE 8 typ ++ bytesLE 8 0)).stks, nextId := s.nextId + 1, fresh := s.fresh + 1,
      md := { s.md with errq := s.md.errq ++ [s.newRecord k typ grid team asid grp cls payload] },
      fabric := s.fabric ++ [⟨k, 0, k, .record s.nextId⟩] } := by
  obtain ⟨st, h⟩ := sketch_shape s k 2 unit asid grid (bytesLE 8 typ ++ bytesLE 8 0)
  unfold State.report
  rw [h]
  rfl

/-! ### One stack -/

theorem onStk_onlyStk (s : State) {k : Nat} (hk : k < 16) (f : StackSt → StackSt) : OnlyStk s (s.onStk k f) k := by
  unfold OnlyStk
  rw [stk_onStk_same s hk]
  rfl

end Sys2Proof.Machine
end

section
/-! PROOF. Copy packets: how a channel takes them, signals and loop iterations (R56, R260, R266, R270, R465). -/
namespace Sys2Proof.Machine

/-! ### Channels -/

theorem chan_onChan (s : State) (k : Fin 16) (l : Fin 4) (f : CopyChan → CopyChan) :
    (s.onChan k.val l.val f).chan k.val l.val = f (s.chan k.val l.val) := by
  unfold State.onChan State.chan
  rw [stk_onStk_same s k.isLt]
  exact (vget_vset _ _ _ _ _ l.isLt).trans (if_pos rfl)

theorem chan_of_kept {s t : State} (h : StackKept StackSt.chans s t) (k l : Nat) : t.chan k l = s.chan k l := by
  unfold State.chan
  rw [h.stk k]

/-! ### The register read again (R56) -/

theorem exec_copyPacket_of_step {s t : State} {k : Fin 16} {l : Fin 4} (h : s.copyPacketStep k.val l.val = some t) :
    exec (.copyPacket k l) s = .next t := by
  have hexec : exec (.copyPacket k l) s = .next ((s.copyPacketStep k.val l.val).getD s) := rfl
  rw [hexec, h]
  rfl

theorem exec_copyPacket_of_none {s : State} {k : Fin 16} {l : Fin 4} (h : s.copyPacketStep k.val l.val = none) :
    exec (.copyPacket k l) s = .next s := by
  have hexec : exec (.copyPacket k l) s = .next ((s.copyPacketStep k.val l.val).getD s) := rfl
  rw [hexec, h]
  rfl

/-- No packet of the channel is still reading: it is at a packet boundary. -/
theorem noneReads_iff {jobs : List CopyJob} (h : ∀ j ∈ jobs, j.readsDone = true) :
    (jobs.any fun (j : CopyJob) => !j.readsDone) = false := by
  simpa using h

theorem copyPacketStep_rewritten {s : State} {k l : Nat} (hb : ∀ j ∈ (s.chan k l).jobs, j.readsDone = true)
    (hr : (s.chan k l).rewritten = true) (hw : s.hostWaits (ringHdr (s.chan k l).reg) false = false) :
    s.copyPacketStep k l = some (s.rereadRing k l) := by
  simp [State.copyPacketStep, noneReads_iff hb, hr, hw]

theorem rereadRing_off {s : State} {k l : Nat} (h : (s.chan k l).reg.getLsbD 0 = false) :
    s.rereadRing k l = s.onChan k l fun x => { x with served := false, rewritten := false } := by
  unfold State.rereadRing ringEn
  rw [if_pos (by simp only [h, Bool.not_false])]

theorem rereadRing_serves {s : State} {k l n : Nat} (he : (s.chan k l).reg.getLsbD 0 = true)
    (h : s.ringHeader (ringHdr (s.chan k l).reg) = some n) :
    s.rereadRing k l = s.onChan k l fun x =>
      { x with served := true, rewritten := false, hdr := ringHdr (s.chan k l).reg, logn := n } := by
  unfold State.rereadRing ringEn
  rw [if_neg (by simp only [he]; decide)]
  simp only [h]

theorem rereadRing_refuses {s : State} {k l : Nat} (he : (s.chan k l).reg.getLsbD 0 = true)
    (h : s.ringHeader (ringHdr (s.chan k l).reg) = none) :
    s.rereadRing k l = (s.onChan k l fun x =>
      { x with served := false, rewritten := false, reg := x.reg &&& ~~~1#64 }).ringRefused 1 l k (ringHdr (s.chan k l).reg) := by
  unfold State.rereadRing ringEn
  rw [if_neg (by simp only [he]; decide)]
  simp only [h]

theorem ringRefused_chan (s : State) (kind level stack hdr k l : Nat) :
    (s.ringRefused kind level stack hdr).chan k l = s.chan k l :=
  chan_of_kept (.report s _ _ _ _ _ _ _ _ _ fun _ _ => rfl) k l

/-! ### The slot of RIDX (R260) -/

/-- The grid whose `cpkt` has published the packet at index `i` of the ring at `hdr`, where one has. -/
def State.publisher (s : State) (k hdr i : Nat) : Option Nat :=
  ((s.stk k).pubs.find? fun p => p.1 == hdr && p.2.1 == i).map fun p => p.2.2

/-- The state in which stack `k` has taken index `i` of the ring at `hdr`: RIDX has advanced, and who published it is forgotten. -/
def State.indexTaken (s : State) (k hdr i : Nat) : State :=
  (s.takeSlot hdr i).onStk k fun q => { q with pubs := q.pubs.filter fun p => !(p.1 == hdr && p.2.1 == i) }

theorem written_mem (s : State) (pa n : Nat) : (s.written pa n).mem = s.mem ∧ (s.written pa n).md = s.md := by
  obtain ⟨st, sp, -, h⟩ := written_shape s pa n
  rw [h]
  exact ⟨rfl, rfl⟩

theorem indexTaken_mem (s : State) (k hdr i : Nat) : (s.indexTaken k hdr i).mem = s.mem.write (hdr + 8) (bytesLE 8 (i + 1)) 0 := rfl

theorem indexTaken_md (s : State) (k hdr i : Nat) : (s.indexTaken k hdr i).md = s.md := (written_mem s _ _).2

theorem indexTaken_chans (s : State) (k hdr i : Nat) : StackKept StackSt.chans s (s.indexTaken k hdr i) :=
  StackKept.trans (t := s.takeSlot hdr i) ((StackKept.written s _ _ fun _ _ => rfl).andThen rfl) (.onStk _ _ fun _ => rfl)

/-- The job of a packet that passes the checks. -/
def State.newJob (s : State) (k hdr i no : Nat) (w : Vector Dword 8) : CopyJob where
  no := no
  idx := i
  words := w
  grid := s.publisher k hdr i
  iter := 0
  begun := !(cOp w == 5 || cOp w == 3)
  next := 0
  seen := []
  cur := none
  left := []
  readsDone := cOp w == 5
  bufs := []
  credits := 0
  done := 0
  tile := none
  swp := []
  fault := none
  ask := .idle

/-- The index taken, and a fault of its packet recorded. -/
def State.indexFaulted (s : State) (k l hdr i : Nat) (w : Vector Dword 8) (c : TClass) (va : Dword) : State :=
  (s.indexTaken k hdr i).copyFault k l (s.publisher k hdr i) w i 0 0 c va 0

/-- The index taken, and a job for its packet begun. -/
def State.indexBegun (s : State) (k l hdr i : Nat) (w : Vector Dword 8) : State :=
  let t := s.indexTaken k hdr i
  { t with nextId := t.nextId + 1 }.onChan k l fun q => { q with jobs := q.jobs ++ [s.newJob k hdr i t.nextId w] }

/-- A served channel at a packet boundary goes by what it finds at RIDX. -/
theorem copyPacketStep_served {s : State} {k l : Nat} (hb : ∀ j ∈ (s.chan k l).jobs, j.readsDone = true)
    (hr : (s.chan k l).rewritten = false) (hs : (s.chan k l).served = true)
    (hw : s.ringWaits (s.chan k l).hdr (s.chan k l).logn = false) (ha : s.agentWaits ((s.chan k l).hdr + 8) 8 = false) :
    s.copyPacketStep k l = match s.ringSlot (s.chan k l).hdr (s.chan k l).logn with
      | .notYet => none
      | .poisoned i => some (s.indexFaulted k l (s.chan k l).hdr i (Vector.replicate 8 0#64) .poison 0#64)
      | .packet i x => match s.packetCheck k (wordsOf x) with
        | some (c, va) => some (s.indexFaulted k l (s.chan k l).hdr i (wordsOf x) c va)
        | none => some (s.indexBegun k l (s.chan k l).hdr i (wordsOf x)) := by
  unfold State.copyPacketStep
  rw [if_neg (by simp [noneReads_iff hb]), if_neg (by simp [hr]), if_neg (by simp [hs, hw, ha])]
  cases s.ringSlot (s.chan k l).hdr (s.chan k l).logn <;> rfl

/-- After a fault of an index just taken the memory is as the advance of RIDX leaves it, no job is new, and the record is that of
R465. -/
theorem indexFaulted_fails (s : State) (k : Fin 16) (l : Fin 4) (hdr i : Nat) (w : Vector Dword 8) (c : TClass) (va : Dword) :
    let t := s.indexFaulted k.val l.val hdr i w c va
    t.mem = s.mem.write (hdr + 8) (bytesLE 8 (i + 1)) 0 ∧ (t.chan k.val l.val).jobs = (s.chan k.val l.val).jobs
      ∧ ∃ r, t.md.errq = s.md.errq ++ [r] ∧ r.typ = 5 ∧ r.cls = tclassCode c
        ∧ r.payload.take 24 = bytesLE 8 va.toNat ++ bytesLE 8 i ++ bytesLE 8 0 ∧ r.payload.getD 28 1#8 = 0#8 := by
  have hchan : StackKept StackSt.chans s (s.indexFaulted k.val l.val hdr i w c va) :=
    (indexTaken_chans s k.val hdr i).trans (.report _ _ _ _ _ _ _ _ _ _ fun _ _ => rfl)
  refine ⟨?_, by rw [chan_of_kept hchan], ?_⟩
  · unfold State.indexFaulted State.copyFault
    rw [report_eq]
    exact indexTaken_mem s k.val hdr i
  · unfold State.indexFaulted State.copyFault
    rw [report_eq]
    exact ⟨_, by rw [indexTaken_md], rfl, rfl, rfl, rfl⟩

theorem indexBegun_chan (s : State) (k : Fin 16) (l : Fin 4) (hdr i : Nat) (w : Vector Dword 8) :
    ((s.indexBegun k.val l.val hdr i w).chan k.val l.val).jobs =
      (s.chan k.val l.val).jobs ++ [s.newJob k.val hdr i (s.indexTaken k.val hdr i).nextId w] := by
  have hkept : StackKept StackSt.chans s { s.indexTaken k.val hdr i with nextId := (s.indexTaken k.val hdr i).nextId + 1 } :=
    (indexTaken_chans s k.val hdr i).andThen rfl
  refine (congrArg CopyChan.jobs (chan_onChan _ k l _)).trans ?_
  rw [chan_of_kept hkept]

theorem copyPacketsAreTaken : Claims.CopyPacketsAreTaken := by
  intro s k l idx x c va
  dsimp only
  intro hb
  refine ⟨fun hr hw => ?_, fun hr hs hw ha => ?_⟩
  · have hstep := exec_copyPacket_of_step (copyPacketStep_rewritten hb hr hw)
    refine ⟨fun hoff => ⟨_, hstep, ?_⟩, fun n hon hn => ⟨_, hstep, ?_⟩, fun hon hn => ⟨_, hstep, ?_⟩⟩
    · rw [rereadRing_off hoff]
      exact ⟨onStk_onlyStk s k.isLt _, chan_onChan s k l _⟩
    · rw [rereadRing_serves hon hn]
      exact ⟨onStk_onlyStk s k.isLt _, chan_onChan s k l _⟩
    · rw [rereadRing_refuses hon hn]
      refine ⟨?_, (ringRefused_chan _ _ _ _ _ _ _).trans (chan_onChan s k l _), ?_⟩
      · unfold State.ringRefused
        rw [report_eq]
        rfl
      · unfold State.ringRefused
        rw [report_eq]
        exact ⟨_, rfl, rfl, rfl⟩
  · have hstep := copyPacketStep_served hb hr hs hw ha
    refine ⟨fun hslot => ?_, fun hslot => ?_, fun hslot hcheck => ?_, fun hslot hcheck => ?_⟩ <;> rw [hslot] at hstep
    · exact exec_copyPacket_of_none hstep
    · exact ⟨_, exec_copyPacket_of_step hstep, indexFaulted_fails s k l _ _ _ _ _⟩
    · simp only [hcheck] at hstep
      exact ⟨_, exec_copyPacket_of_step hstep, indexFaulted_fails s k l _ _ _ _ _⟩
    · simp only [hcheck] at hstep
      exact ⟨_, exec_copyPacket_of_step hstep, rfl, indexTaken_md s k.val _ _, _, indexBegun_chan s k l _ _ _,
        rfl, rfl, rfl, rfl, rfl, rfl⟩

/-! ### Updates of a job -/

/-- A job that waits for a credit is not over, and stands in its ring's first place where it stood there. -/
theorem putJob_head {s : State} {k : Fin 16} {l : Fin 4} {j z : CopyJob} {rest : List CopyJob}
    (hjobs : (s.chan k.val l.val).jobs = j :: rest) (hno : ∀ y ∈ rest, y.no ≠ j.no) (hz : z.no = j.no) (hc : 0 < z.credits) :
    ((s.putJob k.val l.val z).chan k.val l.val).jobs = z :: rest := by
  have hover : jobOver z = false := by
    have : (z.credits == 0) = false := by simp; omega
    simp [jobOver, this]
  have hrest : (rest.filterMap fun (i : CopyJob) => if i.no = z.no then (if jobOver z then none else some z) else some i) = rest := by
    rw [List.filterMap_congr fun y hy => if_neg (hz ▸ hno y hy), List.filterMap_some]
  unfold State.putJob
  rw [chan_onChan, hjobs, List.filterMap_cons, hrest, if_pos hz.symm, hover]
  rfl

/-- The state after job `j` has sent an update to the object at `x`, and counts it. -/
def State.updateSent (s : State) (k l : Nat) (x : Xl) (added arrivals : Nat) (asid : Nat) (j : CopyJob) : State :=
  (s.sendUpdate k k x added 0 arrivals false asid j).1.putJob k l { j with credits := j.credits + 1 }

theorem updateSent_jobs {s : State} {k : Fin 16} {l : Fin 4} {j z : CopyJob} {rest : List CopyJob} (x : Xl) (added arrivals asid : Nat)
    (hjobs : (s.chan k.val l.val).jobs = j :: rest) (hno : ∀ y ∈ rest, y.no ≠ j.no) (hz : z.no = j.no) :
    ((s.updateSent k.val l.val x added arrivals asid z).chan k.val l.val).jobs = { z with credits := z.credits + 1 } :: rest :=
  putJob_head (s := (s.sendUpdate k.val k.val x added 0 arrivals false asid z).1) hjobs hno hz (Nat.succ_pos _)

theorem signalStep_sends {s : State} {k l : Nat} {j : CopyJob} {rest : List CopyJob} {x : Xl} (hjobs : (s.chan k l).jobs = j :: rest)
    (hbegun : j.begun = false) (hop : cOp j.words = 5) (hx : s.xlEngine k (cAsid j.words) true true 16 (cBar j.words) = .ok x) :
    s.signalStep k l = some (s.updateSent k l x 0 1 (cAsid j.words) { j with begun := true }) := by
  unfold State.signalStep
  rw [hjobs]
  simp only [hop, hbegun, hx, ne_eq, not_true_eq_false, Bool.false_eq_true, or_self, if_false]
  rfl

/-- The job of a loop whose iteration has been expected on its full object. -/
def CopyJob.expected (j : CopyJob) : CopyJob := { j with begun := true, next := 0, seen := [], ask := .idle }

/-- A loop's iteration in a stage that has not been used yet expects its bytes at once. -/
theorem loopStep_first {s : State} {k l : Nat} {j : CopyJob} {rest : List CopyJob} {x : Xl} (hjobs : (s.chan k l).jobs = j :: rest)
    (hbegun : j.begun = false) (hop : cOp j.words = 3)
    (hx : s.xlEngine k (cAsid j.words) true true 16 (stageObject j.words j.iter false) = .ok x) (hfirst : j.iter < cStages j.words) :
    s.loopStep k l = some (s.updateSent k l x (cBytes j.words) 0 (cAsid j.words) j.expected) := by
  unfold State.loopStep
  rw [hjobs, List.find?_cons_of_pos (by simp [hop, hbegun])]
  simp only [hfirst, if_true, hx]
  rfl

/-- A later iteration looks at its stage's empty object, and where that lies in this module its phase decides. -/
theorem loopStep_later {s : State} {k l : Nat} {j : CopyJob} {rest : List CopyJob} {y : Xl} (hjobs : (s.chan k l).jobs = j :: rest)
    (hbegun : j.begun = false) (hop : cOp j.words = 3) (hlater : cStages j.words ≤ j.iter)
    (hy : s.xlEngine k (cAsid j.words) true false 16 (stageObject j.words j.iter true) = .ok y) (hm : homeModule y.pa = s.modno)
    (hhost : s.hostWaits y.pa false = false) (hpois : s.mem.poisoned y.pa = false) :
    ((s.mem.read y.pa 8).testBit 63 ≠ stagePhase j.words j.iter → s.loopStep k l = s.atHome k y.pa true j.grid none)
    ∧ ∀ x, (s.mem.read y.pa 8).testBit 63 = stagePhase j.words j.iter →
      s.xlEngine k (cAsid j.words) true true 16 (stageObject j.words j.iter false) = .ok x → s.loopStep k l =
        s.atHome k y.pa true j.grid (some (s.updateSent k l x (cBytes j.words) 0 (cAsid j.words) j.expected)) := by
  have hlog : s.logPois y.pa y.pois = s := by simp [State.logPois, hpois]
  have hread : s.readHome y.pa 8 y.pois = some (s.mem.read y.pa 8) := by simp [State.readHome, hpois]
  unfold State.loopStep
  rw [hjobs, List.find?_cons_of_pos (by simp [hop, hbegun])]
  simp only [Nat.not_lt.mpr hlater, if_false, hy, hm, ne_eq, not_true_eq_false, hhost, Bool.false_eq_true, hread, hlog]
  refine ⟨fun hphase => ?_, fun x hphase hx => ?_⟩
  · rw [if_neg (by simpa using hphase)]
  · rw [if_pos (by simpa using hphase), hx]
    rfl

/-- Where nothing between a stack and a home waits and the home is awake, an access at the home is performed at once. -/
theorem atHome_nearRead {s t : State} {k pa : Nat} {g : Option Nat} (h : s.NearRead k pa) :
    s.atHome k pa true g (some t) = some ((t.trip k (homeStack pa)).meets (homeStack pa) g) := by
  obtain ⟨⟨hpair, hawake⟩, hback⟩ := h
  simp [State.atHome, hpair, hawake, hback]

/-- An access that cannot take place at an awake home changes nothing. -/
theorem atHome_none {s : State} {k pa : Nat} {r : Bool} {g : Option Nat} (h : s.Near k pa) : s.atHome k pa r g none = none := by
  obtain ⟨-, hawake⟩ := h
  simp [State.atHome, hawake]

/-- An access performed at its home leaves the memory, the fabric and the channels as the access itself does. -/
theorem tripMeets_keeps (t : State) (k h : Nat) (g : Option Nat) : ((t.trip k h).meets h g).mem = t.mem
    ∧ ((t.trip k h).meets h g).fabric = t.fabric ∧ StackKept StackSt.chans t ((t.trip k h).meets h g) := by
  refine ⟨?_, ?_, (StackKept.trip t k h).trans (.meets _ h g fun _ _ => rfl)⟩ <;>
  · obtain ⟨st, hst⟩ := meets_shape (t.trip k h) h g
    obtain ⟨ls, hls⟩ := trip_links t k h
    rw [hst, hls]
    rfl

/-! ### The objects of a stage -/

theorem stageObject_full (w : Vector Dword 8) (iter : Nat) :
    stageObject w iter false = cBar w + BitVec.ofNat 64 (16 * (iter % cStages w)) := rfl

theorem stageObject_empty (w : Vector Dword 8) (iter : Nat) :
    stageObject w iter true = cBar w + BitVec.ofNat 64 (16 * (cStages w + iter % cStages w)) := by
  rw [Nat.add_comm]
  rfl

theorem testBit_eq_stagePhase (v : Nat) (w : Vector Dword 8) (iter : Nat) :
    v.testBit 63 = stagePhase w iter ↔ bitsOf v 63 63 = iter / cStages w % 2 := by
  have h := Nat.mod_two_eq_zero_or_one (iter / cStages w)
  unfold stagePhase bitsOf
  rw [Nat.testBit_eq_decide_div_mod_eq]
  rcases h with h | h <;> simp [h]

/-- What a job's update changes that a program can see: a packet leaves for the object's home, and the job waits for its credit. -/
theorem updateSent_sends {s : State} {k : Fin 16} {l : Fin 4} {j z : CopyJob} {rest : List CopyJob} (x : Xl)
    (added arrivals asid : Nat) (hjobs : (s.chan k.val l.val).jobs = j :: rest) (hno : ∀ y ∈ rest, y.no ≠ j.no) (hz : z.no = j.no) :
    let t := s.updateSent k.val l.val x added arrivals asid z
    t.mem = s.mem ∧ t.fabric = s.fabric ++ [⟨k.val, s.nameOf (homeOf x.pa), k.val,
        .object x.pa added 0 arrivals false x.pois asid z.no (s.locOf k.val)⟩]
      ∧ (t.chan k.val l.val).jobs = { z with credits := z.credits + 1 } :: rest :=
  ⟨rfl, rfl, updateSent_jobs x added arrivals asid hjobs hno hz⟩

theorem exec_loopIteration_of_step {s : State} {k : Fin 16} {l : Fin 4} {r : Option State} (h : s.loopStep k.val l.val = r) :
    exec (.loopIteration k l) s = .next (r.getD s) := by
  have hexec : exec (.loopIteration k l) s = .next ((s.loopStep k.val l.val).getD s) := rfl
  rw [hexec, h]

theorem exec_signalPacket_of_step {s : State} {k : Fin 16} {l : Fin 4} {r : Option State} (h : s.signalStep k.val l.val = r) :
    exec (.signalPacket k l) s = .next (r.getD s) := by
  have hexec : exec (.signalPacket k l) s = .next ((s.signalStep k.val l.val).getD s) := rfl
  rw [hexec, h]

theorem signalsAndLoops : Claims.SignalsAndLoops := by
  intro s k l j rest x hjobs hno hbegun
  dsimp only
  refine ⟨fun hop hx => ?_, fun hop hx hready => ?_, fun hop hlater hx hm hnear hhost hpois hphase => ?_⟩
  · exact ⟨_, exec_signalPacket_of_step (signalStep_sends hjobs hbegun hop hx), updateSent_sends x _ _ _ hjobs hno rfl⟩
  · rw [← stageObject_full] at hx
    obtain ⟨hmem, hfabric, hnew⟩ := updateSent_sends x (cBytes j.words) 0 (cAsid j.words) hjobs hno (z := j.expected) rfl
    by_cases hfirst : j.iter < cStages j.words
    · exact ⟨_, exec_loopIteration_of_step (loopStep_first hjobs hbegun hop hx hfirst), hmem, hfabric, hnew⟩
    · obtain ⟨y, hy, hm, hnear, hhost, hpois, hphase⟩ := hready.resolve_left hfirst
      rw [← stageObject_empty] at hy
      have hstep := (loopStep_later hjobs hbegun hop (Nat.not_lt.mp hfirst) hy hm hhost hpois).2 x
        ((testBit_eq_stagePhase _ _ _).mpr hphase) hx
      rw [atHome_nearRead hnear] at hstep
      obtain ⟨tmem, tfabric, tchans⟩ := tripMeets_keeps
        (s.updateSent k.val l.val x (cBytes j.words) 0 (cAsid j.words) j.expected) k.val (homeStack y.pa) j.grid
      refine ⟨_, exec_loopIteration_of_step hstep, tmem.trans hmem, tfabric.trans hfabric, ?_⟩
      exact (congrArg CopyChan.jobs (chan_of_kept tchans k.val l.val)).trans hnew
  · rw [← stageObject_empty] at hx
    have hstep := (loopStep_later hjobs hbegun hop hlater hx hm hhost hpois).1 fun h => hphase ((testBit_eq_stagePhase _ _ _).mp h)
    rw [atHome_none hnear] at hstep
    exact exec_loopIteration_of_step hstep

/-- Settles O51: a channel reads its register again or goes by the slot at RIDX, one lemma for each thing it may find there; a
signal and a loop's iteration are one update sent by the first job of the ring. -/
theorem copyPackets : Obligations.CopyPackets := ⟨copyPacketsAreTaken, signalsAndLoops⟩

end Sys2Proof.Machine
end

section
/-! PROOF. How teams and grids end (R60, R139, R233, R366, R368, R434, R483, R484). -/
namespace Sys2Proof.Machine

/-! ### The end of a team (R139) -/

theorem team?_onTeam {s : State} {grid team : Nat} {tm : Team} {f : Team → Team}
    (hf : ∀ x, (f x).grid = x.grid ∧ (f x).team = x.team) (h : s.team? grid team = some tm) :
    (s.onTeam grid team f).team? grid team = some (f tm) := by
  have htm : tm.grid = grid ∧ tm.team = team := by simpa using List.find?_some h
  show (s.teams.map fun t => if t.grid = grid && t.team = team then f t else t).find? _ = _
  rw [List.find?_map]
  have : ((fun t : Team => t.grid == grid && t.team == team) ∘ fun t => if t.grid = grid && t.team = team then f t else t)
      = fun t => t.grid == grid && t.team == team := by
    funext x
    dsimp only [Function.comp]
    split
    · rw [(hf x).1, (hf x).2]
    · rfl
  rw [this, show s.teams.find? (fun t => t.grid == grid && t.team == team) = some tm from h, Option.map_some,
    if_pos (by simp [htm])]

/-- A team that has ended. -/
def Team.over (x : Team) : Team := { x with st := .ended, pool := [], busy := 0, restoreCap := false }

/-- The state in which a team has ended and its groups are gone. -/
def State.teamGone (s : State) (grid team : Nat) : State :=
  let ids := (s.groupsOf grid team).map fun (g : Group) => g.id
  { s.onTeam grid team Team.over with
    groups := s.groups.filter fun (g : Group) => !ids.contains g.id,
    stks := s.stks.map fun (q : StackSt) => { q with failed := q.failed.filter fun i => !ids.contains i } }

theorem teamEndStep_ends {s : State} {grid team : Nat} {tm : Team} (htm : s.unfocus.team? grid team = some tm) (hst : tm.st ≠ .ended)
    (hended : ∀ x ∈ s.unfocus.groupsOf grid team, x.ended = true)
    (hposts : ∀ q ∈ s.stks.toList, ∀ e ∈ q.tracker, ∀ x ∈ s.unfocus.groupsOf grid team, e.1 ≠ x.id) :
    s.teamEndStep grid team = some ((s.unfocus.teamGone grid team).note tm.base 6 9
      (((s.unfocus.grid? grid).map fun (g : Grid) => g.asid).getD 0) grid) := by
  have hall : ((s.unfocus.groupsOf grid team).all fun (g : Group) => g.ended) = true := List.all_eq_true.mpr hended
  have hnone : (s.unfocus.stks.toList.any fun (q : StackSt) => q.tracker.any fun e =>
      ((s.unfocus.groupsOf grid team).map fun (g : Group) => g.id).contains e.1) = false := by
    simp only [List.any_eq_false, Bool.not_eq_true, List.contains_eq_mem, List.mem_map, decide_eq_false_iff_not, not_exists, not_and]
    exact fun q hq e he x hx hid => hposts q hq e he x hx hid.symm
  unfold State.teamEndStep
  simp only [htm]
  rw [if_neg (by simp only [hall, hnone, hst]; decide)]
  rfl

theorem groupsOf_teamGone {s : State} (hgr : s.gr.id = 0) (grid team : Nat) : (s.teamGone grid team).groupsOf grid team = [] := by
  have hall (t : State) (h : t.gr.id = 0) : t.allGroups = t.groups := if_pos h
  unfold State.groupsOf
  rw [hall _ (show (s.teamGone grid team).gr.id = 0 from hgr), List.filter_eq_nil_iff]
  intro x hx hof
  obtain ⟨hmem, hout⟩ := List.mem_filter.mp (show x ∈ s.groups.filter fun g =>
    !((s.groupsOf grid team).map fun (g : Group) => g.id).contains g.id from hx)
  have hin : x ∈ s.groupsOf grid team := List.mem_filter.mpr ⟨hall s hgr ▸ hmem, hof⟩
  simp only [List.contains_eq_mem, Bool.not_eq_true', decide_eq_false_iff_not] at hout
  exact hout (List.mem_map_of_mem hin)

theorem teamEnd_ends {s : State} {grid team : Nat} {tm : Team} (htm : s.unfocus.team? grid team = some tm) (hst : tm.st ≠ .ended)
    (hended : ∀ x ∈ s.unfocus.groupsOf grid team, x.ended = true)
    (hposts : ∀ q ∈ s.stks.toList, ∀ e ∈ q.tracker, ∀ x ∈ s.unfocus.groupsOf grid team, e.1 ≠ x.id) :
    Answers (.teamEnd grid team) s fun t => t.mem = s.mem ∧ (∃ u, t.team? grid team = some u ∧ u.st = .ended ∧ u.pool = [])
      ∧ t.groupsOf grid team = [] := by
  have hexec : exec (.teamEnd grid team) s = .next ((s.teamEndStep grid team).getD s) := rfl
  rw [teamEndStep_ends htm hst hended hposts] at hexec
  refine ⟨_, hexec, ?_⟩
  obtain ⟨st, n, hnote⟩ := note_shape (s.unfocus.teamGone grid team) tm.base 6 9
    (((s.unfocus.grid? grid).map fun (g : Grid) => g.asid).getD 0) grid
  rw [Option.getD_some, hnote]
  exact ⟨rfl, ⟨tm.over, team?_onTeam (fun _ => ⟨rfl, rfl⟩) htm, rfl, rfl⟩, groupsOf_teamGone (s := s.unfocus) rfl grid team⟩

/-! ### The completion record (R60, R366, R483) -/

theorem Memory.holds_write {m : Memory} (h : m.wf = true) (pa : Nat) (bs : List Byte) (tag : Nat) : (m.write pa bs tag).Holds pa bs := by
  intro i hi
  rw [byte_write h, if_pos (by omega), Nat.add_sub_cancel_left]

theorem recordBytes_length (gid : Nat) (ab : Bool) (e : Nat) : (recordBytes gid ab e).length = 32 := by
  simp [recordBytes, bytesLE_length, zeros]

/-- What a completion record in memory reads as. -/
theorem Memory.Holds.completion {m : Memory} {pa gid e : Nat} {ab : Bool} (h : m.Holds pa (recordBytes gid ab e)) :
    m.read pa 8 = (if ab then 3 else 1) ∧ m.read (pa + 8) 8 = e % 2 ^ 64 ∧ m.read (pa + 16) 4 = gid % 2 ^ 32 := by
  unfold recordBytes at h
  iterate 3 rw [Memory.holds_append] at h
  simp only [List.length_append, bytesLE_length] at h
  obtain ⟨⟨⟨hstate, henergy⟩, hgrid⟩, -⟩ := h
  refine ⟨?_, henergy.read, hgrid.read⟩
  rw [hstate.read]
  split <;> rfl

/-- A record whose object lies in this module, unpoisoned, is written on its 32 bytes and perhaps mirrored. -/
theorem writeRecord_here {s : State} {gid asid : Nat} {crec : Dword} {x : Xl} (hcrec : crec ≠ 0#64)
    (hx : s.xlLaunch asid false true 32 crec = .ok x) (hm : homeModule x.pa = s.modno) (hp : s.mem.poisoned x.pa = false)
    (ab : Bool) (e : Nat) :
    (s.writeRecord gid asid crec ab e).mem = s.mem.write x.pa (recordBytes gid ab e) asid := by
  unfold State.writeRecord State.writeHome
  simp only [hcrec, if_false, hx, hm, ne_eq, not_true_eq_false, hp, Bool.false_eq_true]
  unfold State.mirrorRecord
  split <;> rfl

theorem xlLaunch_draw (s : State) (asid : Nat) (rd wr : Bool) (align : Nat) (va : Dword) :
    s.draw.xlLaunch asid rd wr align va = s.xlLaunch asid rd wr align va :=
  xlate_congr (t := s.draw) (s := s) rfl rfl rfl 0 8 asid ⟨rd, wr, false, false⟩ align va

/-- A record's write at a home nearby that nothing holds up is performed at once. -/
theorem recordStep_near {s : State} {asid : Nat} {crec : Dword} {x : Xl} (t : State) (hcrec : crec ≠ 0#64)
    (hx : s.xlLaunch asid false true 32 crec = .ok x) (hm : homeModule x.pa = s.modno) (hnear : s.Near 0 x.pa)
    (hheld : s.heldOff x.pa 32 none = false) (hhost : s.hostWaits x.pa true = false) :
    s.recordStep asid crec t = some (t.flitsPass 0 (homeStack x.pa)) := by
  obtain ⟨hpair, hawake⟩ := hnear
  simp [State.recordStep, State.atHome, hcrec, hx, hm, hheld, hhost, hpair, hawake, State.meets]

theorem grid?_dropGrid (s : State) (gid : Nat) : (s.dropGrid gid).grid? gid = none := by
  show (s.grids.filter fun (g : Grid) => g.id != gid).find? (fun g => g.id == gid) = none
  rw [List.find?_eq_none]
  intro g hg
  obtain ⟨-, hne⟩ := List.mem_filter.mp hg
  simpa using hne

/-- Rank 0, whose share is over and to which every other rank has reported, goes on to its record. -/
theorem gridOver_records {s : State} {grid : Nat} {g : Grid} (hg : s.grid? grid = some g) (hover : s.shareOver g = true)
    (hsaid : s.abortUnsaid g = false) (hrank : g.rank = 0) (hall : g.ranks ≤ g.reported.length + 1) :
    s.gridOver grid = s.recordStep g.asid g.crec ((s.draw.writeRecord grid g.asid g.crec (g.aborted || g.rankAborted)
      ((s.shareEnergy g + g.energy) % 2 ^ 64)).dropGrid grid) := by
  simp [State.gridOver, hg, hover, hsaid, hrank, Nat.not_lt.mpr hall]

/-- A grid of rank 0 whose ranks have all reported ends with its completion record, and nothing else is written. -/
theorem completionRecord_ends {s : State} {grid : Nat} {g : Grid} {x : Xl} (hwf : s.mem.wf = true) (hg : s.grid? grid = some g)
    (hover : s.shareOver g = true) (hsaid : s.abortUnsaid g = false) (hfatal : s.md.fatal = false) (hrank : g.rank = 0)
    (hall : g.ranks ≤ g.reported.length + 1) (hnear : s.Near 0 x.pa) (hheld : s.heldOff x.pa 32 none = false)
    (hhost : s.hostWaits x.pa true = false) (hcrec : g.crec ≠ 0#64) (hx : s.xlLaunch g.asid false true 32 g.crec = .ok x)
    (hm : homeModule x.pa = s.modno) (hp : s.mem.poisoned x.pa = false) :
    Answers (.completionRecord grid) s fun t => t.grid? grid = none
      ∧ t.mem.read x.pa 8 = (if g.aborted || g.rankAborted then 3 else 1)
      ∧ (g.first = g.next → t.mem.read (x.pa + 8) 8 = g.energy % 2 ^ 64) ∧ t.mem.read (x.pa + 16) 4 = grid % 2 ^ 32
      ∧ ∀ a, a < x.pa ∨ x.pa + 32 ≤ a → t.mem.byte a = s.mem.byte a := by
  let e := (s.shareEnergy g + g.energy) % 2 ^ 64
  let u := (s.draw.writeRecord grid g.asid g.crec (g.aborted || g.rankAborted) e).dropGrid grid
  have hstep : s.completionStep grid = some (u.flitsPass 0 (homeStack x.pa)) := by
    unfold State.completionStep
    rw [gridOver_records hg hover hsaid hrank hall, recordStep_near _ hcrec hx hm hnear hheld hhost, hfatal]
    rfl
  have hexec : exec (.completionRecord grid) s = .next ((s.completionStep grid).getD s) := rfl
  rw [hstep] at hexec
  obtain ⟨ls, hls⟩ := flitsPass_links u 0 (homeStack x.pa)
  have hmem : (u.flitsPass 0 (homeStack x.pa)).mem = s.mem.write x.pa (recordBytes grid (g.aborted || g.rankAborted) e) g.asid := by
    rw [hls]
    exact writeRecord_here (s := s.draw) hcrec ((xlLaunch_draw s _ _ _ _ _).trans hx) hm hp _ _
  have hgone : (u.flitsPass 0 (homeStack x.pa)).grid? grid = none := by
    rw [hls]
    exact grid?_dropGrid _ grid
  obtain ⟨hstate, henergy, hgid⟩ :=
    (Memory.holds_write hwf x.pa (recordBytes grid (g.aborted || g.rankAborted) e) g.asid).completion
  refine ⟨_, hexec, hgone, ?_⟩
  rw [Option.getD_some, hmem]
  refine ⟨hstate, fun hplaced => ?_, hgid, fun a ha => ?_⟩
  · have hshare : s.shareEnergy g = 0 := if_pos hplaced.symm
    rw [henergy]
    simp only [e, hshare, Nat.zero_add, Nat.mod_mod]
  · rw [Memory.byte_write hwf, recordBytes_length, if_neg (by omega)]

/-! ### The report of another rank (R368) -/

theorem mem_grids_of_grid? {s : State} {grid : Nat} {g : Grid} (h : s.grid? grid = some g) : g ∈ s.grids ∧ g.id = grid :=
  ⟨List.mem_of_find?_eq_some h, by simpa using List.find?_some h⟩

/-- Where no identifier stands twice, the grid that it names is the only one with it. -/
theorem eq_of_grid? {s : State} {grid : Nat} {g y : Grid} (hnd : (s.grids.map fun x => x.id).Nodup) (h : s.grid? grid = some g)
    (hy : y ∈ s.grids) (hid : y.id = grid) : y = g := by
  obtain ⟨hg, hgid⟩ := mem_grids_of_grid? h
  exact List.inj_on_of_nodup_map hnd hy hg (hid.trans hgid.symm)

theorem any_of_grid? {s : State} {grid : Nat} {g : Grid} (hnd : (s.grids.map fun x => x.id).Nodup) (h : s.grid? grid = some g)
    (p : Grid → Bool) : (s.grids.any fun y => y.id == grid && p y) = p g := by
  obtain ⟨hg, hgid⟩ := mem_grids_of_grid? h
  rw [Bool.eq_iff_iff, List.any_eq_true]
  constructor
  · rintro ⟨y, hy, hof⟩
    obtain ⟨hid, hpy⟩ := Bool.and_eq_true_iff.mp hof
    rwa [← eq_of_grid? hnd h hy (by simpa using hid)]
  · exact fun hpg => ⟨g, hg, by simp [hgid, hpg]⟩

/-- A grid with the report of rank `rank` in it. -/
def Grid.told (g : Grid) (rank : Nat) (ab : Bool) (energy : Nat) : Grid :=
  { g with reported := rank :: g.reported, rankAborted := g.rankAborted || ab, energy := (g.energy + energy) % 2 ^ 64 }

/-- A report of a rank of the grid is counted where it is the first of its rank. -/
theorem reportIn_cases {s : State} {grid rank : Nat} {g : Grid} (hnd : (s.grids.map fun x => x.id).Nodup) (hg : s.grid? grid = some g)
    (hrank : g.rank = 0) (hpos : 0 < rank) (hlt : rank < g.ranks) (ab : Bool) (energy : Nat) :
    (g.reported.contains rank = false → s.reportIn grid rank ab energy = s.onGrid grid fun y => y.told rank ab energy)
    ∧ (g.reported.contains rank = true → ∃ md, s.reportIn grid rank ab energy = { s with md := md }) := by
  have hstray : (s.grids.any fun y => y.id == grid && y.rank == 0 && decide (y.ranks ≤ rank)) = false := by
    simp only [Bool.and_assoc]
    rw [any_of_grid? hnd hg fun y => y.rank == 0 && decide (y.ranks ≤ rank)]
    simp [Nat.not_le.mpr hlt]
  have htakes : (s.grids.any fun y => y.id == grid && y.rank == 0 && decide (0 < rank) && decide (rank < y.ranks)
      && !y.reported.contains rank) = !g.reported.contains rank := by
    simp only [Bool.and_assoc]
    rw [any_of_grid? hnd hg fun y => y.rank == 0 && (decide (0 < rank) && (decide (rank < y.ranks) && !y.reported.contains rank))]
    simp [hrank, hpos, hlt]
  unfold State.reportIn
  dsimp only
  rw [hstray, htakes]
  refine ⟨fun hnew => ?_, fun hold => ?_⟩
  · rw [hnew]
    rfl
  · rw [hold]
    simp only [Bool.false_eq_true, if_false, Bool.not_true]
    split
    · exact ⟨_, rfl⟩
    · split
      · exact ⟨s.md, rfl⟩
      · exact ⟨_, rfl⟩

theorem teamsAndGridsEnd : Claims.TeamsAndGridsEnd := by
  intro s grid team rank ab energy tm g hwf
  refine ⟨teamEnd_ends, fun hg hover hsaid hfatal hrank hall x hnear hheld hhost hcrec hx hm hp =>
    completionRecord_ends hwf hg hover hsaid hfatal hrank hall hnear hheld hhost hcrec hx hm hp, fun hg hnd hrank hpos hlt => ?_⟩
  have hexec : exec (.completionReport grid rank ab energy) s = .next (s.reportIn grid rank ab energy) := rfl
  obtain ⟨hnew, hold⟩ := reportIn_cases hnd hg hrank hpos hlt ab energy
  refine ⟨_, hexec, ?_⟩
  cases hc : g.reported.contains rank with
  | false =>
    rw [hnew hc]
    exact ⟨rfl, _, grid?_onGrid (fun _ => rfl) hg, fun _ => ⟨rfl, rfl, rfl⟩, fun h => absurd h (by decide)⟩
  | true =>
    obtain ⟨md, hmd⟩ := hold hc
    rw [hmd]
    exact ⟨rfl, g, hg, fun h => absurd h (by decide), fun _ => rfl⟩

/-! ### The host's abort of a grid (R434, R484) -/

theorem abortOthers_fabric (s : State) (g : Grid) : ∃ fb, s.abortOthers g = { s with fabric := fb } := by
  have sends (l : List Nat) (u : State) : ∃ fb,
      l.foldl (fun (t : State) m => t.send 0 (16 + 16 * m) (.abortShare g.id)) u = { u with fabric := fb } := by
    induction l generalizing u with
    | nil => exact ⟨u.fabric, rfl⟩
    | cons m l ih =>
      obtain ⟨fb, h⟩ := ih (u.send 0 (16 + 16 * m) (.abortShare g.id))
      exact ⟨fb, h.trans rfl⟩
  exact sends _ s

theorem stopShare_stks (s : State) (grid : Nat) :
    ∃ st, s.stopShare grid = { (s.onGrid grid fun g => { g with aborted := true }).killGrid grid with stks := st } := by
  have freezes (l : List Nat) (u : State) : ∃ st, l.foldl (fun x k => x.onStk k fun q =>
      { q with sketch := { q.sketch with frozen := true } }) u = { u with stks := st } := by
    induction l generalizing u with
    | nil => exact ⟨u.stks, rfl⟩
    | cons k l ih =>
      obtain ⟨st, h⟩ := ih (u.onStk k fun q => { q with sketch := { q.sketch with frozen := true } })
      exact ⟨st, h.trans rfl⟩
  exact freezes _ _

/-- What a first abort of a grid that is here leaves: the grid marked, its splits stopped, and its record. -/
theorem abort_shape {s : State} {grid : Nat} {g : Grid} (hg : s.grid? grid = some g) (hab : g.aborted = false)
    (reason cls detail team grp : Nat) : ∃ st n m fb r, s.abort grid reason cls detail team grp =
      { (s.onGrid grid fun g => { g with aborted := true }).killGrid grid with
        stks := st, nextId := n, fresh := m, fabric := fb, md := { s.md with errq := s.md.errq ++ [r] } }
      ∧ r.typ = 1 ∧ r.grid = grid ∧ r.payload = [BitVec.ofNat 8 reason, BitVec.ofNat 8 cls, BitVec.ofNat 8 detail] := by
  obtain ⟨st, hst⟩ := stopShare_stks s grid
  unfold State.abort
  simp only [hg, hab, Bool.false_eq_true, if_false]
  obtain ⟨fb, hfb⟩ := abortOthers_fabric ((s.stopShare grid).report 0 1 grid team g.asid grp cls 9
    [BitVec.ofNat 8 reason, BitVec.ofNat 8 cls, BitVec.ofNat 8 detail]) g
  rw [hfb, report_eq, hst]
  exact ⟨_, _, _, _, _, rfl, rfl, rfl, rfl⟩

theorem abortsStopTheGrid : Claims.AbortsStopTheGrid := by
  intro s grid g hready hup hg hab
  have hexec : exec (.abortctl grid) s =
    if s.md.ready && s.md.cxlUp then .next (s.abort grid 3 0 0 0 255) else .next s := rfl
  rw [hready, hup] at hexec
  obtain ⟨st, n, m, fb, r, habort, htyp, hgrid, hpayload⟩ := abort_shape hg hab 3 0 0 0 255
  refine ⟨_, hexec, ?_⟩
  rw [habort]
  refine ⟨rfl, rfl, ?_, ⟨_, grid?_onGrid (fun _ => rfl) hg, rfl⟩, fun hmine => ?_, fun w hw hof => ?_,
    r, rfl, htyp, hgrid, by rw [hpayload]; rfl⟩
  · show (if s.gr.grid = grid then _ else s.me).sregs = s.me.sregs
    split <;> rfl
  · show (if s.gr.grid = grid then _ else s.me).pend.kill = true
    rw [if_pos hmine]
  · have hin : s.inGrid grid w = true := by
      obtain ⟨x, hx, hxg⟩ := hof
      simp [State.inGrid, hx, hxg]
    exact ⟨_, List.mem_map.mpr ⟨w, hw, if_pos hin⟩, rfl, rfl⟩

/-- Settles O37: a team's end removes its groups, the completion record is one write of 32 bytes before the grid is dropped, a
report is counted at the one grid with its identifier, and an abort marks the grid and every split of it. -/
theorem gridsEnd : Obligations.GridsEnd := ⟨teamsAndGridsEnd, abortsStopTheGrid⟩

end Sys2Proof.Machine
end

section
/-! PROOF. What a trap, a stop, a save and an abort leave alone of the stacks: the budgets (R435, R436). -/
namespace Sys2Proof.Machine

namespace StackKept
variable {α : Type} {F : StackSt → α}

/-- An abort freezes sketchbooks and writes one entry. -/
theorem abort (s : State) (grid reason cls detail team grp : Nat) (hF : ∀ q b, F { q with sketch := b } = F q) :
    StackKept F s (s.abort grid reason cls detail team grp) := by
  have sends (u : State) (g : Grid) : StackKept F u (u.abortOthers g) := by
    obtain ⟨fb, h⟩ := abortOthers_fabric u g
    rw [h]; exact of_eq rfl
  have reports (u : State) (asid : Nat) : StackKept F u (u.report 0 1 grid team asid grp cls 9
      [BitVec.ofNat 8 reason, BitVec.ofNat 8 cls, BitVec.ofNat 8 detail]) := report _ _ _ _ _ _ _ _ _ _ hF
  have stops : StackKept F s (s.stopShare grid) := by
    unfold State.stopShare
    refine StackKept.trans (t := (s.onGrid grid fun g => { g with aborted := true }).killGrid grid) (of_eq rfl) (foldl ?_ _ _)
    exact fun u k => onStk u k fun q => hF q _
  unfold State.abort
  dsimp only
  split
  · split
    · exact refl s
    · split
      · exact refl s
      · refine StackKept.trans (t := s.killGrid grid) (of_eq rfl) ?_
        exact (reports _ _).andThen rfl
  · split
    · exact refl s
    · exact (stops.trans (reports _ _)).trans (sends _ _)

end StackKept

/-- From `s` to `t` no stack's budgets have changed. -/
abbrev BudgetsKept (s t : State) : Prop := StackKept StackSt.budgets s t

open StackKept

/-! ### Registers, runs and reports -/

theorem applyWr_stks (s : State) (w : Wr) : (s.applyWr w).stks = s.stks := by
  cases w with
  | s r x =>
    unfold State.applyWr
    dsimp only
    split <;> rfl
  | p r m x =>
    unfold State.applyWr
    dsimp only
    split <;> rfl
  | _ => rfl

theorem settle_budgetsKept (s : State) : BudgetsKept s s.settle := by
  have all (u : State) (ws : List Wr) : BudgetsKept u (u.applyAll ws) := foldl (fun u w => of_eq (applyWr_stks u w)) ws u
  have land : BudgetsKept s s.landAll := trans (t := { s with me := { s.me with results := [] } }) (of_eq rfl) (all _ _)
  exact (land.trans (foldl (fun u (o : Op) => all u (o.writesFor o.unlanded)) _ _)).andThen rfl

theorem endRun_budgetsKept (s : State) : BudgetsKept s s.endRun := by
  obtain ⟨r, n, w, sl, pd, ck, f, h⟩ := endRun_shape s
  rw [h]
  exact (onPipe s _ _ _ f fun _ _ => rfl).andThen rfl

theorem tell_stks (s : State) (n : Nat) (mask : Option Mask) (st join : Nat) : (s.tell n mask st join).stks = s.stks := by
  unfold State.tell State.tellAs State.onGroup
  split
  · split <;> rfl
  · rfl

theorem saveFault_budgetsKept (s : State) (c : TClass) (wr : Bool) : BudgetsKept s (s.saveFault c wr) :=
  abort _ _ _ _ _ _ _ fun _ _ => rfl

/-! ### The save area -/

theorem writeHome_budgetsKept {s t : State} {pa pois tag : Nat} {bs : List Byte} (h : s.writeHome pa bs pois tag = some t) :
    BudgetsKept s t := by
  obtain ⟨m, hm⟩ : ∃ m, t = { s.written pa bs.length with mem := m } := by
    unfold State.writeHome at h
    dsimp only at h
    split at h
    · split at h
      · exact ⟨_, (Option.some.inj h).symm⟩
      · split at h
        · exact ⟨_, (Option.some.inj h).symm⟩
        · cases h
    · exact ⟨_, (Option.some.inj h).symm⟩
  rw [hm]
  exact (StackKept.written s pa bs.length fun _ _ => rfl).andThen rfl

theorem putArea_budgetsKept (s : State) (pa : Nat) (bs : List Byte) : BudgetsKept s (s.putArea pa bs) := by
  have lines : BudgetsKept s (s.putLines pa bs s.me.asid) := by
    unfold State.putLines
    split
    · exact refl s
    · exact (StackKept.written s pa bs.length fun _ _ => rfl).andThen rfl
  unfold State.putArea
  dsimp only
  split
  · exact lines
  · refine lines.trans (foldl ?_ _ _)
    exact fun _ _ => of_eq rfl

/-- The state that a step answers, where it does not fail, has the budgets of `s`. -/
def AnswerBudgets (s : State) (r : Except TClass State) : Prop := ∀ u, r = .ok u → BudgetsKept s u

theorem AnswerBudgets.ok {s u : State} (h : BudgetsKept s u) : AnswerBudgets s (.ok u) := fun _ hu => by cases hu; exact h

theorem AnswerBudgets.foldl {β : Type} {f : Except TClass State → β → Except TClass State} {s : State}
    (h : ∀ r x, AnswerBudgets s r → AnswerBudgets s (f r x)) (l : List β) {r : Except TClass State} (hr : AnswerBudgets s r) :
    AnswerBudgets s (l.foldl f r) := by
  induction l generalizing r with
  | nil => exact hr
  | cons x l ih => exact ih (h r x hr)

theorem putFrame_budgets (s : State) (kind : Nat) (tinfo pc : Dword) (slice : Nat) (toks : Vector Nat 8) (latch tiles : Bool) :
    AnswerBudgets s (s.putFrame kind tinfo pc slice toks latch tiles) := by
  intro u h
  unfold State.putFrame at h
  split at h
  · cases h
  · cases h; exact (putArea_budgetsKept ..).trans (putArea_budgetsKept ..)

theorem putTiles_budgets (s : State) : AnswerBudgets s s.putTiles := by
  unfold State.putTiles
  extract_lets put tiles flags
  have piece (r : Except TClass State) (off : Nat) (bs : List Byte) (hr : AnswerBudgets s r) : AnswerBudgets s (put r off bs) := by
    intro v hv
    cases r with
    | error c => cases hv
    | ok u =>
      cases hx : u.xlArea false true (u.areaVa off) with
      | error c => simp only [put, hx] at hv; cases hv
      | ok x => simp only [put, hx] at hv; cases hv; exact (hr u rfl).trans (putArea_budgetsKept ..)
  have all : AnswerBudgets s tiles := by
    refine AnswerBudgets.foldl (fun r i hr => ?_) _ (.ok (refl s))
    split
    · exact hr
    · exact piece _ _ _ hr
  have swatched := piece _ 0x60800 (swSig s.gr.swatch) (piece _ 0x60000 (swTab s.gr.swatch) all)
  generalize put (put tiles 0x60000 (swTab s.gr.swatch)) 0x60800 (swSig s.gr.swatch) = r at swatched ⊢
  -- The translation is given a name, so that the kernel does not evaluate it.
  obtain ⟨xl, hxl⟩ : ∃ xl : State → Except TClass Xl, ∀ u, u.xlArea false true (u.areaVa 0x60100) = xl u := ⟨_, fun _ => rfl⟩
  simp only [hxl]
  intro t h
  cases r with
  | error c => cases h
  | ok u =>
    dsimp only at h
    generalize xl u = e at h
    cases e with
    | error c => cases h
    | ok x =>
      dsimp only at h
      split at h
      · cases h
      next v hv => cases h; exact (swatched u rfl).trans (writeHome_budgetsKept hv)

theorem putRecord_budgets (s : State) (kind : Nat) (tinfo pc : Dword) (slice : Nat) (toks : Vector Nat 8) (latch tiles : Bool) :
    AnswerBudgets s (s.putRecord kind tinfo pc slice toks latch tiles) := by
  intro u h
  unfold State.putRecord at h
  dsimp only at h
  split at h
  · cases h
  next v hv =>
    have hf := putFrame_budgets s _ _ _ _ _ _ _ v hv
    split at h
    · exact hf.trans (putTiles_budgets v u h)
    · split at h
      · cases h; exact hf.andThen rfl
      · cases h; exact hf

/-! ### Stops, saves and traps -/

theorem teamSavedAt_stks (s : State) (grid team : Nat) : (s.teamSavedAt grid team).stks = s.stks := by
  unfold State.teamSavedAt
  dsimp only
  split <;> rfl

theorem teamSaved_stks (s : State) : s.teamSaved.stks = s.stks := teamSavedAt_stks ..

theorem toReplayable_stks (s : State) : s.toReplayable.stks = s.stks := tell_stks ..

theorem replayable_budgetsKept (s : State) (c : TClass) (frame : Dword) : BudgetsKept s (s.replayable c frame) := by
  have here : BudgetsKept s s.toReplayable := of_eq (toReplayable_stks s)
  unfold State.replayable
  dsimp only
  split
  · exact here.andThen (teamSaved_stks _)
  · refine andThen ?_ (teamSaved_stks _)
    refine StackKept.trans ?_ (report _ _ _ _ _ _ _ _ _ _ fun _ _ => rfl)
    exact here.andThen rfl

theorem haltIf_budgetsKept {s : State} (c : Prop) [Decidable c] : BudgetsKept s (if c then s.haltOthers else s) := by
  split
  · refine foldl ?_ _ _
    exact fun _ _ => of_eq rfl
  · exact refl s

theorem emptied_budgetsKept (s : State) : BudgetsKept s s.emptied :=
  (onCore s s.me.stack s.me.core (fun c => { c with queue := dropPasses s.me.id c.queue }) fun _ _ => rfl).andThen rfl

theorem stopNow_budgetsKept (s : State) (pc : Dword) : BudgetsKept s (s.stopNow pc) := by
  have here := settle_budgetsKept s
  unfold State.stopNow
  dsimp only
  split
  · exact here.trans (saveFault_budgetsKept ..)
  next u hu =>
    refine andThen (andThen ?_ (toReplayable_stks _)) (teamSaved_stks _)
    exact ((here.trans (putRecord_budgets _ _ _ _ _ _ _ _ u hu)).trans (emptied_budgetsKept u)).andThen rfl

theorem stopSplit_budgetsKept (s : State) (pc : Dword) : BudgetsKept s (s.stopSplit pc) := by
  have here := endRun_budgetsKept s
  unfold State.stopSplit
  dsimp only
  split
  · exact here.trans (stopNow_budgetsKept _ _)
  · exact here.andThen rfl

theorem saveNow_budgetsKept (s : State) (forced : Bool) (pc : Dword) : BudgetsKept s (s.saveNow forced pc) := by
  have here := settle_budgetsKept s
  unfold State.saveNow
  dsimp only
  split
  · exact here.trans (saveFault_budgetsKept ..)
  next v hv =>
    have put := here.trans (putRecord_budgets _ _ _ _ _ _ _ _ v hv)
    have noted (arg : List Byte) : BudgetsKept s (if forced then v.sketch v.me.stack 1 v.me.core v.me.asid v.gr.grid arg else v) := by
      split
      · exact put.trans (sketch _ _ _ _ _ _ _ fun _ _ => rfl)
      · exact put
    split
    · refine andThen ?_ (teamSaved_stks _)
      exact ((noted _).trans (emptied_budgetsKept _)).andThen rfl
    · exact ((noted _).trans (emptied_budgetsKept _)).andThen rfl

theorem enterTrap_budgetsKept (s : State) (t : Trap) : BudgetsKept s (s.enterTrap t) := by
  have here := settle_budgetsKept s
  unfold State.enterTrap
  dsimp only
  split
  · exact here.trans (saveFault_budgetsKept ..)
  next u hu =>
    have put := here.trans (putRecord_budgets _ _ _ _ _ _ _ _ u hu)
    split
    · refine andThen (t := ite _ _ _) ?_ rfl
      refine StackKept.trans (StackKept.trans ?_ (sketch _ _ _ _ _ _ _ fun _ _ => rfl)) (haltIf_budgetsKept _)
      exact (put.trans (emptied_budgetsKept u)).andThen rfl
    · refine StackKept.trans ?_ (replayable_budgetsKept ..)
      refine StackKept.trans (StackKept.trans ?_ (sketch _ _ _ _ _ _ _ fun _ _ => rfl)) (haltIf_budgetsKept _)
      exact (put.trans (emptied_budgetsKept u)).andThen rfl

theorem raise_budgetsKept (s : State) (t : Trap) : BudgetsKept s (s.raise t) := by
  have here := endRun_budgetsKept s
  unfold State.raise
  dsimp only
  split
  · exact here
  · split
    · exact here.trans (abort _ _ _ _ _ _ _ fun _ _ => rfl)
    · split
      · exact stopSplit_budgetsKept ..
      · split
        · exact here.trans (enterTrap_budgetsKept ..)
        · exact here.andThen rfl

/-! ### What can reach a split (R403) -/

theorem raise_after (s : State) (w : Split) (t : Trap) : BudgetsKept s ({ s with me := w }.raise t) :=
  StackKept.trans (t := { s with me := w }) (of_eq rfl) (raise_budgetsKept _ t)

theorem keepArrival_stops (s : State) (pc : Dword) : BudgetsKept s (s.keepArrival.stopSplit pc) :=
  trans (t := s.keepArrival) (of_eq rfl) (stopSplit_budgetsKept _ _)

theorem takeHalt_budgetsKept {s t : State} (h : s.takeHalt = some t) : BudgetsKept s t := by
  unfold State.takeHalt at h
  dsimp only at h
  split at h
  · obtain ⟨-, h⟩ := Option.ite_none_right_eq_some.mp h
    cases h
    exact stopSplit_budgetsKept ..
  · obtain ⟨-, h⟩ := Option.ite_none_right_eq_some.mp h
    cases h
    exact keepArrival_stops ..
  · split at h
    · cases h; exact stopSplit_budgetsKept ..
    · obtain ⟨-, h⟩ := Option.ite_none_right_eq_some.mp h
      cases h
      exact raise_after s _ _

theorem takeFault_budgetsKept {s t : State} (h : s.takeFault = some t) : BudgetsKept s t := by
  unfold State.takeFault at h
  dsimp only at h
  split at h
  · cases h
  · split at h
    · cases h; exact (endRun_budgetsKept s).trans (saveFault_budgetsKept ..)
    · split at h
      · cases h; exact raise_budgetsKept ..
      · cases h; exact raise_after s _ _

theorem forcedSave_budgetsKept (s : State) (pc : Dword) : BudgetsKept s (s.forcedSave pc) := by
  have here := endRun_budgetsKept s
  unfold State.forcedSave
  dsimp only
  split
  · exact here.trans (saveNow_budgetsKept ..)
  · exact here.andThen rfl

theorem takeForced_budgetsKept {s t : State} (h : s.takeForced = some t) : BudgetsKept s t := by
  unfold State.takeForced at h
  dsimp only at h
  split at h
  · cases h
  · split at h
    · cases h; exact trans (t := s.keepArrival) (of_eq rfl) (forcedSave_budgetsKept _ _)
    · cases h; exact forcedSave_budgetsKept ..
    · obtain ⟨-, h⟩ := Option.ite_none_right_eq_some.mp h
      cases h
      exact forcedSave_budgetsKept ..

theorem forceNow_budgetsKept (k : Nat) (s : State) : BudgetsKept s (s.forceNow k) := by
  unfold State.forceNow
  refine StackKept.trans (t := { s with me := { s.me with pend := { s.me.pend with
    preempt := true, handler := (k :: s.me.pend.handler).eraseDups } } }) (of_eq rfl) ?_
  dsimp only
  split
  next u hu => exact takeHalt_budgetsKept hu
  · split
    next u hu => exact takeFault_budgetsKept hu
    · generalize hf : State.takeForced _ = r
      cases r with
      | none => exact refl _
      | some u => exact takeForced_budgetsKept hf

/-! ### Splits one after the other -/

theorem forSplits_stackKept {α : Type} {F : StackSt → α} {f : State → State} (hf : ∀ u, StackKept F u (f u)) (s : State)
    (ids : List Nat) : StackKept F s (s.forSplits ids f) := by
  refine (foldl (fun u id => ?_) ids s).andThen rfl
  unfold State.withSplit
  split
  · exact refl u
  next t ht => exact trans (of_eq (focus_stks ht)) (hf t)

end Sys2Proof.Machine
end

section
/-! PROOF. Pre-emption requests, their budgets, and resumption (R73 to R76, R378, R436 to R438). -/
namespace Sys2Proof.Machine

/-! ### The splits that stand (R73) -/

theorem allSplits_none {s : State} (h : s.me.id = 0) : s.allSplits = s.splits := if_pos h

theorem allSplits_some {s : State} (h : s.me.id ≠ 0) : s.allSplits = s.me :: s.splits := if_neg h

theorem unfocus_allSplits (s : State) : s.unfocus.allSplits = s.allSplits := allSplits_none rfl

/-- A split brought into focus comes from the list of all, and the others stay where no number stands twice. -/
theorem focus_allSplits {s t : State} {n : Nat} (hn : n ≠ 0) (h : s.focus n = some t) :
    t.me.id = n ∧ (∀ w ∈ t.allSplits, w ∈ s.allSplits)
    ∧ ((s.allSplits.map Split.id).Nodup → (t.allSplits.map Split.id).Nodup ∧ ∀ w ∈ s.allSplits, w ∈ t.allSplits) := by
  unfold State.focus at h
  split at h
  next hid =>
    cases h
    exact ⟨hid, fun _ hw => hw, fun hnd => ⟨hnd, fun _ hw => hw⟩⟩
  · dsimp only at h
    split at h
    · cases h
    next w hw =>
      have hfind : s.allSplits.find? (fun x => x.id == n) = some w := hw
      have hid : w.id = n := by simpa using List.find?_some hfind
      have hmem : w ∈ s.allSplits := List.mem_of_find?_eq_some hfind
      have hall : t.allSplits = w :: s.allSplits.filter (·.id != n) := by
        cases h
        exact allSplits_some (hid ▸ hn)
      refine ⟨by cases h; exact hid, fun x hx => ?_, fun hnd => ⟨?_, fun x hx => ?_⟩⟩
      · rw [hall] at hx
        rcases List.mem_cons.mp hx with rfl | hx
        · exact hmem
        · exact (List.mem_filter.mp hx).1
      · rw [hall, List.map_cons, List.nodup_cons]
        refine ⟨fun hin => ?_, (List.filter_sublist.map Split.id).nodup hnd⟩
        obtain ⟨x, hx, hxid⟩ := List.mem_map.mp hin
        simpa [hxid, hid] using (List.mem_filter.mp hx).2
      · rw [hall]
        by_cases hxid : x.id = n
        · rw [List.inj_on_of_nodup_map hnd hx hmem (hxid.trans hid.symm)]
          exact List.mem_cons_self
        · exact List.mem_cons_of_mem _ (List.mem_filter.mpr ⟨hx, by simpa using hxid⟩)

theorem focus_none {s : State} {n : Nat} (h : s.focus n = none) : ∀ w ∈ s.allSplits, w.id ≠ n := by
  unfold State.focus at h
  split at h
  · cases h
  · dsimp only at h
    split at h
    next hw => exact fun w hw' => by simpa using List.find?_eq_none.mp hw w hw'
    · cases h

/-! ### PREQ raised (R73, R378) -/

/-- A split that waits at `bwt.y`. -/
def Split.yields (w : Split) : Prop := ∃ a q n, w.status = .bwt a q n true

/-- Where the split in focus does not wait at `bwt.y`, PREQ is set and at most a park ends. -/
theorem setPreq_me {s : State} (h : ¬ s.me.yields) :
    ∃ w, s.setPreq = { s with me := w } ∧ w.id = s.me.id ∧ w.preq = true ∧ ¬ w.yields := by
  unfold State.setPreq
  split
  next hst => exact ⟨_, rfl, rfl, rfl, fun ⟨_, _, _, hy⟩ => by cases hy⟩
  next a q n hst => exact absurd ⟨a, q, n, hst⟩ h
  next hst => exact ⟨_, rfl, rfl, rfl, h⟩

/-- From `s` to `t` memory, the stacks, the grids and the module's registers are as they were. -/
structure SplitsOnly (s t : State) : Prop where
  mem : t.mem = s.mem
  md : t.md = s.md
  stks : t.stks = s.stks
  grids : t.grids = s.grids

theorem SplitsOnly.trans {s t u : State} (a : SplitsOnly s t) (b : SplitsOnly t u) : SplitsOnly s u :=
  ⟨b.mem.trans a.mem, b.md.trans a.md, b.stks.trans a.stks, b.grids.trans a.grids⟩

theorem focus_splitsOnly {s t : State} {n : Nat} (h : s.focus n = some t) : SplitsOnly s t := by
  obtain ⟨_, _, _, _, _, _, rfl⟩ := focus_shape h
  exact ⟨rfl, rfl, rfl, rfl⟩

/-- From `s` to `t` PREQ has been set in the splits `ids`, and nothing has changed but the splits, where they stand, and the focus. -/
structure Marked (ids : List Nat) (s t : State) : Prop where
  rest : SplitsOnly s t
  quiet : ∀ w ∈ t.allSplits, w.id ≠ 0 ∧ ¬ w.yields
  distinct : (s.allSplits.map Split.id).Nodup → (t.allSplits.map Split.id).Nodup
  there : (s.allSplits.map Split.id).Nodup → ∀ w ∈ s.allSplits, ∃ y ∈ t.allSplits, y.id = w.id
  preq : (s.allSplits.map Split.id).Nodup → ∀ w ∈ s.allSplits, w.id ∈ ids → ∃ y ∈ t.allSplits, y.id = w.id ∧ y.preq = true

theorem Marked.refl {s : State} (h : ∀ w ∈ s.allSplits, w.id ≠ 0 ∧ ¬ w.yields) : Marked [] s s where
  rest := ⟨rfl, rfl, rfl, rfl⟩
  quiet := h
  distinct := id
  there _ w hw := ⟨w, hw, rfl⟩
  preq _ _ _ hin := absurd hin List.not_mem_nil

theorem Marked.step {ids : List Nat} {s t : State} (m : Marked ids s t) {n : Nat} (hn : n ≠ 0) :
    Marked (n :: ids) s (t.withSplit n State.setPreq) := by
  unfold State.withSplit
  cases hf : t.focus n with
  | none =>
    refine ⟨m.rest, m.quiet, m.distinct, m.there, fun hnd w hw hin => ?_⟩
    rcases List.mem_cons.mp hin with hid | hin
    · obtain ⟨y, hy, hyid⟩ := m.there hnd w hw
      exact absurd (hyid.trans hid) (focus_none hf y hy)
    · exact m.preq hnd w hw hin
  | some u =>
    obtain ⟨hid, hsub, hall⟩ := focus_allSplits hn hf
    have hme : u.allSplits = u.me :: u.splits := allSplits_some (hid ▸ hn)
    have hmine : u.me ∈ t.allSplits := hsub _ (hme ▸ List.mem_cons_self)
    obtain ⟨w', hset, hwid, hwp, hwy⟩ := setPreq_me (m.quiet _ hmine).2
    have hafter : u.setPreq.allSplits = w' :: u.splits := by
      rw [hset]
      exact allSplits_some (by rw [hwid, hid]; exact hn)
    -- A split that stood before stands after, and keeps PREQ.
    have moves (y : Split) (hy : y ∈ u.allSplits) : ∃ z ∈ u.setPreq.allSplits, z.id = y.id ∧ (y.preq = true → z.preq = true) := by
      rw [hme] at hy
      rw [hafter]
      rcases List.mem_cons.mp hy with rfl | hy
      · exact ⟨w', List.mem_cons_self, hwid, fun _ => hwp⟩
      · exact ⟨y, List.mem_cons_of_mem _ hy, rfl, id⟩
    refine ⟨?_, fun w hw => ?_, fun hnd => ?_, fun hnd w hw => ?_, fun hnd w hw hin => ?_⟩
    · exact (m.rest.trans (focus_splitsOnly hf)).trans (show SplitsOnly u u.setPreq by rw [hset]; exact ⟨rfl, rfl, rfl, rfl⟩)
    · rw [hafter] at hw
      rcases List.mem_cons.mp hw with rfl | hw
      · exact ⟨by rw [hwid, hid]; exact hn, hwy⟩
      · exact m.quiet w (hsub w (hme ▸ List.mem_cons_of_mem _ hw))
    · have := (hall (m.distinct hnd)).1
      rw [hme, List.map_cons] at this
      rwa [hafter, List.map_cons, hwid]
    · obtain ⟨y, hy, hyid⟩ := m.there hnd w hw
      obtain ⟨z, hz, hzid, -⟩ := moves y ((hall (m.distinct hnd)).2 y hy)
      exact ⟨z, hz, hzid.trans hyid⟩
    · rcases List.mem_cons.mp hin with hwn | hin
      · exact ⟨w', hafter ▸ List.mem_cons_self, hwid.trans (hid.trans hwn.symm), hwp⟩
      · obtain ⟨y, hy, hyid, hyp⟩ := m.preq hnd w hw hin
        obtain ⟨z, hz, hzid, hzp⟩ := moves y ((hall (m.distinct hnd)).2 y hy)
        exact ⟨z, hz, hzid.trans hyid, hzp hyp⟩

theorem Marked.forSplits {s : State} (h : ∀ w ∈ s.allSplits, w.id ≠ 0 ∧ ¬ w.yields) (ids : List Nat) (hids : ∀ n ∈ ids, n ≠ 0) :
    Marked ids s (s.forSplits ids State.setPreq) := by
  have fold (l : List Nat) (hl : ∀ n ∈ l, n ≠ 0) (done : List Nat) (t : State) (m : Marked done s t) :
      ∃ all, Marked all s (l.foldl (fun (t : State) id => t.withSplit id State.setPreq) t) ∧ ∀ n, n ∈ l ∨ n ∈ done → n ∈ all := by
    induction l generalizing done t with
    | nil => exact ⟨done, m, fun n hn => hn.resolve_left List.not_mem_nil⟩
    | cons n l ih =>
      obtain ⟨all, hm, hall⟩ := ih (fun x hx => hl x (List.mem_cons_of_mem _ hx)) (n :: done) _ (m.step (hl n List.mem_cons_self))
      refine ⟨all, hm, fun x hx => hall x ?_⟩
      rcases hx with hx | hx
      · rcases List.mem_cons.mp hx with rfl | hx
        · exact .inr List.mem_cons_self
        · exact .inl hx
      · exact .inr (List.mem_cons_of_mem _ hx)
  obtain ⟨all, m, hall⟩ := fold ids hids [] s (.refl h)
  have hsame : (s.forSplits ids State.setPreq).allSplits =
      (ids.foldl (fun (t : State) id => t.withSplit id State.setPreq) s).allSplits := unfocus_allSplits _
  refine ⟨m.rest.trans ⟨rfl, rfl, rfl, rfl⟩, hsame ▸ m.quiet, hsame ▸ m.distinct, hsame ▸ m.there, fun hnd w hw hin => ?_⟩
  rw [hsame]
  exact m.preq hnd w hw (hall w.id (.inl hin))

/-- A team whose slots are freed: its splits are stored, and no split loses or gains PREQ. -/
theorem teamSavedAt_keeps (s : State) (grid team : Nat) : SplitsOnly s (s.teamSavedAt grid team)
    ∧ ∀ y ∈ s.allSplits, ∃ z ∈ (s.teamSavedAt grid team).allSplits, z.id = y.id ∧ z.preq = y.preq := by
  unfold State.teamSavedAt
  dsimp only
  split
  · refine ⟨⟨rfl, rfl, rfl, rfl⟩, fun y hy => ?_⟩
    rw [allSplits_none rfl]
    refine ⟨_, List.mem_map_of_mem hy, ?_⟩
    split
    · exact ⟨rfl, rfl⟩
    · exact ⟨rfl, rfl⟩
  · exact ⟨⟨rfl, rfl, rfl, rfl⟩, fun y hy => ⟨y, hy, rfl, rfl⟩⟩

theorem teamsSaved_keep (grid : Nat) (teams : List Nat) (s : State) :
    let t := teams.foldl (fun (v : State) n => v.teamSavedAt grid n) s
    SplitsOnly s t ∧ ∀ y ∈ s.allSplits, ∃ z ∈ t.allSplits, z.id = y.id ∧ z.preq = y.preq := by
  induction teams generalizing s with
  | nil => exact ⟨⟨rfl, rfl, rfl, rfl⟩, fun y hy => ⟨y, hy, rfl, rfl⟩⟩
  | cons n teams ih =>
    obtain ⟨hrest, hkeep⟩ := teamSavedAt_keeps s grid n
    obtain ⟨hrest', hkeep'⟩ := ih (s.teamSavedAt grid n)
    refine ⟨hrest.trans hrest', fun y hy => ?_⟩
    obtain ⟨z, hz, hzid, hzp⟩ := hkeep y hy
    obtain ⟨x, hx, hxid, hxp⟩ := hkeep' z hz
    exact ⟨x, hx, hxid.trans hzid, hxp.trans hzp⟩

/-- What a request leaves where no split of the module waits at `bwt.y`: PREQ in the grid and its splits, a budget on every stack. -/
theorem raisePreq_raises {s : State} {grid : Nat} (hquiet : ∀ w ∈ s.allSplits, w.id ≠ 0 ∧ ¬ w.yields) :
    let t := s.raisePreq grid
    t.mem = s.mem ∧ t.md = { s.md with requested := s.md.requested ++ [grid] }
    ∧ t.grids = s.grids.map (fun g => if g.id = grid then { g with preq := true } else g)
    ∧ t.stks = s.stks.map (fun (q : StackSt) => { q with budgets := q.budgets ++ [(grid, s.md.pbudget.toNat, false)] })
    ∧ ((s.allSplits.map Split.id).Nodup → ∀ w ∈ s.unfocus.splitsOf grid, ∃ y ∈ t.allSplits, y.id = w.id ∧ y.preq = true) := by
  let m := s.unfocus.onGrid grid fun g => { g with preq := true }
  have hall : m.allSplits = s.allSplits := unfocus_allSplits s
  have hof (w : Split) (hw : w ∈ s.unfocus.splitsOf grid) : w ∈ s.allSplits := unfocus_allSplits s ▸ List.mem_of_mem_filter hw
  have marked := Marked.forSplits (s := m) (hall ▸ hquiet) ((s.unfocus.splitsOf grid).map Split.id) fun n hn => by
    obtain ⟨w, hw, rfl⟩ := List.mem_map.mp hn
    exact (hquiet w (hof w hw)).1
  unfold State.raisePreq
  extract_lets u ids t md v
  obtain ⟨hrest, hkeep⟩ := teamsSaved_keep grid (v.placedTeams grid) v
  have hrest' : SplitsOnly m t := marked.rest
  refine ⟨hrest.mem.trans hrest'.mem, ?_, hrest.grids.trans hrest'.grids, ?_, fun hnd w hw => ?_⟩
  · rw [hrest.md]
    show { t.md with requested := t.md.requested ++ [grid] } = _
    rw [hrest'.md]
    rfl
  · rw [hrest.stks]
    show t.stks.map _ = _
    rw [hrest'.stks, hrest'.md]
    rfl
  · obtain ⟨y, hy, hyid, hyp⟩ := marked.preq (hall ▸ hnd) w (hall ▸ hof w hw) (List.mem_map_of_mem hw)
    obtain ⟨z, hz, hzid, hzp⟩ := hkeep y hy
    exact ⟨z, hz, hzid.trans hyid, hzp.trans hyp⟩


theorem askPreq_free {s : State} {grid : Nat} {g : Grid} (hg : s.unfocus.grid? grid = some g) (hfree : grid ∉ s.md.requested)
    (hroom : s.md.requested.length < 64) :
    s.askPreq grid = { s with md := { s.md with preqctl := BitVec.ofNat 64 (2 ^ 32 + grid % 2 ^ 32) } }.raisePreq grid := by
  have hsome : (s.grid? grid).isNone = false := by
    rw [show s.grid? grid = some g from hg]
    rfl
  unfold State.askPreq
  dsimp only
  rw [if_neg (by simp [hsome, hfree, hroom])]

theorem stk_map (s t : State) {f : StackSt → StackSt} (h : t.stks = s.stks.map f) {q : Nat} (hq : q < 16) : t.stk q = f (s.stk q) := by
  unfold State.stk
  rw [h]
  exact vget_map _ _ _ hq _ _

/-- A request within the limit, for a grid that is here and for which none stands. -/
theorem preemptionRequest_raises {s : State} {grid : Nat} {g : Grid} (hready : s.md.ready = true) (hup : s.md.cxlUp = true)
    (hg : s.unfocus.grid? grid = some g) (hfree : grid ∉ s.md.requested) (hroom : s.md.requested.length < 64)
    (hquiet : ∀ w ∈ s.allSplits, w.id ≠ 0 ∧ ¬ w.yields) :
    Answers (.preemptionRequest grid) s fun t => t.md.requested = s.md.requested ++ [grid] ∧ t.mem = s.mem
      ∧ t.md.preqctl = BitVec.ofNat 64 (2 ^ 32 + grid % 2 ^ 32)
      ∧ (∀ q < 16, (t.stk q).budgets = (s.stk q).budgets ++ [(grid, s.md.pbudget.toNat, false)])
      ∧ (∀ y ∈ t.grids, y.id = grid → y.preq = true)
      ∧ ((s.allSplits.map Split.id).Nodup → ∀ w ∈ s.unfocus.splitsOf grid, ∃ y ∈ t.allSplits, y.id = w.id ∧ y.preq = true) := by
  have hexec : exec (.preemptionRequest grid) s = if s.md.ready && s.md.cxlUp then .next (s.askPreq grid) else .next s := rfl
  rw [hready, hup, askPreq_free hg hfree hroom] at hexec
  obtain ⟨hmem, hmd, hgrids, hstks, hsplits⟩ := raisePreq_raises (grid := grid)
    (s := { s with md := { s.md with preqctl := BitVec.ofNat 64 (2 ^ 32 + grid % 2 ^ 32) } }) hquiet
  refine ⟨_, hexec, by rw [hmd], hmem, by rw [hmd], fun q hq => ?_, fun y hy hid => ?_, hsplits⟩
  · rw [stk_map _ _ hstks hq]
    rfl
  · rw [hgrids] at hy
    obtain ⟨x, -, rfl⟩ := List.mem_map.mp hy
    split at hid
    next hx => rw [if_pos hx]
    next hx => exact absurd hid hx

/-! ### Withdrawal (R73, R378) -/

theorem dropPreq_stk (s : State) (grid : Nat) {q : Nat} (hq : q < 16) :
    ((s.dropPreq grid).stk q).budgets = (s.stk q).budgets.filter fun b => b.1 != grid := by
  rw [stk_map s (s.dropPreq grid) (f := fun q => { q with
    budgets := q.budgets.filter fun b => b.1 != grid, hbudgets := q.hbudgets.filter fun b => b.1 != grid }) rfl hq]

/-- After a withdrawal no split of the grid has PREQ. -/
theorem dropPreq_splits {s : State} {grid : Nat} {w : Split} (hw : w ∈ (s.dropPreq grid).allSplits) (hin : s.inGrid grid w = true) :
    w.preq = false := by
  let clear (w : Split) : Split := if s.inGrid grid w then { w with preq := false, pend := { w.pend with handler := [] } } else w
  obtain ⟨x, rfl⟩ : ∃ x, w = clear x := by
    unfold State.allSplits at hw
    split at hw
    · obtain ⟨x, -, hx⟩ := List.mem_map.mp (show w ∈ s.splits.map clear from hw)
      exact ⟨x, hx.symm⟩
    · rcases List.mem_cons.mp hw with hx | hw
      · exact ⟨s.me, hx⟩
      · obtain ⟨x, -, hx⟩ := List.mem_map.mp (show w ∈ s.splits.map clear from hw)
        exact ⟨x, hx.symm⟩
  by_cases hx : s.inGrid grid x = true
  · show (if s.inGrid grid x then _ else x).preq = false
    rw [if_pos hx]
  · have : clear x = x := if_neg hx
    rw [this] at hin
    exact absurd hin hx

theorem inGrid_of_group {s : State} {grid : Nat} {w : Split} (h : ∃ x, s.group? w.group = some x ∧ x.grid = grid) :
    s.inGrid grid w = true := by
  obtain ⟨x, hx, hxg⟩ := h
  simp [State.inGrid, hx, hxg]

theorem preemptionWithdraw_drops {s : State} {grid : Nat} (hready : s.md.ready = true) (hup : s.md.cxlUp = true) :
    Answers (.preemptionWithdraw grid) s fun t => grid ∉ t.md.requested ∧ t.mem = s.mem
      ∧ t.md.preqctl = BitVec.ofNat 64 (grid % 2 ^ 32) ∧ (∀ y ∈ t.grids, y.id = grid → y.preq = false)
      ∧ (∀ q < 16, ∀ b ∈ (t.stk q).budgets, b.1 ≠ grid)
      ∧ ∀ w ∈ t.allSplits, (∃ x, s.group? w.group = some x ∧ x.grid = grid) → w.preq = false := by
  let u : State := { s with md := { s.md with preqctl := BitVec.ofNat 64 (grid % 2 ^ 32) } }
  have hexec : exec (.preemptionWithdraw grid) s = if s.md.ready && s.md.cxlUp then .next (u.dropPreq grid) else .next s := rfl
  rw [hready, hup] at hexec
  have hdrop := dropPreq_withdrawn u grid
  refine ⟨_, hexec, fun hin => ?_, hdrop.mem, by rw [hdrop.md], fun y hy hid => ?_, fun q hq b hb => ?_, fun w hw hof => ?_⟩
  · exact (hdrop.requested grid hin).2 (List.mem_singleton.mpr rfl)
  · exact (hdrop.grids y hy).1 (List.mem_singleton.mpr hid)
  · rw [dropPreq_stk u grid hq] at hb
    simpa using (List.mem_filter.mp hb).2
  · exact dropPreq_splits (s := u) hw (inGrid_of_group (s := u) hof)

/-! ### Budgets (R75, R435, R436) -/

/-- A stack whose budget of the grid is spent: the second period, of the splits in a handler, begins. -/
def StackSt.spent (q : StackSt) (grid budget : Nat) : StackSt :=
  { q with budgets := q.budgets.map (fun b => if b.1 = grid then (grid, 0, true) else b), hbudgets := q.hbudgets ++ [(grid, budget)] }

theorem budgetExpiry_spends {s : State} {grid : Nat} {k : Fin 16} (h : (grid, 0, false) ∈ (s.stk k.val).budgets) :
    Answers (.budgetExpiry k grid) s fun t =>
      (grid, 0, true) ∈ (t.stk k.val).budgets ∧ (grid, 0, false) ∉ (t.stk k.val).budgets := by
  let u := s.unfocus.onStk k.val fun q => q.spent grid s.md.pbudget.toNat
  let here := (u.splitsOf grid).filter fun (w : Split) => w.stack == k.val && !w.unforced
  have hany : ((s.unfocus.stk k.val).budgets.any fun b => b == (grid, 0, false)) = true :=
    List.any_eq_true.mpr ⟨_, h, by simp⟩
  have hexec : exec (.budgetExpiry k grid) s = .next ((s.expireBudget k.val grid).getD s) := rfl
  have hstep : s.expireBudget k.val grid = some (u.forSplits (here.map Split.id) (State.forceNow k.val)) := by
    unfold State.expireBudget
    dsimp only
    rw [if_pos hany]
    rfl
  rw [hstep] at hexec
  have hkept : BudgetsKept u (u.forSplits (here.map Split.id) (State.forceNow k.val)) :=
    forSplits_stackKept (forceNow_budgetsKept k.val) u _
  have hspent : (u.stk k.val).budgets = (s.stk k.val).budgets.map fun b => if b.1 = grid then (grid, 0, true) else b :=
    congrArg StackSt.budgets (stk_onStk_same s.unfocus k.isLt fun q => q.spent grid s.md.pbudget.toNat)
  refine ⟨_, hexec, ?_⟩
  dsimp only
  rw [Option.getD_some, hkept.stk, hspent]
  refine ⟨List.mem_map.mpr ⟨_, h, if_pos rfl⟩, fun hin => ?_⟩
  obtain ⟨b, -, hb⟩ := List.mem_map.mp hin
  split at hb
  · cases hb
  next hne => exact hne (congrArg Prod.fst hb)

theorem handlerBudgetExpiry_ends {s : State} {grid : Nat} {k : Fin 16} {g : Grid} (hg : s.unfocus.grid? grid = some g)
    (h : (grid, 0) ∈ (s.stk k.val).hbudgets) :
    Answers (.handlerBudgetExpiry k grid) s fun t => (grid, 0) ∉ (t.stk k.val).hbudgets ∧ t.mem = s.mem
      ∧ ∀ w ∈ s.allSplits, (∃ x, s.group? w.group = some x ∧ x.grid = grid) → k.val ∈ w.pend.handler → w.inHandler = true →
        w.pend.kill = false → ∃ y, t.grid? grid = some y ∧ y.aborted = true := by
  let u := s.onStk k.val fun q => { q with hbudgets := q.hbudgets.filter (· != (grid, 0)) }
  let late (w : Split) : Bool := u.inGrid grid w && w.pend.handler.contains k.val && w.inHandler && !w.pend.kill
  have hleft : (u.stk k.val).hbudgets = (s.stk k.val).hbudgets.filter (· != (grid, 0)) :=
    congrArg StackSt.hbudgets (stk_onStk_same s k.isLt _)
  have hgone : (grid, 0) ∉ (u.stk k.val).hbudgets := by simp [hleft]
  have hexec : exec (.handlerBudgetExpiry k grid) s = .next ((s.expireHandler k.val grid).getD s) := rfl
  unfold State.expireHandler at hexec
  rw [if_pos (List.contains_iff_mem.mpr h)] at hexec
  dsimp only at hexec
  cases hfind : u.allSplits.find? late with
  | none =>
    refine ⟨u, hexec.trans (by rw [show List.find? _ _ = none from hfind]; rfl), hgone, rfl, fun w hw hof hk hh hkill => ?_⟩
    have hno := List.find?_eq_none.mp hfind w hw
    exact absurd (show late w = true by simp [late, inGrid_of_group (s := u) hof, hk, hh, hkill]) hno
  | some w =>
    obtain ⟨hmem, -, y, hy, hyab⟩ := abort_marks (s := u) (g := grid) (y := g) hg 5 0 0
      ((u.group? w.group).getD Group.none).team ((u.group? w.group).getD Group.none).grp
    refine ⟨_, hexec.trans (by rw [show List.find? _ _ = some w from hfind]; rfl), ?_, hmem, fun _ _ _ _ _ _ => ⟨y, hy, hyab⟩⟩
    have hkept : StackKept StackSt.hbudgets u (u.abort grid 5 0 0 ((u.group? w.group).getD Group.none).team
      ((u.group? w.group).getD Group.none).grp) := .abort u _ _ _ _ _ _ fun _ _ => rfl
    rw [hkept.stk]
    exact hgone

theorem preemptionRunsOnBudgets : Claims.PreemptionRunsOnBudgets := by
  intro s grid k g hready hup hg
  refine ⟨fun hfree hroom hwaits hids => ?_, preemptionWithdraw_drops hready hup, budgetExpiry_spends,
    fun h _ => handlerBudgetExpiry_ends hg h⟩
  obtain ⟨t, hexec, hreq, hmem, hctl, hbudgets, hgrids, hsplits⟩ :=
    preemptionRequest_raises hready hup hg hfree hroom fun w hw => ⟨hids w hw, hwaits w hw⟩
  refine ⟨t, hexec, hreq, hmem, hctl, hbudgets, hgrids, fun hnd w hw hof hst => hsplits hnd w ?_⟩
  refine List.mem_filter.mpr ⟨unfocus_allSplits s ▸ hw, ?_⟩
  obtain ⟨x, hx, hxg⟩ := hof
  simp [hx, hxg, hst]

/-! ### Resumption (R76, R438) -/

theorem resumable_preempted {s : State} {tm : Team} {g : Grid} (hst : tm.st = .preempted) (hg : s.grid? tm.grid = some g)
    (hpreq : g.preq = false) (hab : g.aborted = false) : s.resumable tm = true := by
  simp [State.resumable, hst, hg, hpreq, hab]

/-- The groups of a team that have not ended, in their order. -/
def State.resuming (s : State) (grid team : Nat) : List Group :=
  (List.range 32).filterMap fun n => (s.groupsOf grid team).find? fun (x : Group) => x.grp == n && !x.ended

/-- The seats that a group asks for: for its splits, and for its tiles on their core. -/
def State.needs (s : State) (x : Group) : Nat × Nat × Option Nat :=
  ((s.storedOf x.id).length, x.tiles.length, if x.tiles.isEmpty then none else some x.tileCore)

theorem team?_names {s : State} {grid team : Nat} {tm : Team} (h : s.team? grid team = some tm) : tm.grid = grid ∧ tm.team = team := by
  simpa using List.find?_some h

section
variable {s : State} {grid team : Nat} {tm : Team} {g : Grid} (htm : s.unfocus.team? grid team = some tm) (hst : tm.st = .preempted)
  (hg : s.unfocus.grid? grid = some g) (hpreq : g.preq = false) (hab : g.aborted = false) (hfatal : s.md.fatal = false)
include htm hst hg hpreq hab hfatal

/-- A pre-empted team whose tiles' cores no longer serve them is reported, once. -/
theorem resumeStep_misfits (hmis : s.unfocus.misfits tm ≠ 0) (hcap : tm.restoreCap = false) :
    s.resumeStep grid team = some ((s.unfocus.onTeam grid team fun x => { x with restoreCap := true }).report tm.base 3 grid team
      g.asid 255 17 9 [BitVec.ofNat 8 tm.base, BitVec.ofNat 8 (s.unfocus.misfits tm)]) := by
  have hres : s.unfocus.resumable tm = true := resumable_preempted hst ((team?_names htm).1 ▸ hg) hpreq hab
  have hfatal' : s.unfocus.md.fatal = false := hfatal
  unfold State.resumeStep
  simp only [htm, hres, hfatal', hst, hmis, hcap, hg, Bool.not_true, Bool.or_self, Bool.false_eq_true, if_false, reduceCtorEq,
    ne_eq, not_false_eq_true, if_true, Option.map_some, Option.getD_some]

/-- A pre-empted team that fits takes its seats, where no level above has a placement to make. -/
theorem resumeStep_seats {seats : List Seat} (hmis : s.unfocus.misfits tm = 0)
    (habove : s.unfocus.placeFrom ([3, 2, 1, 0].filter fun n => g.level < n) = none) (harr : s.unfocus.arrivalFirst tm.base = false)
    (hawake : (s.unfocus.stk tm.base).pstate = 0)
    (hseats : s.unfocus.seatAll tm.base g.red ((s.unfocus.resuming grid team).map s.unfocus.needs) [] = some seats) :
    s.resumeStep grid team = some (((s.unfocus.resuming grid team).zip seats).foldl (fun a y => a.resumeGroup tm.base y.1 y.2)
      (s.unfocus.onTeam grid team fun x => { x with st := .placed, restoreCap := false })) := by
  have hres : s.unfocus.resumable tm = true := resumable_preempted hst ((team?_names htm).1 ▸ hg) hpreq hab
  have hfatal' : s.unfocus.md.fatal = false := hfatal
  unfold State.resuming State.needs at *
  unfold State.resumeStep
  simp only [htm, hres, hfatal', hst, hmis, hg, habove, harr, hawake, hseats, Bool.not_true, Bool.or_self, Bool.false_eq_true,
    if_false, reduceCtorEq, ne_eq, not_true_eq_false, Option.map_some, Option.getD_some, Option.isSome_none, Option.any_some]

end

theorem teamsResume : Claims.TeamsResume := by
  intro s grid team tm g u htm hst hg hpreq hab hfatal
  have hexec : exec (.teamResumption grid team) s = .next ((s.resumeStep grid team).getD s) := rfl
  refine ⟨fun hmis hcap => ?_, fun seats hmis habove harr hawake hseats => ?_⟩
  · rw [resumeStep_misfits htm hst hg hpreq hab hfatal hmis hcap] at hexec
    refine ⟨_, hexec, ?_⟩
    rw [Option.getD_some, report_eq]
    exact ⟨rfl, rfl, ⟨_, team?_onTeam (fun _ => ⟨rfl, rfl⟩) htm, hst, rfl⟩, _, rfl, rfl, rfl, rfl, rfl⟩
  · rw [resumeStep_seats htm hst hg hpreq hab hfatal hmis habove harr hawake hseats] at hexec
    exact ⟨_, hexec, rfl⟩

/-- Settles O39: PREQ is set split by split, which with no split at `bwt.y` leaves all else; the saves that an expired budget
forces leave the budgets of every stack; and a resumption is one step whose conditions the premises give. -/
theorem preemptionAndResumption : Obligations.PreemptionAndResumption := ⟨preemptionRunsOnBudgets, teamsResume⟩

end Sys2Proof.Machine
end

section
/-! PROOF. A packet that is taken while every grid identifier is in use (R61, R368). -/
namespace Sys2Proof.Machine

/-! ### What becomes of a packet without dependences and without a table (R57, R481) -/

theorem checksRead_plain (s : State) {w : Vector Dword 8} (hpgt : lPgt w = 0#64) (hdep : lNdep w = 0) : s.checksRead w = s := by
  have hq : s.depQuads w = some [] := by unfold State.depQuads; rw [hdep]; rfl
  have hr : s.depReads w = some [] := by unfold State.depReads; rw [hq]; rfl
  have hnone : s.quadsRead (if lPgt w = 0#64 then none else s.pgtQuads w) = s := by rw [if_pos hpgt]; rfl
  unfold State.checksRead
  rw [hnone, hq, hr]
  rfl

theorem flitsPass_clear {s : State} (h : s.md.links = []) (a b : Nat) : s.flitsPass a b = s := by
  unfold State.flitsPass
  rw [if_pos (by rw [h]; rfl)]

theorem trip_clear {s : State} (h : s.md.links = []) (a b : Nat) : s.trip a b = s := by
  unfold State.trip
  rw [flitsPass_clear h, flitsPass_clear h]

/-- A packet of a ring that the launcher serves, where no link of the mesh has had an error, is taken at once. -/
theorem launchStep_takes {s : State} {l k x : Nat} (hcur : s.current l = none) (hfatal : s.md.fatal = false)
    (hre : (s.ring l).rewritten = false) (hserved : (s.ring l).served = true)
    (htrip : s.tripWaits 0 (homeStack (s.ring l).hdr) = false) (hwait : s.ringWaits (s.ring l).hdr (s.ring l).logn = false)
    (hagent : s.agentWaits ((s.ring l).hdr + 8) 8 = false) (hslot : s.ringSlot (s.ring l).hdr (s.ring l).logn = .packet k x)
    (hchecks : s.checksWait (wordsOf x) = false) (hpgt : lPgt (wordsOf x) = 0#64) (hdep : lNdep (wordsOf x) = 0)
    (hlinks : s.md.links = []) :
    s.launchStep l = some ((s.takeSlot (s.ring l).hdr k).takeLaunch l k (wordsOf x) false) := by
  have hclear : (s.takeSlot (s.ring l).hdr k).md.links = [] := (congrArg ModSt.links (written_mem s _ _).2).trans hlinks
  unfold State.launchStep
  simp only [hcur, hfatal, hre, hserved, htrip, hwait, hagent, hslot, hchecks, Option.isSome_none, Bool.or_self, Bool.false_or,
    Bool.and_false, Bool.false_eq_true, if_false, Bool.not_true, checksRead_plain s hpgt hdep, trip_clear hclear]

/-- The grid of a packet without dependences and without a table. -/
def State.plainGrid (s : State) (w : Vector Dword 8) (l : Nat) : Grid := newGrid w l s.nextGrid 0 (lTeams w) [] 1 0 []

/-- The state in which it has been added to the grids, before the early reports for its identifier. -/
def State.plainTaken (s : State) (w : Vector Dword 8) (l : Nat) : State :=
  { s with
    fresh := s.fresh + 512, md := { s.md with gridCount := wrapGrid (s.nextGrid + 1) },
    grids := s.grids ++ [s.plainGrid w l] }.onRing l fun x => { x with current := some s.nextGrid }

theorem takeLaunch_plain {s : State} {w : Vector Dword 8} (l idx : Nat) (hpgt : lPgt w = 0#64) (hdep : lNdep w = 0)
    (hok : s.refusal w none = 0) : s.takeLaunch l idx w false = (s.plainTaken w l).earlyIn s.nextGrid := by
  have hnamed : (lPgt w != 0#64) = false := by rw [hpgt]; rfl
  unfold State.takeLaunch
  simp only [hnamed, Bool.not_false, Bool.true_and, Bool.false_eq_true, if_false, hok, ne_eq, not_true_eq_false, hdep, if_true,
    List.map_nil]
  rfl

/-! ### Reports that came before their packet (R367, R368) -/

/-- One report that came early, of a rank that the packet does not have, says of every grid with its identifier that it is aborted. -/
theorem earlyIn_stray {s : State} {n r e : Nat} {ab : Bool} (hearly : s.md.early = [(n, r, ab, e)])
    (hstray : (s.grids.any fun g => g.id == n && g.rank == 0 && decide (g.ranks ≤ r)) = true) :
    (s.earlyIn n).grids = s.grids.map fun g => if g.id = n then { g with rankAborted := g.rankAborted || ab } else g := by
  have hof : (s.md.early.filter fun e => e.1 == n) = [(n, r, ab, e)] := by rw [hearly]; simp
  unfold State.earlyIn
  rw [hof]
  show (State.reportIn _ n r ab e).grids = _
  unfold State.reportIn
  dsimp only
  rw [if_pos hstray]
  rfl

/-! ### Every identifier in use (R61) -/

/-- Where every candidate is in use, the next identifier is the counter itself, in use too. -/
theorem nextGrid_of_used {s : State}
    (h : ∀ i < s.grids.length + s.md.refused.length + s.md.recordsOut.length + 1, s.gridUsed (wrapGrid (s.md.gridCount + i)) = true) :
    s.nextGrid = s.md.gridCount := by
  unfold State.nextGrid
  rw [List.find?_eq_none.mpr, Option.getD_none]
  intro n hn
  obtain ⟨i, hi, rfl⟩ := List.mem_map.mp hn
  simpa using h i (List.mem_range.mp hi)

/-- Refused packets whose completion records wait, one for each identifier from 1 to `n`. -/
def refusedUpTo (n : Nat) : List Refused := (List.range n).map fun i => ⟨0, i + 1, 0, 0#64, 1, []⟩

theorem refusedUpTo_length (n : Nat) : (refusedUpTo n).length = n := by simp [refusedUpTo]

theorem refusedUpTo_names {n m : Nat} (hpos : 0 < m) (hle : m ≤ n) : ((refusedUpTo n).any fun (r : Refused) => r.name == m) = true := by
  refine List.any_eq_true.mpr ⟨⟨0, m - 1 + 1, 0, 0#64, 1, []⟩, List.mem_map.mpr ⟨m - 1, List.mem_range.mpr (by omega), rfl⟩, ?_⟩
  simp only [beq_iff_eq]
  omega

/-- One for every identifier that the launcher gives. Nothing evaluates the list. -/
@[irreducible] def refusedOfAll : List Refused := refusedUpTo (2 ^ 31 - 1)

theorem refusedOfAll_eq : refusedOfAll = refusedUpTo (2 ^ 31 - 1) := by unfold refusedOfAll; rfl

/-- A grid with identifier 1, alone in its module, with a team to place. -/
def oldGrid : Grid := newGrid (Vector.replicate 8 0#64) 3 1 0 1 [] 1 0 []

/-- A ring whose slot holds a packet of one team of one group of one lane, every identifier in use, and a report of rank 1 for
grid 1 that came early. -/
def noIdentifierLeft : State :=
  { State.reset with
    mem := { cells := [(0x50050, 1#8), (0x50053, 1#8), (0x50055, 0x10#8)], tags := [], poison := [] },
    grids := [oldGrid],
    md := { ModSt.reset with
      ready := true, rings := vset ModSt.reset.rings 0 ⟨0x50001#64, true, false, 0x50000, 4, none⟩,
      refused := refusedOfAll, early := [(1, 1, true, 0)] } }

/-- The words of its packet. -/
def onePacket : Vector Dword 8 := wordsOf (noIdentifierLeft.mem.read 0x50040 64)

theorem gridUsed_of_refused {s : State} (h : s.md.refused = refusedOfAll) {n : Nat} (hpos : 0 < n) (hlt : n < 2147483648) :
    s.gridUsed n = true := by
  unfold State.gridUsed
  rw [h, refusedOfAll_eq, refusedUpTo_names hpos (by omega), Bool.or_true, Bool.true_or]

theorem wrapGrid_bounds {n : Nat} (hpos : 0 < n) (hlt : n < 4294967295) : 0 < wrapGrid n ∧ wrapGrid n < 2147483648 := by
  unfold wrapGrid
  split <;> omega

theorem takeSlot_md (s : State) (hdr k : Nat) : (s.takeSlot hdr k).md = s.md := (written_mem s _ _).2

theorem takeSlot_grids (s : State) (hdr k : Nat) : (s.takeSlot hdr k).grids = s.grids := by
  obtain ⟨_, _, -, h⟩ := written_shape s (hdr + 8) (bytesLE 8 (k + 1)).length
  show (s.written (hdr + 8) (bytesLE 8 (k + 1)).length).grids = s.grids
  rw [h]

/-- The state in which the packet's slot is taken. -/
def noIdentifierLeft.taken : State := noIdentifierLeft.takeSlot 0x50000 0

theorem taken_md : noIdentifierLeft.taken.md = noIdentifierLeft.md := takeSlot_md noIdentifierLeft 0x50000 0

theorem taken_grids : noIdentifierLeft.taken.grids = [oldGrid] := takeSlot_grids noIdentifierLeft 0x50000 0

/-- The new grid would have identifier 1, which the old one has. -/
theorem taken_nextGrid : noIdentifierLeft.taken.nextGrid = 1 := by
  have hcount : noIdentifierLeft.taken.md.gridCount = 1 := congrArg ModSt.gridCount taken_md
  have hrefused : noIdentifierLeft.taken.md.refused = refusedOfAll := congrArg ModSt.refused taken_md
  have hout : noIdentifierLeft.taken.md.recordsOut = [] := congrArg ModSt.recordsOut taken_md
  rw [nextGrid_of_used, hcount]
  intro i hi
  rw [taken_grids, hrefused, refusedOfAll_eq, refusedUpTo_length, hout] at hi
  simp only [List.length_cons, List.length_nil] at hi
  rw [hcount]
  obtain ⟨hpos, hlt⟩ := wrapGrid_bounds (n := 1 + i) (by omega) (by omega)
  exact gridUsed_of_refused hrefused hpos hlt

theorem taken_refusal : noIdentifierLeft.taken.refusal onePacket none = 0 := by decide +kernel

theorem onePacket_plain : lPgt onePacket = 0#64 ∧ lNdep onePacket = 0 := by decide +kernel

/-- The early report reaches the old grid as well. -/
theorem taken_marksOld : (noIdentifierLeft.taken.takeLaunch 0 0 onePacket false).grids.head? = some { oldGrid with rankAborted := true } := by
  obtain ⟨hpgt, hdep⟩ := onePacket_plain
  have hgrids : (noIdentifierLeft.taken.plainTaken onePacket 0).grids = oldGrid :: [noIdentifierLeft.taken.plainGrid onePacket 0] := by
    show noIdentifierLeft.taken.grids ++ _ = _
    rw [taken_grids]
    rfl
  have hearly : (noIdentifierLeft.taken.plainTaken onePacket 0).md.early = [(1, 1, true, 0)] := congrArg ModSt.early taken_md
  rw [takeLaunch_plain 0 0 hpgt hdep taken_refusal, taken_nextGrid, earlyIn_stray hearly, hgrids]
  · rfl
  · rw [hgrids]
    exact Bool.or_eq_true_iff.mpr (.inl rfl)

/-- Refutes O36: with every identifier in use the launcher gives the new grid one that an old grid has, and a report that came early
for that identifier marks both, so that the grids are not the old ones and a new one. Nothing in the statement bounds how many
completion records wait. -/
theorem not_launchesStart : ¬ Obligations.LaunchesStart := by
  rintro ⟨starts, -⟩
  obtain ⟨hpgt, hdep⟩ := onePacket_plain
  have facts : noIdentifierLeft.current 0 = none ∧ noIdentifierLeft.md.fatal = false
      ∧ (noIdentifierLeft.ring 0).rewritten = false ∧ (noIdentifierLeft.ring 0).served = true
      ∧ noIdentifierLeft.tripWaits 0 (homeStack (noIdentifierLeft.ring 0).hdr) = false
      ∧ noIdentifierLeft.ringWaits (noIdentifierLeft.ring 0).hdr (noIdentifierLeft.ring 0).logn = false
      ∧ noIdentifierLeft.agentWaits ((noIdentifierLeft.ring 0).hdr + 8) 8 = false
      ∧ noIdentifierLeft.ringSlot (noIdentifierLeft.ring 0).hdr (noIdentifierLeft.ring 0).logn
        = .packet 0 (noIdentifierLeft.mem.read 0x50040 64)
      ∧ noIdentifierLeft.checksWait onePacket = false := by decide +kernel
  obtain ⟨hcur, hfatal, hre, hserved, htrip, hwait, hagent, hslot, hchecks⟩ := facts
  obtain ⟨t, ht, g, hgrids, -⟩ := (starts noIdentifierLeft 0 0 (noIdentifierLeft.mem.read 0x50040 64) hcur hfatal hre hserved htrip hwait
    hagent hslot hchecks hpgt).1 taken_refusal
  have hstep : noIdentifierLeft.launchStep 0 = some (noIdentifierLeft.taken.takeLaunch 0 0 onePacket false) :=
    launchStep_takes hcur hfatal hre hserved htrip hwait hagent hslot hchecks hpgt hdep rfl
  have hexec : exec (.launchPacket 0) noIdentifierLeft = .next ((noIdentifierLeft.launchStep 0).getD noIdentifierLeft) := rfl
  rw [hstep, Option.getD_some] at hexec
  have hnext : t = noIdentifierLeft.taken.takeLaunch 0 0 onePacket false := Host.Outcome.next.inj (ht.symm.trans hexec)
  have hmarked := taken_marksOld
  have hkept : noIdentifierLeft.taken.grids = [oldGrid] := taken_grids
  rw [← hnext, show t.grids = noIdentifierLeft.taken.grids ++ [g] from hgrids, hkept] at hmarked
  have hold : oldGrid = { oldGrid with rankAborted := true } := Option.some.inj hmarked
  exact absurd (congrArg Grid.rankAborted hold) (by decide)

end Sys2Proof.Machine
end

section
/-! PROOF. Binary logarithms of fractions, the encodings of a format in order, and rounding of what a format holds (R80, R81, R87,
R88). -/
namespace Sys2Proof.Machine

/-! ### Fractions on a grid -/

theorem two_zpow_pos (q : ℤ) : (0 : ℚ) < 2 ^ q := by positivity

theorem two_zpow_natCast {q : ℤ} (h : 0 ≤ q) : (2 : ℚ) ^ q = ((2 ^ q.toNat : ℕ) : ℚ) := by
  rw [Nat.cast_pow, Nat.cast_ofNat, ← zpow_natCast, Int.toNat_of_nonneg h]

theorem two_zpow_neg_natCast {q : ℤ} (h : q ≤ 0) : (2 : ℚ) ^ q = ((2 ^ (-q).toNat : ℕ) : ℚ)⁻¹ := by
  rw [← two_zpow_natCast (by omega), zpow_neg, inv_inv]

/-- A fraction compares with a power of two as its numerator and denominator do, with the power on the side where it is whole. -/
theorem div_lt_two_zpow {num den : ℕ} (hd : 0 < den) (e : ℤ) :
    (if 0 ≤ e then decide (num < den * 2 ^ e.toNat) else decide (num * 2 ^ (-e).toNat < den)) = true
      ↔ (num : ℚ) / den < 2 ^ e := by
  have hd' : (0 : ℚ) < den := by exact_mod_cast hd
  split
  · next h =>
    rw [decide_eq_true_iff, div_lt_iff₀' hd', two_zpow_natCast h]
    exact_mod_cast Iff.rfl
  · next h =>
    have hp : (0 : ℚ) < ((2 ^ (-e).toNat : ℕ) : ℚ) := by positivity
    rw [decide_eq_true_iff, div_lt_iff₀' hd', two_zpow_neg_natCast (by omega), ← div_eq_mul_inv, lt_div_iff₀ hp]
    exact_mod_cast Iff.rfl

theorem div_eq_two_zpow {num den : ℕ} (hd : 0 < den) (e : ℤ) :
    (if 0 ≤ e then num == den * 2 ^ e.toNat else num * 2 ^ (-e).toNat == den) = true ↔ (num : ℚ) / den = 2 ^ e := by
  have hd' : (den : ℚ) ≠ 0 := by exact_mod_cast hd.ne'
  split
  · next h =>
    rw [beq_iff_eq, div_eq_iff hd', two_zpow_natCast h, mul_comm]
    exact_mod_cast Iff.rfl
  · next h =>
    have hp : ((2 ^ (-e).toNat : ℕ) : ℚ) ≠ 0 := by positivity
    rw [beq_iff_eq, div_eq_iff hd', two_zpow_neg_natCast (by omega), mul_comm _ (den : ℚ), ← div_eq_mul_inv, eq_div_iff hp]
    exact_mod_cast Iff.rfl

/-- `fracLog` is the binary logarithm rounded down. -/
theorem fracLog_eq_log {num den : ℕ} (hn : 0 < num) (hd : 0 < den) : fracLog num den = Int.log 2 ((num : ℚ) / den) := by
  have hn' : (0 : ℚ) < num := by exact_mod_cast hn
  have hd' : (0 : ℚ) < den := by exact_mod_cast hd
  have hpos : (0 : ℚ) < (num : ℚ) / den := div_pos hn' hd'
  have bounds (x : ℕ) (hx : 0 < x) : (2 : ℚ) ^ (Nat.log2 x : ℤ) ≤ x ∧ (x : ℚ) < 2 ^ ((Nat.log2 x : ℤ) + 1) := by
    refine ⟨?_, ?_⟩
    · rw [zpow_natCast]; exact_mod_cast Nat.log2_self_le hx.ne'
    · rw [← Nat.cast_succ, zpow_natCast]; exact_mod_cast Nat.lt_log2_self
  obtain ⟨hnlo, hnhi⟩ := bounds num hn
  obtain ⟨hdlo, hdhi⟩ := bounds den hd
  set e : ℤ := (Nat.log2 num : ℤ) - (Nat.log2 den : ℤ) with he
  have hlo : (2 : ℚ) ^ (e - 1) < (num : ℚ) / den := by
    rw [lt_div_iff₀ hd']
    calc (2 : ℚ) ^ (e - 1) * den < 2 ^ (e - 1) * 2 ^ ((Nat.log2 den : ℤ) + 1) := by gcongr
      _ = 2 ^ (Nat.log2 num : ℤ) := by rw [← zpow_add₀ two_ne_zero, he]; congr 1; ring
      _ ≤ num := hnlo
  have hhi : (num : ℚ) / den < 2 ^ (e + 1) := by
    rw [div_lt_iff₀ hd']
    calc (num : ℚ) < 2 ^ ((Nat.log2 num : ℤ) + 1) := hnhi
      _ = 2 ^ (e + 1) * 2 ^ (Nat.log2 den : ℤ) := by rw [← zpow_add₀ two_ne_zero, he]; congr 1; ring
      _ ≤ 2 ^ (e + 1) * den := by gcongr
  have unique (k : ℤ) (h1 : (2 : ℚ) ^ k ≤ (num : ℚ) / den) (h2 : (num : ℚ) / den < 2 ^ (k + 1)) :
      k = Int.log 2 ((num : ℚ) / den) := by
    have := (Int.zpow_le_iff_le_log (R := ℚ) one_lt_two hpos).1 (by exact_mod_cast h1)
    have := (Int.lt_zpow_iff_log_lt (R := ℚ) one_lt_two hpos).1 (by exact_mod_cast h2)
    omega
  have hlow := div_lt_two_zpow (num := num) hd e
  unfold fracLog
  dsimp only
  rw [← he]
  generalize (if 0 ≤ e then decide (num < den * 2 ^ e.toNat) else decide (num * 2 ^ (-e).toNat < den)) = low at hlow ⊢
  cases low with
  | true => exact unique (e - 1) hlo.le (by rw [sub_add_cancel]; exact hlow.1 rfl)
  | false => exact unique e (not_lt.1 fun c => Bool.false_ne_true (hlow.2 c)) hhi

/-- The value `num / den` lies within the power of two that `fracLog` gives and the next. -/
theorem fracLog_bounds {num den : ℕ} (hn : 0 < num) (hd : 0 < den) :
    (2 : ℚ) ^ fracLog num den ≤ (num : ℚ) / den ∧ (num : ℚ) / den < 2 ^ (fracLog num den + 1) := by
  have hpos : (0 : ℚ) < (num : ℚ) / den := div_pos (by exact_mod_cast hn) (by exact_mod_cast hd)
  rw [fracLog_eq_log hn hd]
  exact ⟨by exact_mod_cast Int.zpow_log_le_self (R := ℚ) one_lt_two hpos,
    by exact_mod_cast Int.lt_zpow_succ_log_self (R := ℚ) one_lt_two _⟩

theorem fracLog_unique {num den : ℕ} {k : ℤ} (hd : 0 < den) (hlo : (2 : ℚ) ^ k ≤ (num : ℚ) / den)
    (hhi : (num : ℚ) / den < 2 ^ (k + 1)) : fracLog num den = k := by
  have hpos : (0 : ℚ) < (num : ℚ) / den := (two_zpow_pos k).trans_le hlo
  have hn : 0 < num := by
    rcases Nat.eq_zero_or_pos num with h | h
    · rw [h, Nat.cast_zero, zero_div] at hpos; exact absurd hpos (lt_irrefl _)
    · exact h
  rw [fracLog_eq_log hn hd]
  have := (Int.zpow_le_iff_le_log (R := ℚ) one_lt_two hpos).1 (by exact_mod_cast hlo)
  have := (Int.lt_zpow_iff_log_lt (R := ℚ) one_lt_two hpos).1 (by exact_mod_cast hhi)
  omega

/-- A whole multiple of the unit is on the grid. -/
theorem onGrid_exact {num den m : ℕ} {q : ℤ} (hd : 0 < den) (hval : (num : ℚ) / den = m * 2 ^ q) :
    (onGrid num den q).m = m ∧ (onGrid num den q).exact = true := by
  have hd' : (den : ℚ) ≠ 0 := by exact_mod_cast hd.ne'
  have whole (n d : ℕ) (hd : 0 < d) (h : n = m * d) : (between n d).m = m ∧ (between n d).exact = true := by
    subst h
    exact ⟨Nat.mul_div_cancel m hd, by simp [between]⟩
  rw [div_eq_iff hd'] at hval
  unfold onGrid
  split
  · next h =>
    refine whole _ _ (by positivity) ?_
    rw [two_zpow_natCast h] at hval
    have : num = m * 2 ^ q.toNat * den := by exact_mod_cast hval
    rw [this]; ring
  · next h =>
    refine whole _ _ hd ?_
    have hp : ((2 ^ (-q).toNat : ℕ) : ℚ) ≠ 0 := by positivity
    rw [two_zpow_neg_natCast (by omega)] at hval
    have : (num : ℚ) * ((2 ^ (-q).toNat : ℕ) : ℚ) = m * den := by rw [hval]; field_simp
    exact_mod_cast this

/-! ### The magnitudes of a format, in their order -/

/-- Significand and unit of the magnitude bits `g`, special encodings apart: their value is `sig g * 2 ^ unit g` (R80). -/
def Fmt.sig (f : Fmt) (g : Nat) : Nat := if g / 2 ^ f.man = 0 then g % 2 ^ f.man else 2 ^ f.man + g % 2 ^ f.man
def Fmt.up (f : Fmt) (g : Nat) : Nat := if g / 2 ^ f.man = 0 then 1 else g / 2 ^ f.man
def Fmt.unit (f : Fmt) (g : Nat) : ℤ := f.up g - f.bias - f.man
def Fmt.magVal (f : Fmt) (g : Nat) : ℚ := f.sig g * 2 ^ f.unit g

/-- A significand that stands in its normal form at a unit, as a format holds it, were its exponents unbounded (R88). -/
structure Fmt.Fits (f : Fmt) (m : Nat) (q : ℤ) : Prop where
  bound : m < 2 ^ (f.man + 1)
  unit : 1 - (f.bias : ℤ) - f.man ≤ q
  normal : 2 ^ f.man ≤ m ∨ q = 1 - (f.bias : ℤ) - f.man

theorem Fmt.up_pos (f : Fmt) (g : Nat) : 1 ≤ f.up g := by
  unfold Fmt.up
  split
  · exact le_rfl
  · next h => exact Nat.one_le_iff_ne_zero.2 h

theorem Fmt.fits_sig (f : Fmt) (g : Nat) : f.Fits (f.sig g) (f.unit g) where
  bound := by
    have := Nat.mod_lt g (Nat.two_pow_pos f.man)
    unfold Fmt.sig; rw [pow_succ]; split <;> omega
  unit := by have := f.up_pos g; unfold Fmt.unit; omega
  normal := by
    unfold Fmt.unit Fmt.up Fmt.sig
    split
    · exact .inr (by push_cast; ring)
    · exact .inl (Nat.le_add_right _ _)

theorem Fmt.mag_sig (f : Fmt) (g : Nat) : f.mag (f.sig g) (f.unit g) = g := by
  have hdm := Nat.div_add_mod' g (2 ^ f.man)
  have hpos := f.up_pos g
  have hz : (f.unit g + (f.man : ℤ) + (f.bias : ℤ) - 1).toNat = f.up g - 1 := by unfold Fmt.unit; omega
  rw [Fmt.mag, hz]
  unfold Fmt.up Fmt.sig
  split
  · next h => rw [h] at hdm; omega
  · next h =>
    obtain ⟨e, he⟩ := Nat.exists_eq_succ_of_ne_zero h
    rw [he] at hdm ⊢
    rw [Nat.succ_mul] at hdm
    simp only [Nat.succ_eq_add_one, Nat.add_sub_cancel]
    omega

/-- Reading back what `Fmt.mag` encodes, the carry into the next exponent included. -/
theorem Fmt.magVal_mag (f : Fmt) {m : Nat} {q : ℤ} (hm : m ≤ 2 ^ (f.man + 1)) (hq : 1 - (f.bias : ℤ) - f.man ≤ q)
    (hn : 2 ^ f.man ≤ m ∨ q = 1 - (f.bias : ℤ) - f.man) : f.magVal (f.mag m q) = m * 2 ^ q := by
  obtain ⟨k, hk⟩ : ∃ k : ℕ, q = k + 1 - f.bias - f.man := ⟨(q + f.man + f.bias - 1).toNat, by omega⟩
  have hz : (q + (f.man : ℤ) + (f.bias : ℤ) - 1).toNat = k := by omega
  have hp : 0 < 2 ^ f.man := Nat.two_pow_pos _
  have hmag : f.mag m q = k * 2 ^ f.man + m := by rw [Fmt.mag, hz]
  rw [pow_succ] at hm
  rcases Nat.lt_or_ge m (2 ^ f.man) with hlt | hge
  · have hk0 : k = 0 := by rcases hn with h | h <;> omega
    have hg : f.mag m q = m := by rw [hmag, hk0]; omega
    rw [Fmt.magVal, Fmt.unit, Fmt.sig, Fmt.up, hg, if_pos (Nat.div_eq_of_lt hlt), if_pos (Nat.div_eq_of_lt hlt), Nat.mod_eq_of_lt hlt, hk,
      hk0]
    norm_num
  · rcases Nat.lt_or_ge m (2 ^ f.man * 2) with hlt | hge2
    · obtain ⟨r, hr⟩ := Nat.exists_eq_add_of_le hge
      have hg : f.mag m q = r + (k + 1) * 2 ^ f.man := by rw [hmag, hr]; ring
      have hdiv : f.mag m q / 2 ^ f.man = k + 1 := by
        rw [hg, Nat.add_mul_div_right _ _ hp, Nat.div_eq_of_lt (by omega), zero_add]
      have hmod : f.mag m q % 2 ^ f.man = r := by rw [hg, Nat.add_mul_mod_self_right, Nat.mod_eq_of_lt (by omega)]
      rw [Fmt.magVal, Fmt.unit, Fmt.sig, Fmt.up, hdiv, hmod, if_neg (Nat.succ_ne_zero k), if_neg (Nat.succ_ne_zero k), hr, hk]
      push_cast; rfl
    · have hm2 : m = 2 ^ f.man * 2 := by omega
      have hg : f.mag m q = (k + 2) * 2 ^ f.man := by rw [hmag, hm2]; ring
      have hdiv : f.mag m q / 2 ^ f.man = k + 2 := by rw [hg, Nat.mul_div_cancel _ hp]
      have hmod : f.mag m q % 2 ^ f.man = 0 := by rw [hg, Nat.mul_mod_left]
      rw [Fmt.magVal, Fmt.unit, Fmt.sig, Fmt.up, hdiv, hmod, if_neg (by omega), if_neg (by omega), hm2, hk,
        show ((k + 2 : ℕ) : ℤ) - f.bias - f.man = (k + 1 - f.bias - f.man) + 1 by push_cast; ring, zpow_add_one₀ two_ne_zero]
      push_cast; ring

theorem Fmt.mag_succ (f : Fmt) (m : Nat) (q : ℤ) : f.mag (m + 1) q = f.mag m q + 1 := rfl

theorem Fmt.Fits.magVal {f : Fmt} {m : Nat} {q : ℤ} (h : f.Fits m q) : f.magVal (f.mag m q) = m * 2 ^ q :=
  f.magVal_mag h.bound.le h.unit h.normal

/-- The next encoding is one unit farther from zero. -/
theorem Fmt.magVal_succ (f : Fmt) (g : Nat) : f.magVal (g + 1) = f.magVal g + 2 ^ f.unit g := by
  have h := f.fits_sig g
  have hs : g + 1 = f.mag (f.sig g + 1) (f.unit g) := by rw [f.mag_succ, f.mag_sig]
  rw [hs, f.magVal_mag h.bound h.unit (h.normal.imp_left fun h => by omega), Fmt.magVal]
  push_cast; ring

theorem Fmt.magVal_lt_succ (f : Fmt) (g : Nat) : f.magVal g < f.magVal (g + 1) := by
  rw [f.magVal_succ g]
  exact lt_add_of_pos_right _ (two_zpow_pos _)

theorem Fmt.magVal_nonneg (f : Fmt) (g : Nat) : 0 ≤ f.magVal g := by unfold Fmt.magVal; positivity

/-! ### Values -/

/-- The magnitude of a finite value. -/
def Ext.mag : Ext → ℚ
  | .fin _ n d => (n : ℚ) / d
  | _ => 0

/-- The significand of a format's value, as a numerator over one denominator of the whole format (R80). -/
theorem Fmt.div_eq_magVal (f : Fmt) (g : Nat) :
    ((f.sig g * 2 ^ f.up g : ℕ) : ℚ) / ((2 ^ (f.bias + f.man) : ℕ) : ℚ) = f.magVal g := by
  rw [Fmt.magVal, Fmt.unit, sub_sub, zpow_sub₀ two_ne_zero, zpow_natCast, ← Nat.cast_add, zpow_natCast]
  push_cast; ring

/-- The finite encodings of a format without unused bits (R80, R81). -/
theorem Fmt.value_finite {f : Fmt} (hlow : f.low = 0) (htop : f.top = .ieee) {x : Nat} (hx : x % 2 ^ (f.ex + f.man) < f.infMag) :
    f.value x = .fin (x.testBit (f.ex + f.man)) (f.sig (x % 2 ^ (f.ex + f.man)) * 2 ^ f.up (x % 2 ^ (f.ex + f.man)))
      (2 ^ (f.bias + f.man)) := by
  have h1 : ¬ (f.infMag < x % 2 ^ (f.ex + f.man)) := by omega
  have h2 : x % 2 ^ (f.ex + f.man) ≠ f.infMag := by omega
  unfold Fmt.value
  simp only [hlow, htop, pow_zero, Nat.div_one, h1, h2, and_false, reduceCtorEq, false_and, or_false, if_false]
  rfl

theorem Fmt.value_inf {f : Fmt} (hlow : f.low = 0) (htop : f.top = .ieee) {x : Nat} (hx : x % 2 ^ (f.ex + f.man) = f.infMag) :
    f.value x = .inf (x.testBit (f.ex + f.man)) := by
  unfold Fmt.value
  simp [hlow, htop, hx]

theorem Fmt.value_nan {f : Fmt} (hlow : f.low = 0) (htop : f.top = .ieee) {x : Nat} (hx : f.infMag < x % 2 ^ (f.ex + f.man)) :
    f.value x = .nan := by
  unfold Fmt.value
  simp [hlow, htop, hx]

/-! ### Rounding what a format holds -/

/-- The grid of a value in normal form is its unit. -/
theorem Fmt.Fits.grid {f : Fmt} {num den m : Nat} {q : ℤ} (h : f.Fits m q) (hm : m ≠ 0) (hd : 0 < den)
    (hval : (num : ℚ) / den = m * 2 ^ q) : f.grid (fracLog num den) = q := by
  obtain ⟨hb, hq, hn⟩ := h
  have hm' : (1 : ℚ) ≤ m := by exact_mod_cast Nat.one_le_iff_ne_zero.2 hm
  have hb' : (m : ℚ) < 2 ^ ((f.man : ℤ) + 1) := by
    rw [← Nat.cast_succ, zpow_natCast]; exact_mod_cast hb
  have hpos : (0 : ℚ) < (num : ℚ) / den := by rw [hval]; positivity
  have hn0 : 0 < num := by
    rcases Nat.eq_zero_or_pos num with h | h
    · rw [h, Nat.cast_zero, zero_div] at hpos; exact absurd hpos (lt_irrefl _)
    · exact h
  have hlt : (num : ℚ) / den < 2 ^ (q + f.man + 1) := by
    rw [hval, add_assoc, add_comm, zpow_add₀ two_ne_zero]
    exact mul_lt_mul_of_pos_right hb' (two_zpow_pos q)
  have hlog : fracLog num den < q + f.man + 1 := by
    rw [fracLog_eq_log hn0 hd]
    exact (Int.lt_zpow_iff_log_lt (R := ℚ) one_lt_two hpos).1 (by exact_mod_cast hlt)
  unfold Fmt.grid
  rcases hn with hn | hn
  · have hge : (2 : ℚ) ^ (q + f.man) ≤ (num : ℚ) / den := by
      rw [hval, add_comm, zpow_add₀ two_ne_zero, zpow_natCast]
      exact mul_le_mul_of_nonneg_right (by exact_mod_cast hn) (two_zpow_pos q).le
    have hlog' := fracLog_unique hd hge hlt
    dsimp only
    split <;> omega
  · dsimp only
    split <;> omega

/-- Every mode leaves what is on the grid. -/
theorem choose_exact {mode : Rnd} {neg : Bool} {u : Nat} {b : Between} (h : b.exact = true) : choose mode neg u b = b.m := by
  unfold choose
  rw [if_pos h]

/-- A value that a format holds is rounded to its encoding (R88). -/
theorem Fmt.round_exact {f : Fmt} (mode : Rnd) (ofn : Bool) (u : Nat) (neg : Bool) {num den m : Nat} {q : ℤ} (hd : 0 < den)
    (hm : m ≠ 0) (hval : (num : ℚ) / den = m * 2 ^ q) (h : f.Fits m q) (hmax : f.mag m q ≤ f.maxMag) :
    f.round mode ofn u (.fin neg num den) = f.join neg (f.mag m q) := by
  have hn : num ≠ 0 := by
    rintro rfl
    rw [Nat.cast_zero, zero_div] at hval
    have : (0 : ℚ) < m * 2 ^ q := by have := Nat.pos_of_ne_zero hm; positivity
    exact absurd hval this.ne
  obtain ⟨hgm, hge⟩ := onGrid_exact hd hval
  unfold Fmt.round
  dsimp only
  rw [if_neg hn, h.grid hm hd hval, choose_exact hge, hgm, Fmt.finish]
  exact if_neg (not_lt.2 hmax)

theorem Fmt.round_zero (f : Fmt) (mode : Rnd) (ofn : Bool) (u : Nat) (neg : Bool) (den : Nat) :
    f.round mode ofn u (.fin neg 0 den) = f.join neg 0 := rfl

/-- The encoding of magnitude bits and a sign is the encoding that they come from. -/
theorem Fmt.join_value {f : Fmt} (hlow : f.low = 0) {x : Nat} (hx : x < 2 ^ (f.ex + f.man + 1)) :
    f.join (x.testBit (f.ex + f.man)) (x % 2 ^ (f.ex + f.man)) = x := by
  have hdm := Nat.div_add_mod' x (2 ^ (f.ex + f.man))
  have hq : x / 2 ^ (f.ex + f.man) < 2 := by
    rw [Nat.div_lt_iff_lt_mul (Nat.two_pow_pos _), ← pow_succ']; exact hx
  have hbit : x.testBit (f.ex + f.man) = decide (x / 2 ^ (f.ex + f.man) = 1) := by
    rw [Nat.testBit_eq_decide_div_mod_eq, Nat.mod_eq_of_lt hq]
  rw [Fmt.join, hlow, hbit]
  generalize x / 2 ^ (f.ex + f.man) = k at hdm hq ⊢
  obtain rfl | rfl : k = 0 ∨ k = 1 := by omega
  · simpa using hdm
  · simpa using hdm

/-- Rounding the value of an encoding gives it back; a NaN gives the canonical one (R81, R88). -/
theorem Fmt.round_value {f : Fmt} (hlow : f.low = 0) (htop : f.top = .ieee) (hwide : f.narrow = false) (mode : Rnd) (ofn : Bool)
    (u : Nat) {x : Nat} (hx : x < 2 ^ (f.ex + f.man + 1)) :
    f.round mode ofn u (f.value x) = if f.value x = .nan then f.nan else x := by
  set g := x % 2 ^ (f.ex + f.man) with hg
  have hback := Fmt.join_value hlow hx
  rw [← hg] at hback
  rcases lt_trichotomy g f.infMag with h | h | h
  · rw [Fmt.value_finite hlow htop h, if_neg (by simp), ← hg]
    have hmag : f.mag (f.sig g) (f.unit g) = g := f.mag_sig g
    by_cases hs : f.sig g = 0
    · have hg0 : g = 0 := by
        have : 0 < 2 ^ f.man := Nat.two_pow_pos _
        unfold Fmt.sig at hs
        split at hs
        · next hz => rw [← Nat.div_add_mod' g (2 ^ f.man), hz, hs]; simp
        · omega
      rw [hs, Nat.zero_mul, Fmt.round_zero, ← hg0, hback]
    · rw [Fmt.round_exact mode ofn u _ (Nat.two_pow_pos _) hs (f.div_eq_magVal g) (f.fits_sig g) ?_, hmag, hback]
      rw [hmag, Fmt.maxMag, htop]; dsimp only; omega
  · rw [Fmt.value_inf hlow htop h, if_neg (by simp)]
    unfold Fmt.round Fmt.over
    simp only [hwide, htop, Bool.false_and, Bool.false_eq_true, if_false, if_true]
    rw [← h, hback]
  · rw [Fmt.value_nan hlow htop h, if_pos rfl]
    rfl

/-! ### Every result fits its format -/

/-- No magnitude that a rounding can give passes the format's fields. -/
structure Fmt.Bounded (f : Fmt) : Prop where
  most : f.maxMag < 2 ^ (f.ex + f.man)
  inf : f.infMag < 2 ^ (f.ex + f.man)
  nan : f.nanMag < 2 ^ (f.ex + f.man)

/-- The bits of an encoding in its container (R80). -/
def Fmt.bits (f : Fmt) : Nat := f.ex + f.man + 1 + f.low

theorem Fmt.join_lt {f : Fmt} {neg : Bool} {g : Nat} (h : g < 2 ^ (f.ex + f.man)) : f.join neg g < 2 ^ f.bits := by
  rw [Fmt.join, Fmt.bits, pow_add _ _ f.low, pow_succ]
  refine Nat.mul_lt_mul_of_pos_right ?_ (Nat.two_pow_pos _)
  split <;> omega

theorem Fmt.Bounded.nan_lt {f : Fmt} (b : f.Bounded) : f.nan < 2 ^ f.bits := Fmt.join_lt b.nan

theorem Fmt.Bounded.over_lt {f : Fmt} (b : f.Bounded) (ofn neg away : Bool) : f.over ofn neg away < 2 ^ f.bits := by
  have most : f.join neg f.maxMag < 2 ^ f.bits := Fmt.join_lt b.most
  unfold Fmt.over
  dsimp only
  split
  · exact most
  · split
    · split
      · exact Fmt.join_lt b.inf
      · exact most
    · split
      · exact b.nan_lt
      · exact most
    · exact most

theorem Fmt.Bounded.finish_lt {f : Fmt} (b : f.Bounded) (mode : Rnd) (ofn neg : Bool) (m : Nat) (q : ℤ) :
    f.finish mode ofn neg m q < 2 ^ f.bits := by
  unfold Fmt.finish
  dsimp only
  split
  · exact b.over_lt ofn neg _
  · next h => exact Fmt.join_lt ((not_lt.1 h).trans_lt b.most)

theorem Fmt.Bounded.round_lt {f : Fmt} (b : f.Bounded) (mode : Rnd) (ofn : Bool) (u : Nat) (x : Ext) :
    f.round mode ofn u x < 2 ^ f.bits := by
  cases x with
  | nan => exact b.nan_lt
  | inf neg => exact b.over_lt ofn neg true
  | fin neg num den =>
    unfold Fmt.round
    dsimp only
    split
    · exact Fmt.join_lt (Nat.two_pow_pos _)
    · exact b.finish_lt mode ofn neg _ _

theorem fTy_bounded (ty : FTy) : (fTy ty).Bounded := by
  cases ty <;> exact ⟨by decide, by decide, by decide⟩

theorem fTy_bits (ty : FTy) : (fTy ty).bits = fWidth ty := by cases ty <;> rfl

theorem fTy_fields (ty : FTy) : fWidth ty = (fTy ty).ex + (fTy ty).man + 1 := by cases ty <;> rfl

theorem fTy_plain (ty : FTy) : (fTy ty).low = 0 ∧ (fTy ty).top = .ieee ∧ (fTy ty).narrow = false := by cases ty <;> exact ⟨rfl, rfl, rfl⟩

theorem roundingKeepsRepresentable : Claims.RoundingKeepsRepresentable := by
  intro ty m ofn u x hx
  obtain ⟨hlow, htop, hwide⟩ := fTy_plain ty
  exact Fmt.round_value hlow htop hwide m ofn u (by rwa [← fTy_fields])

end Sys2Proof.Machine
end

section
/-! PROOF. Floating-point arithmetic, minimum, maximum and comparison: what lands, lane by lane and element by element (R86, R92,
R167 to R172). -/
namespace Sys2Proof.Machine

/-! ### Results of an instruction that may take generator steps (R92, R169) -/

variable {s : State} {i : Instr} {h : Hd} {n : Need8} {lat : Nat} {ws : State → List Wr}

theorem stepSeeds_acts (ha : s.Acts h) (mode : Rnd) (m : Mask) (k : Nat) : (s.stepSeeds mode m k).Acts h := by
  obtain ⟨seeds, hs⟩ := stepSeeds_seeds s mode m k
  rw [hs]
  exact ha

theorem stepSeeds_fresh427 (s : State) (mode : Rnd) (m : Mask) (k : Nat) :
    s.fresh427.stepSeeds mode m k = (s.stepSeeds mode m k).fresh427 := by
  unfold State.stepSeeds
  dsimp only
  split <;> rfl

/-- A fixed-latency instruction that acts takes its generator steps and lands what it computes from the state at its issue. -/
theorem falu_lands {mode : Rnd} {steps : Nat} (ha : s.Acts h) (hk : n.chk = none) (ht : n.tok = none) :
    ∃ t, s.falu i h n lat mode steps ws = .next t
      ∧ Lands (s.stepSeeds mode (s.active h) steps) i.bytes lat (ws s.fresh427) t := by
  have htok : ∀ {u : State} k, n.tok = some k → u.Room k := fun k hk => absurd (ht.symm.trans hk) (Option.some_ne_none k).symm
  have ha' := stepSeeds_acts ha mode (s.active h) steps
  obtain ⟨t, hnext, hl⟩ := alu_lands (i := i) (lat := lat) (ws := fun _ => ws s.fresh427) ha' hk ht
  refine ⟨t, ?_, hl⟩
  rw [State.alu, gate_on ha' hk htok] at hnext
  rw [State.falu, gate_on ha hk htok, ← hnext]
  dsimp only
  rw [← stepSeeds_fresh427]
  rfl

/-! ### Packed elements (R85, R167) -/

theorem fElem_lt (ty : FTy) (x : Word) (e : Nat) : fElem ty x e < 2 ^ fWidth ty := Nat.mod_lt _ (Nat.two_pow_pos _)

/-- Element `e` of a packed result is what was packed there. -/
theorem fElem_fPack (ty : FTy) {lo : Bool} (hlo : loOk ty lo = true) {r : Nat → Nat} (hr : ∀ e, r e < 2 ^ fWidth ty) {e : Nat}
    (he : e < fCount ty lo) : fElem ty (fPack ty lo r) e = r e := by
  unfold fElem fPack
  rw [BitVec.toNat_ofNat]
  have first (hw : fWidth ty ≤ 32) : (0 + r 0 * 2 ^ (fWidth ty * 0)) % 2 ^ 32 / 2 ^ (fWidth ty * 0) % 2 ^ fWidth ty = r 0 := by
    have h32 : r 0 < 2 ^ 32 := (hr 0).trans_le (Nat.pow_le_pow_right two_pos hw)
    rw [Nat.mul_zero, pow_zero, Nat.zero_add, Nat.mul_one, Nat.mod_eq_of_lt h32, Nat.div_one, Nat.mod_eq_of_lt (hr 0)]
  cases lo with
  | true =>
    obtain rfl : e = 0 := Nat.lt_one_iff.1 he
    rw [show fCount ty true = 1 from rfl, sum_one fun i => r i * 2 ^ (fWidth ty * i)]
    exact first (by cases ty <;> decide)
  | false =>
    cases ty with
    | f32 =>
      obtain rfl : e = 0 := Nat.lt_one_iff.1 he
      exact first le_rfl
    | f16 => exact pack_halves r hr e he
    | bf16 => exact pack_halves r hr e he

/-- A `.lo` form leaves the upper half zero. -/
theorem fPack_lo (ty : FTy) (hlo : loOk ty true = true) {r : Nat → Nat} (hr : ∀ e, r e < 2 ^ fWidth ty) :
    (fPack ty true r).toNat < 2 ^ 16 := by
  have hw : fWidth ty = 16 := by
    cases ty with
    | f32 => exact absurd hlo (by decide)
    | f16 => rfl
    | bf16 => rfl
  have h0 := hr 0
  rw [hw] at h0
  unfold fPack
  rw [BitVec.toNat_ofNat, show fCount ty true = 1 from rfl, sum_one fun i => r i * 2 ^ (fWidth ty * i)]
  refine (Nat.mod_le _ _).trans_lt ?_
  simpa using h0

theorem loOk_false (ty : FTy) : loOk ty false = true := rfl

/-! ### Arithmetic (R170) -/

theorem fTy_round_lt (ty : FTy) (mode : Rnd) (ofn : Bool) (u : Nat) (y : Ext) : (fTy ty).round mode ofn u y < 2 ^ fWidth ty := by
  rw [← fTy_bits]
  exact (fTy_bounded ty).round_lt mode ofn u y

/-- Each element of an arithmetic result is its exact value rounded once. -/
theorem arith_lands {x : VA} {rd : List Rd} {ty : FTy} {lo : Bool} {rnd : Rnd} {f : Ext → Ext → Nat → Nat → Ext} (ha : s.Acts x.h)
    (hlo : loOk ty lo = true) : ∃ r : Lanes, (∃ t, s.arith i x rd ty lo rnd f = .next t
        ∧ Lands (s.stepSeeds rnd (s.active x.h) (fCount ty lo)) i.bytes 6 [.v (s.phys x.d) (s.active x.h) r] t)
      ∧ ∀ l < 32, (∀ e < fCount ty lo, fElem ty (lane r l) e = (fTy ty).round rnd true (drawOf rnd (lane s.me.seeds l) e)
          (f ((fTy ty).value (fElem ty (lane (s.v x.a) l) e)) ((fTy ty).value (fElem ty (lane (s.b x.b) l) e)) l e))
        ∧ (lo = true → (lane r l).toNat < 2 ^ 16) := by
  refine ⟨_, falu_lands ha rfl rfl, fun l hl => ?_⟩
  rw [lane_lanesOf _ _ hl]
  refine ⟨fun e he => fElem_fPack ty hlo (fun e => fTy_round_lt ty _ _ _ _) he, fun h => ?_⟩
  subst h
  exact fPack_lo ty hlo fun e => fTy_round_lt ty _ _ _ _

theorem floatArithmeticRoundsOnce : Claims.FloatArithmeticRoundsOnce := by
  intro s x ty lo rnd c ha hlo el eb gives
  refine ⟨?_, ?_, ?_, ?_, ?_, ?_, ?_⟩
  · exact arith_lands (f := fun a b _ _ => a.add .rne b) ha (loOk_false .f32)
  · exact arith_lands (f := fun a b _ _ => a.add rnd b) ha hlo
  · exact arith_lands (f := fun a b _ _ => a.add .rne b.neg) ha (loOk_false .f32)
  · exact arith_lands (f := fun a b _ _ => a.add rnd b.neg) ha hlo
  · exact arith_lands (f := fun a b _ _ => a.mul b) ha (loOk_false .f32)
  · exact arith_lands (f := fun a b _ _ => a.mul b) ha hlo
  · exact arith_lands (f := fun a b l e => (a.mul b).add rnd ((fTy ty).value (fElem ty (lane (s.v c) l) e))) ha hlo

/-! ### Minimum and maximum (R171) -/

theorem signed_zero (g : Bool) : signed g 0 = 0 := by cases g <;> rfl

theorem compare_eq_swap (a b : Int) : compare a b = (compare b a).swap := (Int.compare_swap b a).symm

/-- The order of two values, read from the other side. -/
theorem Ext.cmp_swap (x y : Ext) : y.cmp x = (x.cmp y).map Ordering.swap := by
  cases x with
  | nan => cases y <;> rfl
  | inf g =>
    cases y with
    | nan => rfl
    | inf k => exact congrArg some (compare_eq_swap _ _)
    | fin k n m => cases g <;> rfl
  | fin g n m =>
    cases y with
    | nan => rfl
    | inf k => cases k <;> rfl
    | fin k n' m' => exact congrArg some (compare_eq_swap _ _)

/-- Whether `fmin` takes its first operand: it is the smaller, or the −0 of two equal ones (R171). -/
def takesFirst (f : Fmt) (a b : Nat) : Bool := match (f.value a).cmp (f.value b) with
  | some .lt => true
  | some .eq => a.testBit (f.ex + f.man) && !b.testBit (f.ex + f.man)
  | _ => false

theorem minmaxBits_ordered {f : Fmt} {up : Bool} {a b : Nat} (ha : f.value a ≠ .nan) (hb : f.value b ≠ .nan) :
    minmaxBits f up a b = if takesFirst f a b = up then b else a := by
  unfold minmaxBits takesFirst
  cases hx : f.value a with
  | nan => exact absurd hx ha
  | inf g =>
    cases hy : f.value b with
    | nan => exact absurd hy hb
    | inf k => rfl
    | fin k n m => rfl
  | fin g n m =>
    cases hy : f.value b with
    | nan => exact absurd hy hb
    | inf k => rfl
    | fin k n' m' => rfl

theorem minmaxBits_nan_nan {f : Fmt} {up : Bool} {a b : Nat} (ha : f.value a = .nan) (hb : f.value b = .nan) :
    minmaxBits f up a b = f.nan := by
  unfold minmaxBits
  rw [ha, hb]

theorem minmaxBits_nan_left {f : Fmt} {up : Bool} {a b : Nat} (ha : f.value a = .nan) (hb : f.value b ≠ .nan) :
    minmaxBits f up a b = b := by
  unfold minmaxBits
  rw [ha]
  cases hy : f.value b with
  | nan => exact absurd hy hb
  | inf k => rfl
  | fin k n m => rfl

theorem minmaxBits_nan_right {f : Fmt} {up : Bool} {a b : Nat} (ha : f.value a ≠ .nan) (hb : f.value b = .nan) :
    minmaxBits f up a b = a := by
  unfold minmaxBits
  rw [hb]
  cases hx : f.value a with
  | nan => exact absurd hx ha
  | inf k => rfl
  | fin k n m => rfl

/-- The sign of a finite value is the sign bit of its encoding (R80). -/
theorem Fmt.value_sign {f : Fmt} (hlow : f.low = 0) {x : Nat} {g : Bool} {n d : Nat} (h : f.value x = .fin g n d) :
    x.testBit (f.ex + f.man) = g := by
  unfold Fmt.value at h
  dsimp only at h
  rw [hlow, pow_zero, Nat.div_one] at h
  split at h
  · cases h
  · split at h
    · cases h
    · exact (Ext.fin.inj h).1

/-- Two zeros of unlike signs: −0 is the smaller. -/
theorem takesFirst_zeros {f : Fmt} (hlow : f.low = 0) {a b : Nat} {g h : Bool} {m n : Nat} (ha : f.value a = .fin g 0 m)
    (hb : f.value b = .fin h 0 n) (hne : g ≠ h) : takesFirst f a b = g := by
  have hcmp : (f.value a).cmp (f.value b) = some .eq := by
    rw [ha, hb, Ext.cmp, Nat.zero_mul, Nat.zero_mul, signed_zero, signed_zero]
    rfl
  unfold takesFirst
  rw [hcmp]
  dsimp only
  rw [Fmt.value_sign hlow ha, Fmt.value_sign hlow hb]
  obtain rfl : h = !g := Bool.eq_not.2 hne.symm
  cases g <;> rfl

/-- What R171 says of the operand that `fmin` (`up` false) or `fmax` chooses. -/
structure Chosen (f : Fmt) (up : Bool) (a b w : Nat) : Prop where
  bothNan : f.value a = .nan → f.value b = .nan → w = f.nan
  firstNan : f.value a = .nan → f.value b ≠ .nan → w = b
  secondNan : f.value a ≠ .nan → f.value b = .nan → w = a
  one : f.value a ≠ .nan → f.value b ≠ .nan → w = a ∨ w = b
  below : f.value a ≠ .nan → f.value b ≠ .nan → (f.value a).cmp (f.value b) = some .lt → w = if up then b else a
  above : f.value a ≠ .nan → f.value b ≠ .nan → (f.value b).cmp (f.value a) = some .lt → w = if up then a else b
  zeros : f.value a ≠ .nan → f.value b ≠ .nan → ∀ g h m n, f.value a = .fin g 0 m → f.value b = .fin h 0 n → g ≠ h →
    w = if g = up then b else a

theorem minmaxBits_chosen {f : Fmt} (hlow : f.low = 0) (up : Bool) (a b : Nat) : Chosen f up a b (minmaxBits f up a b) where
  bothNan := minmaxBits_nan_nan
  firstNan := minmaxBits_nan_left
  secondNan := minmaxBits_nan_right
  one ha hb := by
    rw [minmaxBits_ordered ha hb]
    split
    · exact .inr rfl
    · exact .inl rfl
  below ha hb hlt := by
    have hfirst : takesFirst f a b = true := by unfold takesFirst; rw [hlt]
    rw [minmaxBits_ordered ha hb, hfirst]
    cases up <;> rfl
  above ha hb hlt := by
    have hgt : (f.value a).cmp (f.value b) = some .gt := by rw [Ext.cmp_swap, hlt]; rfl
    have hfirst : takesFirst f a b = false := by unfold takesFirst; rw [hgt]
    rw [minmaxBits_ordered ha hb, hfirst]
    cases up <;> rfl
  zeros ha hb g h m n hza hzb hne := by
    rw [minmaxBits_ordered ha hb, takesFirst_zeros hlow hza hzb hne]

/-- The choice is one of the operands or the canonical NaN, so it fits the format. -/
theorem minmaxBits_lt {f : Fmt} {k : Nat} (hf : f.nan < 2 ^ k) {up : Bool} {a b : Nat} (ha : a < 2 ^ k) (hb : b < 2 ^ k) :
    minmaxBits f up a b < 2 ^ k := by
  by_cases hna : f.value a = .nan <;> by_cases hnb : f.value b = .nan
  · rwa [minmaxBits_nan_nan hna hnb]
  · rwa [minmaxBits_nan_left hna hnb]
  · rwa [minmaxBits_nan_right hna hnb]
  · rw [minmaxBits_ordered hna hnb]
    split
    · exact hb
    · exact ha

theorem fminmax_lands {x : VA} {ty : FTy} {lo up : Bool} (ha : s.Acts x.h) (hlo : loOk ty lo = true) :
    ∃ r : Lanes, (∃ t, s.fminmax i x ty lo up = .next t ∧ Lands s i.bytes 6 [.v (s.phys x.d) (s.active x.h) r] t)
      ∧ ∀ l < 32, (∀ e < fCount ty lo,
          Chosen (fTy ty) up (fElem ty (lane (s.v x.a) l) e) (fElem ty (lane (s.b x.b) l) e) (fElem ty (lane r l) e))
        ∧ (lo = true → (lane r l).toNat < 2 ^ 16) := by
  have hnan : (fTy ty).nan < 2 ^ fWidth ty := fTy_bits ty ▸ (fTy_bounded ty).nan_lt
  refine ⟨_, alu_lands ha rfl rfl, fun l hl => ?_⟩
  rw [lane_lanesOf _ _ hl]
  have hlt (e : Nat) := minmaxBits_lt (up := up) hnan (fElem_lt ty (lane (s.v x.a) l) e) (fElem_lt ty (lane (s.b x.b) l) e)
  refine ⟨fun e he => ?_, fun h => ?_⟩
  · have hc := minmaxBits_chosen (fTy_plain ty).1 up (fElem ty (lane (s.v x.a) l) e) (fElem ty (lane (s.b x.b) l) e)
    rw [← fElem_fPack ty hlo hlt he] at hc
    exact hc
  · subst h
    exact fPack_lo ty hlo hlt

/-! ### Comparison (R172) -/

theorem fcompare_lands {cc : FCC} {p : PReg} {v : VReg} {b : OpB} {ty : FTy} {lo : Bool} (ha : s.Acts h) :
    ∃ r : Mask, (∃ t, s.fcompare i h cc p v b ty lo = .next t ∧ Lands s i.bytes 4 [.p p.val (s.active h) r] t)
      ∧ ∀ l < 32, r.has l = (List.range (fCount ty lo)).all fun e =>
          fccHolds cc (((fTy ty).value (fElem ty (lane (s.v v) l) e)).cmp ((fTy ty).value (fElem ty (lane (s.b b) l) e))) :=
  ⟨_, alu_lands ha rfl rfl, fun l hl => has_where _ l hl⟩

theorem floatMinMaxAndCompare : Claims.FloatMinMaxAndCompare := by
  intro s x ty lo cc p ha hlo ea eb nan below gives test compares
  have hgives {i : Instr} {t : FTy} {lw up : Bool} (hexec : exec i s = s.fminmax i x t lw up) (hlw : loOk t lw = true) :
      gives i t lw up := by
    obtain ⟨r, ⟨u, hnext, hl⟩, helems⟩ := fminmax_lands (i := i) (up := up) ha hlw
    refine ⟨r, ⟨u, hexec.trans hnext, hl⟩, fun l hl e he => ?_⟩
    obtain ⟨hchosen, hzero⟩ := helems l hl
    have c := hchosen e he
    exact ⟨c.bothNan, c.firstNan, c.secondNan,
      fun ha hb => ⟨c.one ha hb, c.below ha hb, c.above ha hb, c.zeros ha hb⟩, hzero⟩
  have htest (t : FTy) (l e : Nat) : test t l e = fccHolds cc (((fTy t).value (ea t l e)).cmp ((fTy t).value (eb t l e))) := by
    dsimp only [test]
    cases ((fTy t).value (ea t l e)).cmp ((fTy t).value (eb t l e)) <;> cases cc <;> rfl
  have hcompares {i : Instr} {t : FTy} {lw : Bool} (hexec : exec i s = s.fcompare i x.h cc p x.a x.b t lw) : compares i t lw := by
    obtain ⟨r, ⟨u, hnext, hl⟩, hlanes⟩ := fcompare_lands (i := i) (cc := cc) (p := p) (v := x.a) (b := x.b) (ty := t) (lo := lw) ha
    refine ⟨r, ⟨u, hexec.trans hnext, hl⟩, fun l hl => (hlanes l hl).trans ?_⟩
    exact congrArg (List.all _) (funext fun e => (htest t l e).symm)
  exact ⟨hgives rfl (loOk_false .f32), hgives rfl hlo, hgives rfl (loOk_false .f32), hgives rfl hlo, hcompares rfl, hcompares rfl⟩

/-- Settles O14: every element goes through `Fmt.round` once; a format's encodings stand in the order of their values, so rounding
finds each again; the minimum, the maximum and the conditions follow the order of values. -/
theorem floatArithmeticAndOrder : Obligations.FloatArithmeticAndOrder :=
  ⟨floatArithmeticRoundsOnce, roundingKeepsRepresentable, floatMinMaxAndCompare⟩

end Sys2Proof.Machine
end

section
/-! PROOF. Square roots and exact results of the special functions, rounded (R87, R91, R173). -/
namespace Sys2Proof.Machine

/-! ### The integer square root -/

theorem isqrtBits_bounds (n k r : Nat) (hlo : r * r ≤ n) (hhi : n < (r + 2 ^ k) * (r + 2 ^ k)) :
    isqrtBits n k r * isqrtBits n k r ≤ n ∧ n < (isqrtBits n k r + 1) * (isqrtBits n k r + 1) := by
  induction k generalizing r with
  | zero => exact ⟨hlo, hhi⟩
  | succ k ih =>
    rw [isqrtBits]
    split
    · next h => exact ih _ h (by rw [pow_succ] at hhi; convert hhi using 2 <;> ring)
    · next h => exact ih _ hlo (not_le.1 h)

theorem isqrt_eq_sqrt (n : Nat) : isqrt n = Nat.sqrt n := by
  have hhi : n < (0 + 2 ^ (Nat.log2 n / 2 + 1)) * (0 + 2 ^ (Nat.log2 n / 2 + 1)) := by
    rw [zero_add, ← pow_add]
    exact Nat.lt_log2_self.trans_le (Nat.pow_le_pow_right two_pos (by omega))
  exact Nat.eq_sqrt.2 (isqrtBits_bounds n _ 0 (Nat.zero_le _) hhi)

/-! ### Roots between two neighbours of the grid -/

/-- The place of the root of `y` between the neighbours `b.m` and `b.m + 1` of the grid of integers (R88, R91). -/
structure RootPlace (y : ℚ) (b : Between) : Prop where
  le : ∀ k : ℕ, k ≤ b.m ↔ (k : ℚ) ^ 2 ≤ y
  exact : b.exact = true ↔ y = (b.m : ℚ) ^ 2
  above : b.half = .gt ↔ (2 * (b.m : ℚ) + 1) ^ 2 < 4 * y
  middle : b.half = .eq → 4 * y = (2 * (b.m : ℚ) + 1) ^ 2
  draw : ∀ u : ℕ, u < b.f32 ↔ ((b.m : ℚ) + (u + 1) / 2 ^ 32) ^ 2 ≤ y

/-- The root of `n / d` on the grid of integers, as `sqrtOnGrid` computes it. -/
def rootBetween (n d : Nat) : Between :=
  let m := isqrt (n / d)
  ⟨m, compare (4 * n) ((2 * m + 1) * (2 * m + 1) * d), m * m * d == n, isqrt (n * 2 ^ 64 / d) - m * 2 ^ 32⟩

theorem sqrtOnGrid_eq (num den : Nat) (q : ℤ) : sqrtOnGrid num den q
    = if 0 ≤ q then rootBetween num (den * 2 ^ (2 * q).toNat) else rootBetween (num * 2 ^ (-2 * q).toNat) den := by
  unfold sqrtOnGrid
  split <;> rfl

theorem sq_le_div_iff {n d : ℕ} (hd : 0 < d) (k : ℕ) : k * k ≤ n / d ↔ (k : ℚ) ^ 2 ≤ (n : ℚ) / d := by
  rw [Nat.le_div_iff_mul_le hd, le_div_iff₀ (by exact_mod_cast hd), pow_two]
  exact_mod_cast Iff.rfl

theorem rootBetween_place {n d : Nat} (hd : 0 < d) : RootPlace ((n : ℚ) / d) (rootBetween n d) := by
  have hd' : (0 : ℚ) < d := by exact_mod_cast hd
  have hm (k : ℕ) : k ≤ isqrt (n / d) ↔ (k : ℚ) ^ 2 ≤ (n : ℚ) / d := by
    rw [isqrt_eq_sqrt, Nat.le_sqrt, sq_le_div_iff hd]
  refine ⟨hm, ?_, ?_, ?_, fun u => ?_⟩
  · show (isqrt (n / d) * isqrt (n / d) * d == n) = true ↔ _ = (isqrt (n / d) : ℚ) ^ 2
    rw [beq_iff_eq, div_eq_iff hd'.ne', pow_two, eq_comm]
    exact_mod_cast Iff.rfl
  · show compare (4 * n) ((2 * isqrt (n / d) + 1) * (2 * isqrt (n / d) + 1) * d) = .gt ↔ (2 * (isqrt (n / d) : ℚ) + 1) ^ 2 < _
    rw [compare_gt_iff_gt, ← mul_div_assoc, lt_div_iff₀ hd', pow_two]
    exact_mod_cast Iff.rfl
  · show compare (4 * n) ((2 * isqrt (n / d) + 1) * (2 * isqrt (n / d) + 1) * d) = .eq → _ = (2 * (isqrt (n / d) : ℚ) + 1) ^ 2
    rw [compare_eq_iff_eq, ← mul_div_assoc, div_eq_iff hd'.ne', pow_two]
    intro h
    exact_mod_cast h
  · show u < isqrt (n * 2 ^ 64 / d) - isqrt (n / d) * 2 ^ 32 ↔ ((isqrt (n / d) : ℚ) + (u + 1) / 2 ^ 32) ^ 2 ≤ _
    have hscale : ((n * 2 ^ 64 : ℕ) : ℚ) / d = (n : ℚ) / d * 2 ^ 64 := by push_cast; ring
    have hsum : ((u + 1 + isqrt (n / d) * 2 ^ 32 : ℕ) : ℚ) ^ 2 = ((isqrt (n / d) : ℚ) + (u + 1) / 2 ^ 32) ^ 2 * 2 ^ 64 := by
      push_cast; ring
    rw [Nat.lt_sub_iff_add_lt, ← Nat.succ_le_iff, Nat.succ_eq_add_one, Nat.add_right_comm, isqrt_eq_sqrt (n * 2 ^ 64 / d),
      Nat.le_sqrt, sq_le_div_iff hd, hscale, hsum]
    exact mul_le_mul_iff_of_pos_right (by norm_num)

theorem sqrtOnGrid_place {num den : Nat} (hd : 0 < den) (q : ℤ) :
    RootPlace ((num : ℚ) / den / 2 ^ (2 * q)) (sqrtOnGrid num den q) := by
  rw [sqrtOnGrid_eq]
  split
  · next h =>
    have := rootBetween_place (n := num) (d := den * 2 ^ (2 * q).toNat) (by positivity)
    rwa [Nat.cast_mul, ← two_zpow_natCast (by omega), ← div_div] at this
  · next h =>
    rw [neg_mul]
    have := rootBetween_place (n := num * 2 ^ (-(2 * q)).toNat) hd
    rwa [Nat.cast_mul, ← two_zpow_natCast (by omega), zpow_neg, mul_div_right_comm, ← div_eq_mul_inv] at this

/-! ### The neighbour that a mode chooses -/

/-- `w` is the number, of those with the increasing values `v`, that a mode chooses for the root of `y` (R87, R91). -/
def Rooted (v : ℕ → ℚ) (m : Rnd) (u : Nat) (y : ℚ) (w : Nat) : Prop := match m with
  | .rne => (v (w - 1) + v w) ^ 2 ≤ 4 * y ∧ 4 * y ≤ (v w + v (w + 1)) ^ 2
  | .rtz | .rdn => v w ^ 2 ≤ y ∧ y < v (w + 1) ^ 2
  | .rup => v (w - 1) ^ 2 < y ∧ y ≤ v w ^ 2
  | .rs => ∃ l, v l ^ 2 ≤ y ∧ y < v (l + 1) ^ 2 ∧ w = if (v l + (v (l + 1) - v l) * (u + 1) / 2 ^ 32) ^ 2 ≤ y then l + 1 else l

/-- Neighbours `l` and `l + 1` of the root of `y`, and where the root lies between them. -/
structure Neighbours (v : ℕ → ℚ) (y : ℚ) (l : Nat) (b : Between) : Prop where
  pos : 1 ≤ l
  nonneg : 0 ≤ v (l - 1)
  mono : v (l - 1) < v l ∧ v l < v (l + 1) ∧ v (l + 1) < v (l + 2)
  lo : v l ^ 2 ≤ y
  hi : y < v (l + 1) ^ 2
  exact : b.exact = true ↔ y = v l ^ 2
  above : b.half = .gt ↔ (v l + v (l + 1)) ^ 2 < 4 * y
  middle : b.half = .eq → 4 * y = (v l + v (l + 1)) ^ 2
  draw : ∀ u : ℕ, u < b.f32 ↔ (v l + (v (l + 1) - v l) * (u + 1) / 2 ^ 32) ^ 2 ≤ y

theorem Neighbours.choose_rooted {v : ℕ → ℚ} {y : ℚ} {l : Nat} {b : Between} (n : Neighbours v y l b) (mode : Rnd) (u : Nat) :
    (choose mode false u b = b.m ∧ Rooted v mode u y l) ∨ (choose mode false u b = b.m + 1 ∧ Rooted v mode u y (l + 1)) := by
  obtain ⟨hpos, hnn, ⟨hm0, hm1, hm2⟩, hlo, hhi, hex, hgt, heq, hdraw⟩ := n
  have hl : 0 ≤ v l := by linarith
  have hbelow : (v (l - 1) + v l) ^ 2 ≤ 4 * y := by nlinarith
  have habove : 4 * y ≤ (v (l + 1) + v (l + 2)) ^ 2 := by nlinarith
  have hstrict : v (l - 1) ^ 2 < v l ^ 2 := by nlinarith
  have hroot (hx : y = v l ^ 2) : ¬ (v l + (v (l + 1) - v l) * (u + 1) / 2 ^ 32) ^ 2 ≤ y := by
    have : 0 < (v (l + 1) - v l) * ((u : ℚ) + 1) / 2 ^ 32 := by
      have : 0 < v (l + 1) - v l := by linarith
      positivity
    rw [hx, not_le]
    nlinarith
  have heven (h : ¬ b.half = .gt) : 4 * y ≤ (v l + v (l + 1)) ^ 2 := not_lt.1 fun c => h (hgt.2 c)
  cases hb : b.exact with
  | true =>
    have hx := hex.1 hb
    refine .inl ⟨choose_exact hb, ?_⟩
    cases mode with
    | rne => exact ⟨hbelow, by nlinarith⟩
    | rtz => exact ⟨hlo, hhi⟩
    | rdn => exact ⟨hlo, hhi⟩
    | rup => exact ⟨hx ▸ hstrict, hx.le⟩
    | rs => exact ⟨l, hlo, hhi, (if_neg (hroot hx)).symm⟩
  | false =>
    have hx : y ≠ v l ^ 2 := fun c => Bool.false_ne_true (hb.symm.trans (hex.2 c))
    unfold choose
    rw [hb, if_neg Bool.false_ne_true]
    cases mode with
    | rne =>
      dsimp only
      split
      · next h =>
        refine .inr ⟨rfl, ?_, habove⟩
        rcases h with h | ⟨h, -⟩
        · exact (hgt.1 h).le
        · exact (heq h).ge
      · next h => exact .inl ⟨rfl, hbelow, heven fun c => h (.inl c)⟩
    | rtz => exact .inl ⟨rfl, hlo, hhi⟩
    | rdn => exact .inl ⟨rfl, hlo, hhi⟩
    | rup => exact .inr ⟨rfl, lt_of_le_of_ne hlo hx.symm, hhi.le⟩
    | rs =>
      dsimp only
      split
      · next h => exact .inr ⟨rfl, l, hlo, hhi, (if_pos ((hdraw u).1 h)).symm⟩
      · next h => exact .inl ⟨rfl, l, hlo, hhi, (if_neg fun c => h ((hdraw u).2 c)).symm⟩

/-! ### FP32 -/

/-- The finite magnitudes of FP32 are those below infinity's. -/
theorem fmtF32_infMag : fmtF32.infMag = 0x7F800000 := by decide
theorem fmtF32_maxMag : fmtF32.maxMag = 0x7F7FFFFF := by decide

theorem fmtF32_join (neg : Bool) (g : Nat) : fmtF32.join neg g = (if neg then 2 ^ 31 else 0) + g := Nat.mul_one _

theorem fmtF32_value {x : Nat} (hx : x % 2 ^ 31 < 0x7F800000) : fmtF32.value x
    = .fin (x.testBit 31) (fmtF32.sig (x % 2 ^ 31) * 2 ^ fmtF32.up (x % 2 ^ 31)) (2 ^ 150) :=
  Fmt.value_finite rfl rfl (x := x) (by rw [fmtF32_infMag]; exact hx)

/-- The magnitude of a finite encoding is that of its low 31 bits. -/
theorem fmtF32_value_mag {x : Nat} (hx : x % 2 ^ 31 < 0x7F800000) : (fmtF32.value x).mag = fmtF32.magVal (x % 2 ^ 31) := by
  rw [fmtF32_value hx]
  exact fmtF32.div_eq_magVal (x % 2 ^ 31)

theorem fmtF32_mag_of_lt {g : Nat} (hg : g < 0x7F800000) : (fmtF32.value g).mag = fmtF32.magVal g := by
  have hmod : g % 2 ^ 31 = g := Nat.mod_eq_of_lt (by omega)
  rw [fmtF32_value_mag (by omega), hmod]

/-- A nonzero finite FP32 value lies from 2^-149 on and below 2^128 (R80). -/
theorem fmtF32_magVal_bounds {g : Nat} (hpos : 0 < g) (hlt : g < 0x7F800000) :
    (2 : ℚ) ^ (-149 : ℤ) ≤ fmtF32.magVal g ∧ fmtF32.magVal g < 2 ^ (128 : ℤ) := by
  obtain ⟨hbound, hunit, hnormal⟩ := fmtF32.fits_sig g
  have hmag := fmtF32.mag_sig g
  have hsig : 1 ≤ fmtF32.sig g := by
    unfold Fmt.sig
    split
    · next h =>
      have := Nat.div_add_mod' g (2 ^ fmtF32.man)
      rw [h] at this
      omega
    · have := Nat.two_pow_pos fmtF32.man
      omega
  have hup : fmtF32.unit g ≤ 104 := by
    rw [Fmt.mag, show fmtF32.man = 23 from rfl, show fmtF32.bias = 127 from rfl] at hmag
    have hsig24 : fmtF32.sig g < 2 ^ 24 := hbound
    have hfull : 2 ^ 23 ≤ fmtF32.sig g ∨ fmtF32.unit g = -149 := hnormal
    omega
  have hsig' : (1 : ℚ) ≤ fmtF32.sig g := by exact_mod_cast hsig
  have hbound' : (fmtF32.sig g : ℚ) < 2 ^ 24 := by exact_mod_cast hbound
  rw [Fmt.magVal]
  constructor
  · calc (2 : ℚ) ^ (-149 : ℤ) ≤ 2 ^ fmtF32.unit g := zpow_le_zpow_right₀ one_le_two hunit
      _ ≤ fmtF32.sig g * 2 ^ fmtF32.unit g := le_mul_of_one_le_left (two_zpow_pos _).le hsig'
  · calc (fmtF32.sig g : ℚ) * 2 ^ fmtF32.unit g < 2 ^ 24 * 2 ^ fmtF32.unit g := mul_lt_mul_of_pos_right hbound' (two_zpow_pos _)
      _ ≤ 2 ^ 24 * 2 ^ (104 : ℤ) := mul_le_mul_of_nonneg_left (zpow_le_zpow_right₀ one_le_two hup) (by positivity)
      _ = 2 ^ (128 : ℤ) := by norm_num

/-- The neighbours of a root on an FP32 grid. -/
theorem RootPlace.neighbours {y : ℚ} {b : Between} {q : ℤ} (p : RootPlace (y / 2 ^ (2 * q)) b) (hm : 2 ^ 23 ≤ b.m) (hm' : b.m < 2 ^ 24)
    (hq : -149 ≤ q) {v : ℕ → ℚ} (hv : ∀ g ≤ fmtF32.mag b.m q + 2, v g = fmtF32.magVal g) :
    Neighbours v y (fmtF32.mag b.m q) b := by
  obtain ⟨hle, hex, hgt, heq, hdraw⟩ := p
  have hpos : 1 ≤ fmtF32.mag b.m q := by unfold Fmt.mag; omega
  have hz : (2 : ℚ) ^ (2 * q) = (2 ^ q) ^ 2 := by rw [mul_comm, zpow_mul, zpow_ofNat]
  have hs : (0 : ℚ) < (2 ^ q) ^ 2 := pow_pos (two_zpow_pos q) 2
  have hl : v (fmtF32.mag b.m q) = b.m * 2 ^ q := by
    rw [hv _ (by omega)]
    exact fmtF32.magVal_mag hm'.le hq (.inl hm)
  have hfull : b.m + 1 ≤ 2 ^ 24 := hm'
  have hnormal : 2 ^ 23 ≤ b.m + 1 := by omega
  have hl1 : v (fmtF32.mag b.m q + 1) = (b.m + 1) * 2 ^ q := by
    rw [hv _ (by omega)]
    have hnext : fmtF32.magVal (fmtF32.mag (b.m + 1) q) = (b.m + 1 : ℕ) * 2 ^ q := fmtF32.magVal_mag hfull hq (.inl hnormal)
    rw [← Fmt.mag_succ, hnext, Nat.cast_succ]
  have step (k : ℕ) (hk : k ≤ fmtF32.mag b.m q + 1) : v k < v (k + 1) := by
    rw [hv k (by omega), hv (k + 1) (by omega)]
    exact fmtF32.magVal_lt_succ k
  have scaled (x : ℚ) : x ^ 2 ≤ y / 2 ^ (2 * q) ↔ (x * 2 ^ q) ^ 2 ≤ y := by rw [hz, le_div_iff₀ hs, mul_pow]
  have hlo := (hle b.m).1 le_rfl
  have hhi := not_le.1 ((hle (b.m + 1)).not.1 (by omega))
  refine ⟨hpos, ?_, ⟨?_, step _ (by omega), step _ le_rfl⟩, ?_, ?_, ?_, ?_, ?_, ?_⟩
  · rw [hv _ (by omega)]
    exact fmtF32.magVal_nonneg _
  · simpa [Nat.sub_add_cancel hpos] using step (fmtF32.mag b.m q - 1) (by omega)
  · rwa [hl, ← scaled]
  · rw [hl1, ← not_le, ← scaled, not_le]
    exact_mod_cast hhi
  · rw [hex, hl, mul_pow, hz, div_eq_iff hs.ne']
  · rw [hgt, hl, hl1, hz, ← mul_div_assoc, lt_div_iff₀ hs, ← mul_pow]
    ring_nf
  · intro h
    have := heq h
    rw [hz, ← mul_div_assoc, div_eq_iff hs.ne', ← mul_pow] at this
    rw [this, hl, hl1]
    ring
  · intro u
    rw [hdraw u, scaled, hl, hl1]
    ring_nf

/-- The value of a nonzero finite magnitude has a nonzero numerator. -/
theorem fmtF32_num_ne_zero {g : Nat} (hpos : 0 < g) (hlt : g < 0x7F800000) : fmtF32.sig g * 2 ^ fmtF32.up g ≠ 0 := by
  intro h
  have hval := fmtF32.div_eq_magVal g
  rw [h, Nat.cast_zero, zero_div] at hval
  exact absurd (hval ▸ (fmtF32_magVal_bounds hpos hlt).1) (not_le.2 (two_zpow_pos _))

/-- A nonzero finite encoding without its sign bit, its fraction, and the fraction's logarithm (R80). -/
theorem fmtF32_fraction {g : Nat} (hpos : 0 < g) (hlt : g < 0x7F800000) : ∃ num, num ≠ 0
    ∧ fmtF32.value g = .fin false num (2 ^ 150) ∧ (num : ℚ) / (2 ^ 150 : ℕ) = fmtF32.magVal g
    ∧ -150 < fracLog num (2 ^ 150) ∧ fracLog num (2 ^ 150) < 128 := by
  have hmod : g % 2 ^ 31 = g := Nat.mod_eq_of_lt (by omega)
  obtain ⟨hmin, hmax⟩ := fmtF32_magVal_bounds hpos hlt
  have hval : ((fmtF32.sig g * 2 ^ fmtF32.up g : ℕ) : ℚ) / (2 ^ 150 : ℕ) = fmtF32.magVal g := fmtF32.div_eq_magVal g
  have hvalue : fmtF32.value g = .fin false (fmtF32.sig g * 2 ^ fmtF32.up g) (2 ^ 150) := by
    rw [fmtF32_value (by omega), hmod, Nat.testBit_lt_two_pow (by omega)]
  have hnum := fmtF32_num_ne_zero hpos hlt
  generalize fmtF32.sig g * 2 ^ fmtF32.up g = num at hval hvalue hnum
  obtain ⟨hloglo, hloghi⟩ := fracLog_bounds (Nat.pos_of_ne_zero hnum) (Nat.two_pow_pos 150)
  rw [hval] at hloglo hloghi
  have hlogmin := (zpow_lt_zpow_iff_right₀ (one_lt_two (α := ℚ))).1 (hmin.trans_lt hloghi)
  have hlogmax := (zpow_lt_zpow_iff_right₀ (one_lt_two (α := ℚ))).1 (hloglo.trans_lt hmax)
  exact ⟨num, hnum, hvalue, hval, by omega, hlogmax⟩

/-- The root of a value above the subnormal ones has its 24 bits on the grid of its own logarithm (R88). -/
theorem RootPlace.significand {y : ℚ} {b : Between} {log : ℤ} (p : RootPlace (y / 2 ^ (2 * (log / 2 - 23))) b) (hlo : 2 ^ log ≤ y)
    (hhi : y < 2 ^ (log + 1)) : 2 ^ 23 ≤ b.m ∧ b.m < 2 ^ 24 := by
  have hz : (0 : ℚ) < 2 ^ (2 * (log / 2 - 23)) := two_zpow_pos _
  constructor
  · rw [p.le, le_div_iff₀ hz]
    calc ((2 ^ 23 : ℕ) : ℚ) ^ 2 * 2 ^ (2 * (log / 2 - 23)) = 2 ^ (46 + 2 * (log / 2 - 23)) := by
          rw [zpow_add₀ two_ne_zero]; norm_num
      _ ≤ 2 ^ log := zpow_le_zpow_right₀ one_le_two (by omega)
      _ ≤ y := hlo
  · rw [← not_le, p.le, not_le, div_lt_iff₀ hz]
    calc y < 2 ^ (log + 1) := hhi
      _ ≤ 2 ^ (48 + 2 * (log / 2 - 23)) := zpow_le_zpow_right₀ one_le_two (by omega)
      _ = ((2 ^ 24 : ℕ) : ℚ) ^ 2 * 2 ^ (2 * (log / 2 - 23)) := by rw [zpow_add₀ two_ne_zero]; norm_num

theorem fmtF32_grid {log : ℤ} (h : -126 ≤ log) : fmtF32.grid log = log - 23 := by
  unfold Fmt.grid
  rw [show fmtF32.man = 23 from rfl, show fmtF32.bias = 127 from rfl]
  dsimp only
  split <;> omega

theorem fmtF32_mag (m : Nat) (q : ℤ) : fmtF32.mag m q = (q + 149).toNat * 2 ^ 23 + m := by
  rw [Fmt.mag, show fmtF32.man = 23 from rfl, show fmtF32.bias = 127 from rfl]
  congr 3
  omega

theorem fmtF32_finish {m : Nat} {q : ℤ} (h : fmtF32.mag m q < 0x7F800000) (mode : Rnd) (ofn : Bool) :
    fmtF32.finish mode ofn false m q = fmtF32.mag m q := by
  rw [Fmt.finish, if_neg (by rw [fmtF32_maxMag]; omega), fmtF32_join]
  exact Nat.zero_add _

/-- `fsqrt` of a positive finite value: the root rounded under the mode (R173). -/
theorem sqrtBits_rooted (mode : Rnd) (u : Nat) {g : Nat} (hpos : 0 < g) (hlt : g < 0x7F800000) {v : ℕ → ℚ}
    (hv : ∀ k < 0x7F800000, v k = fmtF32.magVal k) : sqrtBits mode u (fmtF32.value g) < 0x7F800000
      ∧ Rooted v mode u (fmtF32.magVal g) (sqrtBits mode u (fmtF32.value g)) := by
  obtain ⟨num, hnum, hvalue, hval, hlogmin, hlogmax⟩ := fmtF32_fraction hpos hlt
  obtain ⟨hlo, hhi⟩ := fracLog_bounds (Nat.pos_of_ne_zero hnum) (Nat.two_pow_pos 150)
  generalize hlog : fracLog num (2 ^ 150) = log at hlogmin hlogmax hlo hhi
  have place := sqrtOnGrid_place (num := num) (Nat.two_pow_pos 150) (log / 2 - 23)
  rw [hval] at hlo hhi place
  have hsqrt : sqrtBits mode u (fmtF32.value g)
      = fmtF32.finish mode true false (choose mode false u (sqrtOnGrid num (2 ^ 150) (log / 2 - 23))) (log / 2 - 23) := by
    rw [hvalue, sqrtBits, if_neg hnum, if_neg Bool.false_ne_true, hlog, fmtF32_grid (by omega)]
  generalize sqrtOnGrid num (2 ^ 150) (log / 2 - 23) = b at place hsqrt
  obtain ⟨hm, hm'⟩ := place.significand hlo hhi
  have hl : fmtF32.mag b.m (log / 2 - 23) + 2 < 0x7F800000 := by
    rw [fmtF32_mag]
    omega
  have n := place.neighbours hm hm' (by omega) (v := v) fun k hk => hv k (by omega)
  rw [hsqrt]
  rcases n.choose_rooted mode u with ⟨hc, hr⟩ | ⟨hc, hr⟩
  · rw [hc, fmtF32_finish (by omega)]
    exact ⟨by omega, hr⟩
  · have hnext := fmtF32.mag_succ b.m (log / 2 - 23)
    rw [hc, fmtF32_finish (by omega), hnext]
    exact ⟨by omega, hr⟩

/-! ### Exact results -/

/-- A small significand at any unit of a format has a normal form. -/
theorem Fmt.exists_fits (f : Fmt) {n : Nat} {q : ℤ} (hn : n ≠ 0) (hlt : n < 2 ^ (f.man + 1)) (hq : 1 - (f.bias : ℤ) - f.man ≤ q) :
    ∃ m q', f.Fits m q' ∧ m ≠ 0 ∧ (m : ℚ) * 2 ^ q' = n * 2 ^ q := by
  have hlog : Nat.log2 n ≤ f.man := Nat.lt_succ_iff.1 ((Nat.log2_lt hn).2 hlt)
  obtain ⟨k, hk, hkq, hfull⟩ : ∃ k : ℕ, k + Nat.log2 n ≤ f.man ∧ 1 - (f.bias : ℤ) - f.man ≤ q - k
      ∧ (k + Nat.log2 n = f.man ∨ q - k = 1 - (f.bias : ℤ) - f.man) :=
    ⟨min (f.man - Nat.log2 n) (q - (1 - (f.bias : ℤ) - f.man)).toNat, by omega, by omega, by omega⟩
  refine ⟨n * 2 ^ k, q - k, ⟨?_, hkq, hfull.imp_left fun h => ?_⟩, by positivity, ?_⟩
  · calc n * 2 ^ k < 2 ^ (Nat.log2 n + 1) * 2 ^ k := Nat.mul_lt_mul_of_pos_right Nat.lt_log2_self (Nat.two_pow_pos _)
      _ = 2 ^ (Nat.log2 n + 1 + k) := (pow_add _ _ _).symm
      _ ≤ 2 ^ (f.man + 1) := Nat.pow_le_pow_right two_pos (by omega)
  · calc 2 ^ f.man = 2 ^ Nat.log2 n * 2 ^ k := by rw [← pow_add, add_comm, h]
      _ ≤ n * 2 ^ k := Nat.mul_le_mul_right _ (Nat.log2_self_le hn)
  · rw [zpow_sub₀ two_ne_zero, zpow_natCast]
    push_cast
    field_simp

/-- A value of at most 24 significant bits within the range of FP32 is rounded to an encoding of that value. -/
theorem fmtF32_round_exact (mode : Rnd) (ofn : Bool) (u : Nat) (neg : Bool) {num den n : Nat} {q : ℤ} (hd : 0 < den) (hn : n ≠ 0)
    (hlt : n < 2 ^ 24) (hq : -149 ≤ q) (hval : (num : ℚ) / den = n * 2 ^ q) (hmax : (num : ℚ) / den < 2 ^ (128 : ℤ)) :
    ∃ g < 0x7F800000, fmtF32.round mode ofn u (.fin neg num den) = fmtF32.join neg g ∧ fmtF32.magVal g = num / den := by
  obtain ⟨m, q', hfits, hm, he⟩ := fmtF32.exists_fits hn hlt hq
  rw [← he] at hval
  have hb : m < 2 ^ 24 := hfits.bound
  have hu : -149 ≤ q' := hfits.unit
  have htop : q' ≤ 104 := by
    rcases hfits.normal with h | h
    · have h' : (2 : ℚ) ^ 23 ≤ m := by exact_mod_cast h
      have hpow : (2 : ℚ) ^ (23 + q') < 2 ^ (128 : ℤ) := by
        calc (2 : ℚ) ^ (23 + q') = 2 ^ 23 * 2 ^ q' := by rw [zpow_add₀ two_ne_zero]; norm_num
          _ ≤ m * 2 ^ q' := mul_le_mul_of_nonneg_right h' (two_zpow_pos q').le
          _ < 2 ^ (128 : ℤ) := hval ▸ hmax
      have := (zpow_lt_zpow_iff_right₀ (one_lt_two (α := ℚ))).1 hpow
      omega
    · have : q' = -149 := h
      omega
  have hg : fmtF32.mag m q' < 0x7F800000 := by
    rw [fmtF32_mag]
    omega
  exact ⟨fmtF32.mag m q', hg, Fmt.round_exact mode ofn u neg hd hm hval hfits (by rw [fmtF32_maxMag]; omega),
    hfits.magVal.trans hval.symm⟩

end Sys2Proof.Machine
end

section
/-! PROOF. The special functions at the inputs where the manual states their value, and the lane generators (R87, R91, R173, R174,
R182). -/
namespace Sys2Proof.Machine

/-! ### The classes of FP32 inputs (R174) -/

theorem fmtF32_posZero : fmtF32.value (0x00000000#32).toNat = .fin false 0 (2 ^ 150) := by decide
theorem fmtF32_negZero : fmtF32.value (0x80000000#32).toNat = .fin true 0 (2 ^ 150) := by decide
theorem fmtF32_posInf : fmtF32.value (0x7F800000#32).toNat = .inf false := by decide
theorem fmtF32_negInf : fmtF32.value (0xFF800000#32).toNat = .inf true := by decide

theorem fmtF32_negative {a : Word} (hlo : 0x80000000#32 < a) (hhi : a < 0xFF800000#32) :
    ∃ n d, n ≠ 0 ∧ fmtF32.value a.toNat = .fin true n d := by
  have hlo' : 0x80000000 < a.toNat := BitVec.lt_def.1 hlo
  have hhi' : a.toNat < 0xFF800000 := BitVec.lt_def.1 hhi
  have hmod : a.toNat % 2 ^ 31 = a.toNat - 2 ^ 31 := by omega
  have hbit : a.toNat.testBit 31 = true := by
    rw [Nat.testBit_eq_decide_div_mod_eq, decide_eq_true_iff]
    omega
  refine ⟨_, 2 ^ 150, fmtF32_num_ne_zero (g := a.toNat - 2 ^ 31) (by omega) (by omega), ?_⟩
  rw [fmtF32_value (by omega), hbit, hmod]

theorem fmtF32_positive {a : Word} (hlo : 0#32 < a) (hhi : a < 0x7F800000#32) : 0 < a.toNat ∧ a.toNat < 0x7F800000 :=
  ⟨BitVec.lt_def.1 hlo, BitVec.lt_def.1 hhi⟩

/-- A row of R174: what a function gives for +0, −0, +∞, −∞, a finite input below 0, and NaN. -/
def SpecialRow (p0 n0 pi ni neg : Option Word) (a w : Word) : Prop :=
  (a = 0x00000000#32 → ∀ y, p0 = some y → w = y) ∧ (a = 0x80000000#32 → ∀ y, n0 = some y → w = y)
    ∧ (a = 0x7F800000#32 → ∀ y, pi = some y → w = y) ∧ (a = 0xFF800000#32 → ∀ y, ni = some y → w = y)
    ∧ (0x80000000#32 < a → a < 0xFF800000#32 → ∀ y, neg = some y → w = y)
    ∧ (fmtF32.value a.toNat = .nan → w = 0x7FC00000#32)

/-- A row is a statement about the values of the inputs. -/
theorem SpecialRow.of_value {p0 n0 pi ni neg : Option Word} {a w : Word}
    (hp0 : fmtF32.value a.toNat = .fin false 0 (2 ^ 150) → ∀ y, p0 = some y → w = y)
    (hn0 : fmtF32.value a.toNat = .fin true 0 (2 ^ 150) → ∀ y, n0 = some y → w = y)
    (hpi : fmtF32.value a.toNat = .inf false → ∀ y, pi = some y → w = y)
    (hni : fmtF32.value a.toNat = .inf true → ∀ y, ni = some y → w = y)
    (hneg : ∀ n d, n ≠ 0 → fmtF32.value a.toNat = .fin true n d → ∀ y, neg = some y → w = y)
    (hnan : fmtF32.value a.toNat = .nan → w = 0x7FC00000#32) : SpecialRow p0 n0 pi ni neg a w := by
  refine ⟨?_, ?_, ?_, ?_, ?_, hnan⟩
  · rintro rfl
    exact hp0 fmtF32_posZero
  · rintro rfl
    exact hn0 fmtF32_negZero
  · rintro rfl
    exact hpi fmtF32_posInf
  · rintro rfl
    exact hni fmtF32_negInf
  · intro hlo hhi
    obtain ⟨n, d, hn, hv⟩ := fmtF32_negative hlo hhi
    exact hneg n d hn hv

theorem fmtF32_bounded : fmtF32.Bounded := fTy_bounded .f32

theorem fmtF32_round_lt (mode : Rnd) (ofn : Bool) (u : Nat) (y : Ext) : fmtF32.round mode ofn u y < 2 ^ 32 :=
  fTy_round_lt .f32 mode ofn u y

/-! ### The reciprocal and the root -/

theorem recipBits_row (rnd : Rnd) (a : Word) (u : Nat) : SpecialRow (some 0x7F800000#32) (some 0xFF800000#32) (some 0#32)
    (some 0x80000000#32) none a (BitVec.ofNat 32 (recipBits rnd a u)) := by
  unfold recipBits
  refine .of_value ?_ ?_ ?_ ?_ ?_ ?_
  iterate 4 · rintro h _ ⟨⟩; rw [h]; rfl
  · rintro n d hn h _ ⟨⟩
  · intro h; rw [h]; rfl

/-- `frcp` of a nonzero finite value is `1 / a` rounded once (R173). -/
theorem recipBits_finite (rnd : Rnd) {a : Word} (u : Nat) {sg : Bool} {n d : Nat} (h : fmtF32.value a.toNat = .fin sg n d) (hn : n ≠ 0) :
    (BitVec.ofNat 32 (recipBits rnd a u)).toNat = fmtF32.round rnd true u (.fin sg d n) := by
  rw [BitVec.toNat_ofNat, recipBits, h, Ext.recip, if_neg hn, Nat.mod_eq_of_lt (fmtF32_round_lt _ _ _ _)]

theorem rootBits_row (rnd : Rnd) (a : Word) (u : Nat) : SpecialRow (some 0#32) (some 0x80000000#32) (some 0x7F800000#32)
    (some 0x7FC00000#32) (some 0x7FC00000#32) a (BitVec.ofNat 32 (rootBits rnd a u)) := by
  unfold rootBits
  refine .of_value ?_ ?_ ?_ ?_ ?_ ?_
  iterate 4 · rintro h _ ⟨⟩; rw [h]; rfl
  · rintro n d hn h _ ⟨⟩
    rw [h, sqrtBits, if_neg hn, if_pos rfl]
    rfl
  · intro h; rw [h]; rfl

theorem rootBits_positive (rnd : Rnd) {a : Word} (u : Nat) (hlo : 0#32 < a) (hhi : a < 0x7F800000#32) :
    BitVec.ofNat 32 (rootBits rnd a u) < 0x7F800000#32
      ∧ Rooted (fun g => (fmtF32.value g).mag) rnd u ((fmtF32.value a.toNat).mag) (BitVec.ofNat 32 (rootBits rnd a u)).toNat := by
  obtain ⟨hpos, hlt⟩ := fmtF32_positive hlo hhi
  obtain ⟨hw, hr⟩ := sqrtBits_rooted rnd u hpos hlt (v := fun g => (fmtF32.value g).mag) fun k hk => fmtF32_mag_of_lt hk
  have hnat : (BitVec.ofNat 32 (rootBits rnd a u)).toNat = rootBits rnd a u := Nat.mod_eq_of_lt (hw.trans (by norm_num))
  rw [hnat, fmtF32_mag_of_lt hlt, BitVec.lt_def, hnat]
  exact ⟨hw, hr⟩

/-! ### The fixed maps -/

theorem rsqBits_row (a : Word) : SpecialRow (some 0x7F800000#32) (some 0xFF800000#32) (some 0#32) (some 0x7FC00000#32)
    (some 0x7FC00000#32) a (BitVec.ofNat 32 (rsqBits a)) := by
  unfold rsqBits
  refine .of_value ?_ ?_ ?_ ?_ ?_ ?_
  iterate 4 · rintro h _ ⟨⟩; rw [h]; rfl
  · rintro n d hn h _ ⟨⟩
    rw [h]
    dsimp only
    rw [if_neg hn, if_pos rfl]
    rfl
  · intro h; rw [h]; rfl

theorem sinBits_row (a : Word) : SpecialRow (some 0#32) (some 0x80000000#32) (some 0x7FC00000#32) (some 0x7FC00000#32) none a
    (BitVec.ofNat 32 (sinBits a)) := by
  unfold sinBits
  refine .of_value ?_ ?_ ?_ ?_ ?_ ?_
  iterate 4 · rintro h _ ⟨⟩; rw [h]; rfl
  · rintro n d hn h _ ⟨⟩
  · intro h; rw [h]; rfl

theorem cosBits_row (a : Word) : SpecialRow (some 0x3F800000#32) (some 0x3F800000#32) (some 0x7FC00000#32) (some 0x7FC00000#32) none a
    (BitVec.ofNat 32 (cosBits a)) := by
  unfold cosBits
  refine .of_value ?_ ?_ ?_ ?_ ?_ ?_
  iterate 4 · rintro h _ ⟨⟩; rw [h]; rfl
  · rintro n d hn h _ ⟨⟩
  · intro h; rw [h]; rfl

theorem lg2Bits_row (a : Word) : SpecialRow (some 0xFF800000#32) (some 0xFF800000#32) (some 0x7F800000#32) (some 0x7FC00000#32)
    (some 0x7FC00000#32) a (BitVec.ofNat 32 (lg2Bits a)) := by
  unfold lg2Bits
  refine .of_value ?_ ?_ ?_ ?_ ?_ ?_
  iterate 4 · rintro h _ ⟨⟩; rw [h]; rfl
  · rintro n d hn h _ ⟨⟩
    rw [h]
    dsimp only
    rw [if_neg hn, if_pos rfl]
    rfl
  · intro h; rw [h]; rfl

/-- The power of two `2 ^ k` as a fraction. -/
def powerOfTwo (k : ℤ) : Ext := if 0 ≤ k then .fin false (2 ^ k.toNat) 1 else .fin false 1 (2 ^ (-k).toNat)

theorem ex2Bits_whole {a : Word} {neg : Bool} {num den : Nat} {k : ℤ} (h : fmtF32.value a.toNat = .fin neg num den) (hd : 0 < den)
    (hk : signed neg num = k * den) (hmin : -149 ≤ k) (hmax : k < 128) : ex2Bits a = fmtF32.round .rne true 0 (powerOfTwo k) := by
  have hd' : (den : ℤ) ≠ 0 := by exact_mod_cast hd.ne'
  have hdiv : signed neg num / (den : ℤ) = k := by rw [hk, Int.mul_ediv_cancel _ hd']
  unfold ex2Bits
  rw [h]
  dsimp only
  rw [hdiv, hk, sub_self, if_neg (by omega), if_pos ⟨rfl, hmin⟩]
  rfl

theorem ex2Bits_row (a : Word) : SpecialRow (some 0x3F800000#32) (some 0x3F800000#32) (some 0x7F800000#32) (some 0#32) none a
    (BitVec.ofNat 32 (ex2Bits a)) := by
  have hone : BitVec.ofNat 32 (fmtF32.round .rne true 0 (powerOfTwo 0)) = 0x3F800000#32 := by decide
  have hzero {neg : Bool} (h : fmtF32.value a.toNat = .fin neg 0 (2 ^ 150)) : ex2Bits a = fmtF32.round .rne true 0 (powerOfTwo 0) :=
    ex2Bits_whole h (Nat.two_pow_pos _) (by rw [signed_zero, zero_mul]) (by norm_num) (by norm_num)
  refine .of_value ?_ ?_ ?_ ?_ ?_ ?_
  iterate 2 · rintro h _ ⟨⟩; rw [hzero h, hone]
  iterate 2 · rintro h _ ⟨⟩; rw [ex2Bits, h]; rfl
  · rintro n d hn h _ ⟨⟩
  · intro h; rw [ex2Bits, h]; rfl

/-- A power of two in the range of FP32 is rounded to itself. -/
theorem round_powerOfTwo {k : ℤ} (hmin : -149 ≤ k) (hmax : k ≤ 127) : ∃ g < 0x7F800000,
    fmtF32.round .rne true 0 (powerOfTwo k) = g ∧ fmtF32.magVal g = 2 ^ k := by
  have exact {num den : Nat} (hd : 0 < den) (hval : (num : ℚ) / den = 2 ^ k) : ∃ g < 0x7F800000,
      fmtF32.round .rne true 0 (.fin false num den) = g ∧ fmtF32.magVal g = 2 ^ k := by
    obtain ⟨g, hg, hround, hmag⟩ := fmtF32_round_exact .rne true 0 false (n := 1) hd one_ne_zero (by norm_num) hmin
      (by rw [hval, Nat.cast_one, one_mul]) (by rw [hval]; exact zpow_lt_zpow_right₀ one_lt_two (by omega))
    exact ⟨g, hg, by rw [hround, fmtF32_join]; exact Nat.zero_add g, hmag.trans hval⟩
  unfold powerOfTwo
  split
  · next h => exact exact one_pos (by rw [Nat.cast_one, div_one, two_zpow_natCast h])
  · next h => exact exact (Nat.two_pow_pos _) (by rw [Nat.cast_one, one_div, two_zpow_neg_natCast (by omega)])

/-- A value with its sign. -/
def Ext.real : Ext → ℚ
  | .fin neg n d => if neg then -((n : ℚ) / d) else (n : ℚ) / d
  | _ => 0

theorem signed_eq_of_real {neg : Bool} {n d : Nat} (hd : 0 < d) {k : ℤ} (h : (Ext.fin neg n d).real = k) : signed neg n = k * d := by
  have hd' : (d : ℚ) ≠ 0 := by exact_mod_cast hd.ne'
  have hs : (signed neg n : ℚ) / d = k := by
    rw [← h]
    cases neg
    · simp [signed, Ext.real]
    · simp [signed, Ext.real, neg_div]
  rw [div_eq_iff hd'] at hs
  exact_mod_cast hs

theorem ex2Bits_exact {a : Word} {k : ℤ} (hfin : a.toNat % 2 ^ 31 < 0x7F800000) (hval : (fmtF32.value a.toNat).real = k)
    (hmin : -149 ≤ k) (hmax : k ≤ 127) :
    BitVec.ofNat 32 (ex2Bits a) < 0x7F800000#32 ∧ (fmtF32.value (BitVec.ofNat 32 (ex2Bits a)).toNat).mag = 2 ^ k := by
  have hvalue := fmtF32_value hfin
  rw [hvalue] at hval
  have hex := ex2Bits_whole hvalue (Nat.two_pow_pos _) (signed_eq_of_real (Nat.two_pow_pos _) hval) hmin (by omega)
  obtain ⟨g, hg, hround, hmag⟩ := round_powerOfTwo hmin hmax
  have hnat : (BitVec.ofNat 32 (ex2Bits a)).toNat = g := by
    rw [hex, hround, BitVec.toNat_ofNat, Nat.mod_eq_of_lt (hg.trans (by norm_num))]
  rw [BitVec.lt_def, hnat, fmtF32_mag_of_lt hg]
  exact ⟨hg, hmag⟩

/-- A magnitude and a sign, read back. -/
theorem fmtF32_value_join (neg : Bool) {g : Nat} (hg : g < 0x7F800000) :
    fmtF32.join neg g % 2 ^ 31 = g ∧ fmtF32.value (fmtF32.join neg g) = .fin neg (fmtF32.sig g * 2 ^ fmtF32.up g) (2 ^ 150) := by
  have hmod : fmtF32.join neg g % 2 ^ 31 = g := by
    rw [fmtF32_join]
    split <;> omega
  have hbit : (fmtF32.join neg g).testBit 31 = neg := by
    rw [fmtF32_join, Nat.testBit_eq_decide_div_mod_eq]
    cases neg
    · exact decide_eq_false (by rw [if_neg Bool.false_ne_true]; omega)
    · exact decide_eq_true (by rw [if_pos rfl]; omega)
  refine ⟨hmod, ?_⟩
  rw [fmtF32_value (by omega), hbit, hmod]

/-- A small integer is rounded to itself. -/
theorem round_ofInt {k : ℤ} (hk : k.natAbs < 2 ^ 24) : ∃ g < 0x7F800000,
    fmtF32.round .rne true 0 (Ext.ofInt k) = fmtF32.join (decide (k < 0)) g ∧ fmtF32.magVal g = (k.natAbs : ℚ) := by
  unfold Ext.ofInt
  by_cases h0 : k.natAbs = 0
  · refine ⟨0, by norm_num, by rw [h0, Fmt.round_zero], ?_⟩
    rw [h0, Fmt.magVal, show fmtF32.sig 0 = 0 from rfl, Nat.cast_zero, zero_mul]
  · have hlt : ((k.natAbs : ℕ) : ℚ) < 2 ^ 24 := by exact_mod_cast hk
    obtain ⟨g, hg, hround, hmag⟩ := fmtF32_round_exact .rne true 0 (decide (k < 0)) (num := k.natAbs) (q := 0) one_pos h0 hk
      (by norm_num) (by rw [Nat.cast_one, div_one, zpow_zero, mul_one])
      (by rw [Nat.cast_one, div_one]; exact hlt.trans (by norm_num))
    exact ⟨g, hg, hround, by rw [hmag, Nat.cast_one, div_one]⟩

theorem lg2Bits_powerOfTwo {a : Word} {num den : Nat} {k : ℤ} (h : fmtF32.value a.toNat = .fin false num den) (hd : 0 < den)
    (hn : num ≠ 0) (hk : (num : ℚ) / den = 2 ^ k) : lg2Bits a = fmtF32.round .rne true 0 (Ext.ofInt k) := by
  have hlog : fracLog num den = k :=
    fracLog_unique hd hk.ge (by rw [hk]; exact zpow_lt_zpow_right₀ one_lt_two (by omega))
  have heq : (if 0 ≤ k then num else num * 2 ^ (-k).toNat) = if 0 ≤ k then den * 2 ^ k.toNat else den := by
    have := (div_eq_two_zpow hd k).2 hk
    split
    · next h => rwa [if_pos h, beq_iff_eq] at this
    · next h => rwa [if_neg h, beq_iff_eq] at this
  unfold lg2Bits
  rw [h]
  dsimp only
  rw [if_neg hn, if_neg Bool.false_ne_true, hlog, if_pos heq]

theorem lg2Bits_exact {a : Word} {k : ℤ} (ha : a < 0x7F800000#32) (hk : (fmtF32.value a.toNat).mag = 2 ^ k) :
    (BitVec.ofNat 32 (lg2Bits a)).toNat % 2 ^ 31 < 0x7F800000 ∧ (fmtF32.value (BitVec.ofNat 32 (lg2Bits a)).toNat).real = k := by
  have hlt : a.toNat < 0x7F800000 := BitVec.lt_def.1 ha
  have hpos : 0 < a.toNat := by
    refine Nat.pos_of_ne_zero fun h0 => ?_
    rw [h0, show (fmtF32.value 0).mag = 0 from by rw [fmtF32_mag_of_lt (by norm_num)]; exact zero_mul _] at hk
    exact absurd hk (two_zpow_pos k).ne
  obtain ⟨num, hnum, hvalue, hval, -, -⟩ := fmtF32_fraction hpos hlt
  rw [fmtF32_mag_of_lt hlt] at hk
  have hlg := lg2Bits_powerOfTwo hvalue (Nat.two_pow_pos _) hnum (hval.trans hk)
  obtain ⟨hmin, hmax⟩ := fmtF32_magVal_bounds hpos hlt
  rw [hk] at hmin hmax
  have hkmin := (zpow_le_zpow_iff_right₀ (one_lt_two (α := ℚ))).1 hmin
  have hkmax := (zpow_lt_zpow_iff_right₀ (one_lt_two (α := ℚ))).1 hmax
  obtain ⟨g, hg, hround, hint⟩ := round_ofInt (k := k) (by omega)
  obtain ⟨hlow, hjoin⟩ := fmtF32_value_join (decide (k < 0)) hg
  have hnat : (BitVec.ofNat 32 (lg2Bits a)).toNat = fmtF32.join (decide (k < 0)) g := by
    rw [hlg, BitVec.toNat_ofNat, Nat.mod_eq_of_lt (fmtF32_round_lt _ _ _ _), hround]
  rw [hnat, hlow, hjoin]
  refine ⟨hg, ?_⟩
  have hq : ((fmtF32.sig g * 2 ^ fmtF32.up g : ℕ) : ℚ) / ((2 ^ 150 : ℕ) : ℚ) = k.natAbs := (fmtF32.div_eq_magVal g).trans hint
  rw [Ext.real, hq, Nat.cast_natAbs]
  by_cases h : k < 0
  · rw [if_pos (decide_eq_true h), abs_of_neg h]
    push_cast
    ring
  · rw [if_neg (by simpa using h), abs_of_nonneg (not_lt.1 h)]

/-! ### The instructions -/

variable {s : State} {i : Instr}

theorem special_lands {x : U} {rnd : Rnd} {f : Word → Nat → Nat} (ha : s.Acts x.h) :
    ∃ r : Lanes, (∃ t, s.special i x rnd f = .next t
        ∧ Lands (s.stepSeeds rnd (s.active x.h) 1) i.bytes 16 [.v (s.phys x.d) (s.active x.h) r] t)
      ∧ ∀ l < 32, lane r l = BitVec.ofNat 32 (f (lane (s.v x.a) l) (drawOf rnd (lane s.me.seeds l) 0)) :=
  ⟨_, falu_lands ha rfl rfl, fun l hl => lane_lanesOf _ l hl⟩

theorem specialFunctionTable : Claims.SpecialFunctionTable := by
  refine ⟨fun a => BitVec.ofNat 32 (rsqBits a), fun a => BitVec.ofNat 32 (ex2Bits a), fun a => BitVec.ofNat 32 (lg2Bits a),
    fun a => BitVec.ofNat 32 (sinBits a), fun a => BitVec.ofNat 32 (cosBits a), ?_⟩
  intro s x rnd ha gives table inf ninf nz one nan finite mag val rcp rooted root
  have hmag : mag = fun y => (fmtF32.value y).mag := funext fun y => by
    dsimp only [mag]
    cases fmtF32.value y <;> rfl
  have hval (w : Word) (hw : finite w) : val w = (fmtF32.value w.toNat).real := by
    have hvalue := fmtF32_value hw
    dsimp only [val]
    rw [hmag]
    dsimp only
    rw [hvalue]
    rfl
  have hrooted {m : Rnd} {u w : Nat} {y : ℚ} (h : Rooted mag m u y w) : rooted m u y w := by cases m <;> exact h
  have hgives {i : Instr} {m : Rnd} {f : Word → Nat → Nat} {p : Word → Nat → Word → Prop} (hexec : exec i s = s.special i x m f)
      (hp : ∀ a u, p a u (BitVec.ofNat 32 (f a u))) : gives i m p := by
    obtain ⟨r, ⟨t, hnext, hl⟩, hlanes⟩ := special_lands (i := i) (rnd := m) (f := f) ha
    refine ⟨r, ⟨t, hexec.trans hnext, hl⟩, fun l hl => ?_⟩
    rw [hlanes l hl]
    exact hp _ _
  have hrcp (m : Rnd) (a : Word) (u : Nat) : rcp m a u (BitVec.ofNat 32 (recipBits m a u)) :=
    ⟨recipBits_row m a u, fun sg n d h hn => recipBits_finite m u h hn⟩
  have hroot (m : Rnd) (a : Word) (u : Nat) : root m a u (BitVec.ofNat 32 (rootBits m a u)) := by
    refine ⟨rootBits_row m a u, fun hlo hhi => ?_⟩
    obtain ⟨hw, hr⟩ := rootBits_positive m u hlo hhi
    refine ⟨hw, hrooted ?_⟩
    rw [hmag]
    exact hr
  have both {i j : Instr} {f : Word → Nat → Nat} {p : Word → Nat → Word → Prop} (hi : exec i s = s.special i x .rne f)
      (hj : exec j s = s.special j x .rne f) (hp : ∀ a u, p a u (BitVec.ofNat 32 (f a u))) : ∀ k ∈ [i, j], gives k .rne p :=
    List.forall_mem_cons.2 ⟨hgives hi hp, List.forall_mem_singleton.2 (hgives hj hp)⟩
  clear_value gives
  refine ⟨hgives rfl (hrcp .rne), hgives rfl (hrcp rnd), hgives rfl (hroot .rne), hgives rfl (hroot rnd), ?_, ?_, ?_, ?_, ?_⟩
  · exact both (i := .frsq x) (j := .frsqX x) (f := fun a _ => rsqBits a) rfl rfl fun a _ => ⟨rfl, rsqBits_row a⟩
  · refine both (i := .fex2 x) (j := .fex2X x) (f := fun a _ => ex2Bits a) rfl rfl fun a _ => ⟨rfl, ex2Bits_row a, fun k hfin hk hmin hmax => ?_⟩
    rw [hval a hfin] at hk
    rw [hmag]
    exact ex2Bits_exact hfin hk hmin hmax
  · refine both (i := .flg2 x) (j := .flg2X x) (f := fun a _ => lg2Bits a) rfl rfl fun a _ => ⟨rfl, lg2Bits_row a, fun k hlt hk => ?_⟩
    rw [hmag] at hk
    obtain ⟨hfin, hreal⟩ := lg2Bits_exact hlt hk
    exact ⟨hfin, (hval _ hfin).trans hreal⟩
  · exact both (i := .fsin x) (j := .fsinX x) (f := fun a _ => sinBits a) rfl rfl fun a _ => ⟨rfl, sinBits_row a⟩
  · exact both (i := .fcos x) (j := .fcosX x) (f := fun a _ => cosBits a) rfl rfl fun a _ => ⟨rfl, cosBits_row a⟩

end Sys2Proof.Machine
end

section
/-! PROOF. The generators of the lanes: one step, and `rseed` (R91, R182). -/
namespace Sys2Proof.Machine

/-! ### One step of a generator (R91) -/

/-- A word that equals its own shift is zero: shifted again and again, every bit is lost. -/
theorem eq_zero_of_shiftLeft_eq {x : Word} {k : Nat} (hk : 0 < k) (h : x = x <<< k) : x = 0#32 := by
  have low (i : Nat) : x.getLsbD i = false := by
    induction i using Nat.strong_induction_on with
    | _ i ih =>
      rw [h, BitVec.getLsbD_shiftLeft]
      by_cases hi : i < k
      · simp [hi]
      · simp [ih (i - k) (by omega)]
  exact BitVec.eq_of_getLsbD_eq fun i _ => (low i).trans BitVec.getLsbD_zero.symm

theorem eq_zero_of_ushiftRight_eq {x : Word} {k : Nat} (hk : 0 < k) (h : x = x >>> k) : x = 0#32 := by
  have high (n i : Nat) (hi : 32 ≤ i + n) : x.getLsbD i = false := by
    induction n generalizing i with
    | zero => exact BitVec.getLsbD_of_ge x i hi
    | succ n ih =>
      rw [h, BitVec.getLsbD_ushiftRight]
      exact ih (k + i) (by omega)
  exact BitVec.eq_of_getLsbD_eq fun i _ => (high 32 i (by omega)).trans BitVec.getLsbD_zero.symm

theorem xor_shiftLeft_ne_zero {x : Word} {k : Nat} (hk : 0 < k) (hx : x ≠ 0#32) : x ^^^ x <<< k ≠ 0#32 :=
  fun h => hx (eq_zero_of_shiftLeft_eq hk (BitVec.xor_eq_zero_iff.1 h))

theorem xor_ushiftRight_ne_zero {x : Word} {k : Nat} (hk : 0 < k) (hx : x ≠ 0#32) : x ^^^ x >>> k ≠ 0#32 :=
  fun h => hx (eq_zero_of_ushiftRight_eq hk (BitVec.xor_eq_zero_iff.1 h))

/-- Only a state of 0 reaches 0, which becomes 1. -/
theorem genStep_of_ne_zero {x : Word} (hx : x ≠ 0#32) :
    genStep x = ((x ^^^ x <<< 13) ^^^ (x ^^^ x <<< 13) >>> 17) ^^^ ((x ^^^ x <<< 13) ^^^ (x ^^^ x <<< 13) >>> 17) <<< 5 :=
  if_neg (xor_shiftLeft_ne_zero (by norm_num) (xor_ushiftRight_ne_zero (by norm_num) (xor_shiftLeft_ne_zero (by norm_num) hx)))

theorem genStep_ne_zero (x : Word) : genStep x ≠ 0#32 := by
  unfold genStep
  dsimp only
  split
  · decide
  · assumption

/-! ### `rseed` (R182) -/

variable {s : State} {i : Instr} {h : Hd}

/-- `rseed` sets the generators of the active lanes at its issue, and goes on. -/
theorem reseed_moves {a : VReg} (ha : s.Acts h) : ∃ t, s.reseed i h a = .next t
    ∧ Moved { s with me := { s.me with seeds := blend (s.active h) (s.v a) s.me.seeds } } t
    ∧ GoesTo s t (s.me.pc + BitVec.ofNat 64 i.bytes)
    ∧ t.me.toks = s.me.toks ∧ t.me.ops = s.me.ops ∧ t.me.results = s.me.results := by
  unfold State.reseed
  rw [gate_on ha rfl fun k hk => absurd hk (Option.some_ne_none k).symm]
  refine ⟨_, rfl, ?_⟩
  dsimp only
  have moves {u : State} (hu : u = s.fresh427 ∨ u = s.fresh427.spoil) :
      let w : State := { u with me := { u.me with seeds := blend (s.active h) (s.v a) s.me.seeds } }
      Moved { s with me := { s.me with seeds := blend (s.active h) (s.v a) s.me.seeds } } (w.retire h i.bytes)
        ∧ GoesTo s (w.retire h i.bytes) (s.me.pc + BitVec.ofNat 64 i.bytes) ∧ (w.retire h i.bytes).me.toks = s.me.toks
        ∧ (w.retire h i.bytes).me.ops = s.me.ops ∧ (w.retire h i.bytes).me.results = s.me.results := by
    intro w
    have near : Near { s with me := { s.me with seeds := blend (s.active h) (s.v a) s.me.seeds } } w := by
      rcases hu with rfl | rfl <;> exact ⟨rfl, rfl, rfl⟩
    obtain ⟨htoks, hops, hres⟩ := retire_keeps w h i.bytes
    refine ⟨near.retire_moved h i.bytes, retire_goes h _ ?_ ?_ ?_ ?_ ?_, htoks.trans ?_, hops.trans ?_, hres.trans ?_⟩ <;>
      rcases hu with rfl | rfl <;> rfl
  split
  · exact moves (.inl rfl)
  · exact moves (.inr rfl)

theorem generatorStates : Claims.GeneratorStates := by
  refine ⟨fun s h a ha => ?_, fun x => ⟨genStep_ne_zero x, by decide, genStep_of_ne_zero⟩⟩
  have seeds {i : Instr} (hexec : exec i s = s.reseed i h a) :
      Answers i s fun t => (∀ l < 32, lane t.me.seeds l = if (s.active h).has l then lane (s.v a) l else lane s.me.seeds l)
        ∧ t.me.results = s.me.results ∧ t.win.regs = s.win.regs ∧ t.me.preds = s.me.preds ∧ t.me.sregs = s.me.sregs
        ∧ t.me.toks = s.me.toks ∧ t.me.ops = s.me.ops ∧ (∀ x, t.mem.byte x = s.mem.byte x)
        ∧ GoesTo s t (s.me.pc + BitVec.ofNat 64 i.bytes) := by
    obtain ⟨t, hnext, moved, goes, htoks, hops, hres⟩ := reseed_moves (i := i) (a := a) ha
    refine ⟨t, hexec.trans hnext, fun l hl => ?_, hres, ?_, ?_, ?_, htoks, hops, moved.bytes, goes⟩
    · rw [moved.me]
      exact lane_blend _ _ _ _ hl
    · rw [moved.win]
    · rw [moved.me]
    · rw [moved.me]
  exact List.forall_mem_cons.2 ⟨seeds rfl, List.forall_mem_singleton.2 (seeds rfl)⟩

/-- Settles O15: the reciprocal and the root are rounded once, which finds the neighbours of the root by the integer square root;
the other functions are maps of the input's bits, exact where the result has few bits; a step of a generator loses no state. -/
theorem specialFunctionsAndGenerators : Obligations.SpecialFunctionsAndGenerators := ⟨specialFunctionTable, generatorStates⟩

end Sys2Proof.Machine
end

section
/-! PROOF. Elements packed one after another, conversions of elements, and packed streams (R79, R90, R169, R176, R178). -/
namespace Sys2Proof.Machine

/-! ### Elements packed from a place on -/

/-- `n` elements of width `w` from place `o` on, as one number (R79). -/
def packed (w o : Nat) (f : Nat → Nat) (n : Nat) : Nat := (List.range n).foldl (fun x j => x + f j * 2 ^ (w * (o + j))) 0

theorem packed_succ (w o : Nat) (f : Nat → Nat) (n : Nat) :
    packed w o f (n + 1) = packed w o f n + f n * 2 ^ (w * (o + n)) := by
  unfold packed
  rw [List.range_succ, List.foldl_append]
  rfl

theorem packed_zero (w : Nat) (f : Nat → Nat) (n : Nat) :
    (List.range n).foldl (fun x j => x + f j * 2 ^ (w * j)) 0 = packed w 0 f n := by
  simp only [packed, Nat.zero_add]

theorem packed_lt {w o n : Nat} {f : Nat → Nat} (hf : ∀ j < n, f j < 2 ^ w) : packed w o f n < 2 ^ (w * (o + n)) := by
  induction n with
  | zero => exact Nat.two_pow_pos _
  | succ n ih =>
    have hlast : f n + 1 ≤ 2 ^ w := hf n (Nat.lt_succ_self n)
    have hrest := ih fun j hj => hf j (Nat.lt_succ_of_lt hj)
    calc packed w o f (n + 1) < 2 ^ (w * (o + n)) + f n * 2 ^ (w * (o + n)) := by rw [packed_succ]; omega
      _ = (f n + 1) * 2 ^ (w * (o + n)) := by ring
      _ ≤ 2 ^ w * 2 ^ (w * (o + n)) := Nat.mul_le_mul_right _ hlast
      _ = 2 ^ (w * (o + (n + 1))) := by rw [← pow_add]; congr 1; ring

/-- Reading an element back at its place. -/
theorem packed_elem {w o n : Nat} {f : Nat → Nat} (hf : ∀ j < n, f j < 2 ^ w) {j : Nat} (hj : j < n) :
    packed w o f n / 2 ^ (w * (o + j)) % 2 ^ w = f j := by
  induction n with
  | zero => exact absurd hj (Nat.not_lt_zero j)
  | succ n ih =>
    have hrest : ∀ j < n, f j < 2 ^ w := fun j hj => hf j (Nat.lt_succ_of_lt hj)
    rw [packed_succ]
    rcases Nat.lt_succ_iff_lt_or_eq.1 hj with h | rfl
    · obtain ⟨k, rfl⟩ := Nat.exists_eq_add_of_lt h
      have hsplit : 2 ^ (w * (o + (j + k + 1))) = 2 ^ w * 2 ^ (w * k) * 2 ^ (w * (o + j)) := by
        rw [← pow_add, ← pow_add]; congr 1; ring
      rw [hsplit, ← Nat.mul_assoc, Nat.add_mul_div_right _ _ (Nat.two_pow_pos _), Nat.mul_left_comm, Nat.add_mul_mod_self_left,
        ih hrest h]
    · rw [Nat.add_mul_div_right _ _ (Nat.two_pow_pos _), Nat.div_eq_of_lt (packed_lt hrest), Nat.zero_add,
        Nat.mod_eq_of_lt (hf j hj)]

/-- All bits of the elements' places. -/
theorem packed_ones (w o n : Nat) : packed w o (fun _ => 2 ^ w - 1) n = (2 ^ (w * n) - 1) * 2 ^ (w * o) := by
  induction n with
  | zero => rw [Nat.mul_zero, pow_zero, Nat.sub_self, Nat.zero_mul]; rfl
  | succ n ih =>
    rw [packed_succ, ih, show w * (o + n) = w * n + w * o by ring, pow_add, ← Nat.mul_assoc, ← Nat.add_mul, Nat.sub_mul, ← pow_add,
      show w + w * n = w * (n + 1) by ring, Nat.one_mul]
    have : 2 ^ (w * n) ≤ 2 ^ (w * (n + 1)) := Nat.pow_le_pow_right two_pos (Nat.mul_le_mul_left w (Nat.le_succ n))
    have := Nat.two_pow_pos (w * n)
    congr 1
    omega

theorem testBit_ones (w o n b : Nat) :
    ((2 ^ (w * n) - 1) * 2 ^ (w * o)).testBit b = (decide (w * o ≤ b) && decide (b < w * (o + n))) := by
  rw [Nat.testBit_mul_two_pow, Nat.testBit_two_pow_sub_one, Nat.mul_add, Bool.eq_iff_iff]
  simp only [Bool.and_eq_true, decide_eq_true_iff]
  omega

/-- A number in 32-bit words, put together again (R79). -/
theorem packed_words (x n : Nat) : packed 32 0 (fun j => x / 2 ^ (32 * j) % 2 ^ 32) n = x % 2 ^ (32 * n) := by
  induction n with
  | zero => rw [Nat.mul_zero, pow_zero, Nat.mod_one]; rfl
  | succ n ih => rw [packed_succ, ih, Nat.zero_add, Nat.mul_succ, pow_add, Nat.mod_mul, Nat.mul_comm (2 ^ (32 * n))]

theorem packed_congr {w o n : Nat} {f g : Nat → Nat} (h : ∀ j < n, f j = g j) : packed w o f n = packed w o g n := by
  induction n with
  | zero => rfl
  | succ n ih => rw [packed_succ, packed_succ, ih fun j hj => h j (Nat.lt_succ_of_lt hj), h n (Nat.lt_succ_self n)]

theorem lane_replicate (x : Word) {l : Nat} (hl : l < 32) : lane (Vector.replicate 32 x) l = x := by
  simp [lane, vget, hl]

/-! ### A converted element fits its type (R89, R90) -/

theorem fmtOf_bits {td : ETy} {f : Fmt} (h : fmtOf td = some f) : f.Bounded ∧ f.bits = td.width := by
  cases td <;> cases h <;> exact ⟨⟨by decide, by decide, by decide⟩, rfl⟩

theorem intTy_width {td : ETy} {n : Nat} {sg : Bool} (h : intTy td = some (n, sg)) : n = td.width := by
  cases td <;> cases h <;> rfl

theorem writeNum_lt (td : ETy) (mode : Rnd) (ofn sat : Bool) (u : Nat) (x : Num) : writeNum td mode ofn sat u x < 2 ^ td.width := by
  unfold writeNum
  split
  · next f hf =>
    obtain ⟨hb, hbits⟩ := fmtOf_bits hf
    rw [← hbits]
    split <;> exact hb.round_lt mode ofn u _
  · split
    · next n sg hn =>
      rw [← intTy_width hn]
      unfold numToInt
      dsimp only
      split <;> exact modTwo_lt _ n
    · split
      · split <;> exact modTwo_lt _ 2
      · have one : 1 < 2 ^ td.width := Nat.one_lt_two_pow (ETy.width_pos td).ne'
        have zero : 0 < 2 ^ td.width := Nat.two_pow_pos _
        split
        · exact one
        · split
          · exact zero
          · exact one
        · split
          · exact zero
          · exact one
        · split
          · exact one
          · exact zero

theorem convert_lt (td ts : ETy) (mode : Rnd) (ofn sat : Bool) (u : Nat) {bits : Nat} (hb : bits < 2 ^ ts.width) :
    convert td ts mode ofn sat u bits < 2 ^ td.width := by
  unfold convert
  split
  · next h =>
    rw [h.1]
    split
    · exact (Nat.sub_le _ _).trans_lt hb
    · exact hb
  · exact writeNum_lt td mode ofn sat u _

theorem fieldOf_lt (x : Word) (p w : Nat) : fieldOf x p w < 2 ^ w := Nat.mod_lt _ (Nat.two_pow_pos w)

/-! ### `fcvt` (R175, R176) -/

/-- The first element of the narrower side that an `fcvt` reads or writes. -/
def cvtStart (wide narrow se : Nat) : Nat := if narrow < wide then se * (32 / max wide narrow) else 0

theorem cvtStart_place (wide narrow se i : Nat) :
    (if narrow < wide then i + se * (32 / max wide narrow) else i) = cvtStart wide narrow se + i := by
  unfold cvtStart
  split <;> omega

/-- The elements written lie in one register. -/
theorem cvtStart_bound {ws wd se : Nat} (hse : se < max wd ws / min wd ws) :
    wd * (cvtStart ws wd se + 32 / max ws wd) ≤ 32 := by
  unfold cvtStart
  split
  · next h =>
    rw [max_eq_right h.le, min_eq_left h.le] at hse
    rw [max_eq_left h.le]
    calc wd * (se * (32 / ws) + 32 / ws) = wd * (se + 1) * (32 / ws) := by ring
      _ ≤ wd * (ws / wd) * (32 / ws) := Nat.mul_le_mul_right _ (Nat.mul_le_mul_left _ hse)
      _ ≤ ws * (32 / ws) := Nat.mul_le_mul_right _ (Nat.mul_div_le ws wd)
      _ ≤ 32 := Nat.mul_div_le 32 ws
  · next h =>
    rw [max_eq_right (not_lt.1 h), Nat.zero_add]
    exact Nat.mul_div_le 32 wd

theorem fcvtLane_eq (td ts : ETy) (se : Nat) (ofn sat : Bool) (rnd : Rnd) (seed a : Word) : fcvtLane td ts se ofn sat rnd seed a
    = packed td.width (cvtStart ts.width td.width se) (fun i => convert td ts rnd ofn sat (drawOf rnd seed i)
        (fieldOf a (ts.width * if ts.width < td.width then i + se * (32 / max ts.width td.width) else i) ts.width))
      (32 / max ts.width td.width) := by
  simp only [packed, ← cvtStart_place]
  rfl

theorem fcvtMask_eq (td ts : ETy) (se : Nat) : fcvtMask td ts se
    = packed td.width (cvtStart ts.width td.width se) (fun _ => 2 ^ td.width - 1) (32 / max ts.width td.width) := by
  simp only [packed, ← cvtStart_place]
  rfl

/-- The places from `o` on that hold bit `b`. -/
theorem place_iff {w : Nat} (hw : 0 < w) (o n b : Nat) :
    (∃ i < n, w * (o + i) ≤ b ∧ b < w * (o + i + 1)) ↔ w * o ≤ b ∧ b < w * (o + n) := by
  constructor
  · rintro ⟨i, hi, hlo, hhi⟩
    have h1 : w * o ≤ w * (o + i) := Nat.mul_le_mul_left w (by omega)
    have h2 : w * (o + i + 1) ≤ w * (o + n) := Nat.mul_le_mul_left w (by omega)
    omega
  · rintro ⟨hlo, hhi⟩
    have hq : o ≤ b / w := (Nat.le_div_iff_mul_le hw).2 (by rwa [Nat.mul_comm])
    have hq' : b / w < o + n := (Nat.div_lt_iff_lt_mul hw).2 (by rwa [Nat.mul_comm])
    refine ⟨b / w - o, by omega, ?_, ?_⟩
    · rw [Nat.add_sub_cancel' hq]
      exact Nat.mul_div_le b w
    · rw [Nat.add_sub_cancel' hq]
      exact Nat.lt_mul_div_succ b hw

variable {s : State} {i : Instr}

/-- What `fcvt` writes: the bits of its elements' places, each the converted element (R176). -/
theorem fcvt_lands {x : U} {td ts : ETy} {se : Fin 8} {ofn sat : Bool} {rnd : Rnd} (ha : s.Acts x.h)
    (hwf : (Instr.fcvt x td ts se ofn sat rnd).wf = true) :
    let n := 32 / max ts.width td.width
    let j (i : Nat) : Nat := if ts.width < td.width then i + se.val * n else i
    let k (i : Nat) : Nat := if td.width < ts.width then i + se.val * n else i
    ∃ mask val : Lanes, Answers (.fcvt x td ts se ofn sat rnd) s (Lands (s.stepSeeds rnd (s.active x.h) n)
        (Instr.fcvt x td ts se ofn sat rnd).bytes 6 [.vbits (s.phys x.d) (s.active x.h) mask val])
      ∧ ∀ l < 32, (∀ b < 32, (lane mask l).getLsbD b = true ↔ ∃ i < n, td.width * k i ≤ b ∧ b < td.width * (k i + 1))
        ∧ ∀ i < n, fieldOf (lane val l) (td.width * k i) td.width = convert td ts rnd ofn sat (drawOf rnd (lane s.me.seeds l) i)
            (fieldOf (lane (s.v x.a) l) (ts.width * j i) ts.width) := by
  intro n j k
  have hse : se.val < max td.width ts.width / min td.width ts.width := by
    obtain ⟨_, h⟩ := Bool.and_eq_true_iff.1 hwf
    exact of_decide_eq_true h
  have hplace (i : Nat) : k i = cvtStart ts.width td.width se.val + i := cvtStart_place ts.width td.width se.val i
  have hroom : 2 ^ (td.width * (cvtStart ts.width td.width se.val + n)) ≤ 2 ^ 32 :=
    Nat.pow_le_pow_right two_pos (cvtStart_bound hse)
  have hexec : exec (.fcvt x td ts se ofn sat rnd) s = execFcvt x td ts se ofn sat rnd s := rfl
  simp only [Answers, hexec]
  unfold execFcvt
  refine ⟨_, _, falu_lands ha rfl rfl, fun l hl => ⟨fun b hb => ?_, fun i hi => ?_⟩⟩
  · have hmask : fcvtMask td ts se.val < 2 ^ 32 := by
      rw [fcvtMask_eq]
      exact (packed_lt fun _ _ => Nat.sub_lt (Nat.two_pow_pos _) one_pos).trans_le hroom
    rw [lane_replicate _ hl, BitVec.getLsbD_ofNat, decide_eq_true hb, Bool.true_and, fcvtMask_eq, packed_ones, testBit_ones,
      Bool.and_eq_true_iff, decide_eq_true_iff, decide_eq_true_iff]
    simp only [hplace]
    exact (place_iff (ETy.width_pos td) _ n b).symm
  · have hlt : ∀ i < n, convert td ts rnd ofn sat (drawOf rnd (lane s.me.seeds l) i)
        (fieldOf (lane (s.v x.a) l) (ts.width * j i) ts.width) < 2 ^ td.width :=
      fun i _ => convert_lt td ts rnd ofn sat _ (fieldOf_lt _ _ _)
    have hfit := (packed_lt (o := cvtStart ts.width td.width se.val) hlt).trans_le hroom
    have helem := packed_elem (o := cvtStart ts.width td.width se.val) hlt hi
    rw [lane_lanesOf _ l hl]
    show fieldOf (BitVec.ofNat 32 (fcvtLane td ts se.val ofn sat rnd (lane s.me.seeds l) (lane (s.v x.a) l))) _ _ = _
    rw [fcvtLane_eq, fieldOf, BitVec.toNat_ofNat, Nat.mod_eq_of_lt hfit, hplace]
    exact helem

/-! ### `fpk` and `funpk` (R177, R178) -/

theorem ceilDiv_mul_le (a : Nat) : a ≤ 32 * ceilDiv a 32 := by unfold ceilDiv; omega

theorem recode_eq (td ts : ETy) (rnd : Rnd) (seed : Word) (n o1 o2 src : Nat) : recode td ts rnd seed n o1 o2 src
    = packed td.width o2 (fun j => convert td ts rnd false false (drawOf rnd seed j)
        (src / 2 ^ (ts.width * (o1 + j)) % 2 ^ ts.width)) n := rfl

/-- A stream of registers that hold a number's words. -/
theorem stream_words (x : Nat) {n : Nat} (hx : x < 2 ^ (32 * n)) (f : Nat → Word) (hf : ∀ j, f j = BitVec.ofNat 32 (x / 2 ^ (32 * j))) :
    (List.range n).foldl (fun y j => y + (f j).toNat * 2 ^ (32 * j)) 0 = x := by
  have hdigit (j : Nat) : (f j).toNat = x / 2 ^ (32 * j) % 2 ^ 32 := by rw [hf j, BitVec.toNat_ofNat]
  rw [packed_zero, packed_congr fun j _ => hdigit j, packed_words, Nat.mod_eq_of_lt hx]

/-- What a packing instruction writes: the bits of its elements' places, each the converted element (R178). -/
theorem pack_lands {x : U} {td ts : ETy} {o1 o2 n : Nat} {rnd : Rnd} (ha : s.Acts x.h) :
    ∃ mask val : Nat → Lanes, (∃ t, s.pack i x td ts o1 o2 n rnd = .next t
        ∧ Lands (s.stepSeeds rnd (s.active x.h) n) i.bytes 6
          ((List.range (ceilDiv ((o2 + n) * td.width) 32)).map fun j => .vbits (s.phys x.d + j) (s.active x.h) (mask j) (val j)) t)
      ∧ ∀ l < 32, (List.range (ceilDiv ((o2 + n) * td.width) 32)).foldl (fun y j => y + (lane (mask j) l).toNat * 2 ^ (32 * j)) 0
          = (2 ^ (td.width * n) - 1) * 2 ^ (td.width * o2)
        ∧ (List.range (ceilDiv ((o2 + n) * td.width) 32)).foldl (fun y j => y + (lane (val j) l).toNat * 2 ^ (32 * j)) 0
          = recode td ts rnd (lane s.me.seeds l) n o1 o2 (s.stream x.a (ceilDiv ((o1 + n) * ts.width) 32) l) := by
  refine ⟨_, _, falu_lands ha rfl rfl, fun l hl => ⟨?_, ?_⟩⟩
  all_goals
    have hroom : 2 ^ (td.width * (o2 + n)) ≤ 2 ^ (32 * ceilDiv ((o2 + n) * td.width) 32) :=
      Nat.pow_le_pow_right two_pos (by rw [Nat.mul_comm td.width]; exact ceilDiv_mul_le _)
    have hpos : 0 < 2 ^ td.width := Nat.two_pow_pos _
  · refine stream_words _ ?_ (fun j => lane _ l) fun j => lane_replicate _ hl
    rw [← packed_ones]
    exact (packed_lt fun _ _ => by omega).trans_le hroom
  · refine stream_words _ ?_ (fun j => lane _ l) fun j => lane_lanesOf _ l hl
    rw [recode_eq]
    exact (packed_lt fun _ _ => convert_lt td ts rnd false false _ (Nat.mod_lt _ (Nat.two_pow_pos _))).trans_le hroom

theorem conversionsWriteTheirBits : Claims.ConversionsWriteTheirBits := by
  intro s x td ts se ofn sat rnd o k ha draw step stream src packs
  have hpacks {i : Instr} {o1 o2 : Nat} (hexec : exec i s = s.pack i x td ts o1 o2 (k.val + 1) rnd) : packs i o1 o2 := by
    obtain ⟨mask, val, ⟨t, hnext, hl⟩, hlanes⟩ := pack_lands (i := i) ha
    refine ⟨mask, val, ⟨t, hexec.trans hnext, hl⟩, fun l hl => ?_⟩
    obtain ⟨hmask, hval⟩ := hlanes l hl
    refine ⟨fun b _ => ?_, fun j hj => ?_⟩
    · exact (congrArg (Nat.testBit · b) hmask).trans (testBit_ones td.width o2 (k.val + 1) b)
    · refine (congrArg (· / 2 ^ (td.width * (o2 + j)) % 2 ^ td.width) hval).trans ?_
      exact packed_elem (fun _ _ => convert_lt td ts rnd false false _ (Nat.mod_lt _ (Nat.two_pow_pos _))) hj
  exact ⟨fcvt_lands ha, fun _ => hpacks rfl, fun _ => hpacks rfl⟩

end Sys2Proof.Machine
end

section
/-! PROOF. Narrow elements from wide ones and back against a block's scale (R179, R181). -/
namespace Sys2Proof.Machine

/-! ### Wide elements (R179) -/

/-- The denominator of a format's finite values is one for the whole format (R80). -/
theorem Fmt.value_den {f : Fmt} {x : Nat} {g : Bool} {n d : Nat} (h : f.value x = .fin g n d) : d = 2 ^ (f.bias + f.man) := by
  unfold Fmt.value at h
  dsimp only at h
  split at h
  · cases h
  · split at h
    · cases h
    · exact (Ext.fin.inj h).2.2.symm

/-- The value of wide element `j` of lane `l`. -/
def State.wideValue (s : State) (ts : ETy) (a : VReg) (l j : Nat) : Ext := match readNum ts (s.wide ts a l j) with
  | .fl e => e
  | .int _ => .nan

theorem readNum_fmt {ts : ETy} {f : Fmt} (hf : fmtOf ts = some f) (bits : Nat) : readNum ts bits = .fl (f.value bits) := by
  unfold readNum
  rw [hf]

theorem blkWide_cases {ts : ETy} (h : ts.blkWide = true) : ts = .f32 ∨ ts = .f16 ∨ ts = .bf16 := by
  revert h
  cases ts <;> decide

theorem blkWide_fmt {ts : ETy} (h : ts.blkWide = true) : ∃ f, fmtOf ts = some f := by
  rcases blkWide_cases h with rfl | rfl | rfl <;> exact ⟨_, rfl⟩

theorem wideValue_fmt {ts : ETy} {f : Fmt} (hf : fmtOf ts = some f) (s : State) (a : VReg) (l j : Nat) :
    s.wideValue ts a l j = f.value (s.wide ts a l j) := by
  unfold State.wideValue
  rw [readNum_fmt hf]

theorem blkNarrow_width {td : ETy} (h : td.blkNarrow = true) (i4 : Bool) : blkWidth td i4 ≤ 8 := by
  revert h
  cases td <;> cases i4 <;> decide

/-! ### `bqnt` (R181) -/

theorem quantBits_lt {td : ETy} {i4 : Bool} (hi4 : i4 = true → td = .i8) (ofn : Bool) (rnd : Rnd) (u : Nat) (sc x : Ext) :
    quantBits td i4 ofn rnd u sc x < 2 ^ blkWidth td i4 := by
  have conv (y : Ext) : (if i4 = true then modTwo (toIntSat rnd u (-8) 7 y) 4 else writeNum td rnd ofn false u (.fl y))
      < 2 ^ blkWidth td i4 := by
    cases i4 with
    | true => exact modTwo_lt _ 4
    | false =>
      rw [if_neg Bool.false_ne_true]
      exact writeNum_lt td rnd ofn false u _
  unfold quantBits
  dsimp only
  split
  · split
    · next f hf =>
      cases i4 with
      | true => rw [hi4 rfl] at hf; cases hf
      | false =>
        obtain ⟨hb, hbits⟩ := fmtOf_bits hf
        show f.nan < 2 ^ td.width
        rw [← hbits]
        exact hb.nan_lt
    · exact Nat.two_pow_pos _
  · exact Nat.two_pow_pos _
  · split
    · exact Nat.two_pow_pos _
    · exact conv _

/-- The exact quotient of a value and a scale that is a nonzero number (R181). -/
theorem mul_recip_fin {g : Bool} {n m : Nat} (hn : n ≠ 0) (hm : m ≠ 0) (x : Ext) : x.mul (Ext.fin g n m).recip = match x with
    | .nan => .nan
    | .inf f => .inf (f != g)
    | .fin f u v => .fin (f != g) (u * m) (v * n) := by
  rw [Ext.recip, if_neg hn]
  cases x with
  | nan => rfl
  | inf f => exact if_neg hm
  | fin f u v => rfl

/-- The finite scales have nonzero denominators (R82, R83). -/
theorem scaleOf_den {td : ETy} {x : Nat} {g : Bool} {n m : Nat} (h : scaleOf td x = .fin g n m) : m ≠ 0 := by
  unfold scaleOf at h
  split at h
  · rw [Fmt.value_den h]
    exact (Nat.two_pow_pos _).ne'
  · split at h
    · cases h
    · rw [← (Ext.fin.inj h).2.2]
      exact (Nat.two_pow_pos _).ne'

theorem quantBits_fin {td : ETy} {i4 ofn : Bool} {rnd : Rnd} {u : Nat} {g : Bool} {n m : Nat} (hn : n ≠ 0) (x : Ext) :
    quantBits td i4 ofn rnd u (.fin g n m) x = if i4 then modTwo (toIntSat rnd u (-8) 7 (x.mul (Ext.fin g n m).recip)) 4
      else writeNum td rnd ofn false u (.fl (x.mul (Ext.fin g n m).recip)) := by
  unfold quantBits
  dsimp only
  rw [if_neg fun h => hn (beq_iff_eq.1 (Bool.and_eq_true_iff.1 h).2)]

/-- A scale of `.t2` that is no nonzero number quantises everything to 0. -/
theorem quantBits_t2_zero {td : ETy} {i4 ofn : Bool} {rnd : Rnd} {u : Nat} {sc x : Ext} (htd : td = .t2)
    (h : ∀ g n m, sc = .fin g n m → n = 0) : quantBits td i4 ofn rnd u sc x = 0 := by
  subst htd
  cases sc with
  | nan => rfl
  | inf g => rfl
  | fin g n m =>
    rw [h g n m rfl]
    rfl

variable {s : State} {h : Hd}

theorem bqnt_lands {d a : VReg} {b : SReg} {td ts : ETy} {ofn i4 : Bool} {rnd : Rnd} (ha : s.Acts h)
    (hnarrow : td.blkNarrow = true) (hi4 : i4 = true → td = .i8) :
    ∃ r : Lanes, Answers (.bqnt h d a b td ts ofn i4 rnd) s (Lands (s.stepSeeds rnd (s.active h) 4)
        (Instr.bqnt h d a b td ts ofn i4 rnd).bytes 6 [.v (s.phys d) (s.active h) r])
      ∧ ∀ l < 32, (lane r l).toNat < 2 ^ (4 * blkWidth td i4) ∧ ∀ j < 4, fieldOf (lane r l) (blkWidth td i4 * j) (blkWidth td i4)
        = quantBits td i4 ofn rnd (drawOf rnd (lane s.me.seeds l) j) (scaleOf td (s.s b).toNat) (s.wideValue ts a l j) := by
  have hexec : exec (.bqnt h d a b td ts ofn i4 rnd) s = execBqnt h d a b td ts ofn i4 rnd s := rfl
  simp only [Answers, hexec]
  unfold execBqnt
  refine ⟨_, falu_lands ha rfl rfl, fun l hl => ?_⟩
  have hlt : ∀ j < 4, quantBits td i4 ofn rnd (drawOf rnd (lane s.me.seeds l) j) (scaleOf td (s.s b).toNat) (s.wideValue ts a l j)
      < 2 ^ blkWidth td i4 := fun j _ => quantBits_lt hi4 ofn rnd _ _ _
  have hfit := packed_lt (o := 0) hlt
  have hroom : 2 ^ (blkWidth td i4 * (0 + 4)) ≤ 2 ^ 32 :=
    Nat.pow_le_pow_right two_pos (by have := blkNarrow_width hnarrow i4; omega)
  rw [lane_lanesOf _ l hl]
  show (BitVec.ofNat 32 ((List.range 4).foldl (fun y j => y + quantBits td i4 ofn rnd (drawOf rnd (lane s.me.seeds l) j)
      (scaleOf td (s.s b).toNat) (s.wideValue ts a l j) * 2 ^ (blkWidth td i4 * j)) 0)).toNat < _ ∧ ∀ j < 4,
    fieldOf (BitVec.ofNat 32 ((List.range 4).foldl (fun y j => y + quantBits td i4 ofn rnd (drawOf rnd (lane s.me.seeds l) j)
      (scaleOf td (s.s b).toNat) (s.wideValue ts a l j) * 2 ^ (blkWidth td i4 * j)) 0)) _ _ = _
  rw [packed_zero (blkWidth td i4) fun j => quantBits td i4 ofn rnd (drawOf rnd (lane s.me.seeds l) j)
      (scaleOf td (s.s b).toNat) (s.wideValue ts a l j)]
  simp only [fieldOf, BitVec.toNat_ofNat, Nat.mod_eq_of_lt (hfit.trans_le hroom)]
  refine ⟨by rwa [Nat.mul_comm 4, ← Nat.zero_add 4], fun j hj => ?_⟩
  have := packed_elem (o := 0) hlt hj
  rwa [Nat.zero_add] at this

/-! ### `bdeq` (R181) -/

/-- The value of a narrow element. -/
def narrowValue (ts : ETy) (i4 : Bool) (bits : Nat) : Ext :=
  match if i4 then Num.int (sextOf bits 4) else readNum ts bits with
  | .fl e => e
  | .int n => Ext.ofInt n

theorem dequantBits_eq (td ts : ETy) (i4 : Bool) (rnd : Rnd) (u : Nat) (sc : Ext) (bits : Nat) : dequantBits td ts i4 rnd u sc bits
    = if (narrowValue ts i4 bits).isZero then ((fmtOf td).getD fmtF32).round rnd true u (narrowValue ts i4 bits)
      else match sc with
        | .nan => ((fmtOf td).getD fmtF32).nan
        | _ => ((fmtOf td).getD fmtF32).round rnd true u ((narrowValue ts i4 bits).mul sc) := rfl

theorem dequantBits_lt {td : ETy} (hwide : td.blkWide = true) (ts : ETy) (i4 : Bool) (rnd : Rnd) (u : Nat) (sc : Ext) (bits : Nat) :
    dequantBits td ts i4 rnd u sc bits < 2 ^ td.width := by
  obtain ⟨f, hf⟩ := blkWide_fmt hwide
  obtain ⟨hb, hbits⟩ := fmtOf_bits hf
  rw [← hbits, dequantBits_eq, hf, Option.getD_some]
  split
  · exact hb.round_lt rnd true u _
  · split
    · exact hb.nan_lt
    · exact hb.round_lt rnd true u _

/-- The half that holds element `j` of two in a register. -/
theorem halves_elem {e : Nat → Nat} (he : ∀ j, e j < 2 ^ 16) {j : Nat} :
    (e (2 * (j / 2)) + e (2 * (j / 2) + 1) * 2 ^ 16) % 2 ^ 32 / 2 ^ (16 * (j % 2)) % 2 ^ 16 = e j := by
  have h0 := he (2 * (j / 2))
  have h1 := he (2 * (j / 2) + 1)
  rcases Nat.mod_two_eq_zero_or_one j with h | h
  · have hj : e (2 * (j / 2)) = e j := congrArg e (by omega)
    rw [h]
    omega
  · have hj : e (2 * (j / 2) + 1) = e j := congrArg e (by omega)
    rw [h]
    omega

theorem bdeq_lands {d a : VReg} {b : SReg} {td ts : ETy} {i4 : Bool} {rnd : Rnd} (ha : s.Acts h) (hwide : td.blkWide = true) :
    ∃ r : Nat → Lanes, Answers (.bdeq h d a b td ts i4 rnd) s (Lands (s.stepSeeds rnd (s.active h) 4)
        (Instr.bdeq h d a b td ts i4 rnd).bytes 6 ((List.range (blkRegs td)).map fun j => .v (s.phys d + j) (s.active h) (r j)))
      ∧ ∀ l < 32, ∀ j < 4, (if td.width = 32 then (lane (r j) l).toNat else fieldOf (lane (r (j / 2)) l) (16 * (j % 2)) 16)
        = dequantBits td ts i4 rnd (drawOf rnd (lane s.me.seeds l) j) (scaleOf ts (s.s b).toNat)
            (fieldOf (lane (s.v a) l) (blkWidth ts i4 * j) (blkWidth ts i4)) := by
  have hexec : exec (.bdeq h d a b td ts i4 rnd) s = execBdeq h d a b td ts i4 rnd s := rfl
  simp only [Answers, hexec]
  unfold execBdeq
  refine ⟨_, falu_lands ha rfl rfl, fun l hl j hj => ?_⟩
  have hlt (j : Nat) := dequantBits_lt hwide ts i4 rnd (drawOf rnd (lane s.me.seeds l) j) (scaleOf ts (s.s b).toNat)
    (fieldOf (lane (s.v a) l) (blkWidth ts i4 * j) (blkWidth ts i4))
  simp only [lane_lanesOf _ l hl, fieldOf, BitVec.toNat_ofNat]
  split
  · next h32 =>
    rw [h32] at hlt
    exact Nat.mod_eq_of_lt (hlt j)
  · next h32 =>
    have h16 : td.width = 16 := by
      rcases blkWide_cases hwide with rfl | rfl | rfl
      · exact absurd rfl h32
      · rfl
      · rfl
    rw [h16] at hlt
    exact halves_elem hlt

end Sys2Proof.Machine
end

section
/-! PROOF. The scale of a block (R179, R180), and the conversions, packing and block scaling together. -/
namespace Sys2Proof.Machine

/-! ### The magnitudes of a list of values -/

/-- Numerator and denominator of a finite value. -/
def Ext.frac : Ext → Nat × Nat
  | .fin _ n d => (n, d)
  | _ => (0, 1)

theorem Ext.mag_eq (x : Ext) : x.mag = (x.frac.1 : ℚ) / x.frac.2 := by
  cases x with
  | fin g n d => rfl
  | nan => simp [Ext.mag, Ext.frac]
  | inf g => simp [Ext.mag, Ext.frac]

theorem magnitudes_some {vs : List Ext} (h : ∀ v ∈ vs, ∃ g n d, v = .fin g n d) : magnitudes vs = some (vs.map Ext.frac) := by
  induction vs with
  | nil => rfl
  | cons v vs ih =>
    obtain ⟨g, n, d, rfl⟩ := h v List.mem_cons_self
    rw [magnitudes, ih fun w hw => h w (List.mem_cons_of_mem _ hw)]
    rfl

theorem magnitudes_none {vs : List Ext} (h : ∃ v ∈ vs, ∀ g n d, v ≠ .fin g n d) : magnitudes vs = none := by
  induction vs with
  | nil =>
    obtain ⟨v, hv, _⟩ := h
    exact absurd hv List.not_mem_nil
  | cons w vs ih =>
    cases w with
    | nan => rfl
    | inf g => rfl
    | fin g n d =>
      obtain ⟨v, hv, hne⟩ := h
      rcases List.mem_cons.1 hv with rfl | hv
      · exact absurd rfl (hne g n d)
      · rw [magnitudes, ih ⟨v, hv, hne⟩]
        rfl

/-! ### Sums and maxima -/

theorem foldl_add_fst (ms : List (Nat × Nat)) (a : Nat) :
    ms.foldl (fun x m => x + m.1) a = a + (ms.map Prod.fst).sum := by
  induction ms generalizing a with
  | nil => rfl
  | cons m ms ih => rw [List.foldl_cons, ih, List.map_cons, List.sum_cons, Nat.add_assoc]

theorem foldl_max_le {ms : List (Nat × Nat)} {a n : Nat} (ha : a ≤ n) (h : ∀ m ∈ ms, m.1 ≤ n) :
    ms.foldl (fun x m => Nat.max x m.1) a ≤ n := by
  induction ms generalizing a with
  | nil => exact ha
  | cons m ms ih =>
    exact ih (Nat.max_le.2 ⟨ha, h m List.mem_cons_self⟩) fun k hk => h k (List.mem_cons_of_mem _ hk)

theorem le_foldl_max {ms : List (Nat × Nat)} {a n : Nat} (h : n ≤ a ∨ ∃ m ∈ ms, n ≤ m.1) :
    n ≤ ms.foldl (fun x m => Nat.max x m.1) a := by
  induction ms generalizing a with
  | nil =>
    rcases h with h | ⟨m, hm, _⟩
    · exact h
    · exact absurd hm List.not_mem_nil
  | cons m ms ih =>
    refine ih ?_
    rcases h with h | ⟨k, hk, hle⟩
    · exact .inl (h.trans (Nat.le_max_left _ _))
    · rcases List.mem_cons.1 hk with rfl | hk
      · exact .inl (hle.trans (Nat.le_max_right _ _))
      · exact .inr ⟨k, hk, hle⟩

/-- The sum of fractions over one denominator. -/
theorem sum_mag {vs : List Ext} {den : Nat} (h : ∀ v ∈ vs, v.frac.2 = den) :
    (vs.map Ext.mag).sum = (((vs.map Ext.frac).map Prod.fst).sum : ℕ) / (den : ℚ) := by
  induction vs with
  | nil => simp
  | cons v vs ih =>
    have hv := Ext.mag_eq v
    rw [h v List.mem_cons_self] at hv
    rw [List.map_cons, List.sum_cons, ih fun w hw => h w (List.mem_cons_of_mem _ hw), hv, List.map_cons, List.map_cons, List.sum_cons,
      Nat.cast_add, add_div]

theorem sum_filter {α : Type} (p : α → Bool) (f : α → ℚ) (l : List α) :
    ((l.filter p).map f).sum = (l.map fun x => if p x then f x else 0).sum := by
  induction l with
  | nil => rfl
  | cons x l ih =>
    rw [List.map_cons, List.sum_cons, List.filter_cons]
    split
    · rw [List.map_cons, List.sum_cons, ih]
    · rw [ih, zero_add]

/-- A sum over 4k elements, four to a lane. -/
theorem sum_lanes (g : Nat → Nat → ℚ) (k : Nat) :
    ((List.range (4 * k)).map fun n => g (n / 4) (n % 4)).sum = ((List.range k).map fun l => ((List.range 4).map (g l)).sum).sum := by
  induction k with
  | zero => rfl
  | succ k ih =>
    have hfour : 4 * (k + 1) = 4 * k + 1 + 1 + 1 + 1 := by ring
    have h0 : 4 * k / 4 = k ∧ 4 * k % 4 = 0 := by omega
    have h1 : (4 * k + 1) / 4 = k ∧ (4 * k + 1) % 4 = 1 := by omega
    have h2 : (4 * k + 1 + 1) / 4 = k ∧ (4 * k + 1 + 1) % 4 = 2 := by omega
    have h3 : (4 * k + 1 + 1 + 1) / 4 = k ∧ (4 * k + 1 + 1 + 1) % 4 = 3 := by omega
    rw [hfour]
    simp only [List.range_succ, List.map_append, List.sum_append, ih, List.map_cons, List.map_nil, List.sum_cons, List.sum_nil, h0.1, h0.2,
      h1.1, h1.2, h2.1, h2.2, h3.1, h3.2, List.range_zero, List.nil_append, add_zero, List.append_assoc]

/-! ### The values of a block (R179) -/

/-- The element values of the active lanes. -/
def State.blockValues (s : State) (h : Hd) (ts : ETy) (a : VReg) : List Ext :=
  ((s.active h).list.map fun l => (List.range 4).map fun j => s.wideValue ts a l j).flatten

variable {s : State} {h : Hd} {ts td : ETy} {a : VReg}

theorem mem_blockValues {v : Ext} :
    v ∈ s.blockValues h ts a ↔ ∃ l j, (l < 32 ∧ (s.active h).has l = true) ∧ j < 4 ∧ s.wideValue ts a l j = v := by
  unfold State.blockValues Mask.list
  simp only [List.mem_flatten, List.mem_map, List.mem_filter, List.mem_range]
  constructor
  · rintro ⟨_, ⟨l, hl, rfl⟩, hv⟩
    obtain ⟨j, hj, hv⟩ := List.mem_map.1 hv
    exact ⟨l, j, hl, List.mem_range.1 hj, hv⟩
  · rintro ⟨l, j, hl, hj, hv⟩
    exact ⟨_, ⟨l, hl, rfl⟩, List.mem_map.2 ⟨j, List.mem_range.2 hj, hv⟩⟩

/-- The sum of the magnitudes of a block, elements of lanes that are not active taken as zero. -/
theorem sum_blockValues : ((s.blockValues h ts a).map Ext.mag).sum
    = ((List.range 128).map fun n => if (s.active h).has (n / 4) then (s.wideValue ts a (n / 4) (n % 4)).mag else 0).sum := by
  rw [sum_lanes (fun l j => if (s.active h).has l then (s.wideValue ts a l j).mag else 0) 32]
  unfold State.blockValues Mask.list
  rw [List.map_flatten, List.sum_flatten, List.map_map, List.map_map, sum_filter]
  congr 1
  refine List.map_congr_left fun l _ => ?_
  dsimp only [Function.comp]
  split
  · rw [List.map_map]
    rfl
  · rw [List.map_const', List.sum_replicate, smul_zero]

/-! ### The scale (R180) -/

/-- The exponent of a scale, from the largest magnitude `m / den`. -/
def blockExp (td : ETy) (ce i4 : Bool) (m den : Nat) : Int :=
  if m = 0 then 0
  else if ce then
    let n := 2 * m
    let d := den * blkMaxf2 td i4
    let f := fracLog n d
    if (if 0 ≤ f then n == d * 2 ^ f.toNat else n * 2 ^ (-f).toNat == d) then f else f + 1
  else fracLog m den - blkEmax td i4

theorem satTo_bounds (x : Int) : -127 ≤ satTo x (-127) 127 ∧ satTo x (-127) 127 ≤ 127 := by
  unfold satTo
  split <;> [skip; split] <;> omega

/-- Under `.fl` the largest magnitude lies from `2 ^ (e + emax)` on and below twice that. -/
theorem blockExp_floor {i4 : Bool} {m den : Nat} (hm : 0 < m) (hd : 0 < den) :
    (2 : ℚ) ^ (blockExp td false i4 m den + blkEmax td i4) ≤ (m : ℚ) / den
      ∧ (m : ℚ) / den < 2 ^ (blockExp td false i4 m den + blkEmax td i4 + 1) := by
  rw [blockExp, if_neg hm.ne', if_neg Bool.false_ne_true, sub_add_cancel]
  exact fracLog_bounds hm hd

/-- Under `.ce` the exponent is the least under which the largest magnitude does not pass the largest narrow value. -/
theorem blockExp_ceil {i4 : Bool} {m den : Nat} (hm : 0 < m) (hd : 0 < den) (hf : 0 < blkMaxf2 td i4) :
    (m : ℚ) / den ≤ (blkMaxf2 td i4 : ℚ) / 2 * 2 ^ blockExp td true i4 m den
      ∧ (blkMaxf2 td i4 : ℚ) / 2 * 2 ^ (blockExp td true i4 m den - 1) < (m : ℚ) / den := by
  have hd' : (0 : ℚ) < den := by exact_mod_cast hd
  have hf' : (0 : ℚ) < blkMaxf2 td i4 := by exact_mod_cast hf
  have hden : 0 < den * blkMaxf2 td i4 := Nat.mul_pos hd hf
  have hscale : ((2 * m : ℕ) : ℚ) / ((den * blkMaxf2 td i4 : ℕ) : ℚ) = (m : ℚ) / den / ((blkMaxf2 td i4 : ℚ) / 2) := by
    push_cast
    field_simp
  have hhalf : (0 : ℚ) < (blkMaxf2 td i4 : ℚ) / 2 := by positivity
  obtain ⟨hlo, hhi⟩ := fracLog_bounds (num := 2 * m) (by omega) hden
  have hpow := div_eq_two_zpow (num := 2 * m) hden (fracLog (2 * m) (den * blkMaxf2 td i4))
  rw [hscale] at hlo hhi hpow
  rw [blockExp, if_neg hm.ne', if_pos rfl]
  dsimp only
  rw [← div_le_iff₀' hhalf, ← lt_div_iff₀' hhalf]
  by_cases hx : (m : ℚ) / den / ((blkMaxf2 td i4 : ℚ) / 2) = 2 ^ fracLog (2 * m) (den * blkMaxf2 td i4)
  · rw [if_pos (hpow.2 hx), hx]
    exact ⟨le_rfl, zpow_lt_zpow_right₀ one_lt_two (by omega)⟩
  · rw [if_neg fun c => hx (hpow.1 c), add_sub_cancel_right]
    exact ⟨hhi.le, lt_of_le_of_ne hlo (Ne.symm hx)⟩

theorem blockScale_t2 {ce i4 : Bool} {vs : List Ext} (htd : td = .t2) (h : ∀ v ∈ vs, ∃ g n d, v = .fin g n d) :
    blockScale td ce i4 vs = fmtF16.round .rne true 0 (.fin false ((vs.map Ext.frac).map Prod.fst).sum
        ((((vs.map Ext.frac).head?.map fun m => m.2).getD 1) * 128)) := by
  unfold blockScale
  rw [magnitudes_some h]
  dsimp only
  rw [if_pos htd, foldl_add_fst, Nat.zero_add]

theorem blockScale_exp {ce i4 : Bool} {vs : List Ext} (htd : td ≠ .t2) (h : ∀ v ∈ vs, ∃ g n d, v = .fin g n d) :
    blockScale td ce i4 vs = (satTo (blockExp td ce i4 ((vs.map Ext.frac).foldl (fun x m => Nat.max x m.1) 0)
      (((vs.map Ext.frac).head?.map fun m => m.2).getD 1)) (-127) 127 + 127).toNat := by
  unfold blockScale
  rw [magnitudes_some h]
  dsimp only
  rw [if_neg htd]
  rfl

theorem blockScale_none {ce i4 : Bool} {vs : List Ext} (h : ∃ v ∈ vs, ∀ g n d, v ≠ .fin g n d) :
    blockScale td ce i4 vs = if td = .t2 then 0x7E00 else 0xFF := by
  unfold blockScale
  rw [magnitudes_none h]

/-! ### The largest magnitude of a block -/

theorem blockValues_den {f : Fmt} (hf : fmtOf ts = some f) {v : Ext} (hv : v ∈ s.blockValues h ts a) (hfin : ∃ g n d, v = .fin g n d) :
    v.frac.2 = 2 ^ (f.bias + f.man) := by
  obtain ⟨l, j, -, -, rfl⟩ := mem_blockValues.1 hv
  obtain ⟨g, n, d, he⟩ := hfin
  rw [he]
  rw [wideValue_fmt hf] at he
  exact Fmt.value_den he

/-- The denominator that the scale is computed with is that of the wide format. -/
theorem head_den {vs : List Ext} {den : Nat} (hne : vs ≠ []) (h : ∀ v ∈ vs, v.frac.2 = den) :
    (((vs.map Ext.frac).head?.map fun m => m.2).getD 1) = den := by
  cases vs with
  | nil => exact absurd rfl hne
  | cons v vs => exact h v List.mem_cons_self

/-- The largest numerator is that of the largest value. -/
theorem foldl_max_mag {vs : List Ext} {den : Nat} (hd : 0 < den) (h : ∀ v ∈ vs, v.frac.2 = den) {v : Ext} (hv : v ∈ vs)
    (hmax : ∀ w ∈ vs, w.mag ≤ v.mag) : (vs.map Ext.frac).foldl (fun x m => Nat.max x m.1) 0 = v.frac.1 := by
  refine le_antisymm (foldl_max_le (Nat.zero_le _) fun m hm => ?_) (le_foldl_max (.inr ⟨_, List.mem_map.2 ⟨v, hv, rfl⟩, le_rfl⟩))
  obtain ⟨w, hw, rfl⟩ := List.mem_map.1 hm
  have hle := hmax w hw
  rw [Ext.mag_eq, Ext.mag_eq, h w hw, h v hv, div_le_div_iff_of_pos_right (by exact_mod_cast hd)] at hle
  exact_mod_cast hle

theorem blockScale_zero {ce i4 : Bool} {vs : List Ext} (htd : td ≠ .t2) (h : ∀ v ∈ vs, ∃ g d, v = .fin g 0 d) :
    blockScale td ce i4 vs = 127 := by
  have hmax : (vs.map Ext.frac).foldl (fun x m => Nat.max x m.1) 0 = 0 := by
    refine Nat.le_zero.1 (foldl_max_le le_rfl fun m hm => ?_)
    obtain ⟨v, hv, rfl⟩ := List.mem_map.1 hm
    obtain ⟨g, d, rfl⟩ := h v hv
    exact le_rfl
  rw [blockScale_exp htd fun v hv => (h v hv).imp fun g => .intro 0, hmax]
  rfl

/-- The code of a block's scale, from the largest magnitude (R180). -/
theorem blockScale_largest {ce i4 : Bool} {vs : List Ext} {den : Nat} (htd : td ≠ .t2) (hfin : ∀ v ∈ vs, ∃ g n d, v = .fin g n d)
    (hd : 0 < den) (hden : ∀ v ∈ vs, v.frac.2 = den) {v : Ext} (hv : v ∈ vs) (hpos : 0 < v.mag) (hmax : ∀ w ∈ vs, w.mag ≤ v.mag)
    (hf : 0 < blkMaxf2 td i4) : ∃ e : ℤ, (blockScale td ce i4 vs : ℤ) = satTo e (-127) 127 + 127
      ∧ if ce then v.mag ≤ (blkMaxf2 td i4 : ℚ) / 2 * 2 ^ e ∧ (blkMaxf2 td i4 : ℚ) / 2 * 2 ^ (e - 1) < v.mag
        else (2 : ℚ) ^ (e + blkEmax td i4) ≤ v.mag ∧ v.mag < 2 ^ (e + blkEmax td i4 + 1) := by
  have hmag : v.mag = (v.frac.1 : ℚ) / den := by rw [Ext.mag_eq, hden v hv]
  have hnum : 0 < v.frac.1 := by
    refine Nat.pos_of_ne_zero fun h0 => ?_
    rw [hmag, h0, Nat.cast_zero, zero_div] at hpos
    exact lt_irrefl _ hpos
  refine ⟨blockExp td ce i4 v.frac.1 den, ?_, ?_⟩
  · rw [blockScale_exp htd hfin, head_den (List.ne_nil_of_mem hv) hden, foldl_max_mag hd hden hv hmax]
    have := satTo_bounds (blockExp td ce i4 v.frac.1 den)
    exact Int.toNat_of_nonneg (by omega)
  · rw [hmag]
    cases ce with
    | true => exact blockExp_ceil hnum hd hf
    | false => exact blockExp_floor hnum hd

theorem blockScale_lt (td : ETy) (ce i4 : Bool) (vs : List Ext) : blockScale td ce i4 vs < 2 ^ 64 := by
  unfold blockScale
  split
  · split <;> norm_num
  · dsimp only
    split
    · exact (Fmt.Bounded.round_lt ⟨by decide, by decide, by decide⟩ .rne true 0 _).trans (by decide)
    · have := satTo_bounds
      refine lt_of_le_of_lt (Int.toNat_le_toNat (add_le_add_left (this _).2 127)) (by norm_num)

theorem blockValues_ne_nil (ha : s.Acts h) : s.blockValues h ts a ≠ [] := by
  intro he
  have hno (l : Nat) (hl : l < 32) : (s.active h).has l = false := by
    by_contra hc
    have := mem_blockValues (s := s) (h := h) (ts := ts) (a := a).2 ⟨l, 0, ⟨hl, by simpa using hc⟩, by norm_num, rfl⟩
    rw [he] at this
    exact List.not_mem_nil this
  exact ha.1 (BitVec.eq_of_getLsbD_eq fun l hl => (hno l hl).trans BitVec.getLsbD_zero.symm)

/-- What `bscl` lands: the scale of the values of the active lanes. -/
theorem bscl_lands {d : SReg} {ce i4 : Bool} (ha : s.Acts h) : Answers (.bscl h d a td ts ce i4) s
    (Lands s (Instr.bscl h d a td ts ce i4).bytes 8 [.s d.val (BitVec.ofNat 64 (blockScale td ce i4 (s.blockValues h ts a)))]) := by
  have hexec : exec (.bscl h d a td ts ce i4) s = execBscl h d a td ts ce i4 s := rfl
  rw [Answers, hexec]
  exact alu_lands ha rfl rfl

end Sys2Proof.Machine
end

section
/-! PROOF. Block scaling as the manual states it, and the conversions with it (R176 to R181). -/
namespace Sys2Proof.Machine

theorem int4_of_limit {td : ETy} {i4 : Bool} (h : (!i4 || td == .i8) = true) (h4 : i4 = true) : td = .i8 := by
  rw [h4] at h
  exact beq_iff_eq.1 h

/-! The limits of the block-scaling forms on their types (R179 to R181). -/

theorem bscl_wf {h : Hd} {d : SReg} {a : VReg} {td ts : ETy} {ce i4 : Bool} (hwf : (Instr.bscl h d a td ts ce i4).wf = true) :
    td.blkNarrow = true ∧ ts.blkWide = true ∧ (i4 = true → td = .i8) := by
  have hlimits : (td.blkNarrow && ts.blkWide && (!ce || td != .t2) && (!i4 || td == .i8) && decide (a.val + blkRegs ts ≤ 64)) = true := hwf
  simp only [Bool.and_eq_true] at hlimits
  obtain ⟨⟨⟨⟨hn, hw⟩, -⟩, hi⟩, -⟩ := hlimits
  exact ⟨hn, hw, int4_of_limit hi⟩

theorem bqnt_wf {h : Hd} {d a : VReg} {b : SReg} {td ts : ETy} {ofn i4 : Bool} {rnd : Rnd}
    (hwf : (Instr.bqnt h d a b td ts ofn i4 rnd).wf = true) : td.blkNarrow = true ∧ ts.blkWide = true ∧ (i4 = true → td = .i8) := by
  have hlimits : (td.blkNarrow && ts.blkWide && (!i4 || td == .i8) && decide (a.val + blkRegs ts ≤ 64)) = true := hwf
  simp only [Bool.and_eq_true] at hlimits
  obtain ⟨⟨⟨hn, hw⟩, hi⟩, -⟩ := hlimits
  exact ⟨hn, hw, int4_of_limit hi⟩

theorem bdeq_wf {h : Hd} {d a : VReg} {b : SReg} {td ts : ETy} {i4 : Bool} {rnd : Rnd}
    (hwf : (Instr.bdeq h d a b td ts i4 rnd).wf = true) : td.blkWide = true := by
  have hlimits : (ts.blkNarrow && td.blkWide && (!i4 || ts == .i8) && decide (d.val + blkRegs td ≤ 64)) = true := hwf
  simp only [Bool.and_eq_true] at hlimits
  obtain ⟨⟨⟨-, hw⟩, -⟩, -⟩ := hlimits
  exact hw

theorem blkMaxf2_pos (td : ETy) (i4 : Bool) : 0 < blkMaxf2 td i4 := by
  cases td <;> cases i4 <;> decide

theorem blockScaling : Claims.BlockScaling := by
  intro s h d a sd b td ts ce ofn i4 rnd ha value on code mag emax maxf finite sum scale quot narrow
  have hvalue (hw : ts.blkWide = true) (l j : Nat) : value l j = some (s.wideValue ts a l j) := by
    obtain ⟨f, hf⟩ := blkWide_fmt hw
    dsimp only [value]
    rw [wideValue_fmt hf, readNum_fmt hf]
  have hmag (hw : ts.blkWide = true) (l j : Nat) : mag l j = (s.wideValue ts a l j).mag := by
    dsimp only [mag]
    rw [hvalue hw]
    cases s.wideValue ts a l j <;> rfl
  refine ⟨fun hwf => ?_, fun hwf => ?_, fun hwf => bdeq_lands ha (bdeq_wf hwf)⟩
  · obtain ⟨-, hw, hi4⟩ := bscl_wf hwf
    obtain ⟨f, hf⟩ := blkWide_fmt hw
    have hemax : blkEmax td i4 = emax := by
      cases i4 with
      | true => rw [hi4 rfl]; rfl
      | false => dsimp only [emax]; cases td <;> rfl
    have hmaxf : (blkMaxf2 td i4 : ℚ) / 2 = maxf := by
      cases i4 with
      | true => rw [hi4 rfl]; norm_num [blkMaxf2, maxf]
      | false => dsimp only [maxf]; cases td <;> norm_num [blkMaxf2]
    have hfin (hfinite : finite) : ∀ v ∈ s.blockValues h ts a, ∃ g n d, v = .fin g n d := by
      intro v hv
      obtain ⟨l, j, hl, hj, rfl⟩ := mem_blockValues.1 hv
      obtain ⟨g, n, m, he⟩ := hfinite l j hl hj
      exact ⟨g, n, m, Option.some.inj ((hvalue hw l j).symm.trans he)⟩
    have hden (hfinite : finite) : ∀ v ∈ s.blockValues h ts a, v.frac.2 = 2 ^ (f.bias + f.man) :=
      fun v hv => blockValues_den hf hv (hfin hfinite v hv)
    have hnat : (BitVec.ofNat 64 (blockScale td ce i4 (s.blockValues h ts a))).toNat = blockScale td ce i4 (s.blockValues h ts a) :=
      Nat.mod_eq_of_lt (blockScale_lt td ce i4 _)
    refine ⟨_, bscl_lands ha, ?_, ?_, ?_, ?_⟩
    · rintro ⟨l, j, hl, hj, hne⟩
      rw [blockScale_none ⟨_, mem_blockValues.2 ⟨l, j, hl, hj, rfl⟩, fun g n m he => hne g n m ((hvalue hw l j).trans (congrArg some he))⟩]
      split <;> rfl
    · intro hfinite htd
      have hsum : sum = ((s.blockValues h ts a).map Ext.mag).sum := by
        rw [sum_blockValues]
        simp only [← hmag hw]
        rfl
      refine ⟨_, _, ?_, ?_, hnat.trans (blockScale_t2 htd (hfin hfinite))⟩
      · rw [head_den (blockValues_ne_nil ha) (hden hfinite)]
        positivity
      · rw [head_den (blockValues_ne_nil ha) (hden hfinite), hsum, sum_mag (hden hfinite), Nat.cast_mul, ← div_div]
        rfl
    · intro htd hzero
      have hz : ∀ v ∈ s.blockValues h ts a, ∃ g d, v = .fin g 0 d := by
        intro v hv
        obtain ⟨l, j, hl, hj, rfl⟩ := mem_blockValues.1 hv
        obtain ⟨g, n, he⟩ := hzero l j hl hj
        exact ⟨g, n, Option.some.inj ((hvalue hw l j).symm.trans he)⟩
      rw [blockScale_zero htd hz]
    · intro hfinite htd l j hl hj hpos hmax
      rw [hmag hw] at hpos
      obtain ⟨e, he, hbound⟩ := blockScale_largest (ce := ce) (i4 := i4) htd (hfin hfinite) (Nat.two_pow_pos _) (hden hfinite)
        (mem_blockValues.2 ⟨l, j, hl, hj, rfl⟩) hpos (fun w hw' => by
          obtain ⟨m, i, hm, hi, rfl⟩ := mem_blockValues.1 hw'
          rw [← hmag hw, ← hmag hw]
          exact hmax m i hm hi) (blkMaxf2_pos td i4)
      rw [hemax, hmaxf] at hbound
      refine ⟨e, by rw [hnat]; exact he, ?_⟩
      rw [hmag hw]
      exact hbound
  · obtain ⟨hn, hw, hi4⟩ := bqnt_wf hwf
    obtain ⟨r, hl, hlanes⟩ := bqnt_lands (d := d) (a := a) (b := b) (ts := ts) (ofn := ofn) (rnd := rnd) ha hn hi4
    refine ⟨r, hl, fun l hl => ⟨(hlanes l hl).1, fun j hj => ?_⟩⟩
    have hq := (hlanes l hl).2 j hj
    have hscale (hc : td = .t2 ∨ code ≠ 255) : scaleOf td (s.s b).toNat = scale := by
      dsimp only [scale]
      unfold scaleOf
      split
      · rfl
      · next htd => exact if_neg (hc.resolve_left htd)
    refine ⟨fun htd hcode => ?_, fun htd hsc => ?_, fun hcase g n m hsc hnum x hx => ?_⟩
    · rw [hq, scaleOf, if_neg htd, if_pos hcode]
      rfl
    · rw [hq, hscale (.inl htd)]
      exact quantBits_t2_zero htd hsc
    · obtain rfl : s.wideValue ts a l j = x := Option.some.inj ((hvalue hw l j).symm.trans hx)
      have hquot := mul_recip_fin (g := g) hnum (scaleOf_den ((hscale hcase).trans hsc)) (s.wideValue ts a l j)
      rw [hq, hscale hcase, hsc, quantBits_fin hnum]
      exact congrArg (narrow (drawOf rnd (lane s.me.seeds l) j)) hquot

/-- Settles O16: what is packed at a place is read back there, and every conversion fits its place; a block's scale is the logarithm
of its largest magnitude, or its mean; a wide element is divided by multiplying with the scale's reciprocal. -/
theorem conversionsAndBlockScaling : Obligations.ConversionsAndBlockScaling := ⟨conversionsWriteTheirBits, blockScaling⟩

end Sys2Proof.Machine
end

section
/-! PROOF. The encoding: every form is built from the fields that its encoding fills. -/
namespace Sys2Proof

@[simp] theorem rV_val (n : VReg) : rV n.val = n := by apply Fin.ext; simp [rV]
@[simp] theorem rS_val (n : SReg) : rS n.val = n := by apply Fin.ext; simp [rS]
@[simp] theorem rW_toNat (x : Word) : rW x.toNat = x := by simp [rW]
@[simp] theorem rD_toNat (x : Dword) : rD x.toNat = x := by simp [rD]

@[simp] theorem ITy.ofCode_code (x : ITy) : ITy.ofCode x.code = some x := by cases x <;> rfl
@[simp] theorem FTy.ofCode_code (x : FTy) : FTy.ofCode x.code = some x := by cases x <;> rfl
@[simp] theorem ETy.ofCode_code (x : ETy) : ETy.ofCode x.code = some x := by cases x <;> rfl
@[simp] theorem MTy.ofCode_code (x : MTy) : MTy.ofCode x.code = some x := by cases x <;> rfl
@[simp] theorem Rnd.ofCode_code (x : Rnd) : Rnd.ofCode x.code = some x := by cases x <;> rfl
@[simp] theorem Scope.ofCode_code (x : Scope) : Scope.ofCode x.code = some x := by cases x <;> rfl
@[simp] theorem CC.ofCode_code (x : CC) : CC.ofCode x.code = x := by cases x <;> rfl
@[simp] theorem FCC.ofCode_code (x : FCC) : FCC.ofCode x.code = x := by cases x <;> rfl
@[simp] theorem PFn.ofCode_code (x : PFn) : PFn.ofCode x.code = x := by cases x <;> rfl
@[simp] theorem UFn.ofCode_code (x : UFn) : UFn.ofCode x.code = some x := by cases x <;> rfl
@[simp] theorem LOp.ofCode_code (x : LOp) : LOp.ofCode x.code = some x := by cases x <;> rfl
@[simp] theorem ShVar.ofCode_code (x : ShVar) : ShVar.ofCode x.code = x := by cases x <;> rfl
@[simp] theorem SBin.ofCode_code (x : SBin) : SBin.ofCode x.code = some x := by cases x <;> rfl
@[simp] theorem SpecReg.ofCode_code (x : SpecReg) : SpecReg.ofCode x.code = some x := by cases x <;> rfl
@[simp] theorem IcLevel.ofCode_code (x : IcLevel) : IcLevel.ofCode x.code = some x := by cases x <;> rfl
@[simp] theorem TlbiVar.ofCode_code (x : TlbiVar) : TlbiVar.ofCode x.code = some x := by cases x <;> rfl
@[simp] theorem FenceKind.ofCode_code (x : FenceKind) : FenceKind.ofCode x.code = some x := by cases x <;> rfl
@[simp] theorem AtOp.ofCode_code (x : AtOp) : AtOp.ofCode x.code = some x := by cases x <;> rfl
@[simp] theorem Shape.ofCode_code (x : Shape) : Shape.ofCode x.code = x := by cases x <;> rfl
@[simp] theorem SwRule.ofCode_code (x : SwRule) : SwRule.ofCode x.code = some x := by cases x <;> rfl
@[simp] theorem SwmForm.ofCode_code (x : SwmForm) : SwmForm.ofCode x.code = some x := by cases x <;> rfl

theorem Shape.code_le (x : Shape) : x.code ≤ 2 := by cases x <;> decide
theorem AtOp.code_le (x : AtOp) : x.code ≤ 8 := by cases x <;> decide

/-! ### Flags in one field, one above the other -/

theorem b2n_one (x : Bool) : (b2n x == 1) = x := n2b_b2n x
theorem b2n_mod (x : Bool) : (b2n x % 2 == 1) = x := by cases x <;> rfl
theorem b2n_div (x y : Bool) : ((b2n x + 2 * b2n y) / 2 == 1) = y := by cases x <;> cases y <;> rfl
theorem b2n_div' (x y : Bool) : ((2 * b2n x + b2n y) / 2 == 1) = x := by cases x <;> cases y <;> rfl

/-- The decoder's checks pass the fields of the encoding, and it builds the instruction from them. -/
def Reads (i : Instr) : Prop :=
  (encodeF i).len ∈ lensOf (encodeF i).op ∧ checkSub (encodeF i) = none ∧ build (encodeF i) = some i

@[simp] theorem rB_val (n : Fin 16) : Fin.ofNat 16 n.val = n := by apply Fin.ext; simp
@[simp] theorem rC_val (n : Fin 4) : Fin.ofNat 4 n.val = n := by apply Fin.ext; simp
@[simp] theorem rK_val (n : Fin 256) : Fin.ofNat 256 n.val = n := by apply Fin.ext; simp

/-- How many units an operand b adds to the length code (R108). -/
def OpB.lits : OpB → Nat
  | .v _ | .s _ => 0
  | .lit _ => 1
theorem OpB.lits_cases (b : OpB) : b.lits = 0 ∨ b.lits = 1 := by cases b <;> simp [lits]

@[simp] theorem putB_op (f : Fields) (b : OpB) : (f.putB b).op = f.op := by cases b <;> rfl
@[simp] theorem putB_g (f : Fields) (b : OpB) : (f.putB b).g = f.g := by cases b <;> rfl
@[simp] theorem putB_e (f : Fields) (b : OpB) : (f.putB b).e = f.e := by cases b <;> rfl
@[simp] theorem putB_d (f : Fields) (b : OpB) : (f.putB b).d = f.d := by cases b <;> rfl
@[simp] theorem putB_a (f : Fields) (b : OpB) : (f.putB b).a = f.a := by cases b <;> rfl
@[simp] theorem putB_ty (f : Fields) (b : OpB) : (f.putB b).ty = f.ty := by cases b <;> rfl
@[simp] theorem putB_fs (f : Fields) (b : OpB) : (f.putB b).fs = f.fs := by cases b <;> rfl
@[simp] theorem putB_sub (f : Fields) (b : OpB) : (f.putB b).sub = f.sub := by cases b <;> rfl
@[simp] theorem putB_len (f : Fields) (b : OpB) : (f.putB b).len = f.len + b.lits := by cases b <;> rfl

@[simp] theorem hasLit_zero : hasLit 0 = false := by decide
@[simp] theorem hasLit_two : hasLit 2 = false := by decide
theorem hasLit_succ {n : Nat} (h : hasLit n = false) : hasLit (n + 1) = true := by
  simp only [hasLit, beq_eq_false_iff_ne, beq_iff_eq] at h ⊢
  omega

/-- Operand b is read back where the form brings no literal of its own. -/
@[simp] theorem getB_putB (f : Fields) (b : OpB) (hl : hasLit f.len = false) (hk : f.bk = 0) : (f.putB b).getB = b := by
  cases b with
  | v n => simp [Fields.putB, Fields.getB, hl, hk]
  | s n => simp [Fields.putB, Fields.getB, hl]
  | lit x =>
    simp [Fields.putB, Fields.getB, hasLit_succ hl]

@[simp] theorem vaF_op (x : VA) (op len : Nat) : (vaF x op len).op = op := by simp [vaF, hdF]
@[simp] theorem vaF_sub (x : VA) (op len : Nat) : (vaF x op len).sub = 0 := by simp [vaF, hdF]
@[simp] theorem vaF_fs (x : VA) (op len : Nat) : (vaF x op len).fs = 0 := by simp [vaF, hdF]
@[simp] theorem vaF_len (x : VA) (op len : Nat) : (vaF x op len).len = len + x.b.lits := putB_len _ _
@[simp] theorem vaF_va (x : VA) (op : Nat) {len : Nat} (hl : hasLit len = false) : (vaF x op len).va = x := by
  obtain ⟨h, d, a, b⟩ := x
  simp [vaF, Fields.va, Fields.hd, hdF, hl]
/-- The operands of a two-source form do not depend on the fields of words 1 and 2. -/
theorem va_mk (f : Fields) (op c tok ty rnd scope sat rel acq fs sub imm : Nat) {len : Nat} (hl : len = f.len) :
   (Fields.mk len f.e op f.g f.d f.a f.b f.bk c tok ty rnd scope sat rel acq fs sub imm f.lit).va = f.va := by subst hl; rfl

theorem cond_div (c : Nat) (p : PReg) : (8 * c + p.val) / 8 = c := by omega
theorem cond_reg (c : Nat) (p : PReg) : rP (8 * c + p.val) = p := by apply Fin.ext; simp [rP]

/-! ### Control -/

theorem reads_flow (h : Hd) :
    Reads (.nop h) ∧ (∀ x, Reads (.bra h x)) ∧ (∀ x y, Reads (.brp h x y)) ∧ (∀ a, Reads (.brx h a))
    ∧ (∀ d x l j, Reads (.call h d j x l)) ∧ (∀ b d l j, Reads (.callx h b d j l)) ∧ Reads (.ret h)
    ∧ (∀ k, Reads (.join h k)) ∧ (∀ n, Reads (.barw h n)) ∧ (∀ n, Reads (.bara h n)) ∧ Reads (.yield h) ∧ Reads (.exit h)
    ∧ (∀ n, Reads (.pause h n)) ∧ (∀ k j, Reads (.tw h k j)) ∧ (∀ j, Reads (.trap h j)) ∧ Reads (.rft h)
    ∧ (∀ j, Reads (.brk h j)) := by
  simp only [Reads]
  and_intros <;> intros <;> simp [encodeF, hdF, lensOf, checkSub, subOk, build, buildControl, Fields.hd]

/-- The domain bit of `tlbi` in SCOPE (R148). -/
theorem dom_scope (dom : Bool) : (4 + b2n dom == 5) = dom := by cases dom <;> rfl

theorem reads_system (h : Hd) :
    (∀ r j, Reads (.sget h r j)) ∧ (∀ r a, Reads (.sput h r a)) ∧ (∀ a lvl x, Reads (.icpre h lvl a x))
    ∧ (∀ a lvl x, Reads (.icpin h lvl a x)) ∧ (∀ a lvl x, Reads (.icfree h lvl a x))
    ∧ (∀ a d x k, Reads (.stkspill h d a x k)) ∧ (∀ a d x k, Reads (.stkfill h d a x k)) ∧ (∀ a d k, Reads (.ctxsv h d a k))
    ∧ (∀ a, Reads (.ctxld h a)) ∧ (∀ a b k v dom, Reads (.tlbi h v dom a b k)) := by
  simp only [Reads]
  and_intros <;> intros <;> simp [-beq_eq_false_iff_ne, -beq_iff_eq, encodeF, hdF, lensOf, checkSub, subOk, build,
    buildControl, Fields.hd, dom_scope]

theorem reads_va (x : VA) :
    Reads (.add x) ∧ Reads (.sub x) ∧ Reads (.mul x) ∧ Reads (.mulh x) ∧ Reads (.min x) ∧ Reads (.max x) ∧ Reads (.and x)
    ∧ Reads (.or x) ∧ Reads (.xor x) ∧ Reads (.shl x) ∧ Reads (.shr x) ∧ Reads (.sra x) ∧ Reads (.rot x) ∧ Reads (.shfl x) := by
  simp only [Reads]
  rcases x.b.lits_cases with hb | hb <;> and_intros <;> simp [encodeF, lensOf, checkSub, subOk, build, buildInteger, hb]

theorem reads_va_float (x : VA) :
    Reads (.fadd x) ∧ Reads (.fsub x) ∧ Reads (.fmul x) ∧ Reads (.fmin x) ∧ Reads (.fmax x)
    ∧ (∀ ty lo rnd, Reads (.faddX x ty lo rnd)) ∧ (∀ ty lo rnd, Reads (.fsubX x ty lo rnd))
    ∧ (∀ ty lo rnd, Reads (.fmulX x ty lo rnd)) ∧ (∀ ty lo rnd c, Reads (.ffma x ty lo rnd c))
    ∧ (∀ ty lo, Reads (.fminX x ty lo)) ∧ (∀ ty lo, Reads (.fmaxX x ty lo)) := by
  simp only [Reads]
  rcases x.b.lits_cases with hb | hb <;> and_intros <;> intros <;> simp [encodeF, lensOf, checkSub, subOk, build, buildFloat,
    va_mk, hb]

theorem reads_va_typed (x : VA) :
    (∀ ty sat, Reads (.mulX x ty sat)) ∧ (∀ ty, Reads (.mulhX x ty)) ∧ (∀ ty sat c, Reads (.mad x ty sat c))
    ∧ (∀ sat sg c, Reads (.dpb x sg sat c)) ∧ (∀ ty, Reads (.minX x ty)) ∧ (∀ ty, Reads (.maxX x ty))
    ∧ (∀ ty sat k, Reads (.div x ty sat k)) ∧ (∀ ty k, Reads (.rem x ty k)) ∧ (∀ ty, Reads (.andX x ty))
    ∧ (∀ ty, Reads (.orX x ty)) ∧ (∀ ty, Reads (.xorX x ty)) ∧ (∀ ty, Reads (.shlX x ty)) ∧ (∀ ty, Reads (.shrX x ty))
    ∧ (∀ ty, Reads (.sraX x ty)) ∧ (∀ ty, Reads (.rotX x ty)) ∧ (∀ ty, Reads (.bfx x ty)) ∧ (∀ ty c, Reads (.bfi x ty c))
    ∧ (∀ p, Reads (.sel x p)) ∧ (∀ v, Reads (.shflX x v)) := by
  simp only [Reads]
  rcases x.b.lits_cases with hb | hb <;> and_intros <;> intros <;>
    simp [encodeF, lensOf, checkSub, subOk, build, buildInteger, va_mk, hb]

theorem reads_carry (x : VA) (ty : ITy) (sat : Bool) (cv : Carry) :
    Reads (.addX x ty sat cv) ∧ Reads (.subX x ty sat cv) := by
  simp only [Reads]
  cases cv <;> rcases x.b.lits_cases with hb | hb <;> and_intros <;>
    simp [encodeF, lensOf, checkSub, subOk, build, buildInteger, va_mk, hb, Fields.putCarry, Fields.carry]

theorem reads_unary (x : U) :
    Reads (.abs x) ∧ (∀ ty sat, Reads (.absX x ty sat)) ∧ Reads (.neg x) ∧ (∀ ty sat, Reads (.negX x ty sat))
    ∧ Reads (.not x) ∧ (∀ ty, Reads (.notX x ty)) ∧ Reads (.popc x) ∧ (∀ ty, Reads (.popcX x ty)) ∧ Reads (.clz x)
    ∧ (∀ ty, Reads (.clzX x ty)) ∧ Reads (.brev x) ∧ (∀ ty, Reads (.brevX x ty)) := by
  simp only [Reads]
  and_intros <;> intros <;> simp [encodeF, lensOf, checkSub, subOk, build, buildInteger, buildUnary, uF, Fields.u, hdF, Fields.hd]

theorem reads_cond (h : Hd) (b : OpB) :
    (∀ cc p a, Reads (.cmp h cc p a b)) ∧ (∀ cc p a ty, Reads (.cmpX h cc p a b ty))
    ∧ (∀ fcc p a, Reads (.fcmp h fcc p a b)) ∧ (∀ fcc p a fty lo, Reads (.fcmpX h fcc p a b fty lo))
    ∧ (∀ d, Reads (.mov h d b)) := by
  simp only [Reads]
  rcases b.lits_cases with hb | hb <;> and_intros <;> intros <;>
    simp [encodeF, lensOf, checkSub, subOk, build, buildInteger, buildFloat, hdF, Fields.va, Fields.hd, cond_div, cond_reg, hb]

theorem reads_lanes (h : Hd) :
    (∀ f p q r, Reads (.plog h f p q r)) ∧ (∀ x d, Reads (.movl h d x)) ∧ (∀ d s, Reads (.movs h d s))
    ∧ (∀ p q, Reads (.vote h p q)) ∧ (∀ a d op, Reads (.lred h op d a)) ∧ (∀ a d op, Reads (.lscan h op d a))
    ∧ (∀ a d op ty sat excl, Reads (.lscanX h op ty sat excl d a)) := by
  simp only [Reads]
  and_intros <;> intros <;> simp [encodeF, hdF, lensOf, checkSub, subOk, build, buildInteger, Fields.va, Fields.hd, cond_div,
    cond_reg]

theorem reads_movX (h : Hd) (m : MovX) : Reads (.movX h m) := by
  cases m with
  | vec d b | vp p b =>
    rcases b.lits_cases with hb | hb <;>
      simp [Reads, encodeF, movXF, hdF, lensOf, checkSub, subOk, build, buildInteger, Fields.va, Fields.hd, Fields.movX, hb]
  | pv d p => simp [Reads, encodeF, movXF, hdF, lensOf, checkSub, subOk, build, buildInteger, Fields.va, Fields.hd, Fields.movX]

theorem reads_movsX (h : Hd) (m : MovsX) : Reads (.movsX h m) := by
  cases m <;> simp [Reads, encodeF, movsXF, hdF, lensOf, checkSub, subOk, build, buildInteger, Fields.va, Fields.hd, Fields.movsX]

theorem reads_voteX (h : Hd) (m : VoteX) : Reads (.voteX h m) := by
  cases m <;> simp [Reads, encodeF, voteXF, hdF, lensOf, checkSub, subOk, build, buildInteger, Fields.va, Fields.hd, Fields.voteX]

theorem reads_lredX (h : Hd) (op : LOp) (ty : ITy) (sat : Bool) (dst : LDst) (a : VReg) : Reads (.lredX h op ty sat dst a) := by
  cases dst <;> simp [Reads, encodeF, lredXF, hdF, lensOf, checkSub, subOk, build, buildInteger, Fields.va, Fields.hd,
    Fields.ldst]

/-! ### The scalar forms -/

/-- How many units an operand b of a scalar form adds to the length code (R108). -/
def SB.lits : SB → Nat
  | .s _ => 0
  | .lit _ => 1
theorem SB.lits_cases (b : SB) : b.lits = 0 ∨ b.lits = 1 := by cases b <;> simp [lits]
@[simp] theorem putSB_op (f : Fields) (b : SB) : (f.putSB b).op = f.op := by cases b <;> rfl
@[simp] theorem putSB_g (f : Fields) (b : SB) : (f.putSB b).g = f.g := by cases b <;> rfl
@[simp] theorem putSB_e (f : Fields) (b : SB) : (f.putSB b).e = f.e := by cases b <;> rfl
@[simp] theorem putSB_d (f : Fields) (b : SB) : (f.putSB b).d = f.d := by cases b <;> rfl
@[simp] theorem putSB_a (f : Fields) (b : SB) : (f.putSB b).a = f.a := by cases b <;> rfl
@[simp] theorem putSB_c (f : Fields) (b : SB) : (f.putSB b).c = f.c := by cases b <;> rfl
@[simp] theorem putSB_tok (f : Fields) (b : SB) : (f.putSB b).tok = f.tok := by cases b <;> rfl
@[simp] theorem putSB_ty (f : Fields) (b : SB) : (f.putSB b).ty = f.ty := by cases b <;> rfl
@[simp] theorem putSB_sat (f : Fields) (b : SB) : (f.putSB b).sat = f.sat := by cases b <;> rfl
@[simp] theorem putSB_fs (f : Fields) (b : SB) : (f.putSB b).fs = f.fs := by cases b <;> rfl
@[simp] theorem putSB_sub (f : Fields) (b : SB) : (f.putSB b).sub = f.sub := by cases b <;> rfl
@[simp] theorem putSB_len (f : Fields) (b : SB) : (f.putSB b).len = f.len + b.lits := by cases b <;> rfl
@[simp] theorem getSB_putSB (f : Fields) (b : SB) (hl : hasLit f.len = false) : (f.putSB b).getSB = b := by
  cases b with
  | s n => simp [Fields.putSB, Fields.getSB, hl]
  | lit x =>
    simp [Fields.putSB, Fields.getSB, hasLit_succ hl]

theorem reads_scalarCarry (h : Hd) (ty : ITy) (b : SB) (sat : Bool) (cv : Carry) :
    (∀ d a, Reads (.scalarForm h ty (.add d a b sat cv))) ∧ (∀ d a, Reads (.scalarForm h ty (.sub d a b sat cv))) := by
  cases cv <;> rcases b.lits_cases with hb | hb <;> and_intros <;> intros <;>
    simp [Reads, encodeF, sopF, hdF, lensOf, checkSub, subOk, build, buildInteger, Fields.va, Fields.hd, Fields.sop,
      Fields.putCarry, Fields.carry, hb]

theorem reads_scalarBin (h : Hd) (ty : ITy) (op : SBin) (d a : SReg) (b : SB) : Reads (.scalarForm h ty (.bin op d a b)) := by
  cases op <;> rcases b.lits_cases with hb | hb <;>
    simp [Reads, encodeF, sopF, hdF, lensOf, checkSub, subOk, build, buildInteger, Fields.va, Fields.hd, Fields.sop,
      SBin.code, SBin.ofCode, hb]

theorem reads_scalarUn (h : Hd) (ty : ITy) (fn : UFn) (d a : SReg) (sat : Bool) (lit : Option Dword) :
    Reads (.scalarForm h ty (.un fn d a sat lit)) := by
  have hfn : fn.code ≤ 5 := Nat.le_of_lt_succ fn.code_lt
  cases lit <;> simp [Reads, encodeF, sopF, hdF, lensOf, checkSub, subOk, build, buildInteger, Fields.va, Fields.hd, Fields.sop,
    hasLit, hfn]

theorem reads_scalarForm (h : Hd) (ty : ITy) (op : SOp) : Reads (.scalarForm h ty op) := by
  cases op with
  | add d a b sat cv => exact (reads_scalarCarry h ty b sat cv).1 d a
  | sub d a b sat cv => exact (reads_scalarCarry h ty b sat cv).2 d a
  | bin op d a b => exact reads_scalarBin h ty op d a b
  | un fn d a sat lit => exact reads_scalarUn h ty fn d a sat lit
  | mul d a b | mad d a b | bfi d a b | div d a b | rem d a b | cmp cc p a b | mov d b =>
    rcases b.lits_cases with hb | hb <;>
      simp [Reads, encodeF, sopF, hdF, lensOf, checkSub, subOk, build, buildInteger, Fields.va, Fields.hd, Fields.sop,
        cond_div, cond_reg, hb]

/-! ### The forms on numbers

Two element types share word 2 with what stands above them (R105). -/

theorem ts_tyPair (td ts : ETy) (n m : Nat) : ETy.ofCode ((tyPair td ts + 1024 * n + 65536 * m) % 32) = some ts := by
  have hts := ts.code_lt
  have h : (tyPair td ts + 1024 * n + 65536 * m) % 32 = ts.code := by unfold tyPair; omega
  rw [h, ETy.ofCode_code]
theorem td_tyPair (td ts : ETy) (n m : Nat) : ETy.ofCode ((tyPair td ts + 1024 * n + 65536 * m) / 32 % 32) = some td := by
  have hts := ts.code_lt
  have htd := td.code_lt
  have h : (tyPair td ts + 1024 * n + 65536 * m) / 32 % 32 = td.code := by unfold tyPair; omega
  rw [h, ETy.ofCode_code]
theorem tyPair_lt (td ts : ETy) : tyPair td ts < 1024 := by
  have hts := ts.code_lt
  have htd := td.code_lt
  unfold tyPair; omega
theorem tyPair_sel (td ts : ETy) (se : Fin 8) : rP ((tyPair td ts + 1024 * se.val) / 1024) = se := by
  have h := tyPair_lt td ts
  apply Fin.ext; simp [rP]; omega
theorem tyPair_offset (td ts : ETy) (o : Fin 64) (m : Nat) : rV ((tyPair td ts + 1024 * o.val + 65536 * m) / 1024) = o := by
  have h := tyPair_lt td ts
  apply Fin.ext; simp [rV]; omega
theorem tyPair_count (td ts : ETy) (o : Fin 64) (k : Fin 32) :
    rS ((tyPair td ts + 1024 * o.val + 65536 * k.val) / 65536) = k := by
  have h := tyPair_lt td ts
  apply Fin.ext; simp [rS]; omega

theorem reads_special (x : U) :
    Reads (.frcp x) ∧ (∀ rnd, Reads (.frcpX x rnd)) ∧ Reads (.frsq x) ∧ Reads (.frsqX x) ∧ Reads (.fsqrt x)
    ∧ (∀ rnd, Reads (.fsqrtX x rnd)) ∧ Reads (.fex2 x) ∧ Reads (.fex2X x) ∧ Reads (.flg2 x) ∧ Reads (.flg2X x)
    ∧ Reads (.fsin x) ∧ Reads (.fsinX x) ∧ Reads (.fcos x) ∧ Reads (.fcosX x) := by
  simp only [Reads]
  and_intros <;> intros <;> simp [encodeF, lensOf, checkSub, subOk, build, buildFloat, uF, Fields.u, hdF, Fields.hd]

theorem reads_seed (h : Hd) (a : VReg) :
    Reads (.rseed h a) ∧ Reads (.rseedX h a) := by
  simp only [Reads]
  and_intros <;> simp [encodeF, lensOf, checkSub, subOk, build, buildFloat, Fields.u, hdF, Fields.hd]

theorem reads_fcvt (x : U) (td ts : ETy) (se : Fin 8) (ofn sat : Bool) (rnd : Rnd) : Reads (.fcvt x td ts se ofn sat rnd) := by
  have hts := ts_tyPair td ts se 0
  have htd := td_tyPair td ts se 0
  simp only [Nat.mul_zero, Nat.add_zero] at hts htd
  simp [Reads, encodeF, lensOf, checkSub, subOk, build, buildFloat, Fields.u, uF, hdF, Fields.hd, Fields.ts, Fields.td, hts, htd,
    tyPair_sel]

theorem reads_pack (x : U) (td ts : ETy) (o : Fin 64) (k : Fin 32) (rnd : Rnd) :
    Reads (.fpk x td ts o k rnd) ∧ Reads (.funpk x td ts o k rnd) := by
  simp only [Reads]
  and_intros <;> simp [encodeF, lensOf, checkSub, subOk, build, buildFloat, Fields.u, uF, hdF, Fields.hd, Fields.ts, Fields.td,
    ts_tyPair, td_tyPair, tyPair_offset, tyPair_count]

theorem reads_block (h : Hd) (a : VReg) (td ts : ETy) (i4 : Bool) :
    (∀ d ce, Reads (.bscl h d a td ts ce i4)) ∧ (∀ d b ofn rnd, Reads (.bqnt h d a b td ts ofn i4 rnd))
    ∧ (∀ d b rnd, Reads (.bdeq h d a b td ts i4 rnd)) := by
  have hts := ts_tyPair td ts 0 0
  have htd := td_tyPair td ts 0 0
  simp only [Nat.mul_zero, Nat.add_zero] at hts htd
  simp only [Reads]
  and_intros <;> intros <;> simp [-beq_eq_false_iff_ne, -beq_iff_eq, encodeF, lensOf, checkSub, subOk, build, buildFloat,
    Fields.u, hdF, Fields.hd, Fields.ts, Fields.td, hts, htd, b2n_mod, b2n_one, b2n_div]

@[simp] theorem rN_val (n : Fin 128) : Fin.ofNat 128 n.val = n := by apply Fin.ext; simp

/-! ### The accesses

The index of the address, and an acquire or release or none, decide which fields are written. -/

theorem reads_load (h : Hd) (m : Addr) (ty : MTy) (d : Fin 64) (acq : Option Scope) (k : Tok) :
    (∀ sh, Reads (.ld h m sh ty d acq k)) ∧ (∀ sh live, Reads (.ldg h m sh ty d acq k live))
    ∧ (∀ live, Reads (.lrg h m ty d acq k live)) := by
  obtain ⟨r, idx, off⟩ := m
  simp only [Reads]
  cases idx <;> cases acq <;> and_intros <;> intros <;> simp [-beq_eq_false_iff_ne, -beq_iff_eq, encodeF, hdF, lensOf, checkSub,
    subOk, build, buildMemory, Fields.hd, Fields.putAddr, Fields.addr, Fields.putAcq, Fields.getAcq, Shape.code_le, b2n_mod,
      b2n_div']

theorem reads_store (h : Hd) (m : Addr) (ty : MTy) (c : Fin 64) (rel : Option Scope) :
    (∀ sh k, Reads (.st h m sh ty c rel k)) ∧ (∀ sh k live, Reads (.stg h m sh ty c rel k live))
    ∧ Reads (.stp h m ty c rel) := by
  obtain ⟨r, idx, off⟩ := m
  simp only [Reads]
  cases idx <;> cases rel <;> and_intros <;> intros <;> simp [-beq_eq_false_iff_ne, -beq_iff_eq, encodeF, hdF, lensOf, checkSub,
    subOk, build, buildMemory, Fields.hd, Fields.putAddr, Fields.addr, Fields.putRel, Fields.getRel, Shape.code_le, b2n_mod,
      b2n_div']

theorem reads_atomic (h : Hd) (m : Addr) (ty : MTy) (d c : VReg) (o : Ord) (k : Tok) (live : Dword) :
    (∀ op sat, Reads (.atg h m op ty sat d c o k live)) ∧ Reads (.scg h m ty d c o k live) := by
  obtain ⟨r, idx, off⟩ := m
  simp only [Reads]
  cases idx <;> and_intros <;> intros <;> simp [-beq_eq_false_iff_ne, -beq_iff_eq, encodeF, hdF, lensOf, checkSub,
    subOk, build, buildMemory, Fields.hd, Fields.putAddr, Fields.addr, Fields.putOrd, Fields.getOrd, AtOp.code_le, b2n_mod,
      b2n_div']

/-- `swap` and `cas` give a value back, which a post does not (R219). -/
theorem reads_atp (h : Hd) (m : Addr) (op : AtOp) (ty : MTy) (sat : Bool) (c : VReg) (rel : Option Scope)
    (hswap : op ≠ .swap) (hcas : op ≠ .cas) : Reads (.atp h m op ty sat c rel) := by
  have hsub : subOk 0x60 op.code = true := by cases op <;> simp_all [AtOp.code, subOk]
  obtain ⟨r, idx, off⟩ := m
  cases idx <;> cases rel <;> simp [-beq_eq_false_iff_ne, -beq_iff_eq, Reads, encodeF, hdF, lensOf, checkSub, hsub, build,
    buildMemory, Fields.hd, Fields.putAddr, Fields.addr, Fields.putRel, Fields.getRel, b2n_mod, b2n_div']

theorem reads_compressed (h : Hd) (a b : SReg) (ty : MTy) (n : Word) (sc : Option Scope) (k : Tok) :
    (∀ d, Reads (.ldz h d a b ty n sc k)) ∧ (∀ d c, Reads (.stz h d a b c ty n sc k)) := by
  simp only [Reads]
  cases sc <;> and_intros <;> intros <;> simp [encodeF, hdF, lensOf, checkSub, subOk, build, buildMemory, Fields.hd,
    Fields.putAcq,
    Fields.getAcq, Fields.putRel, Fields.getRel]

theorem reads_objects (h : Hd) :
    (∀ f sc, Reads (.fence h f sc)) ∧ Reads (.pfence h) ∧ (∀ sc d a b k, Reads (.cpkt h sc d a b k))
    ∧ (∀ a b k n, Reads (.binit h a b n k)) ∧ (∀ sc a b k arv, Reads (.bexp h arv sc a b k))
    ∧ (∀ sc a k n, Reads (.barv h sc a n k)) ∧ (∀ sc d a k w1 acq, Reads (.bobs h w1 acq sc d a k)) := by
  simp only [Reads]
  and_intros <;> intros <;> simp [encodeF, hdF, lensOf, checkSub, subOk, build, buildMemory, Fields.hd]

theorem reads_bwt (h : Hd) (sc : Scope) (a b : SReg) (cont : Option Word) : Reads (.bwt h sc a b cont) := by
  cases cont <;> simp [Reads, encodeF, bwtF, hdF, lensOf, checkSub, subOk, build, buildMemory, Fields.hd]

theorem reads_multiply (h : Hd) :
    (∀ x, Reads (.palLiteral h x)) ∧ (∀ a, Reads (.palRegister h a)) ∧ (∀ a, Reads (.palr h a))
    ∧ (∀ a t v c ks off k, Reads (.mma h t v a ks c off k)) ∧ (∀ a t v c off k, Reads (.mmab h t v a c off k))
    ∧ (∀ a t v c ks off k, Reads (.mmas h t v a ks c off k)) ∧ (∀ a t v ks off k, Reads (.mmag h t v a ks off k)) := by
  simp only [Reads]
  and_intros <;> intros <;> simp [encodeF, hdF, lensOf, checkSub, subOk, build, buildMatrix, Fields.hd, hasLit]

theorem j0_colsF (j0 : Fin 64) (n : Fin 128) (x : Nat) : Fin.ofNat 64 ((colsF j0 n + 65536 * x) % 64) = j0 := by
  apply Fin.ext; simp [colsF]; omega
theorem n1_colsF (j0 : Fin 64) (n : Fin 128) (x : Nat) : Fin.ofNat 128 ((colsF j0 n + 65536 * x) / 64 % 128) = n := by
  apply Fin.ext; simp [colsF]; omega
theorem stride_colsF (j0 : Fin 64) (n : Fin 128) (x : BitVec 16) : BitVec.ofNat 16 ((colsF j0 n + 65536 * x.toNat) / 65536) = x
  := by
  have h : (colsF j0 n + 65536 * x.toNat) / 65536 = x.toNat := by unfold colsF; omega
  rw [h, BitVec.ofNat_toNat, BitVec.setWidth_eq]

theorem reads_flags (h : Hd) (t : TileNo) (k : Tok) : (∀ all, Reads (.accz h all t k)) ∧ (∀ d, Reads (.accst h d t k)) := by
  simp only [Reads]
  and_intros <;> intros <;> simp [encodeF, hdF, lensOf, checkSub, subOk, build, buildMatrix, Fields.hd]

theorem reads_columns (h : Hd) (t : TileNo) (j0 : Fin 64) (n : Fin 128) (k : Tok) :
    (∀ d, Reads (.accrd h d t j0 n k)) ∧ (∀ a, Reads (.accwr h t a j0 n k)) ∧ Reads (.swx h t j0 n k) := by
  have hj := j0_colsF j0 n 0
  have hn := n1_colsF j0 n 0
  rw [Nat.mul_zero, Nat.add_zero] at hj hn
  simp only [Reads]
  and_intros <;> intros <;> simp [-Fin.ofNat_eq_cast, encodeF, hdF, lensOf, checkSub, subOk, build, buildMatrix, Fields.hd,
    Fields.j0, Fields.n1, hj, hn]

theorem reads_drq (h : Hd) (dst : DrDst) (t : TileNo) (b : SReg) (c : VReg) (uns : Bool) (j0 : Fin 64) (n : Fin 128) (k : Tok) :
    Reads (.drq h dst t b c uns j0 n k) := by
  have huns : ((if uns = true then 5 else 1) == 5) = uns := by cases uns <;> rfl
  have hj := j0_colsF j0 n 0
  have hn := n1_colsF j0 n 0
  rw [Nat.mul_zero, Nat.add_zero] at hj hn
  cases dst <;> simp [-beq_eq_false_iff_ne, -beq_iff_eq, -Fin.ofNat_eq_cast, Reads, encodeF, hdF, lensOf, checkSub, subOk, build,
    buildMatrix, Fields.hd, Fields.j0, Fields.n1, Fields.putDr, Fields.dr, hj, hn, j0_colsF, n1_colsF, stride_colsF, huns]

theorem reads_drf (h : Hd) (dst : DrDst) (t : TileNo) (ty : MTy) (sat ofn : Bool) (j0 : Fin 64) (n : Fin 128) (k : Tok) :
    Reads (.drf h dst t ty sat ofn j0 n k) := by
  have hj := j0_colsF j0 n 0
  have hn := n1_colsF j0 n 0
  rw [Nat.mul_zero, Nat.add_zero] at hj hn
  have hodd : (2 * b2n ofn + 1) % 2 = 1 := by omega
  have hofn : ((2 * b2n ofn + 1) / 2 == 1) = ofn := by cases ofn <;> rfl
  cases dst <;> simp [-beq_eq_false_iff_ne, -beq_iff_eq, -Fin.ofNat_eq_cast, Reads, encodeF, hdF, lensOf, checkSub, subOk, build,
    buildMatrix, Fields.hd, Fields.j0, Fields.n1, Fields.putDr, Fields.dr, b2n_one, hj, hn, j0_colsF, n1_colsF, stride_colsF,
      hodd,
    hofn]

theorem reads_swc (h : Hd) (rule : SwRule) (a : SReg) (planes width : Fin 16) (k : Tok) :
    Reads (.swc h rule a planes width k) := by
  have hp : Fin.ofNat 16 (planes.val + 16 * width.val) = planes := by apply Fin.ext; simp
  have hw : Fin.ofNat 16 ((planes.val + 16 * width.val) / 16) = width := by apply Fin.ext; simp; omega
  simp [-Fin.ofNat_eq_cast, Reads, encodeF, hdF, lensOf, checkSub, subOk, build, buildMatrix, Fields.hd, hp, hw]

theorem reads_swatch (h : Hd) (k : Tok) : (∀ a b c, Reads (.swh h a b c k)) ∧ Reads (.swb h k) ∧ (∀ form a, Reads (.swm h form
  a k))
    ∧ (∀ a, Reads (.swl h a k)) := by
  simp only [Reads]
  and_intros <;> intros <;> simp [encodeF, hdF, lensOf, checkSub, subOk, build, buildMatrix, Fields.hd]

theorem reads_ranges (h : Hd) :
    (∀ d a b k, Reads (.rgpost h d a b k)) ∧ (∀ d g k, Reads (.rgtake h d g k)) ∧ (∀ d p, Reads (.rgnext h d p))
    ∧ (∀ k, Reads (.rgdone h k)) := by
  simp only [Reads]
  and_intros <;> intros <;> simp [encodeF, hdF, lensOf, checkSub, subOk, build, buildMatrix, Fields.hd]

/-- The decoder accepts the fields that the encoder writes, and builds the instruction from them. -/
theorem reads_of_wf (i : Instr) (hwf : i.wf = true) : Reads i := by
  cases i
  case nop | bra | brp | brx | call | callx | ret | join | barw | bara | yield | exit | pause | tw | trap | rft | brk => simp
    only [reads_flow]
  case sget | sput | icpre | icpin | icfree | stkspill | stkfill | ctxsv | ctxld | tlbi => simp only [reads_system]
  case add | sub | mul | mulh | min | max | and | or | xor | shl | shr | sra | rot | shfl => simp only [reads_va]
  case fadd | fsub | fmul | fmin | fmax | faddX | fsubX | fmulX | ffma | fminX | fmaxX => simp only [reads_va_float]
  case mulX | mulhX | mad | dpb | minX | maxX | div | rem | andX | orX | xorX | shlX | shrX | sraX | rotX | bfx | bfi
      | sel | shflX => simp only [reads_va_typed]
  case addX | subX => simp only [reads_carry]
  case abs | absX | neg | negX | not | notX | popc | popcX | clz | clzX | brev | brevX => simp only [reads_unary]
  case cmp | cmpX | fcmp | fcmpX | mov => simp only [reads_cond]
  case plog | movl | movs | vote | lred | lscan | lscanX => simp only [reads_lanes]
  case movX => simp only [reads_movX]
  case movsX => simp only [reads_movsX]
  case voteX => simp only [reads_voteX]
  case lredX => simp only [reads_lredX]
  case scalarForm => simp only [reads_scalarForm]
  case frcp | frcpX | frsq | frsqX | fsqrt | fsqrtX | fex2 | fex2X | flg2 | flg2X | fsin | fsinX | fcos | fcosX => simp only
    [reads_special]
  case rseed | rseedX => simp only [reads_seed]
  case fcvt => simp only [reads_fcvt]
  case fpk | funpk => simp only [reads_pack]
  case bscl | bqnt | bdeq => simp only [reads_block]
  case ld | ldg | lrg => simp only [reads_load]
  case st | stg | stp => simp only [reads_store]
  case ldz | stz => simp only [reads_compressed]
  case atg | scg => simp only [reads_atomic]
  case fence | pfence | cpkt | binit | bexp | barv | bobs => simp only [reads_objects]
  case bwt => simp only [reads_bwt]
  case palLiteral | palRegister | palr | mma | mmab | mmas | mmag => simp only [reads_multiply]
  case accz | accst => simp only [reads_flags]
  case accrd | accwr | swx => simp only [reads_columns]
  case drq => simp only [reads_drq]
  case drf => simp only [reads_drf]
  case swc => simp only [reads_swc]
  case swh | swb | swm | swl => simp only [reads_swatch]
  case rgpost | rgtake | rgnext | rgdone => simp only [reads_ranges]
  case atp op _ _ _ _ =>
    simp only [Instr.wf, Bool.and_eq_true, bne_iff_ne] at hwf
    obtain ⟨⟨hswap, hcas⟩, -⟩ := hwf
    exact reads_atp _ _ _ _ _ _ _ hswap hcas
  all_goals exact Bool.noConfusion hwf

end Sys2Proof

namespace Sys2Proof.Laws.Fits

/-- The fields of every well-formed instruction are within their bits. -/
theorem of_wf : ∀ i, Statement i
  | .nop _ => nop _ | .bra _ _ => bra _ _ | .brp _ _ _ => brp _ _ _ | .brx _ _ => brx _ _ | .call _ _ _ _ _ => call _ _ _ _ _
  | .callx _ _ _ _ _ => callx _ _ _ _ _ | .ret _ => ret _ | .join _ _ => join _ _ | .barw _ _ => barw _ _
  | .bara _ _ => bara _ _ | .yield _ => yield _ | .exit _ => exit _ | .pause _ _ => pause _ _ | .tw _ _ _ => tw _ _ _
  | .trap _ _ => trap _ _ | .rft _ => rft _ | .brk _ _ => brk _ _ | .sget _ _ _ => sget _ _ _ | .sput _ _ _ => sput _ _ _
  | .icpre _ _ _ _ => icpre _ _ _ _ | .icpin _ _ _ _ => icpin _ _ _ _ | .icfree _ _ _ _ => icfree _ _ _ _
  | .stkspill _ _ _ _ _ => stkspill _ _ _ _ _ | .stkfill _ _ _ _ _ => stkfill _ _ _ _ _ | .ctxsv _ _ _ _ => ctxsv _ _ _ _
  | .ctxld _ _ => ctxld _ _ | .tlbi _ _ _ _ _ _ => tlbi _ _ _ _ _ _ | .add _ => add _ | .addX _ _ _ _ => addX _ _ _ _
  | .sub _ => sub _ | .subX _ _ _ _ => subX _ _ _ _ | .mul _ => mul _ | .mulX _ _ _ => mulX _ _ _ | .mulh _ => mulh _
  | .mulhX _ _ => mulhX _ _ | .mad _ _ _ _ => mad _ _ _ _ | .dpb _ _ _ _ => dpb _ _ _ _ | .min _ => min _
  | .minX _ _ => minX _ _ | .max _ => max _ | .maxX _ _ => maxX _ _ | .abs _ => abs _ | .absX _ _ _ => absX _ _ _
  | .neg _ => neg _ | .negX _ _ _ => negX _ _ _ | .not _ => not _ | .notX _ _ => notX _ _ | .popc _ => popc _
  | .popcX _ _ => popcX _ _ | .clz _ => clz _ | .clzX _ _ => clzX _ _ | .brev _ => brev _ | .brevX _ _ => brevX _ _
  | .div _ _ _ _ => div _ _ _ _ | .rem _ _ _ => rem _ _ _ | .and _ => and _ | .andX _ _ => andX _ _ | .or _ => or _
  | .orX _ _ => orX _ _ | .xor _ => xor _ | .xorX _ _ => xorX _ _ | .shl _ => shl _ | .shlX _ _ => shlX _ _ | .shr _ => shr _
  | .shrX _ _ => shrX _ _ | .sra _ => sra _ | .sraX _ _ => sraX _ _ | .rot _ => rot _ | .rotX _ _ => rotX _ _
  | .bfx _ _ => bfx _ _ | .bfi _ _ _ => bfi _ _ _ | .sel _ _ => sel _ _ | .cmp _ _ _ _ _ => cmp _ _ _ _ _
  | .cmpX _ _ _ _ _ _ => cmpX _ _ _ _ _ _ | .plog _ _ _ _ _ => plog _ _ _ _ _ | .mov _ _ _ => mov _ _ _ | .movX _ _ => movX _ _
  | .movl _ _ _ => movl _ _ _ | .movs _ _ _ => movs _ _ _ | .movsX _ _ => movsX _ _ | .shfl _ => shfl _
  | .shflX _ _ => shflX _ _ | .vote _ _ _ => vote _ _ _ | .voteX _ _ => voteX _ _ | .lred _ _ _ _ => lred _ _ _ _
  | .lredX _ _ _ _ _ _ => lredX _ _ _ _ _ _ | .lscan _ _ _ _ => lscan _ _ _ _ | .lscanX _ _ _ _ _ _ _ => lscanX _ _ _ _ _ _ _
  | .scalarForm _ _ _ => scalarForm _ _ _ | .fadd _ => fadd _ | .faddX _ _ _ _ => faddX _ _ _ _ | .fsub _ => fsub _
  | .fsubX _ _ _ _ => fsubX _ _ _ _ | .fmul _ => fmul _ | .fmulX _ _ _ _ => fmulX _ _ _ _ | .ffma _ _ _ _ _ => ffma _ _ _ _ _
  | .fmin _ => fmin _ | .fminX _ _ _ => fminX _ _ _ | .fmax _ => fmax _ | .fmaxX _ _ _ => fmaxX _ _ _ | .frcp _ => frcp _
  | .frcpX _ _ => frcpX _ _ | .frsq _ => frsq _ | .frsqX _ => frsqX _ | .fsqrt _ => fsqrt _ | .fsqrtX _ _ => fsqrtX _ _
  | .fex2 _ => fex2 _ | .fex2X _ => fex2X _ | .flg2 _ => flg2 _ | .flg2X _ => flg2X _ | .fsin _ => fsin _ | .fsinX _ => fsinX _
  | .fcos _ => fcos _ | .fcosX _ => fcosX _ | .fcmp _ _ _ _ _ => fcmp _ _ _ _ _ | .fcmpX _ _ _ _ _ _ _ => fcmpX _ _ _ _ _ _ _
  | .fcvt _ _ _ _ _ _ _ => fcvt _ _ _ _ _ _ _ | .fpk _ _ _ _ _ _ => fpk _ _ _ _ _ _ | .funpk _ _ _ _ _ _ => funpk _ _ _ _ _ _
  | .bscl _ _ _ _ _ _ _ => bscl _ _ _ _ _ _ _ | .bqnt _ _ _ _ _ _ _ _ _ => bqnt _ _ _ _ _ _ _ _ _
  | .bdeq _ _ _ _ _ _ _ _ => bdeq _ _ _ _ _ _ _ _ | .rseed _ _ => rseed _ _ | .rseedX _ _ => rseedX _ _
  | .ld _ _ _ _ _ _ _ => ld _ _ _ _ _ _ _ | .st _ _ _ _ _ _ _ => st _ _ _ _ _ _ _ | .ldg _ _ _ _ _ _ _ _ => ldg _ _ _ _ _ _ _ _
  | .stg _ _ _ _ _ _ _ _ => stg _ _ _ _ _ _ _ _ | .atg _ _ _ _ _ _ _ _ _ _ => atg _ _ _ _ _ _ _ _ _ _
  | .lrg _ _ _ _ _ _ _ => lrg _ _ _ _ _ _ _ | .scg _ _ _ _ _ _ _ _ => scg _ _ _ _ _ _ _ _ | .stp _ _ _ _ _ => stp _ _ _ _ _
  | .atp _ _ _ _ _ _ _ => atp _ _ _ _ _ _ _ | .ldz _ _ _ _ _ _ _ _ => ldz _ _ _ _ _ _ _ _
  | .stz _ _ _ _ _ _ _ _ _ => stz _ _ _ _ _ _ _ _ _ | .fence _ _ _ => fence _ _ _ | .pfence _ => pfence _
  | .cpkt _ _ _ _ _ _ => cpkt _ _ _ _ _ _ | .binit _ _ _ _ _ => binit _ _ _ _ _ | .bexp _ _ _ _ _ _ => bexp _ _ _ _ _ _
  | .barv _ _ _ _ _ => barv _ _ _ _ _ | .bobs _ _ _ _ _ _ _ => bobs _ _ _ _ _ _ _ | .bwt _ _ _ _ _ => bwt _ _ _ _ _
  | .palLiteral _ _ => palLiteral _ _ | .palRegister _ _ => palRegister _ _ | .palr _ _ => palr _ _
  | .mma _ _ _ _ _ _ _ _ => mma _ _ _ _ _ _ _ _ | .mmab _ _ _ _ _ _ _ => mmab _ _ _ _ _ _ _ | .accz _ _ _ _ => accz _ _ _ _
  | .accrd _ _ _ _ _ _ => accrd _ _ _ _ _ _ | .accwr _ _ _ _ _ _ => accwr _ _ _ _ _ _ | .accst _ _ _ _ => accst _ _ _ _
  | .drq _ _ _ _ _ _ _ _ _ => drq _ _ _ _ _ _ _ _ _ | .drf _ _ _ _ _ _ _ _ _ => drf _ _ _ _ _ _ _ _ _
  | .swc _ _ _ _ _ _ => swc _ _ _ _ _ _ | .swh _ _ _ _ _ => swh _ _ _ _ _ | .swb _ _ => swb _ _ | .swm _ _ _ _ => swm _ _ _ _
  | .swl _ _ _ => swl _ _ _ | .swx _ _ _ _ _ => swx _ _ _ _ _ | .mmas _ _ _ _ _ _ _ _ => mmas _ _ _ _ _ _ _ _
  | .mmag _ _ _ _ _ _ _ => mmag _ _ _ _ _ _ _ | .rgpost _ _ _ _ _ => rgpost _ _ _ _ _ | .rgtake _ _ _ _ => rgtake _ _ _ _
  | .rgnext _ _ _ => rgnext _ _ _ | .rgdone _ _ => rgdone _ _ | .launchPacket _ => launchPacket _
  | .dependenceMet _ _ => dependenceMet _ _ | .placingTeams => placingTeams | .teamEnd _ _ => teamEnd _ _
  | .completionRecord _ => completionRecord _ | .completionReport _ _ _ _ => completionReport _ _ _ _
  | .legDeparture _ => legDeparture _ | .contextAdmission _ => contextAdmission _
  | .splitTableRequest _ _ => splitTableRequest _ _ | .splitTableReport _ _ => splitTableReport _ _ | .division _ => division _
  | .operationCompletion _ _ => operationCompletion _ _ | .post _ _ => post _ _
  | .postAcknowledgement _ _ => postAcknowledgement _ _ | .probe _ _ => probe _ _ | .probeAnswer _ _ => probeAnswer _ _
  | .barrierArrival _ _ => barrierArrival _ _ | .barrierObjectUpdate _ _ => barrierObjectUpdate _ _
  | .copyPacket _ _ => copyPacket _ _ | .copyBurst _ _ _ => copyBurst _ _ _ | .loopIteration _ _ => loopIteration _ _
  | .signalPacket _ _ => signalPacket _ _ | .pass _ _ => pass _ _ | .rampInterval _ _ => rampInterval _ _
  | .hstepFall _ _ => hstepFall _ _ | .hstepRise _ _ => hstepRise _ _ | .fstepUpdate _ _ _ => fstepUpdate _ _ _
  | .energyCharge _ _ _ => energyCharge _ _ _ | .monitorSample _ _ _ => monitorSample _ _ _ | .scrubVisit _ _ => scrubVisit _ _
  | .refreshWindow _ => refreshWindow _ | .tableWalk _ _ _ _ => tableWalk _ _ _ _ | .reservationExpiry _ => reservationExpiry _
  | .holdoffExpiry _ => holdoffExpiry _ | .budgetExpiry _ _ => budgetExpiry _ _
  | .handlerBudgetExpiry _ _ => handlerBudgetExpiry _ _ | .teamResumption _ _ => teamResumption _ _
  | .trapEntry _ => trapEntry _ | .halt _ => halt _ | .sliceExpiry _ => sliceExpiry _ | .rangeRequest _ _ => rangeRequest _ _
  | .rangeReply _ _ => rangeReply _ _ | .errorRecord => errorRecord | .linkRetry _ => linkRetry _
  | .linkRetrain _ => linkRetrain _ | .retrainTimeout _ => retrainTimeout _ | .linkDown _ => linkDown _
  | .routeRewrite _ _ _ => routeRewrite _ _ _ | .sensorLimit _ _ _ => sensorLimit _ _ _ | .limitLifted _ _ => limitLifted _ _
  | .powerStateEntry _ _ => powerStateEntry _ _ | .stackWake _ => stackWake _ | .powerStateExit _ => powerStateExit _
  | .bringUp _ _ _ => bringUp _ _ _ | .hostAccess _ => hostAccess _ | .hostSnoop _ => hostSnoop _ | .cxlLinkDown => cxlLinkDown
  | .qring _ _ => qring _ _ | .cring _ _ _ => cring _ _ _ | .errlog _ => errlog _ | .preemptionRequest _ => preemptionRequest _
  | .preemptionWithdraw _ => preemptionWithdraw _ | .abortctl _ => abortctl _ | .warmReset => warmReset
  | .coldReset => coldReset | .skbctlThaw _ => skbctlThaw _ | .errstatClear => errstatClear
  | .monitorClear _ _ => monitorClear _ _ | .pwrcap _ => pwrcap _ | .ramp _ => ramp _ | .svcUpdate _ _ => svcUpdate _ _
  | .registerWrite _ _ _ => registerWrite _ _ _ | .resultLanding _ => resultLanding _
  | .unassignedOpcode _ => unassignedOpcode _ | .linkRetrained _ => linkRetrained _
  | .backInvalidateResponse _ _ => backInvalidateResponse _ _ | .launcherRouterError _ => launcherRouterError _
  | .peerWarmReset _ => peerWarmReset _ | .peerReady _ => peerReady _

end Sys2Proof.Laws.Fits

namespace Sys2Proof

/-! ### Bytes -/

theorem ofBytesLE_bytesLE (n x : Nat) (h : x < 2 ^ (8 * n)) : ofBytesLE (bytesLE n x) = x := by
  rw [Machine.ofBytesLE_map, Nat.mod_eq_of_lt]
  rwa [Nat.pow_mul] at h

theorem lenBytes_le (len : Nat) : lenBytes len ≤ 20 := by unfold lenBytes; split <;> split <;> decide

theorem Fields.pack_lt {f : Fields} (h : f.Fits) : f.pack < 2 ^ (8 * lenBytes f.len) := by
  have h0 := word0_lt h
  have h1 := word1_lt h
  have h2 := h.imm
  have h3 := h.lit
  unfold Fields.pack lenBytes
  cases hasExt f.len <;> cases hasLit f.len <;> norm_num <;> omega

/-- Word 0 is the sum of its fields (R101). -/
theorem Fields.word0_unpack (w : Nat) : (Fields.unpack w).word0 = w % 4294967296 := by
  unfold Fields.word0 Fields.unpack
  dsimp only
  norm_num only
  omega

/-- Word 1 is the sum of its fields where the length code brings it (R104). -/
theorem Fields.word1_unpack (w : Nat) :
    (Fields.unpack w).word1 = if hasExt (w % 4) then w / 4294967296 % 4294967296 else 0 := by
  unfold Fields.word1 Fields.unpack
  norm_num only
  split <;> omega

/-- The words of the fields of `w` are the low bytes of `w`, as many as its length code brings (R99). -/
theorem Fields.pack_unpack (w : Nat) : (Fields.unpack w).pack = w % 2 ^ (8 * lenBytes (Fields.unpack w).len) := by
  have hlen : (Fields.unpack w).len = w % 4 := rfl
  have himm : (Fields.unpack w).imm = if hasExt (w % 4) then w / 18446744073709551616 % 4294967296 else 0 := rfl
  have hlit : (Fields.unpack w).lit = if hasLit (w % 4) then (if hasExt (w % 4) then
    w / 79228162514264337593543950336 % 18446744073709551616 else w / 4294967296 % 18446744073709551616) else 0 := rfl
  unfold Fields.pack lenBytes
  rw [hlen, himm, hlit, Fields.word0_unpack, Fields.word1_unpack]
  cases hasExt (w % 4) <;> cases hasLit (w % 4) <;> simp only [Bool.false_eq_true, if_false, if_true] <;>
    norm_num <;> omega

/-- The decoder reads a well-formed instruction back from its own bytes. -/
theorem decode_encode {i : Instr} (hwf : i.wf = true) : decode (encode i) = .ok i := by
  obtain ⟨hlen, hsub, hbuild⟩ := reads_of_wf i hwf
  have hfits := Laws.Fits.of_wf i hwf
  have hop : checkOpcode (encodeF i) = none := by
    unfold checkOpcode
    rw [if_neg (List.ne_nil_of_mem hlen), if_neg (not_not_intro hlen)]
  have hbytes : (encode i).length ≤ 20 := by
    rw [encode, Machine.bytesLE_length]
    exact lenBytes_le _
  unfold decode
  rw [List.take_of_length_le hbytes, encode, ofBytesLE_bytesLE _ _ (Fields.pack_lt hfits), decodeWord, Fields.unpack_pack
    hfits, hop]
  simp only [decodeF, hsub, hbuild, hwf, and_self, if_true]

/-- What the decoder accepts is the encoding of the instruction that it answers (R410). -/
theorem encodeF_of_decodeWord {w : Nat} {i : Instr} (h : decodeWord w = .ok i) : encodeF i = Fields.unpack w ∧ i.wf = true := by
  unfold decodeWord at h
  dsimp only at h
  split at h
  · cases h
  · unfold decodeF at h
    split at h
    · cases h
    · split at h
      · cases h
      · split at h
        next j hj => cases h; exact hj
        next => cases h

/-- Settles O57: the decoder's fields are the encoder's, each form is built from the fields that its encoding fills, and the
  bytes are
the sums of the fields. -/
theorem decodeReadsBackTheEncoding : Obligations.DecodeReadsBackTheEncoding := by
  refine ⟨fun i => decode_encode, fun w i h => ?_⟩
  obtain ⟨hf, hwf⟩ := encodeF_of_decodeWord h
  refine ⟨hwf, ?_⟩
  rw [Instr.bytes, hf, Fields.pack_unpack]

/-- Settles O55: the decoder evaluates each of the words. -/
theorem wordsDecode : Obligations.WordsDecode := by
  unfold Obligations.WordsDecode
  decide

end Sys2Proof
end

section
/-! PROOF. An instruction without an active lane (R114). -/
namespace Sys2Proof.Machine

variable {s : State}

/-- The split has passed an instruction of `n` bytes and kept all else (R114). -/
def Passes (s : State) (n : Nat) (t : State) : Prop :=
  t.me.results = s.me.results ∧ t.me.toks = s.me.toks ∧ t.me.ops = s.me.ops ∧ Moved s t ∧ GoesTo s t (s.me.pc + BitVec.ofNat 64 n)

/-- A retirement passes the instruction, whatever the number of the next free value. -/
theorem retire_passes {u : State} (hn : Near s u) (hme : u.me = s.fresh427.me) (hwin : u.win = s.win) (h : Hd) (n : Nat) :
    Passes s n (u.retire h n) := by
  obtain ⟨htoks, hops, hres⟩ := retire_keeps u h n
  exact ⟨by rw [hres, hme]; rfl, by rw [htoks, hme]; rfl, by rw [hops, hme]; rfl, hn.retire_moved h n,
    hn.retire_goes h n (by rw [hme]; rfl) (by rw [hme]; rfl) (by rw [hwin]) (by rw [hme]; rfl)⟩

/-- Instruction `i` is passed where header `h` leaves no lane active. -/
def OffAt (s : State) (i : Instr) (h : Hd) : Prop := s.active h = 0#32 → Answers i s (Passes s i.bytes)

theorem off_of {i : Instr} {h : Hd} (hh : hdOf i = h) (he : s.active h = 0#32 → exec i s = .next (s.fresh427.retire h i.bytes)) :
    OffAt s i (hdOf i) :=
  hh ▸ fun ha => ⟨_, he ha, retire_passes (near_fresh427 s) rfl rfl h _⟩

/-- In privileged mode a privileged form is gated like any other (R113). -/
theorem gateP_off {i : Instr} {h : Hd} {n : Need8} {body : State → State} (hp : s.me.priv = true) (ha : s.active h = 0#32) :
    s.gateP i h n body = .next (s.fresh427.retire h i.bytes) := (if_pos hp).trans (gate_off ha)

/-- `sput` names MSTEP, or TRAPINFO in privileged mode (R143, R412). -/
theorem sput_off {h : Hd} {r : SpecReg} {a : SReg} (hwf : (Instr.sput h r a).wf = true)
    (hp : r = .trapinfo → s.me.priv = true) (ha : s.active h = 0#32) :
    exec (.sput h r a) s = .next (s.fresh427.retire h (Instr.sput h r a).bytes) := by
  have hpriv : ¬ (r = .trapinfo ∧ s.me.priv = false) := fun ⟨hr, hq⟩ => Bool.noConfusion ((hp hr).symm.trans hq)
  have hr : r = .mstep ∨ r = .trapinfo := by simpa only [Instr.wf, Bool.or_eq_true, beq_iff_eq] using hwf
  have hown : ¬ (r ≠ .trapinfo ∧ r ≠ .mstep) := fun ⟨ht, hm⟩ => hr.elim hm ht
  exact (if_neg hpriv).trans ((if_neg hown).trans (gate_off ha))

theorem scalarForm_off {h : Hd} (ty : ITy) (op : SOp) (ha : s.active h = 0#32) :
    exec (.scalarForm h ty op) s = .next (s.fresh427.retire h (Instr.scalarForm h ty op).bytes) := by
  rw [exec, execScalarForm]
  cases sopTok op <;> exact if_pos ha

theorem movX_off {h : Hd} (m : MovX) (ha : s.active h = 0#32) :
    exec (.movX h m) s = .next (s.fresh427.retire h (Instr.movX h m).bytes) := by
  cases m <;> exact if_pos ha

/-- A read of one lane takes a free value's number before its guard is tested, and nothing else (R162). -/
theorem movsX_off {h : Hd} (m : MovsX) : OffAt s (.movsX h m) h := fun ha => by
  cases m with
  | lo d a | hi d a => exact ⟨_, if_pos ha, retire_passes (near_fresh427 s) rfl rfl h _⟩
  | get d a k | gets d a k =>
    have hdraw : s.draw.active h = 0#32 := ha
    exact ⟨_, if_pos hdraw, retire_passes (s := s) (u := s.draw.fresh427) ⟨rfl, rfl, rfl⟩ rfl rfl h _⟩

/-- Every form checks its guard before it acts (R114); the privileged forms and `rft` check their privilege first (R409). -/
theorem off_passes (i : Instr) (hwf : i.wf = true) (hpriv : needsPriv i = true → s.me.priv = true)
    (hhandler : needsHandler i = true → s.me.inHandler = true) : OffAt s i (hdOf i) := by
  cases i
  case nop | bra | brp | brx | call | callx | ret | join | barw | bara | yield | exit | pause | tw | trap | brk | sget | icpre |
      icpin | icfree | abs | absX | neg | negX | not | notX | popc | popcX | clz | clzX | brev | brevX | plog | movl | movs |
      vote | lred | lscan | lscanX | frcp | frcpX | frsq | frsqX | fsqrt | fsqrtX | fex2 | fex2X | flg2 | flg2X | fsin | fsinX |
      fcos | fcosX | fcvt | fpk | funpk | bscl | bqnt | bdeq | rseed | rseedX | fence | pfence | cpkt | binit | bexp | barv |
      bobs | palLiteral | palRegister | palr | mma | mmab | accz | accrd | accwr | accst | swc | swh | swb | swm | swl | swx |
      mmas | mmag | rgpost | rgtake | rgnext | rgdone => exact off_of (hd_fields _) fun ha => if_pos ha
  case add | sub | mul | mulX | mulh | mulhX | mad | dpb | min | minX | max | maxX | div | rem | and | andX | or | orX | xor |
      xorX | shl | shlX | shr | shrX | sra | sraX | rot | rotX | bfx | bfi | sel | shfl | shflX | fadd | faddX | fsub | fsubX |
      fmul | fmulX | ffma | fmin | fminX | fmax | fmaxX => exact off_of (hdOf_va _ _ _) fun ha => if_pos ha
  case addX | subX => exact off_of ((putCarry_hd _ _).trans (hdOf_va _ _ _)) fun ha => if_pos ha
  case cmp | cmpX | fcmp | fcmpX | mov => exact off_of ((putB_hd _ _).trans (hd_fields _)) fun ha => if_pos ha
  case ld | ldg | lrg => exact off_of (((putAcq_hd _ _).trans (putAddr_hd _ _)).trans (hd_fields _)) fun ha => if_pos ha
  case st | stg | stp | atp => exact off_of (((putRel_hd _ _).trans (putAddr_hd _ _)).trans (hd_fields _)) fun ha => if_pos ha
  case atg | scg => exact off_of (((putOrd_hd _ _).trans (putAddr_hd _ _)).trans (hd_fields _)) fun ha => if_pos ha
  case ldz => exact off_of ((putAcq_hd _ _).trans (hd_fields _)) fun ha => if_pos ha
  case stz => exact off_of ((putRel_hd _ _).trans (hd_fields _)) fun ha => if_pos ha
  case bwt => exact off_of ((bwtF_hd _ _).trans (hd_fields _)) fun ha => if_pos ha
  case drq | drf => exact off_of ((putDr_hd _ _).trans (hd_fields _)) fun ha => if_pos ha
  case voteX => exact off_of (hdOf_voteX _ _) fun ha => if_pos ha
  case scalarForm h ty op => exact off_of (hdOf_scalarForm h ty op) (scalarForm_off ty op)
  case movX h m => exact off_of (hdOf_movX h m) (movX_off m)
  case movsX h m => exact (hdOf_movsX h m).symm ▸ movsX_off m
  case lredX h op ty sat dst a => cases dst <;> exact off_of (hd_fields h) fun ha => if_pos ha
  case stkspill | stkfill | ctxsv | ctxld | tlbi => exact off_of (hd_fields _) (gateP_off (hpriv rfl))
  case rft h => exact off_of (hd_fields h) fun ha => (if_pos (hhandler rfl)).trans (if_pos ha)
  case sput h r a => exact off_of (hd_fields h) (sput_off hwf fun hr => hpriv (beq_iff_eq.2 hr))
  -- the events of the agents are not well-formed instructions
  all_goals exact Bool.noConfusion hwf

/-- Settles O1: every form is gated by its guard, and a retirement moves the split alone. -/
theorem guardOffHasNoEffect : Obligations.GuardOffHasNoEffect := by
  unfold Obligations.GuardOffHasNoEffect
  exact fun i _ hwf ha hpriv hhandler => off_passes i hwf hpriv hhandler ha

end Sys2Proof.Machine
end

section
/-! PROOF. A trap enters its handler, aborts in one, or waits (R391 to R395, R429). -/
namespace Sys2Proof.Machine

/-! ### What a run's end leaves of a translation -/

/-- What a translation and a write that may wait read of a stack: its caches, its reservations and the host's lines. -/
def StackSt.paths (q : StackSt) : (List WalkEntry × List Tlb × (Nat → List Tlb)) × List Resv × List (Nat × Bool) :=
  ((q.walks, q.tlb, fun c => (q.core c).tlb), q.resv, q.held)

/-- A core replaced by one with the same translation cache. -/
theorem core_tlb_vset (q : StackSt) (c : Nat) {x : Core} (hx : x.tlb = (q.core c).tlb) (j : Nat) :
    (StackSt.core { q with cores := vset q.cores c x } j).tlb = (q.core j).tlb := by
  unfold StackSt.core
  by_cases hj : j = c
  · subst hj
    by_cases hlt : j < 8
    · rw [vget_vset q.cores j j x _ hlt, if_pos rfl, hx]
      rfl
    · rw [vset, Vector.setIfInBounds_eq_of_size_le (Nat.le_of_not_lt hlt)]
  · rw [vget_vset_ne q.cores x _ hj]

theorem paths_onPipe (s : State) (k c p : Nat) (f : Pipe → Pipe) : StackKept StackSt.paths s (s.onPipe k c p f) := by
  unfold State.onPipe State.onCore
  exact StackKept.onStk s k fun q => congrArg (fun g => ((q.walks, q.tlb, g), q.resv, q.held)) (funext (core_tlb_vset q c rfl))

section
variable {s t : State} (hm : t.mem = s.mem) (hs : StackKept StackSt.paths s t) (hd : t.md = s.md)
include hm hs hd

omit hd in
theorem tableEntry_paths (k asid l va pa : Nat) : t.tableEntry k asid l va pa = s.tableEntry k asid l va pa := by
  have hwalks : (t.stk k).walks = (s.stk k).walks := congrArg (·.1.1) (hs.stk k)
  unfold State.tableEntry
  rw [hm, hwalks]

theorem walkFrom_paths (k asid va : Nat) (ls : List Nat) (table : Nat) (acc : List WalkEntry) :
    walkFrom t k asid va ls table acc = walkFrom s k asid va ls table acc := by
  have hleaf (e l : Nat) : leafOk t e l = leafOk s e l := by unfold leafOk State.routed State.modno State.dsize; rw [hd]
  have hpointer (e l : Nat) : pointerOk t e l = pointerOk s e l := by unfold pointerOk State.modno; rw [hd]
  induction ls generalizing table acc with
  | nil => rfl
  | cons l ls ih => unfold walkFrom; simp only [tableEntry_paths hm hs, hleaf, hpointer, ih]

/-- A translation rests on memory, the caches and the module's registers alone. -/
theorem xlate_paths (k c asid : Nat) (need : Need) (align : Nat) (va : Dword) :
    xlate t k c asid need align va = xlate s k c asid need align va := by
  have hpointer (e l : Nat) : pointerOk t e l = pointerOk s e l := by unfold pointerOk State.modno; rw [hd]
  have hwalk (a : Nat) : walk t k asid a = walk s k asid a := by
    unfold walk walkPath
    simp only [tableEntry_paths hm hs, hd, hpointer, walkFrom_paths hm hs hd]
  have htlb : (t.stk k).tlb = (s.stk k).tlb := congrArg (·.1.2.1) (hs.stk k)
  have hcore : (t.core k c).tlb = (s.core k c).tlb := congrArg (fun x => x.1.2.2 c) (hs.stk k)
  have hleaf (a : Nat) : findLeaf t k c asid a = findLeaf s k c asid a := by
    unfold findLeaf
    rw [hcore, htlb, hwalk]
  have hpa (f : Leaf) (a : Nat) : f.pa t k a = f.pa s k a := by unfold Leaf.pa State.locOf State.modno; rw [hd]
  unfold xlate
  simp only [hleaf, hpa]

end

/-- From `s` to `u` the split's run has ended, and its stall with it: what a frame holds of it is the same. -/
structure RunOver (s u : State) : Prop where
  rest : u = { s with me := u.me, win := u.win, stks := u.stks }
  me : u.me = { s.me with
    inRun := false, runLen := u.me.runLen, wasReady := u.me.wasReady, slice := u.me.slice, pend := u.me.pend,
    resume := u.me.resume, stalled := u.me.stalled }
  win : u.win = { s.win with check := u.win.check }
  paths : StackKept StackSt.paths s u

theorem runOver_endRun (s : State) : RunOver s s.endRun := by
  have hin := endRun_inRun s
  obtain ⟨r, n, w, sl, pd, ck, f, h⟩ := endRun_shape s
  rw [h] at hin ⊢
  subst hin
  exact ⟨rfl, rfl, rfl, (paths_onPipe s s.me.stack s.me.core s.myPipe f).andThen rfl⟩

theorem runOver_fresh427 (s : State) : RunOver s s.fresh427.endRun := by
  obtain ⟨rest, me, win, paths⟩ := runOver_endRun s.fresh427
  refine ⟨rest, ?_, win, (StackKept.of_eq rfl : StackKept _ s s.fresh427).trans paths⟩
  rw [me]
  rfl

namespace RunOver
variable {s u : State} (h : RunOver s u)
include h

theorem mem : u.mem = s.mem := by rw [h.rest]
theorem gr : u.gr = s.gr := by rw [h.rest]
theorem md : u.md = s.md := by rw [h.rest]
theorem splits : u.splits = s.splits := by rw [h.rest]

theorem xlate (k c asid : Nat) (need : Need) (align : Nat) (va : Dword) :
    Machine.xlate u k c asid need align va = Machine.xlate s k c asid need align va :=
  xlate_paths h.mem h.paths h.md k c asid need align va

theorem vec (c : TClass) : u.vec c = s.vec c := by
  unfold State.vec
  rw [h.xlate, h.mem, h.me]

theorem areaVa (off : Nat) : u.areaVa off = s.areaVa off := by
  unfold State.areaVa
  rw [h.gr]

theorem frameVa : u.frameVa = s.frameVa := by
  unfold State.frameVa
  rw [h.areaVa, h.me]

theorem fixed : u.fixed = s.fixed := by
  unfold State.fixed
  rw [h.gr]

theorem xlArea (rd wr : Bool) (va : Dword) : u.xlArea rd wr va = s.xlArea rd wr va := by
  unfold State.xlArea State.homedOn State.locOf State.modno
  rw [h.xlate, h.fixed, h.gr, h.md, h.me]

theorem areaWaits (va : Dword) (n : Nat) : u.areaWaits va n = s.areaWaits va n := by
  have hheld (pa : Nat) : u.heldOff pa n (some u.me.id) = s.heldOff pa n (some s.me.id) := by
    have hresv : (u.stk (homeStack pa)).resv = (s.stk (homeStack pa)).resv := congrArg (·.2.1) (h.paths.stk _)
    unfold State.heldOff
    rw [hresv, h.me]
  have hhost (pa : Nat) : u.hostHolds pa n = s.hostHolds pa n := by
    have hlines : (u.stk (homeStack pa)).held = (s.stk (homeStack pa)).held := congrArg (·.2.2) (h.paths.stk _)
    unfold State.hostHolds
    rw [hlines]
  unfold State.areaWaits
  simp only [h.xlArea, hheld, hhost]

theorem saveWaits : u.saveWaits = s.saveWaits := by
  unfold State.saveWaits State.tileWaits
  simp only [h.frameVa, h.areaVa, h.areaWaits, h.fixed]

theorem imageFixed (pc : Dword) (clear : SReg) : u.imageFixed pc clear = s.imageFixed pc clear := by
  unfold State.imageFixed State.own State.locOf State.modno
  rw [h.gr, h.md, h.win, h.me]
  rfl

theorem imageRegs : u.imageRegs = s.imageRegs := by
  unfold State.imageRegs
  rw [h.win, h.me]

end RunOver

/-! ### The bytes of a frame (R35, R388) -/

theorem frameHead_first (s : State) (kind : Nat) (tinfo : Dword) (slice : Nat) (toks : Vector Nat 8) (reps : Nat)
    (latch tiles : Bool) : ∃ bs, s.frameHead kind tinfo slice toks reps latch tiles = bytesLE 8 tinfo.toNat ++ bs := by
  unfold State.frameHead
  simp only [List.append_assoc]
  exact ⟨_, rfl⟩

theorem frameHead_length (s : State) (kind : Nat) (tinfo : Dword) (slice : Nat) (toks : Vector Nat 8) (reps : Nat)
    (latch tiles : Bool) : (s.frameHead kind tinfo slice toks reps latch tiles).length = 0x400 := by
  have htable : (s.gr.table.toList.map fun (t : TabEntry) => bytesLE 8 (t.dword s)).flatten.length = 32 := by
    rw [List.length_flatten, List.map_map]
    have : List.length ∘ (fun t : TabEntry => bytesLE 8 (t.dword s)) = fun _ => 8 := funext fun t => bytesLE_length 8 _
    rw [this, List.map_const', List.sum_replicate, Vector.length_toList]
    rfl
  unfold State.frameHead
  simp only [List.length_append, bytesLE_length, htable, zeros, List.length_replicate, List.length_map, Vector.length_toList]

theorem imageFixed_first (s : State) (pc : Dword) (clear : SReg) :
    ∃ bs, s.imageFixed pc clear = bytesLE 8 pc.toNat ++ bs
      ∧ (s.imageFixed pc clear).length = (s.imageFixed 0#64 clear).length := by
  unfold State.imageFixed
  simp only [List.append_assoc]
  refine ⟨_, rfl, ?_⟩
  simp only [List.length_append, bytesLE_length]

/-! ### A frame is written -/

/-- `f` changes of a split its wait alone. -/
def WakesOnly (f : Split → Split) : Prop :=
  ∀ w, f w = { w with status := (f w).status, wasReady := (f w).wasReady, spin := (f w).spin }

theorem wakeLine_wakes (line : Nat) : WakesOnly (wakeLine line) := fun w => by
  unfold wakeLine
  split <;> rfl

theorem WakesOnly.comp {f g : Split → Split} (hf : WakesOnly f) (hg : WakesOnly g) : WakesOnly fun w => f (g w) := fun w => by
  dsimp only
  rw [hf (g w)]
  dsimp only
  rw [hg w]

/-- A write wakes splits (R72), and breaks reservations. -/
theorem written_wakes (s : State) (pa n : Nat) : ∃ f st, WakesOnly f
    ∧ s.written pa n = { s with me := f s.me, splits := s.splits.map f, stks := st } := by
  have wakes (is : List Nat) (u : State) : ∃ f, WakesOnly f
      ∧ is.foldl (fun u i => u.mapSplits (wakeLine (lineOf pa + i))) u = { u with me := f u.me, splits := u.splits.map f } := by
    induction is generalizing u with
    | nil => exact ⟨id, fun _ => rfl, by rw [List.map_id]; rfl⟩
    | cons i is ih =>
      obtain ⟨f, hkeep, hf⟩ := ih (u.mapSplits (wakeLine (lineOf pa + i)))
      refine ⟨_, hkeep.comp (wakeLine_wakes (lineOf pa + i)), ?_⟩
      rw [List.foldl_cons, hf]
      simp only [State.mapSplits, List.map_map, Function.comp_def]
  obtain ⟨f, hkeep, hf⟩ := wakes (List.range (ceilDiv (pa % 64 + n) 64))
    (s.onStk (homeStack pa) fun q => { q with resv := q.resv.filter fun (r : Resv) => !onGranule pa n r.granule })
  exact ⟨f, _, hkeep, hf⟩

/-- The bytes of a trap's frame that captures no operation (R388). -/
def State.frameBytes (s : State) (info pc : Dword) (slice : Nat) (toks : Vector Nat 8) (latch : Bool) : List Byte :=
  s.frameHead 1 info slice toks 0 latch false ++ s.imageFixed pc 0 ++ s.imageRegs

theorem frameBytes_length (s : State) (info pc : Dword) (slice : Nat) (toks : Vector Nat 8) (latch : Bool) :
    (s.frameBytes info pc slice toks latch).length = 0x400 + (s.imageFixed 0#64 0).length + s.imageRegs.length := by
  obtain ⟨_, -, himage⟩ := imageFixed_first s pc 0
  rw [State.frameBytes, List.length_append, List.length_append, frameHead_length, himage]

/-- TRAPINFO stands at the start of the frame and the PC at the start of its image. -/
theorem frameBytes_reads {s : State} {m : Memory} {pa : Nat} {info pc : Dword} {slice : Nat} {toks : Vector Nat 8} {latch : Bool}
    (h : m.Holds pa (s.frameBytes info pc slice toks latch)) :
    m.read pa 8 = info.toNat ∧ m.read (pa + 0x400) 8 = pc.toNat := by
  obtain ⟨image, himage, -⟩ := imageFixed_first s pc 0
  unfold State.frameBytes at h
  rw [Memory.holds_append, Memory.holds_append, frameHead_length] at h
  obtain ⟨⟨hhead, hfixed⟩, -⟩ := h
  obtain ⟨head, hfirst⟩ := frameHead_first s 1 info slice toks 0 latch false
  rw [hfirst, Memory.holds_append] at hhead
  rw [himage, Memory.holds_append] at hfixed
  exact ⟨hhead.1.read.trans (Nat.mod_eq_of_lt info.isLt), hfixed.1.read.trans (Nat.mod_eq_of_lt pc.isLt)⟩

theorem putArea_nil (s : State) (pa : Nat) : s.putArea pa [] = s := by
  unfold State.putArea
  exact ite_self _

theorem putArea_here {s : State} (hb : s.gr.base < 16) (pa : Nat) {bs : List Byte} (hbs : bs ≠ []) :
    s.putArea pa bs = { s.written pa bs.length with mem := s.mem.writeLines pa bs s.me.asid } := by
  have hempty : bs.isEmpty = false := by rwa [List.isEmpty_eq_false_iff]
  unfold State.putArea State.putLines
  rw [if_pos hb, hempty]
  rfl

/-- The frame of a trap that enters its handler, where nothing is outstanding. -/
theorem putRecord_frame {s : State} {x : Xl} (hx : s.xlArea false true s.frameVa = .ok x) (hb : s.gr.base < 16) (ho : s.me.ops = [])
    (info pc : Dword) (slice : Nat) (toks : Vector Nat 8) (latch : Bool) :
    let bs := s.frameBytes info pc slice toks latch
    s.putRecord 1 info pc slice toks latch false
      = .ok { s.written x.pa bs.length with mem := s.mem.writeLines x.pa bs s.me.asid } := by
  intro bs
  have hbs : bs ≠ [] := fun hnil => by
    have hlen := frameBytes_length s info pc slice toks latch
    rw [show s.frameBytes info pc slice toks latch = [] from hnil, List.length_nil] at hlen
    omega
  have hframe : s.putFrame 1 info pc slice toks latch false
      = .ok { s.written x.pa bs.length with mem := s.mem.writeLines x.pa bs s.me.asid } := by
    unfold State.putFrame
    rw [hx, ho]
    show Except.ok ((s.putArea x.pa bs).putArea (x.pa + 0x4800) []) = _
    rw [putArea_nil]
    exact congrArg Except.ok (putArea_here hb x.pa hbs)
  unfold State.putRecord
  simp only [Bool.false_and, hframe, Bool.false_eq_true, if_false]

/-! ### The entry (R391 to R394) -/

/-- Where nothing is in flight, nothing lands. -/
theorem settle_drained {s : State} (ho : s.me.ops = []) (hr : s.me.results = []) : s.settle = s := by
  have hland : s.landAll = s := by
    have hme : ({ s with me := { s.me with results := [] } } : State) = s := by rw [← hr]
    unfold State.landAll
    rw [hme, hr]
    rfl
  have hme : ({ s with me := { s.me with ops := [] } } : State) = s := by rw [← ho]
  unfold State.settle
  rw [hland]
  simp only [ho, List.foldl_nil, List.map_nil]
  exact hme

theorem haltOthers_shape (s : State) : ∃ fab, s.haltOthers = { s with fabric := fab } := by
  have sends (ws : List Split) (u : State) : ∃ fab,
      ws.foldl (fun (t : State) (w : Split) => t.send s.me.stack w.stack (.halt w.id)) u = { u with fabric := fab } := by
    induction ws generalizing u with
    | nil => exact ⟨u.fabric, rfl⟩
    | cons w ws ih =>
      obtain ⟨fab, h⟩ := ih (u.send s.me.stack w.stack (.halt w.id))
      exact ⟨fab, by rw [List.foldl_cons, h]; rfl⟩
  exact sends _ s

/-- A split whose frame has been written enters the handler at `pc` with TRAPINFO `info`. -/
def Split.entered (w : Split) (pc info : Dword) (trapPc : Dword) (pend : Pend) : Split :=
  { w with
    toks := Vector.replicate 8 0, ops := [], trapinfo := info, trapSet := info, trapPc := trapPc, pc := pc, slice := 0,
    resume := 0, spin := Option.none, status := .run, wasReady := false, pend := pend, inHandler := true }

/-- The TRAPINFO of trap `t` where it enters its handler (R394). -/
def State.entryInfo (s : State) (t : Trap) : Dword := trapInfo true true (s.me.ops.any Op.faulted) s.me.pend.preempt s.frameVa t

/-- A trap whose frame is written as `u` enters its handler. -/
theorem enterTrap_enters {s u : State} {t : Trap} (hset : s.settle = s) (hv : s.vec t.cls ≠ 0#64)
    (hput : s.putRecord 1 (s.entryInfo t) t.pc (if s.me.pend.slice then 1 else s.me.slice) t.toks s.me.pend.preempt false = .ok u) :
    ∃ st fab pend, s.enterTrap t =
      { u with stks := st, fabric := fab, me := u.me.entered (s.vec t.cls) (s.entryInfo t) t.pc pend } := by
  unfold State.enterTrap
  rw [hset]
  extract_lets s' h enters pendf latch frame info slice brk
  have henters : enters = true := bne_iff_ne.2 hv
  have hinfo : info = s.entryInfo t := by
    show trapInfo (enters || s.me.asid == 0) enters pendf latch frame t = _
    rw [henters]
    rfl
  have hput' : s'.putRecord 1 info t.pc slice t.toks latch (!enters) = .ok u := by
    rw [hinfo, henters]
    exact hput
  rw [hput', ← hinfo]
  dsimp -zeta only
  extract_lets empty emptyMe left v x y me
  obtain ⟨st, hx⟩ := sketch_shape v v.me.stack 1 v.me.core v.me.asid v.gr.grid (bytesLE 8 info.toNat ++ bytesLE 8 frame.toNat)
  have hy : ∃ fab, y = { v with stks := st, fabric := fab } := by
    have hx' : x = { v with stks := st } := hx
    dsimp only [y]
    rw [hx']
    split
    · obtain ⟨fab, hfab⟩ := haltOthers_shape { v with stks := st }
      exact ⟨fab, hfab⟩
    · exact ⟨v.fabric, rfl⟩
  obtain ⟨fab, hy⟩ := hy
  have hme : me = v.me := by
    show y.me = v.me
    rw [hy]
  rw [if_pos henters, hme, hy]
  exact ⟨st, fab, v.me.pend, rfl⟩

/-! ### TRAPINFO (R394) -/

/-- The fields of TRAPINFO at an entry. -/
theorem trapInfo_fields (pendf latch : Bool) (frame : Dword) (t : Trap) :
    let x := (trapInfo true true pendf latch frame t).toNat
    x % 32 = tclassCode t.cls ∧ x / 2 ^ 5 % 32 = t.detail % 32 ∧ x / 2 ^ 10 % 64 = t.arg % 64
      ∧ x / 2 ^ 16 % 2 ^ 41 = frame.toNat / 2 ^ 16 % 2 ^ 41 := by
  have hcode : tclassCode t.cls < 32 := by cases t.cls <;> decide
  intro x
  have hx : x = 2 ^ 63 + 2 ^ 62 + (if pendf then 2 ^ 61 else 0) + (if latch then 2 ^ 60 else 0)
      + 2 ^ 16 * (frame.toNat / 2 ^ 16 % 2 ^ 41) + 2 ^ 10 * (t.arg % 64) + 2 ^ 5 * (t.detail % 32) + tclassCode t.cls := by
    show (trapInfo true true pendf latch frame t).toNat = _
    unfold trapInfo bitsOf
    rw [BitVec.toNat_ofNat]
    refine Nat.mod_eq_of_lt ?_
    simp only [if_true]
    split <;> split <;> omega
  rw [hx]
  refine ⟨?_, ?_, ?_, ?_⟩ <;> split <;> split <;> omega

/-! ### The state in which the handler starts -/

/-- In `v` trap `t` of a split of `s` has entered its handler: its frame stands at `x`, and its registers, lanes and entries are as
they were. -/
structure TrapTaken (s : State) (x : Xl) (t : Trap) (v : State) : Prop where
  handler : v.me.inHandler = true
  pc : v.me.pc = s.vec t.cls
  status : v.me.status = .run
  inRun : v.me.inRun = false
  toks : v.me.toks = Vector.replicate 8 0
  ops : v.me.ops = []
  info : ∃ pendf latch, v.me.trapinfo = trapInfo true true pendf latch s.frameVa t
  first : v.mem.read x.pa 8 = v.me.trapinfo.toNat
  image : v.mem.read (x.pa + 0x400) 8 = t.pc.toNat
  win : v.win.regs = s.win.regs ∧ v.win.entries = s.win.entries
  regs : v.me.sregs = s.me.sregs ∧ v.me.preds = s.me.preds ∧ v.me.act = s.me.act ∧ v.me.pal = s.me.pal
  splits : ∃ f, v.splits = s.splits.map f ∧ WakesOnly f
  apart : ∀ a, a < x.pa ∨ x.pa + (0x400 + (s.imageFixed 0#64 0).length + s.imageRegs.length) ≤ a → v.mem.byte a = s.mem.byte a

/-- A trap of a drained split enters its handler where its vector is not 0. -/
theorem enterTrap_taken {s u : State} (h : RunOver s u) {x : Xl} {t : Trap} (hd : s.Drained) (hwf : s.mem.wf = true)
    (hb : s.gr.base < 16) (hx : s.xlArea false true s.frameVa = .ok x) (hv : s.vec t.cls ≠ 0#64) :
    TrapTaken s x t (u.enterTrap t) := by
  have hops : u.me.ops = [] := by rw [h.me]; exact hd.ops
  have hresults : u.me.results = [] := by rw [h.me]; exact hd.results
  have hframe := putRecord_frame (s := u) (x := x) (by rw [h.xlArea, h.frameVa]; exact hx) (by rw [h.gr]; exact hb) hops
    (u.entryInfo t) t.pc (if u.me.pend.slice then 1 else u.me.slice) t.toks u.me.pend.preempt
  obtain ⟨st, fab, pend, henter⟩ := enterTrap_enters (settle_drained hops hresults) (by rw [h.vec]; exact hv) hframe
  generalize hbs : u.frameBytes (u.entryInfo t) t.pc (if u.me.pend.slice then 1 else u.me.slice) t.toks u.me.pend.preempt = bs
    at hframe henter
  have huwf : u.mem.wf = true := by rw [h.mem]; exact hwf
  have hreads := Memory.holds_writeLines huwf x.pa bs u.me.asid
  rw [← hbs] at hreads
  obtain ⟨hfirst, himage⟩ := frameBytes_reads hreads
  rw [hbs] at hfirst himage
  obtain ⟨f, st', hf, hwritten⟩ := written_wakes u x.pa bs.length
  rw [henter, hwritten]
  have hlen : bs.length = 0x400 + (s.imageFixed 0#64 0).length + s.imageRegs.length := by
    rw [← hbs, frameBytes_length, h.imageFixed, h.imageRegs]
  exact
    { handler := rfl
      pc := h.vec t.cls
      status := rfl
      inRun := by
        show (f u.me).inRun = false
        rw [hf, h.me]
      toks := rfl
      ops := rfl
      info := ⟨_, _, congrArg (fun va => trapInfo true true _ _ va t) h.frameVa⟩
      first := hfirst
      image := himage
      win := by
        show u.win.regs = s.win.regs ∧ u.win.entries = s.win.entries
        rw [h.win]
        exact ⟨rfl, rfl⟩
      regs := by
        show (f u.me).sregs = _ ∧ (f u.me).preds = _ ∧ (f u.me).act = _ ∧ (f u.me).pal = _
        rw [hf, h.me]
        exact ⟨rfl, rfl, rfl, rfl⟩
      splits := ⟨f, congrArg (List.map f) h.splits, hf⟩
      apart := fun a ha => by
        show (u.mem.writeLines x.pa bs u.me.asid).byte a = _
        rw [Memory.byte_writeLines huwf, if_neg (by omega), h.mem] }

/-! ### Traps that enter -/

/-- No halt and no stop comes first where nothing is pending. -/
theorem haltFirst_idle {w : Split} (hp : w.pend = Pend.none) (hi : w.inHandler = false) (c : TClass) : w.haltFirst c = false := by
  unfold Split.haltFirst
  rw [hp, hi]
  rfl

/-- A trap of a split with no event pending is taken at once where nothing holds its frame up. -/
theorem raise_enters {s : State} (hp : s.me.pend = Pend.none) (hi : s.me.inHandler = false) (hr : s.endRun.saveReady = true)
    (t : Trap) : s.raise t = s.endRun.enterTrap t := by
  have hkill : s.me.pend.kill = false := by rw [hp]; rfl
  unfold State.raise
  simp only [hkill, hi, haltFirst_idle hp hi, hr, Bool.false_and, Bool.false_eq_true, if_false, if_true]

/-- A trap in a handler aborts the grid (R395). -/
theorem raise_aborts {s : State} (hp : s.me.pend = Pend.none) (hi : s.me.inHandler = true) (t : Trap) :
    s.raise t = s.endRun.abort s.gr.grid 0 (tclassCode t.cls) t.detail s.gr.team s.gr.grp := by
  have hkill : s.me.pend.kill = false := by rw [hp]; rfl
  unfold State.raise
  simp only [hkill, hi, Bool.false_eq_true, if_false, if_true]

/-- A trap waits for what its frame does not capture (R391). -/
theorem raise_waits {s : State} (hp : s.me.pend = Pend.none) (hi : s.me.inHandler = false) (hq : s.me.quiet = false) (t : Trap) :
    s.raise t = s.endRun.waitFor [.quiet] (.trap t) := by
  have hkill : s.me.pend.kill = false := by rw [hp]; rfl
  have hready : s.endRun.saveReady = false := by
    have hops : s.endRun.me.ops = s.me.ops := by rw [(runOver_endRun s).me]
    unfold State.saveReady
    rw [Split.quiet, hops, ← Split.quiet, hq, Bool.false_and]
  unfold State.raise
  simp only [hkill, hi, haltFirst_idle hp hi, hready, Bool.false_and, Bool.false_eq_true, if_false]

theorem RunOver.waitFor_kept {s u : State} (h : RunOver s u) (steps : List WaitStep) (k : Cont) : Kept s (u.waitFor steps k) where
  regs := by rw [State.waitFor, h.win]
  sregs := by rw [State.waitFor, h.me]
  preds := by rw [State.waitFor, h.me]
  pal := by rw [State.waitFor, h.me]
  seeds := by rw [State.waitFor, h.me]
  range := by rw [State.waitFor, h.me]
  mstep := by rw [State.waitFor, h.me]
  trapinfo := by rw [State.waitFor, h.me]
  exited := by rw [State.waitFor, h.me]
  mem := h.mem
  bytes a := congrArg (fun m : Memory => m.byte a) h.mem
  tiles := congrArg Group.tiles h.gr
  swatch := congrArg Group.swatch h.gr
  splits := h.splits

/-- A drained split may write its frame. -/
theorem RunOver.saveReady {s u : State} (h : RunOver s u) (hd : s.Drained) (hw : s.saveWaits = false) : u.saveReady = true := by
  have hops : u.me.ops = [] := by rw [h.me]; exact hd.ops
  unfold State.saveReady Split.quiet
  rw [hops, h.saveWaits, hw]
  rfl

/-- `trap` and `brk` raise at their issue (R140, R141). -/
theorem exec_trap {s : State} {h : Hd} (ha : s.Acts h) (n : Fin 64) :
    exec (.trap h n) s = .next (s.fresh427.raise (s.fresh427.trapAfter .soft n.val)) := by
  show execTrap h n s = _
  rw [execTrap, gate_on ha rfl fun k hk => absurd hk (Option.some_ne_none k).symm]

theorem exec_brk {s : State} {h : Hd} (ha : s.Acts h) (n : Fin 64) :
    exec (.brk h n) s = .next (s.fresh427.raise (s.fresh427.trapAfter .brk n.val)) := by
  show execBrk h n s = _
  rw [execBrk, gate_on ha rfl fun k hk => absurd hk (Option.some_ne_none k).symm]

/-- R391 to R394: each trap is raised where its instruction issues, and its frame is written at once. -/
theorem trapsEnterTheirHandler : Claims.TrapsEnterTheirHandler := by
  intro s h n x ha hd hi hp hwf hb hx hw pa va same len enters
  have enter {i : Instr} {c : TClass} {detail arg : Nat} {pc : Dword} {u : State} (hrun : RunOver s u.endRun)
      (hpend : u.me.pend = Pend.none) (hin : u.me.inHandler = false) (hdet : detail < 32) (harg : arg < 64)
      (hexec : exec i s = .next (u.raise ⟨c, detail, arg, pc, s.me.toks⟩)) : enters i c detail arg pc := by
    intro hv
    rw [raise_enters hpend hin (hrun.saveReady hd hw)] at hexec
    have k := enterTrap_taken hrun (t := ⟨c, detail, arg, pc, s.me.toks⟩) hd hwf hb hx hv
    obtain ⟨pendf, latch, hinfo⟩ := k.info
    obtain ⟨hcls, hd, hg, hva⟩ := trapInfo_fields pendf latch s.frameVa ⟨c, detail, arg, pc, s.me.toks⟩
    rw [← hinfo] at hcls hd hg hva
    obtain ⟨hregs, hentries⟩ := k.win
    obtain ⟨hsregs, hpreds, hact, hpal⟩ := k.regs
    obtain ⟨f, hsplits, hf⟩ := k.splits
    have hsame : ((u.endRun.enterTrap ⟨c, detail, arg, pc, s.me.toks⟩).splits).map same = s.splits.map same := by
      rw [hsplits, List.map_map]
      exact List.map_congr_left fun w _ => by
        show same (f w) = same w
        rw [hf]
    have hpriv : (u.endRun.enterTrap ⟨c, detail, arg, pc, s.me.toks⟩).me.priv = true := by
      rw [Split.priv, k.handler, Bool.or_true]
    exact ⟨_, hexec, k.handler, hpriv, k.pc, k.status, k.inRun, k.toks, k.ops, hcls, hd.trans (Nat.mod_eq_of_lt hdet),
      hg.trans (Nat.mod_eq_of_lt harg), hva, k.first, k.image, hregs, hsregs, hpreds, hact, hpal, hentries, hsame, k.apart⟩
  have issued {i : Instr} {c : TClass} (hexec : exec i s = .next (s.fresh427.raise (s.fresh427.trapAfter c n.val))) :
      enters i c 0 n.val (s.me.pc + 4#64) :=
    enter (runOver_fresh427 s) hp hi (by decide) n.isLt hexec
  have unassigned (k : IllKind) : enters (.unassignedOpcode k) .illegal (illDetail k) 0 s.me.pc :=
    enter (runOver_endRun s) hp hi (by cases k <;> decide) (by decide) rfl
  exact ⟨issued (exec_trap ha n), issued (exec_brk ha n), unassigned .opcode, unassigned .length, unassigned .sub,
    unassigned .unary⟩

/-! ### Traps that do not enter -/

/-- R391, R395, R429: the trap of a handler ends the team, and one with operations that no frame captures waits. -/
theorem trapsThatDoNotEnter : Claims.TrapsThatDoNotEnter := by
  intro s h n ha hp
  refine ⟨fun hi => ⟨_, exec_trap ha n, raise_aborts (s := s.fresh427) hp hi _⟩, fun hi hq => ⟨_, exec_trap ha n, ?_⟩⟩
  have h := runOver_fresh427 s
  rw [raise_waits (s := s.fresh427) hp hi hq]
  refine ⟨h.waitFor_kept _ _, ?_, ?_, ?_, ?_, ?_, rfl⟩ <;> rw [State.waitFor, h.me]
  exact hi

/-- Settles O20: the end of a run leaves what a frame holds as it is, so the frame's bytes are those of the split at the trap. -/
theorem trapsAreTaken : Obligations.TrapsAreTaken := ⟨trapsEnterTheirHandler, trapsThatDoNotEnter⟩

end Sys2Proof.Machine
end

section
/-! PROOF. The state after a cold reset (R493, R494). -/
namespace Sys2Proof.Machine

theorem vget_replicate {α : Type} (n i : Nat) (x : α) : vget (Vector.replicate n x) i x = x := by
  simp only [vget, Vector.getElem?_replicate]
  split <;> rfl

theorem reset_stk (k : Nat) : State.reset.stk k = StackSt.reset := vget_replicate 16 k _

theorem reset_core (k c : Nat) : State.reset.core k c = Core.reset := by
  unfold State.core
  rw [reset_stk]
  exact vget_replicate 8 c _

theorem reset_monitor (n : Nat) : StackSt.reset.monitor n = Monitor.reset := vget_replicate 32 n _

theorem reset_serves : ∀ c < 8, coreServed svcReset c = true ∧ tilesServed svcReset c = 64 := by decide

/-- The registers of the window that hold no nonzero reset value but RAMP's. -/
theorem reset_window : State.reset.windowRead 0x50 = 57#64 ∧ ∀ off ∈ [0x48, 0x40, 0x58, 0x68, 0x70, 0x20], State.reset.windowRead off = 0#64 := by
  decide

/-- Settles O54: every stack, core and monitor is the one of reset, and the rest stands in the reset state itself. -/
theorem resetLeaves : Obligations.ResetLeaves := by
  unfold Obligations.ResetLeaves
  obtain ⟨hramp, hzero⟩ := reset_window
  refine ⟨fun pa => ⟨rfl, rfl, rfl⟩, rfl, rfl, rfl, rfl, rfl, rfl, rfl, hramp, hzero _ (by decide), hzero _ (by decide),
    hzero _ (by decide), hzero _ (by decide), hzero _ (by decide), hzero _ (by decide), fun k _ => ⟨fun c hc => ?_, fun n _ => ?_⟩⟩
  · rw [reset_core, reset_stk]
    exact ⟨rfl, rfl, rfl, rfl, reset_serves c hc⟩
  · rw [reset_stk, reset_monitor]
    exact ⟨rfl, rfl, rfl⟩
end Sys2Proof.Machine
end

section
/-! PROOF. Special registers and the palette (R142, R143, R299, R300). -/
namespace Sys2Proof.Machine

variable {s : State} {h : Hd}

/-! ### `sget` -/

/-- A scalar special register lands in a scalar register. -/
theorem sget_scalar {r : SpecReg} {x : Dword} (ha : s.Acts h) (d : Fin 64) (hr : isLaneReg r = false) (hx : s.fresh427.splitReg r = x) :
    Answers (.sget h r d) s (Lands s (Instr.sget h r d).bytes 4 [.s d.val x]) := by
  obtain ⟨t, ht, hl⟩ := alu_lands (i := .sget h r d) (n := {}) (lat := 4) (ws := fun t => if isLaneReg r
    then [.v (t.phys d) (t.active h) (t.laneReg r)] else [.s d.val (t.splitReg r)]) ha rfl rfl
  rw [hr, hx] at hl
  exact ⟨t, ht, hl⟩

/-- A lane register lands in a vector register. -/
theorem sget_lanes {r : SpecReg} (ha : s.Acts h) (d : Fin 64) (hr : isLaneReg r = true) :
    Answers (.sget h r d) s (Lands s (Instr.sget h r d).bytes 4 [.v (s.phys d) (s.active h) (s.laneReg r)]) := by
  obtain ⟨t, ht, hl⟩ := alu_lands (i := .sget h r d) (n := {}) (lat := 4) (ws := fun t => if isLaneReg r
    then [.v (t.phys d) (t.active h) (t.laneReg r)] else [.s d.val (t.splitReg r)]) ha rfl rfl
  rw [if_pos hr] at hl
  exact ⟨t, ht, hl⟩

/-- The form of a stack in HOME and BASE (R23). -/
theorem locOf_here {k : Nat} (hk : k < 16) : s.locOf k = s.modno * 16 + k := if_pos hk
theorem locOf_named {k : Nat} (hk : 16 ≤ k) : s.locOf k = k - 16 := if_neg (by omega)

/-! ### `sput` -/

/-- `sput` of a register that it may write lands that write. -/
theorem sput_lands {r : SpecReg} {a : SReg} {w : Wr} (ha : s.Acts h) (hr : r = .mstep ∧ w = .mstep (s.s a)
    ∨ r = .trapinfo ∧ w = .trapinfo (s.s a) ∧ s.me.priv = true) :
    Answers (.sput h r a) s (Lands s (Instr.sput h r a).bytes 4 [w]) := by
  have hexec : exec (.sput h r a) s = s.alu (.sput h r a) h { reads := [rdS a] } 4 fun t =>
      if r = .mstep then [.mstep (t.s a)] else [.trapinfo (t.s a)] := by
    show execSput h r a s = _
    unfold execSput
    rcases hr with ⟨rfl, -⟩ | ⟨rfl, -, hp⟩
    · rfl
    · rw [hp]; rfl
  obtain ⟨t, ht, hl⟩ := alu_lands (i := .sput h r a) (n := { reads := [rdS a] }) (lat := 4)
    (ws := fun t => if r = .mstep then [.mstep (t.s a)] else [.trapinfo (t.s a)]) ha rfl rfl
  refine ⟨t, hexec.trans ht, ?_⟩
  rcases hr with ⟨rfl, rfl⟩ | ⟨rfl, rfl, -⟩ <;> exact hl

/-! ### The claims -/

theorem specialRegisters : Claims.SpecialRegisters := by
  unfold Claims.SpecialRegisters
  intro s h r d a ha gets lanes flag
  have loc (r : SpecReg) (k x : Nat) (hr : isLaneReg r = false) (hk : s.fresh427.splitReg r = BitVec.ofNat 64 (s.locOf k))
      (hx : s.locOf k = x) : gets r (BitVec.ofNat 64 x) := sget_scalar ha d hr (hx ▸ hk)
  refine ⟨sget_lanes ha d rfl, sget_lanes ha d rfl, sget_lanes ha d rfl, sget_scalar ha d rfl rfl, sget_scalar ha d rfl rfl,
    sget_scalar ha d rfl rfl, sget_scalar ha d rfl rfl, fun hk => loc .home s.me.stack _ rfl rfl (locOf_here hk),
    fun hk => loc .base s.gr.base _ rfl rfl (locOf_here hk), fun hk => loc .base s.gr.base _ rfl rfl (locOf_named hk),
    sget_scalar ha d rfl rfl, sget_scalar ha d rfl rfl, sget_scalar ha d rfl rfl, sget_scalar ha d rfl rfl,
    sget_scalar ha d rfl (BitVec.ofNat_toNat 64 s.me.act), sget_scalar ha d rfl (BitVec.ofNat_toNat 64 s.me.exited),
    sget_scalar ha d rfl rfl, ?_,
    sput_lands ha (.inl ⟨rfl, rfl⟩), fun hp => sput_lands ha (.inr ⟨rfl, rfl, hp⟩)⟩
  cases hr : isLaneReg r with
  | false => exact ⟨_, sget_scalar ha d hr rfl⟩
  | true => exact ⟨_, sget_lanes ha d hr⟩

/-- The bits of `palr` are the low 19 bits of PAL (R300). -/
theorem and_onesBelow (x : Dword) : x &&& onesBelow 19 = (x.extractLsb' 0 19).zeroExtend 64 := by
  refine BitVec.eq_of_toNat_eq ?_
  have hmask : (onesBelow 19).toNat = 2 ^ 19 - 1 := rfl
  rw [BitVec.toNat_and, hmask, Nat.and_two_pow_sub_one_eq_mod, BitVec.toNat_setWidth, BitVec.extractLsb'_toNat, Nat.shiftRight_zero,
    Nat.mod_eq_of_lt (a := x.toNat % 2 ^ 19) (b := 2 ^ 64) ((Nat.mod_lt _ (by decide)).trans (by decide))]

theorem paletteMoves : Claims.PaletteMoves := by
  unfold Claims.PaletteMoves
  intro s h x a d ha
  refine ⟨alu_lands (n := {}) (ws := fun _ => [.pal x]) ha rfl rfl,
    alu_lands (n := { reads := [rdS a] }) (ws := fun t => [.pal (t.s a)]) ha rfl rfl, ?_⟩
  rw [← and_onesBelow]
  exact alu_lands (n := {}) (ws := fun t => [.s d.val (t.me.pal &&& onesBelow 19)]) ha rfl rfl

/-- Settles O19: each register is one write of a fixed-latency instruction. -/
theorem specialRegistersAndPalette : Obligations.SpecialRegistersAndPalette := ⟨specialRegisters, paletteMoves⟩

end Sys2Proof.Machine
end

section
/-! PROOF. Fields of a word of bits, and what replacing one leaves of the others (R8). -/
namespace Sys2Proof.Machine

theorem testBit_bitsOf (x hi lo j : Nat) : (bitsOf x hi lo).testBit j = (decide (j < hi + 1 - lo) && x.testBit (lo + j)) := by
  rw [bitsOf, Nat.testBit_mod_two_pow, Nat.testBit_div_two_pow, Nat.add_comm j]

theorem bitsOf_lt (x hi lo : Nat) : bitsOf x hi lo < 2 ^ (hi + 1 - lo) := Nat.mod_lt _ (Nat.two_pow_pos _)

/-- A word is the bits above a field, the field, and the bits below it. -/
theorem putBits_eq (x hi lo v : Nat) : putBits x hi lo v = 2 ^ lo * (2 ^ (hi + 1 - lo) * (x / 2 ^ lo / 2 ^ (hi + 1 - lo))
    + v % 2 ^ (hi + 1 - lo)) + x % 2 ^ lo := by
  have hlow := Nat.div_add_mod x (2 ^ lo)
  have hhigh := Nat.div_add_mod (x / 2 ^ lo) (2 ^ (hi + 1 - lo))
  unfold putBits bitsOf
  generalize x / 2 ^ lo / 2 ^ (hi + 1 - lo) = a at *
  generalize x / 2 ^ lo % 2 ^ (hi + 1 - lo) = b at *
  generalize v % 2 ^ (hi + 1 - lo) = c
  rw [← hhigh] at hlow
  have hx : x - b * 2 ^ lo = 2 ^ lo * (2 ^ (hi + 1 - lo) * a) + x % 2 ^ lo := by
    rw [Nat.mul_add, Nat.mul_comm (2 ^ lo) b] at hlow
    omega
  rw [hx, Nat.mul_add, Nat.mul_comm c]
  omega

theorem testBit_putBits (x v : Nat) {hi lo : Nat} (h : lo ≤ hi) (i : Nat) :
    (putBits x hi lo v).testBit i = if lo ≤ i ∧ i ≤ hi then v.testBit (i - lo) else x.testBit i := by
  rw [putBits_eq, Nat.testBit_two_pow_mul_add _ (Nat.mod_lt _ (Nat.two_pow_pos lo)), Nat.testBit_mod_two_pow]
  by_cases hlo : i < lo
  · rw [if_pos hlo, if_neg (by omega)]; simp [hlo]
  · rw [if_neg hlo, Nat.testBit_two_pow_mul_add _ (Nat.mod_lt _ (Nat.two_pow_pos _)), Nat.testBit_mod_two_pow,
      Nat.testBit_div_two_pow, Nat.testBit_div_two_pow]
    by_cases hhi : i ≤ hi
    · have hin : i - lo < hi + 1 - lo := by omega
      rw [if_pos hin, if_pos ⟨by omega, hhi⟩]; simp [hin]
    · rw [if_neg (by omega), if_neg (by omega)]; congr 1; omega

@[simp] theorem bitsOf_putBits_same (x v : Nat) {hi lo : Nat} (h : lo ≤ hi) :
    bitsOf (putBits x hi lo v) hi lo = v % 2 ^ (hi + 1 - lo) := by
  refine Nat.eq_of_testBit_eq fun j => ?_
  rw [testBit_bitsOf, testBit_putBits x v h, Nat.testBit_mod_two_pow]
  by_cases hj : j < hi + 1 - lo
  · rw [if_pos ⟨by omega, by omega⟩, Nat.add_sub_cancel_left]
  · simp [hj]

theorem bitsOf_putBits_apart (x v : Nat) {hi lo p q : Nat} (h : lo ≤ hi) (hd : p < lo ∨ hi < q) :
    bitsOf (putBits x hi lo v) p q = bitsOf x p q := by
  refine Nat.eq_of_testBit_eq fun j => ?_
  rw [testBit_bitsOf, testBit_bitsOf, testBit_putBits x v h]
  by_cases hj : j < p + 1 - q
  · rw [if_neg (by omega)]
  · simp [hj]

/-- A field within the low bits of a number is the same in its remainder. -/
theorem bitsOf_mod {x hi lo n : Nat} (h : hi < n) : bitsOf (x % 2 ^ n) hi lo = bitsOf x hi lo := by
  refine Nat.eq_of_testBit_eq fun j => ?_
  rw [testBit_bitsOf, testBit_bitsOf, Nat.testBit_mod_two_pow]
  by_cases hj : j < hi + 1 - lo
  · have : lo + j < n := by omega
    simp [this]
  · simp [hj]

theorem Memory.read_lt (m : Memory) (pa n : Nat) : m.read pa n < 2 ^ (8 * n) := by
  induction n generalizing pa with
  | zero => exact Nat.one_pos
  | succ n ih =>
    have h1 := (m.byte pa).isLt
    have h2 := ih (pa + 1)
    rw [show 8 * (n + 1) = 8 + 8 * n by omega, Nat.pow_add]
    unfold Memory.read
    omega

end Sys2Proof.Machine
end

section
/-! PROOF. Arrivals at a named barrier at its home: the words of its object, the splits that wait, and what stands of the rest
(R133, R134, R420). -/
namespace Sys2Proof.Machine

/-! ### The words of a barrier -/

/-- ARRIVED and EXPECT as an arrival or an exit decrement of `n` lanes leaves them, before a flip (R134). -/
def arrivedAfter (w0 n : Nat) (exit : Bool) : Nat := if exit then bitsOf w0 42 32 else (bitsOf w0 42 32 + n) % 2 ^ 11
def expectAfter (w0 n : Nat) (exit : Bool) : Nat := if exit then (bitsOf w0 10 0 + 2 ^ 11 - n % 2 ^ 11) % 2 ^ 11 else bitsOf w0 10 0

theorem arrivedAfter_lt (w0 n : Nat) (exit : Bool) : arrivedAfter w0 n exit < 2 ^ 11 := by
  unfold arrivedAfter
  split
  · exact bitsOf_lt w0 42 32
  · exact Nat.mod_lt _ (by decide)

theorem expectAfter_lt (w0 n : Nat) (exit : Bool) : expectAfter w0 n exit < 2 ^ 11 := by
  unfold expectAfter
  split
  · exact Nat.mod_lt _ (by decide)
  · exact bitsOf_lt w0 10 0

/-- Word 0 with its new ARRIVED and EXPECT. -/
def counted (w0 n : Nat) (exit : Bool) : Nat := putBits (putBits w0 42 32 (arrivedAfter w0 n exit)) 10 0 (expectAfter w0 n exit)

theorem barrierStep_flips {w0 w1 n : Nat} {exit : Bool} (h : expectAfter w0 n exit ≤ arrivedAfter w0 n exit ∧ 0 < arrivedAfter w0 n exit) :
    barrierStep w0 w1 n exit = (putBits (putBits (counted w0 n exit) 42 32 0) 63 63 (1 - bitsOf w0 63 63),
      putBits w1 31 0 (bitsOf w1 31 0 + 1), true) := if_pos h

theorem barrierStep_waits {w0 w1 n : Nat} {exit : Bool} (h : ¬ (expectAfter w0 n exit ≤ arrivedAfter w0 n exit ∧ 0 < arrivedAfter w0 n exit)) :
    barrierStep w0 w1 n exit = (counted w0 n exit, w1, false) := if_neg h

theorem counted_expect (w0 n : Nat) (exit : Bool) : bitsOf (counted w0 n exit) 10 0 = expectAfter w0 n exit := by
  rw [counted, bitsOf_putBits_same _ _ (by decide)]
  exact Nat.mod_eq_of_lt (expectAfter_lt w0 n exit)

theorem counted_arrived (w0 n : Nat) (exit : Bool) : bitsOf (counted w0 n exit) 42 32 = arrivedAfter w0 n exit := by
  rw [counted, bitsOf_putBits_apart _ _ (by decide) (by decide), bitsOf_putBits_same _ _ (by decide)]
  exact Nat.mod_eq_of_lt (arrivedAfter_lt w0 n exit)

/-- A field of word 0 other than ARRIVED and EXPECT. -/
theorem counted_apart (w0 n : Nat) (exit : Bool) {p q : Nat} (h1 : p < 32 ∨ 42 < q) (h2 : 10 < q) :
    bitsOf (counted w0 n exit) p q = bitsOf w0 p q := by
  rw [counted, bitsOf_putBits_apart _ _ (by decide) (.inr h2), bitsOf_putBits_apart _ _ (by decide) h1]

/-- What the words `v0` and `v1` of a barrier are after an arrival or an exit decrement on `w0` and `w1`. -/
structure Arrival (w0 w1 n : Nat) (exit : Bool) (v0 v1 : Nat) : Prop where
  expect : bitsOf v0 10 0 = expectAfter w0 n exit
  low : bitsOf v0 31 11 = bitsOf w0 31 11
  high : bitsOf v0 62 43 = bitsOf w0 62 43
  flips : expectAfter w0 n exit ≤ arrivedAfter w0 n exit ∧ 0 < arrivedAfter w0 n exit →
    bitsOf v0 63 63 = 1 - bitsOf w0 63 63 ∧ bitsOf v0 42 32 = 0 ∧ bitsOf v1 31 0 = (bitsOf w1 31 0 + 1) % 2 ^ 32
  waits : ¬ (expectAfter w0 n exit ≤ arrivedAfter w0 n exit ∧ 0 < arrivedAfter w0 n exit) →
    bitsOf v0 63 63 = bitsOf w0 63 63 ∧ bitsOf v0 42 32 = arrivedAfter w0 n exit ∧ v1 = w1

/-- The words that a barrier's object holds of the step. -/
theorem barrierStep_arrival {w0 w1 : Nat} (hw1 : w1 < 2 ^ 64) (n : Nat) (exit : Bool) :
    Arrival w0 w1 n exit ((barrierStep w0 w1 n exit).1 % 2 ^ 64) ((barrierStep w0 w1 n exit).2.1 % 2 ^ 64) := by
  by_cases h : expectAfter w0 n exit ≤ arrivedAfter w0 n exit ∧ 0 < arrivedAfter w0 n exit
  · rw [barrierStep_flips h]
    have apart {p q : Nat} (hpq : p < 32 ∨ 42 < q) (hq : p < 63) : bitsOf (putBits (putBits (counted w0 n exit) 42 32 0) 63 63
        (1 - bitsOf w0 63 63) % 2 ^ 64) p q = bitsOf (counted w0 n exit) p q := by
      rw [bitsOf_mod (by omega), bitsOf_putBits_apart _ _ (by decide) (.inl hq), bitsOf_putBits_apart _ _ (by decide) hpq]
    have hphase : 1 - bitsOf w0 63 63 < 2 ^ 1 := by omega
    exact
      { expect := (apart (by decide) (by decide)).trans (counted_expect w0 n exit)
        low := (apart (by decide) (by decide)).trans (counted_apart w0 n exit (by decide) (by decide))
        high := (apart (by decide) (by decide)).trans (counted_apart w0 n exit (by decide) (by decide))
        flips := fun _ => by
          rw [bitsOf_mod (by decide), bitsOf_putBits_same _ _ (by decide), bitsOf_mod (by decide),
            bitsOf_putBits_apart _ _ (by decide) (by decide), bitsOf_putBits_same _ _ (by decide), bitsOf_mod (by decide),
            bitsOf_putBits_same _ _ (by decide)]
          exact ⟨Nat.mod_eq_of_lt hphase, rfl, rfl⟩
        waits := fun hn => absurd h hn }
  · rw [barrierStep_waits h]
    exact
      { expect := (bitsOf_mod (by decide)).trans (counted_expect w0 n exit)
        low := (bitsOf_mod (by decide)).trans (counted_apart w0 n exit (by decide) (by decide))
        high := (bitsOf_mod (by decide)).trans (counted_apart w0 n exit (by decide) (by decide))
        flips := fun hf => absurd hf h
        waits := fun _ => ⟨(bitsOf_mod (by decide)).trans (counted_apart w0 n exit (by decide) (by decide)),
          (bitsOf_mod (by decide)).trans (counted_arrived w0 n exit), Nat.mod_eq_of_lt hw1⟩ }

/-! ### The splits that wait -/

/-- From `s` to `t` memory and the fabric are as they were. -/
structure Carried (s t : State) : Prop where
  mem : t.mem = s.mem
  fabric : t.fabric = s.fabric

theorem Carried.refl (s : State) : Carried s s := ⟨rfl, rfl⟩

theorem Carried.trans {s t u : State} (a : Carried s t) (b : Carried t u) : Carried s u :=
  ⟨b.mem.trans a.mem, b.fabric.trans a.fabric⟩

theorem finish_carried (s : State) (pc : Dword) : Carried s (s.finish pc) := by
  obtain ⟨_, _, _, _, _, _, _, _, _, _, h⟩ := settled_shape { s with me := { s.me with pc := pc } } true
  unfold State.finish
  rw [h]; exact ⟨rfl, rfl⟩

theorem withSplit_carried {f : State → State} (hf : ∀ u, Carried u (f u)) (s : State) (id : Nat) : Carried s (s.withSplit id f) := by
  unfold State.withSplit
  split
  · exact .refl s
  next t h => exact (Carried.mk (focus_mem h) (focus_fabric h)).trans (hf t)

theorem forSplits_carried {f : State → State} (hf : ∀ u, Carried u (f u)) (s : State) (ids : List Nat) : Carried s (s.forSplits ids f) := by
  unfold State.forSplits
  refine Carried.trans (t := ids.foldl (fun (t : State) id => t.withSplit id f) s) ?_ ⟨rfl, rfl⟩
  induction ids generalizing s with
  | nil => exact .refl s
  | cons id ids ih => exact (withSplit_carried hf s id).trans (ih _)

theorem barrierWake_carried (s : State) (grid team n : Nat) (q : Bool) : Carried s (s.barrierWake grid team n q) := by
  unfold State.barrierWake
  dsimp only
  refine Carried.trans ?_ (forSplits_carried (fun u => ?_) _ _)
  · exact ⟨rfl, rfl⟩
  · exact Carried.trans (t := { u with me := { u.me with status := .run, wasReady := false } }) ⟨rfl, rfl⟩ (finish_carried _ _)

/-- A split that is not parked stays as it is when a line is written (R72). -/
theorem written_unparked (s : State) (pa n : Nat) {id : Nat} {w : Split} (h : s.split? id = some w) (hw : ∀ line, w.status ≠ .parked line) :
    (s.written pa n).split? id = some w := by
  have wakes (u : State) (line : Nat) (hu : u.split? id = some w) : (u.mapSplits (wakeLine line)).split? id = some w := by
    have hid (v : Split) : (wakeLine line v).id = v.id := by unfold wakeLine; split <;> rfl
    have hall : (u.mapSplits (wakeLine line)).allSplits = u.allSplits.map (wakeLine line) := by
      unfold State.allSplits State.mapSplits
      dsimp only
      rw [hid]
      split <;> rfl
    have hcomp : ((fun v : Split => v.id == id) ∘ wakeLine line) = fun v => v.id == id := funext fun v => by simp [hid]
    unfold State.split? at hu ⊢
    rw [hall, List.find?_map, hcomp, hu]
    exact congrArg some (if_neg (hw line))
  unfold State.written
  dsimp only
  generalize List.range _ = is
  have hstart : (s.onStk (homeStack pa) fun q => { q with resv := q.resv.filter fun (r : Resv) => !onGranule pa n r.granule }).split? id
      = some w := h
  generalize State.onStk _ _ _ = u at hstart ⊢
  induction is generalizing u with
  | nil => exact hstart
  | cons i is ih => exact ih _ (wakes u _ hstart)

/-! ### The update -/

/-- Memory after an update of the barrier object at `pa`. -/
def Memory.barrierWritten (m : Memory) (pa n : Nat) (exit : Bool) (asid : Nat) : Memory :=
  let r := barrierStep (m.read pa 8) (m.read (pa + 8) 8) n exit
  (m.write64 pa r.1 asid).write64 (pa + 8) r.2.1 asid

theorem Memory.barrierWritten_reads {m : Memory} (h : m.wf = true) (pa n : Nat) (exit : Bool) (asid : Nat) :
    Arrival (m.read pa 8) (m.read (pa + 8) 8) n exit ((m.barrierWritten pa n exit asid).read pa 8)
        ((m.barrierWritten pa n exit asid).read (pa + 8) 8)
      ∧ ∀ a, a < pa ∨ pa + 16 ≤ a → (m.barrierWritten pa n exit asid).byte a = m.byte a := by
  have hstep := barrierStep_arrival (w0 := m.read pa 8) (m.read_lt (pa + 8) 8) n exit
  unfold Memory.barrierWritten
  generalize barrierStep _ _ _ _ = r at hstep
  have h1 := Memory.write64_wf h pa r.1 asid
  refine ⟨?_, fun a ha => ?_⟩
  · rw [Memory.read_write64 h1, Memory.write64, Memory.read_write_apart h1 _ _ _ _ _ (.inl (Nat.le_refl _)),
      Memory.read_write64 h]
    exact hstep
  · unfold Memory.write64 at h1 ⊢
    rw [Memory.byte_write h1, if_neg (by rw [bytesLE_length]; omega), Memory.byte_write h, if_neg (by rw [bytesLE_length]; omega)]

/-- The split that waits for its own arrival waits from then on for the flip (R135). -/
def State.awaitsFlip (s : State) (n : Nat) (q : Bool) : Option Nat → State
  | none => s
  | some id => s.onSplit id fun v => { v with status := .barrier n q }

theorem awaitsFlip_carried (s : State) (n : Nat) (q : Bool) (w : Option Nat) : Carried s (s.awaitsFlip n q w) := by
  cases w with
  | none => exact .refl s
  | some id =>
    show Carried s (s.onSplit id _)
    unfold State.onSplit
    split <;> exact ⟨rfl, rfl⟩

/-- The state in which an update of barrier `n` of `tm` has been performed, before a flip ends any wait. -/
def State.barrierPut (s : State) (tm : Team) (n lanes : Nat) (exit : Bool) (asid : Nat) (w : Option Nat) : State :=
  let pa := tm.vaultPa + 16 * n
  { ((s.awaitsFlip n ((s.mem.read pa 8).testBit 63) w).written pa 16).meets tm.base (some tm.grid) with
    mem := s.mem.barrierWritten pa lanes exit asid }

theorem barrierPut_fabric (s : State) (tm : Team) (n lanes : Nat) (exit : Bool) (asid : Nat) (w : Option Nat) :
    (s.barrierPut tm n lanes exit asid w).fabric = s.fabric := by
  unfold State.barrierPut
  dsimp only
  generalize hu : s.awaitsFlip n _ w = u
  obtain ⟨st, hmeets⟩ := meets_shape (u.written (tm.vaultPa + 16 * n) 16) tm.base (some tm.grid)
  obtain ⟨f, st', -, hw⟩ := written_shape u (tm.vaultPa + 16 * n) 16
  rw [hmeets, hw, ← hu]
  exact (awaitsFlip_carried s n _ w).fabric

/-- The split whose arrival it was waits for the flip. -/
theorem barrierPut_split {s : State} {id : Nat} {x : Split} (h0 : id ≠ 0) (hx : s.split? id = some x) (tm : Team) (n lanes : Nat)
    (exit : Bool) (asid : Nat) : (s.barrierPut tm n lanes exit asid (some id)).split? id
      = some { x with status := .barrier n ((s.mem.read (tm.vaultPa + 16 * n) 8).testBit 63) } := by
  have hset : (s.awaitsFlip n ((s.mem.read (tm.vaultPa + 16 * n) 8).testBit 63) (some id)).split? id
      = some { x with status := .barrier n _ } := split?_onSplit h0 hx fun _ => rfl
  have hwritten := written_unparked _ (tm.vaultPa + 16 * n) 16 hset fun _ => nofun
  obtain ⟨st, hmeets⟩ := meets_shape ((s.awaitsFlip n ((s.mem.read (tm.vaultPa + 16 * n) 8).testBit 63) (some id)).written
    (tm.vaultPa + 16 * n) 16) tm.base (some tm.grid)
  unfold State.barrierPut
  dsimp only
  rw [hmeets]
  exact hwritten

theorem barrierUpdate_eq {s : State} {grid team : Nat} {tm : Team} (htm : s.team? grid team = some tm) (n lanes : Nat) (exit : Bool)
    (asid : Nat) (w : Option Nat) (hp : s.mem.poisoned (tm.vaultPa + 16 * n) = false) :
    s.barrierUpdate grid team n lanes exit asid w =
      if (barrierStep (s.mem.read (tm.vaultPa + 16 * n) 8) (s.mem.read (tm.vaultPa + 16 * n + 8) 8) lanes exit).2.2
      then (s.barrierPut tm n lanes exit asid w).barrierWake grid team n ((s.mem.read (tm.vaultPa + 16 * n) 8).testBit 63)
      else (s.barrierPut tm n lanes exit asid w).unfocus := by
  have hgrid : tm.grid = grid := (team?_names htm).1
  unfold State.barrierUpdate
  rw [htm]
  dsimp only
  rw [if_neg (by rw [hp]; decide)]
  unfold State.barrierPut Memory.barrierWritten
  rw [hgrid]
  cases w with
  | none => rfl
  | some id =>
    have hmem : (s.onSplit id fun v => { v with status := .barrier n ((s.mem.read (tm.vaultPa + 16 * n) 8).testBit 63) }).mem = s.mem :=
      (awaitsFlip_carried s n _ (some id)).mem
    dsimp only
    rw [hmem]
    rfl

/-- What an update leaves of memory and the fabric, and of the split that has arrived where the barrier does not flip. -/
theorem barrierUpdate_leaves {s : State} {grid team : Nat} {tm : Team} (htm : s.team? grid team = some tm) (n lanes : Nat) (exit : Bool)
    (asid : Nat) (w : Option Nat) (hp : s.mem.poisoned (tm.vaultPa + 16 * n) = false) :
    let pa := tm.vaultPa + 16 * n
    let t := s.barrierUpdate grid team n lanes exit asid w
    t.mem = s.mem.barrierWritten pa lanes exit asid ∧ t.fabric = s.fabric
      ∧ ∀ id x, w = some id → id ≠ 0 → s.split? id = some x →
          (barrierStep (s.mem.read pa 8) (s.mem.read (pa + 8) 8) lanes exit).2.2 = false →
          ∃ y, t.split? id = some y ∧ y.status = .barrier n ((s.mem.read pa 8).testBit 63) := by
  intro pa t
  have ht : t = _ := barrierUpdate_eq htm n lanes exit asid w hp
  have hfab := barrierPut_fabric s tm n lanes exit asid w
  rw [ht]
  split
  next hflip =>
    have hwake := barrierWake_carried (s.barrierPut tm n lanes exit asid w) grid team n ((s.mem.read pa 8).testBit 63)
    exact ⟨hwake.mem, hwake.fabric.trans hfab, fun _ _ _ _ _ hno => absurd hflip (by rw [hno]; decide)⟩
  next =>
    refine ⟨rfl, hfab, fun id x hid h0 hx _ => ?_⟩
    subst hid
    exact ⟨_, barrierPut_split h0 hx tm n lanes exit asid, rfl⟩

/-- Settles O33: the words are put field by field, and a flip wakes splits without touching memory. -/
theorem namedBarriersFlip : Obligations.NamedBarriersFlip := by
  unfold Obligations.NamedBarriersFlip
  intro s f src dst grid team grp n lanes w asid gid exit post tm hhead htm hwf pa hawake hwaits hpois w0 w1 arrived expect flips
  have hfwf : f.mem.wf = true := by rw [head_mem hhead]; exact hwf
  have hpa : f.barrierPa grid team n = pa := by unfold State.barrierPa; rw [htm]; rfl
  obtain ⟨hwords, hbytes⟩ := Memory.barrierWritten_reads hfwf pa lanes exit asid
  obtain ⟨hexpect, hlow, hhigh, hflips, hstays⟩ := hwords
  cases post with
  | none =>
    obtain ⟨hmem, -, hsplit⟩ := barrierUpdate_leaves htm n lanes exit asid (some w) hpois
    have hexec : exec (.barrierArrival src dst) s = .next (f.barrierUpdate grid team n lanes exit asid (some w)) := by
      show execBarrierArrival src dst s = _
      unfold execBarrierArrival
      rw [hhead]
      dsimp only
      rw [hpa, hwaits, served_awake hawake]
      rfl
    refine ⟨_, hexec, ?_⟩
    dsimp only
    rw [hmem]
    refine ⟨hexpect, hlow, hhigh, hflips, hstays, hbytes, nofun, fun x _ hno h0 hx => hsplit w x rfl h0 hx ?_⟩
    exact congrArg (fun r => r.2.2) (barrierStep_waits hno)
  | some p =>
    obtain ⟨no, kin⟩ := p
    obtain ⟨hmem, hfab, -⟩ := barrierUpdate_leaves htm n lanes exit asid none hpois
    have hexec : exec (.barrierArrival src dst) s
        = .next ((f.barrierUpdate grid team n lanes exit asid none).send dst src (.postAck gid no false)) := by
      show execBarrierArrival src dst s = _
      unfold execBarrierArrival
      rw [hhead]
      dsimp only
      rw [hpa, hwaits, served_awake hawake, hpois]
      rfl
    refine ⟨_, hexec, ?_⟩
    dsimp only [State.send]
    rw [hmem]
    refine ⟨hexpect, hlow, hhigh, hflips, hstays, hbytes, fun no' kin' h => ?_, fun _ h => nomatch h⟩
    cases h
    exact List.mem_append_right _ List.mem_cons_self

end Sys2Proof.Machine
end

section
/-! PROOF. The end of a run at an address, and waits for tokens that are zero (R47, R67, R126). -/
namespace Sys2Proof.Machine

/-! ### The end of a run at an address -/

theorem Kept.refl (s : State) : Kept s s := ⟨rfl, rfl, rfl, rfl, rfl, rfl, rfl, rfl, rfl, rfl, fun _ => rfl, rfl, rfl, rfl⟩

theorem kept_fresh427 (s : State) : Kept s s.fresh427 :=
  ⟨rfl, rfl, rfl, rfl, rfl, rfl, rfl, rfl, rfl, rfl, fun _ => rfl, rfl, rfl, rfl⟩

/-- What a program can read of the split stays, whatever changes of the others. -/
theorem Kept.finish {s u : State} (k : Kept s u) (pc : Dword) : Kept s (u.finish pc) :=
  Kept.settled (u := { u with me := { u.me with pc := pc } }) ⟨k.regs, k.sregs, k.preds, k.pal, k.seeds, k.range, k.mstep, k.trapinfo,
    k.exited, k.mem, k.bytes, k.tiles, k.swatch, k.splits⟩ true

theorem finish_keeps (s : State) (pc : Dword) : (s.finish pc).me.toks = s.me.toks ∧ (s.finish pc).me.ops = s.me.ops
    ∧ (s.finish pc).me.results = s.me.results ∧ (s.finish pc).me.status = s.me.status := by
  obtain ⟨htoks, hops, hres, hst, -⟩ := settled_keeps { s with me := { s.me with pc := pc } } true
  exact ⟨htoks, hops, hres, hst⟩

theorem finish_inRun (s : State) (pc : Dword) : (s.finish pc).me.inRun = false := by
  unfold State.finish State.settled
  exact endRun_inRun _

theorem finish_straight {s : State} {pc : Dword} (h : s.Straight pc) :
    s.finish pc = ({ s with me := { s.me with pc := pc } } : State).endRun := settled_straight _ true h

/-- A split that goes on at `pc` stands there with its lanes and entries, unless its newest entry ends there (R47). -/
theorem finish_goes {s : State} {pc : Dword} (h : s.Straight pc) : (s.finish pc).me.pc = pc ∧ (s.finish pc).me.act = s.me.act
    ∧ (s.finish pc).win.entries = s.win.entries := by
  rw [finish_straight h]
  exact ⟨endRun_pc _, endRun_act _, endRun_entries _⟩

theorem finish_window {s : State} (pc : Dword) : (s.finish pc).me.wbase = s.me.wbase ∧ (s.finish pc).me.frame = s.me.frame := by
  obtain ⟨_, _, _, _, _, _, _, _, _, _, h⟩ := settled_shape { s with me := { s.me with pc := pc } } true
  unfold State.finish
  rw [h]; exact ⟨rfl, rfl⟩

/-! ### Waits that are over at once -/

/-- A wait for tokens that are zero is over (R126). -/
theorem advanceBy_toks {s : State} {m : BitVec 8} (hz : s.me.toksZero m = true) (ws : List WaitStep) (k : Cont) (n : Nat) :
    (s.waitFor (.toks m :: ws) k).advanceBy (n + 1) = (s.waitFor ws k).advanceBy n := by
  show (if !s.me.toksZero m then _ else _) = _
  rw [hz]
  rfl

/-- Tokens that are zero are not waited for (R126). -/
theorem await_zero {s : State} {m : BitVec 8} (hs : s.me.status = .run) (hz : s.me.toksZero m = true) {k : Cont} {t : State}
    (hk : s.proceed k = some t) : s.await [.toks m] k = t := by
  have hrun : ({ s.waitFor [] k with me := { (s.waitFor [] k).me with status := .run } } : State) = s := by
    unfold State.waitFor
    rw [← hs]
  show (s.waitFor [.toks m] k).advanceBy 6 = t
  rw [advanceBy_toks hz]
  show (State.proceed { s.waitFor [] k with me := { (s.waitFor [] k).me with status := .run } } k).getD (s.waitFor [] k) = t
  rw [hrun, hk]
  rfl

/-- The offset of a branch, as the words hold it (R128). -/
theorem relative_eq (s : State) (off : Word) : s.relative off = s.me.pc + off.signExtend 64 := by
  have hoff : sextOf off.toNat 32 = off.toInt := by
    have hlt := off.isLt
    unfold sextOf
    rw [BitVec.toInt_eq_toNat_cond]
    norm_num at hlt ⊢
    split <;> split <;> omega
  unfold State.relative BitVec.signExtend
  rw [hoff]

/-- An instruction that fails its effect check raises it, where nothing holds it up before (R409). -/
theorem gate_raises {s : State} {i : Instr} {h : Hd} {n : Need8} {body : State → State} {c : TClass} {d : Nat} (ha : s.Acts h)
    (hc : n.chk = some (c, d)) (ht : ∀ k, n.tok = some k → s.Room k) :
    s.gate i h n body = .next (s.fresh427.raise (s.trapHere c d n.arg)) := by
  obtain ⟨hact, hclear⟩ := ha
  have hfull : s.tokFull n.tok = false := by
    unfold State.tokFull
    split
    · rfl
    next k hk => have := (ht k hk).1; simp; omega
  have hheld : s.held h n = false := by
    unfold State.held
    rw [hfull]
    rcases Clear.not_pending hclear h n with hp | ⟨-, hr⟩
    · simp [hp]
    · simp [hr]
  unfold State.gate
  rw [if_neg hact, hheld, hc]
  rfl

/-- An instruction without a token that passes its check runs its body. -/
theorem gate_acts {s : State} {i : Instr} {h : Hd} {n : Need8} {body : State → State} (ha : s.Acts h) (hk : n.chk = none)
    (ht : n.tok = none) : s.gate i h n body = .next (body s.fresh427) :=
  gate_on ha hk fun _ hk' => nomatch ht.symm.trans hk'

end Sys2Proof.Machine
end

section
/-! PROOF. Branches (R71, R128, R129). -/
namespace Sys2Proof.Machine

/-- From `s` to `t` a branch to `x` has been taken: the run is over, and a backward branch may park the split (R71). -/
structure Jumps (s t : State) (x : Dword) : Prop where
  kept : Kept s t
  toks : t.me.toks = s.me.toks
  ops : t.me.ops = s.me.ops
  results : t.me.results = s.me.results
  inRun : t.me.inRun = false
  goes : s.Straight x → t.me.pc = x ∧ t.me.act = s.me.act ∧ t.win.entries = s.win.entries
  status : t.me.status = s.me.status ∨ x.toNat ≤ s.me.pc.toNat ∧ ∃ n, t.me.status = .parked n

/-- Beside the end of the run, a branch changes what spin park watches, and may park the split. -/
theorem branchTo_shape (s : State) (x : Dword) : ∃ st sp stks, s.branchTo x
      = { s.finish x with me := { (s.finish x).me with status := st, spin := sp }, stks := stks }
    ∧ (st = (s.finish x).me.status ∨ x.toNat ≤ s.me.pc.toNat ∧ ∃ n, st = .parked n) := by
  unfold State.branchTo
  dsimp only
  split
  next => exact ⟨_, _, _, rfl, .inl rfl⟩
  next hback =>
    have hle : x.toNat ≤ s.me.pc.toNat := by
      simp only [Bool.or_eq_true, decide_eq_true_eq, not_or, Nat.not_lt] at hback
      exact hback.1
    split
    next n _ => exact ⟨_, _, _, rfl, .inr ⟨hle, n, rfl⟩⟩
    next => exact ⟨_, _, _, rfl, .inl rfl⟩

theorem branchTo_jumps {s u : State} (k : Kept s u) (hn : u.me.num = s.me.num) (he : u.win.entries = s.win.entries)
    (hpc : u.me.pc = s.me.pc) (ha : u.me.act = s.me.act) (ht : u.me.toks = s.me.toks) (ho : u.me.ops = s.me.ops)
    (hr : u.me.results = s.me.results) (hs : u.me.status = s.me.status) (x : Dword) : Jumps s (u.branchTo x) x := by
  obtain ⟨st, sp, stks, hb, hst⟩ := branchTo_shape u x
  obtain ⟨htoks, hops, hres, hstatus⟩ := finish_keeps u x
  have kf := k.finish x
  rw [hb]
  exact
    { kept := ⟨kf.regs, kf.sregs, kf.preds, kf.pal, kf.seeds, kf.range, kf.mstep, kf.trapinfo, kf.exited, kf.mem, kf.bytes, kf.tiles,
        kf.swatch, kf.splits⟩
      toks := htoks.trans ht
      ops := hops.trans ho
      results := hres.trans hr
      inRun := finish_inRun u x
      goes := fun hx => by
        have hux : u.Straight x := by unfold State.Straight; rw [own_congr hn he]; exact hx
        obtain ⟨hpc', hact, hent⟩ := finish_goes hux
        exact ⟨hpc', hact.trans ha, hent.trans he⟩
      status := by rw [← hs, ← hstatus, ← hpc]; exact hst }

theorem fresh427_jumps (s : State) (x : Dword) : Jumps s (s.fresh427.branchTo x) x :=
  branchTo_jumps (kept_fresh427 s) rfl rfl rfl rfl rfl rfl rfl rfl x

theorem codeChk_none {x : Dword} (h : x.toNat < 2 ^ 54 ∧ x.toNat % 4 = 0) : codeChk x = none := by
  unfold codeChk chkIf
  rw [if_neg]
  simp only [Bool.or_eq_true, decide_eq_true_eq, bne_iff_ne]
  omega

theorem codeChk_some {x : Dword} (h : ¬ (x.toNat < 2 ^ 54 ∧ x.toNat % 4 = 0)) : codeChk x = some (.illegal, 5) := by
  unfold codeChk chkIf
  rw [if_pos]
  simp only [Bool.or_eq_true, decide_eq_true_eq, bne_iff_ne]
  omega

/-- A `brp` whose lanes do not all branch asks for a number and waits for it (R21, R129). -/
theorem brp_asks {s : State} (hz : s.me.toksZero 0xFF#8 = true) (x : Mask) (target recon : Dword) :
    s.await [.toks 0xFF#8, .request, .number] (.brp x target recon)
      = { s with me := { s.me with status := .wait [.number] (.brp x target recon) },
                 fabric := s.fabric ++ [⟨s.me.stack, s.gr.base, s.me.stack, .numReq s.me.id s.gr.id s.me.core⟩] } := by
  show (s.waitFor [.toks 0xFF#8, .request, .number] _).advanceBy 6 = _
  rw [advanceBy_toks hz]
  rfl

section
variable {s : State} {h : Hd}

theorem exec_bra (ha : s.Acts h) (off : Word) : exec (.bra h off) s = .next (s.fresh427.branchTo (s.me.pc + off.signExtend 64)) := by
  show execBra h off s = _
  unfold execBra
  refine Eq.trans (gate_acts ha rfl rfl) ?_
  rw [relative_eq]
  rfl

theorem exec_brx (ha : s.Acts h) {a : SReg} (hx : (s.s a).toNat < 2 ^ 54 ∧ (s.s a).toNat % 4 = 0) :
    exec (.brx h a) s = .next (s.fresh427.branchTo (s.s a)) := by
  show execBrx h a s = _
  unfold execBrx
  exact gate_acts ha (codeChk_none hx) rfl

theorem exec_brx_raises (ha : s.Acts h) {a : SReg} (hx : ¬ ((s.s a).toNat < 2 ^ 54 ∧ (s.s a).toNat % 4 = 0)) :
    exec (.brx h a) s = .next (s.fresh427.raise (s.trapHere .illegal 5)) := by
  show execBrx h a s = _
  unfold execBrx
  exact gate_raises ha (codeChk_some hx) fun _ hk => nomatch hk

/-- A `brp` whose lanes all branch is a branch. -/
theorem exec_brp_all (ha : s.Acts h) (hall : s.active h = s.me.act) (off recon : Word) :
    exec (.brp h off recon) s = .next (s.fresh427.branchTo (s.me.pc + off.signExtend 64)) := by
  show execBrp h off recon s = _
  unfold execBrp
  refine Eq.trans (gate_acts ha rfl rfl) ?_
  dsimp only
  rw [relative_eq]
  exact congrArg Host.Outcome.next (if_pos hall)

/-- A `brp` whose lanes do not all branch waits. -/
theorem exec_brp_some (ha : s.Acts h) (hsome : s.active h ≠ s.me.act) (off recon : Word) :
    exec (.brp h off recon) s = .next (s.fresh427.spoil.await [.toks 0xFF#8, .request, .number]
      (.brp (s.active h) (s.me.pc + off.signExtend 64) (s.me.pc + recon.signExtend 64))) := by
  show execBrp h off recon s = _
  unfold execBrp
  refine Eq.trans (gate_acts ha rfl rfl) ?_
  dsimp only
  rw [relative_eq, relative_eq]
  exact congrArg Host.Outcome.next (if_neg hsome)

end

/-- R128, R129: each branch ends its run at its target. -/
theorem branchesGoToTheirTarget : Claims.BranchesGoToTheirTarget := by
  intro s h off recon a ha rel goes
  have jump {i : Instr} {x : Dword} (he : exec i s = .next (s.fresh427.branchTo x)) : goes i x := by
    obtain ⟨hkept, htoks, hops, hres, hrun, hgoes, hst⟩ := fresh427_jumps s x
    exact ⟨_, he, hkept, htoks, hops, hres, hrun, hgoes, hst⟩
  refine ⟨jump (exec_bra ha off), fun hlt h4 => jump (exec_brx ha ⟨hlt, h4⟩), fun hbad => exec_brx_raises ha hbad,
    fun hall => jump (exec_brp_all ha hall off recon), fun hsome hz => ?_⟩
  have hzero : s.fresh427.spoil.me.toksZero 0xFF#8 = true := by
    show s.me.toksZero 0xFF#8 = true
    unfold Split.toksZero
    rw [hz]; decide
  refine ⟨_, (exec_brp_some ha hsome off recon).trans (congrArg Host.Outcome.next (brp_asks hzero ..)), ?_⟩
  exact ⟨⟨rfl, rfl, rfl, rfl, rfl, rfl, rfl, rfl, rfl, rfl, fun _ => rfl, rfl, rfl, rfl⟩, rfl, rfl, rfl, rfl, rfl⟩

end Sys2Proof.Machine
end

section
/-! PROOF. Calls and returns (R126, R130, R131). -/
namespace Sys2Proof.Machine

/-- The splits that reside in a slot are the same where the split in focus keeps its name and its place. -/
theorem residentsOf_congr {s u : State} (hs : u.splits = s.splits) (hid : u.me.id = s.me.id) (hres : u.me.resident = s.me.resident)
    (hhome : u.me.home = s.me.home) (hn : u.me.num = s.me.num) (q : GroupSlot) : u.residentsOf q = s.residentsOf q := by
  unfold State.residentsOf State.allSplits
  rw [hs, hid]
  split
  · rfl
  · rw [List.filter_cons, List.filter_cons, hres, hhome]
    split
    · rw [List.foldl_cons, List.foldl_cons, hn]
    · rfl

theorem callEntry_kind (owner : BitVec 4) {f : Nat} (hf : f ≤ 64) (ret live : Dword) : (callEntry owner f ret live).kind = 1 := by
  have hret := bitsOf_lt ret.toNat 53 2
  unfold Entry.kind callEntry
  rw [BitVec.toNat_ofNat, bitsOf_mod (by decide)]
  generalize bitsOf ret.toNat 53 2 = b at hret
  unfold bitsOf
  norm_num at hret ⊢
  omega

/-- No masked entry stands after a call entry (R47). -/
theorem maskedRpc_call (n : Nat) (es : List Entry) {c : Entry} (hc : c.kind = 1) (hown : c.owned n = true) :
    maskedRpc ((es ++ [c]).filter fun e => e.owned n) = none := by
  unfold maskedRpc
  simp [hown, hc]

/-- A split whose number has no owner bit owns no entry. -/
theorem owned_of_not_ownBit {n : Nat} (hn : (ownBit n).getLsbD n = false) (e : Entry) : e.owned n = false := by
  have h4 : ¬ n < 4 := fun h => by
    have : (ownBit n).getLsbD n = true := by unfold ownBit; simp [h]
    rw [this] at hn; cases hn
  exact BitVec.getLsbD_of_ge _ _ (by omega)

/-- After a call the split's run goes on at the callee as it stands. -/
theorem maskedRpc_after_call (es : List Entry) {f : Nat} (hf : f ≤ 64) (ret live : Dword) (n : Nat) :
    maskedRpc ((es ++ [callEntry (ownBit n) f ret live]).filter fun e => e.owned n) = none := by
  cases hown : (ownBit n).getLsbD n with
  | true => exact maskedRpc_call n es (callEntry_kind _ hf _ _) hown
  | false =>
    rw [List.filter_eq_nil_iff.mpr fun e _ => by rw [owned_of_not_ownBit hown e]; decide]
    rfl

/-- What a call, or a return, that is made leaves of the split beside its entries. -/
structure Transfers (s t : State) (pc : Dword) (wbase frame : Nat) : Prop where
  kept : Kept s t
  toks : t.me.toks = s.me.toks
  ops : t.me.ops = s.me.ops
  wbase : t.me.wbase = wbase
  frame : t.me.frame = frame
  pc : t.me.pc = pc
  act : t.me.act = s.me.act
  inRun : t.me.inRun = false

/-- A split that takes other entries and another window, and goes on at `pc`. -/
theorem finish_transfers {s : State} {es : List Entry} {wbase frame : Nat} {pc : Dword}
    (h : maskedRpc (es.filter fun e => e.owned s.me.num) ≠ some pc) :
    let u : State := { s.setEntries es with me := { s.me with wbase := wbase, frame := frame } }
    Transfers s (u.finish pc) pc wbase frame ∧ (u.finish pc).win.entries = es := by
  intro u
  obtain ⟨htoks, hops, -, -⟩ := finish_keeps u pc
  obtain ⟨hpc, hact, hes⟩ := finish_goes (s := u) (pc := pc) h
  obtain ⟨hwb, hfr⟩ := finish_window (s := u) pc
  have kept : Kept s u := ⟨rfl, rfl, rfl, rfl, rfl, rfl, rfl, rfl, rfl, rfl, fun _ => rfl, rfl, rfl, rfl⟩
  exact ⟨⟨kept.finish pc, htoks, hops, hwb, hfr, hpc, hact, finish_inRun u pc⟩, hes⟩

/-! ### The effects -/

section
variable {s : State}

theorem callEffect_calls {caller callee : Nat} (hroom : s.me.wbase + caller ≤ 64) (hlen : s.win.entries.length < 32) (target live : Dword) :
    let es := s.win.entries ++ [callEntry (ownBit s.me.num) caller (s.me.pc + 20#64) live]
    let t := s.callEffect target live caller callee
    Transfers s t target (s.me.wbase + caller) callee ∧ t.win.entries = es := by
  intro es t
  have ht : t = State.finish { s.setEntries es with me := { s.me with wbase := s.me.wbase + caller, frame := callee } } target := by
    show s.callEffect target live caller callee = _
    unfold State.callEffect
    rw [if_neg (by omega), if_neg (by omega)]
    rfl
  rw [ht]
  refine finish_transfers ?_
  rw [maskedRpc_after_call _ (by omega)]
  exact (Option.some_ne_none target).symm

theorem callEffect_window {caller callee : Nat} (h : 64 < s.me.wbase + caller) (target live : Dword) :
    s.callEffect target live caller callee = s.raise (s.trapHere .stack 2) := if_pos h

theorem callEffect_full {caller callee : Nat} (h : s.me.wbase + caller ≤ 64) (hlen : 32 ≤ s.win.entries.length) (target live : Dword) :
    s.callEffect target live caller callee = s.raise (s.trapHere .stack 0) := by
  unfold State.callEffect
  rw [if_neg (by omega), if_pos hlen]

theorem owned_drop (e : Entry) (n : Nat) : (e.drop n).owned n = false := by
  unfold Entry.owned Entry.drop ownBit
  by_cases hn : n < 4
  · rw [BitVec.getLsbD_and, BitVec.getLsbD_not, BitVec.getLsbD_shiftLeft]
    simp [hn]
  · exact BitVec.getLsbD_of_ge _ _ (by omega)

/-- A dropped copy is no entry of the split any more. -/
theorem own_without_call (res : BitVec 4) (es : List Entry) (e : Entry) (n : Nat) :
    (freeUnowned res (es ++ [e.drop n])).filter (fun x => x.owned n) = (freeUnowned res es).filter fun x => x.owned n := by
  unfold freeUnowned
  rw [List.filter_filter, List.filter_filter, List.filter_append, List.filter_cons_of_neg (by simp [owned_drop]), List.filter_nil,
    List.append_nil]

theorem retEffect_returns {es : List Entry} {e : Entry} (hes : s.win.entries = es ++ [e]) (hk : e.kind = 1) (ho : e.owned s.me.num = true)
    (hm : maskedRpc ((freeUnowned s.residents es).filter fun x => x.owned s.me.num) ≠ some e.ret) :
    Transfers s s.retEffect e.ret (s.me.wbase - e.fsz) e.fsz
      ∧ s.retEffect.win.entries = freeUnowned s.residents (es ++ [e.drop s.me.num]) := by
  have hcall : splitAtCall s.own.reverse = ([], some e) := by
    unfold State.own
    rw [hes, List.filter_append, List.filter_cons_of_pos (p := fun x : Entry => x.owned s.me.num) ho, List.filter_nil, List.reverse_append, List.reverse_singleton,
      List.singleton_append, splitAtCall, if_pos hk]
  have hdrop : (returnFrom s.me.num s.win.entries.reverse).reverse = es ++ [e.drop s.me.num] := by
    rw [hes, List.reverse_append, List.reverse_singleton, List.singleton_append, returnFrom, if_neg (by rw [ho]; decide), if_pos hk,
      List.reverse_cons, List.reverse_reverse]
  have ht : s.retEffect = State.finish { s.setEntries (freeUnowned s.residents (es ++ [e.drop s.me.num])) with
      me := { s.me with wbase := s.me.wbase - e.fsz, frame := e.fsz } } e.ret := by
    unfold State.retEffect
    rw [hcall, hdrop]
    rfl
  rw [ht]
  refine finish_transfers ?_
  rw [own_without_call]
  exact hm

theorem splitAtCall_none {es : List Entry} (h : ∀ e ∈ es, e.kind ≠ 1) : (splitAtCall es).2 = none := by
  induction es with
  | nil => rfl
  | cons e es ih =>
    rw [splitAtCall, if_neg (h e List.mem_cons_self)]
    exact ih fun x hx => h x (List.mem_cons_of_mem _ hx)

theorem retEffect_raises (h : ∀ x ∈ s.own, x.kind ≠ 1) : s.retEffect = s.raise (s.trapHere .stack 1) := by
  have hnone := splitAtCall_none (es := s.own.reverse) fun e he => h e (List.mem_reverse.mp he)
  unfold State.retEffect
  rw [show splitAtCall s.own.reverse = ((splitAtCall s.own.reverse).1, none) from Prod.ext rfl hnone]

end

/-! ### The instructions -/

section
variable {s : State} {h : Hd}

theorem exec_call (ha : s.Acts h) (hs : s.me.status = .run) (hz : s.me.toksZero 0xF0#8 = true) (callee caller : Fin 64) (off : Word)
    (live : Dword) : exec (.call h callee caller off live) s
      = .next (s.fresh427.callEffect (s.me.pc + off.signExtend 64) live (caller.val + 1) (callee.val + 1)) := by
  show execCall h callee caller off live s = _
  unfold execCall
  refine Eq.trans (gate_acts ha rfl rfl) ?_
  rw [relative_eq, await_zero (s := s.fresh427) hs hz rfl]
  rfl

theorem exec_callx (ha : s.Acts h) (hs : s.me.status = .run) (hz : s.me.toksZero 0xF0#8 = true) {b : SReg}
    (hx : (s.s b).toNat < 2 ^ 54 ∧ (s.s b).toNat % 4 = 0) (callee caller : Fin 64) (live : Dword) :
    exec (.callx h b callee caller live) s = .next (s.fresh427.callEffect (s.s b) live (caller.val + 1) (callee.val + 1)) := by
  show execCallx h b callee caller live s = _
  unfold execCallx
  refine Eq.trans (gate_acts ha (codeChk_none hx) rfl) ?_
  rw [await_zero (s := s.fresh427) hs hz rfl]
  rfl

theorem exec_ret (ha : s.Acts h) (hs : s.me.status = .run) (hz : s.me.toksZero 0xF0#8 = true) :
    exec (.ret h) s = .next s.fresh427.retEffect := by
  show execRet h s = _
  unfold execRet
  refine Eq.trans (gate_acts ha rfl rfl) ?_
  rw [await_zero (s := s.fresh427) hs hz rfl]

/-- What holds of the state at an instruction's issue holds of the state before it. -/
theorem Transfers.of_fresh427 {t : State} {pc : Dword} {wbase frame : Nat} (h : Transfers s.fresh427 t pc wbase frame) :
    Transfers s t pc wbase frame := by
  obtain ⟨k, htoks, hops, hwbase, hframe, hpc, hact, hrun⟩ := h
  exact ⟨⟨k.regs, k.sregs, k.preds, k.pal, k.seeds, k.range, k.mstep, k.trapinfo, k.exited, k.mem, k.bytes, k.tiles, k.swatch, k.splits⟩,
    htoks, hops, hwbase, hframe, hpc, hact, hrun⟩

end

/-- R130, R131: a call pushes an entry and opens a window; a return pops it. -/
theorem callsAndReturns : Claims.CallsAndReturns := by
  intro s h callee caller off b live es e ha hs hz traps room calls
  have made {i : Instr} {x : Dword}
      (he : exec i s = .next (s.fresh427.callEffect x live (caller.val + 1) (callee.val + 1))) : calls i x := by
    refine ⟨fun hroom hlen => ?_, fun hno => he.trans ?_, fun hroom hlen => he.trans ?_⟩
    · obtain ⟨ht, hentries⟩ := callEffect_calls (s := s.fresh427) (caller := caller.val + 1) (callee := callee.val + 1) hroom hlen x live
      obtain ⟨hkept, htoks, hops, hwbase, hframe, hpc, hact, hrun⟩ := ht.of_fresh427
      exact ⟨_, he, hkept, htoks, hops, hentries, hwbase, hframe, hpc, hact, hrun⟩
    · rw [callEffect_window (Nat.not_le.mp hno)]; rfl
    · rw [callEffect_full (s := s.fresh427) (caller := caller.val + 1) hroom hlen]; rfl
  refine ⟨made (exec_call ha hs hz callee caller off live), fun hlt h4 => made (exec_callx ha hs hz ⟨hlt, h4⟩ callee caller live),
    fun hes hk ho hm => ?_, fun hno => ?_⟩
  · have hres : s.fresh427.residents = s.residents := residentsOf_congr (u := s.fresh427) (s := s) rfl rfl rfl rfl rfl s.win
    obtain ⟨ht, hentries⟩ := retEffect_returns (s := s.fresh427) hes hk ho (by rw [hres]; exact hm)
    obtain ⟨hkept, htoks, hops, hwbase, hframe, hpc, hact, hrun⟩ := ht.of_fresh427
    rw [hres] at hentries
    exact ⟨_, exec_ret ha hs hz, hkept, htoks, hops, hentries, hwbase, hframe, hpc, hact, hrun⟩
  · refine (exec_ret ha hs hz).trans ?_
    rw [retEffect_raises (s := s.fresh427) hno]
    rfl

/-- Settles O17: a branch ends its run at its target, and a call and a return are one change of entries and window before the end of
the run. -/
theorem controlTransfers : Obligations.ControlTransfers := ⟨branchesGoToTheirTarget, callsAndReturns⟩

end Sys2Proof.Machine
end

section
/-! PROOF. Operations complete: their results land in the lanes that are done, and their token falls (R124, R207). -/
namespace Sys2Proof.Machine

/-! ### A run of writes -/

/-- What a run of writes leaves as it was. -/
structure SameBesidesRegisters (s t : State) : Prop where
  ops : t.me.ops = s.me.ops
  toks : t.me.toks = s.me.toks
  mem : t.mem = s.mem
  pc : t.me.pc = s.me.pc
  act : t.me.act = s.me.act
  status : t.me.status = s.me.status
  splits : t.splits = s.splits

theorem applyWr_leaves (s : State) (w : Wr) : SameBesidesRegisters s (s.applyWr w) := by
  cases w with
  | s d x => rw [(applyWr_s s d x).1]; constructor <;> rfl
  | p d m x => rw [(applyWr_p s d m x).1]; constructor <;> rfl
  | _ => constructor <;> rfl

theorem applyAll_leaves (s : State) (ws : List Wr) : SameBesidesRegisters s (s.applyAll ws) := by
  induction ws generalizing s with
  | nil => constructor <;> rfl
  | cons w ws ih =>
    have h := ih (s.applyWr w)
    have hw := applyWr_leaves s w
    exact ⟨h.ops.trans hw.ops, h.toks.trans hw.toks, h.mem.trans hw.mem, h.pc.trans hw.pc, h.act.trans hw.act,
      h.status.trans hw.status, h.splits.trans hw.splits⟩

theorem vget_default {α : Type} {n : Nat} (v : Vector α n) {i : Nat} (hi : i < n) (d e : α) : vget v i d = vget v i e := by
  unfold vget
  rw [Vector.getElem?_eq_getElem hi]
  rfl

/-- Consecutive registers from `b` on, each written in the lanes of `m`. -/
theorem applyAll_run (s : State) (b : Nat) (m : Mask) (x : Nat → Lanes) (n : Nat) {q l : Nat} (hq : q < 128) (hl : l < 32) (d : Lanes) :
    lane (vget (s.applyAll ((List.range n).map fun j => .v (b + j) m (x j))).win.regs q d) l
      = if (b ≤ q ∧ q < b + n) ∧ m.has l = true then lane (x (q - b)) l else lane (vget s.win.regs q d) l := by
  induction n with
  | zero => rw [if_neg (by omega)]; rfl
  | succ n ih =>
    rw [List.range_succ, List.map_append, State.applyAll, List.foldl_append]
    show lane (vget ((s.applyAll _).applyWr (.v (b + n) m (x n))).win.regs q d) l = _
    rw [vget_default _ hq d (x n), applyWr_v_lane _ _ _ _ hq hl, vget_default _ hq (x n) d, ih]
    by_cases hm : m.has l = true
    · by_cases hqn : q = b + n
      · rw [if_pos ⟨hqn, hm⟩, if_pos ⟨by omega, hm⟩, hqn, Nat.add_sub_cancel_left]
      · rw [if_neg fun e => hqn e.1]
        by_cases hin : b ≤ q ∧ q < b + n
        · rw [if_pos ⟨hin, hm⟩, if_pos ⟨by omega, hm⟩]
        · rw [if_neg fun e => hin e.1, if_neg fun e => hin (by omega)]
    · rw [if_neg fun e => hm e.2, if_neg fun e => hm e.2, if_neg fun e => hm e.2]

/-! ### The writes of an operation (R390) -/

theorem actsOnce_of_vecDest {i : Instr} {d n : Nat} (h : vecDest i = some (d, n)) : actsOnce i = false := by
  unfold vecDest at h
  split at h
  all_goals simp_all [actsOnce]

/-- An access that fills registers of each lane writes them and nothing else. -/
theorem writesFor_lanes {o : Op} {d n : Nat} (hv : vecDest o.instr = some (d, n)) (hc : captured o.instr = true) (m : Mask) :
    o.writesFor m = (List.range n).map fun j =>
      .v (o.wb + d + j) m (lanesOf fun l => BitVec.ofNat 32 ((vget o.out l 0#128).toNat / 2 ^ (32 * j))) := by
  unfold Op.writesFor
  rw [hv, actsOnce_of_vecDest hv, hc]
  exact List.append_nil _

/-- An access for the whole split writes once it is done. -/
theorem writesFor_split {o : Op} (ha : actsOnce o.instr = true) {m : Mask} (hm : m.has 0 = true) : o.writesFor m = o.writes := by
  have hv : vecDest o.instr = none := by
    cases h : vecDest o.instr with
    | none => rfl
    | some x => rw [actsOnce_of_vecDest (d := x.1) (n := x.2) h] at ha; cases ha
  unfold Op.writesFor
  rw [hv, ha, hm]
  rfl

/-- What a frame does not capture lands as it is. -/
theorem writesFor_plain {o : Op} (hv : vecDest o.instr = none) (hc : captured o.instr = false) (m : Mask) : o.writesFor m = o.writes := by
  unfold Op.writesFor
  rw [hv, hc, Bool.not_false, Bool.or_true]
  rfl

theorem ofNat_div_eq_extractLsb (x : BitVec 128) (k : Nat) : BitVec.ofNat 32 (x.toNat / 2 ^ k) = x.extractLsb' k 32 := by
  refine BitVec.eq_of_toNat_eq ?_
  rw [BitVec.toNat_ofNat, BitVec.extractLsb'_toNat, Nat.shiftRight_eq_div_pow]

/-! ### Completion -/

/-- From `s` to `t` operation `o` on token `k` has completed: it is outstanding no more, its token has fallen, and its writes for the
lanes done have landed. -/
structure Completed (s t : State) (o : Op) (k : Tok) : Prop where
  ops : t.me.ops = s.me.ops.filter fun p => p.id != o.id
  tok : t.me.tok k = s.me.tok k - 1
  mem : t.mem = s.mem
  pc : t.me.pc = s.me.pc
  act : t.me.act = s.me.act
  status : t.me.status = s.me.status
  splits : t.splits = s.splits
  regs : t.win.regs = (s.applyAll (o.writesFor o.unlanded)).win.regs
  sregs : t.me.sregs = (s.applyAll (o.writesFor o.unlanded)).me.sregs

/-- The spin of the split is no part of what writes read or change. -/
theorem applyAll_spin (s : State) (sp : Option Spin) (ws : List Wr) :
    ({ s with me := { s.me with spin := sp } } : State).applyAll ws
      = { s.applyAll ws with me := { (s.applyAll ws).me with spin := sp } } := by
  induction ws generalizing s with
  | nil => rfl
  | cons w ws ih =>
    have hw : ({ s with me := { s.me with spin := sp } } : State).applyWr w
        = { s.applyWr w with me := { (s.applyWr w).me with spin := sp } } := by
      unfold State.applyWr
      cases w with
      | s d x => dsimp only; split <;> rfl
      | p d m x => dsimp only; split <;> rfl
      | _ => rfl
    show (State.applyWr _ w).applyAll ws = _
    rw [hw, ih]
    rfl

/-- The landing of an operation: its writes, a mark in it, and what spin park watches. -/
theorem landOp_shape (s : State) (o : Op) : ∃ sp, s.landOp o
    = (({ s.applyAll (o.writesFor o.unlanded) with me := { (s.applyAll (o.writesFor o.unlanded)).me with spin := sp } } : State).onOp o.id
        fun p => { p with landed := p.landed ||| p.lanesAt 1 }) := by
  have hnote (ws : List Wr) : ∃ sp, s.noteWrites ws = { s with me := { s.me with spin := sp } } := by
    unfold State.noteWrites State.spoil
    split
    · exact ⟨_, rfl⟩
    · exact ⟨s.me.spin, rfl⟩
  unfold State.landOp
  dsimp only
  split
  · obtain ⟨sp, hn⟩ := hnote (o.writesFor o.unlanded)
    exact ⟨sp, by rw [hn, applyAll_spin]⟩
  · refine ⟨(s.applyAll (o.writesFor o.unlanded)).me.spin, rfl⟩

/-- From `s` to `t` the results of operation `o` have landed, and it is marked so. -/
structure Landed (s t : State) (o : Op) : Prop where
  ops : t.me.ops = s.me.ops.map fun p => if p.id = o.id then { p with landed := p.landed ||| p.lanesAt 1 } else p
  toks : t.me.toks = s.me.toks
  mem : t.mem = s.mem
  pc : t.me.pc = s.me.pc
  act : t.me.act = s.me.act
  status : t.me.status = s.me.status
  splits : t.splits = s.splits
  regs : t.win.regs = (s.applyAll (o.writesFor o.unlanded)).win.regs
  sregs : t.me.sregs = (s.applyAll (o.writesFor o.unlanded)).me.sregs

theorem landOp_landed (s : State) (o : Op) : Landed s (s.landOp o) o := by
  obtain ⟨sp, hland⟩ := landOp_shape s o
  have hu := applyAll_leaves s (o.writesFor o.unlanded)
  generalize hws : s.applyAll (o.writesFor o.unlanded) = u at hland hu
  rw [hland]
  exact ⟨congrArg (List.map _) hu.ops, hu.toks, hu.mem, hu.pc, hu.act, hu.status, hu.splits, by rw [hws]; rfl, by rw [hws]; rfl⟩

theorem filter_map_mark (id : Nat) (f : Op → Op) (hf : ∀ p : Op, (f p).id = p.id) (ps : List Op) :
    (ps.map fun p => if p.id = id then f p else p).filter (fun p => p.id != id) = ps.filter fun p => p.id != id := by
  induction ps with
  | nil => rfl
  | cons p ps ih =>
    rw [List.map_cons, List.filter_cons, List.filter_cons, ih]
    by_cases hp : p.id = id <;> simp [hp, hf]

theorem complete_completed {s : State} {o : Op} {k : Tok} (hk : o.tok = some k) (hl : s.me.status ≠ .legs o.id) :
    Completed s (s.complete o) o k := by
  have hu := landOp_landed s o
  unfold State.complete
  rw [hk]
  generalize s.landOp o = u at hu
  have hstay : ((u.dropOp o.id).tokDone (some k)).me.status ≠ .legs o.id := fun h => hl (hu.status.symm.trans h)
  dsimp only
  rw [if_neg hstay]
  have htok : (vset u.me.toks k.val (u.me.tok k - 1))[k] = u.me.tok k - 1 := by simp [vset]
  exact ⟨(congrArg (List.filter _) hu.ops).trans (filter_map_mark o.id (fun p => { p with landed := p.landed ||| p.lanesAt 1 }) (fun _ => rfl) _),
    htok.trans (by unfold Split.tok; rw [hu.toks]), hu.mem, hu.pc, hu.act, hu.status, hu.splits, hu.regs, hu.sregs⟩

/-! ### The step -/

/-- The step of an operation that completes. -/
theorem operationStep_completes {s f : State} {split id : Nat} {o : Op} (hf : s.focus split = some f) (ho : f.me.op? id = some o)
    (h : f.serveOp o = some (f.complete o)) : exec (.operationCompletion split id) s = .next (f.complete o) := by
  show Host.Outcome.next ((s.operationStep split id).getD s) = _
  unfold State.operationStep
  rw [hf, Option.bind_some, ho, Option.bind_some, h]
  rfl

theorem Serves.serveOp_eq {s : State} (hs : s.Serves) (o : Op) : s.serveOp o = match o.kind with
    | .access => match Acc.of o.instr with
      | some a => s.serveAccess o a
      | none => match o.instr with
        | .ldz _ d _ _ ty n _ _ => s.serveLdz o d ty n.toNat
        | .stz _ d _ _ _ _ _ _ _ => s.serveStz o d
        | .cpkt _ _ d _ _ _ => s.serveCpkt o d
        | _ => s.serveObject o
    | .array => s.serveQueued o
    | .range => none
    | .tlbi => match o.instr with
      | .tlbi _ v _ _ _ _ => s.serveTlbi o v
      | _ => none
    | .plain => match o.instr with
      | .stkspill _ d _ _ _ => s.serveSpill o d
      | .stkfill _ d _ _ _ => some (s.serveFill o d)
      | .ctxsv _ d _ _ => s.serveCtxsv o d
      | _ => some (s.complete o) := by
  obtain ⟨htransit, hleaving, halive⟩ := hs
  have hdead : o.dead s.me = false := by unfold Op.dead; rw [halive]; rfl
  have hstay : (decide (s.me.status = .transit) || (s.me.status matches .leaving (.rft _))) = false :=
    Bool.or_eq_false_iff.mpr ⟨decide_eq_false htransit, hleaving⟩
  unfold State.serveOp
  refine (if_neg fun h => Bool.noConfusion (h.symm.trans hstay)).trans ?_
  rw [hdead]
  rfl

/-- An access all of whose lanes are done completes. -/
theorem serveAccess_completes {s : State} {o : Op} (hsent : o.sent = true) (h2 : o.lanesAt 2 = 0#32) (h3 : o.lanesAt 3 = 0#32) (a : Acc) :
    s.serveAccess o a = some (s.complete o) := by
  have hlow : Mask.lowest (0#32 &&& o.legLanes) = none := by rw [BitVec.zero_and]; rfl
  have hfault : o.faulted = false := by unfold Op.faulted; rw [h3]; rfl
  unfold State.serveAccess
  rw [hsent, h2, hlow, hfault]
  rfl

theorem op?_id {w : Split} {id : Nat} {o : Op} (h : w.op? id = some o) : o.id = id := by
  simpa using List.find?_some h

/-- Settles O25: the step of such an operation is its completion, whose writes are those of the lanes done. -/
theorem operationsComplete : Obligations.OperationsComplete := by
  intro s f split id o k hf ho hk hs hlegs ends
  have hid : o.id = id := op?_id ho
  have hc : Completed f (f.complete o) o k := complete_completed hk (by rw [hid]; exact hlegs)
  have hends : ends (f.complete o) := ⟨by rw [hc.ops, hid], hc.tok, hc.mem, hc.pc, hc.act, hc.status, hc.splits⟩
  refine ⟨fun hkind hacc hcap hsent h2 h3 => ?_, fun hkind hcap hvec hform => ?_⟩
  · obtain ⟨a, hacc⟩ := Option.isSome_iff_exists.mp hacc
    have hserve : f.serveOp o = some (f.complete o) := by
      rw [Serves.serveOp_eq hs, hkind, hacc]
      exact serveAccess_completes hsent h2 h3 a
    refine ⟨_, operationStep_completes hf ho hserve, hends, fun d n hv j hj hreg l hl => ?_, fun d x hone hw hdone hd0 hd => ?_⟩
    · dsimp only
      rw [hc.regs, writesFor_lanes hv hcap, applyAll_run _ _ _ _ _ hreg hl, Nat.add_sub_cancel_left, lane_lanesOf _ _ hl,
        ofNat_div_eq_extractLsb]
      by_cases hm : o.unlanded.has l = true
      · rw [if_pos ⟨by omega, hm⟩]; exact (if_pos hm).symm
      · rw [if_neg fun e => hm e.2]; exact (if_neg hm).symm
    · have hdone : o.unlanded.has 0 = true := hdone
      rw [hc.sregs, writesFor_split hone hdone, hw]
      exact ((applyWr_s f d x).2 d hd).trans (if_pos ⟨rfl, by omega⟩)
  · have hserve : f.serveOp o = some (f.complete o) := by
      rw [Serves.serveOp_eq hs, hkind]
      dsimp only
      split
      case _ hi => rw [hi] at hform; exact hform.elim
      case _ hi => rw [hi] at hform; exact hform.elim
      case _ hi => rw [hi] at hform; exact hform.elim
      case _ => rfl
    refine ⟨_, operationStep_completes hf ho hserve, hends, ?_, ?_⟩
    · rw [hc.regs, writesFor_plain hvec hcap]
    · rw [hc.sregs, writesFor_plain hvec hcap]

end Sys2Proof.Machine
end

section
/-! PROOF. Array instructions are accepted with the operands of their issue (R124, R286, R297, R451). -/
namespace Sys2Proof.Machine

/-! ### The status bytes of an operation at its issue (R390, R451) -/

/-- At the issue a lane is pending, or holds no part of the operation. -/
theorem newOp_stat (s : State) (i : Instr) (h : Hd) (k : Option Tok) {l : Nat} (hl : l < 32) :
    vget (s.newOp i h k).stat l 0#8
      = if actsOnce i then (if l = 0 then statPending else 0#8) else if (s.active h).has l then statPending else 0#8 := by
  unfold vget State.newOp
  rw [Vector.getElem?_eq_getElem hl, Vector.getElem_ofFn]
  rfl

theorem newOp_faulted (s : State) (i : Instr) (h : Hd) (k : Option Tok) : (s.newOp i h k).faulted = false := by
  have hz : (s.newOp i h k).lanesAt 3 = 0#32 := by
    refine where_zero fun l hl => ?_
    unfold Op.stateAt
    rw [newOp_stat s i h k hl]
    split_ifs <;> rfl
  unfold Op.faulted
  rw [hz]
  rfl

/-- An instruction with an active lane has a lane pending at its issue. -/
theorem newOp_pending {s : State} {h : Hd} (ha : s.active h ≠ 0#32) (i : Instr) (k : Option Tok) :
    ∃ l < 32, vget (s.newOp i h k).stat l 0#8 = statPending := by
  obtain ⟨l, hmem⟩ := List.exists_mem_of_ne_nil _ (list_ne_nil ha)
  obtain ⟨hl, hact⟩ := mem_list.mp hmem
  by_cases hone : actsOnce i = true
  · exact ⟨0, by decide, by rw [newOp_stat s i h k (by decide), if_pos hone, if_pos rfl]⟩
  · exact ⟨l, hl, by rw [newOp_stat s i h k hl, if_neg hone, if_pos hact]⟩

theorem suspect_faulted {o : Op} {l : Nat} (hl : l < 32) (hp : vget o.stat l 0#8 = statPending) : o.suspect.faulted = true := by
  have hlane : (o.suspect.lanesAt 3).has l = true := by
    unfold Op.lanesAt
    rw [has_where _ _ hl, suspect_stateAt hl hp]
    rfl
  unfold Op.faulted
  rw [bne_iff_ne]
  intro hz
  rw [hz] at hlane
  simp [Mask.has] at hlane

/-! ### The queue of the arrays (R286, R287) -/

theorem queued_cons (g : FGroup) (gs : List FGroup) : queued (g :: gs) = g.passes.length + queued gs := List.sum_cons

theorem queued_map {f : FGroup → FGroup} (hf : ∀ g, (f g).passes = g.passes) (q : List FGroup) : queued (q.map f) = queued q := by
  unfold queued
  rw [List.map_map]
  exact congrArg List.sum (List.map_congr_left fun g _ => congrArg List.length (hf g))

/-- A pass that is accepted stands in the queue, whether it joins a group or starts one. -/
theorem queued_acceptPass (key : List Nat) (now : Nat) (p : Pass) (q : List FGroup) :
    queued (acceptPass key now p q) = queued q + 1 := by
  induction q with
  | nil => rfl
  | cons g gs ih =>
    unfold acceptPass
    split
    · rw [queued_cons, queued_cons, queued_map (f := noteOutside p) fun _ => rfl, List.length_append, List.length_singleton]
      omega
    · rw [queued_cons, queued_cons, ih]
      show g.passes.length + _ = _
      omega

theorem queued_foldl_acceptPass (key : List Nat) (now : Nat) (ps : List Pass) (q : List FGroup) :
    queued (ps.foldl (fun q p => acceptPass key now p q) q) = queued q + ps.length := by
  induction ps generalizing q with
  | nil => rfl
  | cons p ps ih =>
    rw [List.foldl_cons, ih, queued_acceptPass, List.length_cons]
    omega

theorem queued_acceptAlone (now : Nat) (ps : List Pass) (q : List FGroup) :
    queued (acceptAlone now ps q) = queued q + ps.length := by
  have hnote (g : FGroup) : (ps.foldl (fun (g : FGroup) p => noteOutside p g) g).passes = g.passes := by
    induction ps generalizing g with
    | nil => rfl
    | cons p ps ih => rw [List.foldl_cons, ih]; rfl
  unfold acceptAlone queued
  rw [List.map_append, List.sum_append]
  exact congrArg (· + ps.length) (queued_map hnote q)

theorem core_onCore (s : State) {k c : Nat} (hk : k < 16) (hc : c < 8) (f : Core → Core) :
    (s.onCore k c f).core k c = f (s.core k c) := by
  unfold State.onCore State.core
  rw [stk_onStk_same s hk]
  exact (vget_vset _ _ _ _ _ hc).trans (if_pos rfl)

/-- Passes that enter the queue change the stack of the split, and nothing else. -/
theorem enqueue_shape (s : State) (key : Option (List Nat)) (ps : List Pass) :
    s.enqueue key ps = { s with stks := (s.enqueue key ps).stks } := by
  unfold State.enqueue
  split <;> rfl

theorem queued_enqueue {s : State} (hk : s.me.stack < 16) (hc : s.me.core < 8) (key : Option (List Nat)) (ps : List Pass) :
    queued (s.enqueue key ps).myCore.queue = queued s.myCore.queue + ps.length := by
  unfold State.enqueue
  split
  next he => rw [List.isEmpty_iff.mp he]; rfl
  next he =>
    have hcore {f : Core → Core} : (s.onCore s.me.stack s.me.core f).myCore = f s.myCore := core_onCore s hk hc f
    rw [hcore]
    cases key with
    | none => exact queued_acceptAlone _ _ _
    | some x => exact queued_foldl_acceptPass _ _ _ _

/-- Going on changes pipes alone on the core. -/
theorem retire_myCore {s : State} (hk : s.me.stack < 16) (hc : s.me.core < 8) (h : Hd) (n : Nat) :
    ∃ ps, (s.retire h n).myCore = { s.myCore with pipes := ps } := by
  obtain ⟨a, pc, es, r, m, w, sl, pd, ck, f, hsh⟩ := settled_shape (s.stepped n) (h.e || 24 ≤ s.me.runLen + 1)
  have hpipe : ((s.stepped n).onPipe s.me.stack s.me.core s.myPipe f).core s.me.stack s.me.core
      = { s.myCore with pipes := vset s.myCore.pipes s.myPipe (f (vget s.myCore.pipes s.myPipe Pipe.idle)) } :=
    core_onCore (s.stepped n) hk hc _
  refine ⟨vset s.myCore.pipes s.myPipe (f (vget s.myCore.pipes s.myPipe Pipe.idle)), ?_⟩
  rw [retire_eq, hsh]
  show ((s.stepped n).onPipe s.me.stack s.me.core s.myPipe f).core s.me.stack s.me.core = _
  rw [hpipe]

/-! ### Acceptance -/

/-- No register, tile or byte differs. -/
def SameOperands (s u : State) : Prop := u.win.regs = s.win.regs ∧ u.me.sregs = s.me.sregs ∧ u.me.preds = s.me.preds
    ∧ u.me.pal = s.me.pal ∧ u.me.mstep = s.me.mstep ∧ u.mem = s.mem ∧ u.gr = s.gr ∧ u.splits = s.splits

/-- The instruction `i` is accepted with `n` passes, or raises what its check finds. -/
def TakesPasses (s : State) (h : Hd) (k : Tok) (i : Instr) (chk : Chk) (n : Nat) : Prop :=
  let differs : Bool := s.differs (s.newOp i h (some k))
  let passes : Nat := if differs then 0 else n
  (chk = none → queued s.myCore.queue + passes ≤ 64 → Answers i s fun u => SameOperands s u
    ∧ GoesTo s u (s.me.pc + BitVec.ofNat 64 i.bytes) ∧ u.me.toks = vset s.me.toks k.val (s.me.tok k + 1)
    ∧ u.me.results = s.me.results ∧ queued u.myCore.queue = queued s.myCore.queue + passes
    ∧ ∃ o, u.me.ops = s.me.ops ++ [o] ∧ o.instr = i ∧ o.kind = .array ∧ o.tok = some k ∧ o.act = s.active h ∧ o.faulted = differs)
  ∧ ∀ cls det, chk = some (cls, det) → exec i s = .next (s.fresh427.raise (s.trapHere cls det))

/-- What an instruction does besides at its acceptance: nothing, or steps of the generators. -/
def OnlySeeds (also : State → State) : Prop := ∀ u, ∃ x, also u = { u with me := { u.me with seeds := x } }

/-- From `s` to `u` `n` passes have entered the queue, and operation `o` on token `k` is outstanding. -/
structure Enqueued (s u : State) (o : Op) (k : Tok) (n : Nat) : Prop where
  same : SameOperands s u
  toks : u.me.toks = vset s.me.toks k.val (s.me.tok k + 1)
  results : u.me.results = s.me.results
  queue : queued u.myCore.queue = queued s.myCore.queue + n
  ops : u.me.ops = s.me.ops ++ [o]

/-- The split stands at the same instruction, in the same place. -/
structure StandsStill (s u : State) : Prop where
  pc : u.me.pc = s.me.pc
  act : u.me.act = s.me.act
  status : u.me.status = s.me.status
  num : u.me.num = s.me.num
  entries : u.win.entries = s.win.entries
  stack : u.me.stack = s.me.stack
  core : u.me.core = s.me.core

theorem issue_tok {o : Op} {k : Tok} (ho : o.tok = some k) (t : State) : t.issue o
    = { t with nextId := t.nextId + 1, me := { t.me with toks := vset t.me.toks k.val (t.me.tok k + 1), ops := t.me.ops ++ [o] } } := by
  unfold State.issue State.tokIssue
  rw [ho]
  rfl

theorem enqueue_issue {s : State} (hk : s.me.stack < 16) (hc : s.me.core < 8) {o : Op} {k : Tok} (ho : o.tok = some k)
    (key : Option (List Nat)) (ps : List Pass) {also : State → State} (ha : OnlySeeds also) :
    Enqueued s (also ((s.fresh427.spoil.enqueue key ps).issue o)) o k ps.length
      ∧ StandsStill s (also ((s.fresh427.spoil.enqueue key ps).issue o)) := by
  obtain ⟨x, hx⟩ := ha ((s.fresh427.spoil.enqueue key ps).issue o)
  have hqueue : queued (s.fresh427.spoil.enqueue key ps).myCore.queue = queued s.myCore.queue + ps.length :=
    queued_enqueue (s := s.fresh427.spoil) hk hc key ps
  rw [hx, issue_tok ho]
  rw [enqueue_shape] at hqueue ⊢
  generalize (s.fresh427.spoil.enqueue key ps).stks = stks at hqueue ⊢
  exact ⟨⟨⟨rfl, rfl, rfl, rfl, rfl, rfl, rfl, rfl⟩, rfl, rfl, hqueue, rfl⟩, ⟨rfl, rfl, rfl, rfl, rfl, rfl, rfl⟩⟩

theorem Enqueued.retire {s v : State} (hk : s.me.stack < 16) (hc : s.me.core < 8) {o : Op} {k : Tok} {n : Nat}
    (he : Enqueued s v o k n) (hs : StandsStill s v) (h : Hd) (bytes : Nat) :
    Enqueued s (v.retire h bytes) o k n ∧ GoesTo s (v.retire h bytes) (s.me.pc + BitVec.ofNat 64 bytes) := by
  have hkept := (Kept.refl v).retire h bytes
  have hmoved := (Near.refl v).retire_moved h bytes
  obtain ⟨htoks, hops, hresults⟩ := retire_keeps v h bytes
  obtain ⟨pipes, hq⟩ := retire_myCore (by rw [hs.stack]; exact hk) (by rw [hs.core]; exact hc) (s := v) h bytes
  obtain ⟨hregs, hsregs, hpreds, hpal, hmstep, hmem, hgr, hsplits⟩ := he.same
  exact ⟨⟨⟨hkept.regs.trans hregs, hkept.sregs.trans hsregs, hkept.preds.trans hpreds, hkept.pal.trans hpal,
      hkept.mstep.trans hmstep, hkept.mem.trans hmem, hmoved.gr.trans hgr, hkept.splits.trans hsplits⟩,
    htoks.trans he.toks, hresults.trans he.results, (congrArg (fun c => queued c.queue) hq).trans he.queue, hops.trans he.ops⟩,
    retire_goes h bytes hs.pc hs.act hs.status hs.num hs.entries⟩

/-- The operation of an array instruction. -/
def State.arrayOp (s : State) (i : Instr) (h : Hd) (k : Tok) : Op :=
  { s.newOp i h (some k) with kind := .array, after := s.me.ops.map fun (e : Op) => e.id }

/-- The passes `ps` of an array instruction enter the queue where they fit, its operation is outstanding, and the run goes on. -/
def State.acceptPasses (s : State) (i : Instr) (h : Hd) (o : Op) (ps : Option (List Nat) × List Pass) (also : State → State)
    (waits : Bool) : State :=
  if waits || 64 < queued s.myCore.queue + ps.2.length then s.stall
  else (also ((s.spoil.enqueue ps.1 ps.2).issue o)).retire h i.bytes

theorem toArray_eq_gate (s : State) (i : Instr) (h : Hd) (k : Tok) (reads : List Rd) (chk : Chk)
    (make : State → Option (List Nat) × List Pass) (also : State → State) (wait : State → Bool) :
    s.toArray i h k reads chk make also wait = s.gate i h { reads := reads, tok := some k, chk := chk } fun t =>
      if t.differs (t.arrayOp i h k) then t.acceptPasses i h (t.arrayOp i h k).suspect (none, []) id (wait t)
      else t.acceptPasses i h (t.arrayOp i h k) (make t) also (wait t) := by
  unfold State.toArray
  refine congrArg (s.gate i h { reads := reads, tok := some k, chk := chk }) (funext fun t => ?_)
  have hcases (d : Bool) :
      (let (key, ps) := if d then (none, []) else make t
       if wait t || 64 < queued t.myCore.queue + ps.length then t.stall
       else
         let u := (t.spoil.enqueue key ps).issue (if d then (t.arrayOp i h k).suspect else t.arrayOp i h k)
         (if d then u else also u).retire h i.bytes)
      = if d then t.acceptPasses i h (t.arrayOp i h k).suspect (none, []) id (wait t)
        else t.acceptPasses i h (t.arrayOp i h k) (make t) also (wait t) := by
    cases d <;> rfl
  exact hcases (t.differs (t.arrayOp i h k))

/-- An array instruction with its operands is accepted, with the passes that it makes (R286). -/
theorem toArray_takes {s : State} {h : Hd} {k : Tok} (ha : s.Acts h) (hroom : s.Room k) (hk : s.me.stack < 16) (hc : s.me.core < 8)
    {i : Instr} {reads : List Rd} {chk : Chk} {make : State → Option (List Nat) × List Pass} {also : State → State}
    {wait : State → Bool} {n : Nat} (hexec : exec i s = s.toArray i h k reads chk make also wait)
    (hmake : (make s.fresh427).2.length = n) (halso : OnlySeeds also) (hwait : wait s.fresh427 = false) :
    TakesPasses s h k i chk n := by
  have haccept {o : Op} {ps : Option (List Nat) × List Pass} {f : State → State} (ho : o.tok = some k) (hf : OnlySeeds f)
      (hfits : queued s.myCore.queue + ps.2.length ≤ 64) :
      let u := s.fresh427.acceptPasses i h o ps f (wait s.fresh427)
      Enqueued s u o k ps.2.length ∧ GoesTo s u (s.me.pc + BitVec.ofNat 64 i.bytes) := by
    intro u
    have hu : u = (f ((s.fresh427.spoil.enqueue ps.1 ps.2).issue o)).retire h i.bytes := by
      refine if_neg ?_
      rw [hwait, Bool.false_or, decide_eq_true_eq]
      exact Nat.not_lt.mpr hfits
    obtain ⟨he, hs⟩ := enqueue_issue hk hc ho ps.1 ps.2 hf
    rw [hu]
    exact he.retire hk hc hs h i.bytes
  rw [toArray_eq_gate] at hexec
  refine ⟨fun hchk hfits => ?_, fun cls det hchk => ?_⟩
  · have hd : s.fresh427.differs (s.fresh427.arrayOp i h k) = s.differs (s.newOp i h (some k)) := differs_congr rfl rfl rfl rfl
    refine ⟨_, hexec.trans (gate_on ha hchk fun k' e => by cases e; exact hroom), ?_⟩
    dsimp only
    rw [hd]
    cases hdiff : s.differs (s.newOp i h (some k)) with
    | true =>
      rw [hdiff] at hfits
      obtain ⟨hsame, hgoes⟩ := haccept (o := (s.fresh427.arrayOp i h k).suspect) (ps := (none, [])) (f := id) rfl
        (fun u => ⟨u.me.seeds, rfl⟩) hfits
      obtain ⟨l, hl, hp⟩ := newOp_pending ha.1 i (some k)
      exact ⟨hsame.same, hgoes, hsame.toks, hsame.results, hsame.queue, _, hsame.ops, rfl, rfl, rfl, rfl, suspect_faulted hl hp⟩
    | false =>
      rw [hdiff] at hfits
      subst hmake
      obtain ⟨hsame, hgoes⟩ := haccept (o := s.fresh427.arrayOp i h k) (ps := make s.fresh427) rfl halso hfits
      exact ⟨hsame.same, hgoes, hsame.toks, hsame.results, hsame.queue, _, hsame.ops, rfl, rfl, rfl, rfl, newOp_faulted s.fresh427 i h (some k)⟩
  · rw [hexec]
    exact gate_raises ha hchk fun k' e => by cases e; exact hroom

/-! ### The passes that an instruction makes -/

theorem length_byQuarter (p : Pass) : (byQuarter p).length = (quartersOf p.lanes).length := List.length_map _

/-- A change of the split in focus in nothing that the passes of a swatch read. -/
structure SameGroups (s t : State) : Prop where
  mem : t.mem = s.mem
  gr : t.gr = s.gr
  groups : t.groups = s.groups

theorem SameGroups.swatchOf {s t : State} (h : SameGroups s t) (g : Nat) : t.swatchOf g = s.swatchOf g := by
  unfold State.swatchOf State.group? State.allGroups
  rw [h.gr, h.groups]

theorem onSplit_sameGroups (s : State) (w : Nat) (f : Split → Split) : SameGroups s (s.onSplit w f) := by
  unfold State.onSplit
  split <;> exact ⟨rfl, rfl, rfl⟩

theorem SameGroups.passPoison {s t : State} (h : SameGroups s t) (p : Pass) (wr : Bool) :
    SameGroups (s.passPoison p wr) (t.passPoison p wr) := by
  have hs : SameGroups s (s.passPoison p wr) := onSplit_sameGroups _ _ _
  have ht : SameGroups t (t.passPoison p wr) := onSplit_sameGroups _ _ _
  exact ⟨ht.mem.trans (h.mem.trans hs.mem.symm), ht.gr.trans (h.gr.trans hs.gr.symm), ht.groups.trans (h.groups.trans hs.groups.symm)⟩

theorem SameGroups.onSwatch {s t : State} (h : SameGroups s t) (g : Nat) (f : Swatch → Swatch) :
    SameGroups (s.onSwatch g f) (t.onSwatch g f) := by
  unfold State.onSwatch State.onGroup
  rw [h.gr]
  split
  · exact ⟨h.mem, rfl, h.groups⟩
  · exact ⟨h.mem, rfl, congrArg (List.map _) h.groups⟩

/-- Whether the pass changes a swatch state. -/
def Pass.configures (p : Pass) : Bool := match p.instr with
  | .swc _ _ _ _ _ _ | .swh _ _ _ _ _ | .swb _ _ | .swl _ _ _ => true
  | _ => false

/-- A configuring pass reads the swatch state of its group and its lines, and changes that swatch state. -/
theorem SameGroups.runPass {s t : State} (h : SameGroups s t) {p : Pass} (hp : p.configures = true) (b : List (Nat × Bool)) :
    SameGroups (s.runPass p b) (t.runPass p b) := by
  unfold Pass.configures at hp
  unfold State.runPass
  split at hp
  next e => rw [e]; exact h.onSwatch _ _
  next e =>
    rw [e]
    dsimp only
    split
    · exact h.passPoison _ _
    · exact h.onSwatch _ _
  next e => rw [e]; exact h.onSwatch _ _
  next e =>
    rw [e]
    dsimp only
    split
    · exact h.passPoison _ _
    · exact h.onSwatch _ _
  next => cases hp

theorem SameGroups.runPasses {s t : State} (h : SameGroups s t) {ps : List Pass} (hp : ∀ p ∈ ps, p.configures = true) :
    SameGroups (ps.foldl (fun (u : State) p => u.runPass p (readLines u.mem p.segs)) s)
      (ps.foldl (fun (u : State) p => u.runPass p (readLines u.mem p.segs)) t) := by
  induction ps generalizing s t with
  | nil => exact h
  | cons p ps ih =>
    refine ih ?_ fun q hq => hp q (List.mem_cons_of_mem _ hq)
    dsimp only
    rw [h.mem]
    exact h.runPass (hp p List.mem_cons_self) _

/-- The swatch state that the accepted instructions leave does not turn on how the split came to its issue. -/
theorem swAccepted_fresh427 (s : State) : s.fresh427.swAccepted = s.swAccepted := by
  have hconf : ∀ p ∈ s.swPending, p.configures = true := by
    intro p hp
    unfold State.swPending at hp
    exact (Bool.and_eq_true_iff.mp (List.mem_filter.mp hp).2).2
  exact (SameGroups.runPasses (s := s) (t := s.fresh427) ⟨rfl, rfl, rfl⟩ hconf).swatchOf s.gr.id

theorem onlySeeds_id : OnlySeeds fun t => t := fun u => ⟨u.me.seeds, rfl⟩

theorem onlySeeds_drainSeeds (h : Hd) (n : Nat) : OnlySeeds (State.drainSeeds h n) := by
  intro u
  unfold State.drainSeeds State.stepSeeds
  dsimp only
  split
  · exact ⟨_, rfl⟩
  · exact ⟨u.me.seeds, rfl⟩

theorem length_swxQuarters (s : State) (m : Mask) : (s.fresh427.swxQuarters m).length = (s.swxQuarters m).length := by
  unfold State.swxQuarters
  rw [swAccepted_fresh427]

theorem length_swatchPasses (s : State) (p : Pass) (grad : Bool) :
    (s.swatchPasses p grad).length = max 1 (((s.swAccepted.taking (palSwe p.pal) p.lanes).length + 7) / 8) := by
  unfold State.swatchPasses
  exact (List.length_map _).trans List.length_range

section
variable {s : State} {h : Hd} {k : Tok} (ha : s.Acts h) (hroom : s.Room k) (hstack : s.me.stack < 16) (hcore : s.me.core < 8)
include ha hroom hstack hcore

/-- The instructions that wait for nothing besides and whose acceptance does nothing besides. -/
theorem plain_takes {i : Instr} {reads : List Rd} {chk : Chk} {make : State → Option (List Nat) × List Pass} {n : Nat}
    (hexec : exec i s = s.toArray i h k reads chk make) (hmake : (make s.fresh427).2.length = n) : TakesPasses s h k i chk n :=
  toArray_takes ha hroom hstack hcore hexec hmake onlySeeds_id rfl

theorem drain_takes {i : Instr} {reads : List Rd} {chk : Chk} {make : State → Option (List Nat) × List Pass} {bytes n : Nat}
    (hexec : exec i s = s.toArray i h k reads chk make (State.drainSeeds h bytes)) (hmake : (make s.fresh427).2.length = n) :
    TakesPasses s h k i chk n :=
  toArray_takes ha hroom hstack hcore hexec hmake (onlySeeds_drainSeeds h bytes) rfl

theorem mma_takes (t : TileNo) (a : VReg) (b : SReg) (ks : Fin 256) (c : VReg) (soff : Word) :
    TakesPasses s h k (.mma h t a b ks c soff k) (s.denseChk t a b ks c soff false false) (quartersOf (s.active h)).length := by
  have hexec : exec (.mma h t a b ks c soff k) s = execMma h t a b ks c soff k s := rfl
  unfold execMma at hexec
  exact plain_takes ha hroom hstack hcore hexec (length_byQuarter _)

theorem mmab_takes (hmmab : ∀ o ∈ s.me.ops, (o.instr matches .mmab ..) = false) (t : TileNo) (a : VReg) (b : SReg) (c : VReg)
    (soff : Word) : TakesPasses s h k (.mmab h t a b c soff k) (s.sparseChk t b c soff)
      ((quartersOf (s.active h)).filter fun q => !s.me.mstep.getLsbD q).length := by
  have hexec : exec (.mmab h t a b c soff k) s = execMmab h t a b c soff k s := rfl
  unfold execMmab at hexec
  refine toArray_takes ha hroom hstack hcore hexec ?_ onlySeeds_id ?_
  · show (sparsePasses _ _ _).length = _
    unfold sparsePasses byQuarter
    rw [List.filter_map, List.length_map]
    rfl
  · exact List.any_eq_false.mpr fun o ho => Bool.eq_false_iff.mp (hmmab o ho)

theorem accz_takes (all : Bool) (t : TileNo) : TakesPasses s h k (.accz h all t k) (chkIf (s.noTile t) .illegal 5)
    (if all then 4 else (quartersOf (s.active h)).length) := by
  have hexec : exec (.accz h all t k) s = execAccz h all t k s := rfl
  unfold execAccz at hexec
  refine plain_takes ha hroom hstack hcore hexec ?_
  cases all
  · exact length_byQuarter _
  · rfl

theorem accrd_takes (d : VReg) (t : TileNo) (j0 : Fin 64) (n : Fin 128) :
    TakesPasses s h k (.accrd h d t j0 n k) (chkIf (s.noTile t) .illegal 5) (quartersOf (s.active h)).length := by
  have hexec : exec (.accrd h d t j0 n k) s = execAccrd h d t j0 n k s := rfl
  unfold execAccrd at hexec
  exact plain_takes ha hroom hstack hcore hexec (length_byQuarter _)

theorem accwr_takes (t : TileNo) (a : VReg) (j0 : Fin 64) (n : Fin 128) :
    TakesPasses s h k (.accwr h t a j0 n k) (chkIf (s.noTile t) .illegal 5) (quartersOf (s.active h)).length := by
  have hexec : exec (.accwr h t a j0 n k) s = execAccwr h t a j0 n k s := rfl
  unfold execAccwr at hexec
  exact plain_takes ha hroom hstack hcore hexec (length_byQuarter _)

theorem accst_takes (sd : SReg) (t : TileNo) : TakesPasses s h k (.accst h sd t k) (chkIf (s.noTile t) .illegal 5) 1 := by
  have hexec : exec (.accst h sd t k) s = execAccst h sd t k s := rfl
  unfold execAccst at hexec
  exact plain_takes ha hroom hstack hcore hexec rfl

theorem drq_takes (dst : DrDst) (t : TileNo) (b : SReg) (c : VReg) (uns : Bool) (j0 : Fin 64) (n : Fin 128) :
    TakesPasses s h k (.drq h dst t b c uns j0 n k) ((chkIf (palDrain s.me.pal).isNone .illegal 4).or
      ((chkIf (s.noTile t) .illegal 5).or ((Chk.xl false (xlLines (s.xlVault true false 64) (s.s b) 10)).or
        (Chk.xl true (s.drainLines h dst (n.val + 1)))))) (quartersOf (s.active h)).length := by
  have hexec : exec (.drq h dst t b c uns j0 n k) s = execDrq h dst t b c uns j0 n k s := rfl
  unfold execDrq at hexec
  exact drain_takes ha hroom hstack hcore (bytes := n.val + 1) hexec (length_byQuarter _)

theorem drf_takes (dst : DrDst) (t : TileNo) (ty : MTy) (sat ofn : Bool) (j0 : Fin 64) (n : Fin 128) :
    TakesPasses s h k (.drf h dst t ty sat ofn j0 n k) ((chkIf (palDrain s.me.pal).isNone .illegal 4).or
      ((chkIf (s.noTile t || sat && !palAcf s.me.pal) .illegal 5).or
        (Chk.xl true (s.drainLines h dst ((n.val + 1) * ty.size))))) (quartersOf (s.active h)).length := by
  have hexec : exec (.drf h dst t ty sat ofn j0 n k) s = execDrf h dst t ty sat ofn j0 n k s := rfl
  unfold execDrf at hexec
  exact drain_takes ha hroom hstack hcore (bytes := n.val + 1) hexec (length_byQuarter _)

theorem swc_takes (rule : SwRule) (b : SReg) (planes width : Fin 16) : TakesPasses s h k (.swc h rule b planes width k) s.tileless 1 := by
  have hexec : exec (.swc h rule b planes width k) s = execSwc h rule b planes width k s := rfl
  unfold execSwc at hexec
  exact plain_takes ha hroom hstack hcore hexec rfl

theorem swb_takes : TakesPasses s h k (.swb h k) s.tileless 1 := by
  have hexec : exec (.swb h k) s = execSwb h k s := rfl
  unfold execSwb at hexec
  exact plain_takes ha hroom hstack hcore hexec rfl

theorem swh_takes (a : VReg) (b : SReg) (c : VReg) : TakesPasses s h k (.swh h a b c k) ((chkIf (!palOk s.me.pal) .illegal 4).or
    ((chkIf (s.gr.tiles.isEmpty || 64 < a.val + rowRegs s.me.pal || !mxScaled (palA s.me.pal) && c.val != 0) .illegal 5).or
      (Chk.xl false (s.planeLines b)))) (quartersOf (s.active h)).length := by
  have hexec : exec (.swh h a b c k) s = execSwh h a b c k s := rfl
  unfold execSwh at hexec
  exact plain_takes ha hroom hstack hcore hexec ((List.length_map _).trans (length_byQuarter _))

theorem swm_takes (form : SwmForm) (b : SReg) : TakesPasses s h k (.swm h form b k)
    (s.tileless.or (Chk.xl true (xlLines (s.xlLocal false true 64) (s.s b) (swmLines form)))) (swmLines form) := by
  have hexec : exec (.swm h form b k) s = execSwm h form b k s := rfl
  unfold execSwm at hexec
  exact plain_takes ha hroom hstack hcore hexec ((List.length_map _).trans List.length_range)

theorem swl_takes (b : SReg) : TakesPasses s h k (.swl h b k)
    (s.tileless.or (Chk.xl false (xlLines (s.xlLocal true false 64) (s.s b) 1))) 1 := by
  have hexec : exec (.swl h b k) s = execSwl h b k s := rfl
  unfold execSwl at hexec
  exact plain_takes ha hroom hstack hcore hexec rfl

theorem swx_takes (t : TileNo) (j0 : Fin 64) (n : Fin 128) :
    TakesPasses s h k (.swx h t j0 n k) (chkIf (s.noTile t) .illegal 5) (s.swxQuarters (s.active h)).length := by
  have hexec : exec (.swx h t j0 n k) s = execSwx h t j0 n k s := rfl
  unfold execSwx at hexec
  exact plain_takes ha hroom hstack hcore hexec (List.length_mapIdx.trans (length_swxQuarters s _))

/-- The passes of a swatch multiply: eight of the buckets that take part to each. -/
theorem swatchMul_takes (i : Instr) (t : TileNo) (a : VReg) (b : SReg) (ks : Fin 256) (c : VReg) (soff : Word) (grad : Bool)
    (hexec : exec i s = s.swatchMul i h t a b ks c soff k grad) : TakesPasses s h k i (s.denseChk t a b ks c soff grad true)
      (max 1 (((s.swAccepted.taking (palSwe s.me.pal) (s.active h)).length + 7) / 8)) := by
  unfold State.swatchMul at hexec
  refine plain_takes ha hroom hstack hcore hexec ((length_swatchPasses s.fresh427 _ grad).trans ?_)
  rw [swAccepted_fresh427]
  rfl

end

/-- Settles O30: each form is accepted by one rule, with the passes that it makes. -/
theorem arrayInstructionsAreAccepted : Obligations.ArrayInstructionsAreAccepted := by
  intro s h t a c d b sd ks soff k all uns sat ofn j0 n dst ty rule planes width form ha hroom hstack hcore
  have htile : (if s.gr.tiles.length ≤ t.val then some (.illegal, 5) else none : Chk) = chkIf (s.noTile t) .illegal 5 := by
    unfold chkIf State.noTile
    simp
  have hfixed : (if s.gr.tiles = [] then some (.illegal, 5) else none : Chk) = s.tileless := by
    unfold State.tileless chkIf
    simp
  intro quarters buckets same takes tile fixed drain bad
  have htile : tile = chkIf (s.noTile t) .illegal 5 := htile
  have hfixed : fixed = s.tileless := hfixed
  rw [htile, hfixed]
  exact ⟨mma_takes ha hroom hstack hcore t a b ks c soff, fun hmmab => mmab_takes ha hroom hstack hcore hmmab t a b c soff,
    accz_takes ha hroom hstack hcore all t, accrd_takes ha hroom hstack hcore d t j0 n, accwr_takes ha hroom hstack hcore t a j0 n,
    accst_takes ha hroom hstack hcore sd t, drq_takes ha hroom hstack hcore dst t b c uns j0 n,
    drf_takes ha hroom hstack hcore dst t ty sat ofn j0 n, swc_takes ha hroom hstack hcore rule b planes width,
    swb_takes ha hroom hstack hcore, swh_takes ha hroom hstack hcore a b c, swm_takes ha hroom hstack hcore form b,
    swl_takes ha hroom hstack hcore b, swx_takes ha hroom hstack hcore t j0 n,
    swatchMul_takes ha hroom hstack hcore (.mmas h t a b ks c soff k) t a b ks c soff false rfl,
    swatchMul_takes ha hroom hstack hcore (.mmag h t a b ks soff k) t a b ks 0 soff true rfl⟩

end Sys2Proof.Machine
end

section
/-! PROOF. Privileged forms are checked first, and the lines of an instruction cache (R144, R380, R412). -/
namespace Sys2Proof.Machine

/-! ### Outside privileged mode -/

theorem gateP_raises {s : State} (hp : s.me.priv = false) (i : Instr) (h : Hd) (n : Need8) (body : State → State) :
    s.gateP i h n body = .next (s.raise (s.trapHere .priv 0)) := if_neg (Bool.eq_false_iff.mp hp)

/-- A privileged form raises PRIV before anything else of it is looked at. -/
theorem needsPriv_raises {i : Instr} {s : State} (hi : needsPriv i = true) (hp : s.me.priv = false) :
    exec i s = .next (s.raise (s.trapHere .priv 0)) := by
  unfold needsPriv at hi
  split at hi
  · exact gateP_raises hp _ _ _ _
  · exact gateP_raises hp _ _ _ _
  · exact gateP_raises hp _ _ _ _
  · exact gateP_raises hp _ _ _ _
  · exact gateP_raises hp _ _ _ _
  · exact if_pos ⟨eq_of_beq hi, hp⟩
  · cases hi

theorem privilegedFormsAreChecked : Claims.PrivilegedFormsAreChecked := by
  rintro i s (⟨hi, hp⟩ | ⟨hi, hp⟩)
  · exact needsPriv_raises hi hp
  · unfold needsHandler at hi
    split at hi
    · exact if_neg (Bool.eq_false_iff.mp hp)
    · cases hi

/-! ### Instruction-cache lines (R144) -/

theorem logPois_shape (s : State) (pa pois : Nat) : s.logPois pa pois = { s with stks := (s.logPois pa pois).stks } := by
  unfold State.logPois
  split <;> rfl

/-- An instruction-cache line changes a cache or the log of a home, and nothing else. -/
theorem icLine_shape (s : State) (k c asid grid : Nat) (act : IcAct) (va : Nat) :
    s.icLine k c asid grid act va = { s with stks := (s.icLine k c asid grid act va).stks } := by
  unfold State.icLine
  split
  · rfl
  dsimp only
  split
  · cases act <;> dsimp only <;> split <;> rfl
  · split
    · rfl
    · split
      · exact logPois_shape s _ _
      · rfl

/-- A fold of steps that change the stacks alone changes the stacks alone. -/
theorem foldl_stks {α : Type} {f : State → α → State} (hf : ∀ u x, f u x = { u with stks := (f u x).stks }) (xs : List α) (s : State) :
    xs.foldl f s = { s with stks := (xs.foldl f s).stks } := by
  induction xs generalizing s with
  | nil => rfl
  | cons x xs ih =>
    rw [List.foldl_cons, ih (f s x)]
    exact (congrArg (fun u : State => ({ u with stks := (xs.foldl f (f s x)).stks } : State)) (hf s x)).trans rfl

theorem icRange_shape (s : State) (lvl : IcLevel) (act : IcAct) (va len : Nat) :
    s.icRange lvl act va len = { s with stks := (s.icRange lvl act va len).stks } := by
  unfold State.icRange
  exact foldl_stks (fun u x => foldl_stks (fun v q => icLine_shape v _ _ _ _ _ _) _ u) _ s

/-- One byte lies in one line. -/
theorem icRange_one (s : State) (act : IcAct) (va : Nat) :
    s.icRange .core act va 1 = s.icLine s.me.stack s.me.core s.me.asid s.gr.grid act (64 * (va / 64)) := by
  unfold State.icRange State.icCores
  simp

/-! ### What an instruction-cache instruction leaves -/

/-- The instruction has run, and the line `n` of the core's cache is as `p` says. -/
def HasLine (s : State) (bytes n : Nat) (p : ILine → Prop) (t : State) : Prop := Kept s t
  ∧ GoesTo s t (s.me.pc + BitVec.ofNat 64 bytes) ∧ t.me.toks = s.me.toks ∧ t.me.ops = s.me.ops
  ∧ ∃ l, t.myCore.icache.find? (fun (q : ILine) => q.line == n) = some l ∧ p l

section
variable {s : State} {h : Hd} (ha : s.Acts h)
include ha

theorem icOp_answers {i : Instr} {lvl : IcLevel} {act : IcAct} {a : SReg} {len : Word} (hi : exec i s = s.icOp i h lvl act a len) :
    exec i s = .next ((s.fresh427.icRange lvl act (s.s a).toNat len.toNat).retire h i.bytes) := by
  rw [hi]
  exact gate_acts ha rfl rfl

theorem icOp_keeps {i : Instr} {lvl : IcLevel} {act : IcAct} {a : SReg} {len : Word} (hi : exec i s = s.icOp i h lvl act a len) :
    Answers i s fun t => t.mem = s.mem ∧ t.me.sregs = s.me.sregs ∧ t.win.regs = s.win.regs := by
  refine ⟨_, icOp_answers ha hi, ?_⟩
  rw [icRange_shape]
  have k := (Kept.refl ({ s.fresh427 with stks := (s.fresh427.icRange lvl act (s.s a).toNat len.toNat).stks } : State)).retire h i.bytes
  exact ⟨k.mem, k.sregs, k.regs⟩

/-- What the instruction does of one line is what it leaves of the core's cache. -/
theorem icOp_line {i : Instr} {act : IcAct} {a : SReg} (hk : s.me.stack < 16) (hc : s.me.core < 8)
    (hi : exec i s = s.icOp i h .core act a 1#32) {n : Nat} {p : ILine → Prop}
    (hline : ∃ l, (s.fresh427.icLine s.me.stack s.me.core s.me.asid s.gr.grid act (64 * ((s.s a).toNat / 64))).myCore.icache.find?
      (fun (q : ILine) => q.line == n) = some l ∧ p l) : Answers i s (HasLine s i.bytes n p) := by
  refine ⟨_, icOp_answers ha hi, ?_⟩
  have hone : s.fresh427.icRange .core act (s.s a).toNat (1#32).toNat
      = s.fresh427.icLine s.me.stack s.me.core s.me.asid s.gr.grid act (64 * ((s.s a).toNat / 64)) := icRange_one s.fresh427 act _
  rw [hone]
  rw [icLine_shape] at hline ⊢
  generalize (s.fresh427.icLine s.me.stack s.me.core s.me.asid s.gr.grid act (64 * ((s.s a).toNat / 64))).stks = stks at hline ⊢
  obtain ⟨hregs, hsregs, hpreds, hpal, hseeds, hrange, hmstep, htrap, hexited, hmem, hbytes, htiles, hswatch, hsplits⟩ :=
    (Kept.refl ({ s.fresh427 with stks := stks } : State)).retire h i.bytes
  obtain ⟨htoks, hops, -⟩ := retire_keeps ({ s.fresh427 with stks := stks } : State) h i.bytes
  obtain ⟨pipes, hcore⟩ := retire_myCore (s := ({ s.fresh427 with stks := stks } : State)) hk hc h i.bytes
  refine ⟨⟨hregs, hsregs, hpreds, hpal, hseeds, hrange, hmstep, htrap, hexited, hmem, hbytes, htiles, hswatch, hsplits⟩,
    retire_goes h _ rfl rfl rfl rfl rfl, htoks, hops, ?_⟩
  rw [hcore]
  exact hline

end

/-! ### One line -/

/-- The lines of a core's cache after an instruction-cache instruction of grid `grid` on line `n`, whose bytes are `data`. -/
def icAfter (act : IcAct) (grid n data : Nat) (q : List ILine) : List ILine :=
  let room : Bool := (q.filter fun (l : ILine) => l.pin.isSome).length < pinLimit
  let set (p : Option Nat) : List ILine := q.map fun (l : ILine) => if l.line = n then { l with pin := p } else l
  match q.find? fun (l : ILine) => l.line == n with
  | some l => match act with
    | .pre => q
    | .pin => if l.pin.isNone && room then set (some grid) else q
    | .free => if l.pin = some grid then set none else q
  | none => if act = .free then q else icInsert ⟨n, data, if act = .pin && room then some grid else none⟩ q

/-- A line that translates and is not poisoned stands in the cache, or is brought there. -/
theorem icLine_icache {s : State} {k c asid grid : Nat} (hk : k < 16) (hc : c < 8) (act : IcAct) {va : Nat} {x : Xl}
    (hx : xlate s k c asid ⟨false, false, true, false⟩ 1 (BitVec.ofNat 64 va) = .ok x) (hp : s.mem.poisoned x.pa = false) :
    ((s.icLine k c asid grid act va).core k c).icache
      = icAfter act grid (lineOf x.pa) (s.mem.read x.pa 64) (s.core k c).icache := by
  have hcore (f : Core → Core) : ((s.onCore k c f).core k c).icache = (f (s.core k c)).icache :=
    congrArg Core.icache (core_onCore s hk hc f)
  unfold State.icLine icAfter
  rw [hx]
  dsimp only
  rw [hp]
  cases hq : (s.core k c).icache.find? fun (l : ILine) => l.line == lineOf x.pa with
  | some l =>
    cases act with
    | pre => rfl
    | pin =>
      dsimp only
      by_cases hpin : (l.pin.isNone && decide ((List.filter (fun l => l.pin.isSome) (s.core k c).icache).length < pinLimit)) = true
      · rw [if_pos hpin, if_pos hpin]; exact hcore _
      · rw [if_neg hpin, if_neg hpin]
    | free =>
      dsimp only
      by_cases hpin : l.pin = some grid
      · rw [if_pos hpin, if_pos hpin]; exact hcore _
      · rw [if_neg hpin, if_neg hpin]
  | none =>
    dsimp only
    by_cases hfree : act = .free
    · rw [if_pos hfree, if_pos hfree]
    · rw [if_neg hfree, if_neg hfree, if_neg Bool.false_ne_true]; exact hcore _

theorem find?_icInsert {l : ILine} {q : List ILine} {n : Nat} (hlen : q.length < 4096) (hl : l.line = n) :
    (icInsert l q).find? (fun x => x.line == n) = some l := by
  unfold icInsert
  rw [if_pos hlen]
  exact List.find?_cons_of_pos (beq_iff_eq.mpr hl)

theorem find?_setPin {q : List ILine} {n : Nat} {l : ILine} (hq : q.find? (fun x => x.line == n) = some l) (p : Option Nat) :
    (q.map fun (x : ILine) => if x.line = n then { x with pin := p } else x).find? (fun x => x.line == n)
      = some { l with pin := p } := by
  have hsame : (fun x : ILine => x.line == n) ∘ (fun x : ILine => if x.line = n then { x with pin := p } else x)
      = fun x => x.line == n := by
    funext x
    show ((if x.line = n then { x with pin := p } else x : ILine).line == n) = _
    split <;> rfl
  have hl : l.line = n := by simpa using List.find?_some hq
  rw [List.find?_map, hsame, hq]
  exact congrArg some (if_pos hl)

/-! ### The forms -/

theorem icAfter_pre {q : List ILine} (hlen : q.length < 4096) (grid n data : Nat) :
    ∃ l, (icAfter .pre grid n data q).find? (fun x => x.line == n) = some l
      ∧ ((∀ x ∈ q, x.line ≠ n) → l.data = data ∧ l.pin = none) := by
  unfold icAfter
  cases hq : q.find? fun x => x.line == n with
  | some l =>
    have hl : l.line = n := by simpa using List.find?_some hq
    exact ⟨l, hq, fun hne => absurd hl (hne l (List.mem_of_find?_eq_some hq))⟩
  | none => exact ⟨_, find?_icInsert hlen rfl, fun _ => ⟨rfl, rfl⟩⟩

theorem icAfter_pin {q : List ILine} (hlen : q.length < 4096) {n : Nat}
    (hroom : (q.filter fun (l : ILine) => l.pin.isSome).length < 2048) (hfree : ∀ l ∈ q, l.line = n → l.pin = none) (grid data : Nat) :
    ∃ l, (icAfter .pin grid n data q).find? (fun x => x.line == n) = some l ∧ l.pin = some grid := by
  have hlimit : decide ((q.filter fun (l : ILine) => l.pin.isSome).length < pinLimit) = true := decide_eq_true hroom
  unfold icAfter
  rw [hlimit]
  cases hq : q.find? fun x => x.line == n with
  | some l =>
    have hl : l.line = n := by simpa using List.find?_some hq
    have hpin : l.pin = none := hfree l (List.mem_of_find?_eq_some hq) hl
    refine ⟨{ l with pin := some grid }, ?_, rfl⟩
    dsimp only
    rw [hpin]
    exact find?_setPin hq (some grid)
  | none => exact ⟨_, find?_icInsert hlen rfl, rfl⟩

theorem icAfter_free {q : List ILine} {n grid : Nat} {l : ILine} (hq : q.find? (fun x => x.line == n) = some l)
    (hpin : l.pin = some grid) (data : Nat) :
    ∃ l, (icAfter .free grid n data q).find? (fun x => x.line == n) = some l ∧ l.pin = none := by
  unfold icAfter
  rw [hq]
  dsimp only
  rw [if_pos hpin]
  exact ⟨_, find?_setPin hq none, rfl⟩

theorem instructionCacheLines : Claims.InstructionCacheLines := by
  intro s h a x ha hk hc hp hx
  have hx' : xlate s.fresh427 s.me.stack s.me.core s.me.asid ⟨false, false, true, false⟩ 1
      (BitVec.ofNat 64 (64 * ((s.s a).toNat / 64))) = .ok x :=
    (xlate_congr (s := s) (t := s.fresh427) rfl rfl rfl _ _ _ _ _ _).trans hx
  have hline (act : IcAct) {p : ILine → Prop}
      (hl : ∃ l, (icAfter act s.gr.grid (lineOf x.pa) (s.mem.read x.pa 64) s.myCore.icache).find?
        (fun (q : ILine) => q.line == lineOf x.pa) = some l ∧ p l) :
      ∃ l, (s.fresh427.icLine s.me.stack s.me.core s.me.asid s.gr.grid act (64 * ((s.s a).toNat / 64))).myCore.icache.find?
        (fun (q : ILine) => q.line == lineOf x.pa) = some l ∧ p l := by
    have hcache := icLine_icache (grid := s.gr.grid) hk hc act hx' hp
    rw [icLine_shape] at hcache ⊢
    exact hcache.symm ▸ hl
  refine ⟨fun hlen => ?_, fun hlen hroom hfree => ?_, fun ⟨l, hfind, hpin⟩ => ?_, fun lvl len => ?_⟩
  · exact icOp_line ha hk hc (i := .icpre h .core a 1#32) rfl (hline .pre (icAfter_pre hlen _ _ _))
  · exact icOp_line ha hk hc (i := .icpin h .core a 1#32) rfl (hline .pin (icAfter_pin hlen hroom hfree _ _))
  · exact icOp_line ha hk hc (i := .icfree h .core a 1#32) rfl (hline .free (icAfter_free hfind hpin _))
  · exact ⟨icOp_keeps ha (i := .icpre h lvl a len) rfl, icOp_keeps ha (i := .icpin h lvl a len) rfl,
      icOp_keeps ha (i := .icfree h lvl a len) rfl⟩

end Sys2Proof.Machine
end

section
/-! PROOF. Privileged forms in privileged mode (R145 to R148). -/
namespace Sys2Proof.Machine

/-! ### Their issue -/

theorem gateP_on {s : State} (hp : s.me.priv = true) {i : Instr} {h : Hd} {n : Need8} {body : State → State} (ha : s.Acts h)
    (hk : n.chk = none) (ht : ∀ k, n.tok = some k → s.Room k) : s.gateP i h n body = .next (body s.fresh427) :=
  (if_pos hp).trans (gate_on ha hk ht)

/-- An operation issues, and the run goes on. -/
theorem issue_starts {s : State} {i : Instr} {h hd : Hd} {k : Tok} {what : Op → Prop} {o : Op} (hi : o.instr = i) (hpc : o.ipc = s.me.pc)
    (htok : o.tok = some k) (hact : o.act = s.active h) (hwb : o.wb = s.me.wbase) (hland : o.landed = 0#32) (hw : what o) :
    Starts s i h k what ((s.fresh427.spoil.issue o).retire hd i.bytes) := by
  rw [issue_tok htok]
  obtain ⟨htoks, hops, hres⟩ := retire_keeps ({ s.fresh427.spoil with
    nextId := s.fresh427.spoil.nextId + 1
    me := { s.fresh427.spoil.me with
      toks := vset s.me.toks k.val (s.me.tok k + 1), ops := s.me.ops ++ [o] } } : State) hd i.bytes
  have hn : Near s ({ s.fresh427.spoil with
    nextId := s.fresh427.spoil.nextId + 1
    me := { s.fresh427.spoil.me with
      toks := vset s.me.toks k.val (s.me.tok k + 1), ops := s.me.ops ++ [o] } } : State) := ⟨rfl, rfl, rfl⟩
  exact ⟨⟨o, hops, hi, hpc, htok, hact, hwb, hland, hw⟩, htoks, hres, hn.retire_moved hd _, hn.retire_goes hd _ rfl rfl rfl rfl⟩

theorem toksZero_of_zero {w : Split} (h : w.toks = Vector.replicate 8 0) (m : BitVec 8) : w.toksZero m = true := by
  unfold Split.toksZero
  rw [h, List.all_eq_true]
  intro k hk
  have : k < 8 := List.mem_range.mp hk
  simp [vget, this]

/-! ### `stkspill` and `stkfill` (R145) -/

theorem foldr_xl_length (f : Nat → Except TClass Xl) (ns : List Nat) {pas : List (Nat × Nat)}
    (h : ns.foldr (fun i (r : Except TClass (List (Nat × Nat))) => match f i, r with
      | .error c, _ => .error c
      | .ok _, .error c => .error c
      | .ok x, .ok l => .ok ((x.pa, x.pois) :: l)) (.ok []) = .ok pas) : pas.length = ns.length := by
  induction ns generalizing pas with
  | nil => cases h; rfl
  | cons n ns ih =>
    rw [List.foldr_cons] at h
    split at h
    · cases h
    · cases h
    next hr => cases h; rw [List.length_cons, List.length_cons, ih hr]

theorem xlEntries_length {s : State} {wr : Bool} {va : Dword} {n : Nat} {pas : List (Nat × Nat)}
    (h : s.xlEntries wr va n = .ok pas) : pas.length = max n 1 := by
  have := foldr_xl_length (fun i => s.xlLocal (!wr) wr 16 (va + BitVec.ofNat 64 (16 * i))) (List.range (Nat.max n 1)) h
  rwa [List.length_range] at this

/-- A read of lines of which none is poisoned is not logged. -/
theorem foldl_logPois {s : State} {pas : List (Nat × Nat)} (h : ∀ x ∈ pas, s.mem.poisoned x.1 = false) :
    pas.foldl (fun (v : State) x => v.logPois x.1 x.2) s = s := by
  induction pas with
  | nil => rfl
  | cons x xs ih =>
    have hx : s.logPois x.1 x.2 = s := by
      unfold State.logPois
      rw [h x List.mem_cons_self]
      rfl
    rw [List.foldl_cons, hx]
    exact ih fun y hy => h y (List.mem_cons_of_mem _ hy)

section
variable {s : State} {h : Hd} {k : Tok} {a : SReg} (ha : s.Acts h) (hroom : s.Room k) (hp : s.me.priv = true)
include ha hroom hp

theorem stkspill_starts (d : SReg) {n : Word} {pas : List (Nat × Nat)}
    (hpas : s.xlEntries true (s.s a) (min n.toNat s.own.length) = .ok pas) : Answers (.stkspill h d a n k) s
      (Starts s (.stkspill h d a n k) h k fun o => o.cidx.toNat = min n.toNat s.own.length ∧ o.kind = .plain) := by
  have hpas : s.xlEntries true (s.s a) (s.spillCount n) = .ok pas := hpas
  have hcount : (pas.take (s.spillCount n)).length = min n.toNat s.own.length := by
    rw [List.length_take, xlEntries_length hpas]
    exact min_eq_left (le_max_left _ _)
  have hlt : min n.toNat s.own.length < 2 ^ 64 := (min_le_left _ _).trans_lt (n.isLt.trans (by decide))
  have hexec : exec (.stkspill h d a n k) s = execStkspill h d a n k s := rfl
  unfold execStkspill at hexec
  rw [hpas] at hexec
  refine ⟨_, hexec.trans (gateP_on hp ha rfl fun k' e => by cases e; exact hroom), issue_starts rfl rfl rfl rfl rfl rfl ⟨?_, rfl⟩⟩
  show (BitVec.ofNat 64 (pas.take (s.spillCount n)).length).toNat = _
  rw [hcount, BitVec.toNat_ofNat, Nat.mod_eq_of_lt hlt]

theorem stkfill_starts (d : SReg) {n : Word} {f : Fill} (hf : s.fill (s.s a) (min n.toNat (32 - s.win.entries.length)) = .ok f)
    (hb : f.blocked = false) (hpois : ∀ x ∈ f.pas, s.mem.poisoned x.1 = false) : Answers (.stkfill h d a n k) s
      (Starts s (.stkfill h d a n k) h k fun o => o.blob = f.words ∧ o.kind = .plain) := by
  have hf : s.fill (s.s a) (s.fillCount n) = .ok f := hf
  have hexec : exec (.stkfill h d a n k) s = execStkfill h d a n k s := rfl
  unfold execStkfill at hexec
  rw [hf] at hexec
  refine ⟨_, hexec.trans (gateP_on hp ha rfl fun k' e => by cases e; exact hroom), ?_⟩
  dsimp only
  rw [hb, if_neg Bool.false_ne_true, foldl_logPois (s := s.fresh427) hpois]
  exact issue_starts rfl rfl rfl rfl rfl rfl ⟨rfl, rfl⟩

end

/-! ### `ctxsv` (R146) -/

theorem afterLanding_empty {s : State} (h : s.me.results = []) (t : State) : s.afterLanding t = some t := by
  unfold State.afterLanding
  rw [h]
  rfl

theorem await_ctxsv {s : State} {m : BitVec 8} (hs : s.me.status = .run) (hz : s.me.toksZero m = true) (hres : s.me.results = [])
    (o : Op) : s.await [.toks m] (.ctxsv o) = s.ctxsvEffect o := by
  have hproceed : s.proceed (.ctxsv o) = s.afterLanding (s.ctxsvEffect o) := rfl
  exact await_zero hs hz (hproceed.trans (afterLanding_empty hres _))

/-- The image of the split does not turn on how it came to its issue. -/
theorem imageFixed_issue (s : State) (pc : Dword) (clear : SReg) : s.fresh427.spoil.imageFixed pc clear = s.imageFixed pc clear := by
  unfold State.imageFixed
  rfl

/-- The operation of a `ctxsv` once it has taken the image. -/
def State.contextOp (s : State) (o : Op) (d : SReg) : Op :=
  { o with id := s.nextId, after := s.me.ops.map fun (e : Op) => e.id, blob := s.imageFixed (s.me.pc + 12#64) d ++ s.imageRegs }

theorem ctxsvEffect_eq (s : State) {o : Op} {h : Hd} {d a : SReg} {k : Tok} (hi : o.instr = .ctxsv h d a k) :
    s.ctxsvEffect o = (s.issue (s.contextOp o d)).retire (hdOf (.ctxsv h d a k)) (Instr.ctxsv h d a k).bytes := by
  have hblob : s.ctxsvEffect o = (s.issue (s.contextOp o (match o.instr with
    | .ctxsv _ d _ _ => d
    | _ => 0))).retire (hdOf o.instr) o.instr.bytes := rfl
  rw [hblob, hi]

section
variable {s : State} {h : Hd} {k : Tok} {a : SReg} (ha : s.Acts h) (hroom : s.Room k) (hp : s.me.priv = true)
  (hrun : s.me.status = .run) (htoks : s.me.toks = Vector.replicate 8 0) (hres : s.me.results = [])
include ha hroom hp hrun htoks hres

theorem ctxsv_starts (d : SReg) {pas : List (Nat × Nat)}
    (hpas : s.xlLines true (s.s a) (16 + 2 * (s.me.wbase + s.me.frame)) = .ok pas) : Answers (.ctxsv h d a k) s
      (Starts s (.ctxsv h d a k) h k fun o => o.blob = s.imageFixed (s.me.pc + 12#64) d ++ s.imageRegs
        ∧ vget o.addr 0 0#64 = s.s a) := by
  have hpas : s.xlLines true (s.s a) s.imageLines = .ok pas := hpas
  have hexec : exec (.ctxsv h d a k) s = execCtxsv h d a k s := rfl
  unfold execCtxsv at hexec
  rw [hpas] at hexec
  refine ⟨_, hexec.trans (gateP_on hp ha rfl fun k' e => by cases e; exact hroom), ?_⟩
  dsimp only
  rw [await_ctxsv (s := s.fresh427.spoil) hrun (toksZero_of_zero (w := s.fresh427.spoil.me) htoks _) hres]
  rw [ctxsvEffect_eq s.fresh427.spoil (h := h) (d := d) (a := a) (k := k) rfl]
  refine issue_starts rfl rfl rfl rfl rfl rfl ?_
  exact ⟨congrArg (· ++ s.imageRegs) (imageFixed_issue s _ d), (vget_vset _ _ _ _ _ (by decide)).trans (if_pos rfl)⟩

end

/-! ### `ctxld` (R147, R413) -/

theorem xlLocal_fresh427 (s : State) : s.fresh427.xlLocal = s.xlLocal := by
  funext rd wr al va
  unfold State.xlLocal
  rw [xl_fresh427]
  rfl

theorem xlLines_fresh427 (s : State) : s.fresh427.xlLines = s.xlLines := by
  funext wr va n
  unfold State.xlLines
  rw [xlLocal_fresh427]

theorem residents_fresh427 (s : State) : s.fresh427.residents = s.residents :=
  residentsOf_congr (s := s) (u := s.fresh427) rfl rfl rfl rfl rfl s.win

theorem fetchImage_fresh427 (s : State) (va : Dword) : s.fresh427.fetchImage va = s.fetchImage va := by
  have hroom : s.fresh427.imageRoom = s.imageRoom := by
    funext i
    unfold State.imageRoom
    rw [residents_fresh427]
    rfl
  have hok : s.fresh427.imageOk = s.imageOk := rfl
  have hmem : s.fresh427.mem = s.mem := rfl
  unfold State.fetchImage
  rw [xlLines_fresh427, hroom, hok, hmem]

/-- Whole registers that are loaded change the registers, and nothing else. -/
theorem foldl_applyWr_v {α : Type} (f : α → Nat) (m : Mask) (g : α → Lanes) (xs : List α) (s : State) :
    ∃ rs, xs.foldl (fun (u : State) x => u.applyWr (.v (f x) m (g x))) s = { s with win := { s.win with regs := rs } } := by
  induction xs generalizing s with
  | nil => exact ⟨s.win.regs, rfl⟩
  | cons x xs ih =>
    obtain ⟨rs, h⟩ := ih (s.applyWr (.v (f x) m (g x)))
    exact ⟨rs, h⟩

/-- The state of the split becomes the image's; its registers are loaded besides. -/
theorem restore_shape (s : State) (m : Memory) (i : Image) (pa : Nat) (lanes : Mask) (regs : List Nat) : ∃ rs,
    s.restore m i pa lanes regs = { s with
      me := { s.me with
        pc := i.pc, act := i.act, exited := i.exited, sregs := i.sregs, preds := i.preds, pal := i.pal, rlo := i.rlo,
        rhi := i.rhi, rdue := i.splitno / 4, seeds := i.seeds, wbase := i.wbase, frame := i.frame,
        postloc := s.me.postloc ||| i.postloc, postmod := s.me.postmod ||| i.postmod },
      win := { s.win with
        entries := disown s.residents s.win.entries s.me.num ++ i.entries.map fun (e : Entry) => e.filled s.me.num, regs := rs } } := by
  unfold State.restore
  obtain ⟨rs, h⟩ := foldl_applyWr_v (fun x : Nat × Nat => x.2) lanes
    (fun x => lanesOf fun l => BitVec.ofNat 32 (m.read (pa + 0x400 + 128 * x.1 + 4 * l) 4)) (regs.mapIdx fun n r => (n, r)) _
  exact ⟨rs, h⟩

/-- After a context load the entries of the split are the image's. -/
theorem own_of_restore (res : BitVec 4) (es fs : List Entry) {n : Nat} (hn : n < 4) :
    (disown res es n ++ fs.map fun e => e.filled n).filter (fun e => e.owned n) = fs.map fun e => e.filled n := by
  have hdropped : (disown res es n).filter (fun e => e.owned n) = [] := by
    refine List.filter_eq_nil_iff.mpr fun e he => ?_
    obtain ⟨x, -, rfl⟩ := List.mem_map.mp (List.mem_of_mem_filter he)
    split
    · rw [owned_drop]; decide
    next hx => exact hx
  have hfilled : (fs.map fun e => e.filled n).filter (fun e => e.owned n) = fs.map fun e => e.filled n := by
    refine List.filter_eq_self.mpr fun e he => ?_
    obtain ⟨x, -, rfl⟩ := List.mem_map.mp he
    unfold Entry.owned Entry.filled ownBit
    simp [hn]
  rw [List.filter_append, hdropped, hfilled, List.nil_append]

/-- A split without a number of a slot owns no entry. -/
theorem own_of_ge {n : Nat} (hn : ¬ n < 4) (es : List Entry) : es.filter (fun e => e.owned n) = [] :=
  List.filter_eq_nil_iff.mpr fun e _ => by
    have : e.owned n = false := BitVec.getLsbD_of_ge _ _ (by omega)
    rw [this]; decide

/-- The run goes on at the image's PC as it stands, where the image's newest entry does not end there. -/
theorem straight_of_restore (res : BitVec 4) (es fs : List Entry) (n : Nat) {pc : Dword}
    (h : maskedRpc (fs.map fun e => e.filled n) ≠ some pc) :
    maskedRpc ((disown res es n ++ fs.map fun e => e.filled n).filter fun e => e.owned n) ≠ some pc := by
  by_cases hn : n < 4
  · rwa [own_of_restore res es fs hn]
  · rw [own_of_ge hn]; exact fun h => nomatch h

/-- From `s` to `t` the split has taken the state of the image `i`. -/
def Loads (s : State) (i : Image) (t : State) : Prop := t.me.pc = i.pc ∧ t.me.act = i.act ∧ t.me.exited = i.exited
  ∧ t.me.sregs = i.sregs ∧ t.me.preds = i.preds ∧ t.me.pal = i.pal ∧ t.me.rlo = i.rlo ∧ t.me.rhi = i.rhi ∧ t.me.seeds = i.seeds
  ∧ t.me.wbase = i.wbase ∧ t.me.frame = i.frame ∧ t.me.toks = s.me.toks ∧ t.mem = s.mem ∧ t.splits = s.splits

theorem ctxldEffect_loads {s : State} {va : Dword} {lines : List (Nat × Nat)} (hl : s.fetchImage va = .ok lines)
    (hpc : maskedRpc ((readImage (gatherLines s.mem lines) 0).entries.map fun e => e.filled s.me.num)
      ≠ some (readImage (gatherLines s.mem lines) 0).pc) :
    Loads s (readImage (gatherLines s.mem lines) 0) (s.ctxldEffect va) := by
  have heffect : s.ctxldEffect va = (match s.fetchImage va with
    | .error (c, d) => s.raise (s.trapHere c d)
    | .ok lines =>
      let m := gatherLines s.mem lines
      let i := readImage m 0
      let u := lines.foldl (fun (t : State) x => t.logPois x.1 x.2) s
      let t := u.restore m i 0 i.act i.regs
      ({ t with me := { t.me with spin := none } } : State).finish i.pc) := rfl
  rw [heffect, hl]
  dsimp only
  generalize readImage (gatherLines s.mem lines) 0 = i at hpc ⊢
  rw [foldl_stks (fun u x => logPois_shape u x.1 x.2) lines s]
  generalize (lines.foldl (fun (t : State) x => t.logPois x.1 x.2) s).stks = stks
  obtain ⟨rs, hr⟩ := restore_shape ({ s with stks := stks } : State) (gatherLines s.mem lines) i 0 i.act i.regs
  have hstraight := straight_of_restore (({ s with stks := stks } : State).residents) s.win.entries i.entries s.me.num hpc
  rw [hr]
  generalize disown (({ s with stks := stks } : State).residents) s.win.entries s.me.num
    ++ i.entries.map (fun e => e.filled s.me.num) = es at hstraight ⊢
  rw [finish_straight]
  swap
  · exact hstraight
  obtain ⟨r, n, w, sl, pd, ck, f, he⟩ := endRun_shape _
  rw [he]
  exact ⟨rfl, rfl, rfl, rfl, rfl, rfl, rfl, rfl, rfl, rfl, rfl, rfl, rfl, rfl⟩

theorem await_ctxld {s : State} {m : BitVec 8} (hs : s.me.status = .run) (hz : s.me.toksZero m = true) (hres : s.me.results = [])
    (va : Dword) : s.await [.toks m] (.ctxld va) = s.ctxldEffect va := by
  have hproceed : s.proceed (.ctxld va) = s.afterLanding (s.ctxldEffect va) := rfl
  exact await_zero hs hz (hproceed.trans (afterLanding_empty hres _))

theorem ctxld_loads {s : State} {h : Hd} {a : SReg} (ha : s.Acts h) (hp : s.me.priv = true) (hrun : s.me.status = .run)
    {lines : List (Nat × Nat)} (hl : s.fetchImage (s.s a) = .ok lines) (htoks : s.me.toks = Vector.replicate 8 0)
    (hres : s.me.results = [])
    (hpc : maskedRpc ((readImage (gatherLines s.mem lines) 0).entries.map fun e => e.filled s.me.num)
      ≠ some (readImage (gatherLines s.mem lines) 0).pc) :
    Answers (.ctxld h a) s (Loads s (readImage (gatherLines s.mem lines) 0)) := by
  have hl' : s.fresh427.fetchImage (s.s a) = .ok lines := (fetchImage_fresh427 s _).trans hl
  have hexec : exec (.ctxld h a) s = execCtxld h a s := rfl
  unfold execCtxld at hexec
  rw [hl] at hexec
  refine ⟨_, hexec.trans (gateP_on hp ha rfl fun k' e => nomatch e), ?_⟩
  rw [show s.fresh427.s a = s.s a from rfl, hl']
  dsimp only
  have hzero : s.fresh427.me.toksZero 0xFF#8 = true := toksZero_of_zero htoks _
  have hawait : s.fresh427.await [.toks 0xFF#8] (.ctxld (s.s a)) = s.fresh427.ctxldEffect (s.s a) :=
    await_ctxld (s := s.fresh427) hrun hzero hres (s.s a)
  rw [hawait]
  have hloads : Loads s.fresh427 (readImage (gatherLines s.mem lines) 0) (s.fresh427.ctxldEffect (s.s a)) :=
    ctxldEffect_loads (s := s.fresh427) hl' hpc
  unfold Loads at hloads ⊢
  exact hloads

/-! ### `tlbi` (R148, R192, R194) -/

/-- No translation and no table entry of the stack that the instruction names is left. -/
def StackSt.Invalidated (v : TlbiVar) (asid va : Nat) (q : StackSt) : Prop := (∀ x ∈ q.walks, walkMatches v asid va x = false)
  ∧ (∀ x ∈ q.tlb, tlbMatches v asid va x = false) ∧ ∀ c < 8, ∀ x ∈ (q.core c).tlb, tlbMatches v asid va x = false

/-- It rests on what `paths` reads of a stack. -/
theorem StackSt.Invalidated.of_paths {v : TlbiVar} {asid va : Nat} {q r : StackSt} (h : q.Invalidated v asid va) (hp : r.paths = q.paths) :
    r.Invalidated v asid va := by
  obtain ⟨hwalks, htlb, hcores⟩ := h
  have hw : r.walks = q.walks := congrArg (·.1.1) hp
  have ht : r.tlb = q.tlb := congrArg (·.1.2.1) hp
  have hc (c : Nat) : (r.core c).tlb = (q.core c).tlb := congrArg (fun x => x.1.2.2 c) hp
  unfold StackSt.Invalidated
  rw [hw, ht]
  exact ⟨hwalks, htlb, fun c hlt => by rw [hc]; exact hcores c hlt⟩

theorem invalidated_of_filters {v : TlbiVar} {asid va : Nat} (q : StackSt) (goes : ILine → Bool) : StackSt.Invalidated v asid va { q with
    tlb := q.tlb.filter fun x => !tlbMatches v asid va x,
    walks := q.walks.filter fun w => !walkMatches v asid va w,
    cores := q.cores.map fun (c : Core) => { c with
      tlb := c.tlb.filter fun x => !tlbMatches v asid va x, icache := c.icache.filter fun l => !goes l } } := by
  refine ⟨fun x hx => ?_, fun x hx => ?_, fun c hc x hx => ?_⟩
  · simpa using (List.mem_filter.mp hx).2
  · simpa using (List.mem_filter.mp hx).2
  · unfold StackSt.core at hx
    rw [vget_map _ _ _ hc Core.reset Core.reset] at hx
    simpa using (List.mem_filter.mp hx).2

/-- A step for every stack brings about on each what it brings about on one. -/
theorem foldl_onStk {P : StackSt → Prop} (f : State → Nat → StackSt → StackSt) (hf : ∀ t k q, P (f t k q)) (s : State) {n : Nat}
    (hn : n ≤ 16) : ∀ q < n, P (((List.range n).foldl (fun t k => t.onStk k (f t k)) s).stk q) := by
  induction n with
  | zero => intro q hq; omega
  | succ n ih =>
    intro q hq
    rw [List.range_succ, List.foldl_append, List.foldl_cons, List.foldl_nil, stk_onStk _ (by omega)]
    split
    · exact hf _ _ _
    · exact ih (by omega) q (by omega)

theorem invalidate_shape (s : State) (v : TlbiVar) (asid va : Nat) :
    s.invalidate v asid va = { s with stks := (s.invalidate v asid va).stks } := by
  unfold State.invalidate
  exact foldl_stks (fun _ _ => rfl) _ s

theorem invalidate_invalidated (s : State) (v : TlbiVar) (asid va : Nat) :
    ∀ q < 16, StackSt.Invalidated v asid va ((s.invalidate v asid va).stk q) := by
  unfold State.invalidate
  exact foldl_onStk _ (fun t k q => invalidated_of_filters q _) s (le_refl 16)

theorem retire_paths (s : State) (h : Hd) (n : Nat) : StackKept StackSt.paths s (s.retire h n) := by
  obtain ⟨a, pc, es, r, m, w, sl, pd, ck, f, hsh⟩ := settled_shape (s.stepped n) (h.e || 24 ≤ s.me.runLen + 1)
  rw [retire_eq, hsh]
  have hstep : StackKept StackSt.paths s (s.stepped n) := StackKept.of_eq rfl
  have hpipe := paths_onPipe (s.stepped n) s.me.stack s.me.core s.myPipe f
  exact (hstep.trans hpipe).trans (StackKept.of_eq rfl)

/-- An operation issues where the stacks alone have changed since the instruction's own issue. -/
theorem issue_over_stks {s : State} {o : Op} {k : Tok} (htok : o.tok = some k) (stks : Vector StackSt 16) (h : Hd) (n : Nat) :
    let t := (({ s.fresh427.spoil with stks := stks } : State).issue o).retire h n
    Kept s t ∧ GoesTo s t (s.me.pc + BitVec.ofNat 64 n) ∧ t.me.ops = s.me.ops ++ [o]
      ∧ t.me.toks = vset s.me.toks k.val (s.me.tok k + 1) ∧ StackKept StackSt.paths { s with stks := stks } t := by
  rw [issue_tok htok]
  generalize hv : ({ ({ s.fresh427.spoil with stks := stks } : State) with
    nextId := s.fresh427.spoil.nextId + 1
    me := { s.fresh427.spoil.me with
      toks := vset s.fresh427.spoil.me.toks k.val (s.fresh427.spoil.me.tok k + 1)
      ops := s.fresh427.spoil.me.ops ++ [o] } } : State) = v
  intro t
  have hkept : Kept s v := by subst hv; exact ⟨rfl, rfl, rfl, rfl, rfl, rfl, rfl, rfl, rfl, rfl, fun _ => rfl, rfl, rfl, rfl⟩
  have hgoes : GoesTo s t (s.me.pc + BitVec.ofNat 64 n) := by
    subst hv; exact retire_goes h n rfl rfl rfl rfl rfl
  obtain ⟨htoks, hops, -⟩ := retire_keeps v h n
  refine ⟨hkept.retire h n, hgoes, hops.trans ?_, htoks.trans ?_, (StackKept.of_eq ?_).trans (retire_paths v h n)⟩ <;> subst hv <;> rfl

theorem tlbi_invalidates {s : State} {h : Hd} {k : Tok} (ha : s.Acts h) (hroom : s.Room k) (hp : s.me.priv = true) (v : TlbiVar)
    (dom : Bool) (a b : SReg) : Answers (.tlbi h v dom a b k) s fun t => Kept s t
      ∧ GoesTo s t (s.me.pc + BitVec.ofNat 64 (Instr.tlbi h v dom a b k).bytes)
      ∧ (∃ o, t.me.ops = s.me.ops ++ [o] ∧ o.kind = .tlbi ∧ o.tok = some k)
      ∧ t.me.toks = vset s.me.toks k.val (s.me.tok k + 1)
      ∧ ∀ q < 16, StackSt.Invalidated v ((s.s a).toNat % 1024) (s.s b).toNat (t.stk q) := by
  have hexec : exec (.tlbi h v dom a b k) s = execTlbi h v dom a b k s := rfl
  unfold execTlbi at hexec
  refine ⟨_, hexec.trans (gateP_on hp ha rfl fun k' e => by cases e; exact hroom), ?_⟩
  have hinv := invalidate_invalidated s.fresh427.spoil v ((s.s a).toNat % 1024) (s.s b).toNat
  have hshape := invalidate_shape s.fresh427.spoil v ((s.s a).toNat % 1024) (s.s b).toNat
  rw [hshape] at hinv
  dsimp only
  rw [show s.fresh427.s a = s.s a from rfl, show s.fresh427.s b = s.s b from rfl, hshape]
  generalize (s.fresh427.spoil.invalidate v ((s.s a).toNat % 1024) (s.s b).toNat).stks = stks at hinv ⊢
  obtain ⟨hkept, hgoes, hops, htoks, hpaths⟩ := issue_over_stks (s := s) (o := Op.mk ..) rfl stks h (Instr.tlbi h v dom a b k).bytes
  exact ⟨hkept, hgoes, ⟨_, hops, rfl, rfl⟩, htoks, fun q hq => (hinv q hq).of_paths (hpaths.stk q)⟩

theorem privilegedForms : Claims.PrivilegedForms := by
  intro s h d a b n k v dom ha hroom hp hrun
  exact ⟨fun pas hpas => stkspill_starts ha hroom hp d hpas,
    fun f hf hb hpois => stkfill_starts ha hroom hp d hf hb hpois,
    fun pas hpas htoks hres => ctxsv_starts ha hroom hp hrun htoks hres d hpas,
    fun lines hl htoks hres hpc => ctxld_loads ha hp hrun hl htoks hres hpc,
    tlbi_invalidates ha hroom hp v dom a b⟩

/-- Settles O22: the checks of privilege, the forms in privileged mode, and the instruction-cache lines, each on its own. -/
theorem privilegedInstructions : Obligations.PrivilegedInstructions :=
  ⟨privilegedFormsAreChecked, privilegedForms, instructionCacheLines⟩

end Sys2Proof.Machine
end
